-- ==== Sys2Proof/Word.lean ====
section
/-! DEFINITION. The word types of the machine (R4, R5): bytes, 32-bit lane words, 64-bit hide and list words, a vector
of 32 lane words, and the sparse tables (lists of key and value pairs) that hold memories. -/

namespace Sys2Proof

/-- A byte of memory (R4). -/
abbrev Byte := BitVec 8

/-- A lane word (R5). -/
abbrev Word := BitVec 32

/-- A hide word, a list entry, a packet word (R5). -/
abbrev DWord := BitVec 64

/-- The 32 lane words of a vector register, a stitch line or a tile line, lane 0 first (R199). -/
abbrev Lanes := Vector Word 32

/-- A sparse table: keys with values, keys strictly rising; a key that is not listed has the value its reader names. -/
abbrev Table (α : Type) := List (Nat × α)

namespace Lanes

/-- The same word in every lane. -/
def all (w : Word) : Lanes := Vector.replicate 32 w

/-- The vector whose lane `i` is `f i`. -/
def tab (f : Fin 32 → Word) : Lanes := Vector.ofFn f

/-- 32 zero words. -/
def zero : Lanes := all 0

end Lanes

end Sys2Proof
end

