-- ==== Sys2Proof/Syntax.lean ====
section
/-! DEFINITION. The steps of the part (spec/opcode_table.json): `Instr` has one constructor for each row. Operands are
decoded once into the small types below (R262 to R264, R261, R305); fields that a meaning checks itself at run time
stay bit vectors. -/

namespace Sys2Proof

/-- Source codes of an element entry (R262). -/
inductive Src where
  | v (n : Fin 32) | s (n : Fin 8)
  | nN | nE | nS | nW | hl | vl | z | lid
  | m (n : Fin 8)
  deriving DecidableEq, Repr

/-- Modifier classes (R264). `g` is log2 of the segment size. -/
inductive ModCls where
  | plain
  | rot (g : Fin 6) (dist : BitVec 5)
  | bfly (g : Fin 6) (dist : BitVec 5)
  | bcast (g : Fin 6) (dist : BitVec 5)
  | x4 (bank : Fin 16) (group : Fin 8)
  | x8 (bank : Fin 16) (group : Fin 4)
  deriving DecidableEq, Repr

/-- A source with its modifier (R262, R264). -/
structure Opnd where
  src : Src
  cls : ModCls
  neg : Bool
  deriving DecidableEq, Repr

/-- Destination codes (R263); `nul` is the code named none: result register only. -/
inductive Dst where
  | v (n : Fin 32) | s (n : Fin 8) | p (n : Fin 8) | m (n : Fin 8) | hl | vl | nul
  deriving DecidableEq, Repr

/-- Sequencer register codes (R261): c0 to c31, and z. -/
inductive CReg where
  | c (n : Fin 32) | z
  deriving DecidableEq, Repr

/-- Element format codes (R148). -/
inductive Fmt where
  | fp32 | fp16 | bf16 | e4m3 | e5m2 | e2m1s | e8m0 | i8 | i16 | i32 | n8 | n16 | n32 | x4 | x8
  deriving DecidableEq, Repr

/-- The narrow formats of `pack` and `unpk` (R292, R293). -/
inductive Narrow where
  | f16 | bf16 | e4m3 | e5m2 | e2m1s | i16 | i8 | n16 | n8 | x4 | x8
  deriving DecidableEq, Repr

/-- The pairs of `cvt`, destination first (R291). -/
inductive CvtPair where
  | i32f32 | n32f32 | f32i32 | f32n32 | n32i32 | i32n32
  deriving DecidableEq, Repr

/-- Types of the lane reductions and of `scan.add` (R295). -/
inductive RTy where
  | f32 | i32 | n32
  deriving DecidableEq, Repr

/-- Operations of `lrd` (R295). -/
inductive LOp where
  | and | or | xor
  deriving DecidableEq, Repr

/-- Types of `xpnd` (R300). -/
inductive XTy where
  | f32 | f16 | bf16 | e4m3 | e5m2
  deriving DecidableEq, Repr

/-- Types of `qidx` (R301). -/
inductive QTy where
  | f32 | f16 | bf16
  deriving DecidableEq, Repr

/-- Types of `bdot` and formats of `smode` (R326, R337). -/
inductive STy where
  | e4m3 | e5m2 | e2m1s | bf16 | f16
  deriving DecidableEq, Repr

/-- Forms of a rectangle (R326). -/
inductive SForm where
  | dense | indexed | fast | affine | off
  deriving DecidableEq, Repr

/-- Key and value formats of the stirrup engine (R321). -/
inductive KF where
  | e4m3 | e5m2 | bf16 | f16
  deriving DecidableEq, Repr

/-- Conditions of a branch (R63, R261). -/
inductive Cond where
  | always | eq | ne | ltu | geu | lts | ges
  deriving DecidableEq, Repr

/-- Conditions of WAITS (R61). -/
inductive WCond where
  | ge | eq | ne
  deriving DecidableEq, Repr

/-- Semaphore operations of SIGNAL and `sig` (R61, R361). -/
inductive SemOp where
  | add | set | max
  deriving DecidableEq, Repr

/-- Reduction operators (R31, R46, R47). -/
inductive ROp where
  | sum | max | min | rsm
  deriving DecidableEq, Repr

/-- Levels of a cancel (R64, R359). -/
inductive CLevel where
  | demand | graph | phase | job
  deriving DecidableEq, Repr

/-- What `waitc` waits for (R360). -/
inductive WaitKind where
  | done | trig | engines (mask : BitVec 5) | hide
  deriving DecidableEq, Repr

/-- The second source of the scalar operations: a register, or the sign-extended IMM24 (R352). -/
inductive SArg where
  | reg (r : CReg) | imm (i : BitVec 24)
  deriving DecidableEq, Repr

/-- A fabric flit (R31): header fields and the 232 payload bytes. The CRC is checked before a flit becomes one of these. -/
structure Flit where
  ver : BitVec 4
  vc : BitVec 4
  type : BitVec 8
  seq : BitVec 12
  ack : BitVec 12
  dst : BitVec 12
  src : BitVec 12
  group : BitVec 16
  opn : BitVec 16
  cnt : BitVec 8
  rop : BitVec 4
  pfmt : BitVec 4
  rsv : Bool
  last : Bool
  frag : BitVec 14
  payload : List Byte
  deriving DecidableEq, Repr

/-- A direction of a fabric link, as the port's own end sees it. -/
inductive Dir where
  | tx | rx
  deriving DecidableEq, Repr

/-- Registers whose write has no behaviour of its own (R6, R52, R53, R54, R66, R70, R86, R90, R94, R146, R167, R168). -/
inductive Reg where
  | sqBase (vf : BitVec 8) (n : Fin 8) | sqSize (vf : BitVec 8) (n : Fin 8) | sqRp (vf : BitVec 8) (n : Fin 8)
  | sqStat (vf : BitVec 8) (n : Fin 8)
  | evBase (vf : BitVec 8) | evSize (vf : BitVec 8) | evHead (vf : BitVec 8) | evCtl (vf : BitVec 8)
  | vfInfo (vf : BitVec 8) | vfInfoOwn (vf : BitVec 8)   -- the physical function's write, and the VF's own (R54)
  | nonceAddr (vf : BitVec 8) | reportAddr (vf : BitVec 8) | certAddr (vf : BitVec 8)
  | unlisted (vf : BitVec 8) (off : BitVec 16)
  | kvCfg (vf : BitVec 8) | shareDomains (vf : BitVec 8)
  | reinBase (part : BitVec 6) | kvBase (part : BitVec 6)
  | olim (die : Fin 4) (vf : BitVec 8)
  | hitchArm
  | capCtl (die : Fin 4) (unit : Fin 32)
  | prefixDesc (dom : BitVec 10) (part : BitVec 6) (log2e : BitVec 5) (salt : Word)
  | collTimeout
  | brken (core : Fin 64)
  deriving DecidableEq, Repr

/-- The three registers of a partition (R76). -/
inductive PartReg where
  | ctl | cores | slv
  deriving DecidableEq, Repr

/-- A fault report (R129): class code, DETAIL, INFO and the iteration vector. -/
structure Report where
  cls : BitVec 5
  detail : BitVec 16
  info : DWord
  slot : BitVec 6
  opx : BitVec 8
  step : BitVec 40
  round : BitVec 8
  core : BitVec 6
  elem : BitVec 7
  li : BitVec 12
  rc : BitVec 12
  lane : BitVec 5
  lv : Bool
  eng : BitVec 4
  stream : BitVec 3
  deriving DecidableEq, Repr

/-- What was lost of a frame (R135, R160, R161): all its data in memory; the data of one of its sectors in memory, or as L2 holds it; the
metadata of a line in memory; or nothing more than is known, since metadata could not be read. -/
inductive Lost where
  | contents | memory (n : BitVec 10) | sector (n : BitVec 10) | metadata (n : BitVec 8) | unread
  deriving DecidableEq, Repr

/-- The change for which a token is issued (R157): none of its own, a tile-table entry, the owner or the share domain of the frames. -/
inductive Narrowing where
  | none | ttEntry (addr : BitVec 48) (word : DWord) | owner (o : BitVec 9) | sdom (d : BitVec 10)
  deriving DecidableEq, Repr

/-- What the board tells the device at power-up (R23): the pool ports that have a device, and whether the order has come to its last step. -/
structure BoardLines where
  poolUp : BitVec 2
  last : Bool
  deriving DecidableEq, Repr

/-- A write to SQ_CTL of one stream (R53). -/
structure SqCtlWrite where
  n : Fin 8
  val : DWord
  deriving DecidableEq, Repr

/-- A partition that is reset, and the word that names the structure whose error does so (R79, R135). -/
structure ResetOrder where
  part : BitVec 6
  hard : Option DWord
  deriving DecidableEq, Repr

/-- How late an immediate load is, and the round counter at its entry (R85, R129). -/
structure Lateness where
  rc : BitVec 12
  fc : BitVec 16
  deriving DecidableEq, Repr

/-- Where an element holds, or has before it, a lane word that carries a residue (R199, R205): V by its physical index, S, keeper states and
gains, the result register of an element, accumulators, saddle row gains, M, latched lines, an ALU word of the last result in flight, and what
it reads of an element of the core beyond an edge (0 north, 1 south, 2 east, 3 west). -/
inductive RPlace where
  | v (phys : Fin 32) | s (n : Fin 8) | kState (j : Fin 4) | kGain (j : Fin 4) | res (of : Fin 96) | acc | gain | m | line (n : Fin 20) | alu
  | edge (d : Fin 4)
  deriving DecidableEq, Repr

/-- A lane word: its place and its lane, or its number for accumulators, gains and M. -/
structure RWord where
  place : RPlace
  lane : Fin 32
  deriving DecidableEq, Repr

/-- The residue that is found beside a lane word, the element that has the word before it, and whether the word is read now: at which entry,
for which lane, and whether by a stream port (R129, R205, R282). -/
structure ResidueCheck where
  elem : Fin 96
  li : BitVec 12
  word : RWord
  held : BitVec 3
  read : Bool
  lane : BitVec 5
  port : Option (Fin 16)
  deriving DecidableEq, Repr

/-- The frames that a token covers from its base on, and the change that it follows (R155, R157). -/
structure TokenRange where
  count : BitVec 17
  change : Narrowing
  deriving DecidableEq, Repr

/-- What was lost, and of which frame (R135, R160, R161). -/
structure Loss where
  frame : BitVec 32
  lost : Lost
  deriving DecidableEq, Repr

/-- The side of a port that is translated, and whether its buffer does not absorb the time this takes (R151). -/
structure PortUse where
  write : Bool
  slow : Bool
  deriving DecidableEq, Repr

/-- One step of the part for every row of spec/opcode_table.json: in the table's order, but for the rows without operands,
which stand last. -/
inductive Instr where
  -- package, power and board (R18 to R24)
  | powerUp (fw : List Byte) (frames : BitVec 33) (board : BoardLines)
  | temperature100C (die : Fin 4) | thermtrip (die : Fin 4)
  -- HITCH and the debug port (R89 to R91)
  | jtagReadout (unlock : Bool)
  -- host memory port (R26, R27, R412)
  | cxlMemWrite (vf : BitVec 8) (addr : BitVec 48) (bytes : List Byte)
  | cxlMemRead (vf : BitVec 8) (addr : BitVec 48) (len : Nat)
  | cxlCacheSnoop (line : BitVec 58)
  -- pool ports (R28 to R30)
  | dcdExtentOffer (port : Fin 2) (base len : DWord) (frame : BitVec 32)
  | poolLinkDown (port : Fin 2) (writing : List (BitVec 32))
  | nvmeReadCompletion (frame : BitVec 32) (ok : Bool)
  -- fabric links (R31 to R50)
  | flitSend (port : Fin 18) | idle (port : Fin 18) (f : Flit) | credit (port : Fin 18) (f : Flit) | retry (port : Fin 18) (f : Flit)
  | exponentCountHalve (port : Fin 18) (dir : Dir) (vc : Fin 3)
  | retryLimit (port : Fin 18) | retrainTimeout (port : Fin 18)
  | mcast (port : Fin 18) (f : Flit) | redup (port : Fin 18) (f : Flit) | reddn (port : Fin 18) (f : Flit)
  | barup (port : Fin 18) (f : Flit) | bardn (port : Fin 18) (f : Flit) | abort (port : Fin 18) (f : Flit)
  | flitCopy (port : Fin 18) (f : Flit)
  | collectiveTimeout (group : BitVec 10) (opn : BitVec 16)
  | groupTableWrite (group : BitVec 10) (word : DWord)
  -- VF registers (R6, R53, R65, R68) and control-complex registers (R19, R76, R88)
  | sqWpWrite (vf : BitVec 8) (n : Fin 8) (val : DWord) | sqEnable (vf : BitVec 8) (n : Fin 8) (val : DWord)
  | sqDisable (vf : BitVec 8) (n : Fin 8) (val : DWord) | sqSkip (vf : BitVec 8) (w : SqCtlWrite) | sqResume (vf : BitVec 8) (w : SqCtlWrite)
  | evTailWrite (vf : BitVec 8) (val : DWord)
  | registerWrite (r : Reg) (val : DWord)
  | paceCtlWrite (part : BitVec 6) (val : DWord)
  | partCtlWrite (r : PartReg) (part : BitVec 6) (val : DWord)
  | captureWindowStart (die : Fin 4) (unit : Fin 32) (val : DWord) | captureWindowEnd (die : Fin 4) (unit : Fin 32)
  | attestGo (vf : BitVec 8) | functionLevelReset (vf : BitVec 8)
  -- packets (R57 to R64)
  | nop (tag : BitVec 16)
  | loadg (tag : BitVec 16) (slot : BitVec 6) (origin : BitVec 6) (image : BitVec 48) (length : Word)
  | demand (tag : BitVec 16) (slot : BitVec 6) (sink : BitVec 6) (dep : BitVec 2) (rel : Bool) (a b : BitVec 48) (stride : Word)
  | waits (tag : BitVec 16) (cond : WCond) (timeout : BitVec 16) (off : BitVec 24) (value : DWord)
  | waitsTimeout (vf : BitVec 8) (n : Fin 8)
  | signal (tag : BitVec 16) (op : SemOp) (wh : BitVec 2) (off : BitVec 24) (value : DWord)
  | phase (tag : BitVec 16) (wh : BitVec 2)
  | branch (tag : BitVec 16) (cond : Cond) (consume : Bool) (timeout : BitVec 16) (off : BitVec 24) (value mask : Word) (disp : Word)
  | branchTimeout (vf : BitVec 8) (n : Fin 8)
  | cancel (tag : BitVec 16) (level : CLevel) (slot : BitVec 6) (stream : Fin 8) (dnum : Word)
  | quota (tag : BitVec 16) (add : Bool) (value : Word)
  | timestamp (tag : BitVec 16) (wh : BitVec 2)
  | fenceh (tag : BitVec 16) (irq : Bool)
  | eventWrite (vf : BitVec 8)
  -- rounds and boundaries (R107 to R141, R184)
  | startPulse (part : BitVec 6) (slot : BitVec 6) | roundCommit (part : BitVec 6) (slot : BitVec 6)
  | roundVoid (part : BitVec 6) (slot : BitVec 6) | roundBoundary (part : BitVec 6) (slot : BitVec 6)
  | promotion (part : BitVec 6) (slot : BitVec 6) (opx : BitVec 8)
  | waitBudgetExpiry (part : BitVec 6) (slot : BitVec 6) | pacingGapEnd (part : BitVec 6) (left : BitVec 12)
  | phaseBoundary (part : BitVec 6)
  | sliceExpiry (part : BitVec 6) | graceExpiry (part : BitVec 6)
  | partitionReset (o : ResetOrder)
  | hldILate (core : Fin 64) (elem : Fin 96) (li : BitVec 12) (lane : BitVec 5) (late : Lateness)
  | starvationGrant (arbiter : Nat)
  | residueLimit (core : Fin 64) (check : ResidueCheck)
  | replayLimit (part : BitVec 6) (slot : BitVec 6)
  | boundaryStepLimit (part : BitVec 6) (slot : BitVec 6)
  | engineCommandComplete (id : Nat)
  -- control-complex memory work (R145 to R172)
  | frameFetch (frame : BitVec 32) | frameMove (frame : BitVec 32) (tier : BitVec 2) (loc : BitVec 48)
  | frameEvict (frame : BitVec 32) (loc : BitVec 48)
  | relatchToken (all : Bool) (base : BitVec 32) (run : TokenRange)
  | framePoison (loss : Loss) | frameReclaim (frame : BitVec 32)
  | cattrChange (frame : BitVec 32) (attr : BitVec 2) (ttEntry : BitVec 48)
  | translation (core : Fin 64) (port : Fin 16) (use : PortUse) (coord : List Int)
  | sequenceSwapIn (part : BitVec 6) (seq : BitVec 12)
  | pageSetReclaim (base : BitVec 32)
  -- floating point (R284 to R288)
  | faddF32 (d : Dst) (a b : Opnd) | fsubF32 (d : Dst) (a b : Opnd) | fmulF32 (d : Dst) (a b : Opnd) | fmadF32 (d : Dst) (a b : Opnd)
  | fmsbF32 (d : Dst) (a b : Opnd) | fnmaF32 (d : Dst) (a b : Opnd) | fminF32 (d : Dst) (a b : Opnd) | fmaxF32 (d : Dst) (a b : Opnd)
  | faddHalf (bf : Bool) (d : Dst) (a b : Opnd) | fsubHalf (bf : Bool) (d : Dst) (a b : Opnd)
  | fmulHalf (bf : Bool) (d : Dst) (a b : Opnd) | fmadHalf (bf : Bool) (d : Dst) (a b : Opnd)
  | fmsbHalf (bf : Bool) (d : Dst) (a b : Opnd) | fnmaHalf (bf : Bool) (d : Dst) (a b : Opnd)
  | fminHalf (bf : Bool) (d : Dst) (a b : Opnd) | fmaxHalf (bf : Bool) (d : Dst) (a b : Opnd)
  | fcmpEq (d : Dst) (a b : Opnd) | fcmpNe (d : Dst) (a b : Opnd) | fcmpLt (d : Dst) (a b : Opnd) | fcmpLe (d : Dst) (a b : Opnd)
  | fcmpGt (d : Dst) (a b : Opnd) | fcmpGe (d : Dst) (a b : Opnd) | fcmpUn (d : Dst) (a b : Opnd)
  | frcp (d : Dst) (a : Opnd) | fsqrt (d : Dst) (a : Opnd) | frsq (d : Dst) (a : Opnd) | fexp2 (d : Dst) (a : Opnd) | flog2 (d : Dst) (a : Opnd)
  | fsel (d : Dst) (a b : Opnd) (k : Fin 8)
  | fclass (d : Dst) (a : Opnd) (mask : BitVec 9)
  -- integer and logic (R289, R290)
  | iadd (n32 : Bool) (d : Dst) (a b : Opnd) | isub (n32 : Bool) (d : Dst) (a b : Opnd) | imul (n32 : Bool) (d : Dst) (a b : Opnd)
  | imulh (n32 : Bool) (d : Dst) (a b : Opnd) | imad (n32 : Bool) (d : Dst) (a b : Opnd)
  | imin (n32 : Bool) (d : Dst) (a b : Opnd) | imax (n32 : Bool) (d : Dst) (a b : Opnd)
  | and (d : Dst) (a b : Opnd) | or (d : Dst) (a b : Opnd) | xor (d : Dst) (a b : Opnd) | andn (d : Dst) (a b : Opnd)
  | shl (d : Dst) (a b : Opnd) | shr (n32 : Bool) (d : Dst) (a b : Opnd) | rol (d : Dst) (a b : Opnd)
  | popc (d : Dst) (a : Opnd) | clz (d : Dst) (a : Opnd)
  | icmpEq (n32 : Bool) (d : Dst) (a b : Opnd) | icmpNe (n32 : Bool) (d : Dst) (a b : Opnd) | icmpLt (n32 : Bool) (d : Dst) (a b : Opnd)
  | icmpLe (n32 : Bool) (d : Dst) (a b : Opnd) | icmpGt (n32 : Bool) (d : Dst) (a b : Opnd) | icmpGe (n32 : Bool) (d : Dst) (a b : Opnd)
  -- conversions and lane operations (R291 to R295)
  | cvt (pair : CvtPair) (d : Dst) (a : Opnd)
  | pack (dst : Narrow) (pos : Fin 8) (d : Dst) (a b : Opnd) | unpk (src : Narrow) (pos : Fin 8) (d : Dst) (a b : Opnd)
  | perm (d : Dst) (a b : Opnd)
  | lrd (op : LOp) (g : Fin 6) (all : Bool) (d : Dst) (a : Opnd)
  | redAdd (ty : RTy) (g : Fin 6) (all : Bool) (d : Dst) (a : Opnd) | redMax (ty : RTy) (g : Fin 6) (all : Bool) (d : Dst) (a : Opnd)
  | redMin (ty : RTy) (g : Fin 6) (all : Bool) (d : Dst) (a : Opnd)
  | scanAdd (ty : RTy) (g : Fin 6) (d : Dst) (a : Opnd)
  -- predicates and moves (R296 to R298)
  | pand (d : Dst) (a b : Fin 8) | por (d : Dst) (a b : Fin 8) | pxor (d : Dst) (a b : Fin 8) | pandn (d : Dst) (a b : Fin 8)
  | pnot (d : Dst) (a : Fin 8) | ptst (d : Dst) (a : Opnd) | pvec (d : Dst) (a : Fin 8) | pcnt (d : Dst) (a : Fin 8)
  | mov (d : Dst) (a : Opnd) | movi (d : Dst) (imm : BitVec 18) | moviH (d : Dst) (imm : BitVec 16)
  | movm (d : Dst) (a : Fin 8) | movmP (d : Dst) (a : Opnd)
  | pblk (guard : Fin 8) (nm1 : Fin 8) (pat : BitVec 8)
  -- codebook and hash (R300 to R302)
  | xpnd (ty : XTy) (d : Dst) (a : Opnd) | qidx (ty : QTy) (bank : Fin 16) (d : Dst) (a : Opnd) | blkh (d : Dst) (a b : Opnd)
  -- element hide operations (R311)
  | hadd (a b : Opnd) | hmax (n32 : Bool) (a b : Opnd) | hmin (n32 : Bool) (a b : Opnd) | hcas (a b c : Opnd)
  | hxchg (a b : Opnd) | hred (a b : Opnd) | hldI (hi : Bool) (d : Dst) (a : Opnd) | hstI (hi : Bool) (a b : Opnd)
  -- block products, scans, keepers (R337 to R343)
  | bdot (ty : STy) (boff : Fin 32) (km1 : BitVec 8) (d : Dst) (a b : Opnd) (c : Src)
  | bdotSet (nb : Fin 32) (d : Dst) (a : Opnd)
  | scacc (d : Dst) (a b c : Src)
  | scanAff (g : Fin 6) (d : Dst) (a b c : Opnd) | scanAffG (g : Fin 6) (d : Dst) (a b c : Opnd)
  | scanAffk (g : Fin 6) (j : Fin 4) (d : Dst) (a b : Opnd)
  | kset (j : Fin 4) (a b : Opnd) | kget (gain : Bool) (d : Dst) (j : Fin 4) | kclr (j : Fin 4) | khor (j : Fin 4)
  -- streams (R310)
  | sdef (port : Fin 16) (n : BitVec 8) | sset (port : Fin 16) (f : Fin 7) (a : CReg) | sstep (mask : BitVec 16)
  | sarm (port : Fin 16) (a b : CReg)
  -- engines and collectives (R316 to R321)
  | copy (a b : CReg) (n : BitVec 22) | gather (a b : CReg) (n : BitVec 22) (c : CReg) (rb : BitVec 24)
  | xf (sel : BitVec 8) (a b : CReg) (n : BitVec 22) (c : CReg) (x : BitVec 24) (link : Bool)
  | collMc (a b : CReg) (n : BitVec 22) (pfmt : BitVec 2) (cls : BitVec 2) (group : BitVec 10)
  | collBar (cls : BitVec 2) (group : BitVec 10)
  | collRed (rop : ROp) (a b : CReg) (n : BitVec 22) (pfmt : BitVec 2) (cls : BitVec 2) (group : BitVec 10) (d : BitVec 12)
  | stirQk (kf : KF) (a b c : CReg) (l0 : BitVec 6) (nlm1 : BitVec 6) (ko vo : BitVec 12)
  | stirPv (a b : CReg) (l0 : BitVec 6) (nlm1 : BitVec 6) | stirGet (b : CReg) (l0 : BitVec 6) (nlm1 : BitVec 6)
  -- key/value and prefix operations (R322 to R324)
  | kvApp (a : CReg) (n : BitVec 24) | kvFork (a b : CReg) (n : BitVec 24) | kvPin (a b : CReg) | kvUnpin (b : CReg) | kvFree (a : CReg)
  | pxlk (d a b : CReg) | pxin (d a b c : CReg) | pxev (d a b : CReg)
  | flushFrame (d a : CReg)
  -- saddle (R326 to R336)
  | tstep (slot : Fin 8) (acc : Bool) (bank : Fin 16) (repm1 : BitVec 12) (intm1 : BitVec 10) (mask : BitVec 16)
  | smode (slot : Fin 8) (row0 : Fin 8) (col0 : Fin 12) (nrm1 : Fin 8) (ncm1 : Fin 12) (form : SForm) (fmt : STy)
  | sload (slot : Fin 8) (lines : Bool) (seg : BitVec 8) (off : BitVec 8)
  | sgain (slot : Fin 8) (a : CReg) (all : Bool) (row : BitVec 8)
  | sread (slot : Fin 8) (clr : Bool)
  -- stamp banks (R344)
  | stw (bank : Fin 16) (a : CReg) (idx : BitVec 8) | stsw (bank : Fin 16) | stinv (bank : Fin 16) (first nm1 : BitVec 8)
  | stsz (bank : Fin 16) (size : BitVec 9)
  -- sequencer scalars and branches (R352 to R354)
  | seqAdd (d a : CReg) (b : SArg) | seqSub (d a : CReg) (b : SArg) | seqMul (d a : CReg) (b : SArg) | seqAnd (d a : CReg) (b : SArg)
  | seqOr (d a : CReg) (b : SArg) | seqXor (d a : CReg) (b : SArg) | seqShl (d a : CReg) (b : SArg) | seqShr (d a : CReg) (b : SArg)
  | sra (d a : CReg) (b : SArg)
  | li (d : CReg) (imm : BitVec 24) | ins (d : CReg) (imm : BitVec 16) (k : Fin 4)
  | br (cond : Cond) (a b : CReg) (disp : BitVec 26) | loop (a : CReg) (disp : BitVec 26)
  -- work and system (R355 to R365)
  | fin (opx : BitVec 8)
  | seqDemand (rel : Bool) (d a b : CReg) (slot : BitVec 6) (sink : BitVec 6) (stride : BitVec 12)
  | post (a b : CReg) | early (opx : BitVec 8) | seqCancel (a : CReg) (level : CLevel)
  | waitc (kind : WaitKind) (d a b : CReg) | sig (op : SemOp) (a b : CReg)
  | trap (a : CReg) (code : BitVec 16) | brk (code : BitVec 16)
  | rdst (d : CReg) (st sel : BitVec 8) | wrst (a : CReg) (st sel : BitVec 8) | cnt (k : Fin 8) (n : BitVec 16)
  -- rows at the table's end (R33, R34, R26, R413, R70, R18)
  | malformedFlit (port : Fin 18) | linkRetrainSuccess (port : Fin 18)
  | cxlMemWindowOpen (vf : BitVec 8) (base : BitVec 32) (frames : BitVec 21) (home : Fin 64) | cxlMemWindowClose (vf : BitVec 8)
  | keySlotLoad (vf : BitVec 8) (slot : Fin 4) (edKey : BitVec 256) (mlKey : List Byte)
  | powerCap (watts : BitVec 16)
  -- rows without operands, wherever they stand in the table: power and board, HITCH, drains, seal, empty entries
  | pwrGoodLow | sysRstN | perstN | hostLinkTraining | configurationRequest | bootTimeout | powerRemoved
  | hitch | hitchArmSw | drainMt | drainLoft | drainHide | seal | seqNop | yld | halt
  deriving DecidableEq, Repr

end Sys2Proof
end

