-- ==== Sys2Proof/WellFormed.lean ====
section
/-! DEFINITION. Which steps an encoding can carry: the operand classes, negation, modifiers and field limits that the
loader accepts in one entry (R264, R278, R279 and each instruction's own rule), the limits of packet fields (R57 to R64)
and of a flit's link-layer fields (R31 to R33). What depends on the rest of an image is checked when it is loaded. -/

namespace Sys2Proof

/-- What a source accepts: negation, a permute class, an expand (R279). -/
structure Allow where
  neg : Bool
  perm : Bool
  exp : Bool
  deriving DecidableEq, Repr

namespace Allow
/-- A floating-point source. -/
def fp : Allow := { neg := true, perm := true, exp := true }
/-- A source with NEG and permute classes, no expand. -/
def negPerm : Allow := { neg := true, perm := true, exp := false }
/-- A source with permute classes only. -/
def permOnly : Allow := { neg := false, perm := true, exp := false }
/-- A source with no modifier. -/
def none : Allow := { neg := false, perm := false, exp := false }
end Allow

/-- DIST is below the segment size (R264). -/
def ModCls.wf : ModCls → Bool
  | .plain => true
  | .rot g d | .bfly g d | .bcast g d => d.toNat < 2 ^ g.val
  | .x4 _ _ | .x8 _ _ => true

def ModCls.isPerm : ModCls → Bool
  | .plain | .x4 _ _ | .x8 _ _ => false
  | .rot _ _ | .bfly _ _ | .bcast _ _ => true

def ModCls.isExp : ModCls → Bool
  | .plain | .rot _ _ | .bfly _ _ | .bcast _ _ => false
  | .x4 _ _ | .x8 _ _ => true

/-- The source's modifier is one that the instruction accepts (R264, R279). -/
def Opnd.wf (al : Allow) (o : Opnd) : Bool :=
  o.cls.wf && (al.neg || !o.neg) && (al.perm || !o.cls.isPerm) && (al.exp || !o.cls.isExp)

/-- The operand field that holds 0: a source the instruction does not use (R257). -/
def Opnd.unused : Opnd := { src := .v 0, cls := .plain, neg := false }

/-- Result classes (R278, R283). `vd` is class V of an instruction that reads its destination. -/
inductive RCls where
  | v | p | u | vu | vd
  deriving DecidableEq, Repr

/-- The destination codes that a class accepts (R278, R283). -/
def Dst.wf : RCls → Dst → Bool
  | _, .nul => true
  | .v, .v _ | .v, .s _ | .v, .hl | .v, .vl => true
  | .vu, .v _ | .vu, .s _ | .vu, .hl | .vu, .vl | .vu, .m _ => true
  | .p, .p _ => true
  | .u, .m _ => true
  | .vd, .v _ | .vd, .s _ => true
  | _, _ => false

/-- For a destination that is read, none is refused too (R283). -/
def Dst.wfD (c : RCls) (d : Dst) : Bool :=
  if c = .vd then (match d with | .v _ | .s _ => true | _ => false) else d.wf c

/-- Elements of a vector of a `bdot` type (R337). -/
def STy.epv : STy → Nat
  | .e4m3 | .e5m2 => 128
  | .e2m1s => 256
  | .bf16 | .f16 => 64

/-- Elements of a narrow format in a lane word (R292, R293). -/
def Narrow.perWord : Narrow → Nat
  | .f16 | .bf16 | .i16 | .n16 => 2
  | .e4m3 | .e5m2 | .i8 | .n8 | .x8 => 4
  | .e2m1s | .x4 => 8

/-- Floating narrow formats, on which `unpk` allows NEG (R293). -/
def Narrow.isFp : Narrow → Bool
  | .f16 | .bf16 | .e4m3 | .e5m2 | .e2m1s => true
  | .i16 | .i8 | .n16 | .n8 | .x4 | .x8 => false

def bin (c : RCls) (al : Allow) (d : Dst) (a b : Opnd) : Bool := d.wfD c && a.wf al && b.wf al
def una (c : RCls) (al : Allow) (d : Dst) (a : Opnd) : Bool := d.wfD c && a.wf al

/-- The reductions: G from 1; an expand only on f32 (R295). -/
def red (ty : RTy) (g : Fin 6) (d : Dst) (a : Opnd) : Bool :=
  0 < g.val && d.wfD .vu && a.wf (if ty = .f32 then Allow.fp else Allow.negPerm)

/-- A flit's link-layer fields are good and it carries the type and VC of its row (R32, R33). -/
def Flit.wf (type vc : Nat) (f : Flit) : Bool :=
  f.ver == 1 && f.type.toNat == type && f.vc.toNat == vc && !f.rsv && f.payload.length == 232

/-- The status registers and their SEL ranges that need no image (R362). -/
def stOk (write : Bool) (st sel : Nat) : Bool :=
  if st = 0 then !write
  else if st = 1 || st = 5 then !write && sel = 0
  else if st = 2 then sel < 96 || sel = 0xFF
  else if st = 3 || st = 4 then sel < 96
  else 8 ≤ st && st < 16 && sel = 0

/-- The bits of a transform's XIMM that its operation does not name are 0; an operation that does not exist names none (R318). -/
def xfZero (sel : BitVec 8) (x : BitVec 24) : Bool :=
  if sel = 0 then x.extractLsb' 0 12 = 0 else if sel = 1 || sel = 2 then x = 0 else true

/-- A shift count in IMM24 is below 64 (R352). -/
def SArg.wfSh : SArg → Bool
  | .reg _ => true
  | .imm i => i.toNat < 64

/-- A register other than z (R304). -/
def CReg.isC : CReg → Bool
  | .c _ => true
  | .z => false

/-- One step is well formed. Steps that no encoding carries are well formed whatever they hold, but for fixed lengths. -/
def Instr.wf : Instr → Bool
  | .pwrGoodLow | .sysRstN | .perstN | .powerUp _ _ _ | .hostLinkTraining | .configurationRequest | .bootTimeout
  | .powerRemoved | .temperature100C _ | .thermtrip _ | .hitch | .hitchArmSw | .jtagReadout _ | .cxlMemWrite _ _ _
  | .cxlMemRead _ _ _ | .cxlCacheSnoop _ | .dcdExtentOffer _ _ _ _ | .poolLinkDown _ _ | .nvmeReadCompletion _ _
  | .flitSend _ | .exponentCountHalve _ _ _ | .retryLimit _ | .retrainTimeout _ => true
  | .idle _ f => f.wf 0x00 0
  | .credit _ f => f.wf 0x01 0
  | .retry _ f => f.wf 0x02 0
  | .mcast _ f => f.wf 0x10 1
  | .redup _ f => f.wf 0x11 2
  | .reddn _ f => f.wf 0x12 3
  | .barup _ f => f.wf 0x13 4
  | .bardn _ f => f.wf 0x14 4
  | .abort _ f => f.wf 0x15 4
  | .flitCopy _ f => f.wf 0x20 5
  | .collectiveTimeout _ _ | .groupTableWrite _ _ | .sqWpWrite _ _ _ | .sqEnable _ _ _ | .sqDisable _ _ _ | .sqSkip _ _
  | .sqResume _ _ | .evTailWrite _ _ | .registerWrite _ _ | .paceCtlWrite _ _ | .partCtlWrite _ _ _
  | .captureWindowStart _ _ _ | .captureWindowEnd _ _ | .attestGo _ | .functionLevelReset _ => true
  | .nop _ | .loadg _ _ _ _ _ => true
  | .demand _ _ _ dep _ _ _ stride => dep != 3 && stride != 0
  | .waits _ _ _ _ _ | .waitsTimeout _ _ | .signal _ _ _ _ _ | .phase _ _ => true
  | .branch _ _ _ _ _ _ _ disp => disp != 0
  | .branchTimeout _ _ | .cancel _ _ _ _ _ | .quota _ _ _ | .timestamp _ _ | .fenceh _ _ | .eventWrite _
  | .startPulse _ _ | .roundCommit _ _ | .roundVoid _ _ | .roundBoundary _ _ | .promotion _ _ _ | .waitBudgetExpiry _ _
  | .pacingGapEnd _ _ | .phaseBoundary _ | .sliceExpiry _ | .graceExpiry _ | .partitionReset _ | .hldILate _ _ _ _ _
  | .starvationGrant _ | .residueLimit _ _ | .replayLimit _ _ | .boundaryStepLimit _ _ | .engineCommandComplete _
  | .frameFetch _ | .frameMove _ _ _ | .frameEvict _ _ | .relatchToken _ _ _ | .framePoison _ | .frameReclaim _
  | .cattrChange _ _ _ | .translation _ _ _ _ | .sequenceSwapIn _ _ | .pageSetReclaim _ => true
  | .faddF32 d a b | .fsubF32 d a b | .fmulF32 d a b | .fminF32 d a b | .fmaxF32 d a b => bin .vu .fp d a b
  | .fmadF32 d a b | .fmsbF32 d a b | .fnmaF32 d a b => bin .vd .fp d a b
  | .faddHalf _ d a b | .fsubHalf _ d a b | .fmulHalf _ d a b | .fminHalf _ d a b | .fmaxHalf _ d a b => bin .vu .fp d a b
  | .fmadHalf _ d a b | .fmsbHalf _ d a b | .fnmaHalf _ d a b => bin .vd .fp d a b
  | .fcmpEq d a b | .fcmpNe d a b | .fcmpLt d a b | .fcmpLe d a b | .fcmpGt d a b | .fcmpGe d a b
  | .fcmpUn d a b => bin .p .fp d a b
  | .frcp d a | .fsqrt d a | .frsq d a | .fexp2 d a | .flog2 d a => una .vu .fp d a
  | .fsel d a b _ => bin .vu .permOnly d a b
  | .fclass d a _ => una .p .fp d a
  | .iadd _ d a b | .isub _ d a b | .imul _ d a b | .imulh _ d a b | .imin _ d a b | .imax _ d a b => bin .vu .negPerm d a b
  | .imad _ d a b => bin .vd .negPerm d a b
  | .and d a b | .or d a b | .xor d a b | .andn d a b | .shl d a b | .shr _ d a b | .rol d a b => bin .vu .permOnly d a b
  | .popc d a | .clz d a => una .vu .permOnly d a
  | .icmpEq _ d a b | .icmpNe _ d a b | .icmpLt _ d a b | .icmpLe _ d a b | .icmpGt _ d a b
  | .icmpGe _ d a b => bin .p .negPerm d a b
  | .cvt pair d a => una .vu (if pair = .i32f32 ∨ pair = .n32f32 then .fp else .negPerm) d a
  | .pack dst pos d a b =>
    d.wfD .vu && pos.val < dst.perWord && b.wf .permOnly && a.wf (if dst.isFp then .fp else .negPerm)
  | .unpk src pos d a b =>
    d.wfD .vu && pos.val < src.perWord
      && a.wf { neg := src.isFp, perm := true, exp := src.isFp && src != .e2m1s }
      && (if src = .e2m1s then b.wf .permOnly else b == Opnd.unused)
  | .perm d a b => bin .vu .permOnly d a b
  | .lrd _ g _ d a => 0 < g.val && d.wfD .vu && a.wf .permOnly
  | .redAdd ty g _ d a | .redMax ty g _ d a | .redMin ty g _ d a => red ty g d a
  | .scanAdd ty _ d a => d.wfD .vu && a.wf (if ty = .f32 then Allow.fp else Allow.negPerm)
  | .pand d _ _ | .por d _ _ | .pxor d _ _ | .pandn d _ _ | .pnot d _ => d.wfD .p
  | .ptst d a => una .p .permOnly d a
  | .pvec d _ => d.wfD .v
  | .pcnt d _ => d.wfD .vu
  | .mov d a => una .vu .permOnly d a
  | .movi d _ | .moviH d _ => d.wfD .vu
  | .movm d _ => match d with | .m _ => true | _ => false
  | .movmP d a => a.wf .permOnly && (match d, a.src with | .p _, .m _ => true | _, _ => false)
  | .pblk _ nm1 pat => pat.toNat < 2 ^ (nm1.val + 1)
  | .xpnd _ d a => d.wfD .vu && a.cls.isExp && !a.neg
  | .qidx _ _ d a => una .vu .negPerm d a
  | .blkh d a b => bin .vu .permOnly d a b
  | .hadd a b | .hred a b => a.wf .permOnly && b.wf .negPerm
  | .hmax _ a b | .hmin _ a b | .hxchg a b | .hstI _ a b => a.wf .permOnly && b.wf .permOnly
  | .hcas a b c => a.wf .permOnly && b.wf .permOnly && c.wf .permOnly
  | .hldI _ d a => d.wfD .v && a.wf .permOnly
  | .bdot ty boff km1 d a b c =>
    (if boff.val = 0 then d.wfD .v else d.wfD .vd) && a.wf .negPerm && b.wf .negPerm && (ty = .e2m1s || c = .v 0)
      && km1.toNat < ty.epv && boff.val + (km1.toNat + 32) / 32 ≤ 32
  | .bdotSet _ d a => una .v .negPerm d a
  | .scacc d _ _ _ => d.wfD .vd
  | .scanAff _ d a b c | .scanAffG _ d a b c => d.wfD .vu && a.wf .fp && b.wf .fp && c.wf .fp
  | .scanAffk _ _ d a b => bin .vu .fp d a b
  | .kset _ a b => a.wf .fp && b.wf .fp
  | .kget _ d _ => d.wfD .vu
  | .kclr _ | .khor _ => true
  | .sdef _ _ | .sstep _ | .drainMt | .drainLoft | .drainHide => true
  | .sset _ _ a => a.isC
  | .sarm _ a b | .copy a b _ => a.isC && b.isC
  | .gather a b _ c _ => a.isC && b.isC && c.isC
  | .xf sel _ b _ c x link => link != b.isC && xfZero sel x && (1 < sel.toNat || c == .z) && (sel != 2 || c.isC)
  | .collMc _ b _ _ _ _ => b.isC
  | .collBar _ _ => true
  | .collRed rop a b _ pfmt _ _ d => a.isC && b.isC && (rop != .rsm || (pfmt != 1 && pfmt != 2)) && (rop = .rsm || d = 0)
  | .stirQk _ a b c _ _ _ _ => a.isC && b.isC && c.isC
  | .stirPv a b _ _ => a.isC && b.isC
  | .stirGet b _ _ => b.isC
  | .kvApp a n => a.isC && 1 ≤ n.toNat && n.toNat ≤ 4095
  | .kvFork a b n => a.isC && n.toNat ≤ 65536 && (n == 0 || b.isC)
  | .kvPin a b | .pxlk _ a b | .pxev _ a b => a.isC && b.isC
  | .kvUnpin a | .kvFree a | .flushFrame _ a => a.isC
  | .pxin _ a b c => a.isC && b.isC && c.isC
  | .seal => true
  | .tstep _ acc _ repm1 _ _ => !acc || repm1 == 0
  | .smode _ row0 col0 nrm1 ncm1 form fmt =>
    row0.val + nrm1.val ≤ 7 && col0.val + ncm1.val ≤ 11
      && (match form with
          | .dense => true
          | .indexed | .fast | .off => fmt = .e4m3
          | .affine => fmt != .e2m1s)
  | .sload _ lines seg off => (!lines || (seg == 0 && off == 0)) && seg.toNat < 192
  | .sgain _ a all row => a.isC && (!all || row == 0)
  | .sread _ _ => true
  | .stw _ a _ => a.isC
  | .stsw _ => true
  | .stinv _ first nm1 => first.toNat + nm1.toNat ≤ 255
  | .stsz _ size => size.toNat ≤ 256
  | .seqAdd _ _ _ | .seqSub _ _ _ | .seqMul _ _ _ | .seqAnd _ _ _ | .seqOr _ _ _ | .seqXor _ _ _ => true
  | .seqShl _ _ b | .seqShr _ _ b | .sra _ _ b => b.wfSh
  | .li _ _ => true
  | .ins d _ _ => d != .z
  | .br _ _ _ _ | .loop _ _ => true
  | .fin _ => true
  | .seqDemand _ _ _ _ _ _ stride => stride != 0
  | .post _ _ | .early _ | .seqCancel _ _ => true
  | .waitc kind _ _ _ => match kind with | .engines m => m != 0 | _ => true
  | .sig _ _ _ | .seqNop | .yld | .halt => true
  | .trap _ code => code.toNat ≤ 0xFFEF
  | .brk _ => true
  | .rdst _ st sel => stOk false st.toNat sel.toNat
  | .wrst _ st sel => stOk true st.toNat sel.toNat
  | .cnt _ _ => true
  | .malformedFlit _ | .linkRetrainSuccess _ | .cxlMemWindowOpen _ _ _ _ | .cxlMemWindowClose _ => true
  | .keySlotLoad _ _ _ ml => ml.length == 1952
  | .powerCap _ => true

end Sys2Proof
end

