-- ==== Sys2Proof/Decode.lean ====
section
/-! DEFINITION. The decoder of list entries (R255 to R267 and the opcode tables of the instruction chapters), of packets
(R57 to R64) and of flits (R31 to R33): total, and refusing by name; and after it the encoder, written from the same
tables. -/

namespace Sys2Proof

/-- Why words are no instruction. The first group are the loader's refusals (R271), the second the front end's (R65), the
third a flit's (R33); `length` is no part of the manual: a number of bits that no format has. `inX` says that the words at
fault are the continuation's (R272). -/
inductive DecErr where
  | unassigned | wrongList | reservedOperand | reservedModifier | operandClass | contMismatch | reservedField | block | expand
  | rectangle
  | packetCode | packetReserved | packetRange
  | crc | linkLayer
  | length
  | inX (e : DecErr)
  deriving DecidableEq, Repr

/-- The refusal code of R271. -/
def DecErr.code : DecErr → Word
  | .unassigned => 0x00030001
  | .wrongList => 0x00030002
  | .reservedOperand => 0x00030003
  | .reservedModifier => 0x00030004
  | .operandClass => 0x00030005
  | .contMismatch => 0x00030006
  | .block => 0x0003000A
  | .expand => 0x0003000B
  | .rectangle => 0x00040007
  | .reservedField | .packetCode | .packetReserved | .packetRange | .crc | .linkLayer | .length => 0x00010006
  | .inX e => e.code

/-- The reason code of R65. -/
def DecErr.reason : DecErr → Nat
  | .packetReserved => 2
  | .packetRange => 3
  | .packetCode | .unassigned | .wrongList | .reservedOperand | .reservedModifier | .operandClass | .contMismatch | .reservedField
  | .block | .expand | .rectangle | .crc | .linkLayer | .length | .inX _ => 1

abbrev Dec (α : Type) := Except DecErr α

/-- Go on if the condition holds, else refuse. -/
def need (b : Bool) (e : DecErr) : Dec Unit := if b then .ok () else .error e

/-- What fails here fails in the continuation (R272). -/
def inX {α : Type} : Dec α → Dec α
  | .error e => .error (.inX e)
  | .ok a => .ok a

/-- Go on if the condition on the continuation holds, else refuse. -/
def needX (b : Bool) (e : DecErr) : Dec Unit := inX (need b e)

/-- Bits `lo` to `lo + n − 1`. -/
def field {w : Nat} (v : BitVec w) (lo n : Nat) : BitVec n := v.extractLsb' lo n

/-- Little-endian: the word whose byte `i` is the `i`-th of the list (R4). -/
def leNat : List Byte → Nat
  | [] => 0
  | b :: r => b.toNat + 256 * leNat r

/-- The `n` bytes of a number, lowest first (R4). -/
def leBytes : Nat → Nat → List Byte
  | 0, _ => []
  | n + 1, v => BitVec.ofNat 8 v :: leBytes n (v / 256)

/-! ### Formats of list entries (R257 to R261) -/

/-- The common part of every entry: STAMP, CONT, OPC, two 6-bit fields, 30 bits that the format lays out, and bit 0. -/
structure Fields where
  stamp : BitVec 12
  cont : BitVec 1
  opc : BitVec 8
  f1 : BitVec 6
  f2 : BitVec 6
  rest : BitVec 30
  low : BitVec 1
  deriving DecidableEq, Repr

def Fields.ofWord (w : DWord) : Fields :=
  { stamp := field w 52 12, cont := field w 51 1, opc := field w 43 8, f1 := field w 37 6, f2 := field w 31 6
    rest := field w 1 30, low := field w 0 1 }

def Fields.toWord (f : Fields) : DWord := f.stamp ++ f.cont ++ f.opc ++ f.f1 ++ f.f2 ++ f.rest ++ f.low

namespace Fields
/-- Format E: MA, B, MB (R257). -/
def ma (f : Fields) : BitVec 12 := field f.rest 18 12
def b (f : Fields) : BitVec 6 := field f.rest 12 6
def mb (f : Fields) : BitVec 12 := field f.rest 0 12
/-- Format I: IMM18 (R258). -/
def imm18 (f : Fields) : BitVec 18 := field f.rest 0 18
/-- Format S: B and IMM24 (R261). -/
def sb (f : Fields) : BitVec 6 := field f.rest 24 6
def imm24 (f : Fields) : BitVec 24 := field f.rest 0 24
/-- Format J: COND and IMM26 (R261). -/
def cond (f : Fields) : BitVec 4 := field f.rest 26 4
def imm26 (f : Fields) : BitVec 26 := field f.rest 0 26
/-- Format C: SEL and IMM22 (R261). -/
def sel (f : Fields) : BitVec 8 := field f.rest 22 8
def imm22 (f : Fields) : BitVec 22 := field f.rest 0 22
end Fields

/-- Format X: C, MC, XIMM (R259). -/
structure XFields where
  c : BitVec 6
  mc : BitVec 12
  ximm : BitVec 24
  deriving DecidableEq, Repr

/-- A continuation carries the stamp of its entry, CONT 0 and OPC 0xFF; bit 0 is reserved (R255, R259). -/
def XFields.ofWord (stamp : BitVec 12) (w : DWord) : Dec XFields := do
  need (field w 43 8 == 0xFF) .contMismatch
  needX (field w 52 12 == stamp && field w 51 1 == 0) .contMismatch
  needX (field w 0 1 == 0) .reservedField
  .ok { c := field w 37 6, mc := field w 25 12, ximm := field w 1 24 }

def XFields.toWord (stamp : BitVec 12) (x : XFields) : DWord :=
  stamp ++ (0 : BitVec 1) ++ (0xFF : BitVec 8) ++ x.c ++ x.mc ++ x.ximm ++ (0 : BitVec 1)

/-! ### Operand codes (R261 to R264) -/

/-- Source codes (R262). -/
def srcOf (c : BitVec 6) : Dec Src :=
  if c.toNat < 32 then .ok (.v (Fin.ofNat 32 c.toNat))
  else if c.toNat < 40 then .ok (.s (Fin.ofNat 8 (c.toNat - 32)))
  else if c.toNat = 40 then .ok .nN
  else if c.toNat = 41 then .ok .nE
  else if c.toNat = 42 then .ok .nS
  else if c.toNat = 43 then .ok .nW
  else if c.toNat = 44 then .ok .hl
  else if c.toNat = 45 then .ok .vl
  else if c.toNat = 46 then .ok .z
  else if c.toNat = 47 then .ok .lid
  else if c.toNat < 56 then .ok (.m (Fin.ofNat 8 (c.toNat - 48)))
  else .error .reservedOperand

def srcCode : Src → BitVec 6
  | .v n => BitVec.ofNat 6 n.val
  | .s n => BitVec.ofNat 6 (32 + n.val)
  | .nN => 40
  | .nE => 41
  | .nS => 42
  | .nW => 43
  | .hl => 44
  | .vl => 45
  | .z => 46
  | .lid => 47
  | .m n => BitVec.ofNat 6 (48 + n.val)

/-- Destination codes (R263). -/
def dstOf (c : BitVec 6) : Dec Dst :=
  if c.toNat < 32 then .ok (.v (Fin.ofNat 32 c.toNat))
  else if c.toNat < 40 then .ok (.s (Fin.ofNat 8 (c.toNat - 32)))
  else if c.toNat < 48 then .ok (.p (Fin.ofNat 8 (c.toNat - 40)))
  else if c.toNat < 56 then .ok (.m (Fin.ofNat 8 (c.toNat - 48)))
  else if c.toNat = 56 then .ok .hl
  else if c.toNat = 57 then .ok .vl
  else if c.toNat = 58 then .ok .nul
  else .error .reservedOperand

def dstCode : Dst → BitVec 6
  | .v n => BitVec.ofNat 6 n.val
  | .s n => BitVec.ofNat 6 (32 + n.val)
  | .p n => BitVec.ofNat 6 (40 + n.val)
  | .m n => BitVec.ofNat 6 (48 + n.val)
  | .hl => 56
  | .vl => 57
  | .nul => 58

/-- A destination of a class (R278, R283). -/
def dstIn (cls : RCls) (c : BitVec 6) : Dec Dst := do
  let d ← dstOf c
  need (d.wfD cls) .operandClass
  .ok d

/-- G of a permute class (R264). -/
def gOf (g : BitVec 3) : Dec (Fin 6) := if h : g.toNat < 6 then .ok ⟨g.toNat, h⟩ else .error .reservedModifier

/-- Modifier classes (R264). -/
def clsOf (m : BitVec 12) : Dec ModCls :=
  match (field m 9 3).toNat with
  | 0 => if field m 1 11 = 0 then .ok .plain else .error .reservedModifier
  | 1 => do
    let g ← gOf (field m 6 3)
    need ((field m 1 5).toNat < 2 ^ g.val) .reservedModifier
    .ok (.rot g (field m 1 5))
  | 2 => do
    let g ← gOf (field m 6 3)
    need ((field m 1 5).toNat < 2 ^ g.val) .reservedModifier
    .ok (.bfly g (field m 1 5))
  | 3 => do
    let g ← gOf (field m 6 3)
    need ((field m 1 5).toNat < 2 ^ g.val) .reservedModifier
    .ok (.bcast g (field m 1 5))
  | 4 =>
    if field m 1 1 = 0 then .ok (.x4 (Fin.ofNat 16 (field m 5 4).toNat) (Fin.ofNat 8 (field m 2 3).toNat))
    else if h : (field m 2 3).toNat < 4 then .ok (.x8 (Fin.ofNat 16 (field m 5 4).toNat) ⟨(field m 2 3).toNat, h⟩)
    else .error .expand
  | _ => .error .reservedModifier

/-- The modifier bits of a class and NEG. -/
def modCode (o : Opnd) : BitVec 12 :=
  (match o.cls with
   | .plain => 0
   | .rot g d => (1 : BitVec 3) ++ BitVec.ofNat 3 g.val ++ d
   | .bfly g d => (2 : BitVec 3) ++ BitVec.ofNat 3 g.val ++ d
   | .bcast g d => (3 : BitVec 3) ++ BitVec.ofNat 3 g.val ++ d
   | .x4 b g => (4 : BitVec 3) ++ BitVec.ofNat 4 b.val ++ BitVec.ofNat 3 g.val ++ (0 : BitVec 1)
   | .x8 b g => (4 : BitVec 3) ++ BitVec.ofNat 4 b.val ++ BitVec.ofNat 3 g.val ++ (1 : BitVec 1) : BitVec 11)
    ++ BitVec.ofBool o.neg

/-- A source with its modifier, as far as the instruction accepts it (R262, R264, R279). -/
def opndOf (al : Allow) (c : BitVec 6) (m : BitVec 12) : Dec Opnd := do
  let src ← srcOf c
  let cls ← clsOf m
  let o : Opnd := { src := src, cls := cls, neg := m.getLsbD 0 }
  need (o.wf al) .operandClass
  .ok o

/-- Sequencer register codes (R261). -/
def cregOf (c : BitVec 6) : Dec CReg :=
  if c.toNat < 32 then .ok (.c (Fin.ofNat 32 c.toNat)) else if c.toNat = 32 then .ok .z else .error .reservedOperand

def cregCode : CReg → BitVec 6
  | .c n => BitVec.ofNat 6 n.val
  | .z => 32

/-- A register operand where the table does not allow z (R304). -/
def cnumOf (c : BitVec 6) : Dec CReg := do
  let r ← cregOf c
  need (r.isC) .reservedOperand
  .ok r

/-- A predicate source pk (R296): codes 0 to 7, no modifier. -/
def predOf (c : BitVec 6) (m : BitVec 12) : Dec (Fin 8) := do
  need (c.toNat < 8) .reservedOperand
  need (m == 0) .operandClass
  .ok (Fin.ofNat 8 c.toNat)

/-- A predicate source of an X entry (R287). -/
def predCode (p : Fin 8) : BitVec 6 := BitVec.ofNat 6 p.val

/-- A keeper index (R343). -/
def keepOf (c : BitVec 6) : Dec (Fin 4) := if h : c.toNat < 4 then .ok ⟨c.toNat, h⟩ else .error .operandClass

def fmtCode : CvtPair → BitVec 8
  | .i32f32 => 0x90 | .n32f32 => 0xC0 | .f32i32 => 0x09 | .f32n32 => 0x0C | .n32i32 => 0xC9 | .i32n32 => 0x9C

/-- DFMT and SFMT of `cvt` (R291). -/
def cvtOf (v : BitVec 8) : Dec CvtPair :=
  match v.toNat with
  | 0x90 => .ok .i32f32
  | 0xC0 => .ok .n32f32
  | 0x09 => .ok .f32i32
  | 0x0C => .ok .f32n32
  | 0xC9 => .ok .n32i32
  | 0x9C => .ok .i32n32
  | _ => .error .reservedOperand

/-- DFMT and SFMT of `pack` (R148, R292). -/
def packCode : Narrow → BitVec 8
  | .f16 => 0x10 | .bf16 => 0x20 | .e4m3 => 0x30 | .e5m2 => 0x40 | .e2m1s => 0x50
  | .i16 => 0x89 | .i8 => 0x79 | .n16 => 0xBC | .n8 => 0xAC | .x4 => 0xDC | .x8 => 0xEC

def packOf (v : BitVec 8) : Dec Narrow :=
  match v.toNat with
  | 0x10 => .ok .f16
  | 0x20 => .ok .bf16
  | 0x30 => .ok .e4m3
  | 0x40 => .ok .e5m2
  | 0x50 => .ok .e2m1s
  | 0x89 => .ok .i16
  | 0x79 => .ok .i8
  | 0xBC => .ok .n16
  | 0xAC => .ok .n8
  | 0xDC => .ok .x4
  | 0xEC => .ok .x8
  | _ => .error .reservedOperand

/-- DFMT and SFMT of `unpk` (R293). -/
def unpkCode : Narrow → BitVec 8
  | .f16 => 0x01 | .bf16 => 0x02 | .e4m3 => 0x03 | .e5m2 => 0x04 | .e2m1s => 0x05
  | .i16 => 0x98 | .i8 => 0x97 | .n16 => 0xCB | .n8 => 0xCA | .x4 => 0xCD | .x8 => 0xCE

def unpkOf (v : BitVec 8) : Dec Narrow :=
  match v.toNat with
  | 0x01 => .ok .f16
  | 0x02 => .ok .bf16
  | 0x03 => .ok .e4m3
  | 0x04 => .ok .e5m2
  | 0x05 => .ok .e2m1s
  | 0x98 => .ok .i16
  | 0x97 => .ok .i8
  | 0xCB => .ok .n16
  | 0xCA => .ok .n8
  | 0xCD => .ok .x4
  | 0xCE => .ok .x8
  | _ => .error .reservedOperand

/-- TY of R295. -/
def rtyOf (v : BitVec 3) : Dec RTy :=
  match v.toNat with
  | 0 => .ok .f32
  | 1 => .ok .i32
  | 2 => .ok .n32
  | _ => .error .reservedOperand

def rtyCode : RTy → BitVec 3
  | .f32 => 0 | .i32 => 1 | .n32 => 2

/-- LOP of R295. -/
def lopOf (v : BitVec 2) : Dec LOp :=
  match v.toNat with
  | 0 => .ok .and
  | 1 => .ok .or
  | 2 => .ok .xor
  | _ => .error .reservedOperand

def lopCode : LOp → BitVec 2
  | .and => 0 | .or => 1 | .xor => 2

/-- A segment size 2^G in an immediate (R295, R341). -/
def segOf (g : BitVec 3) : Dec (Fin 6) := if h : g.toNat < 6 then .ok ⟨g.toNat, h⟩ else .error .reservedOperand

/-- Types of `xpnd` (R300). -/
def xtyOf (v : BitVec 3) : Dec XTy :=
  match v.toNat with
  | 0 => .ok .f32
  | 1 => .ok .f16
  | 2 => .ok .bf16
  | 3 => .ok .e4m3
  | 4 => .ok .e5m2
  | _ => .error .reservedOperand

def xtyCode : XTy → BitVec 3
  | .f32 => 0 | .f16 => 1 | .bf16 => 2 | .e4m3 => 3 | .e5m2 => 4

/-- Types of `qidx` (R301). -/
def qtyOf (v : BitVec 2) : Dec QTy :=
  match v.toNat with
  | 0 => .ok .f32
  | 1 => .ok .f16
  | 2 => .ok .bf16
  | _ => .error .reservedOperand

def qtyCode : QTy → BitVec 2
  | .f32 => 0 | .f16 => 1 | .bf16 => 2

/-- Types of `bdot` and FMT of `smode` (R326, R337). -/
def styOf (v : BitVec 3) : Dec STy :=
  match v.toNat with
  | 0 => .ok .e4m3
  | 1 => .ok .e5m2
  | 2 => .ok .e2m1s
  | 3 => .ok .bf16
  | 4 => .ok .f16
  | _ => .error .reservedOperand

def styCode : STy → BitVec 3
  | .e4m3 => 0 | .e5m2 => 1 | .e2m1s => 2 | .bf16 => 3 | .f16 => 4

/-- FORM of `smode` (R326). -/
def sformOf (v : BitVec 3) : Dec SForm :=
  match v.toNat with
  | 0 => .ok .dense
  | 1 => .ok .indexed
  | 2 => .ok .fast
  | 3 => .ok .affine
  | 4 => .ok .off
  | _ => .error .reservedOperand

def sformCode : SForm → BitVec 3
  | .dense => 0 | .indexed => 1 | .fast => 2 | .affine => 3 | .off => 4

/-- kf of `stir.qk` (R321). -/
def kfOf (v : BitVec 2) : KF :=
  match v.toNat with
  | 0 => .e4m3
  | 1 => .e5m2
  | 2 => .bf16
  | _ => .f16

def kfCode : KF → BitVec 2
  | .e4m3 => 0 | .e5m2 => 1 | .bf16 => 2 | .f16 => 3

/-- COND codes (R261). -/
def condOf (v : BitVec 4) : Dec Cond :=
  match v.toNat with
  | 0 => .ok .always
  | 1 => .ok .eq
  | 2 => .ok .ne
  | 3 => .ok .ltu
  | 4 => .ok .geu
  | 5 => .ok .lts
  | 6 => .ok .ges
  | _ => .error .reservedOperand

def condCode : Cond → BitVec 4
  | .always => 0 | .eq => 1 | .ne => 2 | .ltu => 3 | .geu => 4 | .lts => 5 | .ges => 6

/-- ROP of the collectives (R31, R319). -/
def ropOf (v : BitVec 2) : ROp :=
  match v.toNat with
  | 0 => .sum
  | 1 => .max
  | 2 => .min
  | _ => .rsm

def ropCode : ROp → BitVec 2
  | .sum => 0 | .max => 1 | .min => 2 | .rsm => 3

/-- SOP of `sig` and SIGNAL (R61, R361). -/
def semOf (v : BitVec 2) (e : DecErr) : Dec SemOp :=
  match v.toNat with
  | 0 => .ok .add
  | 1 => .ok .set
  | 2 => .ok .max
  | _ => .error e

def semCode : SemOp → BitVec 2
  | .add => 0 | .set => 1 | .max => 2

/-- LEVEL of a cancel (R64, R359). -/
def levelOf (v : BitVec 3) (e : DecErr) : Dec CLevel :=
  match v.toNat with
  | 1 => .ok .demand
  | 2 => .ok .graph
  | 3 => .ok .phase
  | 4 => .ok .job
  | _ => .error e

def levelCode : CLevel → BitVec 3
  | .demand => 1 | .graph => 2 | .phase => 3 | .job => 4

/-! ### Shapes of element entries -/

/-- CONT is 0 and no continuation follows (R259). -/
def noX (f : Fields) (x : Option XFields) : Dec Unit := need (f.cont == 0 && x.isNone) .contMismatch

/-- CONT is 1 and the continuation is there (R259). -/
def theX (f : Fields) (x : Option XFields) : Dec XFields := do
  need (f.cont == 1) .contMismatch
  match x with
  | none => .error .contMismatch
  | some x => .ok x

/-- SUB is 0 (R257). -/
def sub0 (f : Fields) : Dec Unit := need (f.low == 0) .reservedField

def isSub (f : Fields) : Bool := f.low == 1

/-- Two sources and a destination, format E; SUB is given to the constructor. -/
def e2s (cls : RCls) (al : Allow) (k : Bool → Dst → Opnd → Opnd → Instr) (f : Fields) (x : Option XFields) : Dec Instr := do
  noX f x
  let d ← dstIn cls f.f1
  let a ← opndOf al f.f2 f.ma
  let b ← opndOf al f.b f.mb
  .ok (k (isSub f) d a b)

/-- Two sources and a destination, SUB 0. -/
def e2 (cls : RCls) (al : Allow) (k : Dst → Opnd → Opnd → Instr) (f : Fields) (x : Option XFields) : Dec Instr := do
  sub0 f
  e2s cls al (fun _ => k) f x

/-- B and MB hold 0. -/
def noB (f : Fields) : Dec Unit := need (f.b == 0 && f.mb == 0) .reservedField

/-- A and MA hold 0. -/
def noA (f : Fields) : Dec Unit := need (f.f2 == 0 && f.ma == 0) .reservedField

/-- One source and a destination, format E, SUB 0. -/
def e1 (cls : RCls) (al : Allow) (k : Dst → Opnd → Instr) (f : Fields) (x : Option XFields) : Dec Instr := do
  sub0 f
  noX f x
  noB f
  let d ← dstIn cls f.f1
  let a ← opndOf al f.f2 f.ma
  .ok (k d a)

/-- Two predicate sources (R296). -/
def p2 (k : Dst → Fin 8 → Fin 8 → Instr) (f : Fields) (x : Option XFields) : Dec Instr := do
  sub0 f
  noX f x
  let d ← dstIn .p f.f1
  let a ← predOf f.f2 f.ma
  let b ← predOf f.b f.mb
  .ok (k d a b)

/-- One predicate source (R296). -/
def p1 (cls : RCls) (k : Dst → Fin 8 → Instr) (f : Fields) (x : Option XFields) : Dec Instr := do
  sub0 f
  noX f x
  noB f
  let d ← dstIn cls f.f1
  let a ← predOf f.f2 f.ma
  .ok (k d a)

/-- The reductions of R295. -/
def rd (k : RTy → Fin 6 → Bool → Dst → Opnd → Instr) (f : Fields) (x : Option XFields) : Dec Instr := do
  sub0 f
  noX f x
  need (field f.imm18 0 9 == 0 && field f.imm18 9 2 == 0) .reservedField
  let ty ← rtyOf (field f.imm18 15 3)
  let g ← segOf (field f.imm18 12 3)
  need (0 < g.val) .reservedOperand
  let d ← dstIn .vu f.f1
  let a ← opndOf (if ty = .f32 then Allow.fp else Allow.negPerm) f.f2 f.ma
  .ok (k ty g (f.imm18.getLsbD 11) d a)

/-- A hide operation with data, SUB 0 (R311); D holds 0. -/
def h2 (alB : Allow) (k : Bool → Opnd → Opnd → Instr) (f : Fields) (x : Option XFields) : Dec Instr := do
  noX f x
  need (f.f1 == 0) .reservedField
  let a ← opndOf .permOnly f.f2 f.ma
  let b ← opndOf alB f.b f.mb
  .ok (k (isSub f) a b)

/-- The element opcodes (R277 to R302, R311, R325). -/
def decodeElem (f : Fields) (x : Option XFields) : Dec Instr :=
  match f.opc.toNat with
  | 0x00 => e2 .vu .fp .faddF32 f x
  | 0x01 => e2 .vu .fp .fsubF32 f x
  | 0x02 => e2 .vu .fp .fmulF32 f x
  | 0x03 => e2 .vd .fp .fmadF32 f x
  | 0x04 => e2 .vd .fp .fmsbF32 f x
  | 0x05 => e2 .vd .fp .fnmaF32 f x
  | 0x06 => e2 .vu .fp .fminF32 f x
  | 0x07 => e2 .vu .fp .fmaxF32 f x
  | 0x08 => e2 .p .fp .fcmpEq f x
  | 0x09 => e2 .p .fp .fcmpNe f x
  | 0x0A => e2 .p .fp .fcmpLt f x
  | 0x0B => e2 .p .fp .fcmpLe f x
  | 0x0C => e2 .p .fp .fcmpGt f x
  | 0x0D => e2 .p .fp .fcmpGe f x
  | 0x0E => e2 .p .fp .fcmpUn f x
  | 0x0F => do
    sub0 f
    let x ← theX f x
    let d ← dstIn .vu f.f1
    let a ← opndOf .permOnly f.f2 f.ma
    let b ← opndOf .permOnly f.b f.mb
    let k ← inX (predOf x.c x.mc)
    needX (x.ximm == 0) .reservedField
    .ok (.fsel d a b k)
  | 0x10 => e1 .vu .fp .frcp f x
  | 0x11 => e1 .vu .fp .fsqrt f x
  | 0x12 => e1 .vu .fp .frsq f x
  | 0x13 => e1 .vu .fp .fexp2 f x
  | 0x14 => e1 .vu .fp .flog2 f x
  | 0x15 => do
    sub0 f
    noX f x
    need (field f.imm18 9 9 == 0) .reservedField
    let d ← dstIn .p f.f1
    let a ← opndOf .fp f.f2 f.ma
    .ok (.fclass d a (field f.imm18 0 9))
  | 0x20 => e2s .vu .fp .faddHalf f x
  | 0x21 => e2s .vu .fp .fsubHalf f x
  | 0x22 => e2s .vu .fp .fmulHalf f x
  | 0x23 => e2s .vd .fp .fmadHalf f x
  | 0x24 => e2s .vd .fp .fmsbHalf f x
  | 0x25 => e2s .vd .fp .fnmaHalf f x
  | 0x26 => e2s .vu .fp .fminHalf f x
  | 0x27 => e2s .vu .fp .fmaxHalf f x
  | 0x30 => do
    sub0 f
    noX f x
    need (field f.imm18 0 10 == 0) .reservedField
    let pair ← cvtOf (field f.imm18 10 8)
    let d ← dstIn .vu f.f1
    let a ← opndOf (if pair = .i32f32 ∨ pair = .n32f32 then .fp else .negPerm) f.f2 f.ma
    .ok (.cvt pair d a)
  | 0x31 => do
    sub0 f
    let x ← theX f x
    needX (x.c == 0 && x.mc == 0 && field x.ximm 0 13 == 0) .reservedField
    let dst ← inX (packOf (field x.ximm 16 8))
    needX ((field x.ximm 13 3).toNat < dst.perWord) .reservedOperand
    let d ← dstIn .vu f.f1
    let a ← opndOf (if dst.isFp then .fp else .negPerm) f.f2 f.ma
    let b ← opndOf .permOnly f.b f.mb
    .ok (.pack dst (Fin.ofNat 8 (field x.ximm 13 3).toNat) d a b)
  | 0x32 => do
    sub0 f
    let x ← theX f x
    needX (x.c == 0 && x.mc == 0 && field x.ximm 0 13 == 0) .reservedField
    let src ← inX (unpkOf (field x.ximm 16 8))
    needX ((field x.ximm 13 3).toNat < src.perWord) .reservedOperand
    let d ← dstIn .vu f.f1
    let a ← opndOf { neg := src.isFp, perm := true, exp := src.isFp && src != .e2m1s } f.f2 f.ma
    if src = .e2m1s then do
      let b ← opndOf .permOnly f.b f.mb
      .ok (.unpk src (Fin.ofNat 8 (field x.ximm 13 3).toNat) d a b)
    else do
      noB f
      .ok (.unpk src (Fin.ofNat 8 (field x.ximm 13 3).toNat) d a Opnd.unused)
  | 0x40 => e2s .vu .negPerm .iadd f x
  | 0x41 => e2s .vu .negPerm .isub f x
  | 0x42 => e2s .vu .negPerm .imul f x
  | 0x43 => e2s .vu .negPerm .imulh f x
  | 0x44 => e2s .vd .negPerm .imad f x
  | 0x45 => e2s .vu .negPerm .imin f x
  | 0x46 => e2s .vu .negPerm .imax f x
  | 0x47 => e2 .vu .permOnly .and f x
  | 0x48 => e2 .vu .permOnly .or f x
  | 0x49 => e2 .vu .permOnly .xor f x
  | 0x4A => e2 .vu .permOnly .andn f x
  | 0x4B => e2 .vu .permOnly .shl f x
  | 0x4C => e2s .vu .permOnly .shr f x
  | 0x4D => e2 .vu .permOnly .rol f x
  | 0x4E => e1 .vu .permOnly .popc f x
  | 0x4F => e1 .vu .permOnly .clz f x
  | 0x50 => e2s .p .negPerm .icmpEq f x
  | 0x51 => e2s .p .negPerm .icmpNe f x
  | 0x52 => e2s .p .negPerm .icmpLt f x
  | 0x53 => e2s .p .negPerm .icmpLe f x
  | 0x54 => e2s .p .negPerm .icmpGt f x
  | 0x55 => e2s .p .negPerm .icmpGe f x
  | 0x58 => p2 .pand f x
  | 0x59 => p2 .por f x
  | 0x5A => p2 .pxor f x
  | 0x5B => p2 .pandn f x
  | 0x5C => p1 .p .pnot f x
  | 0x5D => e1 .p .permOnly .ptst f x
  | 0x5E => p1 .v .pvec f x
  | 0x5F => p1 .vu .pcnt f x
  | 0x60 => e1 .vu .permOnly .mov f x
  | 0x61 => do
    noX f x
    noA f
    let d ← dstIn .vu f.f1
    if isSub f then do
      need (field f.imm18 16 2 == 0) .reservedField
      .ok (.moviH d (field f.imm18 0 16))
    else .ok (.movi d f.imm18)
  | 0x62 => do
    noX f x
    noB f
    if isSub f then do
      need (40 ≤ f.f1.toNat && f.f1.toNat < 48 && 48 ≤ f.f2.toNat && f.f2.toNat < 56) .operandClass
      let a ← opndOf .permOnly f.f2 f.ma
      .ok (.movmP (.p (Fin.ofNat 8 (f.f1.toNat - 40))) a)
    else do
      need (f.ma == 0) .operandClass
      need (48 ≤ f.f1.toNat && f.f1.toNat < 56 && f.f2.toNat < 8) .operandClass
      .ok (.movm (.m (Fin.ofNat 8 (f.f1.toNat - 48))) (Fin.ofNat 8 f.f2.toNat))
  | 0x6F => do
    noX f x
    -- format P: GUARD [42:40], NM1 [39:37], PAT [36:29] (R260)
    need (field f.rest 0 28 == 0 && f.low == 0) .reservedField
    let pat : BitVec 8 := f.f2 ++ field f.rest 28 2
    let nm1 := (field f.f1 0 3).toNat
    need (pat.toNat < 2 ^ (nm1 + 1)) .block
    .ok (.pblk (Fin.ofNat 8 (field f.f1 3 3).toNat) (Fin.ofNat 8 nm1) pat)
  | 0x70 => e2 .vu .permOnly .perm f x
  | 0x71 => do
    sub0 f
    noX f x
    need (field f.imm18 0 9 == 0) .reservedField
    need (field f.imm18 15 3 == 0) .reservedOperand
    let op ← lopOf (field f.imm18 9 2)
    let g ← segOf (field f.imm18 12 3)
    need (0 < g.val) .reservedOperand
    let d ← dstIn .vu f.f1
    let a ← opndOf .permOnly f.f2 f.ma
    .ok (.lrd op g (f.imm18.getLsbD 11) d a)
  | 0x72 => rd .redAdd f x
  | 0x73 => rd .redMax f x
  | 0x74 => rd .redMin f x
  | 0x75 => do
    sub0 f
    noX f x
    need (field f.imm18 0 9 == 0 && field f.imm18 9 2 == 0) .reservedField
    let ty ← rtyOf (field f.imm18 15 3)
    let g ← segOf (field f.imm18 12 3)
    need (field f.imm18 11 1 == 0) .reservedOperand
    let d ← dstIn .vu f.f1
    let a ← opndOf (if ty = .f32 then Allow.fp else Allow.negPerm) f.f2 f.ma
    .ok (.scanAdd ty g d a)
  | 0x76 => do
    sub0 f
    noX f x
    need (field f.imm18 0 15 == 0) .reservedField
    let ty ← xtyOf (field f.imm18 15 3)
    let d ← dstIn .vu f.f1
    let a ← opndOf { neg := false, perm := false, exp := true } f.f2 f.ma
    need a.cls.isExp .operandClass
    .ok (.xpnd ty d a)
  | 0x77 => do
    sub0 f
    noX f x
    need (field f.imm18 0 12 == 0) .reservedField
    let ty ← qtyOf (field f.imm18 12 2)
    let d ← dstIn .vu f.f1
    let a ← opndOf .negPerm f.f2 f.ma
    .ok (.qidx ty (Fin.ofNat 16 (field f.imm18 14 4).toNat) d a)
  | 0x78 => e2 .vu .permOnly .blkh f x
  | 0x80 => do sub0 f; h2 .negPerm (fun _ => .hadd) f x
  | 0x81 => h2 .permOnly .hmax f x
  | 0x82 => h2 .permOnly .hmin f x
  | 0x83 => do
    sub0 f
    let x ← theX f x
    need (f.f1 == 0) .reservedField
    let a ← opndOf .permOnly f.f2 f.ma
    let b ← opndOf .permOnly f.b f.mb
    needX (x.ximm == 0) .reservedField
    let c ← inX (opndOf .permOnly x.c x.mc)
    .ok (.hcas a b c)
  | 0x84 => do sub0 f; h2 .permOnly (fun _ => .hxchg) f x
  | 0x85 => do sub0 f; h2 .negPerm (fun _ => .hred) f x
  | 0x86 => do
    noX f x
    noB f
    let d ← dstIn .v f.f1
    let a ← opndOf .permOnly f.f2 f.ma
    .ok (.hldI (isSub f) d a)
  | 0x87 => h2 .permOnly .hstI f x
  | 0x88 => do
    let x ← theX f x
    if isSub f then do
      noB f
      let d ← dstIn .v f.f1
      let a ← opndOf .negPerm f.f2 f.ma
      needX (field x.ximm 0 8 == 0 && x.c == 0 && x.mc == 0 && field x.ximm 16 8 == 0) .reservedField
      needX ((field x.ximm 8 8).toNat < 32) .reservedOperand
      .ok (.bdotSet (Fin.ofNat 32 (field x.ximm 8 8).toNat) d a)
    else do
      let boff := field x.ximm 16 5
      let km1 := field x.ximm 8 8
      let d ← dstIn (if boff.toNat = 0 then .v else .vd) f.f1
      let a ← opndOf .negPerm f.f2 f.ma
      let b ← opndOf .negPerm f.b f.mb
      needX (field x.ximm 0 8 == 0) .reservedField
      let ty ← inX (styOf (field x.ximm 21 3))
      needX (km1.toNat < ty.epv && boff.toNat + (km1.toNat + 32) / 32 ≤ 32) .reservedOperand
      let c ← inX (srcOf x.c)
      needX (x.mc == 0 && (ty = .e2m1s || x.c == 0)) .reservedField
      .ok (.bdot ty (Fin.ofNat 32 boff.toNat) km1 d a b c)
  | 0x89 => do
    sub0 f
    let x ← theX f x
    need (f.ma == 0 && f.mb == 0) .operandClass
    let d ← dstIn .vd f.f1
    let a ← srcOf f.f2
    let b ← srcOf f.b
    needX (x.ximm == 0) .reservedField
    needX (x.mc == 0) .operandClass
    let c ← inX (srcOf x.c)
    .ok (.scacc d a b c)
  | 0x8A => do
    let x ← theX f x
    let d ← dstIn .vu f.f1
    let a ← opndOf .fp f.f2 f.ma
    let b ← opndOf .fp f.b f.mb
    needX (field x.ximm 3 21 == 0) .reservedField
    let g ← inX (segOf (field x.ximm 0 3))
    let c ← inX (opndOf .fp x.c x.mc)
    if isSub f then .ok (.scanAffG g d a b c) else .ok (.scanAff g d a b c)
  | 0x8B => do
    sub0 f
    let x ← theX f x
    let d ← dstIn .vu f.f1
    let a ← opndOf .fp f.f2 f.ma
    let b ← opndOf .fp f.b f.mb
    needX (field x.ximm 5 19 == 0 && x.c == 0 && x.mc == 0) .reservedField
    let g ← inX (segOf (field x.ximm 0 3))
    .ok (.scanAffk g (Fin.ofNat 4 (field x.ximm 3 2).toNat) d a b)
  | 0x8C => do
    sub0 f
    noX f x
    let j ← keepOf f.f1
    let a ← opndOf .fp f.f2 f.ma
    let b ← opndOf .fp f.b f.mb
    .ok (.kset j a b)
  | 0x8D => do
    noX f x
    noB f
    need (f.ma == 0) .reservedField
    let d ← dstIn .vu f.f1
    let j ← keepOf f.f2
    .ok (.kget (isSub f) d j)
  | 0x8E => do
    sub0 f
    noX f x
    noA f
    noB f
    let j ← keepOf f.f1
    .ok (.kclr j)
  | 0x8F => do
    sub0 f
    noX f x
    noA f
    noB f
    let j ← keepOf f.f1
    .ok (.khor j)
  | _ => .error .unassigned

/-! ### Sequencer entries -/

/-- Fields that hold 0 in a sequencer entry (R304). -/
def z6 (v : BitVec 6) : Dec Unit := need (v == 0) .reservedField

/-- Format S: D, A, B, IMM24 (R261), no continuation, SUB 0. -/
def s0 (f : Fields) (x : Option XFields) : Dec Unit := do
  sub0 f
  noX f x

/-- The scalar operations (R352); `sh`: a count below 64. -/
def alu (sh : Bool) (k : CReg → CReg → SArg → Instr) (f : Fields) (x : Option XFields) : Dec Instr := do
  noX f x
  let d ← cregOf f.f1
  let a ← cregOf f.f2
  if isSub f then do
    z6 f.sb
    need (!sh || f.imm24.toNat < 64) .reservedOperand
    .ok (k d a (.imm f.imm24))
  else do
    need (f.imm24 == 0) .reservedField
    let b ← cregOf f.sb
    .ok (k d a (.reg b))

/-- A prefix instruction without continuation (R323). -/
def px (k : CReg → CReg → CReg → Instr) (f : Fields) (x : Option XFields) : Dec Instr := do
  s0 f x
  need (f.imm24 == 0) .reservedField
  let d ← cregOf f.f1
  let a ← cnumOf f.f2
  let b ← cnumOf f.sb
  .ok (k d a b)

/-- A field named z alone holds 32 (R304). -/
def onlyZ (v : BitVec 6) : Dec Unit := need (v == 32) .reservedOperand

/-- The sequencer opcodes (R303, R325, R347). -/
def decodeSeq (f : Fields) (x : Option XFields) : Dec Instr :=
  match f.opc.toNat with
  | 0xA0 => alu false .seqAdd f x
  | 0xA1 => alu false .seqSub f x
  | 0xA2 => alu false .seqMul f x
  | 0xA3 => alu false .seqAnd f x
  | 0xA4 => alu false .seqOr f x
  | 0xA5 => alu false .seqXor f x
  | 0xA6 => alu true .seqShl f x
  | 0xA7 => alu true .seqShr f x
  | 0xA8 => alu true .sra f x
  | 0xA9 => do
    s0 f x
    z6 f.f2
    z6 f.sb
    let d ← cregOf f.f1
    .ok (.li d f.imm24)
  | 0xAA => do
    s0 f x
    z6 f.f2
    z6 f.sb
    let d ← cregOf f.f1
    need (field f.imm24 18 6 == 0 && d != .z) .reservedOperand
    .ok (.ins d (field f.imm24 0 16) (Fin.ofNat 4 (field f.imm24 16 2).toNat))
  | 0xB0 => do
    s0 f x
    let a ← cregOf f.f1
    let b ← cregOf f.f2
    let c ← condOf f.cond
    .ok (.br c a b f.imm26)
  | 0xB1 => do
    s0 f x
    let a ← cregOf f.f1
    z6 f.f2
    need (f.cond == 0) .reservedField
    .ok (.loop a f.imm26)
  | 0xB8 => do
    noX f x
    let d ← cregOf f.f1
    let a ← cregOf f.f2
    let b ← cregOf f.sb
    need (field f.imm24 0 12 != 0) .reservedOperand
    .ok (.seqDemand (isSub f) d a b (field f.imm24 18 6) (field f.imm24 12 6) (field f.imm24 0 12))
  | 0xB9 => do
    s0 f x
    z6 f.f1
    need (f.imm24 == 0) .reservedField
    let a ← cregOf f.f2
    let b ← cregOf f.sb
    .ok (.post a b)
  | 0xBA => do
    s0 f x
    need (f.f1 == 0 && f.f2 == 0 && f.sb == 0 && field f.imm24 8 16 == 0) .reservedField
    .ok (.early (field f.imm24 0 8))
  | 0xBB => do
    s0 f x
    need (f.f1 == 0 && f.sb == 0 && field f.imm24 3 21 == 0) .reservedField
    let l ← levelOf (field f.imm24 0 3) .reservedOperand
    let a ← cregOf f.f2
    .ok (.seqCancel a l)
  | 0xBC => do
    s0 f x
    need (field f.imm24 7 17 == 0) .reservedField
    let d ← cregOf f.f1
    let a ← cregOf f.f2
    let b ← cregOf f.sb
    let m := field f.imm24 2 5
    need ((field f.imm24 0 2 == 2) == (m != 0)) .reservedOperand
    match (field f.imm24 0 2).toNat with
    | 0 => .ok (.waitc .done d a b)
    | 1 => .ok (.waitc .trig d a b)
    | 2 => .ok (.waitc (.engines m) d a b)
    | _ => .ok (.waitc .hide d a b)
  | 0xBD => do
    s0 f x
    need (f.f1 == 0 && field f.imm24 2 22 == 0) .reservedField
    let op ← semOf (field f.imm24 0 2) .reservedOperand
    let a ← cregOf f.f2
    let b ← cregOf f.sb
    .ok (.sig op a b)
  | 0xBE => do
    s0 f x
    need (f.f1 == 0 && f.f2 == 0 && f.sb == 0 && field f.imm24 8 16 == 0) .reservedField
    .ok (.fin (field f.imm24 0 8))
  | 0xC0 => do
    s0 f x
    need (f.f1 == 0 && f.f2 == 0 && f.rest == 0) .reservedField
    .ok .seqNop
  | 0xC1 => do
    s0 f x
    need (f.f1 == 0 && f.f2 == 0 && f.rest == 0) .reservedField
    .ok .yld
  | 0xC2 => do
    s0 f x
    need (f.f1 == 0 && f.f2 == 0 && f.rest == 0) .reservedField
    .ok .halt
  | 0xC3 => do
    s0 f x
    need (f.f1 == 0 && f.sb == 0 && field f.imm24 16 8 == 0) .reservedField
    let a ← cregOf f.f2
    need ((field f.imm24 0 16).toNat ≤ 0xFFEF) .reservedOperand
    .ok (.trap a (field f.imm24 0 16))
  | 0xC4 => do
    s0 f x
    need (f.f1 == 0 && f.f2 == 0 && f.sb == 0 && field f.imm24 16 8 == 0) .reservedField
    .ok (.brk (field f.imm24 0 16))
  | 0xC5 => do
    s0 f x
    need (f.f2 == 0 && f.sb == 0 && field f.imm24 16 8 == 0) .reservedField
    let d ← cregOf f.f1
    need (stOk false (field f.imm24 0 8).toNat (field f.imm24 8 8).toNat) .reservedOperand
    .ok (.rdst d (field f.imm24 0 8) (field f.imm24 8 8))
  | 0xC6 => do
    s0 f x
    need (f.f1 == 0 && f.sb == 0 && field f.imm24 16 8 == 0) .reservedField
    let a ← cregOf f.f2
    need (stOk true (field f.imm24 0 8).toNat (field f.imm24 8 8).toNat) .reservedOperand
    .ok (.wrst a (field f.imm24 0 8) (field f.imm24 8 8))
  | 0xC7 => do
    s0 f x
    need (f.f1 == 0 && f.f2 == 0 && f.sb == 0 && field f.imm24 16 5 == 0) .reservedField
    .ok (.cnt (Fin.ofNat 8 (field f.imm24 21 3).toNat) (field f.imm24 0 16))
  | 0xD0 => do
    s0 f x
    need (f.f1 == 0 && f.f2 == 0 && f.sb == 0 && field f.imm24 20 4 == 0 && field f.imm24 8 8 == 0) .reservedField
    .ok (.sdef (Fin.ofNat 16 (field f.imm24 16 4).toNat) (field f.imm24 0 8))
  | 0xD1 => do
    s0 f x
    need (f.f1 == 0 && f.sb == 0 && field f.imm24 20 4 == 0 && field f.imm24 4 12 == 0) .reservedField
    let a ← cnumOf f.f2
    need ((field f.imm24 0 4).toNat < 7) .reservedOperand
    .ok (.sset (Fin.ofNat 16 (field f.imm24 16 4).toNat) (Fin.ofNat 7 (field f.imm24 0 4).toNat) a)
  | 0xD2 => do
    s0 f x
    need (f.f1 == 0 && f.f2 == 0 && f.sb == 0 && field f.imm24 16 8 == 0) .reservedField
    .ok (.sstep (field f.imm24 0 16))
  | 0xD3 => do
    s0 f x
    need (f.f1 == 0 && field f.imm24 20 4 == 0 && field f.imm24 0 16 == 0) .reservedField
    let a ← cnumOf f.f2
    let b ← cnumOf f.sb
    .ok (.sarm (Fin.ofNat 16 (field f.imm24 16 4).toNat) a b)
  | 0xD4 => do
    s0 f x
    need (f.f1 == 0 && f.f2 == 0 && f.sb == 0 && field f.imm24 2 22 == 0) .reservedField
    match (field f.imm24 0 2).toNat with
    | 0 => .ok .drainMt
    | 1 => .ok .drainLoft
    | 2 => .ok .drainHide
    | _ => .error .reservedOperand
  | 0xD5 => do
    s0 f x
    need (f.sel == 0) .reservedField
    let a ← cnumOf f.f1
    let b ← cnumOf f.f2
    .ok (.copy a b f.imm22)
  | 0xD6 => do
    sub0 f
    let x ← theX f x
    need (f.sel == 0) .reservedField
    let a ← cnumOf f.f1
    let b ← cnumOf f.f2
    needX (x.mc == 0) .reservedField
    let c ← inX (cnumOf x.c)
    .ok (.gather a b f.imm22 c x.ximm)
  | 0xD7 => do
    let x ← theX f x
    let a ← cregOf f.f1
    let b ← cregOf f.f2
    need (isSub f != b.isC) .reservedOperand
    needX (x.mc == 0 && xfZero f.sel x.ximm) .reservedField
    let c ← inX (cregOf x.c)
    needX ((1 < f.sel.toNat || c == .z) && (f.sel != 2 || c.isC)) .reservedOperand
    .ok (.xf f.sel a b f.imm22 c x.ximm (isSub f))
  | 0xD8 => do
    sub0 f
    let x ← theX f x
    need (field f.sel 6 2 == 0 && field f.sel 0 2 == 0) .reservedField
    let a ← cregOf f.f1
    let b ← cnumOf f.f2
    needX (x.mc == 0 && field x.ximm 10 14 == 0) .reservedField
    inX (onlyZ x.c)
    .ok (.collMc a b f.imm22 (field f.sel 4 2) (field f.sel 2 2) (field x.ximm 0 10))
  | 0xD9 => do
    s0 f x
    need (field f.sel 4 4 == 0 && field f.sel 0 2 == 0 && field f.imm22 10 12 == 0) .reservedField
    onlyZ f.f1
    onlyZ f.f2
    .ok (.collBar (field f.sel 2 2) (field f.imm22 0 10))
  | 0xDA => do
    sub0 f
    let x ← theX f x
    need (field f.sel 0 2 == 0) .reservedField
    let a ← cnumOf f.f1
    let b ← cnumOf f.f2
    let rop := ropOf (field f.sel 6 2)
    let pf := field f.sel 4 2
    need (rop != .rsm || (pf != 1 && pf != 2)) .reservedOperand
    needX (x.mc == 0 && field x.ximm 22 2 == 0 && (rop = .rsm || field x.ximm 10 12 == 0)) .reservedField
    inX (onlyZ x.c)
    .ok (.collRed rop a b f.imm22 pf (field f.sel 2 2) (field x.ximm 0 10) (field x.ximm 10 12))
  | 0xDB => do
    sub0 f
    let x ← theX f x
    need (field f.imm22 6 16 == 0) .reservedField
    let a ← cnumOf f.f1
    let b ← cnumOf f.f2
    needX (x.mc == 0) .reservedField
    let c ← inX (cnumOf x.c)
    .ok (.stirQk (kfOf (field f.sel 6 2)) a b c (field f.imm22 0 6) (field f.sel 0 6) (field x.ximm 12 12) (field x.ximm 0 12))
  | 0xDC => do
    s0 f x
    need (field f.imm22 6 16 == 0 && field f.sel 6 2 == 0) .reservedField
    let a ← cnumOf f.f1
    let b ← cnumOf f.f2
    .ok (.stirPv a b (field f.imm22 0 6) (field f.sel 0 6))
  | 0xDD => do
    s0 f x
    need (field f.imm22 6 16 == 0 && field f.sel 6 2 == 0 && f.f1 == 0) .reservedField
    let b ← cnumOf f.f2
    .ok (.stirGet b (field f.imm22 0 6) (field f.sel 0 6))
  | 0xDE => do
    s0 f x
    need (f.f1 == 0 && f.sb == 0) .reservedField
    let a ← cnumOf f.f2
    need (1 ≤ f.imm24.toNat && f.imm24.toNat ≤ 4095) .reservedOperand
    .ok (.kvApp a f.imm24)
  | 0xDF => do
    s0 f x
    z6 f.f1
    let a ← cnumOf f.f2
    let b ← cregOf f.sb
    need (f.imm24.toNat ≤ 65536 && (f.imm24 == 0 || b.isC)) .reservedOperand
    .ok (.kvFork a b f.imm24)
  | 0xE0 => do
    s0 f x
    need (f.f1 == 0 && f.imm24 == 0) .reservedField
    let a ← cnumOf f.f2
    let b ← cnumOf f.sb
    .ok (.kvPin a b)
  | 0xE1 => do
    s0 f x
    need (f.f1 == 0 && f.f2 == 0 && f.imm24 == 0) .reservedField
    let b ← cnumOf f.sb
    .ok (.kvUnpin b)
  | 0xE2 => do
    s0 f x
    need (f.f1 == 0 && f.sb == 0 && f.imm24 == 0) .reservedField
    let a ← cnumOf f.f2
    .ok (.kvFree a)
  | 0xE3 => px .pxlk f x
  | 0xE4 => do
    sub0 f
    let x ← theX f x
    need (f.imm24 == 0) .reservedField
    let d ← cregOf f.f1
    let a ← cnumOf f.f2
    let b ← cnumOf f.sb
    needX (x.mc == 0 && x.ximm == 0) .reservedField
    let c ← inX (cnumOf x.c)
    .ok (.pxin d a b c)
  | 0xE5 => px .pxev f x
  | 0xE6 => do
    s0 f x
    need (f.sb == 0 && f.imm24 == 0) .reservedField
    let d ← cregOf f.f1
    let a ← cnumOf f.f2
    .ok (.flushFrame d a)
  | 0xE7 => do
    sub0 f
    let x ← theX f x
    need (f.f1 == 0 && f.f2 == 0) .reservedField
    let acc := f.sel.getLsbD 4
    let repm1 := field f.imm22 10 12
    need (!acc || repm1 == 0) .reservedOperand
    needX (x.c == 0 && x.mc == 0 && field x.ximm 0 8 == 0) .reservedField
    .ok (.tstep (Fin.ofNat 8 (field f.sel 5 3).toNat) acc (Fin.ofNat 16 (field f.sel 0 4).toNat) repm1 (field f.imm22 0 10)
      (field x.ximm 8 16))
  | 0xE8 => do
    s0 f x
    need (f.f1 == 0 && f.f2 == 0 && f.sb == 0 && field f.imm24 0 1 == 0) .reservedField
    let form ← sformOf (field f.imm24 4 3)
    let fmt ← styOf (field f.imm24 1 3)
    need (match form with
          | .dense => true
          | .indexed | .fast | .off => fmt = .e4m3
          | .affine => fmt != .e2m1s) .reservedOperand
    let row0 := field f.imm24 18 3
    let nrm1 := field f.imm24 11 3
    let col0 := (field f.imm24 14 4).toNat
    let ncm1 := (field f.imm24 7 4).toNat
    need (row0.toNat + nrm1.toNat ≤ 7 && col0 + ncm1 ≤ 11) .rectangle
    .ok (.smode (Fin.ofNat 8 (field f.imm24 21 3).toNat) (Fin.ofNat 8 row0.toNat) (Fin.ofNat 12 col0) (Fin.ofNat 8 nrm1.toNat)
      (Fin.ofNat 12 ncm1) form fmt)
  | 0xE9 => do
    s0 f x
    need (f.f1 == 0 && f.f2 == 0 && f.sb == 0 && field f.imm24 0 4 == 0) .reservedField
    let lines := f.imm24.getLsbD 20
    let seg := field f.imm24 12 8
    let off := field f.imm24 4 8
    need (!lines || (seg == 0 && off == 0)) .reservedField
    need (seg.toNat < 192) .reservedOperand
    .ok (.sload (Fin.ofNat 8 (field f.imm24 21 3).toNat) lines seg off)
  | 0xEA => do
    s0 f x
    need (f.f1 == 0 && f.sb == 0 && field f.imm24 9 12 == 0) .reservedField
    let a ← cnumOf f.f2
    let all := f.imm24.getLsbD 8
    need (!all || field f.imm24 0 8 == 0) .reservedOperand
    .ok (.sgain (Fin.ofNat 8 (field f.imm24 21 3).toNat) a all (field f.imm24 0 8))
  | 0xEB => do
    s0 f x
    need (f.f1 == 0 && f.f2 == 0 && f.sb == 0 && field f.imm24 0 20 == 0) .reservedField
    .ok (.sread (Fin.ofNat 8 (field f.imm24 21 3).toNat) (f.imm24.getLsbD 20))
  | 0xEC => do
    s0 f x
    need (f.f1 == 0 && f.sb == 0 && field f.imm24 8 12 == 0) .reservedField
    let a ← cnumOf f.f2
    .ok (.stw (Fin.ofNat 16 (field f.imm24 20 4).toNat) a (field f.imm24 0 8))
  | 0xED => do
    s0 f x
    need (f.f1 == 0 && f.f2 == 0 && f.sb == 0 && field f.imm24 0 20 == 0) .reservedField
    .ok (.stsw (Fin.ofNat 16 (field f.imm24 20 4).toNat))
  | 0xEE => do
    s0 f x
    need (f.f1 == 0 && f.f2 == 0 && f.sb == 0 && field f.imm24 16 4 == 0) .reservedField
    need ((field f.imm24 8 8).toNat + (field f.imm24 0 8).toNat ≤ 255) .reservedOperand
    .ok (.stinv (Fin.ofNat 16 (field f.imm24 20 4).toNat) (field f.imm24 8 8) (field f.imm24 0 8))
  | 0xEF => do
    s0 f x
    need (f.f1 == 0 && f.f2 == 0 && f.sb == 0 && field f.imm24 9 11 == 0) .reservedField
    need ((field f.imm24 0 9).toNat ≤ 256) .reservedOperand
    .ok (.stsz (Fin.ofNat 16 (field f.imm24 20 4).toNat) (field f.imm24 0 9))
  | 0xF0 => do
    s0 f x
    need (f.f1 == 0 && f.f2 == 0 && f.rest == 0) .reservedField
    .ok .seal
  | _ => .error .unassigned

/-- The opcodes of element lists (R265): 0x00 to 0x8F. -/
def isElemOpc (c : BitVec 8) : Bool := c.toNat < 0x90

/-- The opcodes of sequencer lists (R265): 0xA0 to 0xEF and `seal`. -/
def isSeqOpc (c : BitVec 8) : Bool := 0xA0 ≤ c.toNat && c.toNat ≤ 0xF0

/-- One entry of a list: its word and, when CONT is 1, the word that follows. An opcode of the other kind of list is
refused with its own code if some instruction has it (R266, R271). -/
def decodeEntry (seq : Bool) (w : DWord) (next : Option DWord) : Dec Instr := do
  let f := Fields.ofWord w
  need (f.opc != 0xFF) .contMismatch
  let x ← (if f.cont = 1 then (match next with
      | none => .error .contMismatch
      | some v => do let x ← XFields.ofWord f.stamp v; .ok (some x)) else .ok none : Dec (Option XFields))
  if seq then
    if isElemOpc f.opc then
      (match decodeElem f x with
       | .error .unassigned => .error .unassigned
       | _ => .error .wrongList)
    else decodeSeq f x
  else
    if isSeqOpc f.opc then
      (match decodeSeq f x with
       | .error .unassigned => .error .unassigned
       | _ => .error .wrongList)
    else decodeElem f x

/-! ### Packets (R57 to R64) -/

/-- The bits of a packet word that no layout names are 0. -/
def rsv (w : DWord) (used : DWord) : Dec Unit := need (w &&& ~~~used == 0) .packetReserved

/-- COND of WAITS (R61). -/
def wcondOf (v : BitVec 3) : Dec WCond :=
  match v.toNat with
  | 0 => .ok .ge
  | 1 => .ok .eq
  | 2 => .ok .ne
  | _ => .error .packetCode

def wcondCode : WCond → BitVec 3
  | .ge => 0 | .eq => 1 | .ne => 2

/-- COND of BRANCH (R63), which numbers the conditions otherwise than `br` does. -/
def bcondOf (v : BitVec 3) : Dec Cond :=
  match v.toNat with
  | 0 => .ok .eq
  | 1 => .ok .ne
  | 2 => .ok .ltu
  | 3 => .ok .geu
  | 4 => .ok .lts
  | 5 => .ok .ges
  | 6 => .ok .always
  | _ => .error .packetCode

def bcondCode : Cond → BitVec 3
  | .eq => 0 | .ne => 1 | .ltu => 2 | .geu => 3 | .lts => 4 | .ges => 5 | .always => 6

/-- The four words of a packet (R57 to R64). Of several errors the one with the lowest reason code is given (R65). -/
def decodePacket (w0 w1 w2 w3 : DWord) : Dec Instr :=
  let tag : BitVec 16 := field w0 16 16
  match (field w0 0 8).toNat with
  | 0x00 => do
    rsv w0 0x00000000FFFF00FF; rsv w1 0; rsv w2 0; rsv w3 0
    .ok (.nop tag)
  | 0x01 => do
    rsv w0 0x00003F3FFFFF00FF; rsv w1 0x0000FFFFFFFFFFFF; rsv w2 0x00000000FFFFFFFF; rsv w3 0
    .ok (.loadg tag (field w0 32 6) (field w0 40 6) (field w1 0 48) (field w2 0 32))
  | 0x02 => do
    need (field w0 46 2 != 3) .packetCode
    rsv w0 0x0001FF3FFFFF00FF; rsv w1 0x0000FFFFFFFFFFFF; rsv w2 0x0000FFFFFFFFFFFF; rsv w3 0x00000000FFFFFFFF
    need (field w3 0 32 != 0) .packetRange
    .ok (.demand tag (field w0 32 6) (field w0 40 6) (field w0 46 2) (w0.getLsbD 48) (field w1 0 48) (field w2 0 48) (field w3 0 32))
  | 0x03 => do
    let c ← wcondOf (field w0 32 3)
    rsv w0 0xFFFF0007FFFF00FF; rsv w1 0x0000000000FFFFFF; rsv w3 0
    .ok (.waits tag c (field w0 48 16) (field w1 0 24) w2)
  | 0x04 => do
    let op ← semOf (field w0 32 2) .packetCode
    rsv w0 0x0000000FFFFF00FF; rsv w1 0x0000000000FFFFFF; rsv w3 0
    .ok (.signal tag op (field w0 34 2) (field w1 0 24) w2)
  | 0x05 => do
    rsv w0 0x0000000CFFFF00FF; rsv w1 0; rsv w2 0; rsv w3 0
    .ok (.phase tag (field w0 34 2))
  | 0x06 => do
    let c ← bcondOf (field w0 32 3)
    rsv w0 0xFFFF000FFFFF00FF; rsv w1 0x0000000000FFFFFF; rsv w3 0x00000000FFFFFFFF
    need (field w3 0 32 != 0) .packetRange
    .ok (.branch tag c (w0.getLsbD 35) (field w0 48 16) (field w1 0 24) (field w2 0 32) (field w2 32 32) (field w3 0 32))
  | 0x07 => do
    let l ← levelOf (field w0 32 3) .packetCode
    rsv w0 0x00073F07FFFF00FF; rsv w1 0x00000000FFFFFFFF; rsv w2 0; rsv w3 0
    .ok (.cancel tag l (field w0 40 6) (Fin.ofNat 8 (field w0 48 3).toNat) (field w1 0 32))
  | 0x08 => do
    rsv w0 0x00000001FFFF00FF; rsv w1 0x00000000FFFFFFFF; rsv w2 0; rsv w3 0
    .ok (.quota tag (w0.getLsbD 32) (field w1 0 32))
  | 0x09 => do
    rsv w0 0x0000000CFFFF00FF; rsv w1 0; rsv w2 0; rsv w3 0
    .ok (.timestamp tag (field w0 34 2))
  | 0x0A => do
    rsv w0 0x00000001FFFF00FF; rsv w1 0; rsv w2 0; rsv w3 0
    .ok (.fenceh tag (w0.getLsbD 32))
  | _ => .error .packetCode

/-! ### Flits (R31 to R33) -/

/-- One step of a CRC taken most significant bit first. -/
def crc64Bit (c : DWord) (b : Bool) : DWord :=
  if c.msb = b then c <<< 1 else (c <<< 1) ^^^ 0x42F0E1EBA9EA3693

/-- The CRC-64 of R31: initial value of all ones, final inversion. The rule does not say in which order the bits of a byte
enter: the most significant comes first here. DESIGN CHOICE (log entry 9). -/
def crc64 (bs : List Byte) : DWord :=
  ~~~ (bs.foldl (fun c (b : Byte) => [7, 6, 5, 4, 3, 2, 1, 0].foldl (fun c k => crc64Bit c (b.getLsbD k)) c) (BitVec.allOnes 64))

def Flit.header (f : Flit) : BitVec 128 :=
  f.ver ++ f.vc ++ f.type ++ f.seq ++ f.ack ++ f.dst ++ f.src ++ f.group ++ f.opn ++ f.cnt ++ f.rop ++ f.pfmt
    ++ BitVec.ofBool f.rsv ++ BitVec.ofBool f.last ++ f.frag

def Flit.ofHeader (h : BitVec 128) (payload : List Byte) : Flit :=
  { ver := field h 124 4, vc := field h 120 4, type := field h 112 8, seq := field h 100 12, ack := field h 88 12
    dst := field h 76 12, src := field h 64 12, group := field h 48 16, opn := field h 32 16, cnt := field h 24 8
    rop := field h 20 4, pfmt := field h 16 4, rsv := h.getLsbD 15, last := h.getLsbD 14, frag := field h 0 14
    payload := payload }

/-- The row of a flit by its TYPE, on the VC of its type (R32); a flit malformed in its link-layer fields is refused (R33). -/
def flitInstr (port : Fin 18) (f : Flit) : Dec Instr := do
  need (f.ver == 1 && !f.rsv) .linkLayer
  match f.type.toNat, f.vc.toNat with
  | 0x00, 0 => .ok (.idle port f)
  | 0x01, 0 => .ok (.credit port f)
  | 0x02, 0 => .ok (.retry port f)
  | 0x10, 1 => .ok (.mcast port f)
  | 0x11, 2 => .ok (.redup port f)
  | 0x12, 3 => .ok (.reddn port f)
  | 0x13, 4 => .ok (.barup port f)
  | 0x14, 4 => .ok (.bardn port f)
  | 0x15, 4 => .ok (.abort port f)
  | 0x20, 5 => .ok (.flitCopy port f)
  | _, _ => .error .linkLayer

/-- The 256 bytes of a flit (R31). -/
def decodeFlit (port : Fin 18) (bs : List Byte) : Dec Instr := do
  need (bs.length == 256) .length
  need (leNat (bs.drop 248) == (crc64 (bs.take 248)).toNat) .crc
  flitInstr port (Flit.ofHeader (BitVec.ofNat 128 (leNat (bs.take 16))) ((bs.drop 16).take 232))

def Flit.bytes (f : Flit) : List Byte :=
  let body := leBytes 16 f.header.toNat ++ f.payload
  body ++ leBytes 8 (crc64 body).toNat

/-! ### The table's words -/

/-- Words of 64 bits, the first in the low bits. -/
def wordAt (w i : Nat) : DWord := BitVec.ofNat 64 (w / 2 ^ (64 * i))

/-- Words numbered as the opcode table numbers them: a list entry (64 bits, with an all-zero second word where the entry
calls for one, or 128 bits), a packet (256 bits), a flit (2 048 bits). -/
def decodeTableWord (nbits w : Nat) : Option Instr :=
  if nbits ≤ 128 then
    let f := Fields.ofWord (wordAt w 0)
    (decodeEntry (!isElemOpc f.opc) (wordAt w 0) (some (wordAt w 1))).toOption
  else if nbits ≤ 256 then (decodePacket (wordAt w 0) (wordAt w 1) (wordAt w 2) (wordAt w 3)).toOption
  else if nbits = 2048 then (decodeFlit 0 (leBytes 256 w)).toOption
  else none

/-! ### The encoder -/

/-- The fields of an entry without its stamp, and its continuation. -/
structure Enc where
  opc : BitVec 8
  f1 : BitVec 6 := 0
  f2 : BitVec 6 := 0
  rest : BitVec 30 := 0
  low : Bool := false
  x : Option XFields := none
  deriving DecidableEq, Repr

/-- Format E: MA, B, MB in their places. -/
def restE (ma : BitVec 12) (b : BitVec 6) (mb : BitVec 12) : BitVec 30 := ma ++ b ++ mb
/-- Format I. -/
def restI (ma : BitVec 12) (imm : BitVec 18) : BitVec 30 := ma ++ imm
/-- Format S. -/
def restS (b : BitVec 6) (imm : BitVec 24) : BitVec 30 := b ++ imm
/-- Format J. -/
def restJ (cond : BitVec 4) (imm : BitVec 26) : BitVec 30 := cond ++ imm
/-- Format C. -/
def restC (sel : BitVec 8) (imm : BitVec 22) : BitVec 30 := sel ++ imm

def encE2 (opc : BitVec 8) (sub : Bool) (d : Dst) (a b : Opnd) (x : Option XFields := none) : Option Enc :=
  some { opc := opc, f1 := dstCode d, f2 := srcCode a.src, rest := restE (modCode a) (srcCode b.src) (modCode b), low := sub, x := x }

def encE1 (opc : BitVec 8) (sub : Bool) (d : Dst) (a : Opnd) (x : Option XFields := none) : Option Enc :=
  some { opc := opc, f1 := dstCode d, f2 := srcCode a.src, rest := restE (modCode a) 0 0, low := sub, x := x }

def encI (opc : BitVec 8) (d : Dst) (a : Opnd) (imm : BitVec 18) : Option Enc :=
  some { opc := opc, f1 := dstCode d, f2 := srcCode a.src, rest := restI (modCode a) imm }

def encP2 (opc : BitVec 8) (d : Dst) (a b : Fin 8) : Option Enc :=
  some { opc := opc, f1 := dstCode d, f2 := predCode a, rest := restE 0 (predCode b) 0 }

def encP1 (opc : BitVec 8) (d : Dst) (a : Fin 8) : Option Enc :=
  some { opc := opc, f1 := dstCode d, f2 := predCode a }

def encRd (opc : BitVec 8) (ty : RTy) (g : Fin 6) (all : Bool) (lop : BitVec 2) (d : Dst) (a : Opnd) : Option Enc :=
  encI opc d a (rtyCode ty ++ BitVec.ofNat 3 g.val ++ BitVec.ofBool all ++ lop ++ (0 : BitVec 9))

def encH (opc : BitVec 8) (sub : Bool) (a b : Opnd) (x : Option XFields := none) : Option Enc :=
  some { opc := opc, f2 := srcCode a.src, rest := restE (modCode a) (srcCode b.src) (modCode b), low := sub, x := x }

def encAlu (opc : BitVec 8) (d a : CReg) : SArg → Option Enc
  | .reg b => some { opc := opc, f1 := cregCode d, f2 := cregCode a, rest := restS (cregCode b) 0 }
  | .imm i => some { opc := opc, f1 := cregCode d, f2 := cregCode a, rest := restS 0 i, low := true }

/-- Format S with the register fields given by their codes. -/
def encS (opc : BitVec 8) (d a b : BitVec 6) (imm : BitVec 24) (sub : Bool := false) (x : Option XFields := none) : Option Enc :=
  some { opc := opc, f1 := d, f2 := a, rest := restS b imm, low := sub, x := x }

def encC (opc : BitVec 8) (a b : BitVec 6) (sel : BitVec 8) (imm : BitVec 22) (x : Option XFields := none) (link : Bool := false) :
    Option Enc :=
  some { opc := opc, f1 := a, f2 := b, rest := restC sel imm, low := link, x := x }

/-- What a list entry encodes to; a step that no list holds has none. -/
def encodeEntry : Instr → Option Enc
  | .faddF32 d a b => encE2 0x00 false d a b
  | .fsubF32 d a b => encE2 0x01 false d a b
  | .fmulF32 d a b => encE2 0x02 false d a b
  | .fmadF32 d a b => encE2 0x03 false d a b
  | .fmsbF32 d a b => encE2 0x04 false d a b
  | .fnmaF32 d a b => encE2 0x05 false d a b
  | .fminF32 d a b => encE2 0x06 false d a b
  | .fmaxF32 d a b => encE2 0x07 false d a b
  | .fcmpEq d a b => encE2 0x08 false d a b
  | .fcmpNe d a b => encE2 0x09 false d a b
  | .fcmpLt d a b => encE2 0x0A false d a b
  | .fcmpLe d a b => encE2 0x0B false d a b
  | .fcmpGt d a b => encE2 0x0C false d a b
  | .fcmpGe d a b => encE2 0x0D false d a b
  | .fcmpUn d a b => encE2 0x0E false d a b
  | .fsel d a b k => encE2 0x0F false d a b (some { c := predCode k, mc := 0, ximm := 0 })
  | .frcp d a => encE1 0x10 false d a
  | .fsqrt d a => encE1 0x11 false d a
  | .frsq d a => encE1 0x12 false d a
  | .fexp2 d a => encE1 0x13 false d a
  | .flog2 d a => encE1 0x14 false d a
  | .fclass d a mask => encI 0x15 d a ((0 : BitVec 9) ++ mask)
  | .faddHalf bf d a b => encE2 0x20 bf d a b
  | .fsubHalf bf d a b => encE2 0x21 bf d a b
  | .fmulHalf bf d a b => encE2 0x22 bf d a b
  | .fmadHalf bf d a b => encE2 0x23 bf d a b
  | .fmsbHalf bf d a b => encE2 0x24 bf d a b
  | .fnmaHalf bf d a b => encE2 0x25 bf d a b
  | .fminHalf bf d a b => encE2 0x26 bf d a b
  | .fmaxHalf bf d a b => encE2 0x27 bf d a b
  | .cvt pair d a => encI 0x30 d a (fmtCode pair ++ (0 : BitVec 10))
  | .pack dst pos d a b =>
    encE2 0x31 false d a b (some { c := 0, mc := 0, ximm := packCode dst ++ BitVec.ofNat 3 pos.val ++ (0 : BitVec 13) })
  | .unpk src pos d a b =>
    encE2 0x32 false d a b (some { c := 0, mc := 0, ximm := unpkCode src ++ BitVec.ofNat 3 pos.val ++ (0 : BitVec 13) })
  | .iadd n d a b => encE2 0x40 n d a b
  | .isub n d a b => encE2 0x41 n d a b
  | .imul n d a b => encE2 0x42 n d a b
  | .imulh n d a b => encE2 0x43 n d a b
  | .imad n d a b => encE2 0x44 n d a b
  | .imin n d a b => encE2 0x45 n d a b
  | .imax n d a b => encE2 0x46 n d a b
  | .and d a b => encE2 0x47 false d a b
  | .or d a b => encE2 0x48 false d a b
  | .xor d a b => encE2 0x49 false d a b
  | .andn d a b => encE2 0x4A false d a b
  | .shl d a b => encE2 0x4B false d a b
  | .shr n d a b => encE2 0x4C n d a b
  | .rol d a b => encE2 0x4D false d a b
  | .popc d a => encE1 0x4E false d a
  | .clz d a => encE1 0x4F false d a
  | .icmpEq n d a b => encE2 0x50 n d a b
  | .icmpNe n d a b => encE2 0x51 n d a b
  | .icmpLt n d a b => encE2 0x52 n d a b
  | .icmpLe n d a b => encE2 0x53 n d a b
  | .icmpGt n d a b => encE2 0x54 n d a b
  | .icmpGe n d a b => encE2 0x55 n d a b
  | .pand d a b => encP2 0x58 d a b
  | .por d a b => encP2 0x59 d a b
  | .pxor d a b => encP2 0x5A d a b
  | .pandn d a b => encP2 0x5B d a b
  | .pnot d a => encP1 0x5C d a
  | .ptst d a => encE1 0x5D false d a
  | .pvec d a => encP1 0x5E d a
  | .pcnt d a => encP1 0x5F d a
  | .mov d a => encE1 0x60 false d a
  | .movi d imm => some { opc := 0x61, f1 := dstCode d, rest := restI 0 imm }
  | .moviH d imm => some { opc := 0x61, f1 := dstCode d, rest := restI 0 ((0 : BitVec 2) ++ imm), low := true }
  | .movm d a => some { opc := 0x62, f1 := dstCode d, f2 := predCode a }
  | .movmP d a => encE1 0x62 true d a
  | .pblk g nm1 pat =>
    some { opc := 0x6F, f1 := BitVec.ofNat 3 g.val ++ BitVec.ofNat 3 nm1.val, f2 := field pat 2 6
           rest := field pat 0 2 ++ (0 : BitVec 28) }
  | .perm d a b => encE2 0x70 false d a b
  | .lrd op g all d a => encRd 0x71 .f32 g all (lopCode op) d a
  | .redAdd ty g all d a => encRd 0x72 ty g all 0 d a
  | .redMax ty g all d a => encRd 0x73 ty g all 0 d a
  | .redMin ty g all d a => encRd 0x74 ty g all 0 d a
  | .scanAdd ty g d a => encRd 0x75 ty g false 0 d a
  | .xpnd ty d a => encI 0x76 d a (xtyCode ty ++ (0 : BitVec 15))
  | .qidx ty bank d a => encI 0x77 d a (BitVec.ofNat 4 bank.val ++ qtyCode ty ++ (0 : BitVec 12))
  | .blkh d a b => encE2 0x78 false d a b
  | .hadd a b => encH 0x80 false a b
  | .hmax n a b => encH 0x81 n a b
  | .hmin n a b => encH 0x82 n a b
  | .hcas a b c => encH 0x83 false a b (some { c := srcCode c.src, mc := modCode c, ximm := 0 })
  | .hxchg a b => encH 0x84 false a b
  | .hred a b => encH 0x85 false a b
  | .hldI hi d a => encE1 0x86 hi d a
  | .hstI hi a b => encH 0x87 hi a b
  | .bdot ty boff km1 d a b c =>
    encE2 0x88 false d a b
      (some { c := srcCode c, mc := 0, ximm := styCode ty ++ BitVec.ofNat 5 boff.val ++ km1 ++ (0 : BitVec 8) })
  | .bdotSet nb d a =>
    encE1 0x88 true d a (some { c := 0, mc := 0, ximm := (0 : BitVec 8) ++ BitVec.ofNat 8 nb.val ++ (0 : BitVec 8) })
  | .scacc d a b c =>
    some { opc := 0x89, f1 := dstCode d, f2 := srcCode a, rest := restE 0 (srcCode b) 0
           x := some { c := srcCode c, mc := 0, ximm := 0 } }
  | .scanAff g d a b c => encE2 0x8A false d a b (some { c := srcCode c.src, mc := modCode c, ximm := BitVec.ofNat 24 g.val })
  | .scanAffG g d a b c => encE2 0x8A true d a b (some { c := srcCode c.src, mc := modCode c, ximm := BitVec.ofNat 24 g.val })
  | .scanAffk g j d a b =>
    encE2 0x8B false d a b (some { c := 0, mc := 0, ximm := (0 : BitVec 19) ++ BitVec.ofNat 2 j.val ++ BitVec.ofNat 3 g.val })
  | .kset j a b =>
    some { opc := 0x8C, f1 := BitVec.ofNat 6 j.val, f2 := srcCode a.src, rest := restE (modCode a) (srcCode b.src) (modCode b) }
  | .kget gain d j => some { opc := 0x8D, f1 := dstCode d, f2 := BitVec.ofNat 6 j.val, low := gain }
  | .kclr j => some { opc := 0x8E, f1 := BitVec.ofNat 6 j.val }
  | .khor j => some { opc := 0x8F, f1 := BitVec.ofNat 6 j.val }
  | .seqAdd d a b => encAlu 0xA0 d a b
  | .seqSub d a b => encAlu 0xA1 d a b
  | .seqMul d a b => encAlu 0xA2 d a b
  | .seqAnd d a b => encAlu 0xA3 d a b
  | .seqOr d a b => encAlu 0xA4 d a b
  | .seqXor d a b => encAlu 0xA5 d a b
  | .seqShl d a b => encAlu 0xA6 d a b
  | .seqShr d a b => encAlu 0xA7 d a b
  | .sra d a b => encAlu 0xA8 d a b
  | .li d imm => encS 0xA9 (cregCode d) 0 0 imm
  | .ins d imm k => encS 0xAA (cregCode d) 0 0 ((0 : BitVec 6) ++ BitVec.ofNat 2 k.val ++ imm)
  | .br c a b disp => some { opc := 0xB0, f1 := cregCode a, f2 := cregCode b, rest := restJ (condCode c) disp }
  | .loop a disp => some { opc := 0xB1, f1 := cregCode a, rest := restJ 0 disp }
  | .seqDemand rel d a b slot sink stride =>
    encS 0xB8 (cregCode d) (cregCode a) (cregCode b) (slot ++ sink ++ stride) rel
  | .post a b => encS 0xB9 0 (cregCode a) (cregCode b) 0
  | .early o => encS 0xBA 0 0 0 (o.zeroExtend 24)
  | .seqCancel a l => encS 0xBB 0 (cregCode a) 0 ((levelCode l).zeroExtend 24)
  | .waitc kind d a b =>
    encS 0xBC (cregCode d) (cregCode a) (cregCode b)
      (match kind with
       | .done => 0
       | .trig => 1
       | .engines m => (0 : BitVec 17) ++ m ++ (2 : BitVec 2)
       | .hide => 3)
  | .sig op a b => encS 0xBD 0 (cregCode a) (cregCode b) ((semCode op).zeroExtend 24)
  | .fin o => encS 0xBE 0 0 0 (o.zeroExtend 24)
  | .seqNop => encS 0xC0 0 0 0 0
  | .yld => encS 0xC1 0 0 0 0
  | .halt => encS 0xC2 0 0 0 0
  | .trap a code => encS 0xC3 0 (cregCode a) 0 (code.zeroExtend 24)
  | .brk code => encS 0xC4 0 0 0 (code.zeroExtend 24)
  | .rdst d st sel => encS 0xC5 (cregCode d) 0 0 ((0 : BitVec 8) ++ sel ++ st)
  | .wrst a st sel => encS 0xC6 0 (cregCode a) 0 ((0 : BitVec 8) ++ sel ++ st)
  | .cnt k n => encS 0xC7 0 0 0 (BitVec.ofNat 3 k.val ++ (0 : BitVec 5) ++ n)
  | .sdef p n => encS 0xD0 0 0 0 ((0 : BitVec 4) ++ BitVec.ofNat 4 p.val ++ (0 : BitVec 8) ++ n)
  | .sset p fl a => encS 0xD1 0 (cregCode a) 0 ((0 : BitVec 4) ++ BitVec.ofNat 4 p.val ++ (0 : BitVec 12) ++ BitVec.ofNat 4 fl.val)
  | .sstep mask => encS 0xD2 0 0 0 (mask.zeroExtend 24)
  | .sarm p a b => encS 0xD3 0 (cregCode a) (cregCode b) ((0 : BitVec 4) ++ BitVec.ofNat 4 p.val ++ (0 : BitVec 16))
  | .drainMt => encS 0xD4 0 0 0 0
  | .drainLoft => encS 0xD4 0 0 0 1
  | .drainHide => encS 0xD4 0 0 0 2
  | .copy a b n => encC 0xD5 (cregCode a) (cregCode b) 0 n
  | .gather a b n c rb => encC 0xD6 (cregCode a) (cregCode b) 0 n (some { c := cregCode c, mc := 0, ximm := rb })
  | .xf sel a b n c x link => encC 0xD7 (cregCode a) (cregCode b) sel n (some { c := cregCode c, mc := 0, ximm := x }) link
  | .collMc a b n pf cl g =>
    encC 0xD8 (cregCode a) (cregCode b) ((0 : BitVec 2) ++ pf ++ cl ++ (0 : BitVec 2)) n
      (some { c := 32, mc := 0, ximm := g.zeroExtend 24 })
  | .collBar cl g => encC 0xD9 32 32 ((0 : BitVec 4) ++ cl ++ (0 : BitVec 2)) (g.zeroExtend 22)
  | .collRed rop a b n pf cl g d =>
    encC 0xDA (cregCode a) (cregCode b) (ropCode rop ++ pf ++ cl ++ (0 : BitVec 2)) n
      (some { c := 32, mc := 0, ximm := (0 : BitVec 2) ++ d ++ g })
  | .stirQk kf a b c l0 nl ko vo =>
    encC 0xDB (cregCode a) (cregCode b) (kfCode kf ++ nl) (l0.zeroExtend 22) (some { c := cregCode c, mc := 0, ximm := ko ++ vo })
  | .stirPv a b l0 nl => encC 0xDC (cregCode a) (cregCode b) ((0 : BitVec 2) ++ nl) (l0.zeroExtend 22)
  | .stirGet b l0 nl => encC 0xDD 0 (cregCode b) ((0 : BitVec 2) ++ nl) (l0.zeroExtend 22)
  | .kvApp a n => encS 0xDE 0 (cregCode a) 0 n
  | .kvFork a b n => encS 0xDF 0 (cregCode a) (cregCode b) n
  | .kvPin a b => encS 0xE0 0 (cregCode a) (cregCode b) 0
  | .kvUnpin b => encS 0xE1 0 0 (cregCode b) 0
  | .kvFree a => encS 0xE2 0 (cregCode a) 0 0
  | .pxlk d a b => encS 0xE3 (cregCode d) (cregCode a) (cregCode b) 0
  | .pxin d a b c => encS 0xE4 (cregCode d) (cregCode a) (cregCode b) 0 false (some { c := cregCode c, mc := 0, ximm := 0 })
  | .pxev d a b => encS 0xE5 (cregCode d) (cregCode a) (cregCode b) 0
  | .flushFrame d a => encS 0xE6 (cregCode d) (cregCode a) 0 0
  | .tstep slot acc bank repm1 intm1 mask =>
    encC 0xE7 0 0 (BitVec.ofNat 3 slot.val ++ BitVec.ofBool acc ++ BitVec.ofNat 4 bank.val) (repm1 ++ intm1)
      (some { c := 0, mc := 0, ximm := mask ++ (0 : BitVec 8) })
  | .smode slot row0 col0 nrm1 ncm1 form fmt =>
    encS 0xE8 0 0 0 (BitVec.ofNat 3 slot.val ++ BitVec.ofNat 3 row0.val ++ BitVec.ofNat 4 col0.val ++ BitVec.ofNat 3 nrm1.val
      ++ BitVec.ofNat 4 ncm1.val ++ sformCode form ++ styCode fmt ++ (0 : BitVec 1))
  | .sload slot lines seg off =>
    encS 0xE9 0 0 0 (BitVec.ofNat 3 slot.val ++ BitVec.ofBool lines ++ seg ++ off ++ (0 : BitVec 4))
  | .sgain slot a all row => encS 0xEA 0 (cregCode a) 0 (BitVec.ofNat 3 slot.val ++ (0 : BitVec 12) ++ BitVec.ofBool all ++ row)
  | .sread slot clr => encS 0xEB 0 0 0 (BitVec.ofNat 3 slot.val ++ BitVec.ofBool clr ++ (0 : BitVec 20))
  | .stw bank a idx => encS 0xEC 0 (cregCode a) 0 (BitVec.ofNat 4 bank.val ++ (0 : BitVec 12) ++ idx)
  | .stsw bank => encS 0xED 0 0 0 (BitVec.ofNat 4 bank.val ++ (0 : BitVec 20))
  | .stinv bank first nm1 => encS 0xEE 0 0 0 (BitVec.ofNat 4 bank.val ++ (0 : BitVec 4) ++ first ++ nm1)
  | .stsz bank size => encS 0xEF 0 0 0 (BitVec.ofNat 4 bank.val ++ (0 : BitVec 11) ++ size)
  | .seal => encS 0xF0 0 0 0 0
  | _ => none

/-- The words of a list entry at a stamp. -/
def Enc.words (stamp : BitVec 12) (e : Enc) : List DWord :=
  Fields.toWord { stamp := stamp, cont := BitVec.ofBool e.x.isSome, opc := e.opc, f1 := e.f1, f2 := e.f2, rest := e.rest
                  low := BitVec.ofBool e.low }
    :: (match e.x with
        | none => []
        | some x => [x.toWord stamp])

/-- W0 of a packet: ARG, TAG, OP (R57). -/
def pkt0 (arg : Word) (tag : BitVec 16) (op : BitVec 8) : DWord := arg ++ tag ++ (0 : BitVec 8) ++ op

/-- The four words of a packet (R59 to R64). -/
def encodePacket : Instr → Option (List DWord)
  | .nop tag => some [pkt0 0 tag 0x00, 0, 0, 0]
  | .loadg tag slot origin image len =>
    some [pkt0 ((0 : BitVec 18) ++ origin ++ (0 : BitVec 2) ++ slot) tag 0x01, image.zeroExtend 64, len.zeroExtend 64, 0]
  | .demand tag slot sink dep rel a b stride =>
    some [pkt0 ((0 : BitVec 15) ++ BitVec.ofBool rel ++ dep ++ sink ++ (0 : BitVec 2) ++ slot) tag 0x02, a.zeroExtend 64
         , b.zeroExtend 64, stride.zeroExtend 64]
  | .waits tag c t off value =>
    some [pkt0 (t ++ (0 : BitVec 13) ++ wcondCode c) tag 0x03, off.zeroExtend 64, value, 0]
  | .signal tag op wh off value =>
    some [pkt0 ((0 : BitVec 28) ++ wh ++ semCode op) tag 0x04, off.zeroExtend 64, value, 0]
  | .phase tag wh => some [pkt0 ((0 : BitVec 28) ++ wh ++ (0 : BitVec 2)) tag 0x05, 0, 0, 0]
  | .branch tag c cons t off value mask disp =>
    some [pkt0 (t ++ (0 : BitVec 12) ++ BitVec.ofBool cons ++ bcondCode c) tag 0x06, off.zeroExtend 64, mask ++ value
         , disp.zeroExtend 64]
  | .cancel tag l slot stream dnum =>
    some [pkt0 ((0 : BitVec 13) ++ BitVec.ofNat 3 stream.val ++ (0 : BitVec 2) ++ slot ++ (0 : BitVec 5) ++ levelCode l) tag 0x07
         , dnum.zeroExtend 64, 0, 0]
  | .quota tag add value => some [pkt0 ((BitVec.ofBool add).zeroExtend 32) tag 0x08, value.zeroExtend 64, 0, 0]
  | .timestamp tag wh => some [pkt0 ((0 : BitVec 28) ++ wh ++ (0 : BitVec 2)) tag 0x09, 0, 0, 0]
  | .fenceh tag irq => some [pkt0 ((BitVec.ofBool irq).zeroExtend 32) tag 0x0A, 0, 0, 0]
  | _ => none

/-- The flit of a fabric row (R31). -/
def encodeFlit : Instr → Option Flit
  | .idle _ f | .credit _ f | .retry _ f | .mcast _ f | .redup _ f | .reddn _ f | .barup _ f | .bardn _ f | .abort _ f
  | .flitCopy _ f => some f
  | _ => none

/-- The words of an instruction: of a list entry at the stamp given, of a packet; none for a step without an encoding of
words (a flit's bytes are `Flit.bytes`). -/
def encode (stamp : BitVec 12) (i : Instr) : List DWord :=
  match encodeEntry i with
  | some e => e.words stamp
  | none => (encodePacket i).getD []

/-- Steps of element lists, by their place in the table of opcodes (R265). -/
def Instr.isElem (i : Instr) : Bool :=
  match encodeEntry i with
  | some e => isElemOpc e.opc
  | none => false

/-- Steps of sequencer lists. -/
def Instr.isSeq (i : Instr) : Bool :=
  match encodeEntry i with
  | some e => isSeqOpc e.opc
  | none => false

end Sys2Proof
end

