-- ==== Sys2Proof/Machine/Num.lean ====
section
/-! DEFINITION. Number formats and exact arithmetic (R227 to R241): values as exact dyadic numbers, rounding to a format
in every mode, the flags a rounding raises, and the correctly rounded transcendental functions. -/

namespace Sys2Proof.Machine

/-! ### Flags (R240, R281): FI, FZ, FO, FU, FX are bits 0 to 4 -/

abbrev Flags := BitVec 5

def flFI : Flags := 1
def flFZ : Flags := 2
def flFO : Flags := 4
def flFU : Flags := 8
def flFX : Flags := 16

def flIf (b : Bool) (f : Flags) : Flags := if b then f else 0

/-! ### Exact values -/

/-- A dyadic number n · 2^e. -/
structure Dy where
  n : Int
  e : Int
  deriving DecidableEq, Repr

namespace Dy
def zero : Dy := ⟨0, 0⟩
def one : Dy := ⟨1, 0⟩
def ofInt (n : Int) : Dy := ⟨n, 0⟩
/-- The numerator of `x` at exponent `e`, at or below its own. -/
def at_ (x : Dy) (e : Int) : Int := x.n * 2 ^ (x.e - e).toNat
def add (x y : Dy) : Dy := let e := min x.e y.e; ⟨x.at_ e + y.at_ e, e⟩
def neg (x : Dy) : Dy := ⟨-x.n, x.e⟩
def sub (x y : Dy) : Dy := x.add y.neg
def mul (x y : Dy) : Dy := ⟨x.n * y.n, x.e + y.e⟩
def abs (x : Dy) : Dy := ⟨x.n.natAbs, x.e⟩
def scale (x : Dy) (k : Int) : Dy := ⟨x.n, x.e + k⟩
def lt (x y : Dy) : Bool := let e := min x.e y.e; x.at_ e < y.at_ e
def le (x y : Dy) : Bool := !(y.lt x)
def isZero (x : Dy) : Bool := x.n = 0
/-- FLOOR(LOG2 |x|) of a nonzero number. -/
def log2 (x : Dy) : Int := (Nat.log2 x.n.natAbs : Int) + x.e
/-- FLOOR of a number. -/
def floor (x : Dy) : Int := if 0 ≤ x.e then x.n * 2 ^ x.e.toNat else x.n / 2 ^ (-x.e).toNat
end Dy

/-- The value of a code: a NaN, an infinity, or a finite number, whose sign counts when it is zero (R228, R230). -/
inductive FV where
  | nan
  | inf (neg : Bool)
  | fin (neg : Bool) (x : Dy)
  deriving DecidableEq, Repr

namespace FV
def zero : FV := .fin false Dy.zero
def ofInt (n : Int) : FV := .fin (n < 0) (Dy.ofInt n)
def neg : FV → FV
  | .nan => .nan
  | .inf s => .inf !s
  | .fin s x => .fin (!s) x.neg
def isNeg : FV → Bool
  | .nan => false
  | .inf s => s
  | .fin s _ => s
def isNan : FV → Bool
  | .nan => true
  | .inf _ => false
  | .fin _ _ => false
def isInf : FV → Bool
  | .inf _ => true
  | .nan => false
  | .fin _ _ => false
end FV

/-! ### Formats (R227, R231, R233) -/

/-- The floating-point formats. -/
inductive FF where
  | fp32 | fp16 | bf16 | e4m3 | e5m2 | e2m1s | e8m0
  deriving DecidableEq, Repr

namespace FF
def width : FF → Nat
  | .fp32 => 32
  | .fp16 | .bf16 => 16
  | .e4m3 | .e5m2 | .e8m0 => 8
  | .e2m1s => 4
def mbits : FF → Nat
  | .fp32 => 23
  | .fp16 => 10
  | .bf16 => 7
  | .e4m3 => 3
  | .e5m2 => 2
  | .e2m1s => 1
  | .e8m0 => 0
def bias : FF → Int
  | .fp32 | .bf16 | .e8m0 => 127
  | .fp16 | .e5m2 => 15
  | .e4m3 => 7
  | .e2m1s => 1
/-- The code of the largest finite magnitude. -/
def maxCode : FF → Nat
  | .fp32 => 0x7F7FFFFF
  | .fp16 => 0x7BFF
  | .bf16 => 0x7F7F
  | .e4m3 => 0x7E
  | .e5m2 => 0x7B
  | .e2m1s => 7
  | .e8m0 => 0xFE
/-- The canonical NaN (R227); E2M1S has none and takes code 0 (R239). -/
def nan : FF → Nat
  | .fp32 => 0x7FC00000
  | .fp16 => 0x7E00
  | .bf16 => 0x7FC0
  | .e4m3 => 0x7F
  | .e5m2 => 0x7E
  | .e2m1s => 0
  | .e8m0 => 0xFF
def hasInf : FF → Bool
  | .fp32 | .fp16 | .bf16 | .e5m2 => true
  | .e4m3 | .e2m1s | .e8m0 => false
/-- The sign bit of a code. -/
def signBit (f : FF) : Nat := match f with
  | .e8m0 => 0
  | .fp32 | .fp16 | .bf16 | .e4m3 | .e5m2 | .e2m1s => 2 ^ (f.width - 1)
/-- The code of infinity, where there is one. -/
def infCode : FF → Nat
  | .fp32 => 0x7F800000
  | .fp16 => 0x7C00
  | .bf16 => 0x7F80
  | .e5m2 => 0x7C
  | .e4m3 | .e2m1s | .e8m0 => 0
end FF

/-- The value of a code without its special cases (R228). -/
def finiteValue (f : FF) (mag : Nat) : Dy :=
  let fld := mag / 2 ^ f.mbits
  let fr := mag % 2 ^ f.mbits
  if fld = 0 then ⟨fr, 1 - f.bias - f.mbits⟩ else ⟨(2 ^ f.mbits + fr : Nat), (fld : Int) - f.bias - f.mbits⟩

/-- The value of a code (R228, R233). Code 0b1000 of E2M1S is the spare of its block, which is given (R231, R232). -/
def decodeF (f : FF) (spare : FV) (code : Nat) : FV :=
  match f with
  | .e8m0 => if code = 0xFF then .nan else .fin false ⟨1, (code : Int) - 127⟩
  | .e2m1s =>
    if code = 8 then spare
    else
      let x := finiteValue .e2m1s (code % 8)
      if code < 8 then .fin false x else .fin true x.neg
  | .fp32 | .fp16 | .bf16 | .e4m3 | .e5m2 =>
    let s := decide (f.signBit ≤ code)
    let mag := code % f.signBit
    if mag ≤ f.maxCode then (let x := finiteValue f mag; .fin s (if s then x.neg else x))
    else if f.hasInf && mag = f.infCode then .inf s
    else .nan

/-- FP32 value of a lane word. -/
def f32 (w : Word) : FV := decodeF .fp32 .nan w.toNat

/-- A lane word as an operation that copies no bits passes it on: a NaN is canonical (R229). -/
def canonW (w : Word) : Word := if (f32 w).isNan then 0x7FC00000 else w

/-! ### Rounding (R236, R237) -/

/-- The rounding modes (R210, R236). -/
inductive RMode where
  | rne | rna | rtz | rup | rdn | odd
  deriving DecidableEq, Repr

/-- Does the mode take the neighbour of larger magnitude? `rem` and `half` tell where the value lies between the
neighbours, `sticky` that it lies above `rem`. -/
def roundsUp (mode : RMode) (neg odd sticky : Bool) (rem half : Nat) : Bool :=
  let exact := rem = 0 && !sticky
  if exact then false
  else match mode with
    | .rne => half < rem || (rem = half && (sticky || odd))
    | .rna => half ≤ rem
    | .rtz => false
    | .rup => !neg
    | .rdn => neg
    | .odd => !odd

/-- A rounded code with its flags. -/
structure Rnd where
  code : Nat
  fl : Flags
  deriving DecidableEq, Repr

/-- The code of an overflow (R237). -/
def overflowCode (mode : RMode) (f : FF) (ovf neg : Bool) : Nat :=
  let sgn := if neg then f.signBit else 0
  let big := sgn + f.maxCode
  let inf := if f.hasInf then sgn + f.infCode else if f = .e2m1s then big else f.nan
  match mode with
  | .rne | .rna => if ovf then inf else big
  | .rtz | .odd => big
  | .rup => if ovf && !neg then inf else big
  | .rdn => if ovf && neg then inf else big

/-- A magnitude m · 2^e (with `sticky`: strictly between it and the next) rounded to a format. The neighbours have the
format's spacing with the exponent unbounded above (R236); a result above the largest finite code overflows (R237). -/
def roundMag (mode : RMode) (f : FF) (ovf neg sticky : Bool) (m : Nat) (e : Int) : Rnd :=
  let sgn := if neg then f.signBit else 0
  let emin : Int := 1 - f.bias
  let top : Int := (Nat.log2 m : Int) + e
  let q : Int := (if top < emin then emin else top) - f.mbits
  let sh := (q - e).toNat
  let whole := if e ≥ q then m * 2 ^ (e - q).toNat else m / 2 ^ sh
  let rem := if e ≥ q then 0 else m % 2 ^ sh
  let half := if e ≥ q then 1 else 2 ^ (sh - 1)
  let up := roundsUp mode neg (whole % 2 = 1) sticky rem half
  let whole' := if up then whole + 1 else whole
  let mag := ((q + f.mbits + f.bias) - 1).toNat * 2 ^ f.mbits + whole'
  let inexact := rem ≠ 0 || sticky
  if m = 0 && !sticky then { code := if f = .e2m1s then 0 else sgn, fl := 0 }
  else if f.maxCode < mag then { code := overflowCode mode f ovf neg, fl := flFO ||| flFX }
  else
    { code := if f = .e2m1s && mag = 0 then 0 else sgn + mag
      fl := flIf inexact flFX ||| flIf (inexact && 0 < mag && mag < 2 ^ f.mbits) flFU }

/-- ROUND(mode, fmt, x, ovf) of a value (R235 to R239): specials as R239 gives them, without its FI. -/
def roundFV (mode : RMode) (f : FF) (ovf : Bool) : FV → Rnd
  | .nan => { code := f.nan, fl := 0 }
  | .inf s =>
    { code := if f.hasInf then (if s then f.signBit else 0) + f.infCode
              else if ovf && f != .e2m1s then f.nan else (if s then f.signBit else 0) + f.maxCode
      fl := 0 }
  | .fin s x => roundMag mode f ovf (if x.n = 0 then s else x.n < 0) false x.n.natAbs x.e

/-- ROUND_RNE_F(x, fmt): overflow to infinity (R235, R238). -/
def rneF (f : FF) (x : FV) : Rnd := roundFV .rne f true x

/-- ROUND_RNE(x) as a lane word. -/
def rne (x : FV) : Word × Flags := let r := rneF .fp32 x; (BitVec.ofNat 32 r.code, r.fl)

/-! ### Sums and products by IEEE 754, exact (R229, R230, R235) -/

/-- A product, with FI for 0 · ∞. -/
def mulFV : FV → FV → FV × Bool
  | .nan, _ | _, .nan => (.nan, false)
  | .inf s, .inf t => (.inf (s != t), false)
  | .inf s, .fin t y => if y.n = 0 then (.nan, true) else (.inf (s != t), false)
  | .fin s x, .inf t => if x.n = 0 then (.nan, true) else (.inf (s != t), false)
  | .fin s x, .fin t y => (.fin (s != t) (x.mul y), false)

/-- A sum, with FI for ∞ − ∞; an exact zero is +0 unless both are −0 or the sum of equal signs of zero (R230). -/
def addFV : FV → FV → FV × Bool
  | .nan, _ | _, .nan => (.nan, false)
  | .inf s, .inf t => if s = t then (.inf s, false) else (.nan, true)
  | .inf s, .fin _ _ => (.inf s, false)
  | .fin _ _, .inf t => (.inf t, false)
  | .fin s x, .fin t y =>
    let z := x.add y
    (.fin (if z.n = 0 then s && t && x.n = 0 && y.n = 0 else z.n < 0) z, false)

/-- ROUND_RNE_F(a + b). -/
def fadd (f : FF) (a b : FV) : Rnd := let (v, i) := addFV a b; let r := rneF f v; { r with fl := r.fl ||| flIf i flFI }

/-- ROUND_RNE_F(a · b). -/
def fmul (f : FF) (a b : FV) : Rnd := let (v, i) := mulFV a b; let r := rneF f v; { r with fl := r.fl ||| flIf i flFI }

/-- ROUND_RNE_F(a · b + c), rounded once; FI for 0 · ∞ and for ∞ − ∞ (R235, R240). -/
def ffma (f : FF) (a b c : FV) : Rnd :=
  let (p, i) := mulFV a b
  let (v, j) := addFV p c
  let r := rneF f v
  { r with fl := r.fl ||| flIf (i || j) flFI }

/-- ROUND_RNE(a + b), ROUND_RNE(a · b) and FMA(a, b, c) on lane words. -/
def addW (a b : Word) : Word := BitVec.ofNat 32 (fadd .fp32 (f32 a) (f32 b)).code
def mulW (a b : Word) : Word := BitVec.ofNat 32 (fmul .fp32 (f32 a) (f32 b)).code
def fmaW (a b c : Word) : Word := BitVec.ofNat 32 (ffma .fp32 (f32 a) (f32 b) (f32 c)).code

/-- Order of two values that are no NaN, −0 below +0 (R46): is `a` below `b`? -/
def ltC (a b : FV) : Bool :=
  match a, b with
  | .inf s, .inf t => s && !t
  | .inf s, _ => s
  | _, .inf t => !t
  | .fin s x, .fin t y => if x.n = 0 && y.n = 0 then s && !t else x.lt y
  | .nan, _ | _, .nan => false

/-- Order of exact values, −0 equal to +0 (R285). -/
def ltV (a b : FV) : Bool :=
  match a, b with
  | .inf s, .inf t => s && !t
  | .inf s, .fin _ _ => s
  | .fin _ _, .inf t => !t
  | .fin _ x, .fin _ y => x.lt y
  | .nan, _ | _, .nan => false

def eqV (a b : FV) : Bool :=
  match a, b with
  | .nan, _ | _, .nan => false
  | a, b => !(ltV a b) && !(ltV b a)

/-- FMAXC and FMINC on codes of a format (R46, R284): the larger or smaller operand, or the canonical NaN. -/
def fmaxc (f : FF) (a b : Nat) : Nat :=
  let x := decodeF f .nan a
  let y := decodeF f .nan b
  if x.isNan || y.isNan then f.nan else if ltC x y then b else a
def fminc (f : FF) (a b : Nat) : Nat :=
  let x := decodeF f .nan a
  let y := decodeF f .nan b
  if x.isNan || y.isNan then f.nan else if ltC y x then b else a

def maxW (a b : Word) : Word := BitVec.ofNat 32 (fmaxc .fp32 a.toNat b.toNat)
def minW (a b : Word) : Word := BitVec.ofNat 32 (fminc .fp32 a.toNat b.toNat)

/-! ### Sums of products (R243, R245) -/

/-- An exact sum in the making: an infinity of each sign seen, a NaN seen, the finite part. -/
structure Acc where
  nan : Bool
  pinf : Bool
  ninf : Bool
  x : Dy
  deriving DecidableEq, Repr

def Acc.zero : Acc := { nan := false, pinf := false, ninf := false, x := Dy.zero }

/-- Add a product to an exact sum; whether it was 0 · ∞ is kept in the NaN. -/
def Acc.add (s : Acc) (a b : FV) : Acc :=
  match (mulFV a b).1 with
  | .nan => { s with nan := true }
  | .inf true => { s with ninf := true }
  | .inf false => { s with pinf := true }
  | .fin _ x => { s with x := s.x.add x }

/-- The value of an exact sum: NaN when a product is one or both infinities occur; an exact zero is +0 (R243, R245). -/
def Acc.value (s : Acc) : FV :=
  if s.nan || (s.pinf && s.ninf) then .nan
  else if s.pinf then .inf false
  else if s.ninf then .inf true
  else .fin (s.x.n < 0) s.x

/-! ### Conversions to and from integers (R291, R292, R239) -/

/-- A finite value rounded to an integer under RNE: the integer, and whether it is inexact. -/
def rneInt (x : Dy) : Int × Bool :=
  if 0 ≤ x.e then (x.floor, false)
  else
    let d : Int := 2 ^ (-x.e).toNat
    let lo := x.n / d
    let rem := x.n % d
    let up := d < 2 * rem || (2 * rem = d && lo % 2 = 1)
    (if up then lo + 1 else lo, rem ≠ 0)

/-- Clamp to a range. -/
def clampI (lo hi x : Int) : Int := if x < lo then lo else if hi < x then hi else x

/-- A value converted to an integer range (R239, R291): NaN to 0, beyond the range to its extreme, both with FI. -/
def toIntRange (lo hi : Int) : FV → Int × Flags
  | .nan => (0, flFI)
  | .inf s => (if s then lo else hi, flFI)
  | .fin _ x =>
    let (n, inex) := rneInt x
    if n < lo then (lo, flFI) else if hi < n then (hi, flFI) else (n, flIf inex flFX)

/-! ### Transcendental functions (R235, R241) -/

/-- Fixed-point precision of the series below. -/
def seriesBits : Nat := 224

/-- FLOOR of the square root, bit by bit from bit `k − 1` of the root down. -/
def isqrtFrom : Nat → Nat → Nat → Nat
  | 0, _, r => r
  | k + 1, n, r => let c := r + 2 ^ k; isqrtFrom k n (if c * c ≤ n then c else r)

def isqrt (n : Nat) : Nat := isqrtFrom (Nat.log2 n / 2 + 1) n 0

/-- atanh(u) = u + u^3/3 + u^5/5 + … in fixed point; `t` is the power reached, `u2` the square, `k` the odd divisor. -/
def atanhFrom : Nat → Nat → Nat → Nat → Nat → Nat
  | 0, _, _, _, acc => acc
  | n + 1, t, u2, k, acc => atanhFrom n (t * u2 / 2 ^ seriesBits) u2 (k + 2) (acc + t / k)

def atanhFx (u : Nat) : Nat := atanhFrom 80 u (u * u / 2 ^ seriesBits) 1 0

/-- ln 2 = 2 · atanh(1/3) in fixed point. -/
def ln2Fx : Nat := 2 * atanhFx (2 ^ seriesBits / 3)

/-- e^z − 1 in fixed point, by its series. -/
def expFrom : Nat → Nat → Nat → Nat → Nat → Nat
  | 0, _, _, _, acc => acc
  | n + 1, t, z, k, acc => let t' := t * z / 2 ^ seriesBits / k; expFrom n t' z (k + 1) (acc + t')

/-- 2^f for a fraction f in fixed point. -/
def exp2Fx (f : Nat) : Nat := expFrom 64 (2 ^ seriesBits) (f * ln2Fx / 2 ^ seriesBits) 1 (2 ^ seriesBits)

/-- 2^x rounded to FP32 (R235, R241). A power that is no power of two is irrational: its rounding is inexact, and the
series decides it to 2^−200 (DEDUCED, log entry 7). -/
def exp2V : FV → Rnd
  | .nan => { code := FF.nan .fp32, fl := 0 }
  | .inf s => { code := if s then 0 else 0x7F800000, fl := 0 }
  | .fin _ x =>
    if x.n = 0 then { code := 0x3F800000, fl := 0 }
    else if 9 ≤ x.log2 then
      (if 0 < x.n then { code := 0x7F800000, fl := flFO ||| flFX } else { code := 0, fl := flFX })
    else
      let n := x.floor
      let fr := x.sub (Dy.ofInt n)
      if fr.n = 0 then roundMag .rne .fp32 true false false 1 n
      else roundMag .rne .fp32 true false true (exp2Fx (fr.at_ (-(seriesBits : Int) - 200) / 2 ^ 200).toNat) (n - seriesBits)

def exp2W (w : Word) : Word := BitVec.ofNat 32 (exp2V (f32 w)).code

/-- 1/x (R241). -/
def rcpV : FV → Rnd
  | .nan => { code := FF.nan .fp32, fl := 0 }
  | .inf s => { code := if s then 0x80000000 else 0, fl := 0 }
  | .fin s x =>
    if x.n = 0 then { code := if s then 0xFF800000 else 0x7F800000, fl := flFZ }
    else
      let m := x.n.natAbs
      let k := Nat.log2 m + 64
      roundMag .rne .fp32 true s (2 ^ k % m ≠ 0) (2 ^ k / m) (-(k : Int) - x.e)

/-- A positive number as m · 2^(2h) with m of at least 100 bits. -/
def evenForm (x : Dy) : Nat × Int :=
  let m := x.n.natAbs
  let s : Nat := 128 + (if (x.e - 128) % 2 = 0 then 0 else 1)
  (m * 2 ^ s, (x.e - s) / 2)

/-- √x (R241). -/
def sqrtV : FV → Rnd
  | .nan => { code := FF.nan .fp32, fl := 0 }
  | .inf s => if s then { code := FF.nan .fp32, fl := flFI } else { code := 0x7F800000, fl := 0 }
  | .fin s x =>
    if x.n = 0 then { code := if s then 0x80000000 else 0, fl := 0 }
    else if x.n < 0 then { code := FF.nan .fp32, fl := flFI }
    else
      let (m, h) := evenForm x
      let r := isqrt m
      roundMag .rne .fp32 true false (r * r ≠ m) r h

/-- 1/√x (R241). -/
def rsqV : FV → Rnd
  | .nan => { code := FF.nan .fp32, fl := 0 }
  | .inf s => if s then { code := FF.nan .fp32, fl := flFI } else { code := 0, fl := 0 }
  | .fin s x =>
    if x.n = 0 then { code := if s then 0xFF800000 else 0x7F800000, fl := flFZ }
    else if x.n < 0 then { code := FF.nan .fp32, fl := flFI }
    else
      let (m, h) := evenForm x
      let j := Nat.log2 m / 2 + 65
      let q := 2 ^ (2 * j) / m
      let r := isqrt q
      roundMag .rne .fp32 true false (r * r * m ≠ 2 ^ (2 * j)) r (-(j : Int) - h)

/-- log₂ x rounded to FP32 (R241). The logarithm of a number that is no power of two is irrational (DEDUCED, log entry 7). -/
def log2V : FV → Rnd
  | .nan => { code := FF.nan .fp32, fl := 0 }
  | .inf s => if s then { code := FF.nan .fp32, fl := flFI } else { code := 0x7F800000, fl := 0 }
  | .fin _ x =>
    if x.n = 0 then { code := 0xFF800000, fl := flFZ }
    else if x.n < 0 then { code := FF.nan .fp32, fl := flFI }
    else
      let m := x.n.natAbs
      let l := Nat.log2 m
      let ex : Int := l + x.e
      if m = 2 ^ l then rneF .fp32 (FV.ofInt ex)
      else
        -- ln y = 2 · atanh((y − 1)/(y + 1)) for y = m / 2^l
        let u := (m - 2 ^ l) * 2 ^ seriesBits / (m + 2 ^ l)
        let lg := 2 * atanhFx u * 2 ^ seriesBits / ln2Fx
        let v : Int := ex * 2 ^ seriesBits + lg
        roundMag .rne .fp32 true (v < 0) true v.natAbs (-(seriesBits : Int))

/-! ### Kinds of elements and types -/

def styFF : STy → FF
  | .e4m3 => .e4m3
  | .e5m2 => .e5m2
  | .e2m1s => .e2m1s
  | .bf16 => .bf16
  | .f16 => .fp16

def kfFF : KF → FF
  | .e4m3 => .e4m3
  | .e5m2 => .e5m2
  | .bf16 => .bf16
  | .f16 => .fp16

/-- Element `q` of width `w` in a lane word, lowest position in the least significant bits (R208, R279). -/
def elemAt (w : Word) (width q : Nat) : Nat := w.toNat / 2 ^ (width * q) % 2 ^ width

/-- A lane word with element `q` replaced. -/
def setElem (w : Word) (width q : Nat) (code : Nat) : Word :=
  BitVec.ofNat 32 (w.toNat - elemAt w width q * 2 ^ (width * q) + code % 2 ^ width * 2 ^ (width * q))

end Sys2Proof.Machine
end

