-- ==== Sys2Proof/Config.lean ====
section
/-! DEFINITION. What one device fixes (R12, R13, R70), and the values the manual leaves open: constants without a
body, so that nothing can be proved of the value they have. -/

namespace Sys2Proof.Config

/-- The fabric clock in Hz (R13, R70). -/
def clockHz : Nat := 940000000

/-- The part code of the DEVICE record (R70). -/
def partCode : Word := 0x00480001

/-- Hide words that a core brings to its partition (R74). -/
def hidePerCore : Nat := 262144

/-- HBM-tier frames of the device (R143, R145). -/
def hbmFrames : Nat := 6291456

/-- Version-store sector copies of a die (R188). -/
def versionStore : Nat := 1048576

/-- Default version-store allotment for each core a partition has on a die (R188). -/
def versionPerCore : Nat := 65536

/-- Pommel entries of a die (R169). -/
def pommelEntries : Nat := 65536

/-- FREE. Idle fabric cycles that pass before a TIMESTAMP is taken (R2, R62), for the n-th free value. -/
opaque idleCycles : Nat → Nat

/-- FREE. The GAP that the power-management firmware chooses (R18, R20). -/
opaque firmwareGap : Nat → BitVec 12

/-- FREE. The frame that the control complex proposes for an allocation (R157, R167). -/
opaque allocFrame : Nat → BitVec 32

/-- FREE. The first frame of the descriptor and metadata tables (R145, R158 leave their bases to the control complex). -/
opaque tableFrame : Nat

/-- FREE. The hide offset of the count word of a new page set, and which of the partition's cores is its home (R145, R167,
R188 leave both to the control complex). -/
opaque countOffset : Nat → BitVec 24
opaque allocHome : Nat → Nat

/-- FREE. Where in the pseudo-channels of a core the control complex begins to look for a free location (R75, R163, R164). -/
opaque freeLoc : Nat → Nat

/-- FREE. The set of a slice that a line falls into, and the logarithm of the number of ways (R87 names sets, no rule their shape; R73
gives a slice its 131 072 lines). -/
opaque l2Set : Nat → Nat
opaque l2WaysLog : Nat

/-- FREE. Lines whose nibbles a slice's metadata cache holds, less 1 (R158 gives each slice one, no rule its size). -/
opaque mdtCacheLines : Nat

/-- FREE. The latency in fc that a latency probe samples (R88; R2 leaves the times to the implementation). -/
opaque probeSample : Nat → Nat

/-- FREE: the block index in INFO of a PERM report of a KV command on a sequence that concerns no one block (R173). -/
opaque kvBlock : Nat → BitVec 16

/-- FREE. What a queue stream delivers for a time above LIMIT, by time, step and lane (R103: it is not read). -/
opaque beyondLimit : Nat → Nat → Nat → Word

/-- FREE. DETAIL of an ENGINE report of a record area: R130 puts a command code there, and no command ran (R126). -/
opaque recordDetail : Nat → Nat

/-- FREE. The die that a fabric port counts for (R88 speaks of a die's ports; no rule says which they are). -/
opaque portDie : Nat → Nat

/-- UNINTERPRETED. Ed25519 verification of a message under a public key (R71; RFC 8032 is not part of the manual). -/
opaque ed25519Ok : List Byte → BitVec 256 → List Byte → Bool

/-- UNINTERPRETED. ML-DSA-65 verification of a message under a public key (R71; FIPS 204). -/
opaque mldsaOk : List Byte → List Byte → List Byte → Bool

/-- UNINTERPRETED. SHA-384 (R72). -/
opaque sha384 : List Byte → BitVec 384

/-- UNINTERPRETED. Signatures with the two device identity keys (R72). -/
opaque signEd25519 : List Byte → List Byte
opaque signMldsa : List Byte → List Byte

/-- UNINTERPRETED. Grenrov's public keys, whose digests are fused into the boot ROM, by the KEYSLOT of a firmware image (R71). -/
opaque grenrovEd : Nat → BitVec 256
opaque grenrovMl : Nat → List Byte

/-- FREE. CERT_ADDR, and the certificates of the two identity keys that stand there (R70, R72). -/
opaque certAddr : DWord
opaque certificates : List Byte

end Sys2Proof.Config
end

