-- ==== Sys2Proof/Machine/State.lean ====
section
/-! DEFINITION. The state of the device: every register, memory, queue and table that the manual gives it, as plain
data, and the state right after reset. INVENTORY.md lists each piece with its rule and its reset value. -/

namespace Sys2Proof.Machine

/-! ### An element (R199) -/

/-- A keeper: a state vector and a gain vector (R221). -/
structure Keeper where
  state : Lanes
  gain : Lanes
  deriving DecidableEq, Repr

/-- The cleared keeper: state +0 and gain +1.0 in every lane (R122, R221). -/
def Keeper.cleared : Keeper := { state := Lanes.zero, gain := Lanes.all 0x3F800000 }

/-- What a result in flight writes when it completes (R203, R263). -/
inductive PDst where
  | v (phys : Fin 32) (nb : Nat) | s (n : Fin 8) (nb : Nat) | p (n : Fin 8) | m (n : Fin 8)
  | line (n : Fin 20)               -- HL0-7 as 0-7, VL0-11 as 8-19
  | res                             -- result register only
  | keep (j : Fin 4) (gain : Lanes) (guf : Bool) (withRes : Bool)
  | clearKeep (j : Fin 4)           -- kclr: no result
  deriving DecidableEq, Repr

/-- A result that completes in fc `at` (R267), with the lanes it writes. -/
structure Pend where
  fc : Nat
  dst : PDst
  val : Lanes
  res : Lanes
  mask : Word
  deriving DecidableEq, Repr

/-- What a round changes in an element; a void restores it to its values at round start (R136). `resid` lists the residues held beside
words that are not the residue mod 7 of the word (R205); beside every other word its own residue stands. `histRes` lists those that stood beside
the values of the result register in `hist`, and `wrote` the lanes that the round has rewritten (R134). -/
structure ElemRegs where
  v : Vector Lanes 32
  s : Vector Lanes 8
  m : Vector Word 8
  p : Vector Word 8
  k : Vector Keeper 4
  res : Lanes
  accW : Vector Word 32
  accC : Vector Word 32
  gains : Vector Word 32
  ctx : BitVec 5
  flags : BitVec 5
  exc : BitVec 16
  guf : BitVec 4
  ixz : Bool
  guard : Word
  pat : BitVec 8
  left : Nat
  nbV : Vector Nat 32
  nbS : Vector Nat 8
  pipe : List Pend
  hist : List Lanes
  histRes : List (List (RWord × BitVec 3))
  resid : List (RWord × BitVec 3)
  wrote : List (RPlace × Word)
  deriving DecidableEq, Repr

/-- An element: its registers, their values at round start, its list, its operator, its saddle bits and its soft-error record. -/
structure Element where
  r : ElemRegs
  start : ElemRegs
  list : List DWord
  li : Nat
  opx : BitVec 8
  sad : Bool
  form : BitVec 3
  detections : List Nat
  failed : Bool
  deriving DecidableEq, Repr

/-- Registers after reset: 0, keepers cleared, gains +1.0 (R22, R23; log entry 2). -/
def ElemRegs.reset : ElemRegs :=
  { v := Vector.replicate 32 Lanes.zero, s := Vector.replicate 8 Lanes.zero
    m := Vector.replicate 8 0, p := Vector.replicate 8 0
    k := Vector.replicate 4 Keeper.cleared, res := Lanes.zero
    accW := Vector.replicate 32 0, accC := Vector.replicate 32 0
    gains := Vector.replicate 32 0x3F800000
    ctx := 0, flags := 0, exc := 0, guf := 0, ixz := false
    guard := 0, pat := 0, left := 0
    nbV := Vector.replicate 32 0, nbS := Vector.replicate 8 0
    pipe := [], hist := [], histRes := [], resid := [], wrote := [] }

def Element.reset : Element :=
  { r := ElemRegs.reset, start := ElemRegs.reset, list := [], li := 0, opx := 0xFF, sad := false, form := 0
    detections := [], failed := false }

/-! ### A core (R142, R204 to R224) -/

/-- A memory-tile line: its encoding tag (7 is clear) and its words (R209). -/
structure TileLine where
  tag : BitVec 3
  data : Lanes
  deriving DecidableEq, Repr

/-- A clear line reads zero (R209). -/
def TileLine.clear : TileLine := { tag := 7, data := Lanes.zero }

/-- A pending window of a memory tile, or of the loft (`tile` 16, in segments) (R194). -/
structure Window where
  tile : Nat
  first : Nat
  last : Nat
  cmd : Nat
  deriving DecidableEq, Repr

/-- A stamp bank (R139, R222): two halves with their valid bits and sizes. -/
structure Bank where
  declared : Bool
  kind : BitVec 2
  zsub : Bool
  act : Bool
  swp : Bool
  size : Vector Nat 2
  ent : Vector (Table DWord) 2
  valid : Vector (BitVec 256) 2
  deriving DecidableEq, Repr

def Bank.reset : Bank :=
  { declared := false, kind := 0, zsub := false, act := false, swp := false
    size := Vector.replicate 2 0, ent := Vector.replicate 2 [], valid := Vector.replicate 2 0 }

/-- A STREAMS record (R306). -/
structure StreamRec where
  port : Fin 16
  kind : BitVec 2
  write : Bool
  line : Nat
  nv : Nat
  tid : BitVec 20
  mt : Fin 16
  coord : Vector Int 5
  tdim : Nat
  tstr : Int
  kdim : Nat
  kstr : Int
  edim : Nat
  estr : Int
  itid : BitVec 20
  opx : BitVec 8
  qopx : BitVec 8
  seq : BitVec 12
  lg : BitVec 6
  deriving DecidableEq, Repr

/-- A latched translation of a port (R151, R154); `own` is the right to write of R146. -/
structure Latch where
  tid : BitVec 20
  tile : Nat
  frame : BitVec 32
  w : Bool
  own : Bool
  cattr : BitVec 2
  moving : Bool
  tier : BitVec 2
  home : Fin 64
  source : Option (BitVec 2 × BitVec 48)   -- the forwarding pair of a MOVING frame (R163)
  deriving DecidableEq, Repr

/-- A progression of positions (R8). -/
structure Prog where
  a : Int
  b : Int
  s : Nat
  deriving DecidableEq, Repr

/-- A stream port (R212, R308, R310): active record, the record of the next round, progression, position and step. -/
structure Port where
  active : Option StreamRec
  next : Option StreamRec
  recs : List Nat
  free : Prog
  freeNext : Prog
  prog : Prog
  pos : Int
  step : Nat
  pos0 : Int
  step0 : Nat
  fin : Bool
  fin0 : Bool
  latch : Option Latch
  slow : Bool               -- its buffer is not ready (R151, R308)
  deriving DecidableEq, Repr

def Prog.empty : Prog := { a := 0, b := -1, s := 1 }

def Port.reset : Port :=
  { active := none, next := none, recs := [], free := Prog.empty, freeNext := Prog.empty, prog := Prog.empty
    pos := 0, step := 0, pos0 := 0, step0 := 0, fin := false, fin0 := false, latch := none, slow := false }

/-- A memory-tile port descriptor (R207): base, four counts minus 1 and strides, layout, encoding, direction. -/
structure TilePort where
  mt : Fin 16
  read : Bool
  base : Nat
  cm1 : Vector Nat 4
  str : Vector Int 4
  layout : BitVec 2
  enc : BitVec 3
  deriving DecidableEq, Repr

/-- A rectangle of the saddle array (R326). -/
structure Rect where
  row0 : Nat
  col0 : Nat
  nr : Nat
  nc : Nat
  form : SForm
  fmt : STy
  deriving DecidableEq, Repr

def Rect.off : Rect := { row0 := 0, col0 := 0, nr := 0, nc := 0, form := .off, fmt := .e4m3 }

/-- Weights loaded for a rectangle slot (R329): the bytes of each cell column, and the fc in which the load completes. -/
structure Weights where
  ready : Nat
  cols : List (List Byte)
  deriving DecidableEq, Repr

/-- Work of the array that falls due in a later fc of the round (R331, R334). -/
inductive SadAct where
  | replay (slot : Fin 8) (acc : Bool) (bank : Fin 16) (mask : BitVec 16) (li : Nat)
  | compute (slot : Fin 8) (acc : Bool) (bank : Fin 16) (li : Nat)
  | drive (line : Fin 20) (val : Lanes)
  | accWrite (elem : Nat) (val : List (Nat × Word))
  | loadLine (slot : Fin 8) (cycle : Nat) (ready : Nat) (li : Nat)
  deriving DecidableEq, Repr

/-- A hide operation (R311, R361), by partition-relative offset. -/
inductive HOp where
  | add (x : Word) | max (n32 : Bool) (x : Word) | min (n32 : Bool) (x : Word) | cas (c x : Word) | xchg (x : Word)
  | fadd (x : Word) | st (hi : Bool) (x : Word) | sem (op : SemOp) (x : DWord) | sealPoint
  deriving DecidableEq, Repr

/-- A KV command as it is released (R173, R322). -/
inductive KvOp where
  | app (seq : Nat) (n : Nat) (units : Nat) | fork (seq par n : Nat) | pin (seq : Nat) (base : BitVec 32) | unpin (base : BitVec 32)
  | free (seq : Nat)
  deriving DecidableEq, Repr

/-- A region word with its space, or malformed (R305). -/
inductive Region where
  | tensor (tid : BitVec 20) (tile : Nat) (off : Nat)
  | tile (mt : Fin 16) (line : Nat)
  | loft (off : Nat)
  | hide (off : Nat)
  | bad
  deriving DecidableEq, Repr

/-- An engine command (R315 to R321). -/
inductive Cmd where
  | copy (a b : DWord) (n : Nat)
  | gather (a b c : DWord) (n rb : Nat)
  | xf (sel : BitVec 8) (a : Option DWord) (b : Option DWord) (n : Nat) (c : DWord) (x : BitVec 24)
  | mc (a : Option DWord) (b : DWord) (n : Nat) (pfmt : BitVec 2) (cls : BitVec 2) (group : Nat) (opn : Nat)
  | bar (group : Nat) (opn : Nat)
  | red (rop : ROp) (a b : DWord) (n : Nat) (pfmt : BitVec 2) (cls : BitVec 2) (group : Nat) (d : Nat) (opn : Nat)
  | qk (kf : KF) (a b c : DWord) (l0 nl : Nat) (ko vo : Nat)
  | pv (a b : DWord) (l0 nl : Nat)
  | get (b : DWord) (l0 nl : Nat)
  deriving DecidableEq, Repr

/-- What a timed entry holds until its round commits, in issue order (R136). -/
inductive Held where
  | cmd (opc : BitVec 8) (c : Cmd)
  | kv (k : KvOp)
  | cancel (level : CLevel) (arg : DWord)
  deriving DecidableEq, Repr

/-- A stamp-bank operation held to the commit (R344). -/
inductive BankOp where
  | write (bank : Fin 16) (idx : BitVec 8) (val : DWord) | inval (bank : Fin 16) (first last : Nat) | size (bank : Fin 16) (n : Nat)
  | swap (bank : Fin 16)
  deriving DecidableEq, Repr

/-- A row-gain write (R332): slot, row (none for all), value, and the list index of its entry. -/
structure GainOp where
  slot : Fin 8
  row : Option Nat
  val : Word
  li : Nat
  deriving DecidableEq, Repr

/-- A buffered hide operation with its place in the commit order of R192. -/
structure HideReq where
  stamp : Nat
  who : Nat        -- 0 the sequencer, 1 + e element e (R361)
  off : Nat
  op : HOp
  deriving DecidableEq, Repr

/-- A buffered global store: address, byte, the bits of it that are stored, CATTR of its access, its class, and the port, the RC and
the list index of the access (R84, R129, R136, R149, R159). -/
structure Store where
  addr : Nat
  byte : Byte
  mask : Byte
  cattr : BitVec 2
  cls : BitVec 2      -- the class in which it travels (R84)
  port : Nat := 0
  rc : Nat := 0
  li : Nat := 0
  deriving DecidableEq, Repr

structure Core where
  elems : Vector Element 96
  owner : Option (Nat × Nat)            -- partition and slot of the graph placed on it
  fidx : Nat
  lineNow : Table Lanes
  lineNext : Table Lanes
  tiles : Table TileLine
  tileOld : Table TileLine  -- lines written in this fc, as they were before (R206)
  windows : List Window
  loft : Table Byte
  loftWritten : List Nat
  banks : Vector Bank 16
  records : List StreamRec
  ports : Vector Port 16
  tilePorts : List TilePort
  skiv : Vector DWord 16
  rects : Vector Rect 8
  rectsNext : Vector Rect 8
  gainsNext : List GainOp
  weights : Table (List Weights)   -- by slot, the latest load first
  sad : List (Nat × SadAct)
  seqList : List DWord
  seqLi : Nat
  c : Vector DWord 32
  evc : Vector DWord 8
  brken : Bool
  armw : Table DWord
  secLi : Nat
  secCount : Nat
  secOn : Bool
  secWait : Bool            -- the section's entry waits (R113)
  secFired : Bool           -- the section has executed its entry of this fc (R256, R349)
  -- buffers of the round (R136)
  stores : List Store
  hideOps : List HideReq
  held : List (Nat × Held)               -- with the stamp of the entry, for the issue order (R136)
  bankOps : List BankOp
  gainsHeld : List GainOp
  khors : List (Fin 96 × Fin 4)
  fins : List (BitVec 8)
  earlies : List (BitVec 8)
  cnts : List (Fin 8 × BitVec 16)
  units : Nat                            -- quota units taken at issue in the round (R174)
  roundsStarted : Nat
  deriving DecidableEq, Repr

def Core.reset : Core :=
  { elems := Vector.replicate 96 Element.reset, owner := none, fidx := 0, lineNow := [], lineNext := [], tiles := [], tileOld := [], windows := []
    loft := [], loftWritten := [], banks := Vector.replicate 16 Bank.reset, records := [], ports := Vector.replicate 16 Port.reset
    tilePorts := [], skiv := Vector.replicate 16 8, rects := Vector.replicate 8 Rect.off, rectsNext := Vector.replicate 8 Rect.off
    gainsNext := [], weights := [], sad := [], seqList := [], seqLi := 0, c := Vector.replicate 32 0, evc := Vector.replicate 8 0
    brken := false, armw := [], secLi := 0, secCount := 0, secOn := false, secWait := false, secFired := false, stores := [], hideOps := [], held := [], bankOps := []
    gainsHeld := [], khors := [], fins := [], earlies := [], cnts := [], units := 0, roundsStarted := 0 }

/-! ### Graphs and the Rein unit (R92 to R127) -/

/-- An input word Ii (R99). -/
structure InDesc where
  kind : BitVec 4
  prod : BitVec 8
  p1 : Int
  p2 : Int
  deriving DecidableEq, Repr

/-- An operator descriptor (R99). -/
structure OpDesc where
  nin : Nat
  scls : BitVec 3
  t : Nat
  rounds : Nat
  qd : Nat
  qmt : Fin 16
  origin : Nat
  limit : Nat
  ins : List InDesc
  deriving DecidableEq, Repr

/-- A tensor descriptor (R147). -/
structure Tensor where
  tid : BitVec 20
  rank : Nat
  fmt : Fmt
  layout : BitVec 2
  dim : Vector Nat 5
  lt : Vector Nat 5
  ttbase : Nat
  deriving DecidableEq, Repr

/-- A checkpoint descriptor (R124). -/
structure CkDesc where
  opx : BitVec 8
  base : Nat
  nslot : Nat
  deriving DecidableEq, Repr

/-- A checkpoint or horizon entry (R125); the record of each part of the operator's elements, in core and element order. -/
structure CkEntry where
  v : Bool
  time : Nat
  deriving DecidableEq, Repr

/-- An occupied slot of an output queue: tile step and the positions executed (R104). -/
structure QSlot where
  step : Nat
  pos : List Nat
  deriving DecidableEq, Repr

/-- An armed unit (R95, R96, R112). -/
structure ArmUnit where
  step : Nat
  first : Nat
  last : Nat
  stride : Nat
  prio : BitVec 2
  rcnt : Nat
  trig : Bool
  cell : Nat        -- arm-table slot
  fresh : Bool      -- armed at the last arming step, so its ports start anew
  took : Option QSlot   -- the queue slot that its arming reclaimed (R109)
  deriving DecidableEq, Repr

/-- What the Rein unit holds of an operator. -/
structure OpState where
  need : List Prog
  had : List Nat            -- positions of the need set produced while it held them (R105, R398)
  f : Nat
  wb : Nat
  win : List Nat
  slots : List QSlot
  kpos : Nat
  ck : List CkEntry
  hz : CkEntry
  passed : Nat
  passedBy : Option Nat     -- oldest passed-over candidate step of the run
  promoted : List Nat       -- tile steps that keep their promotion until they are armed (R111)
  arm : Option ArmUnit
  deriving DecidableEq, Repr

/-- Where a graph stands (R106, R107, R113, R256). -/
inductive RunState where
  | idle                     -- no round in flight, not at a boundary
  | round                    -- a round in flight, at RC `rc`
  | ended                    -- RC has reached L: commit or void follows
  | heldCommit               -- a commit that waits (R174, R189, R315)
  | boundary                 -- fixed boundary work: the Rein unit's steps follow
  | sect                     -- the boundary section runs
  | ready                    -- armed: the start pulse follows when it may
  deriving DecidableEq, Repr

/-- Who fires next in the current fc: footprint core number and 127 for the sequencer or the element. -/
structure Agent where
  core : Nat
  elem : Nat
  deriving DecidableEq, Repr

/-- A cancel on its way to a recording step (R97): a demand by its acceptance number; a phase or a job up to an acceptance
number. -/
inductive CancelReq where
  | demand (acc : Nat) | graph (slot : Nat) | phase (phn : Nat) (upto : Nat) | job (vf : Nat) (stream : Nat) (upto : Nat)
  deriving DecidableEq, Repr

/-- What a faulting access of a round has met: a pending window of a core (R194), a position of a sequence (R123). -/
inductive Hit where
  | window (core : Nat) (w : Window)
  | kv (seq pos : Nat)
  deriving DecidableEq, Repr

structure Graph where
  l : Nat
  budget : Nat
  xd : Bool
  ops : List OpDesc
  sinks : List (BitVec 8)
  ckpts : List CkDesc
  tensors : List Tensor
  cores : List Nat
  vf : Nat
  stream : Nat
  image : Nat
  st : Table OpState
  run : RunState
  rc : Nat
  todo : List Agent
  fault : Option Report
  hit : Option Hit           -- what the access of that fault has met
  lastVoid : Bool
  hold : Option Report       -- the report of a voided round that waits for something before its replay
  stopped : Bool
  stopNext : Bool
  fresh : Bool               -- no round has run since the load
  waitCnt : Nat
  bndLeft : Nat              -- fc of the fixed boundary work still to pass (R256)
  sectEnd : Option Nat       -- the fc in which its boundary section has ended, up to the next start pulse (R88)
  cancels : List CancelReq
  waiting : List Nat         -- accepted demands not yet planned
  late : List Nat            -- those accepted in the boundary work, which the work under way does not plan (R106)
  repeatCls : BitVec 5       -- voids in a row that name one unit with one class of R130
  repeatOpx : BitVec 8
  repeatStep : BitVec 40
  repeatCnt : Nat
  wantSeq : Nat              -- sequence of the last KV command that faulted ABSENT (R171)
  wantNew : Nat              -- pommel entries that it needs
  restore : List (BitVec 8 × Nat)   -- operators whose keepers are restored from table entry j before the start pulse
  acpt : Word
  cmpl : Word
  rcom : Word
  rvoid : Word
  deriving DecidableEq, Repr

/-- A demand (R60, R95, R106, R115). -/
structure Demand where
  slot : Nat
  sink : Nat
  opx : BitVec 8
  prog : Prog
  prio : BitVec 2
  acc : Nat
  vf : Nat
  stream : Nat
  dnum : Word
  dep : BitVec 2
  prev : Option Nat                    -- acceptance number of the previous DEMAND of its stream
  phn : DWord
  planned : Bool
  cone : List (BitVec 8 × List Nat)    -- every position planned for it, by operator
  left : List (BitVec 8 × List Nat)    -- those of the cone not produced yet
  npos : Word
  total : Nat                          -- positions in the clamped sink range
  lack : List Nat                      -- those not produced at acceptance or since (R115)
  dpos : Word
  done : Bool
  trig : Bool
  canc : Bool
  deriving DecidableEq, Repr

/-- A sequence record (R168). -/
structure Seq where
  v : Bool
  hot : Bool
  f : Nat
  ctbase : Nat
  ctlen : Nat         -- frames of its cold page table
  used : Nat          -- recency, for swapping out (R171)
  deriving DecidableEq, Repr

def Seq.reset : Seq := { v := false, hot := false, f := 0, ctbase := 0, ctlen := 0, used := 0 }

/-- A post that waits for the next phase boundary (R356). -/
structure PostEnt where
  off : Nat
  val : Word
  deriving DecidableEq, Repr

/-- A job record (R95). -/
structure Job where
  acpt : Word
  cmpl : Word
  ncan : Word
  since : Nat     -- acceptance number from which on it counts: it was cleared then
  deriving DecidableEq, Repr

def Job.reset : Job := { acpt := 0, cmpl := 0, ncan := 0, since := 0 }

/-- A core's private buffer in the transform engine, and whether a link is open (R318). -/
structure XfLink where
  link : Bool
  bytes : List Byte
  deriving DecidableEq, Repr

/-- A lane of a stirrup engine (R225, R321). -/
structure StirLane where
  owner : Option (Nat × Nat)
  j : Nat
  kf : KF
  q : List Word
  sc : Word
  seq : Nat
  gk : Nat
  gv : Nat
  ko : Nat
  vo : Nat
  m : Word
  sum : Word
  o : List Word
  deriving DecidableEq, Repr

def StirLane.reset : StirLane :=
  { owner := none, j := 0, kf := .e4m3, q := [], sc := 0, seq := 0, gk := 0, gv := 0, ko := 0, vo := 0, m := 0, sum := 0, o := [] }

/-- An accepted LOADG: its image as it was read, which replaces the slot's graph at the reconfiguration (R59). -/
structure Load where
  slot : Nat
  origin : Nat
  image : List Byte
  addr : Nat
  stream : Nat
  phn : Nat           -- the value of PHN from which on it is installed
  recs : List (Nat × Nat)   -- first frame and length of its record areas (R124)
  deriving DecidableEq, Repr

/-- A saved core: its element context records (R138) and stamp-bank records (R139) in their bytes, and the rest of it, with the
registers of its elements and the entries of its banks left out. -/
structure SavedCore where
  num : Nat
  elems : List (List Byte)
  banks : List (List Byte)
  core : Core
  deriving DecidableEq, Repr

/-- The context of a suspended VF (R137 to R140). -/
structure Context where
  vf : Nat
  graphs : Table Graph
  demands : Table Demand
  nextAcc : Nat
  armSlots : Table DWord
  oldRecs : Table (DWord × DWord)
  jobs : Table Job
  phn : DWord
  hide : Table DWord
  quota : Nat
  seqs : Table Seq
  pins : Table Nat
  stir : Table StirLane
  xf : Table XfLink
  cores : List SavedCore
  area : Nat           -- first of the frames that hold the context (R137)
  areaLen : Nat
  deriving DecidableEq, Repr

/-- How far a change from one VF to another has come (R80, R137, R141): none is made; the running VF's context is being saved; that of the
next VF is being restored. -/
inductive Switching where
  | none | save | restore
  deriving DecidableEq, Repr

structure Part where
  cores : DWord
  ctl : DWord
  slv : DWord
  pace : DWord
  paceNext : DWord
  reinBase : BitVec 24
  kvBase : BitVec 24
  graphs : Table Graph
  demands : Table Demand
  nextAcc : Nat
  armSlots : Table DWord
  oldRecs : Table (DWord × DWord)   -- graph records of slots that were emptied (R59, R95)
  jobs : Table Job
  phn : DWord
  phAcpt : Word
  phCmpl : Word
  post : List PostEnt
  faultQ : List Report
  bndReq : Bool
  bndStarted : Bool
  gapLeft : Nat              -- fc of the pacing gap still to pass (R17, R18)
  quota : Nat
  seqs : Table Seq
  pins : Table Nat           -- pins taken by `pxlk` and neither installed nor returned, by base frame (R172)
  pomAllot : Nat
  verUsed : Table Nat
  sliceRun : Nat
  sliceExp : Bool
  sliceAt : Nat              -- PHN after the boundary that serves the expiry (R183)
  grace : Nat
  saved : List Context
  switching : Switching
  resetting : Bool
  loads : DWord              -- accepted LOADGs since reset (R72)
  loading : List Load
  deriving DecidableEq, Repr

def Part.reset : Part :=
  { cores := 0, ctl := 0, slv := 0, pace := 0, paceNext := 0, reinBase := 0x1000, kvBase := 0x10000, graphs := [], demands := []
    nextAcc := 0, armSlots := [], oldRecs := [], jobs := [], phn := 0, phAcpt := 0, phCmpl := 0, post := [], faultQ := [], bndReq := false
    bndStarted := false, gapLeft := 0, quota := 0, seqs := [], pins := [], pomAllot := 0, verUsed := [], sliceRun := 0, sliceExp := false, sliceAt := 0, grace := 0
    saved := [], switching := .none, resetting := false, loads := 0, loading := [] }

/-! ### Virtual functions (R51 to R72) -/

/-- SQ_STAT.STATE (R53). -/
inductive SqState where
  | off | idle | run | wait | halt
  deriving DecidableEq, Repr

/-- A command stream (R53) and how far its packet has come (R57, R58, R62). -/
structure Stream where
  base : DWord
  log2 : Nat
  wp : Nat
  rp : Nat
  prio : BitVec 2
  en : Bool
  dnum : Word
  reason : BitVec 8
  state : SqState
  stage : Nat              -- 0 the packet has not begun to wait
  target : Nat             -- PHN that must be passed
  lastDemand : Option Nat  -- acceptance number of the previous DEMAND
  sent : List Nat          -- acceptance numbers of the DEMANDs accepted from the stream
  deriving DecidableEq, Repr

def Stream.reset : Stream :=
  { base := 0, log2 := 12, wp := 0, rp := 0, prio := 3, en := false, dnum := 0, reason := 0, state := .off, stage := 0
    target := 0, lastDemand := none, sent := [] }

/-- An event entry (R67). `irq` says whether an MSI-X message follows it (R68), `att` whether an attestation has caused it (R72). -/
structure Event where
  code : Word
  tag : BitVec 16
  stream : BitVec 3
  type : BitVec 8
  w1 : DWord
  w2 : DWord
  w3 : DWord
  irq : Bool
  att : Bool := false
  deriving DecidableEq, Repr

/-- An image-key slot (R70, R71). -/
structure KeySlot where
  loaded : Bool
  ed : BitVec 256
  ml : List Byte
  deriving DecidableEq, Repr

structure Vf where
  streams : Vector Stream 8
  evBase : DWord
  evLog2 : Nat
  evHead : Nat
  evTail : Nat
  evIrq : Bool
  evEn : Bool
  evPh : Bool
  evWait : List Event
  evLeft : Nat               -- waiting entries that a suspended VF's ring still receives (R81)
  qceil : Word
  minprio : BitVec 2
  sdoms : List (BitVec 10)
  kvCfg : DWord
  keys : Vector KeySlot 4
  nonceAddr : DWord
  reportAddr : DWord
  attBusy : Bool
  chain : BitVec 384
  deriving DecidableEq, Repr

def Vf.reset : Vf :=
  { streams := Vector.replicate 8 Stream.reset, evBase := 0, evLog2 := 12, evHead := 0, evTail := 0, evIrq := false, evEn := false
    evPh := true, evWait := [], evLeft := 0, qceil := 0, minprio := 3, sdoms := [], kvCfg := 0
    keys := Vector.replicate 4 { loaded := false, ed := 0, ml := [] }
    nonceAddr := 0, reportAddr := 0, attBusy := false, chain := 0 }

/-! ### Memory system (R142 to R165) -/

/-- A frame descriptor (R145). -/
structure Frame where
  v : Bool
  state : BitVec 2
  poison : Bool
  tier : BitVec 2
  cattr : BitVec 2
  owner : Nat
  sdom : BitVec 10
  rcoff : BitVec 24
  rcpart : BitVec 6
  home : Fin 64
  loc : BitVec 48
  deriving DecidableEq, Repr

def Frame.reset : Frame :=
  { v := false, state := 0, poison := false, tier := 0, cattr := 0, owner := 0, sdom := 0, rcoff := 0, rcpart := 0, home := 0, loc := 0 }

/-- Who has written a sector in the phase (R185, R186). -/
inductive Writer where
  | core (n : Nat) | engine (id : Nat) | host
  deriving DecidableEq, Repr

/-- A pending sector: its partition, the VF that its version copy counts for (R86), its writers, the bytes written (R185, R187), and of every core the bytes that it has itself
written (R186). -/
structure PendSector where
  part : Nat
  vf : Nat
  writers : List Writer
  bytes : Table Byte
  own : Table (Table Byte)
  deriving DecidableEq, Repr

/-- An L2 line (R144, R159, R86): its sectors, those whose data was lost (R135, R161), and for a dirty sector the bytes that memory still
holds of it (R158). -/
structure Line where
  cattr : BitVec 2
  valid : BitVec 4
  dirty : BitVec 4
  owner : Nat
  die : Nat
  used : Nat
  lost : BitVec 4
  raw : Table Byte
  deriving DecidableEq, Repr

/-- A forwarding pair (R163); once the token of step 1 has completed, the partitions whose phase boundary the move waits for, each with
its PHN. -/
structure Fwd where
  frame : BitVec 32
  tier : BitVec 2
  loc : BitVec 48
  waits : Option (List (Nat × Nat))
  deriving DecidableEq, Repr

/-- A frame on its way to reuse (R157); once its token has completed, the partitions whose phase boundary it waits for, each with its
PHN. -/
structure Reclaim where
  frame : Nat
  waits : Option (List (Nat × Nat))
  deriving DecidableEq, Repr

/-- A re-latch token in flight: the frames it names and the cores whose nodes it has yet to pass (R155). -/
structure Token where
  all : Bool
  base : Nat
  count : Nat
  left : List Nat
  deriving DecidableEq, Repr

/-- An edge-TLB entry (R154). -/
structure TlbEnt where
  part : Nat
  latch : Latch
  deriving DecidableEq, Repr

/-- A pommel entry (R169). -/
structure PomEnt where
  base : BitVec 32
  w : Bool
  deriving DecidableEq, Repr

/-- A prefix-table descriptor (R177). -/
structure PxDesc where
  part : Nat
  base : Nat
  log2e : Nat
  salt : Word
  deriving DecidableEq, Repr

/-- A released engine command (R315). -/
structure Running where
  id : Nat
  core : Nat
  part : Nat
  slot : Nat
  opc : BitVec 8
  cmd : Cmd
  seen : Table Byte  -- the issuing core's committed stores at the release, by address (R186)
  blocked : Bool     -- a store waits for the version store (R189)
  sent : Bool        -- collectives: the engine has begun its part
  got : Nat          -- collectives: words that have reached the destination
  fin : Bool         -- collectives: the result has been delivered, or the operation has ended
  deriving DecidableEq, Repr

/-! ### Fabric ports and collectives (R31 to R50) -/

/-- Exponent-coding state of one VC and direction (R36). -/
structure ExpState where
  counts : Table Nat
  n : Nat
  halve : Bool
  deriving DecidableEq, Repr

def ExpState.reset : ExpState := { counts := [], n := 0, halve := false }

/-- What a port has to send: a flit with the values of its message or fragment that are still to be coded (R37), its class (R32), and
how many flits of more urgent classes have gone before it (R83). -/
structure QFlit where
  f : Flit
  vals : List Word
  cls : BitVec 2
  waited : Nat
  deriving DecidableEq, Repr

structure FPort where
  up : Bool
  retraining : Bool
  txSeq : Nat
  ackRx : Nat
  rxSeq : Nat
  replay : List (Flit × Flit)      -- as last sent, and with its payload uncoded (R34)
  queue : List QFlit               -- what it has to send, uncoded
  frags : Table Nat                -- next FRAG of a message of which a part has gone (R31), by its operation
  credits : Vector Nat 8
  retries : Nat
  retrySeq : Nat
  txE : Vector ExpState 3
  rxE : Vector ExpState 3
  malformed : Nat
  vcBuf : List (Flit × List Word)  -- REDUP flits that wait in their VC buffer (R43), with their values
  probe : Option Nat               -- SEQ of the first flit resent after a retrain (R33)
  proof : Bool                     -- no well-formed flit has arrived since the last retrain (R33)
  deriving DecidableEq, Repr

def FPort.reset : FPort :=
  { up := false, retraining := false, txSeq := 0, ackRx := 0xFFF, rxSeq := 0xFFF, replay := [], queue := [], frags := [], credits := Vector.replicate 8 64
    retries := 0, retrySeq := 0, txE := Vector.replicate 3 ExpState.reset, rxE := Vector.replicate 3 ExpState.reset, malformed := 0, vcBuf := [], probe := none, proof := false }

/-- What one contributor has sent to a reduction (R42): its port (none: this device), the operator and payload of its flits, the
number of items and LAST of each fragment, and its values. -/
structure Contrib where
  port : Option Nat
  rop : BitVec 4
  pfmt : BitVec 4
  frags : List (Nat × Bool)
  vals : List Word
  deriving DecidableEq, Repr

/-- A collective operation at this device (R40 to R45): the local contribution, those of the children, how many fragments and
values have been combined; who has arrived at a barrier; what has come down to this device and whether that was all; whether an ABORT
came before the local command (R44). -/
structure CollOp where
  group : Nat
  opn : Nat
  own : Option Contrib
  kids : List Contrib
  frags : Nat
  values : Nat
  arrived : List (Option Nat)
  down : List Word
  whole : Bool
  aborted : Bool
  deriving DecidableEq, Repr

/-! ### Observation (R88 to R91) -/

structure Cap where
  ctl : DWord
  min : DWord
  max : DWord
  cnt : DWord
  hist : Vector Word 32
  left : Nat               -- fc left of the window
  deriving DecidableEq, Repr

def Cap.reset : Cap := { ctl := 0x140000000000, min := 0, max := 0, cnt := 0, hist := Vector.replicate 32 0, left := 0 }

/-- An immediate hide access on its path (R84, R85): the bank and the lane of the entry that asks, the fc in which it was issued, and the fc
in which it comes to its next stage: 0 the edge of its die, 1 the bank, 2 the edge on the way back, 3 its element. A store ends at the bank. -/
structure LoadReq where
  bank : Nat
  core : Nat
  elem : Nat
  lane : Nat
  li : Nat
  rc : Nat
  store : Bool
  issued : Nat
  stage : Nat
  due : Nat
  deriving DecidableEq, Repr

/-- Requests of one class and one port that wait at an arbiter (R82, R83): the fc of their arrival, the transfer units that they
still ask for, what those units carry (lines or sectors, by number, or an immediate access), the units that they have waited while higher
classes were served. -/
structure ArbReq where
  arbiter : Nat
  cls : BitVec 2
  port : Nat
  came : Nat
  units : Nat
  names : List Nat
  load : Option LoadReq
  waited : Nat
  granted : Bool
  deriving DecidableEq, Repr

/-! ### Boot and the outside -/

/-- How far the power-up order of R23 has come. -/
inductive Boot where
  | off | reset | booting | failed | ready
  deriving DecidableEq, Repr

/-- What the device has sent to the outside. -/
inductive Output where
  | msix (vf : Nat) | flit (port : Nat) (f : Flit) | config (retry : Bool) | jtag (full : Bool)
  | cxlData (vf : Nat) (bytes : List Byte) | cxlPoison (vf : Nat) | portDown (port : Nat)
  deriving DecidableEq, Repr

/-- Who executes the step: partition, slot, core, element (127: the sequencer), list index, virtual function, stream. -/
structure Ctx where
  part : Nat
  slot : Nat
  core : Fin 64
  elem : Nat
  li : Nat
  vf : Nat
  stream : Fin 8
  deriving DecidableEq, Repr

def Ctx.none : Ctx := { part := 0, slot := 0, core := 0, elem := 127, li := 0, vf := 0, stream := 0 }

/-- A CXL.mem window (R26). -/
structure CxlWindow where
  vf : Nat
  base : Nat
  frames : Nat
  home : Fin 64
  deriving DecidableEq, Repr

/-- The whole device. -/
structure State where
  -- pins, power, boot
  pwrGood : Bool
  sysRstN : Bool
  perstN : Bool
  boot : Boot
  status : BitVec 8
  pll : Bool
  fc : Nat
  clk : Nat
  fwHash : BitVec 384
  cfgNormal : Bool
  hostLink : Bool
  fdtCount : Nat
  thermTrip : Bool
  powerCap : Nat
  deviceId : BitVec 12
  -- observation
  hitch : Bool
  hitchArm : DWord
  fuse : Bool
  unlocked : Bool
  caps : Table Cap
  arbs : List ArbReq
  loads : List LoadReq         -- immediate hide accesses on their way between two stages of their path (R84, R85)
  arbBusy : Table Nat          -- arbiters whose transfer unit takes further fc, with their number (R82)
  -- host side
  vfs : Table Vf
  windows : List CxlWindow
  hostLines : List (BitVec 58)
  hostMem : List Host.Cell
  -- pool and fabric
  poolUp : Vector Bool 2
  extents : List (Nat × Nat × Nat × Nat)
  fetching : List Nat
  ports : Vector FPort 18
  groups : Table DWord
  opn : Table Nat
  collOps : List CollOp
  collTimeout : DWord
  -- memory system
  mem : List Host.Cell
  pend : Table PendSector
  frames : Table Frame
  l2 : Table Line
  olim : Table Nat
  mdt : Table (BitVec 4)
  stale : Table (Table Byte)   -- of an elided sector, by its number: the bytes that memory holds, which no fill of ZSE reads (R158, R159)
  placed : Table Nat           -- by frame: the core whose pseudo-channels it has left for another tier (R75)
  mdtBad : List Nat            -- lines whose metadata in memory cannot be read (R160)
  mdtHeld : Table (List Nat)   -- lines whose nibbles a slice's metadata cache holds, the most recent first (R158, R160)
  lostMem : List Nat           -- sectors whose data in memory was lost (R135, R161)
  tableBase : Nat              -- first frame of the descriptor and metadata tables (R145, R158)
  fwd : List Fwd
  tokens : List Token
  reclaim : List Reclaim
  tlb : Vector (List TlbEnt) 4
  hide : Table DWord
  prefixes : Table PxDesc
  pommel : Table PomEnt
  allocs : Nat
  -- engines
  engines : List Running
  cmdSeq : Nat
  xfBuf : Table XfLink
  stir : Table StirLane
  -- partitions and cores
  parts : Table Part
  cores : Vector Core 64
  -- the model's own
  cur : Ctx
  urgent : List Instr
  tasks : List Instr
  inbox : List Instr
  turn : List Nat
  rr : Nat
  free : Nat                   -- free values drawn by TIMESTAMP (R2, R62)
  freeLat : Nat                -- by latency samples (R88)
  freeGap : Nat                -- by the GAP of firmware (R18)
  out : List Output
  deriving DecidableEq, Repr

/-- Why the machine stops without a next state. No rule of the manual stops this machine so: its faults void rounds, stop
graphs, reset partitions or end in states that only a reset leaves, all of which are next states. -/
inductive Fault where
  /-- Raised by no step of this machine: the name stands because the interface asks for a type of reasons. Safe: nothing rests
  on it. -/
  | stopped
  deriving DecidableEq, Repr

/-- Why an instruction has no meaning. -/
inductive Refusal where
  /-- Raised by an arm of `exec` whose instruction has no meaning yet. Safe: nothing is said of it. -/
  | notModelled (mnemonic : String)
  deriving DecidableEq, Repr

/-- The machine right after reset (R22, R23): the resets asserted, booting, nothing stored anywhere (log entries 1 to 3). -/
def State.reset : State :=
  { pwrGood := true, sysRstN := false, perstN := false, boot := .reset, status := 0, pll := false, fc := 0, clk := 0, fwHash := 0, cfgNormal := false
    hostLink := false, fdtCount := 0, thermTrip := false, powerCap := 2800, deviceId := 0
    hitch := false, hitchArm := 0, fuse := false, unlocked := false, caps := [], arbs := [], loads := [], arbBusy := []
    vfs := [], windows := [], hostLines := [], hostMem := []
    poolUp := Vector.replicate 2 false, extents := [], fetching := [], ports := Vector.replicate 18 FPort.reset, groups := [], opn := []
    collOps := [], collTimeout := 94000000
    mem := [], pend := [], frames := [], l2 := [], olim := [], mdt := [], stale := [], placed := [], mdtBad := [], mdtHeld := [], lostMem := [], tableBase := 0, fwd := [], tokens := [], reclaim := []
    tlb := Vector.replicate 4 [], hide := [], prefixes := [], pommel := [], allocs := 0
    engines := [], cmdSeq := 0, xfBuf := [], stir := []
    parts := [], cores := Vector.replicate 64 Core.reset
    cur := Ctx.none, urgent := [], tasks := [], inbox := [], turn := [], rr := 0, free := 0, freeLat := 0, freeGap := 0, out := [] }

end Sys2Proof.Machine
end

