-- ==== Sys2Proof/Machine/Table.lean ====
section
/-! DEFINITION. Sparse tables and byte memories: lists of key and value pairs in one canonical form, keys strictly rising
and no entry equal to what an unlisted key reads as. -/

namespace Sys2Proof.Machine

/-! ### Tables -/

/-- The value at a key, or the default. -/
def tget {α : Type} (d : α) : Table α → Nat → α
  | [], _ => d
  | (k, v) :: r, n => if k = n then v else tget d r n

/-- The value at a key, if it is listed. -/
def tfind {α : Type} : Table α → Nat → Option α
  | [], _ => none
  | (k, v) :: r, n => if k = n then some v else tfind r n

/-- The table without a key. -/
def terase {α : Type} (t : Table α) (n : Nat) : Table α := t.filter (fun p => p.1 != n)

/-- Put a key that is not listed into its place. -/
def tinsert {α : Type} (n : Nat) (x : α) : Table α → Table α
  | [] => [(n, x)]
  | (k, v) :: r => if n < k then (n, x) :: (k, v) :: r else (k, v) :: tinsert n x r

/-- List a value at a key. -/
def tput {α : Type} (t : Table α) (n : Nat) (x : α) : Table α := tinsert n x (terase t n)

/-- Set a value; the default is not listed. -/
def tset {α : Type} [DecidableEq α] (d : α) (t : Table α) (n : Nat) (x : α) : Table α :=
  if x = d then terase t n else tput t n x

/-- Change a listed value; a key that is not listed stays so. -/
def tmod {α : Type} (t : Table α) (n : Nat) (f : α → α) : Table α :=
  t.map (fun p => if p.1 = n then (p.1, f p.2) else p)

/-- The least key that is not listed, from `n` on, looking `fuel` keys ahead. -/
def tfree {α : Type} (t : Table α) : Nat → Nat → Option Nat
  | 0, _ => none
  | fuel + 1, n => if (tfind t n).isSome then tfree t fuel (n + 1) else some n

/-- Keys strictly rising. -/
def keysRise {α : Type} : Table α → Bool
  | [] => true
  | [_] => true
  | p :: q :: r => decide (p.1 < q.1) && keysRise (q :: r)

/-- The canonical form of a table with a default. -/
def Table.wf {α : Type} [DecidableEq α] (d : α) (t : Table α) : Bool := keysRise t && t.all (fun p => p.2 != d)

/-! ### Byte memories (R4, R23 step 5): an unlisted byte reads 0 (log entry 3) -/

/-- What a byte that nothing has written reads as: step 5 of R23 zeroes the memories. -/
def unlistedByte : Byte := 0

abbrev Memory := List Host.Cell

/-- The canonical form: addresses strictly rising, no listed byte equal to an unlisted one. -/
def Memory.wf (m : Memory) : Bool := Table.wf unlistedByte m

def readB (m : Memory) (a : Nat) : Byte := tget unlistedByte m a

def writeB (m : Memory) (a : Nat) (b : Byte) : Memory := tset unlistedByte m a b

/-- `n` bytes from an address on. -/
def readBytes (m : Memory) (a : Nat) : Nat → List Byte
  | 0 => []
  | n + 1 => readB m a :: readBytes m (a + 1) n

/-- Bytes written from an address on. -/
def writeBytes (m : Memory) (a : Nat) : List Byte → Memory
  | [] => m
  | b :: r => writeBytes (writeB m a b) (a + 1) r

/-- The number whose bytes are listed lowest first (R4). -/
def leVal : List Byte → Nat
  | [] => 0
  | b :: r => b.toNat + 256 * leVal r

/-- The `n` bytes of a number, lowest first (R4). -/
def leOf : Nat → Nat → List Byte
  | 0, _ => []
  | n + 1, v => BitVec.ofNat 8 v :: leOf n (v / 256)

def read64 (m : Memory) (a : Nat) : DWord := BitVec.ofNat 64 (leVal (readBytes m a 8))

def write64 (m : Memory) (a : Nat) (w : DWord) : Memory := writeBytes m a (leOf 8 w.toNat)

/-! ### Lists and bit fields -/

/-- Replace an entry of a list. -/
def setAt {α : Type} : List α → Nat → α → List α
  | [], _, _ => []
  | _ :: r, 0, x => x :: r
  | y :: r, n + 1, x => y :: setAt r n x

/-- Bits lo to lo + n − 1 of a word, as a number. -/
def bitsN (w : DWord) (lo n : Nat) : Nat := w.toNat / 2 ^ lo % 2 ^ n

/-- A number of `n` bits read as two's complement. -/
def signed (n v : Nat) : Int := if v < 2 ^ (n - 1) then v else (v : Int) - 2 ^ n

/-- Bits lo to lo + n − 1, as a signed number. -/
def bitsI (w : DWord) (lo n : Nat) : Int := signed n (bitsN w lo n)

/-- Is bit `k` of a word 1? -/
def bit (w : DWord) (k : Nat) : Bool := w.toNat / 2 ^ k % 2 = 1

/-- A word with a field replaced. -/
def setBits (w : DWord) (lo n v : Nat) : DWord :=
  BitVec.ofNat 64 (w.toNat - bitsN w lo n * 2 ^ lo + v % 2 ^ n * 2 ^ lo)

/-- A number as a field. -/
def fieldN (lo v : Nat) : Nat := v * 2 ^ lo

/-- `n` numbers from `k` on. -/
def upFrom : Nat → Nat → List Nat
  | 0, _ => []
  | n + 1, k => k :: upFrom n (k + 1)

/-- The numbers below `n`. -/
def upTo (n : Nat) : List Nat := upFrom n 0

/-- Ceiling of a quotient. -/
def ceilDiv (a b : Nat) : Nat := (a + b - 1) / b

/-- An integer wrapped to 64 bits (R235). -/
def wrap64 (x : Int) : DWord := BitVec.ofInt 64 x

def wrap32 (x : Int) : Word := BitVec.ofInt 32 x

end Sys2Proof.Machine
end

