-- ==== Sys2Proof/Machine/Access.lean ====
section
/-! DEFINITION. Named access to the parts of the state: cores and elements, partitions and graph slots, the grid of cores
(R73, R77), a partition's hide space with the words the device computes (R74, R94, R95, R168), virtual functions. -/

namespace Sys2Proof.Machine

/-! ### Cores and elements -/

def coreOf (s : State) (c : Fin 64) : Core := s.cores[c]

def putCore (s : State) (c : Fin 64) (k : Core) : State := { s with cores := s.cores.set c k }

def modCore (s : State) (c : Fin 64) (f : Core → Core) : State := putCore s c (f (coreOf s c))

def elemOf (k : Core) (e : Fin 96) : Element := k.elems[e]

def putElem (k : Core) (e : Fin 96) (x : Element) : Core := { k with elems := k.elems.set e x }

def modElem (k : Core) (e : Fin 96) (f : Element → Element) : Core := putElem k e (f (elemOf k e))

/-- Change every element of a core. -/
def allElems (k : Core) (f : Fin 96 → Element → Element) : Core :=
  { k with elems := Vector.ofFn (fun e => f e k.elems[e]) }

/-- A core number, by its value modulo 64. -/
def coreNo (n : Nat) : Fin 64 := Fin.ofNat 64 n

/-- Change the listed cores. -/
def modCores (s : State) (cs : List Nat) (f : Core → Core) : State := cs.foldl (fun s c => modCore s (coreNo c) f) s

/-! ### The grid (R73, R77) -/

def dieOf (c : Nat) : Nat := c / 16

/-- Virtual coordinate (Y, X) of a core (R77). -/
def coordY (c : Nat) : Nat := 4 * (dieOf c / 2) + c % 16 / 4
def coordX (c : Nat) : Nat := 4 * (dieOf c % 2) + c % 16 % 4

/-- The core at a virtual coordinate, inside the 8 × 8 grid (R77). -/
def coreAt (y x : Int) : Option Nat :=
  if 0 ≤ y ∧ y < 8 ∧ 0 ≤ x ∧ x < 8 then
    let y := y.toNat
    let x := x.toNat
    some (16 * (2 * (y / 4) + x / 4) + 4 * (y % 4) + x % 4)
  else none

/-! ### Partitions and graphs -/

def partOf (s : State) (p : Nat) : Part := tget Part.reset s.parts p

def putPart (s : State) (p : Nat) (x : Part) : State := { s with parts := tput s.parts p x }

def modPart (s : State) (p : Nat) (f : Part → Part) : State := putPart s p (f (partOf s p))

def graphOf (s : State) (p slot : Nat) : Option Graph := tfind (partOf s p).graphs slot

def putGraph (s : State) (p slot : Nat) (g : Graph) : State := modPart s p (fun x => { x with graphs := tput x.graphs slot g })

def modGraph (s : State) (p slot : Nat) (f : Graph → Graph) : State :=
  modPart s p (fun x => { x with graphs := tmod x.graphs slot f })

/-- Is bit V of PART_CTL set (R76)? -/
def Part.v (x : Part) : Bool := bit x.ctl 63
def Part.slice (x : Part) : Nat := bitsN x.ctl 40 16
def Part.graceLimit (x : Part) : Nat := bitsN x.ctl 24 16
def Part.nslv (x : Part) : Nat := bitsN x.ctl 9 4
def Part.bound (x : Part) : Bool := bit x.ctl 8
def Part.vf (x : Part) : Nat := bitsN x.ctl 0 8
def Part.l2sh (x : Part) : Bool := bit x.ctl 56

/-- Entry k of the slice list (R81). -/
def Part.slvVf (x : Part) (k : Nat) : Nat := bitsN x.slv (8 * k) 8

/-- Does the partition slice (R80, R81)? -/
def Part.slices (x : Part) : Bool := x.slice ≠ 0 && 2 ≤ x.nslv

/-- VFs that a partition binds or lists (R81). -/
def Part.vfList (x : Part) : List Nat := x.vf :: (upTo x.nslv).map x.slvVf

/-- The cores of a partition, in increasing order (R74). -/
def Part.coreList (x : Part) : List Nat := (upTo 64).filter (fun c => bit x.cores c)

/-- The partition that holds a core, if some partition does. -/
def partOfCore (s : State) (c : Nat) : Option Nat := (s.parts.find? (fun p => bit p.2.cores c)).map (·.1)

/-- Is a VF bound to the partition: as the running VF, or as one of its list (R51, R81)? -/
def Part.binds (x : Part) (vf : Nat) : Bool := x.v && x.bound && x.vfList.contains vf

/-- The partition a VF is bound to. -/
def partOfVf (s : State) (vf : Nat) : Option Nat := (s.parts.find? (fun p => p.2.binds vf)).map (·.1)

/-- Is the VF bound and not suspended (R81)? -/
def runningPart (s : State) (vf : Nat) : Option Nat :=
  (s.parts.find? (fun p => p.2.v && p.2.bound && p.2.vf = vf)).map (·.1)

/-- Words of the partition's hide space (R74). -/
def Part.hideSize (x : Part) : Nat := Config.hidePerCore * x.coreList.length

/-- Bank and word of a hide offset, as one number: bank · 65 536 + word (R74). -/
def Part.hideKey (x : Part) (off : Nat) : Nat :=
  let c := (x.coreList.drop (off / 262144)).headD 0
  (4 * c + off / 65536 % 4) * 65536 + off % 65536

/-- Sets of a domain's prefix table (R177). -/
def PxDesc.sets (d : PxDesc) : Nat := 2 ^ d.log2e / 4

/-- Offset of set k (R177). -/
def PxDesc.setOff (d : PxDesc) (k : Nat) : Nat := d.base + 65536 * (k / 1638) + 40 * (k % 1638)

/-- Does the table hold the offset? -/
def PxDesc.holds (d : PxDesc) (off : Nat) : Bool :=
  d.base ≤ off &&
    (let r := (off - d.base) % 65536
     let k := (off - d.base) / 65536 * 1638 + r / 40
     r / 40 < 1638 && k < d.sets)

/-- Offsets that elements and packets may not write (R94, R168, R177, R313): work block, KV block, prefix tables. -/
def hideProtected (s : State) (p off : Nat) : Bool :=
  let x := partOf s p
  (x.reinBase.toNat ≤ off && off < x.reinBase.toNat + 4096)
    || (x.kvBase.toNat ≤ off && off < x.kvBase.toNat + 8256)
    || s.prefixes.any (fun d => d.2.part = p && d.2.holds off)

/-! ### Records (R95, R168) -/

/-- The words of a demand record. -/
def Demand.word0 (d : Demand) : DWord := BitVec.ofNat 64 (d.npos.toNat * 2 ^ 32 + d.dpos.toNat)
def Demand.word1 (d : Demand) : DWord :=
  BitVec.ofNat 64 ((if d.done then 2 ^ 63 else 0) + (if d.trig then 2 ^ 62 else 0) + (if d.canc then 2 ^ 61 else 0) + d.acc % 2 ^ 48)

/-- Word `off` of the work block (R94, R95). -/
def workWord (x : Part) (off : Nat) : DWord :=
  if off < 1024 then tget 0 x.armSlots off
  else if off < 3584 then
    (match tfind x.demands ((off - 1024) / 2) with
     | some d => if off % 2 = 0 then d.word0 else d.word1
     | none => 0)
  else if off < 3712 then
    (match tfind x.graphs ((off - 3584) / 2) with
     | some g => if off % 2 = 0 then g.acpt ++ g.cmpl else g.rcom ++ g.rvoid
     | none => let r := tget (0, 0) x.oldRecs ((off - 3584) / 2); if off % 2 = 0 then r.1 else r.2)
  else if off < 3728 then
    let j := tget Job.reset x.jobs ((off - 3712) / 2)
    if off % 2 = 0 then j.acpt ++ j.cmpl else j.ncan ++ (0 : Word)
  else if off = 3728 then x.phn
  else if off = 3729 then x.phAcpt ++ x.phCmpl
  else 0

/-- Word `off` of the KV block (R168). -/
def kvWord (x : Part) (off : Nat) : DWord :=
  if off = 0 then BitVec.ofNat 64 (x.quota % 2 ^ 32)
  else if off < 64 then 0
  else
    let q := tget Seq.reset x.seqs ((off - 64) / 2)
    if off % 2 = 0 then BitVec.ofNat 64 ((if q.v then 2 ^ 63 else 0) + (if q.hot then 2 ^ 62 else 0) + q.f % 2 ^ 48)
    else BitVec.ofNat 64 (q.ctbase % 2 ^ 48)

/-- A hide word of a partition (R74, R94, R168). -/
def hideRead (s : State) (p off : Nat) : DWord :=
  let x := partOf s p
  if x.reinBase.toNat ≤ off && off < x.reinBase.toNat + 4096 then workWord x (off - x.reinBase.toNat)
  else if x.kvBase.toNat ≤ off && off < x.kvBase.toNat + 8256 then kvWord x (off - x.kvBase.toNat)
  else tget 0 s.hide (x.hideKey off)

/-- Write a hide word at its bank; an offset outside the partition holds nothing. -/
def hideWrite (s : State) (p off : Nat) (w : DWord) : State :=
  let x := partOf s p
  if off < x.hideSize then { s with hide := tset 0 s.hide (x.hideKey off) w } else s

/-! ### Virtual functions -/

def vfOf (s : State) (v : Nat) : Vf := tget Vf.reset s.vfs v

def putVf (s : State) (v : Nat) (x : Vf) : State := { s with vfs := tput s.vfs v x }

def modVf (s : State) (v : Nat) (f : Vf → Vf) : State := putVf s v (f (vfOf s v))

def streamOf (s : State) (v : Nat) (n : Fin 8) : Stream := (vfOf s v).streams[n]

def modStream (s : State) (v : Nat) (n : Fin 8) (f : Stream → Stream) : State :=
  modVf s v (fun x => { x with streams := x.streams.set n (f x.streams[n]) })

/-- An event for a VF's ring waits its turn (R68). -/
def postEvent (s : State) (v : Nat) (e : Event) : State := modVf s v (fun x => { x with evWait := x.evWait ++ [e] })

/-- Something that happens at once, before anything else. -/
def addUrgent (s : State) (i : Instr) : State := { s with urgent := s.urgent ++ [i] }

/-- Work that the device has set itself. -/
def addTask (s : State) (i : Instr) : State := { s with tasks := s.tasks ++ [i] }

def emit (s : State) (o : Output) : State := { s with out := s.out ++ [o] }

/-! ### HITCH (R89) -/

/-- HITCH takes effect: the clocks stand, and the host, pool and fabric links go down. -/
def stopClocks (s : State) : State :=
  { s with
    hitch := true, hostLink := false, poolUp := Vector.replicate 2 false
    ports := Vector.ofFn (fun i => { s.ports[i] with up := false, retraining := false }) }

/-! ### Capture units (R88, R90) -/

def capKey (die unit : Nat) : Nat := die * 32 + unit

def capOf (s : State) (k : Nat) : Cap := tget Cap.reset s.caps k

def putCap (s : State) (k : Nat) (c : Cap) : State := { s with caps := tput s.caps k c }

/-- Does the unit's window run? -/
def Cap.runs (c : Cap) : Bool := bit c.ctl 63

def Cap.probe (c : Cap) : Nat := bitsN c.ctl 46 8

/-- Does the unit's filter let a partition pass? -/
def Cap.takes (c : Cap) (p : Nat) : Bool := bit c.ctl 54 || bitsN c.ctl 55 6 = p

/-- The bin of a sample (R88). -/
def binOf (v : Nat) : Nat := if v = 0 then 0 else if v < 2 ^ 30 then Nat.log2 v + 1 else 31

/-- A sample is taken: bins saturate. -/
def Cap.sample (c : Cap) (v : Nat) : Cap :=
  let b : Fin 32 := Fin.ofNat 32 (binOf v)
  { c with
    cnt := c.cnt + 1, min := if v < c.min.toNat then BitVec.ofNat 64 v else c.min
    max := if c.max.toNat < v then BitVec.ofNat 64 v else c.max
    hist := if c.hist[b] = 0xFFFFFFFF then c.hist else c.hist.set b (c.hist[b] + 1) }

/-- A unit takes a sample; one that HITCH_ARM watches triggers HITCH when the sample lies above its threshold (R90). -/
def takeSample (s : State) (k v : Nat) : State :=
  let s := putCap s k ((capOf s k).sample v)
  if bit s.hitchArm 50 && capKey (bitsN s.hitchArm 48 2) (bitsN s.hitchArm 43 5) = k && bitsN s.hitchArm 11 32 < v then stopClocks s
  else s

/-- The running units of a die that probe a quantity of a partition (R88). -/
def probing (s : State) (die probe p : Nat) : List Nat :=
  (s.caps.filter (fun e => e.1 / 32 = die && e.2.runs && e.2.probe = probe && e.2.takes p)).map (·.1)

/-- A latency is measured on a die for a partition: every running unit that probes it takes a sample of a free value (R2, R88). -/
def sampleLatency (s : State) (die probe p : Nat) : State :=
  (probing s die probe p).foldl (fun s k => takeSample { s with freeLat := s.freeLat + 1 } k (Config.probeSample s.freeLat)) s

/-- A latency that the fabric clock has counted is sampled (R88). -/
def sampleCount (s : State) (die probe p v : Nat) : State := (probing s die probe p).foldl (fun s k => takeSample s k v) s

/-! ### Re-latch tokens (R155) -/

/-- Does the token name the frame? -/
def Token.names (t : Token) (f : Nat) : Bool := t.all || (t.base ≤ f && f < t.base + t.count)

/-- Is a token that names the frame on its way? -/
def tokenOut (s : State) (f : Nat) : Bool := s.tokens.any (fun t => t.names f)

/-- A token passes the nodes of a core: latches of its frames are dropped. -/
def passNodes (t : Token) (k : Core) : Core :=
  { k with
    ports := Vector.ofFn (fun i =>
      let q := k.ports[i]
      { q with latch := match q.latch with
        | some l => if t.names l.frame.toNat then none else some l
        | none => none }) }

/-- A die's edge TLB drops the token's entries when the token, which passes the nodes of some cores now, has passed every node on the
die. -/
def passTlbs (t : Token) (now : List Nat) (s : State) : State :=
  { s with
    tlb := Vector.ofFn (fun d =>
      if now.any (fun c => dieOf c = d.val) && !t.left.any (fun c => dieOf c = d.val && !now.contains c) then
        s.tlb[d].filter (fun e => !t.names e.latch.frame.toNat)
      else s.tlb[d]) }

/-- One token passes those nodes of the listed cores that it has not passed yet. -/
def passToken (s : State) (cs : List Nat) (t : Token) : State :=
  let now := t.left.filter (fun c => cs.contains c)
  passTlbs t now (modCores s now (passNodes t))

/-- Every token on its way passes the nodes of the listed cores; one that has passed all is complete. -/
def passTokens (s : State) (cs : List Nat) : State :=
  let s := s.tokens.foldl (fun s t => passToken s cs t) s
  { s with tokens := (s.tokens.map (fun t => { t with left := t.left.filter (fun c => !cs.contains c) })).filter (fun t => !t.left.isEmpty) }

end Sys2Proof.Machine
end

