-- ==== Sys2Proof/Machine/Sets.lean ====
section
/-! DEFINITION. Progressions of stream time (R8), need sets (R105), range-transfer functions (R100), clamping (R103) and
production records (R104). -/

namespace Sys2Proof.Machine

namespace Prog

/-- Is a time a member (R8)? a, b and every a + k·s between them are. -/
def mem (p : Prog) (x : Int) : Bool := p.a ≤ x && x ≤ p.b && ((x - p.a) % (p.s : Int) = 0 || x = p.b)

def isEmpty (p : Prog) : Bool := p.b < p.a

/-- The progression with its upper end at the last a + k·s. -/
def norm (p : Prog) : Prog := if p.b < p.a then p else { p with b := p.a + (p.b - p.a) / (p.s : Int) * p.s }

/-- Is b no a + k·s? It is a member all the same (R8). -/
def ragged (p : Prog) : Bool := p.norm.b ≠ p.b

/-- The range as progressions whose ends are all a + k·s (R8, R108; log entry 75). -/
def parts (p : Prog) : List Prog := if p.ragged then [p.norm, { a := p.b, b := p.b, s := 1 }] else [p]

/-- The number of members. -/
def count (p : Prog) : Nat := if p.b < p.a then 0 else ((p.b - p.a) / (p.s : Int)).toNat + (if p.ragged then 2 else 1)

/-- The members, increasing; members below 0 are left out, as every stream begins at or above 0. -/
def list (p : Prog) : List Nat :=
  ((upTo (p.norm.count)).map (fun k => p.a + k * p.s) ++ (if p.ragged then [p.b] else [])).filterMap (fun x => if x < 0 then none else some x.toNat)

/-- Raised and lowered to the members inside a stream (R103). -/
def clamp (lo hi : Int) (p : Prog) : Prog :=
  let p := if hi < p.b then ({ p with b := hi } : Prog).norm else p
  if p.a < lo then
    let a := p.a + (lo - p.a + p.s - 1) / (p.s : Int) * p.s
    { p with a := if p.b < a && lo ≤ p.b then p.b else a }
  else p

/-- The hull of two progressions (R105). -/
def hull (p q : Prog) : Prog :=
  { a := min p.a q.a, b := max p.b q.b, s := Nat.gcd (Nat.gcd p.s q.s) (p.a - q.a).natAbs }

/-- Same stride and phase, overlapping or abutting (R105). -/
def joins (p q : Prog) : Bool :=
  p.s = q.s && (p.a - q.a) % (p.s : Int) = 0 && p.a ≤ q.b + q.s && q.a ≤ p.b + p.s

/-- The spans overlap (R105). -/
def spansMeet (p q : Prog) : Bool := p.a ≤ q.b && q.a ≤ p.b

end Prog

/-- Take the first entry that meets a condition out of a list. -/
def takeFirst {α : Type} (f : α → Bool) : List α → Option (α × List α)
  | [] => none
  | x :: r =>
    if f x then some (x, r)
    else match takeFirst f r with
      | none => none
      | some (y, r') => some (y, x :: r')

/-- Insert into a list kept in increasing order of the lower end. -/
def insertByA (q : Prog) : List Prog → List Prog
  | [] => [q]
  | p :: r => if q.a < p.a then q :: p :: r else p :: insertByA q r

/-- The neighbours with the smallest gap, the earlier pair on a tie: the index of the first (R105). -/
def smallestGap : List Prog → Nat → Option (Nat × Int) → Option (Nat × Int)
  | p :: q :: r, i, best =>
    let gap := q.a - p.b
    smallestGap (q :: r) (i + 1)
      (match best with
       | none => some (i, gap)
       | some (j, g) => if gap < g then some (i, gap) else some (j, g))
  | _, _, best => best

/-- The hull of the i-th entry and its successor, and the entries beside them. -/
def hullAt : List Prog → Nat → Option (Prog × List Prog)
  | p :: q :: r, 0 => some (p.hull q, r)
  | p :: r, n + 1 => (hullAt r n).map (fun x => (x.1, p :: x.2))
  | _, _ => none

/-- INSERT (R105); a merged or hulled entry is inserted again, each time into a set with one entry fewer. -/
def insertProg : Nat → List Prog → Prog → List Prog
  | 0, set, q => insertByA q set
  | fuel + 1, set, q =>
    match takeFirst (fun p => p.joins q) set with
    | some (p, rest) => insertProg fuel rest { p with a := min p.a q.a, b := max p.b q.b }
    | none =>
      match takeFirst (fun p => p.spansMeet q) set with
      | some (p, rest) => insertProg fuel rest (p.hull q)
      | none =>
        let set' := insertByA q set
        if set'.length ≤ 8 then set'
        else match (smallestGap set' 0 none).bind (fun x => hullAt set' x.1) with
          | none => set'
          | some (h, rest) => insertProg fuel rest h

def needInsert (set : List Prog) (q : Prog) : List Prog := insertProg 24 set q

def inSet (set : List Prog) (x : Nat) : Bool := set.any (fun p => p.mem x)

/-- Maximal runs of consecutive members that meet a condition: `start` and `last` are the run being built. -/
def runsFrom (s : Nat) (keep : Nat → Bool) : List Nat → Option (Nat × Nat) → List Prog
  | [], none => []
  | [], some (a, b) => [{ a := a, b := b, s := s }]
  | x :: r, cur =>
    if keep x then
      runsFrom s keep r (some (match cur with | none => (x, x) | some (a, _) => (a, x)))
    else match cur with
      | none => runsFrom s keep r none
      | some (a, b) => { a := a, b := b, s := s } :: runsFrom s keep r none

/-- RUNS of the positions of some progressions that meet a condition (R108): progression by progression, a position that an
earlier run holds taken once. -/
def runs (ps : List Prog) (keep : Nat → Bool) : List Prog :=
  ps.foldl (fun acc p => acc ++ runsFrom p.s (fun x => keep x && !inSet acc x) p.list none) []

/-- Positions without repeats, increasing. -/
def insertPos (x : Nat) : List Nat → List Nat
  | [] => [x]
  | y :: r => if x < y then x :: y :: r else if x = y then y :: r else y :: insertPos x r

def unionPos (xs ys : List Nat) : List Nat := xs.foldl (fun acc x => insertPos x acc) ys

/-- The hull of some positions with gcd stride, or with stride 1 (R109). -/
def hullOf (one : Bool) : List Nat → Option Prog
  | [] => none
  | x :: r =>
    let p := r.foldl (fun (p : Prog) y => p.hull { a := y, b := y, s := 0 }) { a := x, b := x, s := 0 }
    some { p with s := if one then 1 else if p.s = 0 then 1 else p.s }

/-! ### Production (R104) -/

/-- Is a position of the operator produced? -/
def produced (d : OpDesc) (o : OpState) (x : Nat) : Bool :=
  if d.qd ≠ 0 then o.slots.any (fun q => q.pos.contains x)
  else (d.origin ≤ x && x < o.f) || o.win.contains x

/-- The frontier advances past every following produced position. -/
def advanceF : Nat → List Nat → Nat → Nat
  | 0, _, f => f
  | fuel + 1, win, f => if win.contains f then advanceF fuel win (f + 1) else f

/-- Enter one position into a frontier and window (R104). -/
def enterPos (o : OpState) (p : Nat) : OpState :=
  if p < o.f then o
  else
    let wb := if o.wb + 1024 ≤ p then p - 1023 else if o.f < p && p < o.wb then p else o.wb
    let win := o.win.filter (fun x => wb ≤ x && x < wb + 1024)
    if p = o.f then
      let f := advanceF 1025 win (p + 1)
      let wb := if wb < f then f else wb
      { o with f := f, wb := wb, win := win.filter (fun x => f ≤ x && x < wb + 1024) }
    else { o with wb := wb, win := insertPos p win }

/-- The frontier of an operator: F without a queue, the least position not produced with one (R104). -/
def frontier (d : OpDesc) (o : OpState) : Nat :=
  if d.qd ≠ 0 then advanceF (64 * 4096 + 1) (o.slots.flatMap (·.pos)) d.origin else o.f

/-! ### Range-transfer functions (R100, R101) -/

/-- The latest checkpoint or horizon time at or before `a`, if there is one. -/
def latestRecord (o : OpState) (a : Int) : Option Nat :=
  (o.ck ++ [o.hz]).foldl (fun best e => if e.v && (e.time : Int) ≤ a then
    (match best with | none => some e.time | some b => if b < e.time then some e.time else some b) else best) none

/-- c of an AFFST input (R101). -/
def affC (d : OpDesc) (o : OpState) (a : Int) : Int :=
  match latestRecord o a with
  | none => d.origin
  | some t => max (d.origin : Int) t

/-- The input range of input `i` for an output progression (R100). `hf` is the frontier of the HIST sequence, `prodOrigin`
the producer's ORIGIN. CONST has none. -/
def rtf (d : OpDesc) (o : OpState) (hf : Nat) (prodOrigin : Nat) (i : InDesc) (q : Prog) : Prog :=
  match i.kind.toNat with
  | 0 => q
  | 1 => { q with a := q.a + i.p1, b := q.b + i.p1 }
  | 2 => { a := i.p1 * q.a + i.p2, b := i.p1 * q.b + i.p2, s := i.p1.toNat * q.s }
  | 3 => { a := q.a / i.p1, b := q.b / i.p1, s := 1 }
  | 4 => { a := q.a + i.p1, b := q.b + i.p2, s := if i.p1 < i.p2 then 1 else q.s }
  | 5 => { a := affC d o q.a, b := q.b, s := 1 }
  | 6 => { a := hf, b := q.b, s := 1 }
  | 7 => { a := if i.prod = 0xFF then d.origin else prodOrigin, b := q.b, s := 1 }
  | _ => Prog.empty

/-- Does an input name a producer whose positions it needs (R108)? -/
def InDesc.needs (i : InDesc) : Bool := i.kind ≠ 8 && i.prod ≠ 0xFF

end Sys2Proof.Machine
end

