-- ==== Sys2Proof/Machine/Arb.lean ====
section
/-! DEFINITION. The arbiters of the hide banks, the L2 slice ports, the HBM4E pseudo-channels and the die edges (R82 to R85): requests are placed by
class and port, served class by class, and granted out of turn after 1 024 units. -/

namespace Sys2Proof.Machine

/-! ### Arbiters (R82 to R85) -/

/-- The arbiters: a hide bank, an L2 slice port, an HBM4E pseudo-channel, the edges of a die to the base die and back, the edges between
neighbouring dies: Q0–Q1, Q2–Q3, Q0–Q2, Q1–Q3 (R10). -/
def hideArb (bank : Nat) : Nat := bank
def sliceArb (die slice : Nat) : Nat := 256 + 16 * die + slice
def hbmArb (core k : Nat) : Nat := 320 + 8 * core + k
def upArb (die : Nat) : Nat := 832 + die
def downArb (die : Nat) : Nat := 836 + die
def edgeArb (edge : Nat) : Nat := 840 + edge

/-- The fc that a transfer unit of an arbiter takes (R82): a bank access, a line, a burst of 64 ns at 940 MHz, an edge transfer. -/
def unitLen (arbiter : Nat) : Nat := if arbiter < 256 then 1 else if arbiter < 320 then 4 else if arbiter < 832 then 61 else 8

/-- The die of a port: of a core, of the engines of a die; the host, the front ends and the control complex are on the base die (R10). -/
def portDie (port : Nat) : Option Nat := if port < 64 then some (dieOf port) else if port < 128 then some ((port - 64) / 8) else none

/-- The port of the base die: the host, the front ends, the control complex (log entry 28). -/
def hostPort : Nat := 128

/-- The edges that traffic between two dies crosses: one between neighbours, two between Q0 and Q3 and between Q1 and Q2 (R10), the one along
its own row first (log entry 28). -/
def dieEdges (a b : Nat) : List Nat :=
  (if a % 2 = b % 2 then [] else [a / 2]) ++ (if a / 2 = b / 2 then [] else [2 + b % 2])

/-- Requests of one arrival join those of the same port and class. -/
def joinReq (r : ArbReq) : List ArbReq → List ArbReq
  | [] => [r]
  | q :: l =>
    if q.arbiter = r.arbiter && q.cls = r.cls && q.port = r.port && q.came = r.came && q.load.isNone then
      { q with units := q.units + r.units, names := q.names ++ r.names } :: l
    else q :: joinReq r l

/-- A transfer unit is asked of an arbiter; `name` says what it carries, where other accesses of the same fc may share it. -/
def arbPlace (s : State) (arbiter : Nat) (cls : BitVec 2) (port : Nat) (name : List Nat) : State :=
  let r : ArbReq := { arbiter := arbiter, cls := cls, port := port, came := s.clk, units := 1, names := name, load := none, waited := 0, granted := false }
  { s with arbs := joinReq r s.arbs }

/-- An arbiter is asked for a line, a burst or an edge transfer: the accesses that one port makes to it in one fc and class share its unit
(R82; log entry 28). -/
def arbAsk (s : State) (arbiter : Nat) (cls : BitVec 2) (port name : Nat) : State :=
  if s.arbs.any (fun r => r.arbiter = arbiter && r.cls = cls && r.port = port && r.came = s.clk && r.names.contains name) then s
  else arbPlace s arbiter cls port [name]

/-- Traffic between a compute die and the base die crosses the die's edge, up and back down (R82). -/
def baseAsk (s : State) (cls : BitVec 2) (port die name : Nat) : State := arbAsk (arbAsk s (upArb die) cls port name) (downArb die) cls port name

/-- Traffic between a port and a compute die: over the edges between the port's die and it, or from the base die (R10, R82). -/
def edgeAsk (s : State) (cls : BitVec 2) (port die name : Nat) : State :=
  match portDie port with
  | some d => (dieEdges d die).foldl (fun s e => arbAsk s (edgeArb e) cls port name) s
  | none => baseAsk s cls port die name

/-- A hide operation asks its bank for an access of its own; one of a core or of an engine crosses the edge of its die first (R82, R84). -/
def hideAsk (s : State) (bank : Nat) (cls : BitVec 2) (port : Nat) : State :=
  let s := match portDie port with
    | some d => arbPlace s (upArb d) cls port []
    | none => s
  arbPlace s (hideArb bank) cls port []

/-! ### Immediate accesses (R84, R85) -/

/-- An immediate access as it is issued: it comes to the edge of its die after 4 + 14 fc (R84). -/
def loadIssued (s : State) (store : Bool) (bank core elem lane li rc : Nat) : LoadReq :=
  { bank := hideArb bank, core := core, elem := elem, lane := lane, li := li, rc := rc, store := store, issued := s.clk, stage := 0, due := s.clk + 18 }

/-- An immediate store sets out for its bank (R84). -/
def storeAsk (s : State) (bank core elem : Nat) : State := { s with loads := s.loads ++ [loadIssued s true bank core elem s.loads.length 0 0] }

/-- The arbiter of the stage to which an immediate access comes. -/
def LoadReq.arbiter (r : LoadReq) : Nat := if r.stage = 0 then upArb (dieOf r.core) else if r.stage = 1 then r.bank else downArb (dieOf r.core)

/-- An immediate access goes on in fc `n` with the transit of R84: the edge and the base die to the bank, the bank and the base die back, the
edge, the compute die and the core port. A store ends at the bank. -/
def LoadReq.passOn (r : LoadReq) (n : Nat) : Option LoadReq :=
  if r.stage = 0 then some { r with stage := 1, due := n + 20 }
  else if r.stage = 1 then (if r.store then none else some { r with stage := 2, due := n + 17 })
  else some { r with stage := 3, due := n + 24 }

/-- Is a load of some cores on its way? A round ends when its loads have returned (R85, R128). -/
def loadsOut (s : State) (cores : List Nat) : Bool :=
  let mine (r : LoadReq) : Bool := !r.store && cores.contains r.core
  s.loads.any mine || s.arbs.any (fun q => q.load.elim false mine)

/-- The immediate accesses of some cores are gone. -/
def dropLoads (s : State) (cores : List Nat) : State :=
  let mine (r : LoadReq) : Bool := cores.contains r.core
  { s with loads := s.loads.filter (fun r => !mine r), arbs := s.arbs.filter (fun q => !q.load.elim false mine) }

/-- Those that come to a stage in fc `n` ask its arbiter, in class 0. -/
def placeLoads (s : State) (n : Nat) : State :=
  let now (r : LoadReq) : Bool := r.stage < 3 && r.due ≤ n
  { s with
    loads := s.loads.filter (fun r => !now r)
    arbs := s.arbs ++ (s.loads.filter now).map (fun r =>
      { arbiter := r.arbiter, cls := 0, port := r.core, came := r.due, units := 1, names := [], load := some r, waited := 0, granted := false }) }

/-- A load has returned: its latency is measured (R88); one that took more than 96 fc is late (R85). -/
def returnLoad (s : State) (r : LoadReq) : State :=
  let s := sampleCount s (dieOf r.core) 0x01 ((coreOf s (coreNo r.core)).owner.elim 64 (·.1)) (r.due - r.issued)
  if r.due - r.issued ≤ 96 then s
  else addUrgent s (.hldILate (coreNo r.core) (Fin.ofNat 96 r.elem) (BitVec.ofNat 12 r.li) (BitVec.ofNat 5 r.lane)
    ⟨BitVec.ofNat 12 r.rc, BitVec.ofNat 16 (r.due - r.issued - 96)⟩)

/-- The loads that have returned by now. -/
def returnLoads (s : State) : State :=
  let back (r : LoadReq) : Bool := r.stage = 3 && r.due ≤ s.clk
  (s.loads.filter back).foldl returnLoad { s with loads := s.loads.filter (fun r => !back r) }

/-! ### Service (R82, R83, R85) -/

/-- The order among requests of one fc and one port: immediate accesses by element and lane (log entry 28). -/
def laneKey (a : ArbReq) : Nat := a.load.elim 0 (fun r => 32 * r.elem + r.lane)

/-- Who is served first: one that is granted, then by class, arrival and port (R82, R83). -/
def reqBefore (a b : ArbReq) : Bool :=
  if a.granted != b.granted then a.granted
  else if a.cls ≠ b.cls then a.cls < b.cls
  else if a.came ≠ b.came then a.came < b.came
  else if a.port ≠ b.port then a.port < b.port
  else laneKey a < laneKey b

/-- The request that an arbiter serves next. -/
def nextReq (l : List ArbReq) : Option ArbReq :=
  l.foldl (fun b r => match b with
    | none => some r
    | some q => if reqBefore r q then some r else some q) none

/-- The requests among which an arbiter chooses in fc `n`: those that have waited since an earlier fc, else those that have just come. A unit
that one of the former begins is not broken up for the latter (R82). -/
def contenders (arbiter n : Nat) (l : List ArbReq) : List ArbReq :=
  let mine := l.filter (fun r => r.arbiter = arbiter)
  let old := mine.filter (fun r => r.came < n)
  if old.isEmpty then mine else old

/-- One unit of a request is served: what is left of it stays; every request of a lower class at the arbiter has waited for it. -/
def serveReq (q : ArbReq) (l : List ArbReq) : List ArbReq :=
  let l := l.map (fun r => if r.arbiter = q.arbiter && q.cls < r.cls then { r with waited := r.waited + 1 } else r)
  if q.units ≤ 1 then l.erase q else l.map (fun r => if r = q then { r with units := r.units - 1, granted := false } else r)

/-- What an arbiter does in an fc in which it is free: the requests left, the immediate accesses that pass, whether it begins a unit. An immediate
access waits at an edge for what stands before it and takes no unit of it; a hide bank admits two accesses of class 0 (`room`), or begins
one of another class (R84, R85; log entry 28). -/
def serveArb (arbiter n : Nat) : Nat → Nat → List ArbReq → List LoadReq × List ArbReq × Bool
  | 0, _, l => ([], l, false)
  | fuel + 1, room, l =>
    match nextReq (contenders arbiter n l) with
    | none => ([], l, false)
    | some q =>
      let bank := arbiter < 256
      if q.load.isSome || (bank && q.cls = 0) then
        if bank && room = 0 then ([], l, false)
        else
          let r := serveArb arbiter n fuel (room - 1) (serveReq q l)
          ((q.load.bind (fun x => x.passOn n)).toList ++ r.1, r.2)
      else if bank && room ≠ 2 then ([], l, false)
      else ([], serveReq q l, true)

/-- One fc passes of the units under way. -/
def busyTick (t : Table Nat) : Table Nat := (t.filter (fun e => 1 < e.2)).map (fun e => (e.1, e.2 - 1))

/-- One fc of an arbiter that is free; a request that has waited 1 024 units is granted the next (R83). -/
def arbStep (n : Nat) (s : State) (a : Nat) : State :=
  let r := serveArb a n (s.arbs.length + 1) 2 s.arbs
  let s := { s with
    loads := s.loads ++ r.1, arbs := r.2.1
    arbBusy := if r.2.2 && 1 < unitLen a then tput s.arbBusy a (unitLen a - 1) else s.arbBusy }
  if s.arbs.any (fun q => q.arbiter = a && q.cls ≠ 0 && 1024 ≤ q.waited && !q.granted) then addUrgent s (.starvationGrant a) else s

/-- One fc of every arbiter: a unit under way is not broken up (R82). -/
def arbTick (s : State) : State :=
  let n := s.clk - 1
  let s := placeLoads s n
  let busy := s.arbBusy
  returnLoads ((unionPos (s.arbs.map (·.arbiter)) []).foldl (fun s a => if (tfind busy a).isSome then s else arbStep n s a)
    { s with arbBusy := busyTick busy })

end Sys2Proof.Machine
end

