-- ==== Sys2Proof/Machine/Rein.lean ====
section
/-! DEFINITION. The Rein unit (R92 to R119): planning, candidates and arming, recording, triggering and completion, cancels. -/

namespace Sys2Proof.Machine

/-! ### Operators of a graph -/

def OpDesc.none : OpDesc :=
  { nin := 0, scls := 0, t := 1, rounds := 1, qd := 0, qmt := 0, origin := 0, limit := 0, ins := [] }

/-- An operator's state after a load (R104, R121, R125). -/
def OpState.init (d : OpDesc) (nslot : Nat) : OpState :=
  { need := [], had := [], f := d.origin, wb := d.origin, win := [], slots := [], kpos := d.origin
    ck := List.replicate nslot { v := false, time := 0 }, hz := { v := false, time := 0 }, passed := 0, passedBy := none
    promoted := [], arm := none }

def opAt (g : Graph) (x : Nat) : OpDesc := (g.ops.drop x).headD OpDesc.none

def ckAt (g : Graph) (x : Nat) : Option CkDesc := g.ckpts.find? (fun c => c.opx.toNat = x)

def stAt (g : Graph) (x : Nat) : OpState :=
  tget (OpState.init (opAt g x) ((ckAt g x).elim 0 (·.nslot))) g.st x

def putSt (g : Graph) (x : Nat) (o : OpState) : Graph := { g with st := tput g.st x o }

def modSt (g : Graph) (x : Nat) (f : OpState → OpState) : Graph := putSt g x (f (stAt g x))

/-- The operators of the graph, by index. -/
def opxs (g : Graph) : List Nat := upTo g.ops.length

/-- Has the operator an AFFST input (R100, R127)? -/
def hasAff (d : OpDesc) : Bool := d.ins.any (fun i => i.kind = 5)

/-- The frontier of the sequence of an operator's HIST input (R411): the SEQ in force for the next round on the lowest port,
of the lowest footprint core, that holds a KIND 2 record naming the operator. -/
def histFrontier (s : State) (p : Nat) (g : Graph) (x : Nat) : Nat :=
  let hits := g.cores.flatMap (fun c =>
    let k := coreOf s (coreNo c)
    (List.finRange 16).filterMap (fun i =>
      if k.records.any (fun r => r.port = i && r.kind = 2 && r.opx.toNat = x && r.opx ≠ 0xFF) then
        (match k.ports[i].next with
         | some r => some r.seq.toNat
         | none => (k.ports[i].active).map (fun r => r.seq.toNat))
      else none))
  match hits with
  | [] => 0
  | q :: _ => (tget Seq.reset (partOf s p).seqs q).f

/-- The input range of input `i` of operator `x` for an output progression, clamped to the producer's stream (R100, R103). -/
def inputRange (g : Graph) (hf : Nat → Nat) (x : Nat) (i : InDesc) (q : Prog) : Prog :=
  let pd := opAt g i.prod.toNat
  (rtf (opAt g x) (stAt g x) (hf x) pd.origin i q).clamp pd.origin pd.limit

/-! ### Planning (R108) -/

/-- EXTEND (R108): each run from the first time of its input range under an AFFST or FULL input. -/
def extend (g : Graph) (x : Nat) (q : Prog) : Prog :=
  let d := opAt g x
  let o := stAt g x
  let cs := d.ins.filterMap (fun i =>
    if i.kind = 5 then some (affC d o q.a)
    else if i.kind = 7 then some (if i.prod = 0xFF then (d.origin : Int) else (opAt g i.prod.toNat).origin)
    else none)
  let c := cs.foldl min q.a
  { a := if c < d.origin then min (d.origin : Int) q.a else c, b := q.b, s := 1 }

/-- What planning has gathered: the requests of each operator, and the cone. -/
structure PlanAcc where
  g : Graph
  req : List (List Prog)
  cone : List (BitVec 8 × List Nat)

/-- One operator of PLAN (R108). -/
def planOp (hf : Nat → Nat) (acc : PlanAcc) (x : Nat) : PlanAcc :=
  let g := acc.g
  let d := opAt g x
  let o := stAt g x
  let req := (acc.req.drop x).headD []
  let keep := fun t => !produced d o t && !(inSet o.need t && !o.had.contains t)
  let new0 := runs req keep
  let new := if d.ins.any (fun i => i.kind = 5 || i.kind = 7) then runs (new0.map (extend g x)) keep else new0
  let cone := unionPos ((req ++ new).flatMap (fun q => q.list.filter (fun t => !produced d o t))) []
  let g' := putSt g x { o with need := new.foldl needInsert o.need, had := o.had.filter (fun t => !inSet new t) }
  let req' := d.ins.foldl (fun (r : List (List Prog)) i =>
    if i.needs then
      let add := (new.map (fun q => inputRange g hf x i q)).filter (fun q => !q.isEmpty)
      setAt r i.prod.toNat ((r.drop i.prod.toNat).headD [] ++ add)
    else r) acc.req
  { g := g', req := req', cone := if cone.isEmpty then acc.cone else (BitVec.ofNat 8 x, cone) :: acc.cone }

/-- PLAN of a range at a sink operator: the graph with its need sets, and the cone. -/
def plan (g : Graph) (hf : Nat → Nat) (sink : Nat) (rg : Prog) : Graph × List (BitVec 8 × List Nat) :=
  let d := opAt g sink
  let c := rg.clamp d.origin d.limit
  let n := g.ops.length
  let req := setAt (List.replicate n ([] : List Prog)) sink (if c.isEmpty then [] else c.parts)
  let r := (upTo n).reverse.foldl (planOp hf) { g := g, req := req, cone := [] }
  (r.g, r.cone)

/-- Union of cones. -/
def coneUnion (a b : List (BitVec 8 × List Nat)) : List (BitVec 8 × List Nat) :=
  b.foldl (fun acc c =>
    match takeFirst (fun (e : BitVec 8 × List Nat) => e.1 = c.1) acc with
    | none => acc ++ [c]
    | some (e, rest) => (e.1, unionPos c.2 e.2) :: rest) a

def coneAt (c : List (BitVec 8 × List Nat)) (x : Nat) : List Nat := (c.find? (fun e => e.1.toNat = x)).elim [] (·.2)

/-! ### Demands -/

/-- Live: accepted and not done. -/
def Demand.live (d : Demand) : Bool := !d.done

/-- Released: not held by DEP (R116). A previous demand whose record has been taken again had completed. -/
def released (x : Part) (d : Demand) : Bool :=
  match d.dep.toNat, d.prev with
  | 0, _ => true
  | _, none => true
  | 1, some a => (x.demands.find? (fun e => e.2.acc = a)).elim true (fun e => e.2.trig || e.2.done)
  | _, some a => (x.demands.find? (fun e => e.2.acc = a)).elim true (fun e => e.2.done)

/-- Live demands on a slot, with their records. -/
def liveOn (x : Part) (slot : Nat) : List (Nat × Demand) := x.demands.filter (fun d => d.2.live && d.2.slot = slot)

/-- In acceptance order. -/
def insertByAcc (d : Nat × Demand) : List (Nat × Demand) → List (Nat × Demand)
  | [] => [d]
  | e :: r => if d.2.acc < e.2.acc then d :: e :: r else e :: insertByAcc d r

def byAcc (l : List (Nat × Demand)) : List (Nat × Demand) := l.foldl (fun acc d => insertByAcc d acc) []

def modDemand (x : Part) (k : Nat) (f : Demand → Demand) : Part := { x with demands := tmod x.demands k f }

/-- The most urgent of some demands, the older on a tie (R119, R129). -/
def mostUrgent (l : List Demand) : Option Demand :=
  l.foldl (fun best d => match best with
    | none => some d
    | some b => if d.prio.toNat < b.prio.toNat || (d.prio = b.prio && d.acc < b.acc) then some d else some b) none

/-- Add 1 to a 32-bit counter. -/
def inc32 (w : Word) : Word := w + 1

/-- Count the completion of a demand in every record that counts it: the job and the phase record count the demands accepted since they
were cleared, so that ACPT − CMPL is the number of their live demands (R95; log entry 64). -/
def countDone (x : Part) (d : Demand) (cancelled : Bool) : Part :=
  let j := tget Job.reset x.jobs d.stream
  { x with
    graphs := tmod x.graphs d.slot (fun g => { g with cmpl := inc32 g.cmpl })
    jobs := if d.acc < j.since then x.jobs
      else tput x.jobs d.stream { j with cmpl := inc32 j.cmpl, ncan := if cancelled then inc32 j.ncan else j.ncan }
    phCmpl := if d.phn = x.phn then inc32 x.phCmpl else x.phCmpl }

/-- A demand completes or is cancelled (R95, R97, R115). -/
def finishDemand (x : Part) (k : Nat) (cancelled : Bool) : Part :=
  match tfind x.demands k with
  | none => x
  | some d =>
    if d.done then x
    else countDone (modDemand x k (fun d => { d with done := true, trig := d.trig || !cancelled, canc := cancelled })) d cancelled

/-- Saturated count (R95). -/
def sat32 (n : Nat) : Word := if n < 2 ^ 32 then BitVec.ofNat 32 n else 0xFFFFFFFF

/-- Requested positions are produced: DPOS counts each of them once, also when it is forgotten later (R115). -/
def Demand.got (d : Demand) (ps : List Nat) : Demand :=
  let lack := d.lack.filter (fun t => !ps.contains t)
  { d with lack := lack, dpos := sat32 (d.total - lack.length) }

/-- The executed positions of an armed unit. -/
def ArmUnit.pos (u : ArmUnit) (d : OpDesc) : List Nat :=
  let tb := d.origin + u.step * d.t
  ({ a := (tb + u.first : Nat), b := (tb + u.last : Nat), s := u.stride } : Prog).list

def meets (a b : List Nat) : Bool := a.any (fun x => b.contains x)

/-- Trigger and completion of the demands of a slot (R115): `trig` when no position of the cone remains unarmed and every
unit that holds one has triggered; done when every position is produced and no unit holding one remains armed. -/
def checkDemand (g : Graph) (x : Part) (e : Nat × Demand) : Part :=
  let d := e.2
  if !d.planned || d.done then x
  else
    let units := (opxs g).filterMap (fun o => (stAt g o).arm.map (fun u => (o, u, u.pos (opAt g o))))
    let mine := units.filter (fun u => meets u.2.2 (coneAt d.cone u.1))
    let trig := mine.all (fun u => u.2.1.trig)
      && d.left.all (fun c => c.2.all (fun t => units.any (fun u => u.1 = c.1.toNat && u.2.2.contains t)))
    let done := d.left.all (fun c => c.2.isEmpty) && mine.isEmpty
    let x := if trig then modDemand x e.1 (fun d => { d with trig := true }) else x
    if done then finishDemand x e.1 false else x

def checkSlot (x : Part) (slot : Nat) : Part :=
  match tfind x.graphs slot with
  | none => x
  | some g => (byAcc (liveOn x slot)).foldl (fun x e => checkDemand g x e) x

/-! ### Planning an accepted demand -/

/-- Plan one demand of the slot against the current production records (R106, R108, R117). -/
def planOne (hf : Nat → Nat) (x : Part) (slot k : Nat) : Part :=
  match tfind x.graphs slot, tfind x.demands k with
  | some g, some d =>
    if d.done then x
    else
      let (g', c) := plan g hf d.opx.toNat d.prog
      let cone := coneUnion d.cone c
      let left := coneUnion d.left c
      modDemand { x with graphs := tput x.graphs slot g' } k
        (fun d => { d with planned := true, cone := cone, left := left })
  | _, _ => x

/-- Plan the demands that wait on the slot, in acceptance order (R107 step 2). -/
def planWaiting (hf : Nat → Nat) (x : Part) (slot : Nat) : Part :=
  match tfind x.graphs slot with
  | none => x
  | some g =>
    let mine := g.waiting.filter (fun k => (tfind x.demands k).elim false (fun d => d.slot = slot && !d.planned))
    let x := mine.foldl (fun x k => planOne hf x slot k) x
    { x with graphs := tmod x.graphs slot (fun g => { g with waiting := [] }) }

/-- Does an operator still need a position: does its need set hold it, not yet produced in it? -/
def needs (g : Graph) (o t : Nat) : Bool := let st := stAt g o; inSet st.need t && !st.had.contains t

/-- Plan every live planned demand of the slot again (R105). What a demand still lacked and no rebuilt need set holds has been dropped by the
cancel: it is not waited for (R115). -/
def replan (hf : Nat → Nat) (x : Part) (slot : Nat) : Part :=
  match tfind x.graphs slot with
  | none => x
  | some g =>
    let g' := (opxs g).foldl (fun g o => modSt g o (fun o => { o with need := [], had := [] })) g
    let x := { x with graphs := tput x.graphs slot g' }
    let again := (byAcc (liveOn x slot)).filter (fun e => e.2.planned)
    let x := again.foldl (fun x e => planOne hf x slot e.1) x
    match tfind x.graphs slot with
    | none => x
    | some g => again.foldl (fun x e => modDemand x e.1 (fun d =>
        { d with left := d.left.map (fun c => (c.1, c.2.filter (needs g c.1.toNat))) })) x

/-- A reconfiguration has reloaded the graph of a slot: every live demand on it is planned again, in acceptance order, for the operator that
its sink now names; one whose sink names none is cancelled: DESIGN CHOICE (log entry 83) (R105). -/
def carryOver (hf : Nat → Nat) (x : Part) (slot : Nat) : Part :=
  match tfind x.graphs slot with
  | none => x
  | some g =>
    let live := byAcc (liveOn x slot)
    let x := { x with graphs := tput x.graphs slot { g with acpt := BitVec.ofNat 32 live.length } }
    checkSlot (live.foldl (fun x e => match (g.sinks.drop e.2.sink).head? with
      | none => finishDemand x e.1 true
      | some o => planOne hf (modDemand x e.1 (fun d => { d with opx := o, cone := [], left := [] })) slot e.1) x) slot

/-! ### Arm slots (R95, R96) -/

def armWordOf (slot opx : Nat) (u : ArmUnit) : DWord :=
  BitVec.ofNat 64 (2 ^ 63 + (if u.trig then 2 ^ 62 else 0) + u.rcnt % 256 * 2 ^ 54 + slot % 64 * 2 ^ 48 + opx % 256 * 2 ^ 40
    + u.step % 2 ^ 40)

/-- A unit leaves its slot: V becomes 0, the other fields stay (R96). -/
def leaveSlot (x : Part) (cell : Nat) : Part :=
  { x with armSlots := tset 0 x.armSlots cell (setBits (tget 0 x.armSlots cell) 63 1 0) }

/-- The lowest-numbered free slot (R96). -/
def freeSlot (x : Part) : Option Nat := (upTo 1024).find? (fun k => !bit (tget 0 x.armSlots k) 63)

/-- Abandon the armed units none of whose positions remains needed (R97). -/
def abandon (x : Part) (slot : Nat) : Part :=
  match tfind x.graphs slot with
  | none => x
  | some g =>
    (opxs g).foldl (fun x o =>
      let st := stAt g o
      match st.arm with
      | none => x
      | some u =>
        if (u.pos (opAt g o)).any (needs g o) then x
        else leaveSlot { x with graphs := tmod x.graphs slot (fun g => modSt g o (fun s => { s with arm := none })) } u.cell) x

/-! ### Cancels (R97, R118) -/

/-- Does a cancel name the demand? -/
def CancelReq.names (c : CancelReq) (d : Demand) : Bool :=
  match c with
  | .demand n => d.acc = n
  | .graph s => d.slot = s
  | .phase n upto => d.phn.toNat = n && d.acc < upto
  | .job v st upto => d.vf = v && d.stream = st && d.acc < upto

/-- Apply the cancels that have reached a slot: the named live demands are done and cancelled; the need sets are rebuilt if
any took effect (R97). -/
def applyCancels (hf : Nat → Nat) (x : Part) (slot : Nat) (cs : List CancelReq) : Part :=
  let hit := (liveOn x slot).filter (fun e => cs.any (fun c => c.names e.2))
  if hit.isEmpty then x
  else
    let x := hit.foldl (fun x e => finishDemand x e.1 true) x
    abandon (replan hf x slot) slot

/-! ### Candidates and arming (R109 to R111, R122) -/

/-- A candidate step (R109, R110). -/
structure Cand where
  step : Nat
  u : List Nat
  prio : BitVec 2
  age : Nat
  promoted : Bool
  deriving DecidableEq, Repr

/-- Unproduced positions of the need set, increasing: a position that was produced while its entry was in the set is not needed
again when its slot is reclaimed (R109, R397, R398). -/
def unproducedNeed (d : OpDesc) (o : OpState) : List Nat :=
  unionPos (o.need.flatMap (fun p => p.list.filter (fun t => !produced d o t && !o.had.contains t))) []

/-- The tile steps of some positions, increasing (R102). -/
def stepsOf (d : OpDesc) (ps : List Nat) : List Nat := unionPos (ps.map (fun t => (t - d.origin) / d.t)) []

/-- The candidates of operator `o` (R109). -/
def candidates (x : Part) (slot : Nat) (g : Graph) (o : Nat) : List Cand :=
  let d := opAt g o
  let st := stAt g o
  let us := unproducedNeed d st
  let live := liveOn x slot
  let all := (stepsOf d us).map (fun n => (n, us.filter (fun t => (t - d.origin) / d.t = n)))
  let all := if 2 ≤ d.scls.toNat then (if st.arm.isSome then [] else all.take 1) else all
  all.filterMap (fun nu =>
    let ds := (live.filter (fun e => released x e.2 && meets nu.2 (coneAt e.2.cone o))).map (·.2)
    match mostUrgent ds with
    | none => none
    | some b => some { step := nu.1, u := nu.2, prio := b.prio, age := b.acc, promoted := st.promoted.contains nu.1 })

/-- The order of R110. -/
def Cand.before (a b : Cand) : Bool :=
  if a.promoted != b.promoted then a.promoted
  else if a.prio ≠ b.prio then a.prio.toNat < b.prio.toNat
  else if a.age ≠ b.age then a.age < b.age
  else a.step < b.step

def insertCand (c : Cand) : List Cand → List Cand
  | [] => [c]
  | e :: r => if c.before e then c :: e :: r else e :: insertCand c r

def sortCands (l : List Cand) : List Cand := l.foldl (fun acc c => insertCand c acc) []

/-- The restart point of an operator of SCLS 2 or 4 whose first executed position is `f` (R122). -/
def restartPoint (d : OpDesc) (o : OpState) (f : Nat) : Nat :=
  if f = o.kpos then f
  else if d.scls = 2 then
    let q := (latestRecord o f).elim d.origin (fun t => max d.origin t)
    if o.kpos ≤ f then max q o.kpos else q
  else if o.kpos ≤ f then o.kpos else d.origin

/-- What a candidate executes: the tile step and the progression (R109, R122). -/
def execution (d : OpDesc) (o : OpState) (c : Cand) : Nat × Prog :=
  match hullOf (decide (2 ≤ d.scls.toNat)) c.u with
  | none => (c.step, Prog.empty)
  | some e =>
    if d.scls = 2 || d.scls = 4 then
      let q := restartPoint d o e.a.toNat
      let n := (q - d.origin) / d.t
      if n = c.step then (n, { a := q, b := e.b, s := 1 })
      else (n, { a := q, b := min ((d.origin + n * d.t + d.t - 1 : Nat) : Int) d.limit, s := 1 })
    else (c.step, e)

/-- Every position that the inputs need for the executed progression is produced (R109). -/
def inputsReady (g : Graph) (hf : Nat → Nat) (o : Nat) (e : Prog) : Bool :=
  (opAt g o).ins.all (fun i => !i.needs
    || (inputRange g hf o i e).list.all (fun t => produced (opAt g i.prod.toNat) (stAt g i.prod.toNat) t))

/-- Is a position of operator `o` read by an armed unit of a consumer, or needed by an unproduced position of a consumer's
need set (R109)? -/
def slotHeld (g : Graph) (hf : Nat → Nat) (o : Nat) (q : QSlot) : Bool :=
  (opxs g).any (fun c =>
    let d := opAt g c
    let st := stAt g c
    (d.ins.filter (fun i => i.needs && i.prod.toNat = o)).any (fun i =>
      (st.arm.elim false (fun u =>
        let tb := d.origin + u.step * d.t
        q.pos.any (fun t => (inputRange g hf c i { a := (tb + u.first : Nat), b := (tb + u.last : Nat), s := u.stride }).mem t)))
      || (unproducedNeed d st).any (fun p => q.pos.any (fun t => (inputRange g hf c i { a := p, b := p, s := 1 }).mem t))))

/-- The slots of a queue after room has been made for one more, or none when there is no free and no reclaimable slot: the
reclaimable slot of lowest tile step goes (R109). -/
def makeRoom (g : Graph) (hf : Nat → Nat) (o : Nat) : Option (List QSlot) :=
  let d := opAt g o
  let slots := (stAt g o).slots
  if d.qd = 0 || slots.length < d.qd then some slots
  else
    let free := slots.filter (fun q => !slotHeld g hf o q)
    match free with
    | [] => none
    | q :: r =>
      let low := r.foldl (fun (b : QSlot) (e : QSlot) => if e.step < b.step then e else b) q
      some (slots.erase low)

/-- The restart that arming asks for: nothing, cleared keepers, or the record of a table entry (R122). The unit that starts at
ORIGIN starts with cleared keepers. -/
def restoreOf (d : OpDesc) (o : OpState) (first : Nat) : Option Nat :=
  if !(d.scls = 2 || d.scls = 4) then none
  else if first = d.origin then some 99
  else if first = o.kpos then none
  else if o.hz.v && o.hz.time = first then some o.ck.length
  else (upTo o.ck.length).find? (fun j => (o.ck.drop j).head?.elim false (fun e => e.v && e.time = first))

/-- Arm one operator (R110): it stays armed, or its first armable candidate is armed. Of the candidates that a run of arming steps has passed
over, the one that R111 promotes is the oldest of those passed over at the last of them: DESIGN CHOICE (log entry 86). -/
def armOp (hf : Nat → Nat) (slot : Nat) (x : Part) (o : Nat) : Part :=
  match tfind x.graphs slot with
  | none => x
  | some g =>
    let d := opAt g o
    let st := stAt g o
    match st.arm with
    | some _ => x
    | none =>
      let cs := sortCands (candidates x slot g o)
      let armable := cs.filter (fun c =>
        inputsReady g hf o (execution d st c).2 && (makeRoom g hf o).isSome && (freeSlot x).isSome)
      match armable, makeRoom g hf o, freeSlot x with
      | c :: _, some slots, some cell =>
        let (n, e) := execution d st c
        let tb := d.origin + n * d.t
        let u : ArmUnit :=
          { step := n, first := e.a.toNat - tb, last := e.norm.b.toNat - tb, stride := if e.count ≤ 1 then 1 else e.s
            prio := c.prio, rcnt := 0, trig := false, cell := cell, fresh := true, took := st.slots.find? (fun q => !slots.contains q) }
        -- R111: less urgent armable candidates that are passed over
        let skipped := armable.filter (fun k => c.prio.toNat < k.prio.toNat)
        let oldest := skipped.foldl (fun (b : Option Cand) k => match b with
          | none => some k
          | some j => if k.age < j.age then some k else some j) none
        let passed := if skipped.isEmpty then 0 else st.passed + 1
        let st' := { st with slots := slots, arm := some u, passed := passed, passedBy := oldest.map (·.step)
                             promoted := st.promoted.filter (· ≠ c.step) }
        let g := putSt g o st'
        let rest := g.restore.filter (fun r => r.1.toNat ≠ o)
        let g := match restoreOf d st e.a.toNat with
          | none => { g with restore := rest }
          | some j => { g with restore := rest ++ [(BitVec.ofNat 8 o, j)] }
        { x with graphs := tput x.graphs slot g, armSlots := tset 0 x.armSlots cell (armWordOf slot o u) }
      | _, _, _ => x

/-- The arming step of a graph (R110). -/
def armGraph (hf : Nat → Nat) (x : Part) (slot : Nat) : Part :=
  match tfind x.graphs slot with
  | none => x
  | some g => (opxs g).foldl (armOp hf slot) x

/-- Is some operator armed? -/
def anyArmed (g : Graph) : Bool := (opxs g).any (fun o => (stAt g o).arm.isSome)

/-- Operators whose count of passed-over arming steps has reached 64 (R111). -/
def duePromotions (g : Graph) : List Nat := (opxs g).filter (fun o => 64 ≤ (stAt g o).passed)

/-- Does a need set hold a released, unproduced position (R113)? -/
def waitsForWork (x : Part) (slot : Nat) : Bool :=
  match tfind x.graphs slot with
  | none => false
  | some g =>
    let ds := (liveOn x slot).filter (fun e => released x e.2)
    (opxs g).any (fun o => (unproducedNeed (opAt g o) (stAt g o)).any (fun t => ds.any (fun e => (coneAt e.2.cone o).contains t)))

/-! ### Recording (R107 step 1, R115, R121) -/

/-- Positions produced leave the need sets and what is left of every demand (R105, R115). -/
def recordPositions (x : Part) (slot o : Nat) (ps : List Nat) : Part :=
  { x with demands := x.demands.map (fun e =>
      if e.2.slot = slot && e.2.live then
        (e.1, let left := e.2.left.map (fun c => if c.1.toNat = o then (c.1, c.2.filter (fun t => !ps.contains t)) else c)
              let d := { e.2 with left := left }
              if d.opx.toNat = o then d.got ps else d)
      else e) }

/-- Does a progression still hold a position that is neither produced nor among those just produced? -/
def stillNeeded (d : OpDesc) (o : OpState) (ps : List Nat) (q : Prog) : Bool :=
  q.list.any (fun t => !produced d o t && !ps.contains t && !o.had.contains t)

/-- The unit of operator `o` completes: its positions count as produced, its outputs enter its queue slot, it leaves its
arm-table slot (R93, R104). -/
def completeUnit (x : Part) (slot o : Nat) : Part :=
  match tfind x.graphs slot with
  | none => x
  | some g =>
    let d := opAt g o
    let st := stAt g o
    match st.arm with
    | none => x
    | some u =>
      let ps := u.pos d
      let st := if d.qd ≠ 0 then { st with slots := st.slots ++ [{ step := u.step, pos := ps }] } else ps.foldl enterPos st
      let need := st.need.filter (stillNeeded d st ps)
      let st := { st with need := need, had := (unionPos ps st.had).filter (inSet need), arm := none }
      recordPositions (leaveSlot { x with graphs := tput x.graphs slot (putSt g o st) } u.cell) slot o ps

/-- A committed round of an armed unit: RCNT, TRIG and KPOS (R115, R121), then completion when it is due (R93). The slot word is
rewritten while the unit stays armed; a unit that completes leaves it as last written, with V at 0 (R96). -/
def recordUnit (fins earlies : List (BitVec 8)) (portsDone : Nat → Bool) (slot : Nat) (x : Part) (o : Nat) : Part :=
  match tfind x.graphs slot with
  | none => x
  | some g =>
    let d := opAt g o
    let st := stAt g o
    match st.arm with
    | none => x
    | some u =>
      let u := { u with rcnt := u.rcnt + 1, fresh := false, trig := u.trig || earlies.contains (BitVec.ofNat 8 o) }
      let kpos := d.origin + u.step * d.t + u.last + 1
      let g := putSt g o { st with arm := some u, kpos := if d.scls = 2 || d.scls = 4 then kpos else st.kpos }
      let x := { x with graphs := tput x.graphs slot g }
      if d.rounds = 1 || fins.contains (BitVec.ofNat 8 o) || portsDone o then completeUnit x slot o
      else { x with armSlots := tset 0 x.armSlots u.cell (armWordOf slot o u) }

/-- Units that have run ROUNDS committed rounds without completing (R114). -/
def overRounds (g : Graph) : List Nat :=
  (opxs g).filter (fun o => (stAt g o).arm.elim false (fun u => (opAt g o).rounds ≤ u.rcnt))

end Sys2Proof.Machine
end

