-- ==== Sys2Proof/Machine/Ops.lean ====
section
/-! DEFINITION. Operations shared by many steps: hide words and hide operations (R191 to R193, R311, R361), fault reports
and taking a fault (R128 to R133, R351), stopping a graph (R132), voiding a round and what a replay starts from (R136). -/

namespace Sys2Proof.Machine

/-! ### Hide operations (R311, R361) -/

/-- The low and high half of a hide word. -/
def lowW (w : DWord) : Word := w.extractLsb' 0 32
def highW (w : DWord) : Word := w.extractLsb' 32 32

/-- Signed or unsigned order of lane words. -/
def ltW (n32 : Bool) (a b : Word) : Bool := if n32 then a.toNat < b.toNat else a.toInt < b.toInt

/-- What a hide operation makes of a word (R311, R361). Bits [63:32] stay unless the operation names them. -/
def hopApply (op : HOp) (w : DWord) : DWord :=
  match op with
  | .add x => highW w ++ (lowW w + x)
  | .max n x => highW w ++ (if ltW n (lowW w) x then x else lowW w)
  | .min n x => highW w ++ (if ltW n x (lowW w) then x else lowW w)
  | .cas c x => if lowW w = c then highW w ++ x else w
  | .xchg x => lowW w ++ x
  | .fadd x => highW w ++ addW (lowW w) x
  | .st false x => highW w ++ x
  | .st true x => x ++ lowW w
  | .sem .add x => w + x
  | .sem .set x => x
  | .sem .max x => if w.toNat < x.toNat then x else w
  | .sealPoint => w

/-- An access to a hide word of a partition asks the word's bank (R74, R82). -/
def hideRequest (s : State) (p off : Nat) (cls : BitVec 2) (port : Nat) : State := hideAsk s ((partOf s p).hideKey off / 65536) cls port

/-- Perform a hide operation at its bank (R192). -/
def performHide (s : State) (p off : Nat) (op : HOp) : State := hideWrite s p off (hopApply op (hideRead s p off))

/-! ### Who executes -/

def curPart (s : State) : Part := partOf s s.cur.part

def curGraph (s : State) : Option Graph := graphOf s s.cur.part s.cur.slot

def curCore (s : State) : Core := coreOf s s.cur.core

/-- Change the graph that executes. -/
def modCurGraph (s : State) (f : Graph → Graph) : State := modGraph s s.cur.part s.cur.slot f

def modCurCore (s : State) (f : Core → Core) : State := modCore s s.cur.core f

/-- The round counter of the graph that executes; 0 where there is none. -/
def curRc (s : State) : Nat := (curGraph s).elim 0 (·.rc)

/-! ### Fault classes (R130) -/

def cAbsent : BitVec 5 := 1
def cPerm : BitVec 5 := 2
def cAttr : BitVec 5 := 3
def cQuota : BitVec 5 := 4
def cPoison : BitVec 5 := 5
def cIndex : BitVec 5 := 6
def cScale : BitVec 5 := 7
def cEncode : BitVec 5 := 8
def cResidue : BitVec 5 := 9
def cDeadline : BitVec 5 := 10
def cUnderrun : BitVec 5 := 11
def cOverrun : BitVec 5 := 12
def cIllegal : BitVec 5 := 13
def cEngine : BitVec 5 := 14
def cTrap : BitVec 5 := 15
def cHard : BitVec 5 := 16

/-- What a fault says, before it is placed (R130). -/
structure FaultInfo where
  cls : BitVec 5
  detail : Nat
  info : DWord
  lane : Option Nat
  deriving DecidableEq, Repr

/-! ### Reports (R129) -/

/-- Armed operators of a graph, increasing. -/
def armedOps (g : Graph) : List Nat := (opxs g).filter (fun o => (stAt g o).arm.isSome)

/-- The stream of the most urgent live demand in a unit's cone, the older on a tie; 0 when there is none (R129). -/
def streamOfUnit (x : Part) (slot : Nat) (g : Graph) (o : Nat) : BitVec 3 :=
  match (stAt g o).arm with
  | none => 0
  | some u =>
    let ps := u.pos (opAt g o)
    (mostUrgent (((liveOn x slot).filter (fun e => meets ps (coneAt e.2.cone o))).map (·.2))).elim 0
      (fun d => BitVec.ofNat 3 d.stream)

/-- The stream of the most urgent live demand on a slot, for a report that names no unit. DESIGN CHOICE (log entry 10). -/
def streamOfSlot (x : Part) (slot : Nat) : BitVec 3 :=
  (mostUrgent ((liveOn x slot).map (·.2))).elim 0 (fun d => BitVec.ofNat 3 d.stream)

/-- The class in which the traffic of an operator's unit travels: that of its demand (R84). -/
def unitClass (g : Graph) (o : Nat) : BitVec 2 := (stAt g o).arm.elim 3 (·.prio)

/-- A report that names the unit of operator `o` (R129). -/
def unitReport (x : Part) (slot : Nat) (g : Graph) (o : Nat) (f : FaultInfo) (core elem li rc eng : Nat) : Report :=
  let u := (stAt g o).arm
  { cls := f.cls, detail := BitVec.ofNat 16 f.detail, info := f.info, slot := BitVec.ofNat 6 slot, opx := BitVec.ofNat 8 o
    step := BitVec.ofNat 40 (u.elim 0 (·.step)), round := BitVec.ofNat 8 (u.elim 0 (·.rcnt)), core := BitVec.ofNat 6 core
    elem := BitVec.ofNat 7 elem, li := BitVec.ofNat 12 li, rc := BitVec.ofNat 12 rc
    lane := BitVec.ofNat 5 (f.lane.getD 0), lv := f.lane.isSome, eng := BitVec.ofNat 4 eng
    stream := streamOfUnit x slot g o }

/-- A report tied to no unit: OPX 0xFF, STEP 0, ROUND 0 (R351). -/
def plainReport (x : Part) (slot : Nat) (f : FaultInfo) (core li rc eng : Nat) : Report :=
  { cls := f.cls, detail := BitVec.ofNat 16 f.detail, info := f.info, slot := BitVec.ofNat 6 slot, opx := 0xFF, step := 0, round := 0
    core := BitVec.ofNat 6 core, elem := 127, li := BitVec.ofNat 12 li, rc := BitVec.ofNat 12 rc
    lane := BitVec.ofNat 5 (f.lane.getD 0), lv := f.lane.isSome, eng := BitVec.ofNat 4 eng, stream := streamOfSlot x slot }

/-- The three words of an iteration vector (R129). -/
def reportW1 (r : Report) : DWord := r.slot ++ r.opx ++ r.step ++ r.round ++ (0 : BitVec 2)
def reportW2 (r : Report) : DWord :=
  r.core ++ r.elem ++ r.li ++ r.rc ++ r.lane ++ BitVec.ofBool r.lv ++ r.eng ++ (0 : BitVec 1) ++ r.detail

/-- The FAULT event of a report (R67, R129, R130). -/
def reportEvent (r : Report) : Event :=
  { code := r.cls.zeroExtend 32, tag := 0, stream := r.stream, type := 0x06, w1 := reportW1 r, w2 := reportW2 r, w3 := r.info, irq := true }

/-- The first of two faults of a round: lowest RC, core, sequencer before elements, element, lane (R128). -/
def reportBefore (a b : Report) : Bool :=
  let k (r : Report) : Nat :=
    (((r.rc.toNat * 64 + r.core.toNat) * 128 + (if r.elem = 127 then 0 else r.elem.toNat + 1)) * 32) + r.lane.toNat
  k a < k b

/-- Does HITCH_ARM select the report (R90)? -/
def hitchSelects (s : State) (p : Nat) (r : Report) : Bool :=
  bit s.hitchArm 62 && bitsN s.hitchArm 57 5 = r.cls.toNat && bitsN s.hitchArm 51 6 = p

/-- Is a report of the class forwarded to the VF's event ring (R130)? ABSENT, UNDERRUN, OVERRUN and RESIDUE resolve
themselves. -/
def forwards (c : BitVec 5) : Bool := !(c = cAbsent || c = cResidue || c = cUnderrun || c = cOverrun)

/-- Place a report in the fault queue and forward it; a report that HITCH_ARM selects triggers HITCH (R89, R90, R129, R130). -/
def queueReport (s : State) (p : Nat) (fwd : Bool) (r : Report) : State :=
  let s := modPart s p (fun x => { x with faultQ := x.faultQ ++ [r] })
  let x := partOf s p
  let vf := match tfind x.graphs r.slot.toNat with
    | some g => g.vf
    | none => x.vf
  let s := if fwd then postEvent s vf (reportEvent r) else s
  if hitchSelects s p r then stopClocks s else s

/-! ### Graphs at rest -/

/-- Idle: no round in flight, not in boundary work or its section (R106); a graph whose voided round awaits its replay holds
its demands (R107). -/
def Graph.idle (g : Graph) : Bool :=
  (match g.run with
   | .idle | .ready => true
   | .round | .ended | .heldCommit | .boundary | .sect => false) && !g.lastVoid

/-- After an arming step on an idle graph, a start pulse may follow if an operator is armed. -/
def settle (g : Graph) : Graph :=
  match g.run with
  | .idle => if anyArmed g then { g with run := .ready } else g
  | .ready => if anyArmed g then g else { g with run := .idle }
  | _ => g

/-- Promotions that have fallen due at an arming step happen at once (R111). -/
def raisePromotions (s : State) (p slot : Nat) : State :=
  match graphOf s p slot with
  | none => s
  | some g =>
    (duePromotions g).foldl (fun s o => addUrgent s (.promotion (BitVec.ofNat 6 p) (BitVec.ofNat 6 slot) (BitVec.ofNat 8 o))) s

/-- The arming step of a graph that has no round: it becomes ready when an operator is armed. -/
def armOnce (s : State) (p slot : Nat) (g : Graph) : State :=
  raisePromotions (modGraph (putPart s p (armGraph (histFrontier s p g) (partOf s p) slot)) p slot settle) p slot

/-- The arming step of an idle graph, without a commit. Where the start pulse for which demands were waiting does not issue, because nothing is
armed any more, they are planned as for an idle graph (R106). -/
def armIdle (s : State) (p slot : Nat) : State :=
  match graphOf s p slot with
  | none => s
  | some g =>
    if !g.idle then s
    else
      let s := armOnce s p slot g
      match graphOf s p slot with
      | none => s
      | some g =>
        if g.run ≠ .idle || g.waiting.isEmpty then s
        else armOnce (putPart s p (checkSlot (planWaiting (histFrontier s p g) (partOf s p) slot) slot)) p slot g

/-- The live demands of a partition that are released. -/
def releasedAccs (x : Part) : List Nat := (x.demands.filter (fun e => e.2.live && released x e.2)).map (·.2.acc)

/-- Arm the idle graphs on which a demand has been released since `before` was taken (R116). -/
def armReleased (s : State) (p : Nat) (before : List Nat) : State :=
  let x := partOf s p
  let fresh := x.demands.filter (fun e => e.2.live && e.2.dep ≠ 0 && released x e.2 && !before.contains e.2.acc)
  (unionPos (fresh.map (·.2.slot)) []).foldl (fun s g => armIdle s p g) s

/-! ### Stopping a graph (R132) -/

/-- Every live demand on the slot is cancelled as a graph-level cancel would do it, and the armed units are abandoned. -/
def cancelSlot (s : State) (p slot : Nat) : State :=
  match graphOf s p slot with
  | none => s
  | some g =>
    let before := releasedAccs (partOf s p)
    let x := applyCancels (histFrontier s p g) (partOf s p) slot [.graph slot]
    let x := abandon x slot
    let s := putPart s p { x with graphs := tmod x.graphs slot (fun g =>
      { g with waiting := [], late := [], cancels := [], restore := [] }) }
    armReleased s p before

/-- The graph is stopped: its demands are cancelled, it stays resident and idle (R132). A section under way on a core runs to its
own end (R349, R133). DEDUCED (log 71). -/
def stopGraph (s : State) (p slot : Nat) : State :=
  let s := cancelSlot s p slot
  modGraph s p slot (fun g =>
    { g with stopped := true, stopNext := false, lastVoid := false, hold := none, fault := none
             run := (match g.run with
               | .round | .ended | .heldCommit | .sect => g.run
               | .idle | .boundary | .ready => .idle) })

/-- The boundary section of a core ends, and the graph is stopped (R351, R364). -/
def stopSection (s : State) (p slot core : Nat) : State :=
  stopGraph (modCore s (coreNo core) (fun k => { k with secOn := false, secWait := false, secCount := 0 })) p slot

/-- Has a round of the graph begun whose recording step has not been performed? -/
def Graph.inFlight (g : Graph) : Bool :=
  match g.run with
  | .round | .ended | .heldCommit | .boundary => true
  | .idle | .sect | .ready => false

/-- Stop a graph now, or at the recording step of the round in flight (R132). -/
def stopSoon (s : State) (p slot : Nat) : State :=
  match graphOf s p slot with
  | none => s
  | some g => if g.inFlight then modGraph s p slot (fun g => { g with stopNext := true }) else stopGraph s p slot

/-! ### Taking a fault -/

/-- Where a fault arises: in a round, which it voids (R128); in a boundary section, which it ends (R351); outside the
graph's rounds (R133). -/
inductive Site where
  | round | boundary | outside
  deriving DecidableEq, Repr

/-- TAKING A FAULT. In a round the first fault in the order of R128 is kept, and the round is voided when it ends. In a
boundary section the report is queued, the core's section ends and the graph is stopped without a replay. A POISON that met unreadable
metadata poisons the frame too (R160). Outside rounds the report is queued and the graph is stopped, at the recording step of a round in flight. -/
def takeFault (site : Site) (s : State) (p slot : Nat) (r : Report) : State :=
  let s := if r.cls = cPoison && s.mdtBad.contains (r.info.toNat / 256) then
      addUrgent s (.framePoison ⟨BitVec.ofNat 32 (r.info.toNat / 65536), .unread⟩) else s
  match site with
  | .round =>
    modGraph s p slot (fun g =>
      if g.fault.elim true (fun q => reportBefore r q) then { g with fault := some r, hit := none } else g)
  | .boundary => stopSection (queueReport s p true r) p slot r.core.toNat
  | .outside => stopSoon (queueReport s p true r) p slot

/-- A fault of a round, with what its access has met. -/
def takeHit (s : State) (p slot : Nat) (r : Report) (h : Option Hit) : State :=
  modGraph (takeFault .round s p slot r) p slot (fun g => if g.fault = some r then { g with hit := h } else g)

/-- The report of a fault that an element raises in a round (R129). -/
def elemReport (s : State) (f : FaultInfo) : Report :=
  let x := curPart s
  match curGraph s with
  | none => plainReport x s.cur.slot f s.cur.core.val s.cur.li 0 0
  | some g =>
    unitReport x s.cur.slot g (Fin.ofNat 96 s.cur.elem |> elemOf (curCore s)).opx.toNat f s.cur.core.val s.cur.elem s.cur.li g.rc 0

/-- The report of a fault that a timed sequencer entry or a free port raises: it names the unit of the lowest armed operator
(R129). -/
def seqReport (s : State) (f : FaultInfo) : Report :=
  let x := curPart s
  match curGraph s with
  | none => plainReport x s.cur.slot f s.cur.core.val s.cur.li 0 0
  | some g =>
    match armedOps g with
    | o :: _ => unitReport x s.cur.slot g o f s.cur.core.val 127 s.cur.li g.rc 0
    | [] => plainReport x s.cur.slot f s.cur.core.val s.cur.li g.rc 0

/-- The report of a boundary fault: ELEM 127, RC 0xFFF, OPX 0xFF, STEP 0, ROUND 0 (R351). -/
def boundaryReport (s : State) (f : FaultInfo) : Report :=
  plainReport (curPart s) s.cur.slot f s.cur.core.val s.cur.li 0xFFF 0

/-- Does the step in execution belong to a boundary section? -/
def inSection (s : State) : Bool := (curGraph s).elim false (fun g => g.run = .sect)

/-- An element's entry faults: its round will be voided. -/
def faultElem (s : State) (f : FaultInfo) : State := takeFault .round s s.cur.part s.cur.slot (elemReport s f)

/-- A sequencer entry faults, in the timed part or in the boundary section. -/
def faultSeq (s : State) (f : FaultInfo) : State :=
  if inSection s then takeFault .boundary s s.cur.part s.cur.slot (boundaryReport s f)
  else takeFault .round s s.cur.part s.cur.slot (seqReport s f)

/-- The fault of an entry that stands where it may not: ILLEGAL with the entry's 64 bits (R266). -/
def illegalInfo (w : DWord) : FaultInfo := { cls := cIllegal, detail := 0, info := w, lane := none }

/-- The word of the entry in execution. -/
def curWord (s : State) : DWord :=
  let k := curCore s
  if s.cur.elem < 96 then ((elemOf k (Fin.ofNat 96 s.cur.elem)).list.drop s.cur.li).headD 0 else (k.seqList.drop s.cur.li).headD 0

/-- An entry reached in the wrong kind of list (R266, R366). -/
def illegal (s : State) : State :=
  if s.cur.elem < 96 then faultElem s (illegalInfo (curWord s)) else faultSeq s (illegalInfo (curWord s))

/-- A sequencer entry; in an element list it is ILLEGAL (R266). -/
def seqGo (s : State) (f : State → State) : State := if s.cur.elem < 96 then illegal s else f s

/-- An entry of the boundary section alone; at a timed stamp it is ILLEGAL (R366). -/
def bndGo (s : State) (f : State → State) : State := seqGo s (fun s => if inSection s then f s else illegal s)

/-- An entry of the timed part alone; in the boundary section it is ILLEGAL (R366). -/
def timedGo (s : State) (f : State → State) : State := seqGo s (fun s => if inSection s then illegal s else f s)

/-! ### Voiding and replay (R136) -/

/-- What a round holds back is discarded; registers, keepers, flags, counters, CTX and accumulators return to their values
at round start, and so do the list indices; ports are rewound (R136, R137). -/
def voidCore (k : Core) : Core :=
  let k := allElems k (fun _ e => { e with r := e.start, li := 0 })
  { k with
    seqLi := 0, lineNow := [], lineNext := [], sad := [], weights := [], stores := [], hideOps := [], held := [], bankOps := [], gainsHeld := []
    khors := [], fins := [], earlies := [], cnts := [], units := 0
    ports := Vector.ofFn (fun i =>
      let q := k.ports[i]
      { q with pos := q.pos0, step := q.step0, fin := q.fin0, slow := false }) }

/-- The units that a voided round had taken at issue return to the quota counter at once (R174). -/
def unitsTaken (s : State) (cs : List Nat) : Nat := cs.foldl (fun n c => n + (coreOf s (coreNo c)).units) 0

/-- Void the round in flight of a graph: nothing of it stays (R136). The arm words stay, so that a replay runs the same
units; RVOID counts the round. -/
def voidRound (s : State) (p slot : Nat) : State :=
  match graphOf s p slot with
  | none => s
  | some g =>
    let back := unitsTaken s g.cores
    let s := modCores s g.cores voidCore
    let s := passTokens (modPart s p (fun x => { x with quota := x.quota + back })) g.cores
    modGraph s p slot (fun g => { g with run := .boundary, bndLeft := 8, lastVoid := true, rc := 0, todo := [], rvoid := inc32 g.rvoid })

/-- THE RETURN FROM A FAULT: a round that stands voided runs again once nothing holds it (R107, R130). -/
def releaseHold (s : State) (p slot : Nat) : State := modGraph s p slot (fun g => { g with hold := none })

/-! ### Accepting a demand (R60, R106, R115, R117, R119) -/

/-- What a DEMAND packet or a `demand` entry asks for, with the class and the job that it takes. -/
structure Ask where
  slot : Nat
  sink : Nat
  rel : Bool
  a : Nat
  b : Nat
  stride : Nat
  prio : BitVec 2
  vf : Nat
  stream : Nat
  dnum : Word
  dep : BitVec 2
  prev : Option Nat

/-- Does the slot hold a graph, and the sink name one of its sinks (R60)? -/
def askNames (x : Part) (slot sink : Nat) : Bool := (tfind x.graphs slot).elim false (fun g => sink < g.sinks.length)

/-- The demand as it is accepted: its range from the sink's frontier with REL, the positions that are not produced yet (R60,
R106, R115). -/
def newDemand (x : Part) (g : Graph) (q : Ask) : Demand :=
  let o := (g.sinks.drop q.sink).headD 0
  let d := opAt g o.toNat
  let st := stAt g o.toNat
  let f := if q.rel then frontier d st else 0
  let rg : Prog := { a := (f + q.a : Nat), b := (f + q.b : Nat), s := q.stride }
  let c := rg.clamp d.origin d.limit
  let left := c.list.filter (fun t => !produced d st t)
  { slot := q.slot, sink := q.sink, opx := o, prog := rg, prio := q.prio, acc := x.nextAcc, vf := q.vf, stream := q.stream, dnum := q.dnum, dep := q.dep
    prev := q.prev, phn := x.phn, planned := false, cone := [], left := if left.isEmpty then [] else [(o, left)]
    npos := sat32 c.count, total := c.count, lack := left, dpos := sat32 (c.count - left.length), done := false, trig := false, canc := false }

/-- Count an acceptance in every record that counts it (R95). -/
def countAccept (x : Part) (slot stream : Nat) : Part :=
  let j := tget Job.reset x.jobs stream
  { x with
    nextAcc := x.nextAcc + 1, phAcpt := inc32 x.phAcpt, jobs := tput x.jobs stream { j with acpt := inc32 j.acpt }
    graphs := tmod x.graphs slot (fun g => { g with acpt := inc32 g.acpt }) }

/-- ACCEPTING A DEMAND into record `k`: it is counted; with nothing left to produce it completes at once; on an idle graph it
is planned at once and the graph is armed; else it waits for its graph's next recording step: in boundary work, whose recording step is under
way, for the one after it or for the end of the section (R106, R117, R119). -/
def acceptDemand (s : State) (p k : Nat) (q : Ask) : State :=
  match graphOf s p q.slot with
  | none => s
  | some g =>
    let x := partOf s p
    let d := newDemand x g q
    let x := countAccept { x with demands := tput x.demands k d } q.slot q.stream
    if d.left.isEmpty then putPart s p (finishDemand x k false)
    else if g.idle then
      armIdle (putPart s p (checkSlot (planOne (histFrontier s p g) x q.slot k) q.slot)) p q.slot
    else putPart s p { x with graphs := tmod x.graphs q.slot (fun g =>
      if g.run = .boundary then { g with late := g.late ++ [k] } else { g with waiting := g.waiting ++ [k] }) }

/-! ### Posting a cancel (R97, R118) -/

/-- The slots on which a cancel finds live demands. -/
def cancelSlots (x : Part) (c : CancelReq) : List Nat :=
  unionPos ((x.demands.filter (fun e => e.2.live && c.names e.2)).map (·.2.slot)) []

/-- A cancel reaches one slot: an idle graph applies it at once and is armed; else it waits for the recording step. -/
def cancelOn (s : State) (p : Nat) (c : CancelReq) (slot : Nat) : State :=
  match graphOf s p slot with
  | none => s
  | some g =>
    if g.idle then armIdle (putPart s p (checkSlot (applyCancels (histFrontier s p g) (partOf s p) slot [c]) slot)) p slot
    else modGraph s p slot (fun g => { g with cancels := g.cancels ++ [c] })

/-- POSTING A CANCEL: it acts on every slot that has a live demand it names; demands that it releases are armed (R97, R116). -/
def postCancel (s : State) (p : Nat) (c : CancelReq) : State :=
  let before := releasedAccs (partOf s p)
  armReleased ((cancelSlots (partOf s p) c).foldl (fun s g => cancelOn s p c g) s) p before

/-- The cancel that a level and its operands name (R64, R359); a record or a number without a live demand names nothing. -/
def cancelOf (x : Part) (level : CLevel) (rec' : Option Nat) (slot vf stream : Nat) : Option CancelReq :=
  match level with
  | .demand => (rec'.bind (fun k => tfind x.demands k)).map (fun d => .demand d.acc)
  | .graph => some (.graph slot)
  | .phase => some (.phase x.phn.toNat x.nextAcc)
  | .job => some (.job vf stream x.nextAcc)

/-! ### Waiting (R113) -/

/-- One more fc in the wait counter; at BUDGET the wait has expired (R113). Only a start pulse clears the counter. -/
def bumpWait (s : State) (p slot : Nat) : State :=
  match graphOf s p slot with
  | none => s
  | some g =>
    let s := modGraph s p slot (fun g => { g with waitCnt := g.waitCnt + 1 })
    if g.budget ≤ g.waitCnt + 1 && !g.stopNext then addUrgent s (.waitBudgetExpiry (BitVec.ofNat 6 p) (BitVec.ofNat 6 slot)) else s

end Sys2Proof.Machine
end

