-- ==== Sys2Proof/Machine/Flags.lean ====
section
/-! DEFINITION. Flags and counters of an element: the sticky flags (R240, R281), the matrix exception counter (R218), the
STATUS word (R138). Working values stand in the element's registers and become committed with the round (R136). -/

namespace Sys2Proof.Machine

/-- Set sticky flags in the round's shadow (R240). -/
def addFlags (r : ElemRegs) (f : Flags) : ElemRegs := { r with flags := r.flags ||| f }

/-- Set the sticky substitution flag (R223). -/
def addIxz (r : ElemRegs) (b : Bool) : ElemRegs := { r with ixz := r.ixz || b }

/-- Set the GUF of keeper `j` (R221). -/
def addGuf (r : ElemRegs) (j : Fin 4) (b : Bool) : ElemRegs :=
  if b then { r with guf := r.guf ||| BitVec.ofNat 4 (2 ^ j.val) } else r

/-- Clear the GUF of keeper `j`. -/
def clearGuf (r : ElemRegs) (j : Fin 4) : ElemRegs := { r with guf := r.guf &&& ~~~(BitVec.ofNat 4 (2 ^ j.val)) }

/-- Count accumulator updates whose result is a NaN or an infinity; the counter saturates (R218). -/
def addExc (r : ElemRegs) (n : Nat) : ElemRegs :=
  let v := r.exc.toNat + n
  { r with exc := if v < 65536 then BitVec.ofNat 16 v else 0xFFFF }

/-- Is a lane word an FP32 NaN or infinity? -/
def isExceptional (w : Word) : Bool := w &&& 0x7F800000 == 0x7F800000

/-- FLAGS as the sequencer reads it (R281). -/
def flagsWord (r : ElemRegs) : Word := r.flags.zeroExtend 32

/-- Bits [63:0] of the STATUS word (R138). -/
def statusLow (x : Element) : DWord :=
  flagsWord x.r ++ x.r.exc ++ x.r.guf ++ BitVec.ofBool x.r.ixz ++ BitVec.ofBool x.sad ++ x.form ++ (0 : BitVec 2) ++ x.r.ctx

/-- The flags of the enabled lanes together (R281). -/
def laneFlags (en : Word) (q : Vector (Word × Flags) 32) : Flags :=
  (List.finRange 32).foldl (fun acc i => if en.getLsbD i.val then acc ||| q[i].2 else acc) 0

/-! ### Places of an element (R199, R204, R205) -/

/-- Row and column of an element in the 8 × 12 grid. -/
def elemRow (e : Nat) : Nat := e / 12
def elemCol (e : Nat) : Nat := e % 12

/-- The line that an element names as hl, and as vl (R204). -/
def hLine (e : Fin 96) : Fin 20 := Fin.ofNat 20 (elemRow e.val)
def vLine (e : Fin 96) : Fin 20 := Fin.ofNat 20 (8 + elemCol e.val)

/-- The core and the element that an element faces across an edge of its core: 0 north, 1 south, 2 east, 3 west (R203). -/
def beyondEdge (c : Fin 64) (e : Fin 96) (d : Fin 4) : Option (Fin 64 × Fin 96) :=
  let y := coordY c.val
  let x := coordX c.val
  let at' (n : Option Nat) (row col : Nat) := n.map (fun n => (coreNo n, Fin.ofNat 96 (12 * row + col)))
  match d with
  | 0 => at' (coreAt (y - 1) x) 7 (elemCol e.val)
  | 1 => at' (coreAt (y + 1) x) 0 (elemCol e.val)
  | 2 => at' (coreAt y (x + 1)) (elemRow e.val) 0
  | 3 => at' (coreAt y (x - 1)) (elemRow e.val) 11

/-- Fabric cycles of an edge transfer of the graph that holds a core (R78). -/
def edgeDelay (s : State) (c : Fin 64) : Nat :=
  if ((coreOf s c).owner.bind (fun o => graphOf s o.1 o.2)).elim false (·.xd) then 12 else 3

/-- The result register of the element across an edge, as it stood at the end of fc s − 1 − E (R203). -/
def edgeRead (s : State) (c : Fin 64) (e : Fin 96) (d : Fin 4) : Lanes :=
  (beyondEdge c e d).elim Lanes.zero (fun n => ((elemOf (coreOf s n.1) n.2).r.hist.drop (edgeDelay s c)).headD Lanes.zero)

/-! ### Residues (R5, R205) -/

/-- The residue of a lane word (R205). -/
def residue (w : Word) : BitVec 3 := BitVec.ofNat 3 (w.toNat % 7)

/-- The word at a place before an element. -/
def wordIn (s : State) (c : Fin 64) (e : Fin 96) (w : RWord) : Word :=
  let k := coreOf s c
  let r := (elemOf k e).r
  match w.place with
  | .v n => r.v[n][w.lane]
  | .s n => r.s[n][w.lane]
  | .kState j => r.k[j].state[w.lane]
  | .kGain j => r.k[j].gain[w.lane]
  | .res o => (elemOf k o).r.res[w.lane]
  | .acc => r.accW[w.lane]
  | .gain => r.gains[w.lane]
  | .m => r.m[Fin.ofNat 8 w.lane.val]
  | .line n => (tget Lanes.zero k.lineNow n.val)[w.lane]
  | .alu => (r.pipe.getLast?.elim Lanes.zero (·.val))[w.lane]
  | .edge d => (edgeRead s c e d)[w.lane]

/-- The element that holds the residue of a word: a line's stands with the first element of its row or column. -/
def resHolder (w : RWord) (e : Fin 96) : Fin 96 :=
  match w.place with
  | .res o => o
  | .line n => if n.val < 8 then Fin.ofNat 96 (12 * n.val) else Fin.ofNat 96 (n.val - 8)
  | _ => e

/-- Are two places one of the same element? Every result register in an element's record is its own. -/
def samePlace (a b : RPlace) : Bool := match a, b with | .res _, .res _ => true | a, b => a = b

/-- The mask of one lane. -/
def oneLane (n : Nat) : Word := 1 <<< (n % 32)

/-- Do the lanes of some places hold the word? -/
def covers (cells : List (RPlace × Word)) (w : RWord) : Bool := cells.any (fun c => samePlace c.1 w.place && c.2.getLsbD w.lane.val)

/-- Lanes of a place beside those that the round has rewritten already. -/
def noteWrite (l : List (RPlace × Word)) (c : RPlace × Word) : List (RPlace × Word) :=
  if c.2 = 0 then l
  else if l.any (·.1 = c.1) then l.map (fun x => if x.1 = c.1 then (x.1, x.2 ||| c.2) else x)
  else l ++ [c]

/-- Words that the round writes come with their own residues (R205). -/
def ElemRegs.rewrite (r : ElemRegs) (cells : List (RPlace × Word)) : ElemRegs :=
  { r with resid := r.resid.filter (fun x => !covers cells x.1), wrote := cells.foldl noteWrite r.wrote }

/-- Words that are gone, or that are set outside the entries of a round, come with their own residues. -/
def ElemRegs.forget (r : ElemRegs) (f : RWord → Bool) : ElemRegs := { r with resid := r.resid.filter (fun x => !f x.1) }

/-- Does the word stand where an earlier round committed it: in a register, a keeper, an accumulator, and not rewritten in this round (R134)? -/
def isCommitted (s : State) (c : Fin 64) (e : Fin 96) (w : RWord) : Bool :=
  match w.place with
  | .line _ | .alu | .edge _ => false
  | _ => !covers (elemOf (coreOf s c) (resHolder w e)).r.wrote w

/-- The list of residues with one beside a word: where it is the word's own, none is listed. -/
def putResid (l : List (RWord × BitVec 3)) (w : RWord) (word : Word) (held : BitVec 3) : List (RWord × BitVec 3) :=
  l.filter (fun x => x.1 ≠ w) ++ (if residue word = held then [] else [(w, held)])

/-- A residue comes to stand beside a word; a cell that an earlier round committed keeps it through a void. -/
def holdResid (s : State) (c : Fin 64) (e : Fin 96) (w : RWord) (held : BitVec 3) : State :=
  let word := wordIn s c e w
  let old := isCommitted s c e w
  modCore s c (fun k => modElem k (resHolder w e) (fun x =>
    { x with
      r := { x.r with resid := putResid x.r.resid w word held }
      start := if old then { x.start with resid := putResid x.start.resid w word held } else x.start }))

/-- The residues that do not fit among the words before an element: its own, those of the results of its neighbours, in the core and across
an edge, and those of its lines (R203 to R205). -/
def residsBefore (s : State) (c : Fin 64) (e : Fin 96) : List (RWord × BitVec 3) :=
  let k := coreOf s c
  let of (x : Fin 96) (f : RPlace → Bool) := (elemOf k x).r.resid.filter (fun h => f h.1.place)
  let line (n : Fin 20) := of (resHolder ⟨.line n, 0⟩ e) (· = .line n)
  let near (d : Fin 4) (inner : Bool) (x : Nat) : List (RWord × BitVec 3) :=
    if inner then of (Fin.ofNat 96 x) (fun p => match p with | .res _ => true | _ => false)
    else (beyondEdge c e d).elim [] (fun n =>
      (((elemOf (coreOf s n.1) n.2).r.histRes.drop (edgeDelay s c)).headD []).map (fun h => (⟨.edge d, h.1.lane⟩, h.2)))
  of e (fun p => match p with | .res _ | .line _ => false | _ => true) ++ line (hLine e) ++ line (vLine e)
    ++ near 0 (elemRow e.val ≠ 0) (e.val - 12) ++ near 1 (elemRow e.val ≠ 7) (e.val + 12)
    ++ near 2 (elemCol e.val ≠ 11) (e.val + 1) ++ near 3 (elemCol e.val ≠ 0) (e.val - 1)

/-- Of the words that an element reads, each for a lane, the one of the lowest lane beside which another residue than its own stands
(R128, R205, R282). -/
def residAt (s : State) (c : Fin 64) (e : Fin 96) (f : RWord → Option (Fin 32)) : Option (Fin 32 × RWord × BitVec 3) :=
  ((residsBefore s c e).filterMap (fun h => (f h.1).map (fun n => (n, h)))).foldl (fun b x => match b with
    | none => some x
    | some y => if x.1 < y.1 then some x else some y) none

/-- Element `e` reads a word, at list index `li`: one that its residue does not fit is checked at once (R134, R205). -/
def residueRead (c : Fin 64) (e : Fin 96) (li : Nat) (h : Fin 32 × RWord × BitVec 3) : Instr :=
  .residueLimit c { elem := e, li := BitVec.ofNat 12 li, word := h.2.1, held := h.2.2, read := true, lane := BitVec.ofNat 5 h.1.val, port := none }

/-- The word in its own lane, where the place is the one. -/
def inPlace (p : RPlace → Bool) (w : RWord) : Option (Fin 32) := if p w.place then some w.lane else none

/-- The array reads words of some elements (R205, R218, R332). -/
def saddleRead (s : State) (li : Nat) (es : List (Fin 96)) (f : Fin 96 → RWord → Option (Fin 32)) : State :=
  match es.findSome? (fun e => (residAt s s.cur.core e (f e)).map (fun h => (e, h))) with
  | some x => addUrgent s (residueRead s.cur.core x.1 li x.2)
  | none => s

/-- A stream port reads a line (R204, R205): the residues beside its words are held with the first element of the line. -/
def portReads (s : State) (i : Fin 16) (line : Fin 20) : State :=
  let e := resHolder ⟨.line line, 0⟩ 0
  match residAt s s.cur.core e (inPlace (· = .line line)) with
  | some h => addUrgent s (.residueLimit s.cur.core
      { elem := e, li := BitVec.ofNat 12 s.cur.li, word := h.2.1, held := h.2.2, read := true, lane := 0, port := some i })
  | none => s

end Sys2Proof.Machine
end

