-- ==== Sys2Proof/Machine/Operands.lean ====
section
/-! DEFINITION. Operand forms of an element entry: sources (R262), modifiers (R264), negation by type (R264, R279), the
guard of a predicate block (R260), destinations and the results in flight (R263, R267, R278), and the frame in which every
element instruction runs. -/

namespace Sys2Proof.Machine

/-! ### What an entry sees and leaves -/

/-- An element entry as it fires: core, element, its registers with the guard advanced, the enabled lanes, the stamp. -/
structure EView where
  s : State
  k : Core
  e : Fin 96
  r : ElemRegs
  en : Word
  rc : Nat

/-- What an entry leaves: the registers with its result in flight, what it buffers, or a fault. -/
structure EOut where
  r : ElemRegs
  hide : List HideReq
  khor : List (Fin 4)
  fault : Option FaultInfo
  loads : List (Nat × Nat) := []     -- banks and lanes of an immediate load (R85)

/-- Nothing but registers. -/
def EOut.ok (r : ElemRegs) : EOut := { r := r, hide := [], khor := [], fault := none }

/-- A fault. -/
def EOut.bad (v : EView) (f : FaultInfo) : EOut := { r := v.r, hide := [], khor := [], fault := some f }

/-! ### Guard (R260) -/

/-- The lanes in which the next entry is enabled, and the registers with the block advanced by one entry. -/
def takeGuard (r : ElemRegs) : Word × ElemRegs :=
  if r.left = 0 then (0xFFFFFFFF, r)
  else (if r.pat.getLsbD 0 then r.guard else ~~~r.guard, { r with pat := r.pat >>> 1, left := r.left - 1 })

/-! ### Sources (R262) -/

/-- Physical index of v_n (R201). -/
def physV (r : ElemRegs) (n : Fin 32) : Fin 32 := Fin.ofNat 32 (n.val + r.ctx.toNat)

/-- The result register of an element of the core at the end of the fc before (R203). -/
def innerRead (v : EView) (row col : Nat) : Lanes := (elemOf v.k (Fin.ofNat 96 (12 * row + col))).r.res

/-- The value of a source (R262). -/
def srcVal (v : EView) (c : Src) : Lanes :=
  let row := elemRow v.e.val
  let col := elemCol v.e.val
  match c with
  | .v n => v.r.v[physV v.r n]
  | .s n => v.r.s[n]
  | .nN => if row = 0 then edgeRead v.s v.s.cur.core v.e 0 else innerRead v (row - 1) col
  | .nS => if row = 7 then edgeRead v.s v.s.cur.core v.e 1 else innerRead v (row + 1) col
  | .nE => if col = 11 then edgeRead v.s v.s.cur.core v.e 2 else innerRead v row (col + 1)
  | .nW => if col = 0 then edgeRead v.s v.s.cur.core v.e 3 else innerRead v row (col - 1)
  | .hl => tget Lanes.zero v.k.lineNow (hLine v.e).val
  | .vl => tget Lanes.zero v.k.lineNow (vLine v.e).val
  | .z => Lanes.zero
  | .lid => Lanes.tab (fun i => BitVec.ofNat 32 i.val)
  | .m n => Lanes.all v.r.m[n]

/-! ### Modifiers (R264) -/

/-- The lane that lane `i` reads under a permute class. -/
def permLane (c : ModCls) (i : Fin 32) : Fin 32 :=
  match c with
  | .plain | .x4 _ _ | .x8 _ _ => i
  | .rot g d => let z := 2 ^ g.val; let j := i.val % z; Fin.ofNat 32 (i.val - j + (j + d.toNat) % z)
  | .bfly g d => let z := 2 ^ g.val; let j := i.val % z; Fin.ofNat 32 (i.val - j + (j ^^^ d.toNat))
  | .bcast g d => let z := 2 ^ g.val; let j := i.val % z; Fin.ofNat 32 (i.val - j + d.toNat)

/-- How NEG reads a lane word (R264, R279). E2M1S codes are negated by the instructions that read them, as a spare has its
sign elsewhere. -/
inductive NegTy where
  | keep | f32 | half | f8 | int
  deriving DecidableEq, Repr

def negWord (t : NegTy) (w : Word) : Word :=
  match t with
  | .keep => w
  | .f32 => w ^^^ 0x80000000
  | .half => w ^^^ 0x80008000
  | .f8 => w ^^^ 0x80808080
  | .int => 0 - w

/-- The active half of a stamp bank (R222, R224). -/
def Bank.half (b : Bank) : Fin 2 := if b.act then 1 else 0

/-- The entry that an index names in the active half, when it is below SIZE and valid (R223). -/
def Bank.entry (b : Bank) (i : Nat) : Option DWord :=
  if i < b.size[b.half] ∧ (b.valid[b.half]).getLsbD i then some (tget 0 b.ent[b.half] i) else none

/-- An index that names no entry: a substituted zero under ZSUB, else INDEX (R223). -/
def indexFault (bank : Fin 16) (i : Nat) (lane : Nat) : FaultInfo :=
  { cls := cIndex, detail := bank.val, info := BitVec.ofNat 64 i, lane := some lane }

/-- A source as it was read: lanes, the fault of the lowest faulting lane, whether a zero was substituted. -/
structure ORead where
  val : Lanes
  bad : Option FaultInfo
  ixz : Bool

/-- Expand the lanes that the instruction reads (R222, R223, R280). -/
def expandLanes (v : EView) (bank : Fin 16) (read : Word) (idx : Word → Nat) (raw : Lanes) : ORead :=
  let b := v.k.banks[bank]
  let miss := (List.finRange 32).filter (fun i => read.getLsbD i.val && (b.entry (idx raw[i])).isNone)
  { val := Lanes.tab (fun i =>
      if read.getLsbD i.val then (match b.entry (idx raw[i]) with | some w => lowW w | none => 0) else raw[i])
    bad := if b.zsub then none else miss.head?.map (fun i => indexFault bank (idx raw[i]) i.val)
    ixz := b.zsub && !miss.isEmpty }

/-- A source with its modifier, for an instruction that reads the lanes `read` of it (R262, R264, R280). -/
def readOpnd (v : EView) (t : NegTy) (read : Word) (o : Opnd) : ORead :=
  let raw := srcVal v o.src
  let x : ORead := match o.cls with
    | .plain => { val := raw, bad := none, ixz := false }
    | .rot _ _ | .bfly _ _ | .bcast _ _ => { val := Lanes.tab (fun i => raw[permLane o.cls i]), bad := none, ixz := false }
    | .x4 bank group => expandLanes v bank read (fun w => elemAt w 4 group.val) raw
    | .x8 bank group => expandLanes v bank read (fun w => elemAt w 8 group.val) raw
  if o.neg then { x with val := Lanes.tab (fun i => negWord t x.val[i]) } else x

/-- The fault of the lowest lane; the earlier source on a tie (R128). -/
def firstBad (l : List ORead) : Option FaultInfo :=
  (l.filterMap (·.bad)).foldl (fun best f => match best with
    | none => some f
    | some b => if (f.lane.getD 0) < (b.lane.getD 0) then some f else some b) none

def anyIxz (l : List ORead) : Bool := l.any (·.ixz)

/-! ### Latency (R264, R267) -/

/-- What a modifier adds. -/
def modLat (o : Opnd) : Nat :=
  match o.cls with
  | .plain => 0
  | .rot _ _ | .bfly _ _ | .bcast _ _ => 1
  | .x4 _ _ | .x8 _ _ => 2

def lat2 (base : Nat) (a b : Opnd) : Nat := base + max (modLat a) (modLat b)

/-! ### Destinations (R263, R267, R278) -/

/-- Where a destination code points now. -/
def dstPlace (v : EView) (nb : Nat) : Dst → PDst
  | .v n => .v (physV v.r n) nb
  | .s n => .s n nb
  | .p n => .p n
  | .m n => .m n
  | .hl => .line (hLine v.e)
  | .vl => .line (vLine v.e)
  | .nul => .res

/-- The destination's value before the write (R283). -/
def dstVal (v : EView) : Dst → Lanes
  | .v n => v.r.v[physV v.r n]
  | .s n => v.r.s[n]
  | .p _ | .m _ | .hl | .vl | .nul => Lanes.zero

/-- Put a result in flight: it completes in fc S + λ − 1, in the enabled lanes (R260, R267). -/
def push (v : EView) (lat : Nat) (dst : PDst) (val res : Lanes) (r : ElemRegs) : ElemRegs :=
  { r with pipe := r.pipe ++ [{ fc := v.rc + lat - 1, dst := dst, val := val, res := res, mask := v.en }] }

/-- A vector result: the same lanes go to the destination and to the result register; a mark takes lane 0. -/
def pushV (v : EView) (lat : Nat) (d : Dst) (val : Lanes) (r : ElemRegs) : ElemRegs := push v lat (dstPlace v 0 d) val val r

/-- A predicate result, lane by lane 1 or 0 (R278). -/
def pushP (v : EView) (lat : Nat) (d : Dst) (p : Word) (r : ElemRegs) : ElemRegs :=
  pushV v lat d (Lanes.tab (fun i => if p.getLsbD i.val then 1 else 0)) r

/-- The word whose bit `i` is `f i`. -/
def bitsWord (f : Fin 32 → Bool) : Word :=
  (List.finRange 32).foldl (fun w i => if f i then w ||| (1 <<< i.val) else w) 0

/-! ### The frame of every element instruction -/

/-- An element entry as it fires on element `e` of the core that executes: the guard is taken (R260). -/
def elemView (s : State) (e : Fin 96) : EView :=
  let k := curCore s
  let g := takeGuard (elemOf k e).r
  { s := s, k := k, e := e, r := g.2, en := g.1, rc := curRc s }

/-- What the entry leaves: its registers, and what it buffers in commit order; a fault is taken (R128, R282). -/
def elemEnd (v : EView) (o : EOut) : State :=
  match o.fault with
  | some i => faultElem v.s i
  | none =>
    let k := putElem v.k v.e { elemOf v.k v.e with r := o.r }
    let s := { v.s with loads := v.s.loads ++ o.loads.map (fun b => loadIssued v.s false b.1 v.s.cur.core.val v.e.val b.2 v.s.cur.li v.rc) }
    putCore s s.cur.core { k with hideOps := k.hideOps ++ o.hide, khors := k.khors ++ o.khor.map (fun j => (v.e, j)) }

/-- Run an element entry. In the wrong kind of list it is ILLEGAL (R266). -/
def elemGo (s : State) (f : EView → EOut) : State :=
  if h : s.cur.elem < 96 then
    let v := elemView s ⟨s.cur.elem, h⟩
    elemEnd v (f v)
  else illegal s

/-- A lane-wise instruction of one source (R280). -/
def lane1 (t : NegTy) (lat : Nat) (d : Dst) (a : Opnd) (f : Word → Word × Flags) (s : State) : State :=
  elemGo s (fun v =>
    let x := readOpnd v t v.en a
    match firstBad [x] with
    | some i => .bad v i
    | none =>
      let q := Vector.ofFn (fun i : Fin 32 => f x.val[i])
      .ok (pushV v (lat + modLat a) d (Lanes.tab (fun i => q[i].1)) (addIxz (addFlags v.r (laneFlags v.en q)) x.ixz)))

/-- A lane-wise instruction of two sources (R280). -/
def lane2 (ta tb : NegTy) (lat : Nat) (d : Dst) (a b : Opnd) (f : Word → Word → Word × Flags) (s : State) : State :=
  elemGo s (fun v =>
    let x := readOpnd v ta v.en a
    let y := readOpnd v tb v.en b
    match firstBad [x, y] with
    | some i => .bad v i
    | none =>
      let q := Vector.ofFn (fun i : Fin 32 => f x.val[i] y.val[i])
      .ok (pushV v (lat2 lat a b) d (Lanes.tab (fun i => q[i].1)) (addIxz (addFlags v.r (laneFlags v.en q)) (x.ixz || y.ixz))))

/-- A lane-wise instruction that reads its destination too (R283). -/
def lane3 (t : NegTy) (lat : Nat) (d : Dst) (a b : Opnd) (f : Word → Word → Word → Word × Flags) (s : State) : State :=
  elemGo s (fun v =>
    let x := readOpnd v t v.en a
    let y := readOpnd v t v.en b
    let z := dstVal v d
    match firstBad [x, y] with
    | some i => .bad v i
    | none =>
      let q := Vector.ofFn (fun i : Fin 32 => f x.val[i] y.val[i] z[i])
      .ok (pushV v (lat2 lat a b) d (Lanes.tab (fun i => q[i].1)) (addIxz (addFlags v.r (laneFlags v.en q)) (x.ixz || y.ixz))))

/-- A lane-wise comparison of two sources: 1 or 0 in a lane (R278). -/
def laneP (t : NegTy) (lat : Nat) (d : Dst) (a b : Opnd) (f : Word → Word → Bool × Flags) (s : State) : State :=
  lane2 t t lat d a b (fun x y => let r := f x y; (if r.1 then 1 else 0, r.2)) s

/-- An instruction of one source that reads every lane of it, whatever the guard (R280). -/
def cross1 (t : NegTy) (lat : Nat) (d : Dst) (a : Opnd) (f : Lanes → Lanes × Flags) (s : State) : State :=
  elemGo s (fun v =>
    let x := readOpnd v t 0xFFFFFFFF a
    match firstBad [x] with
    | some i => .bad v i
    | none =>
      let y := f x.val
      .ok (pushV v (lat + modLat a) d y.1 (addIxz (addFlags v.r (if v.en = 0 then 0 else y.2)) x.ixz)))

/-- An instruction of two sources that reads every lane of them (R280). -/
def cross2 (lat : Nat) (d : Dst) (a b : Opnd) (f : Lanes → Lanes → Lanes) (s : State) : State :=
  elemGo s (fun v =>
    let x := readOpnd v .keep 0xFFFFFFFF a
    let y := readOpnd v .keep 0xFFFFFFFF b
    .ok (pushV v (lat2 lat a b) d (f x.val y.val) v.r))

/-- A predicate instruction on predicate registers (R296). -/
def predGo (d : Dst) (f : ElemRegs → Word) (s : State) : State := elemGo s (fun v => .ok (pushP v 2 d (f v.r) v.r))

end Sys2Proof.Machine
end

