-- ==== Sys2Proof/Machine/ElemLane.lean ====
section
/-! DEFINITION. Conversions, lane operations, codebook and hash instructions of an element (R291 to R295, R300 to R302). -/

namespace Sys2Proof.Machine

/-! ### Conversions (R291, R292, R293) -/

/-- A lane word converted between 32-bit formats (R291). -/
def cvtWord (p : CvtPair) (w : Word) : Word × Flags :=
  match p with
  | .i32f32 => let r := toIntRange (-(2 ^ 31)) (2 ^ 31 - 1) (f32 w); (wrap32 r.1, r.2)
  | .n32f32 => let r := toIntRange 0 (2 ^ 32 - 1) (f32 w); (wrap32 r.1, r.2)
  | .f32i32 => rne (FV.ofInt w.toInt)
  | .f32n32 => rne (FV.ofInt w.toNat)
  | .n32i32 => (if w.toInt < 0 then 0 else w, 0)
  | .i32n32 => (if 2 ^ 31 ≤ w.toNat then 0x7FFFFFFF else w, 0)

/-- How the source of a conversion reads NEG (R264). -/
def cvtNeg : CvtPair → NegTy
  | .i32f32 | .n32f32 => .f32
  | .f32i32 | .f32n32 | .n32i32 | .i32n32 => .int

def execCvt (pair : CvtPair) (d : Dst) (a : Opnd) (s : State) : Host.Outcome State Fault Refusal :=
  .next (lane1 (cvtNeg pair) 3 d a (cvtWord pair) s)

/-- CVT_RNE_SAT with the special inputs of R239. -/
def cvtSat (f : FF) (x : FV) : Rnd :=
  match x with
  | .nan => { code := f.nan, fl := flIf (f = .e2m1s) flFI }
  | .inf _ => { code := (roundFV .rne f false x).code, fl := flIf (!f.hasInf) flFI }
  | .fin _ _ => roundFV .rne f false x

/-- Width in bits of a narrow format. -/
def narrowWidth : Narrow → Nat
  | .f16 | .bf16 | .i16 | .n16 => 16
  | .e4m3 | .e5m2 | .i8 | .n8 | .x8 => 8
  | .e2m1s | .x4 => 4

/-- A lane word narrowed (R292). -/
def packCode (f : Narrow) (w : Word) : Rnd :=
  let sat (lo hi x : Int) : Rnd := { code := ((clampI lo hi x) % 2 ^ narrowWidth f).toNat, fl := 0 }
  match f with
  | .f16 => cvtSat .fp16 (f32 w)
  | .bf16 => cvtSat .bf16 (f32 w)
  | .e4m3 => cvtSat .e4m3 (f32 w)
  | .e5m2 => cvtSat .e5m2 (f32 w)
  | .e2m1s => cvtSat .e2m1s (f32 w)
  | .i16 => sat (-32768) 32767 w.toInt
  | .i8 => sat (-128) 127 w.toInt
  | .n16 => sat 0 65535 w.toNat
  | .n8 | .x8 => sat 0 255 w.toNat
  | .x4 => sat 0 15 w.toNat

def execPack (dst : Narrow) (pos : Fin 8) (d : Dst) (a b : Opnd) (s : State) : Host.Outcome State Fault Refusal :=
  .next (lane2 (if dst.isFp then .f32 else .int) .keep 3 d a b
    (fun x y => let r := packCode dst x; (setElem y (narrowWidth dst) pos.val r.code, r.fl)) s)

/-- The value of an E2M1S code with the spare's E4M3 code, negated if asked for (R231, R232, R264). -/
def e2m1sVal (neg : Bool) (spare code : Nat) : FV :=
  let x := decodeF .e2m1s (decodeF .e4m3 .nan spare) code
  if neg && code ≠ 0 then x.neg else x

/-- A narrow code widened (R293). `y` supplies the spare of E2M1S. -/
def unpkWord (f : Narrow) (neg : Bool) (code : Nat) (y : Word) : Word :=
  match f with
  | .f16 => (rne (decodeF .fp16 .nan code)).1
  | .bf16 => (rne (decodeF .bf16 .nan code)).1
  | .e4m3 => (rne (decodeF .e4m3 .nan code)).1
  | .e5m2 => (rne (decodeF .e5m2 .nan code)).1
  | .e2m1s => (rne (e2m1sVal neg (y.toNat % 256) code)).1
  | .i16 => wrap32 (signed 16 code)
  | .i8 => wrap32 (signed 8 code)
  | .n16 | .n8 | .x4 | .x8 => BitVec.ofNat 32 code

/-- How the source of `unpk` reads NEG (R264); E2M1S is negated by value. -/
def unpkNeg : Narrow → NegTy
  | .f16 | .bf16 => .half
  | .e4m3 | .e5m2 => .f8
  | .e2m1s | .i16 | .i8 | .n16 | .n8 | .x4 | .x8 => .keep

def execUnpk (src : Narrow) (pos : Fin 8) (d : Dst) (a b : Opnd) (s : State) : Host.Outcome State Fault Refusal :=
  .next (lane2 (unpkNeg src) .keep 3 d a b (fun x y => (unpkWord src a.neg (elemAt x (narrowWidth src) pos.val) y, 0)) s)

/-! ### Lane operations (R294, R295, R247, R248) -/

def execPerm (d : Dst) (a b : Opnd) (s : State) : Host.Outcome State Fault Refusal :=
  .next (cross2 3 d a b (fun x y => Lanes.tab (fun i => x[Fin.ofNat 32 y[i].toNat])) s)

/-- A binary operation of a tree, with its flags. -/
abbrev TreeOp := Word → Word → Word × Flags

/-- One level of a tree: the lanes that combine, and with which lane on the left and on the right. -/
def treeLevel (op : TreeOp) (on : Nat → Bool) (l r : Nat → Nat) (acc : Lanes × Flags) : Lanes × Flags :=
  let x := acc.1
  let q := Vector.ofFn (fun i : Fin 32 => if on i.val then op x[Fin.ofNat 32 (l i.val)] x[Fin.ofNat 32 (r i.val)] else (x[i], (0 : Flags)))
  (Lanes.tab (fun i => q[i].1), (List.finRange 32).foldl (fun f i => f ||| q[i].2) acc.2)

/-- The pairwise tree over segments of 2^g lanes (R247): the result of a segment stands in its first lane. -/
def redTree (op : TreeOp) (g : Nat) (x : Lanes) : Lanes × Flags :=
  (upTo g).reverse.foldl (fun acc j => treeLevel op (fun i => i % 2 ^ g < 2 ^ j) id (· + 2 ^ j) acc) (x, 0)

/-- Where the results of the segments go (R295). -/
def redPlace (g : Nat) (all : Bool) (x : Lanes) : Lanes :=
  Lanes.tab (fun i => if all || i.val % 2 ^ g = 0 then x[Fin.ofNat 32 (i.val - i.val % 2 ^ g)] else 0)

/-- The lanes as an operation of the type passes them on: it copies no bits of an FP32 NaN (R229). -/
def canonLanes (ty : RTy) (x : Lanes) : Lanes :=
  match ty with
  | .f32 => Lanes.tab (fun i => canonW x[i])
  | .i32 | .n32 => x

/-- Inclusive prefixes over segments of 2^g lanes (R248). -/
def scanTree (op : TreeOp) (g : Nat) (x : Lanes) : Lanes × Flags :=
  (upTo g).foldl (fun acc j => treeLevel op (fun i => 2 ^ j ≤ i % 2 ^ g) (· - 2 ^ j) id acc) (x, 0)

def rtyNeg (t : RTy) : NegTy := if t = .f32 then .f32 else .int

/-- The operations of the trees (R295). -/
def addOp : RTy → TreeOp
  | .f32 => fun a b => let r := fadd .fp32 (f32 a) (f32 b); (BitVec.ofNat 32 r.code, r.fl)
  | .i32 | .n32 => fun a b => (a + b, 0)

def maxOp : RTy → TreeOp
  | .f32 => fun a b => (maxW a b, 0)
  | .i32 => fun a b => (if a.toInt < b.toInt then b else a, 0)
  | .n32 => fun a b => (if a.toNat < b.toNat then b else a, 0)

def minOp : RTy → TreeOp
  | .f32 => fun a b => (minW a b, 0)
  | .i32 => fun a b => (if b.toInt < a.toInt then b else a, 0)
  | .n32 => fun a b => (if b.toNat < a.toNat then b else a, 0)

def logOp : LOp → TreeOp
  | .and => fun a b => (a &&& b, 0)
  | .or => fun a b => (a ||| b, 0)
  | .xor => fun a b => (a ^^^ b, 0)

/-- A reduction: tree, then placement. -/
def reduceLanes (op : TreeOp) (g : Nat) (all : Bool) (x : Lanes) : Lanes × Flags :=
  let r := redTree op g x
  (redPlace g all r.1, r.2)

def execLrd (op : LOp) (g : Fin 6) (all : Bool) (d : Dst) (a : Opnd) (s : State) : Host.Outcome State Fault Refusal :=
  .next (cross1 .keep 6 d a (reduceLanes (logOp op) g.val all) s)

def execRedAdd (ty : RTy) (g : Fin 6) (all : Bool) (d : Dst) (a : Opnd) (s : State) : Host.Outcome State Fault Refusal :=
  .next (cross1 (rtyNeg ty) 6 d a (reduceLanes (addOp ty) g.val all) s)

def execRedMax (ty : RTy) (g : Fin 6) (all : Bool) (d : Dst) (a : Opnd) (s : State) : Host.Outcome State Fault Refusal :=
  .next (cross1 (rtyNeg ty) 6 d a (reduceLanes (maxOp ty) g.val all) s)

def execRedMin (ty : RTy) (g : Fin 6) (all : Bool) (d : Dst) (a : Opnd) (s : State) : Host.Outcome State Fault Refusal :=
  .next (cross1 (rtyNeg ty) 6 d a (reduceLanes (minOp ty) g.val all) s)

def execScanAdd (ty : RTy) (g : Fin 6) (d : Dst) (a : Opnd) (s : State) : Host.Outcome State Fault Refusal :=
  .next (cross1 (rtyNeg ty) 6 d a (fun x => scanTree (addOp ty) g.val (canonLanes ty x)) s)

/-! ### Codebook (R300, R301, R251) -/

/-- Codebook entries through the expand modifier that A carries; bits unchanged. -/
def execXpnd (_ty : XTy) (d : Dst) (a : Opnd) (s : State) : Host.Outcome State Fault Refusal :=
  .next (lane1 .keep 3 d a (fun x => (x, 0)) s)

/-- A lane value or entry read in the type of `qidx`. -/
def qVal (t : QTy) (w : Word) : FV :=
  match t with
  | .f32 => f32 w
  | .f16 => decodeF .fp16 .nan (w.toNat % 65536)
  | .bf16 => decodeF .bf16 .nan (w.toNat % 65536)

/-- The entries that take part: valid, below SIZE, no NaN (R251). -/
def Bank.parts (b : Bank) (t : QTy) : List (Nat × FV) :=
  (upTo b.size[b.half]).filterMap (fun i =>
    match b.entry i with
    | none => none
    | some w => let x := qVal t (lowW w); if x.isNan then none else some (i, x))

/-- Is `b` strictly better than `a` for the lane value x (R251)? -/
def nearer (x a b : FV) : Bool :=
  match x with
  | .nan => false
  | .inf false => ltV a b
  | .inf true => ltV b a
  | .fin _ v =>
    match a, b with
    | .fin _ p, .fin _ q => (q.sub v).abs.lt (p.sub v).abs
    | _, .fin _ _ => true
    | _, _ => false

/-- The chosen index: the first of the best. -/
def nearestIndex (x : FV) : List (Nat × FV) → Nat
  | [] => 0
  | c :: r => (r.foldl (fun (best : Nat × FV) e => if nearer x best.2 e.2 then e else best) c).1

def qNeg : QTy → NegTy
  | .f32 => .f32
  | .f16 | .bf16 => .half

def execQidx (ty : QTy) (bank : Fin 16) (d : Dst) (a : Opnd) (s : State) : Host.Outcome State Fault Refusal :=
  .next (elemGo s (fun v =>
    let x := readOpnd v (qNeg ty) v.en a
    let b := v.k.banks[bank]
    let es := b.parts ty
    let first := (List.finRange 32).find? (fun i => v.en.getLsbD i.val)
    match es.isEmpty && !b.zsub, first with
    | true, some i => .bad v (indexFault bank b.size[b.half] i.val)
    | _, _ =>
      let q := Vector.ofFn (fun i : Fin 32 =>
        let y := qVal ty x.val[i]
        if y.isNan then ((0 : Word), flFI) else (BitVec.ofNat 32 (nearestIndex y es), (0 : Flags)))
      .ok (pushV v (8 + modLat a) d (Lanes.tab (fun i => q[i].1))
        (addIxz (addFlags v.r (laneFlags v.en q)) (es.isEmpty && first.isSome)))))

/-! ### Block hash (R302, R176) -/

/-- One step of the block hash over 16 tokens. -/
def blkHash (prev : Word) (tok : Nat → Word) : Word :=
  let sum := (upTo 16).foldl (fun (acc : Word) j => acc + tok j * BitVec.ofNat 32 (2 * j + 1)) 0
  (prev.rotateLeft 13 ^^^ sum) * 0x2545F491

def execBlkh (d : Dst) (a b : Opnd) (s : State) : Host.Outcome State Fault Refusal :=
  .next (cross2 6 d a b (fun x y =>
    let lo := blkHash y[0] (fun j => x[Fin.ofNat 32 j])
    let hi := blkHash y[16] (fun j => x[Fin.ofNat 32 (16 + j)])
    Lanes.tab (fun i => if i.val < 16 then lo else hi)) s)

end Sys2Proof.Machine
end

