-- ==== Sys2Proof/Machine/ElemBlock.lean ====
section
/-! DEFINITION. Block products, block scales, affine scans and keepers (R220, R221, R243, R244, R337 to R343). -/

namespace Sys2Proof.Machine

/-! ### Block products (R337 to R339) -/

/-- The value of element `e` of a packed vector (R338): `neg` negates by value for E2M1S, whose spare is byte `byte` of the
block's lane of C. -/
def packedVal (ty : STy) (x c : Lanes) (neg : Bool) (byte e : Nat) : FV :=
  let f := styFF ty
  let per := 32 / f.width
  let code := elemAt x[Fin.ofNat 32 (e / per)] f.width (e % per)
  if ty = .e2m1s then e2m1sVal neg (elemAt (c.get (Fin.ofNat 32 (e / 32))) 8 byte) code else decodeF f .nan code

/-- How a `bdot` type reads NEG. -/
def styNeg : STy → NegTy
  | .e4m3 | .e5m2 => .f8
  | .e2m1s => .keep
  | .bf16 | .f16 => .half

/-- An exact sum of products rounded once, with FI for 0 · ∞ and for infinities of both signs (R240, R243). -/
def dotRound (l : List (FV × FV)) : Rnd :=
  let s := l.foldl (fun (acc : Acc) p => acc.add p.1 p.2) Acc.zero
  let r := rneF .fp32 s.value
  { r with fl := r.fl ||| flIf (l.any (fun p => (mulFV p.1 p.2).2) || (s.pinf && s.ninf)) flFI }

/-- Block `j` of a product over K positions; positions from K on read +0 (R242). -/
def blockSum (va vb : Nat → FV) (k j : Nat) : Rnd :=
  dotRound ((upTo 32).map (fun i =>
    let e := 32 * j + i
    if e < k then (va e, vb e) else (FV.zero, FV.zero)))

/-- Place of a vector result with a block-count tag. -/
def pushTag (v : EView) (lat nb : Nat) (d : Dst) (val : Lanes) (r : ElemRegs) : ElemRegs := push v lat (dstPlace v nb d) val val r

/-- The tag of a destination or source register (R339); anything that is no vector register has none. -/
def tagOfDst (v : EView) : Dst → Nat
  | .v n => v.r.nbV[physV v.r n]
  | .s n => v.r.nbS[n]
  | .p _ | .m _ | .hl | .vl | .nul => 0

def tagOfSrc (v : EView) : Src → Nat
  | .v n => v.r.nbV[physV v.r n]
  | .s n => v.r.nbS[n]
  | .nN | .nE | .nS | .nW | .hl | .vl | .z | .lid | .m _ => 0

def execBdot (ty : STy) (boff : Fin 32) (km1 : BitVec 8) (d : Dst) (a b : Opnd) (c : Src) (s : State) :
    Host.Outcome State Fault Refusal :=
  .next (elemGo s (fun v =>
    let x := (readOpnd v (styNeg ty) v.en a).val
    let y := (readOpnd v (styNeg ty) v.en b).val
    let sp := srcVal v c
    let k := km1.toNat + 1
    let nbk := ceilDiv k 32
    let old := dstVal v d
    let va := fun e => packedVal ty x sp a.neg 0 e
    let vb := fun e => packedVal ty y sp b.neg 1 e
    let q := (upTo nbk).map (fun j => blockSum va vb k j)
    let val := Lanes.tab (fun i =>
      if i.val < boff.val then old[i] else BitVec.ofNat 32 ((q.drop (i.val - boff.val)).head?.elim 0 (·.code)))
    let nb := if boff.val = 0 then nbk else if tagOfDst v d = boff.val then boff.val + nbk else 0
    .ok (pushTag v (lat2 6 a b) nb d val (addFlags v.r
      (((upTo nbk).zip q).foldl (fun f r => if v.en.getLsbD (boff.val + r.1) then f ||| r.2.fl else f) 0)))))

def execBdotSet (nb : Fin 32) (d : Dst) (a : Opnd) (s : State) : Host.Outcome State Fault Refusal :=
  .next (elemGo s (fun v =>
    let x := (readOpnd v .f32 v.en a).val
    let n := nb.val + 1
    .ok (pushTag v (6 + modLat a) n d (Lanes.tab (fun i => if i.val < n then x[i] else 0)) v.r)))

/-! ### Block scales (R340, R244) -/

/-- The scale code of block `b`; a missing operand contributes 2^0. -/
def scaleVal (c : Src) (x : Lanes) (b : Nat) : FV :=
  if c = .z then .fin false Dy.one else decodeF .e8m0 .nan (elemAt x[Fin.ofNat 32 b] 8 0)

/-- The block count that a scale operand carries. -/
def scaleCount (x : Lanes) : Nat := x[0].toNat / 256 % 64

/-- The first mismatching block count among the scale operands (R340). -/
def scaleMismatch (nb : Nat) : List (Src × Lanes) → Option Nat
  | [] => none
  | (c, x) :: r => if c ≠ .z ∧ scaleCount x ≠ nb then some (scaleCount x) else scaleMismatch nb r

def scaleFault (nb info : Nat) : FaultInfo := { cls := cScale, detail := nb, info := BitVec.ofNat 64 info, lane := none }

/-- One block added to the accumulator (R244). -/
def scaleStep (p sa sw : FV) (acc : Word × Flags) : Word × Flags :=
  let t := mulFV p sa
  let u := mulFV t.1 sw
  let r := fadd .fp32 (f32 acc.1) u.1
  (BitVec.ofNat 32 r.code, acc.2 ||| r.fl ||| flIf (t.2 || u.2) flFI)

def execScacc (d : Dst) (a b c : Src) (s : State) : Host.Outcome State Fault Refusal :=
  .next (elemGo s (fun v =>
    let nb := tagOfSrc v a
    let x := srcVal v a
    let y := srcVal v b
    let z := srcVal v c
    if nb = 0 then .bad v (scaleFault 0 0)
    else match scaleMismatch nb [(b, y), (c, z)] with
      | some n => .bad v (scaleFault nb n)
      | none =>
        let r := (upTo nb).foldl (fun acc j => scaleStep (f32 x[Fin.ofNat 32 j]) (scaleVal b y j) (scaleVal c z j) acc)
          ((dstVal v d)[0], (0 : Flags))
        .ok (pushV v 6 d (Lanes.all r.1) (addFlags v.r (if v.en = 0 then 0 else r.2)))))

/-! ### Scans (R220, R341, R342) -/

/-- Pairs of gains and offsets, lane by lane. -/
structure Pairs where
  g : Lanes
  o : Lanes
  fl : Flags

/-- One level of the composition with distance `d` in segments of `z` lanes (R220). -/
def composeLevel (z d : Nat) (p : Pairs) : Pairs :=
  let q := Vector.ofFn (fun i : Fin 32 =>
    if d ≤ i.val % z then
      let j := Fin.ofNat 32 (i.val - d)
      let g := fmul .fp32 (f32 p.g[i]) (f32 p.g[j])
      let o := ffma .fp32 (f32 p.g[i]) (f32 p.o[j]) (f32 p.o[i])
      (BitVec.ofNat 32 g.code, BitVec.ofNat 32 o.code, g.fl ||| o.fl)
    else (p.g[i], p.o[i], (0 : Flags)))
  { g := Lanes.tab (fun i => q[i].1), o := Lanes.tab (fun i => q[i].2.1)
    fl := (List.finRange 32).foldl (fun f i => f ||| q[i].2.2) p.fl }

/-- The composed pairs of segments of 2^g lanes. -/
def compose (g : Nat) (x y : Lanes) : Pairs :=
  (upTo g).foldl (fun p j => composeLevel (2 ^ g) (2 ^ j) p) { g := canonLanes .f32 x, o := canonLanes .f32 y, fl := 0 }

/-- h_i := FMA(G_i, h_in, O_i), with the carry that each lane's segment takes. -/
def applyCarry (p : Pairs) (carry : Fin 32 → Word) : Lanes × Flags :=
  let q := Vector.ofFn (fun i : Fin 32 => ffma .fp32 (f32 p.g[i]) (f32 (carry i)) (f32 p.o[i]))
  (Lanes.tab (fun i => BitVec.ofNat 32 q[i].code), (List.finRange 32).foldl (fun f i => f ||| q[i].fl) p.fl)

/-- First and last lane of a lane's segment. -/
def segFirst (g : Nat) (i : Fin 32) : Fin 32 := Fin.ofNat 32 (i.val - i.val % 2 ^ g)
def segLast (g : Nat) (i : Fin 32) : Fin 32 := Fin.ofNat 32 (i.val - i.val % 2 ^ g + 2 ^ g - 1)

/-- The lanes that a scan reads its carries from: the first of each segment (R342). -/
def firstLanes (g : Nat) : Word :=
  BitVec.ofNat 32 (((upTo 32).filter (fun i => i % 2 ^ g = 0)).foldl (fun n i => n + 2 ^ i) 0)

def lat3 (base : Nat) (a b c : Opnd) : Nat := base + max (max (modLat a) (modLat b)) (modLat c)

/-- The three sources of a scan, or the fault of the lowest lane. -/
def scanWith (g : Fin 6) (d : Dst) (a b c : Opnd) (gain : Bool) (s : State) : State :=
  elemGo s (fun v =>
    let x := readOpnd v .f32 0xFFFFFFFF a
    let y := readOpnd v .f32 0xFFFFFFFF b
    let z := readOpnd v .f32 (firstLanes g.val) c
    match firstBad [x, y, z] with
    | some i => .bad v i
    | none =>
      let p := compose g.val x.val y.val
      let h := applyCarry p (fun i => z.val[segFirst g.val i])
      .ok (pushV v (lat3 12 a b c) d (if gain then p.g else h.1)
        (addIxz (addFlags v.r (if v.en = 0 then 0 else if gain then p.fl else h.2)) (anyIxz [x, y, z]))))

def execScanAff (g : Fin 6) (d : Dst) (a b c : Opnd) (s : State) : Host.Outcome State Fault Refusal :=
  .next (scanWith g d a b c false s)

def execScanAffG (g : Fin 6) (d : Dst) (a b c : Opnd) (s : State) : Host.Outcome State Fault Refusal :=
  .next (scanWith g d a b c true s)

/-- Is |x| below 2^−126, zero included (UF of R221)? NaNs are not. -/
def underUF (w : Word) : Bool := w.toNat / 2 ^ 23 % 256 = 0

/-- UF(x); a NaN result is canonical (R221, R235). -/
def ufWord (w : Word) : Word := if underUF w then 0 else canonW w

/-- A scan that carries through keeper `j` and updates it (R221). -/
def execScanAffk (g : Fin 6) (j : Fin 4) (d : Dst) (a b : Opnd) (s : State) : Host.Outcome State Fault Refusal :=
  .next (elemGo s (fun v =>
    let x := readOpnd v .f32 0xFFFFFFFF a
    let y := readOpnd v .f32 0xFFFFFFFF b
    match firstBad [x, y] with
    | some i => .bad v i
    | none =>
      let k := v.r.k[j]
      let p := compose g.val x.val y.val
      let h := applyCarry p (fun i => k.state[segLast g.val i])
      let q := Vector.ofFn (fun i : Fin 32 => let l := segLast g.val i; fmul .fp32 (f32 p.g[l]) (f32 k.gain[l]))
      let raw := Lanes.tab (fun i => BitVec.ofNat 32 q[i].code)
      let st := Lanes.tab (fun i => h.1[segLast g.val i])
      let fl := (List.finRange 32).foldl (fun f i => f ||| q[i].fl) h.2
      let guf := (List.finRange 32).any (fun i => v.en.getLsbD i.val && underUF raw[i])
      let lat := lat2 12 a b
      .ok (push v lat (.keep j (Lanes.tab (fun i => ufWord raw[i])) guf false) st st
        (pushV v lat d h.1 (addIxz (addFlags v.r (if v.en = 0 then 0 else fl)) (anyIxz [x, y]))))))

/-! ### Keepers (R343) -/

def execKset (j : Fin 4) (a b : Opnd) (s : State) : Host.Outcome State Fault Refusal :=
  .next (elemGo s (fun v =>
    let x := readOpnd v .f32 v.en a
    let y := readOpnd v .f32 v.en b
    match firstBad [x, y] with
    | some i => .bad v i
    | none =>
      let guf := (List.finRange 32).any (fun i => v.en.getLsbD i.val && underUF y.val[i])
      .ok (push v (lat2 2 a b) (.keep j (Lanes.tab (fun i => ufWord y.val[i])) guf true) x.val x.val
        (addIxz v.r (anyIxz [x, y])))))

def execKget (gain : Bool) (d : Dst) (j : Fin 4) (s : State) : Host.Outcome State Fault Refusal :=
  .next (elemGo s (fun v => .ok (pushV v 2 d (if gain then v.r.k[j].gain else v.r.k[j].state) v.r)))

def execKclr (j : Fin 4) (s : State) : Host.Outcome State Fault Refusal :=
  .next (elemGo s (fun v => .ok (push v 1 (.clearKeep j) Lanes.zero Lanes.zero v.r)))

/-- A horizon is asked for; the entry is buffered (R127, R136). -/
def execKhor (j : Fin 4) (s : State) : Host.Outcome State Fault Refusal :=
  .next (elemGo s (fun v => { r := v.r, hide := [], khor := [j], fault := none }))

end Sys2Proof.Machine
end

