-- ==== Sys2Proof/Machine/Memory.lean ====
section
/-! DEFINITION. Global memory: published and pending values (R185 to R189), L2 lines (R144, R158, R159, R86, R87), frame
descriptors and rights (R145, R146), tensors and tile tables (R147 to R150), translation (R151 to R154). -/

namespace Sys2Proof.Machine

/-! ### Published and pending values -/

/-- The byte that an agent reads: the pending contents of a sector that it has written in the phase, else the published
value (R185). -/
def readAs (s : State) (who : Writer → Bool) (a : Nat) : Byte :=
  match tfind s.pend (a / 64) with
  | some q => if q.writers.any who then (match tfind q.bytes a with | some b => b | none => readB s.mem a) else readB s.mem a
  | none => readB s.mem a

/-- The pending contents of a byte, whoever wrote it (R187). -/
def pendingB (s : State) (a : Nat) : Byte :=
  match tfind s.pend (a / 64) with
  | some q => (match tfind q.bytes a with | some b => b | none => readB s.mem a)
  | none => readB s.mem a

/-- Is the agent a core of the partition (R150)? -/
def coreOfPart (s : State) (p : Nat) (w : Writer) : Bool :=
  match w with
  | .core n => bit (partOf s p).cores n
  | .engine _ | .host => false

/-- The bytes that each core has itself written, with one more of them (R186). -/
def ownWrite (own : Table (Table Byte)) (w : Writer) (a : Nat) (b : Byte) : Table (Table Byte) :=
  match w with
  | .core n => tput own n (tput (tget [] own n) a b)
  | .engine _ | .host => own

/-- Write a pending byte for a VF, whose version copy it is where the sector is written for the first time (R86, R185, R187). -/
def pendWrite (s : State) (p vf : Nat) (w : Writer) (a : Nat) (b : Byte) : State :=
  let q := match tfind s.pend (a / 64) with
    | some q => q
    | none => { part := p, vf := vf, writers := [], bytes := [], own := [] }
  let q := { q with
    writers := if q.writers.contains w then q.writers else q.writers ++ [w], bytes := tput q.bytes a b, own := ownWrite q.own w a b }
  { s with pend := tput s.pend (a / 64) q }

/-- The published value of the partition's sectors becomes their pending contents (R184 step 3, R187). -/
def publish (s : State) (p : Nat) : State :=
  let mine := s.pend.filter (fun e => e.2.part = p)
  let mem := mine.foldl (fun m e => e.2.bytes.foldl (fun m b => writeB m b.1 b.2) m) s.mem
  modPart { s with mem := mem, pend := s.pend.filter (fun e => e.2.part ≠ p) } p (fun x => { x with verUsed := [] })

/-! ### Frame descriptors (R143, R145, R146) -/

def frameNo (a : Nat) : Nat := a / 65536

/-- Frames of the descriptor table: 16 bytes for each frame (R145). -/
def fdtFrames (s : State) : Nat := ceilDiv (16 * s.fdtCount) 65536

/-- Frames of the metadata table: 128 bytes for each frame (R158). -/
def mdtFrames (s : State) : Nat := ceilDiv (128 * s.fdtCount) 65536

/-- Frames of both tables. -/
def tableFrames (s : State) : Nat := fdtFrames s + mdtFrames s

/-- FDT_BASE and MDT_BASE (R145, R158). -/
def fdtBase (s : State) : Nat := 65536 * s.tableBase
def mdtBase (s : State) : Nat := 65536 * (s.tableBase + fdtFrames s)

/-- Does a frame belong to the tables that the control complex reserves at reset? -/
def inTables (s : State) (f : Nat) : Bool := s.tableBase ≤ f && f < s.tableBase + tableFrames s

/-- HBM locations of one core: its eight pseudo-channels (R73, R145). -/
def locPerCore : Nat := Config.hbmFrames / 64

/-- The core whose pseudo-channels hold a location (log entry 76). -/
def locCore (loc : Nat) : Nat := loc / locPerCore % 64

/-- The t-th frame of the tables: owner 256, spread over the cores, at the end of their locations. -/
def tableDesc (t : Nat) : Frame :=
  { Frame.reset with
    v := true, owner := 256, home := coreNo t, loc := BitVec.ofNat 48 (locPerCore * (t % 64) + (locPerCore - 1 - t / 64)) }

/-- The descriptor that the table holds of a frame. -/
def rawFrame (s : State) (f : Nat) : Frame := if inTables s f then tableDesc (f - s.tableBase) else tget Frame.reset s.frames f

/-- The descriptor that translation sees: one at or beyond FDT_COUNT, and one with a reserved value, has V = 0. -/
def frameDesc (s : State) (f : Nat) : Frame :=
  let d := rawFrame s f
  if s.fdtCount ≤ f || d.state = 3 || d.tier = 3 || 2 ≤ d.cattr.toNat then { d with v := false } else d

/-- A descriptor is written; the tables' own frames keep theirs (R145). -/
def modFrame (s : State) (f : Nat) (g : Frame → Frame) : State :=
  if inTables s f then s else { s with frames := tset Frame.reset s.frames f (g (tget Frame.reset s.frames f)) }

/-- The die of a frame's home. -/
def homeDie (s : State) (f : Nat) : Nat := dieOf (rawFrame s f).home.val

def mayWrite (vf : Nat) (d : Frame) : Bool := d.owner = vf && d.owner ≠ 256

/-- A VF may read a frame that it owns, or one of a share domain in its set; no tensor access reaches a frame of owner 256 (R146). -/
def mayRead (s : State) (vf : Nat) (d : Frame) : Bool :=
  d.owner ≠ 256 && (d.owner = vf || (d.sdom ≠ 0 && (vfOf s vf).sdoms.contains d.sdom))

/-! ### HBM locations (R73, R75, R145) -/

/-- Is a location of the HBM tier in use: by a frame, or as the source of a move? -/
def locUsed (s : State) (loc : Nat) : Bool :=
  s.frames.any (fun e => e.2.v && e.2.tier = 0 && e.2.state ≠ 2 && e.2.loc.toNat = loc) || s.fwd.any (fun e => e.tier = 0 && e.loc.toNat = loc)

/-- Locations of a core that the tables leave to other frames. -/
def locRoom (s : State) : Nat := locPerCore - ceilDiv (tableFrames s) 64

/-- A free location in the pseudo-channels of a core, from a proposal on. -/
def freeLocOn (s : State) (seed core : Nat) : Option Nat :=
  let room := locRoom s
  if room = 0 then none
  else ((upTo (min room (s.frames.length + s.fwd.length + 1))).map (fun i => locPerCore * core + (seed + i) % room)).find? (fun l => !locUsed s l)

/-- A free location in the pseudo-channels of some cores, the earlier core first (R75). -/
def freeLocIn (s : State) (seed : Nat) (cores : List Nat) : Option Nat := cores.findSome? (freeLocOn s seed)

/-- The cores of a partition, the one that the control complex proposes first. -/
def homeOrder (s : State) (p k : Nat) : List Nat :=
  let cs := (partOf s p).coreList
  let i := Config.allocHome k % cs.length
  cs.drop i ++ cs.take i

/-- Where a frame is filled from and written back to: its location, or while it moves that of its source (R163). -/
def memPlace (s : State) (f : Nat) : BitVec 2 × BitVec 48 :=
  match s.fwd.find? (fun e => e.frame.toNat = f) with
  | some e => (e.tier, e.loc)
  | none => let d := rawFrame s f; (d.tier, d.loc)

/-- Is a location bound to the pool port? -/
def onPort (port : Fin 2) (tier : BitVec 2) (loc : BitVec 48) : Bool := tier = 1 && loc.toNat / 2 ^ 47 = port.val

/-- Is a location bound to a pool port whose link is down (R29)? -/
def portDownAt (s : State) (tier : BitVec 2) (loc : BitVec 48) : Bool := tier = 1 && !s.poolUp[Fin.ofNat 2 (loc.toNat / 2 ^ 47)]

/-- Is a moving frame bound by its source to a pool port that is down (R29, R163)? -/
def sourceDown (s : State) (f : Nat) (d : Frame) : Bool := d.state = 1 && (let l := memPlace s f; portDownAt s l.1 l.2)

/-- Steps 4 to 8 of R152 on a frame: the class of the fault, if one arises. -/
def frameCheck (s : State) (vf f : Nat) (write : Bool) : Option (BitVec 5) :=
  let d := frameDesc s f
  if !d.v then some cPerm
  else if !(if write then mayWrite vf d else mayRead s vf d) then some cPerm
  else if d.poison then some cPoison
  else if d.state = 2 || sourceDown s f d then some cAbsent
  else if write && d.state = 1 then some cAbsent
  else none

/-! ### Version store (R188, R189) -/

/-- Sectors that a partition may hold on a die. -/
def verAllot (x : Part) (die : Nat) : Nat := Config.versionPerCore * (x.coreList.filter (fun c => dieOf c = die)).length

/-- Sectors of some addresses that would be written for the first time in the phase. -/
def newSectors (s : State) (addrs : List Nat) : List Nat :=
  (unionPos (addrs.map (· / 64)) []).filter (fun k => (tfind s.pend k).isNone)

/-- Does the version store hold the copies that the stores need? -/
def versionFits (s : State) (p : Nat) (addrs : List Nat) : Bool :=
  let x := partOf s p
  let ks := newSectors s addrs
  (upTo 4).all (fun die =>
    let need := (ks.filter (fun k => homeDie s (frameNo (64 * k)) = die)).length
    need = 0 || tget 0 x.verUsed die + need ≤ verAllot x die)

/-- Charge the version copies. -/
def versionTake (s : State) (p : Nat) (addrs : List Nat) : State :=
  (newSectors s addrs).foldl (fun s k =>
    let die := homeDie s (frameNo (64 * k))
    modPart s p (fun x => { x with verUsed := tput x.verUsed die (tget 0 x.verUsed die + 1) })) s

/-! ### L2 (R86, R87, R144, R158, R159) -/

/-- The slices of a die that a partition fills (R87). -/
def fillSlices (s : State) (p die : Nat) : List Nat :=
  let own (x : Part) := (x.coreList.filter (fun c => dieOf c = die)).map (· % 16)
  let x := partOf s p
  if x.l2sh then (upTo 16).filter (fun i => s.parts.any (fun q => q.2.v && q.2.l2sh && (own q.2).contains i)) else own x

/-- The home slices of a frame on its die (R144). -/
def homeSlices (s : State) (f : Nat) : List Nat :=
  let d := rawFrame s f
  if d.owner = 256 then [d.home.val % 16]
  else match (partOfCore s d.home.val).filter (fun p => (partOf s p).v) with
    | some p => fillSlices s p (dieOf d.home.val)
    | none => upTo 16

/-- The slice that holds a line. -/
def sliceOf (s : State) (f line : Nat) : Nat :=
  let l := homeSlices s f
  (l.drop (line % l.length)).headD 0

/-- Lines that an owner has on a die, with the lines of its version copies (R86; log entry 11). -/
def occupancy (s : State) (die owner : Nat) : Nat :=
  (s.l2.filter (fun e => e.2.die = die && e.2.owner = owner)).length
    + (unionPos ((s.pend.filter (fun e => homeDie s (frameNo (64 * e.1)) = die && e.2.vf = owner)).map (·.1 / 4)) []).length

/-- The soft limit of an owner on a die (R86). -/
def softLimit (s : State) (die owner : Nat) : Nat := if owner < 256 then tget 0x200000 s.olim (die * 256 + owner) else 0x200000

/-! ### Sectors in memory (R158, R159) -/

/-- The bytes of a sector as L2 holds them: its pending contents. -/
def sectorView (s : State) (k : Nat) : List Byte := (upTo 64).map (fun i => pendingB s (64 * k + i))

/-- The bytes of a sector replaced by what a fill decodes. -/
def setView (s : State) (k : Nat) (l : List Byte) : State :=
  match tfind s.pend k with
  | some q => { s with pend := tput s.pend k { q with bytes := ((upTo 64).zip l).foldl (fun t x => tput t (64 * k + x.1) x.2) q.bytes } }
  | none => { s with mem := writeBytes s.mem (64 * k) l }

/-- The nonzero bytes of a sector, by address. -/
def sectorBytes (k : Nat) (l : List Byte) : Table Byte := ((upTo 64).zip l).foldl (fun t x => tset 0 t (64 * k + x.1) x.2) []

/-- Bit k of a line's metadata nibble (R158). -/
def elided (s : State) (k : Nat) : Bool := (tget 0 s.mdt (k / 4)).getLsbD (k % 4)

/-- A sector is filled under an attribute: an elided one returns zeros under ZSE and reads no memory; else memory's bytes are
returned (R158, R159). -/
def fillSector (s : State) (cattr : BitVec 2) (k : Nat) : State :=
  if cattr = 1 && elided s k then
    let b := sectorView s k
    if b.all (· = 0) then s else { setView s k (List.replicate 64 0) with stale := tput s.stale k (sectorBytes k b) }
  else match tfind s.stale k with
    | some t => { setView s k ((upTo 64).map (fun i => tget 0 t (64 * k + i))) with stale := terase s.stale k }
    | none => s

/-- What memory holds of a sector that L2 is about to hold dirty. -/
def memoryBytes (s : State) (k : Nat) : Table Byte :=
  match tfind s.stale k with
  | some t => t
  | none => sectorBytes k (sectorView s k)

/-! ### The metadata caches of the slices (R158, R160) -/

/-- The slice of a line, counted through the dies. -/
def sliceKey (s : State) (line : Nat) : Nat := 16 * homeDie s (line / 256) + sliceOf s (line / 256) line

/-- Does the slice's metadata cache hold the line's nibble? -/
def mdtHas (s : State) (line : Nat) : Bool := (tget [] s.mdtHeld (sliceKey s line)).contains line

/-- Must the nibble be fetched from memory, and does the fetch return an uncorrectable error (R160)? -/
def mdtFails (s : State) (line : Nat) : Bool := s.mdtBad.contains line && !mdtHas s line

/-- The nibble is used: it is held, the most recent of its slice, and the least recent leaves a full cache (log entry 76). -/
def mdtTouch (s : State) (line : Nat) : State :=
  let k := sliceKey s line
  { s with mdtHeld := tput s.mdtHeld k ((line :: (tget [] s.mdtHeld k).erase line).take (Config.mdtCacheLines + 1)) }

/-! ### L2 lines (R86, R87, R144, R158 to R161) -/

/-- Who reaches memory: the VF that a filled line counts for, the port of the arbiters on its path, its class (R82, R84, R86). -/
structure Via where
  vf : Nat
  port : Nat
  cls : BitVec 2
  deriving DecidableEq, Repr

/-- How memory is reached: read; filled for a store that writes part of a sector; written (R160). -/
inductive Use where
  | read | fill | store
  deriving DecidableEq, Repr

/-- Memory is asked for a sector: it crosses the edge between the slice's die and the base die, and for a frame in HBM takes a burst of the
pseudo-channel that holds its line (R10, R75, R82). A moving frame is reached at its source (R163). -/
def askMemory (s : State) (k : Nat) (v : Via) : State :=
  let line := k / 4
  let at' := memPlace s (line / 256)
  let s := baseAsk s v.cls v.port (homeDie s (line / 256)) line
  if at'.1 = 0 then arbAsk s (hbmArb (locCore at'.2.toNat) (line % 8)) v.cls v.port k else s

/-- One dirty sector of a line written back: one that is all zero under ZSE sets its bit and writes no data, any other is written and, under
ZSE, clears it (R158). -/
def writeSector (l : Line) (s : State) (k : Nat) : State :=
  if l.cattr ≠ 1 then s
  else
    let nib := tget 0 s.mdt (k / 4)
    let m : BitVec 4 := BitVec.ofNat 4 (2 ^ (k % 4))
    if (sectorView s k).all (· = 0) then
      let raw := l.raw.filter (fun e => e.1 / 64 = k)
      { s with
        mdt := tset 0 s.mdt (k / 4) (nib ||| m), stale := if raw.isEmpty then s.stale else tput s.stale k raw }
    else { s with mdt := tset 0 s.mdt (k / 4) (nib &&& ~~~m) }

/-- What memory holds of a sector after its write-back: its data, or, where that was lost, nothing that can be read (R161). -/
def lostAfter (s : State) (l : Line) (k : Nat) : List Nat :=
  if l.lost.getLsbD (k % 4) then unionPos [k] s.lostMem else s.lostMem.filter (· ≠ k)

/-- Write back a line under its attribute; an uncorrectable metadata error poisons the frame (R158, R160). -/
def writeBack (s : State) (line : Nat) : State :=
  match tfind s.l2 line with
  | none => s
  | some l =>
    if l.dirty = 0 then s
    else
      let bad := l.cattr = 1 && mdtFails s line
      let s := ((upTo 4).filter (fun k => l.dirty.getLsbD k)).foldl (fun s i =>
        let k := 4 * line + i
        let s := if l.cattr = 1 && (sectorView s k).all (· = 0) then s else askMemory s k { vf := l.owner, port := hostPort, cls := 3 }
        writeSector l { s with lostMem := lostAfter s l k } k) s
      let s := { s with l2 := tput s.l2 line { l with dirty := 0, lost := 0, valid := l.valid &&& ~~~l.lost, raw := [] } }
      if bad then addUrgent s (.framePoison ⟨BitVec.ofNat 32 (line / 256), .unread⟩)
      else if l.cattr = 1 then mdtTouch s line else s

/-- Write back and invalidate a line. -/
def evictLine (s : State) (line : Nat) : State :=
  let s := writeBack s line
  { s with l2 := terase s.l2 line }

/-- Write back and invalidate every line of a frame (R324). -/
def flushFrame (s : State) (f : Nat) : State := (s.l2.filter (fun e => e.1 / 256 = f)).foldl (fun s e => evictLine s e.1) s

/-- The least recently used of some lines. -/
def oldestLine (l : List (Nat × Line)) : Option (Nat × Line) :=
  l.foldl (fun b e => match b with
    | none => some e
    | some x => if e.2.used < x.2.used then some e else some x) none

/-- Lines of a slice: 32 MiB (R73); the ways of a set, and the set that a line falls into. -/
def sliceLines : Nat := 131072
def l2Ways : Nat := 2 ^ (Config.l2WaysLog % 18)
def l2Set (line : Nat) : Nat := Config.l2Set line % (sliceLines / l2Ways)

/-- Make room for a line: an invalid way, else the least recently used line of an owner above its limit, else the least
recently used (R87). -/
def l2Room (s : State) (f die line : Nat) : State :=
  let set := s.l2.filter (fun e => e.2.die = die && l2Set e.1 = l2Set line && sliceOf s (e.1 / 256) e.1 = sliceOf s f line)
  if set.length < l2Ways then s
  else
    let above := set.filter (fun e => softLimit s die e.2.owner < occupancy s die e.2.owner)
    match (match oldestLine above with | some e => some e | none => oldestLine set) with
    | some e => evictLine s e.1
    | none => s

/-- The next stamp of the recency order. -/
def l2Clock (s : State) : Nat := s.l2.foldl (fun m e => max m (e.2.used + 1)) 0

/-- A read through a die's L2 is measured, and one that HBM fills (R88). -/
def sampleRead (s : State) (vf die f : Nat) (miss : Bool) (u : Use) : State :=
  if u ≠ .read then s
  else
    let p := (runningPart s vf).getD 64
    let s := sampleLatency s die 0x02 p
    if miss && (rawFrame s f).tier = 0 then sampleLatency s die 0x03 p else s

/-- A line after an access to one of its sectors: the sector valid; a store makes it dirty, and what memory holds of it is remembered. A
sector whose data was lost keeps its mark until it has been written as a whole (R161). -/
def Line.touch (l : Line) (s : State) (k : Nat) (u : Use) : Line :=
  let m : BitVec 4 := BitVec.ofNat 4 (2 ^ (k % 4))
  let l := { l with valid := l.valid ||| m, used := l2Clock s }
  if u ≠ .store then l
  else
    { l with
      dirty := l.dirty ||| m
      raw := if l.cattr = 1 && l.dirty &&& m = 0 then l.raw ++ memoryBytes s k else l.raw }

/-- Does an access that needs the old bytes of a sector meet data that was lost: in the line that holds it, or in the memory that fills it? An
elided sector reads no memory (R135, R158, R161). -/
def dataLost (s : State) (cattr : BitVec 2) (k : Nat) : Bool :=
  match tfind s.l2 (k / 4) with
  | some l => if l.valid.getLsbD (k % 4) then l.lost.getLsbD (k % 4) else s.lostMem.contains k && !(cattr = 1 && elided s k)
  | none => s.lostMem.contains k && !(cattr = 1 && elided s k)

/-- AN ACCESS TO A SECTOR under an attribute: it is filled if it is not valid; a line filled under another attribute raises ATTR (R159); a
fill whose metadata cannot be read, and a use of data that was lost, raise POISON (R160, R161). -/
def l2Touch (s : State) (v : Via) (cattr : BitVec 2) (a : Nat) (u : Use) : Except (BitVec 5) State :=
  let line := a / 256
  let k := a / 64
  let f := frameNo a
  let die := homeDie s f
  let m : BitVec 4 := BitVec.ofNat 4 (2 ^ (k % 4))
  let held := tfind s.l2 line
  let miss := held.elim true (fun l => l.valid &&& m = 0)
  if held.elim false (fun l => l.cattr ≠ cattr) then .error cAttr
  else if miss && cattr = 1 && u ≠ .store && mdtFails s line then .error cPoison
  else if u ≠ .store && dataLost s cattr k then .error cPoison
  else
    let s := edgeAsk (arbAsk s (sliceArb die (sliceOf s f line)) v.cls v.port line) v.cls v.port die line
    let s := if held.isNone then l2Room s f die line else s
    let s := if miss && cattr = 1 && u ≠ .store then mdtTouch s line else s
    let s := if miss then fillSector (if cattr = 1 && elided s k then s else askMemory s k v) cattr k else s
    let s := sampleRead s v.vf die f miss u
    let l := held.getD { cattr := cattr, valid := 0, dirty := 0, owner := v.vf, die := die, used := 0, lost := 0, raw := [] }
    .ok { s with
      l2 := tput s.l2 line (l.touch s k u)
      stale := if u = .store then terase s.stale k else s.stale }

/-- A frame's descriptor is read through L2: its line belongs to the control complex (R86, R150). -/
def touchDesc (s : State) (v : Via) (f : Nat) : State :=
  if s.fdtCount ≤ f then s
  else match l2Touch s { v with vf := 256 } 0 (fdtBase s + 16 * f) .read with
    | .ok s => s
    | .error _ => s

/-! ### Levels (R88) -/

/-- What a level probe reads on its die, for the partitions that its filter lets pass. -/
def capLevel (s : State) (die : Nat) (c : Cap) : Nat :=
  match c.probe with
  | 0x04 => (s.pend.filter (fun e => homeDie s (frameNo (64 * e.1)) = die && c.takes e.2.part)).length
  | 0x05 => ((s.parts.filter (fun e => c.takes e.1 && e.2.coreList.any (fun i => dieOf i = die))).map (fun e =>
      (e.2.armSlots.filter (fun a => bit a.2 63)).length)).foldl (· + ·) 0
  | 0x07 => ((List.finRange 18).map (fun i => if Config.portDie i.val = die then s.ports[i].replay.length else 0)).foldl (· + ·) 0
  | _ => occupancy s die (bitsN c.ctl 31 9)

/-- Is the probe a level? -/
def Cap.isLevel (c : Cap) : Bool := c.probe = 0x04 || c.probe = 0x05 || c.probe = 0x07 || c.probe = 0x09

/-- One fc of every running window: a level is sampled; the last fc ends the window. -/
def capTick (s : State) : State :=
  ((s.caps.filter (fun e => e.2.runs)).map (·.1)).foldl (fun s k =>
    let c := capOf s k
    let s := putCap s k { c with left := c.left - 1 }
    let s := if c.isLevel then takeSample s k (capLevel s (k / 32) c) else s
    if c.left ≤ 1 then addUrgent s (.captureWindowEnd (Fin.ofNat 4 (k / 32)) (Fin.ofNat 32 k)) else s) s

/-! ### Tensors (R147 to R150) -/

/-- Width in bits of an element (R148). -/
def fmtBits : Fmt → Nat
  | .fp32 | .i32 | .n32 => 32
  | .fp16 | .bf16 | .i16 | .n16 => 16
  | .e4m3 | .e5m2 | .e8m0 | .i8 | .n8 | .x8 => 8
  | .e2m1s | .x4 => 4

/-- Elements of a lane word. -/
def Fmt.perWord (f : Fmt) : Nat := 32 / fmtBits f

/-- Is the coordinate vector inside the tensor (R150)? A dimension at or above the rank counts as extent 1 (R147). -/
def Tensor.inside (t : Tensor) (c : List Int) : Bool :=
  (upTo 5).all (fun i =>
    let x := (c.drop i).headD 0
    0 ≤ x && x < (if i < t.rank then ((t.dim.toList.drop i).headD 0 : Int) else 1))

/-- Tile counts NT_i; dimensions at or above the rank count as 1. -/
def Tensor.nt (t : Tensor) : List Nat := (upTo 5).map (fun i =>
  if i < t.rank then ceilDiv ((t.dim.toList.drop i).headD 0) (2 ^ (t.lt.toList.drop i).headD 0) else 1)

/-- Horner's scheme of R149: the last pair varies slowest. -/
def tileHorner : List (Nat × Nat) → Nat
  | [] => 0
  | (q, n) :: r => q + n * tileHorner r

/-- The least B with 2^B at least n. -/
def log2Up (n : Nat) : Nat := if n ≤ 1 then 0 else Nat.log2 (n - 1) + 1

/-- Bits of two numbers interleaved, the first at even places. -/
def interleave : Nat → Nat → Nat → Nat
  | 0, _, _ => 0
  | b + 1, x, y => x % 2 + 2 * (y % 2) + 4 * interleave b (x / 2) (y / 2)

/-- Tile coordinates and positions within the tile. -/
def Tensor.split (t : Tensor) (c : List Int) : List (Nat × Nat) :=
  (upTo 5).map (fun i =>
    let x := ((c.drop i).headD 0).toNat
    let z := 2 ^ (t.lt.toList.drop i).headD 0
    (x / z, x % z))

/-- The tile number n (R149). -/
def Tensor.tileNo (t : Tensor) (c : List Int) : Nat :=
  let q := (t.split c).map (·.1)
  let nt := t.nt
  let at' (l : List Nat) (i : Nat) := (l.drop i).headD 0
  match t.layout.toNat with
  | 0 => tileHorner (q.zip nt)
  | 1 => tileHorner ((upTo t.rank).reverse.map (fun i => (at' q i, at' nt i)))
  | _ =>
    let b := log2Up (max (at' nt 0) (at' nt 1))
    interleave b (at' q 0) (at' q 1) + 4 ^ b * tileHorner ((q.zip nt).drop 2)

/-- Entries of the tile table. -/
def Tensor.tableSize (t : Tensor) : Nat :=
  let nt := t.nt
  if t.layout = 2 then 4 ^ log2Up (max ((nt.drop 0).headD 1) ((nt.drop 1).headD 1)) * (nt.drop 2).foldl (· * ·) 1
  else nt.foldl (· * ·) 1

/-- The element offset within the tile. -/
def Tensor.elemOff (t : Tensor) (c : List Int) : Nat :=
  tileHorner (((t.split c).map (·.2)).zip (t.lt.toList.map (fun l => 2 ^ l)))

/-- A tensor of a graph by its TID. -/
def tensorOf (g : Graph) (tid : BitVec 20) : Option Tensor := g.tensors.find? (fun t => t.tid = tid)

/-! ### Translation (R151 to R154) -/

/-- A fault of an access before it has its DETAIL: class and INFO. -/
structure AccFault where
  cls : BitVec 5
  info : Nat
  deriving DecidableEq, Repr

/-- The value of a tile-table entry as a partition sees it (R150). -/
def ttEntry (s : State) (p a : Nat) : DWord :=
  BitVec.ofNat 64 (leVal ((upTo 8).map (fun i => readAs s (coreOfPart s p) (a + i))))

/-- A translation of tile `n` for an access at byte `off` of the tile, with the reads of the tables that it makes through L2 (R150, R152). -/
def translate (s : State) (p : Nat) (v : Via) (t : Tensor) (n off : Nat) (write : Bool) : Except AccFault (State × Latch) :=
  let ea := t.ttbase + 8 * n
  let s := touchDesc s v (frameNo ea)
  match frameCheck s v.vf (frameNo ea) false with
  | some c => .error { cls := c, info := ea }
  | none =>
    match l2Touch s v (frameDesc s (frameNo ea)).cattr ea .read with
    | .error c => .error { cls := c, info := ea }
    | .ok s =>
      let w := ttEntry s p ea
      let f := bitsN w 16 32
      if !bit w 63 then .error { cls := cPerm, info := ea }
      else if write && !bit w 62 then .error { cls := cPerm, info := f * 65536 + off }
      else
        let s := touchDesc s v f
        match frameCheck s v.vf f write with
        | some c => .error { cls := c, info := f * 65536 + off }
        | none =>
          let d := frameDesc s f
          .ok (s, { tid := t.tid, tile := n, frame := BitVec.ofNat 32 f, w := bit w 62, own := mayWrite v.vf d, cattr := d.cattr, moving := d.state = 1
                    tier := d.tier, home := d.home
                    source := if d.state = 1 then (s.fwd.find? (fun e => e.frame.toNat = f)).map (fun e => (e.tier, e.loc)) else none })

/-- An access through a latch: it stands, or a fresh translation is made (R151 to R153). -/
def throughLatch (s : State) (p : Nat) (v : Via) (t : Tensor) (n off : Nat) (write : Bool) : Option Latch → Except AccFault (State × Latch)
  | some l =>
    if l.tid = t.tid && l.tile = n then
      (if write && !(l.w && l.own) then translate s p v t n off write
       else if write && l.moving then .error { cls := cAbsent, info := l.frame.toNat * 65536 + off }
       else .ok (s, l))
    else translate s p v t n off write
  | none => translate s p v t n off write

/-- The set of an edge TLB that an entry lies in (R154). -/
def tlbSet (l : Latch) : Nat := (l.tile ^^^ l.tid.toNat) % 1024

/-- The entry of a die's edge TLB, and the TLB with the entry most recent, the least recent of a full set dropped. -/
def tlbFind (s : State) (die p : Nat) (tid : BitVec 20) (n : Nat) : Option Latch :=
  ((s.tlb.toList.drop die).headD []).findSome? (fun e => if e.part = p && e.latch.tid = tid && e.latch.tile = n then some e.latch else none)

def tlbFill (s : State) (die p : Nat) (l : Latch) : State :=
  let t := (s.tlb.toList.drop die).headD []
  let rest := t.filter (fun e => !(e.part = p && e.latch.tid = l.tid && e.latch.tile = l.tile))
  let same := rest.filter (fun e => tlbSet e.latch = tlbSet l)
  let keep := if 8 ≤ same.length then (match same.getLast? with | some x => rest.erase x | none => rest) else rest
  { s with tlb := s.tlb.set (Fin.ofNat 4 die) ({ part := p, latch := l } :: keep) }

/-- A gathered access through the die's edge TLB (R154). -/
def throughTlb (s : State) (die p : Nat) (v : Via) (t : Tensor) (n off : Nat) (write : Bool) : Except AccFault (State × Latch) :=
  match throughLatch s p v t n off write (tlbFind s die p t.tid n) with
  | .error f => .error f
  | .ok (s, l) => .ok (tlbFill s die p l, l)

/-! ### Elements in memory -/

/-- The code of an element at element offset `o` of a frame, as an agent reads it. -/
def codeAt (rd : Nat → Byte) (base o width : Nat) : Nat :=
  if width = 4 then (rd (base + o / 2)).toNat / (if o % 2 = 0 then 1 else 16) % 16
  else leVal ((upTo (width / 8)).map (fun i => rd (base + o * width / 8 + i)))

/-- The stores that write a code at element offset `o`. -/
def codeStores (base o width code : Nat) (cattr cls : BitVec 2) : List Store :=
  if width = 4 then
    [{ addr := base + o / 2, byte := BitVec.ofNat 8 (if o % 2 = 0 then code else 16 * code)
       mask := if o % 2 = 0 then 0x0F else 0xF0, cattr := cattr, cls := cls }]
  else
    (upTo (width / 8)).map (fun i =>
      { addr := base + o * width / 8 + i, byte := BitVec.ofNat 8 (code / 256 ^ i), mask := 0xFF, cattr := cattr, cls := cls })

/-- The sectors that some stores write, in the order of their first store, each with the address of that store. -/
def storeSectors : List Store → List Nat → List Nat
  | [], acc => acc.reverse
  | x :: r, acc => storeSectors r (if acc.any (fun a => a / 64 = x.addr / 64) then acc else x.addr :: acc)

/-- Do the stores write the whole of a sector? -/
def coversSector (l : List Store) (k : Nat) : Bool :=
  (upTo 64).all (fun i => l.any (fun x => x.addr = 64 * k + i && x.mask = 0xFF))

/-- What the stores of one step need at issue: a sector of which a part is written is filled; one that is written as a whole needs no fill,
only its line's attribute is met (R159, R160). -/
def fillFor (v : Via) (l : List Store) : List Nat → State → Except AccFault State
  | [], s => .ok s
  | a :: r, s =>
    let cattr := ((l.find? (fun x => x.addr = a)).map (·.cattr)).getD 0
    if coversSector l (a / 64) then
      (if (tfind s.l2 (a / 256)).elim false (fun q => q.cattr ≠ cattr) then .error { cls := cAttr, info := a } else fillFor v l r s)
    else match l2Touch s v cattr a .fill with
      | .error c => .error { cls := c, info := a }
      | .ok s => fillFor v l r s

/-- The arbiter port of the copy engine of a core's die (log entry 28). -/
def copyPort (core : Nat) : Nat := 64 + 8 * dieOf core

/-- The stores that meet a line filled under another attribute (R159). -/
def attrClashes (s : State) (l : List Store) : List Store :=
  l.filter (fun x => (tfind s.l2 (x.addr / 256)).elim false (fun q => q.cattr ≠ x.cattr))

/-- Perform one store as an agent, for the VF that its line counts for (R86, R136, R187). A store that would meet a line of another
attribute is not performed: its agent has been told before (R159). -/
def performStore (s : State) (p vf port : Nat) (w : Writer) (x : Store) : State :=
  match l2Touch s { vf := vf, port := port, cls := x.cls } x.cattr x.addr .store with
  | .error _ => s
  | .ok s =>
    let old := pendingB s x.addr
    pendWrite s p vf w x.addr ((old &&& ~~~x.mask) ||| (x.byte &&& x.mask))

/-- A sector that is written as a whole has lost no data any more (R161). -/
def Line.found (l : Line) (line : Nat) (stores : List Store) : Line :=
  { l with lost := l.lost &&& ~~~(BitVec.ofNat 4 (((upTo 4).filter (fun i => l.lost.getLsbD i && coversSector stores (4 * line + i))).foldl
      (fun n i => n + 2 ^ i) 0)) }

/-- Perform some stores of an agent, taking the version copies they need. -/
def performStores (s : State) (p vf port : Nat) (w : Writer) (l : List Store) : State :=
  let s := { s with l2 := s.l2.map (fun e => (e.1, if e.2.lost = 0 then e.2 else e.2.found e.1 l)) }
  l.foldl (fun s x => performStore s p vf port w x) (versionTake s p (l.map (·.addr)))

end Sys2Proof.Machine
end

