-- ==== Sys2Proof/Machine/Kv.lean ====
section
/-! DEFINITION. Page sets, sequences and the pommel (R166 to R175), the prefix table (R177, R178), and the KV instructions
with what they do at the commit (R173, R174, R322). -/

namespace Sys2Proof.Machine

/-! ### Sequences and the pommel (R168, R169) -/

def seqOf (s : State) (p n : Nat) : Seq := tget Seq.reset (partOf s p).seqs n

def putSeq (s : State) (p n : Nat) (q : Seq) : State := modPart s p (fun x => { x with seqs := tset Seq.reset x.seqs n q })

def modSeq (s : State) (p n : Nat) (f : Seq → Seq) : State := putSeq s p n (f (seqOf s p n))

/-- The key of a mapping: VF, sequence, block (R169). -/
def pomKey (vf seq blk : Nat) : Nat := (vf * 4096 + seq) * 65536 + blk

/-- A mapping in the pommel of the die of the partition's lowest core: a VF has its mappings on one die, so the key tells the die too. -/
def pomFind (s : State) (vf seq blk : Nat) : Option PomEnt := tfind s.pommel (pomKey vf seq blk)

def pomPut (s : State) (vf seq blk : Nat) (e : PomEnt) : State := { s with pommel := tput s.pommel (pomKey vf seq blk) e }

def pomErase (s : State) (vf seq blk : Nat) : State := { s with pommel := terase s.pommel (pomKey vf seq blk) }

/-- Entries that the VFs of a partition hold in the pommel, the running one and those that are suspended (R169). -/
def pomUsed (s : State) (p : Nat) : Nat :=
  let x := partOf s p
  (s.pommel.filter (fun e => let v := e.1 / (4096 * 65536); v = x.vf || x.vfList.contains v)).length

/-- Blocks of a frontier. -/
def blocksOf (f : Nat) : Nat := ceilDiv f 16

/-- The most recent use of any sequence of the partition, plus 1. -/
def seqClock (s : State) (p : Nat) : Nat := (partOf s p).seqs.foldl (fun m e => max m (e.2.used + 1)) 0

def touchSeq (s : State) (p n : Nat) : State := modSeq s p n (fun q => { q with used := seqClock s p })

/-! ### Counts (R172) -/

/-- The partition and offset of a page set's count word (R145, R166). -/
def countAt (s : State) (base : Nat) : Nat × Nat :=
  let d := tget Frame.reset s.frames base
  (d.rcpart.toNat, d.rcoff.toNat)

def countOf (s : State) (base : Nat) : Nat := let c := countAt s base; (hideRead s c.1 c.2).toNat % 65536

/-- A change of a count is an operation at the bank of its word (R172). -/
def setCount (s : State) (base n : Nat) : State :=
  let c := countAt s base
  hideWrite (hideRequest s c.1 c.2 3 hostPort) c.1 c.2 (setBits (hideRead s c.1 c.2) 0 16 n)

/-- An increment; 65 535 stays (R172). -/
def incCount (s : State) (base : Nat) : State :=
  let n := countOf s base
  if n = 65535 then s else setCount s base (n + 1)

/-- A decrement; 65 535 stays; a count that falls to 0 has its page set reclaimed (R172). -/
def decCount (s : State) (base : Nat) : State :=
  let n := countOf s base
  if n = 65535 || n = 0 then s
  else
    let s := setCount s base (n - 1)
    if n = 1 then addTask s (.pageSetReclaim (BitVec.ofNat 32 base)) else s

/-- A pin that the partition took is on its way, or has been installed or returned (R172). -/
def takePin (s : State) (p base : Nat) : State := modPart s p (fun x => { x with pins := tset 0 x.pins base (tget 0 x.pins base + 1) })

def dropPin (s : State) (p base : Nat) : State := modPart s p (fun x => { x with pins := tset 0 x.pins base (tget 0 x.pins base - 1) })

/-! ### Allocation (R157, R166, R167) -/

/-- Layer groups of a page set, and the share domain of new ones (R167). -/
def kvNlg (s : State) (vf : Nat) : Nat := bitsN (vfOf s vf).kvCfg 32 6 + 1
def kvSdom (s : State) (vf : Nat) : BitVec 10 := BitVec.ofNat 10 (bitsN (vfOf s vf).kvCfg 38 10)

/-- Is a run of frame numbers free: no descriptor is valid, none is on its way to reuse or fetched? -/
def runFree (s : State) (base n : Nat) : Bool :=
  base + n ≤ s.fdtCount
    && (upTo n).all (fun i => !(rawFrame s (base + i)).v && !s.reclaim.any (fun r => r.frame = base + i))

/-- The run of frame numbers that the control complex takes: its proposal, or the first free run at 0, after the tables or after a frame in
use. A run that is free begins there if there is one at all. -/
def allocRun (s : State) (n : Nat) : Option Nat :=
  ((Config.allocFrame s.allocs).toNat :: 0 :: (s.tableBase + tableFrames s) :: (s.frames.map (fun e => e.1 + 1) ++ s.reclaim.map (fun r => r.frame + 1))).find?
    (fun b => runFree s b n)

/-- Is a hide word the count word of some page set (R166)? -/
def isCount (s : State) (p off : Nat) : Bool :=
  s.frames.any (fun e => e.2.v && e.2.owner < 256 && e.2.rcpart.toNat = p && e.2.rcoff.toNat = off)

/-- May a hide word of the partition become a count word: it lies in the partition above the words that programs use (log entry 85), the
device does not write it for another purpose, and it counts no other page set (R166)? -/
def countFree (s : State) (p off : Nat) : Bool :=
  4096 ≤ off && off < (partOf s p).hideSize && !hideProtected s p off && !isCount s p off

/-- The count word that the control complex takes: its proposal in the partition's last bank, or the next free word from the top of the
partition's hide space down; none when every word is taken. -/
def allocCount (s : State) (p : Nat) : Option Nat :=
  let size := (partOf s p).hideSize
  let prop := size - 1 - (Config.countOffset s.allocs).toNat % 65536
  if countFree s p prop then some prop else ((upTo size).map (fun i => size - 1 - i)).find? (countFree s p)

/-- Frames in the HBM tier, each with its location in the pseudo-channels of some cores (R75); none when the locations or the frame numbers
do not suffice. -/
def allocFrames (cores : List Nat) (seed : Nat) (base : Nat) (d : Frame) : Nat → State → Option State
  | 0, s => some s
  | n + 1, s =>
    match freeLocIn s (Config.freeLoc seed) cores with
    | none => none
    | some l => allocFrames cores (seed + 1) (base + 1) d n { s with frames := tput s.frames base { d with loc := BitVec.ofNat 48 l } }

/-- A new page set of a VF on a partition, in its pseudo-channels and with count 1 (R166, R167); none when there is no free frame (R174). -/
def allocSet (s : State) (p vf : Nat) : Option (Nat × State) :=
  let n := kvNlg s vf
  let cs := homeOrder s p s.allocs
  match allocRun s n, allocCount s p with
  | some base, some off =>
    let d : Frame :=
      { v := true, state := 0, poison := false, tier := 0, cattr := 0, owner := vf, sdom := kvSdom s vf
        rcoff := BitVec.ofNat 24 off, rcpart := BitVec.ofNat 6 p, home := coreNo (cs.headD 0), loc := 0 }
    (allocFrames cs (64 * s.allocs) base d n s).map (fun s => (base, setCount { s with allocs := s.allocs + 1 } base 1))
  | _, _ => none

/-- Are there free frames for `n` page sets (R174)? -/
def setsFit (p vf : Nat) : Nat → State → Bool
  | 0, _ => true
  | n + 1, s => match allocSet s p vf with
    | none => false
    | some x => setsFit p vf n x.2

/-- Frames of the page set that begins at a frame: those that follow it and name the same count word for the same owner (R166). -/
def setLen (s : State) (base : Nat) : Nat :=
  let d := rawFrame s base
  let same (f : Nat) : Bool :=
    let e := rawFrame s f
    e.v && e.owner = d.owner && e.rcpart = d.rcpart && e.rcoff = d.rcoff
  1 + (((upTo 63).map (fun i => base + 1 + i)).takeWhile same).length

/-! ### Reads and writes of KV positions (R170) -/

/-- Where position `pos` of a sequence lies: nothing to read, a frame with its attribute, or a fault. `off` is the byte in the
frame. -/
def kvPlace (s : State) (p vf seq lg pos off : Nat) (write : Bool) : Except AccFault (Option (Nat × BitVec 2)) :=
  let q := seqOf s p seq
  if !q.v then (if write then .error { cls := cPerm, info := seq * 2 ^ 32 } else .ok none)
  else if !q.hot then .error { cls := cAbsent, info := q.ctbase }
  else if !write && q.f ≤ pos then .ok none
  else match pomFind s vf seq (pos / 16) with
    | none => .error { cls := cPerm, info := seq * 2 ^ 32 + pos / 16 }
    | some e =>
      if write && !(pos < q.f && pos / 16 = (q.f - 1) / 16 && e.w) then .error { cls := cPerm, info := seq * 2 ^ 32 + pos / 16 }
      else
        let f := e.base.toNat + lg
        match frameCheck s vf f write with
        | some c => .error { cls := c, info := f * 65536 + off }
        | none => .ok (some (f, (frameDesc s f).cattr))

/-! ### KV instructions (R173, R174, R322) -/

/-- PERM of a KV command: INFO holds the sequence and a block index (R173). -/
def kvPerm (seq blk : Nat) : FaultInfo :=
  { cls := cPerm, detail := 0xFFFE, info := BitVec.ofNat 64 (seq % 4096 * 2 ^ 32 + blk % 65536), lane := none }

/-- PERM of a command that concerns no one block: the block index that INFO carries is a FREE value (log 37). -/
def kvPermAny (seq : Nat) : FaultInfo := kvPerm seq (Config.kvBlock seq).toNat

def kvAbsent (q : Seq) : FaultInfo := { cls := cAbsent, detail := 0xFFFE, info := BitVec.ofNat 64 q.ctbase, lane := none }

def kvQuota (vf : Nat) : FaultInfo := { cls := cQuota, detail := 0, info := BitVec.ofNat 64 vf, lane := none }

/-- What some KV commands make of a sequence: whether it exists, its frontier, and whether its last block may be written (R173). -/
structure SeqView where
  v : Bool
  f : Nat
  w : Bool
  deriving DecidableEq, Repr

/-- What they make of the sequences of a partition, the pommel entries that they need and the page sets that they take. -/
structure KvView where
  seqs : Table SeqView
  entries : Nat
  sets : Nat
  deriving DecidableEq, Repr

def KvView.empty : KvView := { seqs := [], entries := 0, sets := 0 }

/-- A sequence as it stands, or as the commands leave it. -/
def KvView.seq (v : KvView) (s : State) (p vf n : Nat) : SeqView :=
  match tfind v.seqs n with
  | some x => x
  | none =>
    let f := (seqOf s p n).f
    { v := (seqOf s p n).v, f := f, w := (pomFind s vf n (f / 16)).elim true (·.w) }

/-- Blocks that an append reaches for the first time, and whether it copies the last block first (R173, R175). -/
def SeqView.needs (x : SeqView) (n : Nat) : Nat × Bool := (blocksOf (x.f + n) - blocksOf x.f, x.f % 16 ≠ 0 && !x.w)

/-- One more command (R173). -/
def KvView.add (s : State) (p vf : Nat) (v : KvView) : KvOp → KvView
  | .app q n _ =>
    let x := v.seq s p vf q
    let d := x.needs n
    { seqs := tput v.seqs q { x with f := x.f + n, w := true }, entries := v.entries + d.1, sets := v.sets + d.1 + (if d.2 then 1 else 0) }
  | .fork q par n =>
    let y := v.seq s p vf par
    { v with
      seqs := tput (tput v.seqs par { y with w := y.w && n ≤ y.f / 16 }) q { v := true, f := if n = 0 then 0 else min y.f (16 * n), w := false }
      entries := v.entries + n }
  | .pin q _ =>
    let x := v.seq s p vf q
    { v with seqs := tput v.seqs q { x with f := x.f + 16, w := false }, entries := v.entries + 1 }
  | .unpin _ => v
  | .free q => { v with seqs := tput v.seqs q { v := false, f := 0, w := true } }

/-- Put what a core holds into the issue order: by stamp, and at one stamp cores increasing (R136). -/
def insertHeld (x : Nat × Nat × Held) : List (Nat × Nat × Held) → List (Nat × Nat × Held)
  | [] => [x]
  | y :: r => if x.2.1 < y.2.1 then x :: y :: r else y :: insertHeld x r

/-- WHAT A ROUND HOLDS, in issue order over the cores of the graph: core, stamp, what is held (R136). -/
def heldInOrder (s : State) (g : Graph) : List (Nat × Nat × Held) :=
  ((unionPos g.cores []).flatMap (fun c => (coreOf s (coreNo c)).held.map (fun h => (c, h.1, h.2)))).foldl (fun l x => insertHeld x l) []

/-- The KV commands that the rounds of a partition hold, those of each round in issue order (R173). -/
def heldKv (s : State) (p : Nat) : List KvOp :=
  (partOf s p).graphs.flatMap (fun g => (heldInOrder s g.2).filterMap (fun h => match h.2.2 with
    | .kv k => some k
    | .cmd _ _ | .cancel _ _ => none))

/-- What they will leave (log entry 85). -/
def kvAhead (s : State) (p vf : Nat) : KvView := (heldKv s p).foldl (KvView.add s p vf) KvView.empty

/-- Positions that a sequence may hold (R168). -/
def seqMost : Nat := 1048576

/-- Is a named sequence V and not HOT? Then the command faults ABSENT (R171). -/
def coldFault (s : State) (p seq : Nat) : Option FaultInfo :=
  let q := seqOf s p seq
  if q.v && !q.hot then some (kvAbsent q) else none

/-- Does the partition's pommel allotment hold `n` entries beside those in use and those that the held commands need (R169, R171)? -/
def pomFits (s : State) (p vf n : Nat) : Bool := n = 0 || pomUsed s p + (kvAhead s p vf).entries + n ≤ (partOf s p).pomAllot

/-- What a KV command checks at issue, beside what the held commands will leave (log entry 85): a fault, or the units that it takes from the quota (R173, R174). -/
def kvCheck (s : State) (p vf : Nat) : KvOp → Except FaultInfo Nat
  | .fork seq par n =>
    match coldFault s p seq, coldFault s p par with
    | some f, _ => .error f
    | none, some f => .error f
    | none, none =>
      let q := (kvAhead s p vf).seq s p vf par
      if ((kvAhead s p vf).seq s p vf seq).v then .error (kvPermAny seq)
      else if n ≠ 0 && !(q.v && 16 * (n - 1) < q.f) then .error (kvPermAny seq)
      else if !pomFits s p vf n then .error (kvAbsent (seqOf s p seq))
      else .ok 0
  | .app seq n _ =>
    match coldFault s p seq with
    | some f => .error f
    | none =>
      let q := seqOf s p seq
      let x := (kvAhead s p vf).seq s p vf seq
      if !x.v || seqMost < x.f + n then .error (kvPerm seq (x.f / 16))
      else
        let d := x.needs n
        let a := d.1 + (if d.2 then 1 else 0)
        if !pomFits s p vf d.1 then .error (kvAbsent q)
        else if (partOf s p).quota < a then .error (kvQuota vf)
        else .ok a
  | .pin seq base =>
    match coldFault s p seq with
    | some f => .error f
    | none =>
      let x := (kvAhead s p vf).seq s p vf seq
      let d := frameDesc s base.toNat
      if !x.v || x.f % 16 ≠ 0 || seqMost < x.f + 16 || !d.v || !mayRead s vf d then .error (kvPerm seq (x.f / 16))
      else if !pomFits s p vf 1 then .error (kvAbsent (seqOf s p seq))
      else .ok 0
  | .unpin _ => .ok 0
  | .free seq =>
    match coldFault s p seq with
    | some f => .error f
    | none => if ((kvAhead s p vf).seq s p vf seq).v then .ok 0 else .error (kvPermAny seq)

/-- The copy engine reads the sectors of a range. What cannot be read there is copied as memory holds it: DESIGN CHOICE (log entry 90). -/
def readSectors (s : State) (v : Via) (cattr : BitVec 2) (a n : Nat) : State :=
  (upTo (ceilDiv n 64)).foldl (fun s i => match l2Touch s v cattr (a + 64 * i) .read with
    | .ok s => s
    | .error _ => s) s

/-- Copy the positions below F of the last block from one page set to another, through the copy engine; the stores count as the core's
(R175). -/
def copySet (s : State) (p vf core : Nat) (cls : BitVec 2) (f old new : Nat) : State :=
  let v : Via := { vf := vf, port := copyPort core, cls := cls }
  let w : Writer := .core core
  (upTo (kvNlg s vf)).foldl (fun s g =>
    let ca := (frameDesc s (new + g)).cattr
    let s := readSectors s v (frameDesc s (old + g)).cattr ((old + g) * 65536) (4096 * (f % 16))
    performStores s p vf v.port w ((upTo (4096 * (f % 16))).map (fun i =>
      { addr := (new + g) * 65536 + i, byte := readAs s (· = w) ((old + g) * 65536 + i), mask := 0xFF, cattr := ca, cls := cls }))) s

/-- Map new page sets at blocks from `b` on. -/
def mapNew (p vf seq : Nat) : Nat → Nat → State → State
  | 0, _, s => s
  | n + 1, b, s =>
    match allocSet s p vf with
    | some x => mapNew p vf seq n (b + 1) (pomPut x.2 vf seq b { base := BitVec.ofNat 32 x.1, w := true })
    | none => s

/-- The effect of a KV command at the commit (R173). -/
def kvCommit (s : State) (p vf core : Nat) (cls : BitVec 2) : KvOp → State
  | .fork seq par n =>
    let s := (upTo n).foldl (fun s b =>
      match pomFind s vf par b with
      | none => s
      | some e =>
        let e := { e with w := false }
        incCount (pomPut (pomPut s vf par b e) vf seq b e) e.base.toNat) s
    touchSeq (modSeq s p seq (fun q => { q with v := true, hot := true, f := if n = 0 then 0 else min (seqOf s p par).f (16 * n) })) p seq
  | .app seq n _ =>
    let d := (KvView.empty.seq s p vf seq).needs n
    let f := (seqOf s p seq).f
    let s := if d.2 then
        (match pomFind s vf seq (f / 16), allocSet s p vf with
         | some e, some x =>
           let s := copySet x.2 p vf core cls f e.base.toNat x.1
           decCount (pomPut s vf seq (f / 16) { base := BitVec.ofNat 32 x.1, w := true }) e.base.toNat
         | _, _ => s)
      else s
    let s := mapNew p vf seq d.1 (blocksOf f) s
    touchSeq (modSeq s p seq (fun q => { q with f := q.f + n })) p seq
  | .pin seq base =>
    let f := (seqOf s p seq).f
    let s := dropPin s p base.toNat
    touchSeq (modSeq (pomPut s vf seq (f / 16) { base := base, w := false }) p seq (fun q => { q with f := q.f + 16 })) p seq
  | .unpin base => decCount (dropPin s p base.toNat) base.toNat
  | .free seq =>
    let s := (upTo (blocksOf (seqOf s p seq).f)).foldl (fun s b =>
      match pomFind s vf seq b with
      | none => s
      | some e => decCount (pomErase s vf seq b) e.base.toNat) s
    modSeq s p seq (fun q => { q with v := false, hot := false, f := 0 })

/-- Lower the frontier of a sequence to block `b` and drop the mappings from it on (R181). -/
def dropBlocks (s : State) (p vf seq b : Nat) : State :=
  let q := seqOf s p seq
  let s := ((upTo (blocksOf q.f)).filter (fun i => b ≤ i)).foldl (fun s i =>
    match pomFind s vf seq i with
    | none => s
    | some e => decCount (pomErase s vf seq i) e.base.toNat) s
  modSeq s p seq (fun q => { q with f := min q.f (16 * b) })

/-- Take units from the quota counter at issue (R174). -/
def takeUnits (s : State) (p n : Nat) : State :=
  modCurCore (modPart s p (fun x => { x with quota := x.quota - n })) (fun k => { k with units := k.units + n })

/-- A sequencer register (R261). -/
def cregVal (s : State) : CReg → DWord
  | .c n => (curCore s).c[n]
  | .z => 0

/-- Write a sequencer register; z discards. -/
def setCreg (s : State) (r : CReg) (w : DWord) : State :=
  match r with
  | .c n => modCurCore s (fun k => { k with c := k.c.set n w })
  | .z => s

/-- Hold something until the round's commit, in issue order (R136). -/
def hold (s : State) (h : Held) : State := modCurCore s (fun k => { k with held := k.held ++ [(curRc s, h)] })

/-- Is the enabling register's EN bit set (R322)? -/
def kvEn (w : DWord) : Bool := bit w 63

/-- Nonzero reserved bits of a sequence or base operand (R322). -/
def seqBad (w : DWord) : Bool := bitsN w 12 51 ≠ 0
def baseBad (w : DWord) : Bool := bitsN w 32 31 ≠ 0

/-- Pommel entries that a KV command needs (R171). -/
def kvNeeds (s : State) (p vf : Nat) : KvOp → Nat
  | .fork _ _ n => n
  | .app seq n _ => (((kvAhead s p vf).seq s p vf seq).needs n).1
  | .pin _ _ => 1
  | .unpin _ | .free _ => 0

/-- The sequence that a KV command which faults ABSENT waits for: a cold one that it names, else its own (R171). -/
def kvWants (s : State) (p seq : Nat) : KvOp → Nat
  | .fork q par _ => if (coldFault s p q).isNone && (coldFault s p par).isSome then par else q
  | .app _ _ _ | .pin _ _ | .unpin _ | .free _ => seq

/-- Check a KV command and hold it, or fault (R173, R322). -/
def kvGo (s : State) (bad : Bool) (k : KvOp) (seq : Nat) : State :=
  let p := s.cur.part
  let vf := (curPart s).vf
  if bad then faultSeq s (kvPermAny seq)
  else match kvCheck s p vf k with
    | .error f => faultSeq (modCurGraph s (fun g =>
        if g.fault.isSome then g else { g with wantSeq := kvWants s p seq k, wantNew := kvNeeds s p vf k })) f
    | .ok n =>
      hold (if n = 0 then s else takeUnits s p n) (.kv (match k with | .app q m _ => .app q m n | k => k))

def execKvApp (a : CReg) (n : BitVec 24) (s : State) : Host.Outcome State Fault Refusal :=
  .next (timedGo s (fun s =>
    let w := cregVal s a
    if kvEn w then kvGo s (seqBad w) (.app (bitsN w 0 12) n.toNat 0) (bitsN w 0 12) else s))

def execKvFork (a b : CReg) (n : BitVec 24) (s : State) : Host.Outcome State Fault Refusal :=
  .next (timedGo s (fun s =>
    let w := cregVal s a
    let x := cregVal s b
    if kvEn w then kvGo s (seqBad w || seqBad x) (.fork (bitsN w 0 12) (bitsN x 0 12) n.toNat) (bitsN w 0 12) else s))

def execKvPin (a b : CReg) (s : State) : Host.Outcome State Fault Refusal :=
  .next (timedGo s (fun s =>
    let w := cregVal s a
    let x := cregVal s b
    if kvEn x then kvGo s (seqBad w || baseBad x) (.pin (bitsN w 0 12) (BitVec.ofNat 32 (bitsN x 0 32))) (bitsN w 0 12) else s))

/-- `kv.unpin` names no sequence: the one in a PERM report of it is FREE too (log 37). -/
def execKvUnpin (b : CReg) (s : State) : Host.Outcome State Fault Refusal :=
  .next (timedGo s (fun s =>
    let x := cregVal s b
    if kvEn x then kvGo s (baseBad x) (.unpin (BitVec.ofNat 32 (bitsN x 0 32))) (Config.kvBlock 4096).toNat else s))

def execKvFree (a : CReg) (s : State) : Host.Outcome State Fault Refusal :=
  .next (timedGo s (fun s =>
    let w := cregVal s a
    if kvEn w then kvGo s (seqBad w) (.free (bitsN w 0 12)) (bitsN w 0 12) else s))

end Sys2Proof.Machine
end

