-- ==== Sys2Proof/Machine/Streams.lean ====
section
/-! DEFINITION. Stream ports (R212, R306 to R310), memory tiles (R206 to R209), skiver nodes (R210, R211, R239). -/

namespace Sys2Proof.Machine

/-! ### Conversions of a skiver or a transform (R210, R211, R318) -/

def fmtFF : Fmt → Option FF
  | .fp32 => some .fp32
  | .fp16 => some .fp16
  | .bf16 => some .bf16
  | .e4m3 => some .e4m3
  | .e5m2 => some .e5m2
  | .e2m1s => some .e2m1s
  | .e8m0 => some .e8m0
  | .i8 | .i16 | .i32 | .n8 | .n16 | .n32 | .x4 | .x8 => none

/-- Range of an integer format (R234). -/
def fmtRange : Fmt → Option (Int × Int)
  | .i8 => some (-128, 127)
  | .i16 => some (-32768, 32767)
  | .i32 => some (-(2 ^ 31), 2 ^ 31 - 1)
  | .n8 => some (0, 255)
  | .n16 => some (0, 65535)
  | .n32 => some (0, 2 ^ 32 - 1)
  | .fp32 | .fp16 | .bf16 | .e4m3 | .e5m2 | .e2m1s | .e8m0 | .x4 | .x8 => none

/-- The format of a 4-bit code (R148). -/
def fmtOf (n : Nat) : Option Fmt :=
  [Fmt.fp32, .fp16, .bf16, .e4m3, .e5m2, .e2m1s, .e8m0, .i8, .i16, .i32, .n8, .n16, .n32, .x4, .x8][n]?

/-- The mode of a 3-bit code (R210). -/
def rmodeOf (n : Nat) : Option RMode := [RMode.rne, .rna, .rtz, .rup, .rdn, .odd][n]?

/-- One element converted from a format to another (R235, R237, R239): floating point by ROUND, integers with saturation. -/
def convCode (src dst : Fmt) (mode : RMode) (ovf : Bool) (code : Nat) : Nat :=
  match fmtFF src, fmtFF dst with
  | some a, some b => (roundFV mode b ovf (decodeF a .nan code)).code
  | _, _ =>
    match fmtRange src, fmtRange dst with
    | some (lo, _), some (l, h) =>
      let x : Int := if lo < 0 then signed (fmtBits src) code else code
      ((clampI l h x) % 2 ^ fmtBits dst).toNat
    | _, _ => code

/-- The pairs that a skiver converts: floating point to floating point or integer to integer, to a format no wider, never to
E2M1S, E8M0, x4 or x8; integers under RNE (R211). -/
def skivPair (src dst : Fmt) (mode : RMode) : Bool :=
  fmtBits dst ≤ fmtBits src && dst ≠ .e2m1s && dst ≠ .e8m0 && dst ≠ .x4 && dst ≠ .x8
    && ((fmtFF src).isSome && (fmtFF dst).isSome || ((fmtRange src).isSome && (fmtRange dst).isSome && mode = .rne))

/-- A skiver word's fields (R210). -/
def skivSrc (w : DWord) : Fmt := (fmtOf (bitsN w 12 4)).getD .fp32
def skivDst (w : DWord) : Fmt := (fmtOf (bitsN w 8 4)).getD .fp32
def skivByp (w : DWord) : Bool := bit w 3

def skivConv (w : DWord) (code : Nat) : Nat :=
  if skivByp w then code else convCode (skivSrc w) (skivDst w) ((rmodeOf (bitsN w 5 3)).getD .rne) (bit w 4) code

/-! ### Lines of a port (R212) -/

/-- The line that a port drives and latches. -/
def portLine (r : StreamRec) : Fin 20 :=
  let k := r.port.val / 4
  if k = 0 || k = 2 then Fin.ofNat 20 (8 + r.line % 12) else Fin.ofNat 20 (r.line % 8)

/-- Drive a line in this fc (R204). -/
def driveLine (k : Core) (l : Fin 20) (x : Lanes) : Core := { k with lineNext := tput k.lineNext l.val x }

/-! ### Memory tiles (R206 to R209) -/

def tileKey (mt line : Nat) : Nat := mt * 4096 + line % 4096

def tileLine (k : Core) (mt line : Nat) : TileLine := tget TileLine.clear k.tiles (tileKey mt line)

def putTile (k : Core) (mt line : Nat) (x : TileLine) : Core := { k with tiles := tset TileLine.clear k.tiles (tileKey mt line) x }

/-- The encoding of a tile: the ENC of its port descriptors, raw32 when there is none (R209). -/
def tileEnc (k : Core) (mt : Nat) : BitVec 3 := ((k.tilePorts.find? (fun d => d.mt.val = mt)).map (·.enc)).getD 0

/-- The descriptor of a tile's read or write port. -/
def tilePortOf (k : Core) (mt : Nat) (read : Bool) : Option TilePort := k.tilePorts.find? (fun d => d.mt.val = mt && d.read = read)

/-- The k-th index of a pattern counter, without its BASE (R207). -/
def patIndex (d : TilePort) (k : Nat) : Int :=
  let n (i : Nat) := (d.cm1.toList.drop i).headD 0 + 1
  let s (i : Nat) := (d.str.toList.drop i).headD 0
  let k := k % (n 0 * n 1 * n 2 * n 3)
  (k % n 0 : Nat) * s 0 + (k / n 0 % n 1 : Nat) * s 1 + (k / (n 0 * n 1) % n 2 : Nat) * s 2 + (k / (n 0 * n 1 * n 2) : Nat) * s 3

/-- Line and word of lane `i` of vector `v` under a layout (R208). -/
def tileWord (layout : BitVec 2) (v i : Nat) : Nat × Nat :=
  let b := v / 32 * 32
  let r := v % 32
  match layout.toNat with
  | 0 => (b + r, i)
  | 1 => (b + i, r)
  | _ => (b + r, i ^^^ r)

/-- Does a pending window hold a line (R194)? -/
def windowOn (k : Core) (mt line : Nat) : Bool := k.windows.any (fun w => w.tile = mt && w.first ≤ line && line ≤ w.last)

/-- A line as a port reads it: a word that the same fc writes returns the value before the write (R206). -/
def tileBefore (k : Core) (mt line : Nat) : TileLine :=
  match tfind k.tileOld (tileKey mt line) with
  | some x => x
  | none => tileLine k mt line

/-- Read vector `v` of a tile: the lanes, a tag that does not agree (R209), or an open window (R194). -/
def tileRead (k : Core) (d : TilePort) (v : Nat) : Except (Option (BitVec 3)) Lanes :=
  let ls := (upTo 32).map (fun i => (tileWord d.layout v i).1)
  if ls.any (windowOn k d.mt.val) then .error none
  else match (ls.map (fun l => (tileBefore k d.mt.val l).tag)).find? (fun t => t ≠ 7 && t ≠ d.enc) with
    | some t => .error (some t)
    | none => .ok (Lanes.tab (fun i => let w := tileWord d.layout v i.val; (tileBefore k d.mt.val w.1).data[Fin.ofNat 32 w.2]))

/-- Write vector `v` of a tile: each touched line takes the port's encoding as its tag (R209). -/
def tileWrite (k : Core) (d : TilePort) (v : Nat) (x : Lanes) : Core :=
  (List.finRange 32).foldl (fun k i =>
    let w := tileWord d.layout v i.val
    let l := tileLine k d.mt.val w.1
    let key := tileKey d.mt.val w.1
    let k := if (tfind k.tileOld key).isSome then k else { k with tileOld := tput k.tileOld key l }
    putTile k d.mt.val w.1 { tag := d.enc, data := l.data.set (Fin.ofNat 32 w.2) x[i] }) k

/-! ### Coordinates and codes -/

/-- Base coordinate with the steps of a stream added (R307). -/
def streamCoord (r : StreamRec) (t k e : Nat) : List Int :=
  (List.finRange 5).map (fun i =>
    r.coord[i] + (if i.val = r.tdim then t * r.tstr else 0) + (if i.val = r.kdim then k * r.kstr else 0)
      + (if i.val = r.edim then e * r.estr else 0))

/-- Coordinates of a gathered element: the KDIM coordinate is C_KDIM + x. -/
def gatherCoord (r : StreamRec) (t e x : Nat) : List Int :=
  (List.finRange 5).map (fun i =>
    if i.val = r.kdim then r.coord[i] + x
    else r.coord[i] + (if i.val = r.tdim then t * r.tstr else 0) + (if i.val = r.edim then e * r.estr else 0))

/-- Element `e` of a packed vector. -/
def laneCode (x : Lanes) (width e : Nat) : Nat := elemAt (x.get (Fin.ofNat 32 (e / (32 / width)))) width (e % (32 / width))

/-- A packed vector from its element codes. -/
def packLanes (width : Nat) (codes : List Nat) : Lanes :=
  let per := 32 / width
  Lanes.tab (fun i => BitVec.ofNat 32 (((codes.drop (i.val * per)).take per).reverse.foldl (fun w c => w * 2 ^ width + c) 0))

/-! ### Accesses of a port -/

/-- An access in the making: the state, the port's latch, the stores it makes. -/
structure Acc1 where
  s : State
  latch : Option Latch
  stores : List Store

/-- The L2 access of a read whose tile is latched; a fault names the address (R159 to R161). -/
def reach (s : State) (v : Via) (l : Latch) (off : Nat) : Except AccFault State :=
  let a := l.frame.toNat * 65536 + off
  (l2Touch s v l.cattr a .read).mapError (fun c => { cls := c, info := a })

/-- One element of a tensor through a port's latch, or through the edge TLB of a die: its code, or the stores of a write.
Outside the tensor a read is zero and a write is discarded (R150). -/
def elemAccess (c : Nat) (p : Nat) (v : Via) (t : Tensor) (co : List Int) (gather : Bool) (wr : Option Nat) (x : Acc1) :
    Except AccFault (Acc1 × Nat) :=
  if !t.inside co then .ok (x, 0)
  else
    let n := t.tileNo co
    let o := t.elemOff co
    let width := fmtBits t.fmt
    let off := o * width / 8
    match (if gather then throughTlb x.s (dieOf c) p v t n off wr.isSome else throughLatch x.s p v t n off wr.isSome x.latch) with
    | .error f => .error f
    | .ok (s, l) =>
      let latch := if gather then x.latch else some l
      let base := l.frame.toNat * 65536
      match wr with
      | some code => .ok ({ s := s, latch := latch, stores := x.stores ++ codeStores base o width code l.cattr v.cls }, 0)
      | none =>
        match reach s v l off with
        | .error f => .error f
        | .ok s => .ok ({ x with s := s, latch := latch }, codeAt (readAs s (· = .core c)) base o width)

/-- Elements one after the other. -/
def elemAccesses (f : Nat → Acc1 → Except AccFault (Acc1 × Nat)) : Nat → Nat → Acc1 → Except AccFault (Acc1 × List Nat)
  | 0, _, x => .ok (x, [])
  | n + 1, e, x =>
    match f e x with
    | .error q => .error q
    | .ok (x, c) =>
      match elemAccesses f n (e + 1) x with
      | .error q => .error q
      | .ok (x, l) => .ok (x, c :: l)

/-- Writes one after the other, up to the first that faults. -/
def elemWrites (f : Nat → Acc1 → Except AccFault (Acc1 × Nat)) : Nat → Nat → Acc1 → Acc1 × Option AccFault
  | 0, _, x => (x, none)
  | n + 1, e, x =>
    match f e x with
    | .error q => (x, some q)
    | .ok (x, _) => elemWrites f n (e + 1) x

/-- The stores of one step, with the fills that they need at issue (R160); the first fault in the order of the elements stands. -/
def storesOf (v : Via) (f : Nat → Acc1 → Except AccFault (Acc1 × Nat)) (n : Nat) (x : Acc1) : Except AccFault Acc1 :=
  let r := elemWrites f n 0 x
  match fillFor v r.1.stores (storeSectors r.1.stores []) r.1.s with
  | .error q => .error q
  | .ok s => match r.2 with
    | some q => .error q
    | none => .ok { r.1 with s := s }

/-- A stream fault placed at its port (R130). -/
def portFault (port : Fin 16) (f : AccFault) : FaultInfo :=
  { cls := f.cls, detail := port.val, info := BitVec.ofNat 64 f.info, lane := none }

/-- The report of a stream port: the unit of the operator that the port follows, or of the lowest armed one (R129). -/
def portReport (s : State) (r : StreamRec) (f : FaultInfo) : Report :=
  match curGraph s with
  | some g => if r.opx = 0xFF then seqReport s f else unitReport (curPart s) s.cur.slot g r.opx.toNat f s.cur.core.val 127 s.cur.li g.rc 0
  | none => seqReport s f

/-- The class of the traffic of a port: that of its unit's demand, for a free port that of the lowest armed operator (R84). -/
def portClass (g : Graph) (r : StreamRec) : BitVec 2 :=
  unitClass g (if r.opx = 0xFF then (armedOps g).headD 255 else r.opx.toNat)

/-- A time above LIMIT of the stream's operator is not read (R103): what the port delivers for it is a FREE value (log entry 31). -/
def beyondLanes (t k : Nat) : Lanes := Lanes.tab (fun i => Config.beyondLimit t k i.val)

/-- The position of a KIND 1 stream in its queue: the vector index (R307), or none below ORIGIN (R103). -/
def queueVec (g : Graph) (d : TilePort) (r : StreamRec) (t k : Nat) : Option Nat :=
  let q := opAt g r.qopx.toNat
  if t < q.origin then none
  else
    let z := q.qd * q.t
    let slot := if z = 0 then 0 else (t - q.origin) % z
    some (((d.base : Int) + patIndex d k + (r.nv * slot : Nat)) % 4096).toNat

/-- The index of a gathered access: element (k, t) of the index tensor. -/
def gatherIndex (c p : Nat) (v : Via) (g : Graph) (r : StreamRec) (t k : Nat) (x : Acc1) : Except AccFault (Acc1 × Nat) :=
  match tensorOf g r.itid with
  | none => .ok (x, 0)
  | some it => elemAccess c p v it [(k : Int), (t : Int)] true none x

/-- Bytes of a KV position: frame and byte offset of step k (R307). -/
def kvOff (t k : Nat) : Nat := 4096 * (t % 16) + 128 * k

/-- Read the vector of step k of position t (R307). -/
def readVector (s : State) (c : Fin 64) (p vf : Nat) (g : Graph) (r : StreamRec) (latch : Option Latch) (t k : Nat) :
    Except FaultInfo (State × Option Latch × Lanes) :=
  let x : Acc1 := { s := s, latch := latch, stores := [] }
  let via : Via := { vf := vf, port := c.val, cls := portClass g r }
  match r.kind.toNat with
  | 1 =>
    match tilePortOf (coreOf s c) r.mt.val true with
    | none => .ok (s, latch, Lanes.zero)
    | some d =>
      match queueVec g d r t k with
      | none => .ok (s, latch, Lanes.zero)
      | some v =>
        if (opAt g r.qopx.toNat).limit < t then .ok (s, latch, beyondLanes t k)
        else match tileRead (coreOf s c) d v with
        | .ok l => .ok (s, latch, l)
        | .error none => .error { cls := cUnderrun, detail := r.port.val, info := BitVec.ofNat 64 t, lane := none }
        | .error (some tag) =>
          .error { cls := cEncode, detail := r.mt.val, info := BitVec.ofNat 64 (tag.toNat + 8 * d.enc.toNat), lane := none }
  | 2 =>
    let off := kvOff t k
    match kvPlace s p vf r.seq.toNat r.lg.toNat t off false with
    | .error f => .error (portFault r.port f)
    | .ok none => .ok (s, latch, Lanes.zero)
    | .ok (some (f, ca)) =>
      match l2Touch (touchDesc s via f) via ca (f * 65536 + off) .read with
      | .error q => .error (portFault r.port { cls := q, info := f * 65536 + off })
      | .ok s =>
        let rd := readAs s (· = .core c.val)
        .ok (touchSeq s p r.seq.toNat, latch,
          Lanes.tab (fun i => BitVec.ofNat 32 (leVal ((upTo 4).map (fun b => rd (f * 65536 + off + 4 * i.val + b))))))
  | kind =>
    match tensorOf g r.tid with
    | none => .ok (s, latch, Lanes.zero)
    | some ten =>
      let width := fmtBits ten.fmt
      let n := 32 * (32 / width)
      let go : Except AccFault (Acc1 × List Nat) :=
        if kind = 3 then
          match gatherIndex c.val p via g r t k x with
          | .error f => .error f
          | .ok (x, i) => elemAccesses (fun e x => elemAccess c.val p via ten (gatherCoord r t e i) true none x) n 0 x
        else elemAccesses (fun e x => elemAccess c.val p via ten (streamCoord r t k e) false none x) n 0 x
      match go with
      | .error f => .error (portFault r.port f)
      | .ok (x, l) => .ok (x.s, x.latch, packLanes width l)

/-- Width of the elements that a step of a port takes from its line or puts on it: a write through a skiver that converts takes those of the
skiver's source format (R211, R307). -/
def stepWidth (w : DWord) (r : StreamRec) (t : Tensor) : Nat := if r.write && !skivByp w then fmtBits (skivSrc w) else fmtBits t.fmt

/-- Write the vector of step k of position t: the stores, or the change of the memory tile at once (R309). -/
def writeVector (s : State) (c : Fin 64) (p vf : Nat) (g : Graph) (r : StreamRec) (latch : Option Latch) (t k : Nat) (v : Lanes) :
    Except FaultInfo (State × Option Latch × List Store) :=
  let x : Acc1 := { s := s, latch := latch, stores := [] }
  let via : Via := { vf := vf, port := c.val, cls := portClass g r }
  match r.kind.toNat with
  | 1 =>
    match tilePortOf (coreOf s c) r.mt.val false with
    | none => .ok (s, latch, [])
    | some d =>
      match queueVec g d r t k with
      | none => .ok (s, latch, [])
      | some i =>
        if ((upTo 32).map (fun j => (tileWord d.layout i j).1)).any (windowOn (coreOf s c) d.mt.val) then
          .error { cls := cOverrun, detail := r.port.val, info := BitVec.ofNat 64 t, lane := none }
        else .ok (modCore s c (fun q => tileWrite q d i v), latch, [])
  | 2 =>
    let off := kvOff t k
    match kvPlace s p vf r.seq.toNat r.lg.toNat t off true with
    | .error f => .error (portFault r.port f)
    | .ok none => .ok (s, latch, [])
    | .ok (some (f, ca)) =>
      let st := (List.finRange 32).flatMap (fun i => codeStores (f * 65536 + off) i.val 32 v[i].toNat ca via.cls)
      match fillFor via st (storeSectors st []) (touchDesc s via f) with
      | .error q => .error (portFault r.port q)
      | .ok s => .ok (touchSeq s p r.seq.toNat, latch, st)
  | kind =>
    match tensorOf g r.tid with
    | none => .ok (s, latch, [])
    | some ten =>
      let w := (coreOf s c).skiv[r.port]
      let width := stepWidth w r ten
      let n := 32 * (32 / width)
      let code := fun e => some (skivConv w (laneCode v width e))
      let go : Except AccFault Acc1 :=
        if kind = 3 then
          match gatherIndex c.val p via g r t k x with
          | .error f => .error f
          | .ok (x, i) => storesOf via (fun e x => elemAccess c.val p via ten (gatherCoord r t e i) true (code e) x) n x
        else storesOf via (fun e x => elemAccess c.val p via ten (streamCoord r t k e) false (code e) x) n x
      match go with
      | .error f => .error (portFault r.port f)
      | .ok x => .ok (x.s, x.latch, x.stores)

/-! ### Steps of a port (R308) -/

/-- Is the port's operator armed? A free port always steps. -/
def portOn (g : Graph) (r : StreamRec) : Bool := r.opx = 0xFF || (stAt g r.opx.toNat).arm.isSome

/-- Is the port at a position of its progression? -/
def portLive (q : Port) : Bool := !q.prog.isEmpty && !q.fin && 0 ≤ q.pos && q.pos ≤ q.prog.b

/-- The port after a step (R308). -/
def advancePort (r : StreamRec) (q : Port) : Port :=
  if q.step + 1 < r.nv then { q with step := q.step + 1 }
  else
    let pos := q.pos + q.prog.s
    { q with step := 0, pos := pos, fin := q.prog.b < pos }

def modPort (k : Core) (i : Fin 16) (f : Port → Port) : Core := { k with ports := k.ports.set i (f k.ports[i]) }

/-- What the access of a port at position `t` has met: the window that its words lie in, the position that it reads (R123, R194). -/
def hitOf (k : Core) (c : Nat) (g : Graph) (r : StreamRec) (t step : Nat) : Option Hit :=
  if r.kind = 2 then (if r.write then none else some (.kv r.seq.toNat t))
  else match tilePortOf k r.mt.val (!r.write) with
    | none => none
    | some d => match queueVec g d r t step with
      | none => none
      | some v =>
        let lines := (upTo 32).map (fun j => (tileWord d.layout v j).1)
        (k.windows.find? (fun w => w.tile = d.mt.val && lines.any (fun l => w.first ≤ l && l ≤ w.last))).map (.window c)

/-- One port makes one step. -/
def stepPort (s : State) (i : Fin 16) (reads : Bool) : State :=
  let k := curCore s
  let q := k.ports[i]
  match curGraph s, q.active with
  | some g, some r =>
    if r.write = reads then s
    else
      let line := portLine r
      if !(portOn g r && portLive q) then
        (if r.write then s else modCurCore s (fun k => driveLine k line Lanes.zero))
      else
        let p := s.cur.part
        let vf := (curPart s).vf
        let t := q.pos.toNat
        if q.slow then
          takeFault .round s p s.cur.slot (portReport s r
            { cls := if r.write then cOverrun else cUnderrun, detail := r.port.val, info := BitVec.ofNat 64 t, lane := none })
        else if r.write then
          let s := portReads s i line
          match writeVector s s.cur.core p vf g r q.latch t q.step (tget Lanes.zero k.lineNow line.val) with
          | .error f => takeHit s p s.cur.slot (portReport s r f) (hitOf k s.cur.core.val g r t q.step)
          | .ok (s, latch, st) =>
            let st := st.map (fun x => { x with port := i.val, rc := g.rc, li := s.cur.li })
            modCurCore s (fun k => { modPort k i (fun q => { advancePort r q with latch := latch }) with stores := k.stores ++ st })
        else
          match readVector s s.cur.core p vf g r q.latch t q.step with
          | .error f => takeHit s p s.cur.slot (portReport s r f) (hitOf k s.cur.core.val g r t q.step)
          | .ok (s, latch, x) =>
            modCurCore s (fun k => driveLine (modPort k i (fun q => { advancePort r q with latch := latch })) line x)
  | _, _ => s

/-- Every port of a mask makes one step; reads come before writes, so that a read of a word that the same fc writes returns
the value before the write (R206). Two that name one tile port both get their line: DESIGN CHOICE (log entry 93). -/
def stepPorts (s : State) (mask : BitVec 16) : State :=
  let ps := (List.finRange 16).filter (fun i => mask.getLsbD i.val)
  let s := ps.foldl (fun s i => stepPort s i true) s
  ps.foldl (fun s i => stepPort s i false) s

/-! ### Stream instructions (R310) -/

/-- The record of the next round: the one set in this boundary, or the active one. -/
def nextRec (q : Port) : Option StreamRec := match q.next with | some r => some r | none => q.active

/-- Does a change of record drop the latch: another TID, MT or KIND (R310)? -/
def dropsLatch (a b : Option StreamRec) : Bool :=
  match a, b with
  | some a, some b => a.tid ≠ b.tid || a.mt ≠ b.mt || a.kind ≠ b.kind
  | _, _ => true

/-- The port with a record in force from the next round start on. -/
def setNext (q : Port) (r : StreamRec) : Port :=
  { q with next := some r, latch := if dropsLatch (nextRec q) (some r) then none else q.latch }

def execSdef (port : Fin 16) (n : BitVec 8) (s : State) : Host.Outcome State Fault Refusal :=
  .next (bndGo s (fun s =>
    match ((curCore s).records.drop n.toNat).head? with
    | some r => modCurCore s (fun k => modPort k port (fun q => setNext q r))
    | none => s))

/-- A field of a record replaced (R310). -/
def setField (r : StreamRec) (f : Fin 7) (w : DWord) : StreamRec :=
  let c := bitsI w 0 32
  match f.val with
  | 0 => { r with coord := r.coord.set 0 c }
  | 1 => { r with coord := r.coord.set 1 c }
  | 2 => { r with coord := r.coord.set 2 c }
  | 3 => { r with coord := r.coord.set 3 c }
  | 4 => { r with coord := r.coord.set 4 c }
  | 5 => { r with seq := BitVec.ofNat 12 (bitsN w 0 12) }
  | _ => { r with lg := BitVec.ofNat 6 (bitsN w 0 6) }

def execSset (port : Fin 16) (f : Fin 7) (a : CReg) (s : State) : Host.Outcome State Fault Refusal :=
  .next (bndGo s (fun s =>
    let w := cregVal s a
    modCurCore s (fun k => modPort k port (fun q =>
      match nextRec q with
      | some r => setNext q (setField r f w)
      | none => q))))

def execSarm (port : Fin 16) (a b : CReg) (s : State) : Host.Outcome State Fault Refusal :=
  .next (bndGo s (fun s =>
    let lo := bitsN (cregVal s a) 0 48
    let hi := bitsN (cregVal s b) 0 48
    modCurCore s (fun k => modPort k port (fun q => { q with freeNext := { a := lo, b := hi, s := 1 } }))))

def execSstep (mask : BitVec 16) (s : State) : Host.Outcome State Fault Refusal := .next (timedGo s (fun s => stepPorts s mask))

/-! ### Translation by a layout unit (R151 to R153) -/

/-- Stamp and CONT bit of a list entry (R255). -/
def stampOf (w : DWord) : Nat := bitsN w 52 12
def contOf (w : DWord) : Bool := bit w 51

/-- How often an entry steps a port: an sstep once, a tile step at each of its replays (R308, R333). -/
def stepsPort (i : Fin 16) (w : DWord) : Nat := match decodeEntry true w none with
  | .ok (.sstep mask) => if mask.getLsbD i.val then 1 else 0
  | .ok (.tstep _ _ _ rep _ mask) => if mask.getLsbD i.val then rep.toNat + 1 else 0
  | _ => 0

/-- The replays of tile steps that are still to come. -/
def replaysLeft (k : Core) (i : Fin 16) : Nat := (k.sad.filter (fun x => match x.2 with
  | .replay _ _ _ mask _ => mask.getLsbD i.val
  | .compute _ _ _ _ | .drive _ _ | .accWrite _ _ | .loadLine _ _ _ _ => false)).length

/-- Steps of a port that the entries of a timed list make; `more` is set within a two-word entry. -/
def countSteps (i : Fin 16) : Bool → List DWord → Nat
  | _, [] => 0
  | true, _ :: l => countSteps i false l
  | false, w :: l => stepsPort i w + countSteps i (contOf w) l

/-- The steps that a core's port still makes in the round (R255, R308). -/
def stepsLeft (k : Core) (i : Fin 16) : Nat := replaysLeft k i + countSteps i false ((k.seqList.drop k.seqLi).takeWhile (fun w => stampOf w ≠ 0xFFF))

/-- Do the next `n` steps of a port, of elements of a width, access a coordinate of its tensor (R307, R308)? -/
def reaches (r : StreamRec) (width : Nat) (co : List Int) : Nat → Port → Bool
  | 0, _ => false
  | n + 1, q =>
    portLive q && ((upTo (32 * (32 / width))).any (fun e => streamCoord r q.pos.toNat q.step e = co) || reaches r width co n (advancePort r q))

/-- Has the round under way still a step to make at the port: is its operator armed, is it at a position? -/
def stillSteps (k : Core) (g : Graph) (r : StreamRec) (i : Fin 16) : Bool :=
  g.run = .round && portOn g r && portLive k.ports[i] && stepsLeft k i ≠ 0

/-- A layout unit translates, ahead of its step, an access that a stream port makes in the round under way, through the port's latch. A
translation that fails latches nothing: its fault is raised at the step that makes the access (R128, R152, R165). It translates for no other position, and without a tensor or a coordinate inside it there is nothing to translate (R150,
R151). Time that the buffer of a port to memory does not absorb leaves it not ready at the port's next step (R151, R308; log entry 31): the
ports of KV page sets and of gathers have no latch, and are late in the same way. -/
def execTranslation (core : Fin 64) (port : Fin 16) (use : PortUse) (coord : List Int) (s : State) : Host.Outcome State Fault Refusal :=
  .next (match (coreOf s core).owner with
    | none => s
    | some (p, slot) =>
      let k := coreOf s core
      match graphOf s p slot, (k.ports[port]).active with
      | some g, some r =>
        let late (s : State) : State := modCore s core (fun k => modPort k port (fun q => { q with slow := q.slow || use.slow }))
        if r.kind = 1 || use.write ≠ r.write || !stillSteps k g r port then s
        else if r.kind ≠ 0 then late s
        else match tensorOf g r.tid with
        | none => s
        | some t =>
          if !t.inside coord || !reaches r (stepWidth k.skiv[r.port] r t) coord (stepsLeft k port) k.ports[port] then s
          else
            match throughLatch s p { vf := (partOf s p).vf, port := core.val, cls := portClass g r } t (t.tileNo coord)
                (t.elemOff coord * fmtBits t.fmt / 8) use.write (k.ports[port]).latch with
            | .error _ => s
            | .ok (s, l) => late (modCore s core (fun k => modPort k port (fun q => { q with latch := some l })))
      | _, _ => s)

end Sys2Proof.Machine
end

