-- ==== Sys2Proof/Machine/Saddle.lean ====
section
/-! DEFINITION. The saddle array (R213 to R218, R245, R246, R326 to R336) and the stamp bank instructions (R344, R345). -/

namespace Sys2Proof.Machine

/-! ### Geometry (R213, R326, R327, R330) -/

/-- K rows and N columns of one element. -/
def Rect.elemK (r : Rect) : Nat :=
  match r.form with
  | .indexed => 64
  | .fast => 128
  | .dense | .affine | .off => if r.fmt = .e2m1s then 64 else 32

def Rect.elemN (r : Rect) : Nat :=
  match r.form with
  | .indexed | .fast => 32
  | .dense | .affine | .off => if r.fmt = .bf16 || r.fmt = .f16 then 16 else 32

def Rect.kR (r : Rect) : Nat := r.nr * r.elemK
def Rect.nR (r : Rect) : Nat := r.nc * r.elemN

/-- Bytes of a column in the main and in the extra area (R330). -/
def Rect.cb (r : Rect) : Nat :=
  match r.form with
  | .indexed | .fast => 32 * r.nr
  | .dense | .affine | .off => if r.fmt = .bf16 || r.fmt = .f16 then 64 * r.nr else 32 * r.nr

def Rect.xb (r : Rect) : Nat :=
  match r.form with
  | .indexed => 8 * r.nr
  | .fast => 16 * r.nr
  | .dense => if r.fmt = .e2m1s then 2 * r.nr else 0
  | .affine | .off => 0

/-- Fabric cycles of a load (R330). -/
def Rect.loadTime (r : Rect) (lines : Bool) : Nat :=
  if lines then (if r.fmt = .bf16 || r.fmt = .f16 then 16 else if r.fmt = .e2m1s then 9 else 8)
  else ceilDiv (r.cb + r.xb) 32

/-- Fabric cycles of an element row (R334); a rectangle that is off takes those of the dense form (log entry 12). -/
def Rect.rowDelay (r : Rect) : Nat :=
  match r.form with
  | .dense | .off => 3
  | .indexed | .fast => 4
  | .affine => 8

/-- Element at row `i` and column `j` of the rectangle. -/
def Rect.elem (r : Rect) (i j : Nat) : Fin 96 := Fin.ofNat 96 (12 * (r.row0 + i) + r.col0 + j)

/-- Bottom element of element column `j`. -/
def Rect.bottom (r : Rect) (j : Nat) : Fin 96 := r.elem (r.nr - 1) j

/-- Row line of element row `i`, column line of element column `j`. -/
def Rect.hl (r : Rect) (i : Nat) : Nat := (r.row0 + i) % 8
def Rect.vl (r : Rect) (j : Nat) : Fin 20 := Fin.ofNat 20 (8 + (r.col0 + j) % 12)

/-- Does the rectangle hold the element? -/
def Rect.holds (r : Rect) (e : Nat) : Bool :=
  r.form ≠ .off && r.row0 ≤ e / 12 && e / 12 < r.row0 + r.nr && r.col0 ≤ e % 12 && e % 12 < r.col0 + r.nc

/-- FORM code of an element inside a rectangle (R138, R326). -/
def formCode : SForm → BitVec 3
  | .dense => 0
  | .indexed => 1
  | .fast => 2
  | .affine => 3
  | .off => 4

/-- One row-gain write on the elements of a core (R332). -/
def writeGain (k : Core) (g : GainOp) : Core :=
  let r := k.rects[g.slot]
  allElems k (fun e x =>
    if !(r.row0 ≤ e.val / 12 && e.val / 12 < r.row0 + r.nr && r.col0 ≤ e.val % 12 && e.val % 12 < r.col0 + r.nc) then x
    else match g.row with
      | none => { x with r := { x.r.rewrite [(.gain, 0xFFFFFFFF)] with gains := Vector.replicate 32 g.val } }
      | some n =>
        if n / 32 = e.val / 12 - r.row0 then
          { x with r := { x.r.rewrite [(.gain, oneLane n)] with gains := x.r.gains.set (Fin.ofNat 32 n) g.val } }
        else x)

/-- Gain writes in list order, those of one entry as they were executed (R332). -/
def insertGain (g : GainOp) : List GainOp → List GainOp
  | [] => [g]
  | x :: r => if g.li < x.li then g :: x :: r else x :: insertGain g r

/-- Rectangles, forms and gains take effect at a round start (R327, R332). -/
def applyRects (k : Core) : Core :=
  let k := { k with rects := k.rectsNext }
  let k := allElems k (fun e x =>
    match k.rects.toList.find? (fun r => r.holds e.val) with
    | some r => { x with sad := true, form := formCode r.form }
    | none => { x with sad := false, form := 0 })
  { (k.gainsNext.foldl (fun l g => insertGain g l) []).foldl writeGain k with gainsNext := [] }

def execSmode (slot : Fin 8) (row0 : Fin 8) (col0 : Fin 12) (nrm1 : Fin 8) (ncm1 : Fin 12) (form : SForm) (fmt : STy) (s : State) :
    Host.Outcome State Fault Refusal :=
  .next (bndGo s (fun s => modCurCore s (fun k =>
    let r : Rect := { row0 := row0.val, col0 := col0.val, nr := nrm1.val + 1, nc := ncm1.val + 1, form := form, fmt := fmt }
    { k with rectsNext := k.rectsNext.set slot r })))

/-- A gain write waits for the next round start, where later entries in list order win over earlier ones; a timed one waits for its commit before that (R332). -/
def execSgain (slot : Fin 8) (a : CReg) (all : Bool) (row : BitVec 8) (s : State) : Host.Outcome State Fault Refusal :=
  .next (seqGo s (fun s =>
    let g : GainOp := { slot := slot, row := if all then none else some row.toNat, val := lowW (cregVal s a), li := s.cur.li }
    if inSection s then modCurCore s (fun k => { k with gainsNext := k.gainsNext ++ [g] })
    else modCurCore s (fun k => { k with gainsHeld := k.gainsHeld ++ [g] })))

/-! ### Weights (R329 to R331) -/

def loftByte (k : Core) (a : Nat) : Byte := tget 0 k.loft a

def loftBytes (k : Core) (a n : Nat) : List Byte := (upTo n).map (fun i => loftByte k (a + i))

/-- Column by column, main area then extra area (R330). -/
def loftCols (k : Core) (r : Rect) (start : Nat) : List (List Byte) :=
  (upTo r.nR).map (fun n => loftBytes k (start + r.cb * n) r.cb ++ loftBytes k (start + r.nR * r.cb + r.xb * n) r.xb)

def bytesNat (l : List Byte) (i : Nat) : Nat := ((l.drop i).headD 0).toNat

/-- The first fast group with more than four set bits: column and group (R216). -/
def fastBad (r : Rect) (cols : List (List Byte)) : Option (Nat × Nat) :=
  ((upTo cols.length).zip cols).findSome? (fun nc =>
    ((upTo r.xb).find? (fun j => 4 < ((upTo 8).filter (fun i => bytesNat nc.2 (r.cb + j) / 2 ^ i % 2 = 1)).length)).map (fun j => (nc.1, j)))

/-- The open window that a region of the loft touches (R194). Windows of the loft are kept in segments under tile 16. -/
def loftWindow (k : Core) (first last : Nat) : Option Window := k.windows.find? (fun w => w.tile = 16 && w.first ≤ last && first ≤ w.last)

/-- A load of a slot begins; what an earlier one has loaded holds until it completes (R329). -/
def putWeights (s : State) (slot : Fin 8) (w : Weights) : State :=
  modCurCore s (fun k => { k with weights := tput k.weights slot.val (w :: tget [] k.weights slot.val) })

/-- The weights of a slot in an fc: those of the load that was the last to complete; of loads that complete in one fc, the one
that began last (R329). -/
def weightsAt (k : Core) (slot rc : Nat) : List (List Byte) :=
  (((tget [] k.weights slot).filter (fun w => w.ready ≤ rc)).foldl (fun (best : Option Weights) w =>
    match best with
    | none => some w
    | some b => if b.ready < w.ready then some w else some b) none).elim [] (·.cols)

/-- The column lines that a cycle of a load takes from are checked (R205): each by the element of its column. -/
def loadChecks (s : State) (slot : Fin 8) (li : Nat) : State :=
  let r := (curCore s).rects[slot]
  saddleRead s li ((upTo r.nc).map (r.elem 0)) (fun e w => if w.lane.val < r.elemN then inPlace (· = .line (vLine e)) w else none)

/-- One cycle of the load from the column lines that completes in fc `ready` (R331): every cell column takes a word of its line. -/
def loadCycle (k : Core) (slot : Fin 8) (u ready : Nat) : Core :=
  let r := k.rects[slot]
  let bytes := if u = 8 && r.fmt = .e2m1s then 2 else 4
  let take (w : Weights) : Weights :=
    { w with cols := ((upTo r.nR).zip w.cols).map (fun nc =>
        let x := tget Lanes.zero k.lineNow (r.vl (nc.1 / r.elemN)).val
        nc.2 ++ leOf bytes (x.get (Fin.ofNat 32 nc.1)).toNat) }
  { k with weights := tmod k.weights slot.val (fun l => l.map (fun w => if w.ready = ready then take w else w)) }

def execSload (slot : Fin 8) (lines : Bool) (seg : BitVec 8) (off : BitVec 8) (s : State) : Host.Outcome State Fault Refusal :=
  .next (timedGo s (fun s =>
    let k := curCore s
    let r := k.rects[slot]
    let rc := curRc s
    let li := s.cur.li
    let t := r.loadTime lines
    if lines then
      let s := putWeights (loadChecks s slot li) slot { ready := rc + t - 1, cols := List.replicate r.nR [] }
      modCurCore s (fun k =>
        { loadCycle k slot 0 (rc + t - 1) with sad := k.sad ++ ((upTo t).drop 1).map (fun u => (rc + u, .loadLine slot u (rc + t - 1) li)) })
    else
      let start := 65536 * seg.toNat + 256 * off.toNat
      let size := r.nR * (r.cb + r.xb)
      match loftWindow k (start / 65536) ((start + size - 1) / 65536) with
      | some w =>
        takeHit s s.cur.part s.cur.slot (seqReport s { cls := cUnderrun, detail := 0xFFFF, info := BitVec.ofNat 64 start, lane := none })
          (some (.window s.cur.core.val w))
      | none =>
        let cols := loftCols k r start
        match (if r.form = .fast then fastBad r cols else none) with
        | some (n, j) =>
          faultSeq s { cls := cEncode, detail := 0xFFFF, info := BitVec.ofNat 64 (n % 65536 + j % 256 * 65536), lane := none }
        | none => putWeights s slot { ready := rc + t - 1, cols := cols }))

/-! ### Tile steps (R214 to R217, R333 to R335) -/

/-- Format of the activations and of dense weights. -/
def Rect.ff (r : Rect) : FF :=
  match r.form with
  | .indexed | .fast => .e4m3
  | .dense | .affine | .off => styFF r.fmt

/-- Activation of K row `k` from the row lines as latched now (R214). -/
def activation (lines : Table Lanes) (r : Rect) (k : Nat) : FV :=
  let i := k / r.elemK
  let q := k % r.elemK
  let x := tget Lanes.zero lines (r.hl i)
  let code := laneCode x r.ff.width q
  if r.ff = .e2m1s then e2m1sVal false (elemAt (x.get 8) 8 (q / 32)) code else decodeF r.ff .nan code

/-- A dense weight of a column at K row `k` (R330). -/
def denseWeight (r : Rect) (col : List Byte) (k : Nat) : FV :=
  match r.ff with
  | .e2m1s => e2m1sVal false (bytesNat col (r.cb + k / 32)) (bytesNat col (k / 2) / (if k % 2 = 0 then 1 else 16) % 16)
  | .bf16 | .fp16 => decodeF r.ff .nan (bytesNat col (2 * k) + 256 * bytesNat col (2 * k + 1))
  | .e4m3 | .e5m2 | .fp32 | .e8m0 => decodeF r.ff .nan (bytesNat col k)

/-- The codebook index of a column at K row `k`, if its bitmap bit is 1 (R216, R330). -/
def indexAt (r : Rect) (col : List Byte) (k : Nat) : Option Nat :=
  let map := bytesNat col (r.cb + k / 8)
  if map / 2 ^ (k % 8) % 2 = 0 then none
  else if r.form = .fast then
    let slot := ((upTo (k % 8)).filter (fun i => map / 2 ^ i % 2 = 1)).length
    some (bytesNat col (2 * (k / 8) + slot / 2) / (if slot % 2 = 0 then 1 else 16) % 16)
  else some (bytesNat col (k / 2) / (if k % 2 = 0 then 1 else 16) % 16)

/-- The codebook value of an index (R216, R250), none when it is invalid or beyond SIZE. -/
def codebookVal (b : Bank) (c : Nat) : Option FV :=
  if b.kind = 3 then (b.entry (c / 8)).map (fun w => decodeF .e4m3 .nan (bitsN w (8 * (c % 8)) 8))
  else (b.entry c).map (fun w => decodeF .fp16 .nan (bitsN w 0 16))

/-- Selections of invalid indices in a column: element, lane, index, in K order (R335). -/
def badCells (b : Bank) (r : Rect) (n : Nat) (col : List Byte) : List (Nat × Nat × Nat) :=
  (upTo r.kR).filterMap (fun k =>
    match indexAt r col k with
    | none => none
    | some c => if (codebookVal b c).isNone then some ((r.elem (k / r.elemK) (n / r.elemN)).val, n % 32, c) else none)

/-- The products of a block of 32 K rows (R245, R246). -/
def blockPairs (b : Bank) (lines : Table Lanes) (r : Rect) (col : List Byte) (blk : Nat) : List (FV × FV) :=
  (upTo 32).filterMap (fun i =>
    let k := 32 * blk + i
    if r.form = .indexed || r.form = .fast then
      (match indexAt r col k with
       | none => none
       | some c => (codebookVal b c).map (fun v => (activation lines r k, v)))
    else some (activation lines r k, denseWeight r col k))

/-- The dense and indexed pass: block sums added in K order (R215, R245). -/
def densePass (b : Bank) (lines : Table Lanes) (r : Rect) (col : List Byte) (ps : Word) : Word :=
  (upTo (r.kR / 32)).foldl (fun ps blk => addW ps (BitVec.ofNat 32 (dotRound (blockPairs b lines r col blk)).code)) ps

/-- The affine pass: one rounding per row (R217). -/
def affinePass (k : Core) (lines : Table Lanes) (r : Rect) (n : Nat) (col : List Byte) (ps : Word) : Word :=
  (upTo r.kR).foldl (fun ps row =>
    let g := (elemOf k (r.elem (row / 32) (n / r.elemN))).r.gains.get (Fin.ofNat 32 row)
    let p := (mulFV (activation lines r row) (denseWeight r col row)).1
    (rne (addFV (mulFV (f32 g) (f32 ps)).1 p).1).1) ps

/-- Is the rectangle's operator armed? -/
def rectArmed (g : Graph) (k : Core) (r : Rect) : Bool :=
  let o := (elemOf k (r.elem 0 0)).opx.toNat
  o < g.ops.length && (stAt g o).arm.isSome

/-- Column results gathered by element column, lane n mod 32 (R215, R334). -/
def columnLanes (r : Rect) (j : Nat) (res : List Word) : Lanes :=
  (upTo r.elemN).foldl (fun x m =>
    let n := r.elemN * j + m
    x.set (Fin.ofNat 32 n) ((res.drop n).headD 0)) Lanes.zero

/-- The report of a cell: its element, its lane, the tile step's list index (R129, R335). -/
def cellReport (s : State) (g : Graph) (li : Nat) (bank : Fin 16) (e lane c : Nat) : Report :=
  let o := (elemOf (curCore s) (Fin.ofNat 96 e)).opx.toNat
  unitReport (curPart s) s.cur.slot g o (indexFault bank c lane) s.cur.core.val e li g.rc 0

/-- Elements of a rectangle, and those of its bottom row. -/
def Rect.elems (r : Rect) : List (Fin 96) :=
  (List.finRange 96).filter (fun e => r.row0 ≤ e.val / 12 && e.val / 12 < r.row0 + r.nr && r.col0 ≤ e.val % 12 && e.val % 12 < r.col0 + r.nc)

def Rect.bottoms (r : Rect) : List (Fin 96) := (upTo r.nc).map r.bottom

/-- Lanes of a row line that hold the activations of a row and, of E2M1S, their spares (R214). -/
def Rect.actLanes (r : Rect) : Nat := r.elemK * r.ff.width / 32 + (if r.ff = .e2m1s then 1 else 0)

/-- The words that a pass reads are checked (R205): the row lines with the activations, by the first element of their row; row gains, which the
affine form reads (R332); accumulators where it adds to them. -/
def passChecks (s : State) (r : Rect) (acc : Bool) (li : Nat) : State :=
  let s := saddleRead s li ((upTo r.nr).map (fun i => r.elem i 0))
    (fun e w => if w.lane.val < r.actLanes then inPlace (· = .line (hLine e)) w else none)
  let s := if r.form = .affine then saddleRead s li r.elems (fun _ => inPlace (· = .gain)) else s
  if acc then saddleRead s li r.bottoms (fun _ w => if w.lane.val < r.elemN then inPlace (· = .acc) w else none) else s

/-- The compute part of a replay, at fc t_r + 1: results fall due NR·D later (R334). -/
def tileCompute (s : State) (slot : Fin 8) (acc : Bool) (bank : Fin 16) (li : Nat) : State :=
  match curGraph s with
  | none => s
  | some g =>
    let k := curCore s
    let r := k.rects[slot]
    let due := g.rc + r.nr * r.rowDelay
    if r.form = .off || !rectArmed g k r then
      (if acc then s
       else modCurCore s (fun k => { k with sad := k.sad ++ (upTo r.nc).map (fun j => (due, .drive (r.vl j) Lanes.zero)) }))
    else
      let s := passChecks s r acc li
      let b := k.banks[bank]
      let cols := weightsAt k slot.val g.rc
      let at' (n : Nat) := (cols.drop n).headD []
      let bad := if r.form = .indexed || r.form = .fast then (upTo r.nR).flatMap (fun n => badCells b r n (at' n)) else []
      let first := bad.foldl (fun (best : Option (Nat × Nat × Nat)) x => match best with
        | none => some x
        | some y => if x.1 * 32 + x.2.1 < y.1 * 32 + y.2.1 then some x else some y) none
      match (if b.zsub then none else first) with
      | some (e, lane, c) => takeFault .round s s.cur.part s.cur.slot (cellReport s g li bank e lane c)
      | none =>
        let start (n : Nat) : Word := if acc then (elemOf k (r.bottom (n / r.elemN))).r.accW.get (Fin.ofNat 32 n) else 0
        let res := (upTo r.nR).map (fun n =>
          if r.form = .affine then affinePass k k.lineNow r n (at' n) (start n) else densePass b k.lineNow r (at' n) (start n))
        let acts : List (Nat × SadAct) := (upTo r.nc).map (fun j =>
          if acc then (due, .accWrite (r.bottom j).val ((upTo r.elemN).map (fun m =>
            let n := r.elemN * j + m
            (n % 32, (res.drop n).headD 0))))
          else (due, .drive (r.vl j) (columnLanes r j res)))
        modCurCore s (fun k =>
          let k := bad.foldl (fun k x => modElem k (Fin.ofNat 96 x.1) (fun e => { e with r := addIxz e.r true })) k
          { k with sad := k.sad ++ acts })

/-- Working words updated; NaN and infinite results are counted (R218, R335). -/
def accUpdate (k : Core) (e : Nat) (val : List (Nat × Word)) : Core :=
  modElem k (Fin.ofNat 96 e) (fun x =>
    let r := val.foldl (fun (r : ElemRegs) v =>
      { r.rewrite [(.acc, oneLane v.1)] with accW := r.accW.set (Fin.ofNat 32 v.1) v.2 }) x.r
    { x with r := addExc r (val.filter (fun v => isExceptional v.2)).length })

/-- A replay at fc t_r: its ports step, and the compute part follows one fc later. -/
def tileReplay (s : State) (slot : Fin 8) (acc : Bool) (bank : Fin 16) (mask : BitVec 16) (li : Nat) : State :=
  let s := stepPorts s mask
  modCurCore s (fun k => { k with sad := k.sad ++ [(curRc s + 1, .compute slot acc bank li)] })

/-- One piece of array work that has fallen due on the core that executes. -/
def sadAct (s : State) : SadAct → State
  | .replay slot acc bank mask li => tileReplay s slot acc bank mask li
  | .compute slot acc bank li => tileCompute s slot acc bank li
  | .drive line val => modCurCore s (fun k => driveLine k line val)
  | .accWrite e val => modCurCore s (fun k => accUpdate k e val)
  | .loadLine slot u ready li => modCurCore (loadChecks s slot li) (fun k => loadCycle k slot u ready)

/-- A tile-step row: the first replay now, the others at their intervals (R333, R334). -/
def execTstep (slot : Fin 8) (acc : Bool) (bank : Fin 16) (repm1 : BitVec 12) (intm1 : BitVec 10) (mask : BitVec 16) (s : State) :
    Host.Outcome State Fault Refusal :=
  .next (timedGo s (fun s =>
    let rc := curRc s
    let li := s.cur.li
    let later := ((upTo (repm1.toNat + 1)).drop 1).map (fun r => (rc + r * (intm1.toNat + 1), SadAct.replay slot acc bank mask li))
    tileReplay (modCurCore s (fun k => { k with sad := k.sad ++ later })) slot acc bank mask li))

/-- The accumulators that an `sread` reads are checked (R205). -/
def readChecks (s : State) (slot : Fin 8) : State :=
  if (curCore s).rects[slot].form = .off then s else saddleRead s s.cur.li (curCore s).rects[slot].bottoms (fun _ => inPlace (· = .acc))

/-- Working accumulator words of the bottom elements on their column lines (R336). -/
def execSread (slot : Fin 8) (clr : Bool) (s : State) : Host.Outcome State Fault Refusal :=
  .next (timedGo s (fun s => modCurCore (readChecks s slot) (fun k =>
    let r := k.rects[slot]
    (upTo r.nc).foldl (fun k j =>
      let x := elemOf k (r.bottom j)
      if r.form = .off then driveLine k (r.vl j) Lanes.zero
      else
        let k := driveLine k (r.vl j) (Lanes.tab (fun i => x.r.accW[i]))
        if clr then modElem k (r.bottom j) (fun x => { x with r := { x.r.rewrite [(.acc, 0xFFFFFFFF)] with accW := Vector.replicate 32 0 } }) else k) k)))

/-! ### Stamp banks (R344, R345) -/

def bankOp (s : State) (o : BankOp) : State := modCurCore s (fun k => { k with bankOps := k.bankOps ++ [o] })

def execStw (bank : Fin 16) (a : CReg) (idx : BitVec 8) (s : State) : Host.Outcome State Fault Refusal :=
  .next (timedGo s (fun s => bankOp s (.write bank idx (cregVal s a))))

def execStinv (bank : Fin 16) (first nm1 : BitVec 8) (s : State) : Host.Outcome State Fault Refusal :=
  .next (timedGo s (fun s => bankOp s (.inval bank first.toNat (first.toNat + nm1.toNat))))

def execStsz (bank : Fin 16) (size : BitVec 9) (s : State) : Host.Outcome State Fault Refusal :=
  .next (timedGo s (fun s => bankOp s (.size bank size.toNat)))

def execStsw (bank : Fin 16) (s : State) : Host.Outcome State Fault Refusal := .next (timedGo s (fun s => bankOp s (.swap bank)))

/-- The shadow half. -/
def Bank.shadow (b : Bank) : Fin 2 := if b.act then 0 else 1

def modBank (k : Core) (n : Fin 16) (f : Bank → Bank) : Core := { k with banks := k.banks.set n (f k.banks[n]) }

/-- One bank operation on the shadow half (R345 step 1); a swap is noted. -/
def applyBankOp (k : Core) (o : BankOp) : Core :=
  match o with
  | .write n idx v => modBank k n (fun b =>
      { b with ent := b.ent.set b.shadow (tset 0 b.ent[b.shadow] idx.toNat v)
               valid := b.valid.set b.shadow (b.valid[b.shadow] ||| ((1 : BitVec 256) <<< idx.toNat)) })
  | .inval n first last => modBank k n (fun b =>
      let v := ((upTo 256).filter (fun i => first ≤ i && i ≤ last)).foldl (fun v i => v &&& ~~~((1 : BitVec 256) <<< i)) b.valid[b.shadow]
      { b with valid := b.valid.set b.shadow v })
  | .size n z => modBank k n (fun b => { b with size := b.size.set b.shadow z })
  | .swap n => modBank k n (fun b => { b with swp := true })

/-- The bank operations of a round at its commit: list order, then at most one swap of each bank (R345). -/
def applyBankOps (k : Core) : Core :=
  let k := k.bankOps.foldl applyBankOp k
  { k with bankOps := [], banks := Vector.ofFn (fun n =>
      let b := k.banks[n]
      if b.swp then { b with act := !b.act, swp := false } else b) }

end Sys2Proof.Machine
end

