-- ==== Sys2Proof/Machine/Regions.lean ====
section
/-! DEFINITION. Region words (R305), the accesses of an engine command to them (R186, R315), pending windows (R194) and the
ENGINE fault (R133). -/

namespace Sys2Proof.Machine

/-! ### Regions (R305) -/

def regionOf (w : DWord) : Region :=
  match bitsN w 61 3 with
  | 0 => if bitsN w 0 16 % 8 = 0 then .tensor (BitVec.ofNat 20 (bitsN w 41 20)) (bitsN w 16 25) (bitsN w 0 16) else .bad
  | 1 => if bitsN w 0 45 = 0 then .tile (Fin.ofNat 16 (bitsN w 57 4)) (bitsN w 45 12) else .bad
  | 2 =>
    if bitsN w 0 37 = 0 && bitsN w 53 8 < 192 && bitsN w 37 16 % 8 = 0 then .loft (65536 * bitsN w 53 8 + bitsN w 37 16) else .bad
  | 3 => if bitsN w 24 37 = 0 then .hide (bitsN w 0 24) else .bad
  | _ => .bad

/-- Does a region of `len` bytes end where R305 asks? -/
def regionFits (s : State) (p : Nat) (g : Graph) (len : Nat) : Region → Bool
  | .tensor tid tile off => (tensorOf g tid).elim false (fun t => tile < t.tableSize) && off + len ≤ 65536
  | .tile _ line => 128 * line + len ≤ 524288
  | .loft off => off + len ≤ 192 * 65536
  | .hide off => off < (partOf s p).hideSize && off + ceilDiv len 8 ≤ (partOf s p).hideSize
  | .bad => false

/-- Is the region one of tensor or memory tile, as a collective asks (R319)? -/
def Region.phasedOrTile : Region → Bool
  | .tensor _ _ _ | .tile _ _ => true
  | .loft _ | .hide _ | .bad => false

/-- The loft is no source (R315). -/
def Region.source : Region → Bool
  | .tensor _ _ _ | .tile _ _ | .hide _ => true
  | .loft _ | .bad => false

/-! ### Why an engine's access stops (R315) -/

inductive Stall where
  | fetch (frame : Nat)   -- a frame that is fetched or moving
  | room                  -- the version store (R189)
  | swap (seq : Nat)      -- a sequence that is swapped in (R321)
  | bad (info : Nat)      -- ENGINE
  | lost (addr : Nat)     -- ENGINE, and the frame is poisoned: a metadata read failed (R160)
  deriving DecidableEq, Repr

/-- Does the stall end the command? The others are waits. -/
def Stall.ends : Stall → Bool
  | .bad _ | .lost _ => true
  | .fetch _ | .room | .swap _ => false

def stallOf (s : State) (f : AccFault) : Stall :=
  if f.cls = cAbsent then .fetch (f.info / 65536)
  else if f.cls = cPoison && mdtFails s (f.info / 256) then .lost f.info
  else .bad f.info

/-- The L2 accesses of some sectors: the state, or what stops the first that is refused (R159 to R161). -/
def touchSectors (v : Via) (ca : BitVec 2) (u : Use) : List Nat → State → Except Stall State
  | [], s => .ok s
  | a :: r, s =>
    match l2Touch s v ca a u with
    | .error c => .error (stallOf s { cls := c, info := a })
    | .ok s => touchSectors v ca u r s

def sectorsOf (a n : Nat) : List Nat := if n = 0 then [] else (upTo ((a + n - 1) / 64 - a / 64 + 1)).map (fun i => 64 * (a / 64 + i))

/-- Where a tensor region lies: its address and attribute (R152). -/
def engAddr (s : State) (p : Nat) (v : Via) (g : Graph) (tid : BitVec 20) (tile off : Nat) (write : Bool) :
    Except Stall (State × Nat × BitVec 2) :=
  match tensorOf g tid with
  | none => .error (.bad 0)
  | some t =>
    match translate s p v t tile off write with
    | .error f => .error (stallOf s f)
    | .ok (s, l) => .ok (s, l.frame.toNat * 65536 + off, l.cattr)

/-- A byte as a command reads it: published, or stored by the issuing core up to the release (R186). -/
def seenByte (s : State) (seen : Table Byte) (a : Nat) : Byte := match tfind seen a with | some b => b | none => readB s.mem a

/-- The bytes that the issuing core has itself stored in the phase, up to a release (R186). -/
def coreSeen (s : State) (c : Nat) : Table Byte :=
  s.pend.foldl (fun t e => (tget [] e.2.own c).foldl (fun t b => tput t b.1 b.2) t) []

/-- Bytes of hide words from a byte address on. -/
def hideByte (s : State) (p i : Nat) : Byte := BitVec.ofNat 8 (bitsN (hideRead s p (i / 8)) (8 * (i % 8)) 8)

/-- Bytes of a memory tile, from the start of a line on (R206). -/
def tileByte (k : Core) (mt line i : Nat) : Byte :=
  let b := 128 * line + i
  BitVec.ofNat 8 (((tileLine k mt (b / 128)).data.get (Fin.ofNat 32 (b / 4))).toNat / 256 ^ (b % 4))

/-- A command asks the banks of some hide words (R74, R82). -/
def askHide (s : State) (p : Nat) (v : Via) (off n : Nat) : State :=
  (upTo n).foldl (fun s i => hideRequest s p (off + i) v.cls v.port) s

/-- Read `n` bytes of a region, as a command of core `c` reads them. -/
def readRegion (s : State) (p : Nat) (v : Via) (c : Nat) (g : Graph) (seen : Table Byte) (r : Region) (n : Nat) :
    Except Stall (State × List Byte) :=
  match r with
  | .tensor tid tile off =>
    match engAddr s p v g tid tile off false with
    | .error e => .error e
    | .ok (s, a, ca) =>
      match touchSectors v ca .read (sectorsOf a n) s with
      | .error e => .error e
      | .ok s => .ok (s, (upTo n).map (fun i => seenByte s seen (a + i)))
  | .tile mt line => .ok (s, (upTo n).map (tileByte (coreOf s (coreNo c)) mt.val line))
  | .hide off => .ok (askHide s p v off (ceilDiv n 8), (upTo n).map (fun i => hideByte s p (8 * off + i)))
  | .loft _ | .bad => .error (.bad 0)

/-- A state, and what stopped the access, if anything did. -/
structure Put where
  s : State
  stop : Option Stall

/-- Write bytes into hide words, in address order; a word that R313 protects stops the write (R315). -/
def putHide (p : Nat) : List Byte → Nat → State → Put
  | [], _, s => { s := s, stop := none }
  | b :: r, i, s =>
    if hideProtected s p (i / 8) then { s := s, stop := some (.bad (i / 8)) }
    else putHide p r (i + 1) (hideWrite s p (i / 8) (setBits (hideRead s p (i / 8)) (8 * (i % 8)) 8 b.toNat))

/-- Write bytes into a memory tile from byte `b` on; each line touched takes the tile's encoding as its tag (R209, R315). -/
def putTileBytes (mt : Nat) : List Byte → Nat → Core → Core
  | [], _, k => k
  | x :: r, b, k =>
    let l := tileLine k mt (b / 128)
    let w := l.data.get (Fin.ofNat 32 (b / 4))
    let sh := 8 * (b % 4)
    let w' : Word := BitVec.ofNat 32 (w.toNat - w.toNat / 2 ^ sh % 256 * 2 ^ sh + x.toNat * 2 ^ sh)
    putTileBytes mt r (b + 1) (putTile k mt (b / 128) { tag := tileEnc k mt, data := l.data.set (Fin.ofNat 32 (b / 4)) w' })

/-- Write bytes into the loft; the segments count as written (R137, R219). -/
def putLoft (k : Core) (a : Nat) (l : List Byte) : Core :=
  let segs := if l.isEmpty then [] else upFrom ((a + l.length - 1) / 65536 - a / 65536 + 1) (a / 65536)
  { k with
    loft := ((upTo l.length).zip l).foldl (fun t x => tset 0 t (a + x.1) x.2) k.loft
    loftWritten := unionPos segs k.loftWritten }

/-- Write bytes of a command into its destination, `shift` bytes into it. -/
def writeRegion (s : State) (p : Nat) (v : Via) (c id : Nat) (g : Graph) (r : Region) (shift : Nat) (l : List Byte) : Put :=
  match r with
  | .tensor tid tile off =>
    (match engAddr s p v g tid tile (off + shift) true with
     | .error e => { s := s, stop := some e }
     | .ok (s, a, ca) =>
       let stores := ((upTo l.length).zip l).map (fun x => ({ addr := a + x.1, byte := x.2, mask := 0xFF, cattr := ca, cls := v.cls } : Store))
       if !versionFits s p (stores.map (·.addr)) then { s := s, stop := some .room }
       else match fillFor v stores (storeSectors stores []) s with
         | .error f => { s := s, stop := some (stallOf s f) }
         | .ok s => { s := performStores s p v.vf v.port (.engine id) stores, stop := none })
  | .tile mt line => { s := modCore s (coreNo c) (putTileBytes mt.val l (128 * line + shift)), stop := none }
  | .loft off => { s := modCore s (coreNo c) (fun k => putLoft k (off + shift) l), stop := none }
  | .hide off => putHide p l (8 * off + shift) (askHide s p v (off + shift / 8) (ceilDiv l.length 8))
  | .bad => { s := s, stop := some (.bad 0) }

/-! ### Shape of a command -/

/-- Engine class of a command: 0 copy, 1 gather, 2 transform, 3 collective, 4 stirrup (R360). -/
def Cmd.cls : Cmd → Nat
  | .copy _ _ _ => 0
  | .gather _ _ _ _ _ => 1
  | .xf _ _ _ _ _ _ => 2
  | .mc _ _ _ _ _ _ _ | .bar _ _ | .red _ _ _ _ _ _ _ _ _ => 3
  | .qk _ _ _ _ _ _ _ _ | .pv _ _ _ _ | .get _ _ _ => 4

/-- The formats of `xf.cvt`: destination, source, mode, overflow bit (R318). -/
def xfDst (x : BitVec 24) : Option Fmt := fmtOf (x.toNat / 2 ^ 20)
def xfSrc (x : BitVec 24) : Option Fmt := fmtOf (x.toNat / 2 ^ 16 % 16)
def xfMode (x : BitVec 24) : Option RMode := rmodeOf (x.toNat / 2 ^ 13 % 8)

/-- Bytes of a transform's result for 8·n bytes of source. -/
def xfLen (sel : BitVec 8) (n : Nat) (x : BitVec 24) : Nat :=
  if sel = 0 then
    match xfSrc x, xfDst x with
    | some a, some b => ceilDiv (64 * n / fmtBits a * fmtBits b) 8
    | _, _ => 0
  else 8 * n

/-- Destination of a copy, gather, transform or stirrup command: the region word and its length in bytes. -/
def Cmd.dest : Cmd → Option (DWord × Nat)
  | .copy _ b n => some (b, 8 * n)
  | .gather _ b _ n rb => some (b, n * rb)
  | .xf sel _ (some b) n _ x => some (b, xfLen sel n x)
  | .xf _ _ none _ _ _ => none
  | .mc _ b n _ _ _ _ => some (b, 4 * n)
  | .red _ _ b n _ _ _ _ _ => some (b, 4 * n)
  | .get b _ nl => some (b, 520 * nl)
  | .bar _ _ | .qk _ _ _ _ _ _ _ _ | .pv _ _ _ _ => none

/-! ### Windows (R194) -/

/-- The window that a destination of `len` bytes opens: memory tile and lines, or segments of the loft under tile 16. -/
def windowOf (id len : Nat) (r : Region) : Option Window :=
  if len = 0 then none
  else match r with
    | .tile mt line => some { tile := mt.val, first := line, last := line + (len - 1) / 128, cmd := id }
    | .loft off => some { tile := 16, first := off / 65536, last := (off + len - 1) / 65536, cmd := id }
    | .tensor _ _ _ | .hide _ | .bad => none

/-- The class of what an engine does for a graph, where its command names none (R84): DESIGN CHOICE (log entry 28), for copy, gather, transform
and stirrup commands that of the graph's most urgent unit armed when the command runs. -/
def graphClass (g : Graph) : BitVec 2 := g.st.foldl (fun c o => match o.2.arm with | some u => if u.prio < c then u.prio else c | none => c) 3

/-- THE WINDOW OF A COMMAND: of every one that writes a memory tile (R315), and of a copy, gather or transform that writes the loft
(R194). -/
def Cmd.window (id : Nat) (c : Cmd) : Option Window :=
  (c.dest.bind (fun d => windowOf id d.2 (regionOf d.1))).filter (fun w => w.tile < 16 || c.cls ≤ 2)

/-- Windows that a tile holds. -/
def windowsOn (k : Core) (tile : Nat) : Nat := (k.windows.filter (fun w => w.tile = tile)).length

/-- Open a window, unless the tile has eight. -/
def openWindow (k : Core) (w : Window) : Core :=
  if k.windows.contains w || (w.tile < 16 && 8 ≤ windowsOn k w.tile) then k else { k with windows := k.windows ++ [w] }

/-! ### The ENGINE fault (R133, R315) -/

/-- Engine code of a report (R129). -/
def engCode (opc : BitVec 8) : Nat :=
  match opc.toNat with
  | 0xD5 => 2
  | 0xD6 => 3
  | 0xD7 => 1
  | 0xD8 | 0xD9 | 0xDA => 4
  | 0xDB | 0xDC | 0xDD => 5
  | _ => 0

/-- Raise ENGINE for a command of a graph's core: DETAIL is the OPC (R130, R315). -/
def engineFault (s : State) (p slot core : Nat) (opc : BitVec 8) (info : Nat) : State :=
  let f : FaultInfo := { cls := cEngine, detail := opc.toNat, info := BitVec.ofNat 64 info, lane := none }
  takeFault .outside s p slot (plainReport (partOf s p) slot f core 0 0 (engCode opc))

/-- The windows that commands of a core wait for, in the order of their release, as far as there is room (R194). -/
def openWaiting (l : List Running) (k : Core) : Core :=
  l.foldl (fun k e => match e.cmd.window e.id with
    | some w => openWindow k w
    | none => k) k

/-- The command leaves its engine: its windows close, and those that waited for one open (R194). -/
def endCommand (s : State) (r : Running) : State :=
  let l := s.engines.filter (fun e => e.id ≠ r.id)
  modCore { s with engines := l } (coreNo r.core) (fun k =>
    openWaiting (l.filter (fun e => e.core = r.core)) { k with windows := k.windows.filter (fun w => w.cmd ≠ r.id) })

/-- A command fails: ENGINE, and it ends (R133). -/
def failCommand (s : State) (r : Running) (info : Nat) : State := endCommand (engineFault s r.part r.slot r.core r.opc info) r

/-- Work that is asked for once. -/
def askTask (s : State) (i : Instr) : State := if s.tasks.contains i then s else addTask s i

def modRunning (s : State) (id : Nat) (f : Running → Running) : State :=
  { s with engines := s.engines.map (fun e => if e.id = id then f e else e) }

/-- What a command does about a stall: it waits for what it has asked for, or it fails (R160, R189, R315, R321). A boundary that has
begun serves the wait for the version store; none is asked for again (R183). -/
def onStall (s : State) (r : Running) : Stall → State
  | .fetch f => askTask s (.frameFetch (BitVec.ofNat 32 f))
  | .room => modRunning (modPart s r.part (fun x => { x with bndReq := x.bndReq || !x.bndStarted })) r.id (fun r => { r with blocked := true })
  | .swap q => askTask s (.sequenceSwapIn (BitVec.ofNat 6 r.part) (BitVec.ofNat 12 q))
  | .bad info => failCommand s r info
  | .lost a => failCommand (addUrgent s (.framePoison ⟨BitVec.ofNat 32 (a / 65536), .unread⟩)) r a

/-- Four bytes to a word, lowest first. -/
def wordsOf : Nat → List Byte → List Word
  | 0, _ => []
  | n + 1, l => BitVec.ofNat 32 (leVal (l.take 4)) :: wordsOf n (l.drop 4)

def bytesOf (l : List Word) : List Byte := l.flatMap (fun w => leOf 4 w.toNat)

end Sys2Proof.Machine
end

