-- ==== Sys2Proof/Machine/Links.lean ====
section
/-! DEFINITION. Fabric links (R31 to R38): sequence numbers, credits, retry, retraining, exponent coding; groups and
collective operations (R39 to R50): multicast, barrier, reduction, abort. -/

namespace Sys2Proof.Machine

/-! ### Exponent coding (R36 to R38) -/

/-- Halve every count, when the number of coded flits has reached a multiple of 64 (R38). -/
def ExpState.settled (e : ExpState) : ExpState :=
  if e.halve then { e with counts := (e.counts.map (fun c => (c.1, c.2 / 2))).filter (fun c => c.2 ≠ 0), halve := false } else e

/-- Put an exponent in order: larger count first, smaller exponent on a tie. -/
def insertExp (x : Nat × Nat) : List (Nat × Nat) → List (Nat × Nat)
  | [] => [x]
  | y :: r => if y.2 < x.2 || (x.2 = y.2 && x.1 < y.1) then x :: y :: r else y :: insertExp x r

/-- The table T: the 16 exponents of largest count (R36). -/
def ExpState.top (e : ExpState) : List Nat :=
  let c := e.settled.counts
  let zeros := (upTo 32).filter (fun x => (tfind c x).isNone)
  (((c.foldl (fun l x => insertExp x l) []).map (·.1)) ++ zeros).take 16

def expOf (w : Word) : Nat := w.toNat / 2 ^ 23 % 256

/-- After a coded flit: each value counts once, and the flit counts (R38). -/
def ExpState.after (e : ExpState) (vals : List Word) : ExpState :=
  let e := e.settled
  let c := vals.foldl (fun c w => tset 0 c (expOf w) (min (tget 0 c (expOf w) + 1) 255)) e.counts
  { counts := c, n := e.n + 1, halve := (e.n + 1) % 64 = 0 }

/-- The bits of a number, least significant first. -/
def bitsLow : Nat → Nat → List Bool
  | 0, _ => []
  | n + 1, v => (v % 2 = 1) :: bitsLow n (v / 2)

def natOfBits : List Bool → Nat
  | [] => 0
  | b :: r => (if b then 1 else 0) + 2 * natOfBits r

/-- Place of an exponent in the table. -/
def placeOf (x : Nat) : List Nat → Nat → Option Nat
  | [], _ => none
  | y :: r, i => if x = y then some i else placeOf x r (i + 1)

/-- One value as R37 writes it. -/
def codeValue (t : List Nat) (w : Word) : List Bool :=
  let e := expOf w
  [bit (w.zeroExtend 64) 31]
    ++ (match placeOf e t 0 with
        | some i => true :: bitsLow 4 i
        | none => false :: bitsLow 8 e)
    ++ bitsLow 23 (w.toNat % 2 ^ 23)

/-- Read one value; the bits after it. -/
def decodeValue (t : List Nat) (b : List Bool) : Word × List Bool :=
  let sign := natOfBits (b.take 1)
  let hit := (b.drop 1).headD false
  let r := b.drop 2
  let e := if hit then (t.drop (natOfBits (r.take 4))).headD 0 else natOfBits (r.take 8)
  let r := if hit then r.drop 4 else r.drop 8
  (BitVec.ofNat 32 (sign * 2 ^ 31 + e * 2 ^ 23 + natOfBits (r.take 23)), r.drop 23)

def decodeValues (t : List Nat) : Nat → List Bool → List Word
  | 0, _ => []
  | n + 1, b => let x := decodeValue t b; x.1 :: decodeValues t n x.2

/-- Bits to bytes, each byte from its least significant bit upwards (R37). -/
def bitsToBytes : Nat → List Bool → List Byte
  | 0, _ => []
  | n + 1, b => BitVec.ofNat 8 (natOfBits (b.take 8)) :: bitsToBytes n (b.drop 8)

def bytesToBits (l : List Byte) : List Bool := l.flatMap (fun b => bitsLow 8 b.toNat)

/-- Payload bytes of a flit (R31). -/
def payloadBytes : Nat := 232

def padPayload (l : List Byte) : List Byte := l ++ List.replicate (payloadBytes - l.length) 0

/-- A coded payload. A flit that a retrain codes anew keeps its values; where they do not fit any more, which the manual leaves open, it is
sent whole (log entry 13). -/
def codePayload (e : ExpState) (vals : List Word) : List Byte :=
  let b := vals.flatMap (codeValue e.top)
  bitsToBytes (max payloadBytes (ceilDiv b.length 8)) b

/-- Values that the next flit takes: until the next would not fit (R37). -/
def fitCount (t : List Nat) : List Word → Nat → Nat
  | [], _ => 0
  | w :: r, used => let u := used + (codeValue t w).length; if 8 * payloadBytes < u then 0 else fitCount t r u + 1

/-- Lists of at most `n` items. -/
def chunkBy {α : Type} (n : Nat) : Nat → List α → List (List α)
  | 0, _ => []
  | fuel + 1, l => if l.isEmpty then [] else l.take n :: chunkBy n fuel (l.drop n)

/-! ### Groups (R39) -/

def groupOf (s : State) (g : Nat) : DWord := tget 0 s.groups g

def grpV (w : DWord) : Bool := bit w 63
def grpEng (w : DWord) : Nat := bitsN w 58 2
def grpParent (w : DWord) : Nat := bitsN w 53 5
def grpLocal (w : DWord) : Bool := bit w 34
def grpRoot (w : DWord) : BitVec 12 := BitVec.ofNat 12 (bitsN w 20 12)
def grpRsmd (w : DWord) : Nat := bitsN w 8 12

/-- Is this device the root? -/
def grpIsRoot (w : DWord) : Bool := grpParent w = 31

/-- The child ports, increasing. -/
def grpKids (w : DWord) : List Nat := (upTo 18).filter (fun i => bit w (35 + i))

/-- Ports of the group's tree at this device. -/
def grpPorts (w : DWord) : List Nat := (if grpParent w < 18 then [grpParent w] else []) ++ grpKids w

/-! ### Operations (R40 to R45) -/

def CollOp.new (group opn : Nat) : CollOp :=
  { group := group, opn := opn, own := none, kids := [], frags := 0, values := 0, arrived := [], down := [], whole := false, aborted := false }

def opOf (s : State) (group opn : Nat) : CollOp :=
  (s.collOps.find? (fun o => o.group = group && o.opn = opn)).getD (CollOp.new group opn)

def hasOp (s : State) (group opn : Nat) : Bool := s.collOps.any (fun o => o.group = group && o.opn = opn)

def putOp (s : State) (o : CollOp) : State :=
  if hasOp s o.group o.opn then
    { s with collOps := s.collOps.map (fun x => if x.group = o.group && x.opn = o.opn then o else x) }
  else { s with collOps := s.collOps ++ [o] }

def dropOp (s : State) (group opn : Nat) : State := { s with collOps := s.collOps.filter (fun o => !(o.group = group && o.opn = opn)) }

/-- The group and operation number of a collective command. -/
def Cmd.coll : Cmd → Option (Nat × Nat)
  | .mc _ _ _ _ _ g n => some (g, n)
  | .bar g n => some (g, n)
  | .red _ _ _ _ _ _ g _ n => some (g, n)
  | .copy _ _ _ | .gather _ _ _ _ _ | .xf _ _ _ _ _ _ | .qk _ _ _ _ _ _ _ _ | .pv _ _ _ _ | .get _ _ _ => none

/-- The class that a command names (R319). -/
def Cmd.classOr (d : BitVec 2) : Cmd → BitVec 2
  | .mc _ _ _ _ cls _ _ | .red _ _ _ _ _ cls _ _ _ => cls
  | .bar _ _ | .copy _ _ _ | .gather _ _ _ _ _ | .xf _ _ _ _ _ _ | .qk _ _ _ _ _ _ _ _ | .pv _ _ _ _ | .get _ _ _ => d

/-- The local command of an operation. -/
def localCmd (s : State) (group opn : Nat) : Option Running := s.engines.find? (fun r => r.cmd.coll = some (group, opn))

/-- Has the operation's local command ended: a command took its number, and none stands? -/
def cmdOver (s : State) (group opn : Nat) : Bool :=
  grpLocal (groupOf s group) && (localCmd s group opn).isNone
    && (tget 0 s.opn group + 65536 - opn) % 65536 ≠ 0 && (tget 0 s.opn group + 65536 - opn) % 65536 < 32768

/-- Is the operation over at this device: has its local command ended, and is nothing of it left? -/
def staleOp (s : State) (group opn : Nat) : Bool := cmdOver s group opn && !hasOp s group opn

/-- INFO of a collective's ENGINE fault (R320). -/
def collInfo (group opn : Nat) : Nat := group * 2 ^ 32 + opn

/-! ### Ports (R33 to R35) -/

def portOf (s : State) (i : Fin 18) : FPort := s.ports[i]

def modFPort (s : State) (i : Fin 18) (f : FPort → FPort) : State := { s with ports := s.ports.set i (f s.ports[i]) }

/-- A port is marked down: the operations on its groups end (R34, R45). -/
def portDown (s : State) (port : Fin 18) : State :=
  let s := emit (modFPort s port (fun p => { p with up := false, retraining := false, probe := none, proof := false })) (.portDown port.val)
  let hit (g n : Nat) : Bool := (grpPorts (groupOf s g)).contains port.val && (hasOp s g n || (localCmd s g n).isSome)
  let ids := s.collOps.map (fun o => (o.group, o.opn)) ++ s.engines.filterMap (fun r => r.cmd.coll)
  (ids.filter (fun x => hit x.1 x.2)).foldl (fun s x => askTask s (.collectiveTimeout (BitVec.ofNat 10 x.1) (BitVec.ofNat 16 x.2))) s

/-- A sequence number's successor. -/
def seqNext (n : Nat) : Nat := (n + 1) % 4096

/-- Index of the exponent state of VC1, VC2 or VC3. -/
def codedVc (f : Flit) : Option (Fin 3) :=
  if f.pfmt = 0 && 1 ≤ f.vc.toNat && f.vc.toNat ≤ 3 then some (Fin.ofNat 3 (f.vc.toNat - 1)) else none

/-- Uncoded values of a flit as a queue holds it. -/
def rawValues (f : Flit) : List Word := wordsOf f.cnt.toNat f.payload

/-- The class of a flit: VC0 and VC4 are most urgent, VC5 least, the others travel in the class that the command names (R32). -/
def flitClass (vc : BitVec 4) (cls : BitVec 2) : BitVec 2 := if vc = 0 || vc = 4 then 0 else if vc = 5 then 3 else cls

/-- The message that a flit belongs to, as a port counts its flits (R31). -/
def msgKey (f : Flit) : Nat := f.type.toNat * 2 ^ 32 + f.group.toNat * 2 ^ 16 + f.opn.toNat

/-- Does a queued entry take more values: is it coded, and more of its message to come (R37)? -/
def QFlit.takes (q : QFlit) (f : Flit) : Bool := (codedVc q.f).isSome && (codedVc f).isSome && !q.f.last && msgKey q.f = msgKey f

/-- An entry with more of its values. -/
def QFlit.join (q : QFlit) (f : Flit) (vals : List Word) : QFlit :=
  if q.takes f then { q with f := { q.f with last := f.last }, vals := q.vals ++ vals } else q

/-- A queue with a flit more. Values of a message that the queue holds join it: its flits are cut as they are sent (R37). -/
def enqueue (l : List QFlit) (q : QFlit) : List QFlit :=
  match l.find? (fun x => x.takes q.f) with
  | some _ => l.map (fun x => x.join q.f q.vals)
  | none => l ++ [q]

/-- Queue a flit for a port, with the values of its message where it is coded; `cls` is the class of its operation. -/
def queueFlit (s : State) (i : Fin 18) (cls : BitVec 2) (f : Flit) (vals : List Word) : State :=
  modFPort s i (fun p => { p with queue := enqueue p.queue { f := f, vals := vals, cls := flitClass f.vc cls, waited := 0 } })

/-- What is left of a message that will not be completed goes: an operation that an ABORT or a timeout ends sends no more values (R44, R45). -/
def dropParts (s : State) (group opn : Nat) : State :=
  (List.finRange 18).foldl (fun s i => modFPort s i (fun p =>
    { p with queue := p.queue.filter (fun q => !((codedVc q.f).isSome && !q.f.last && q.f.group.toNat = group && q.f.opn.toNat = opn)) })) s

/-- Queue a flit of the link itself. -/
def queueLink (s : State) (i : Fin 18) (f : Flit) : State := queueFlit s i 0 f []

/-- A flit with the header fields of a message; SEQ and ACK are set as it is sent. -/
def mkFlit (s : State) (vc type : Nat) (dst : BitVec 12) (group opn cnt : Nat) (rop pfmt : BitVec 4) (last : Bool) (frag : Nat)
    (payload : List Byte) : Flit :=
  { ver := 1, vc := BitVec.ofNat 4 vc, type := BitVec.ofNat 8 type, seq := 0, ack := 0, dst := dst, src := s.deviceId
    group := BitVec.ofNat 16 group, opn := BitVec.ofNat 16 opn, cnt := BitVec.ofNat 8 cnt, rop := rop, pfmt := pfmt, rsv := false
    last := last, frag := BitVec.ofNat 14 frag, payload := payload }

/-- A control flit of the link: IDLE, CREDIT or RETRY. DESIGN CHOICE (log entry 41): PFMT, ROP, CNT, LAST, FRAG, GROUP, OPN and DST are 0, which
the manual gives no meaning in these flits; they are not coded. -/
def linkFlit (s : State) (type : Nat) (payload : List Byte) : Flit := mkFlit s 0 type 0 0 0 0 0 0 false 0 (padPayload payload)

/-- Of what a queue holds, what goes into the next flit: of a coded message the values that fit, with the rest of it (R37). -/
def QFlit.cut (q : QFlit) (txE : Vector ExpState 3) : Flit × List Word :=
  match codedVc q.f with
  | none => (q.f, [])
  | some k =>
    let now := q.vals.take (max 1 (fitCount txE[k].top q.vals 0))
    let rest := q.vals.drop now.length
    ({ q.f with cnt := BitVec.ofNat 8 now.length, last := q.f.last && rest.isEmpty, payload := bytesOf now }, rest)

/-- Can no further value be added to the next flit of a queued entry: the next would not fit, or is to come with none left (R37)? -/
def QFlit.full (q : QFlit) (txE : Vector ExpState 3) : Bool :=
  match codedVc q.f with
  | none => true
  | some k => q.f.last || fitCount txE[k].top q.vals 0 < q.vals.length
      || 8 * payloadBytes < (q.vals.flatMap (codeValue txE[k].top)).length + 29

/-- Does a flit belong to a message of several? -/
def inMessage (f : Flit) : Bool := f.type = 0x10 || f.type = 0x11 || f.type = 0x12

/-- The flit with its index in the message, and the port's count after it. -/
def numberFrag (p : FPort) (f : Flit) : Flit × Table Nat :=
  if !inMessage f then (f, p.frags)
  else
    let n := tget 0 p.frags (msgKey f)
    ({ f with frag := BitVec.ofNat 14 n }, if f.last then terase p.frags (msgKey f) else tput p.frags (msgKey f) (n + 1))

/-- Send one flit: it takes the next SEQ, the ACK of the reverse direction, the coding of its VC, and stays in the replay
buffer (R34, R37, R38). -/
def sendFlit (s : State) (i : Fin 18) (f : Flit) : State :=
  let p := portOf s i
  let raw := { f with seq := BitVec.ofNat 12 p.txSeq, ack := BitVec.ofNat 12 p.rxSeq }
  let (sent, txE) := match codedVc f with
    | some k => ({ raw with payload := codePayload p.txE[k] (rawValues f) }, p.txE.set k (p.txE[k].after (rawValues f)))
    | none => (raw, p.txE)
  let s := modFPort s i (fun p =>
    { p with txSeq := seqNext p.txSeq, txE := txE, replay := p.replay ++ [(sent, raw)]
             credits := if f.vc = 0 then p.credits else p.credits.set (Fin.ofNat 8 f.vc.toNat) (p.credits[Fin.ofNat 8 f.vc.toNat] - 1) })
  let s := emit s (.flit i.val sent)
  match codedVc f with
  | some k => if (portOf s i).txE[k].halve then addUrgent s (.exponentCountHalve i .tx k) else s
  | none => s

/-- The queued flits that may go, each with its place: their VC holds a credit, they hold as many values as fit or the last of their message
(R37), and no flit of their message stands before them. -/
def sendable (p : FPort) : Nat → List QFlit → List QFlit → List (Nat × QFlit)
  | _, _, [] => []
  | i, seen, q :: r =>
    let free := (q.f.vc = 0 || 0 < p.credits[Fin.ofNat 8 q.f.vc.toNat]) && q.full p.txE
      && !seen.any (fun x => x.f.vc = q.f.vc && x.f.vc ≠ 0 && msgKey x.f = msgKey q.f)
    (if free then [(i, q)] else []) ++ sendable p (i + 1) (seen ++ [q]) r

/-- Does one flit go before another that stands after it in the queue: by class, then by arrival; one that has waited for 1 024 flits
of more urgent classes is granted the next (R82, R83)? -/
def goesBefore (a b : QFlit) : Bool :=
  let ga := decide (1024 ≤ a.waited)
  let gb := decide (1024 ≤ b.waited)
  if ga != gb then ga else a.cls ≤ b.cls

/-- The next flit that may go, with its place in the queue. -/
def nextFlit (p : FPort) : Option (Nat × QFlit) :=
  (sendable p 0 [] p.queue).foldl (fun b x => match b with
    | none => some x
    | some y => if goesBefore y.2 x.2 then some y else some x) none

/-- The queue once its entry `i` goes: what is left of a message keeps its place, and what may go and is less urgent has waited for it. -/
def afterSend (queue may : List (Nat × QFlit)) (i : Nat) (q : QFlit) (rest : List Word) : List QFlit :=
  queue.filterMap (fun x =>
    if x.1 = i then (if rest.isEmpty then none else some { q with vals := rest, waited := 0 })
    else some (if q.cls < x.2.cls && may.any (fun y => y.1 = x.1) then { x.2 with waited := x.2.waited + 1 } else x.2))

/-- A sender transmits while the replay buffer has room; with nothing to send it sends IDLE (R32, R34, R35). -/
def execFlitSend (port : Fin 18) (s : State) : Host.Outcome State Fault Refusal :=
  .next (
    let p := portOf s port
    if !p.up || p.retraining || 256 ≤ p.replay.length then s
    else match nextFlit p with
      | some (i, q) =>
        let c := q.cut p.txE
        let n := numberFrag p c.1
        let l := (upTo p.queue.length).zip p.queue
        sendFlit (modFPort s port (fun p =>
          { p with queue := afterSend l (sendable p 0 [] p.queue) i q c.2, frags := n.2 })) port n.1
      | none => sendFlit s port (linkFlit s 0x00 []))

/-- Drop the acknowledged flits: those up to the one that carries SEQ `ack`. -/
def dropAcked (ack : Nat) (l : List (Flit × Flit)) : List (Flit × Flit) :=
  if l.any (fun x => x.1.seq.toNat = ack) then (l.dropWhile (fun x => x.1.seq.toNat ≠ ack)).drop 1 else l

/-- A flit arrives that the link layer discards: one whose CRC fails, or one malformed in its link-layer fields. It is counted (of a CRC failure
R33 does not say so: DESIGN CHOICE, log entry 41) and RETRY is sent; where it is the first after a retrain, the retrain has
not succeeded and the port is marked down (R33, R34). -/
def badFlit (s : State) (port : Fin 18) : State :=
  let s := modFPort s port (fun p => { p with malformed := p.malformed + 1 })
  if (portOf s port).proof then portDown s port else queueLink s port (linkFlit s 0x02 [])

def execMalformedFlit (port : Fin 18) (s : State) : Host.Outcome State Fault Refusal :=
  .next (let p := portOf s port; if p.up && !p.retraining then badFlit s port else s)

/-- Return one credit for a VC (R32, R35). -/
def returnCredit (s : State) (port : Fin 18) (vc : BitVec 4) : State :=
  if vc = 0 then s
  else queueLink s port (linkFlit s 0x01 ((upTo 8).map (fun i => if i = vc.toNat then 1 else 0)))

/-- RECEIVING A FLIT: only the one whose SEQ is next is accepted; its ACK frees the replay buffer and its coding is undone
(R34, R37, R38). A well-formed one is the proof of a retrain (R33). `go` gets the accepted flit with its values. -/
def recvFlit (s : State) (port : Fin 18) (type vc : Nat) (f : Flit) (go : State → Flit → List Word → State) : State :=
  let p := portOf s port
  if !p.up || p.retraining then s
  else if !f.wf type vc then badFlit s port
  else if f.seq.toNat ≠ seqNext p.rxSeq then modFPort s port (fun p => { p with proof := false })
  else
    let vals := match codedVc f with
      | some k => decodeValues p.rxE[k].top f.cnt.toNat (bytesToBits f.payload)
      | none => []
    let s := modFPort s port (fun p =>
      let replay := dropAcked f.ack.toNat p.replay
      { p with
        rxSeq := f.seq.toNat, replay := replay, ackRx := f.ack.toNat, proof := false
        probe := (match p.probe with
          | some n => if replay.any (fun x => x.1.seq.toNat = n) then some n else none
          | none => none)
        rxE := (match codedVc f with
          | some k => p.rxE.set k (p.rxE[k].after vals)
          | none => p.rxE) })
    let s := match codedVc f with
      | some k => if (portOf s port).rxE[k].halve then addUrgent s (.exponentCountHalve port .rx k) else s
      | none => s
    go s f vals

def execIdle (port : Fin 18) (f : Flit) (s : State) : Host.Outcome State Fault Refusal := .next (recvFlit s port 0x00 0 f (fun s _ _ => s))

/-- Credits come back to the sender, at most to the receiver's 64 buffers (R32, R35). -/
def execCredit (port : Fin 18) (f : Flit) (s : State) : Host.Outcome State Fault Refusal :=
  .next (recvFlit s port 0x01 0 f (fun s f _ => modFPort s port (fun p =>
    { p with credits := Vector.ofFn (fun i : Fin 8 => min 64 (p.credits[i] + ((f.payload.drop i.val).headD 0).toNat)) })))

/-- Exponent counts are halved (R38). -/
def execExponentCountHalve (port : Fin 18) (dir : Dir) (vc : Fin 3) (s : State) : Host.Outcome State Fault Refusal :=
  .next (modFPort s port (fun p =>
    match dir with
    | .tx => { p with txE := p.txE.set vc p.txE[vc].settled }
    | .rx => { p with rxE := p.rxE.set vc p.rxE[vc].settled }))

/-! ### Messages -/

/-- The class of an operation at this device: what the local command names; a flit carries none, so where the device only relays, or its
command has not been issued, the least urgent. DESIGN CHOICE (log entry 77). -/
def opClass (s : State) (group opn : Nat) : BitVec 2 :=
  match localCmd s group opn with
  | some r => r.cmd.classOr 3
  | none => 3

/-- Send values down or up through a port: as they go, flits are cut by what fits under the port's coding (R37). DST is the group's root. A
group's PARENT from 18 to 30 is reserved and names no port: nothing goes there. DESIGN CHOICE (R39; log entry 77). -/
def sendValues (s : State) (port : Nat) (vc type : Nat) (dst : BitVec 12) (group opn : Nat) (rop : BitVec 4) (last : Bool)
    (vals : List Word) : State :=
  if vals.isEmpty || 18 ≤ port then s
  else queueFlit s (Fin.ofNat 18 port) (opClass s group opn) (mkFlit s vc type dst group opn 0 rop 0 last 0 []) vals

/-- One fragment as it is: of collective flits DST is the group's root, whichever way they go, and one for a reserved PARENT is not sent. DESIGN
CHOICE (log entry 77). -/
def sendFrag (s : State) (port vc type : Nat) (dst : BitVec 12) (group opn cnt : Nat) (rop pfmt : BitVec 4) (last : Bool)
    (payload : List Byte) : State :=
  if 18 ≤ port then s
  else queueFlit s (Fin.ofNat 18 port) (opClass s group opn) (mkFlit s vc type dst group opn cnt rop pfmt last 0 payload) []

/-- Bytes in flits of 232: with PFMT 3, CNT is their number. DESIGN CHOICE (R31; log entry 77). -/
def sendBytes (s : State) (port : Nat) (vc type : Nat) (dst : BitVec 12) (group opn : Nat) (l : List Byte) : State :=
  let cs := chunkBy payloadBytes l.length l
  ((upTo cs.length).zip cs).foldl (fun s x =>
    sendFrag s port vc type dst group opn x.2.length 0 3 (x.1 + 1 = cs.length) (padPayload x.2)) s

/-- A flit of BARUP, BARDN or ABORT: CNT 0, ROP 0, PFMT 3, LAST 1, FRAG 0, its payload zeros. DESIGN CHOICE (log entry 77). -/
def sendSignal (s : State) (port type : Nat) (dst : BitVec 12) (group opn : Nat) : State :=
  sendFrag s port 4 type dst group opn 0 0 3 true (padPayload [])

/-- An accepted flit to every child port, with its values uncoded (R40). -/
def copyDown (s : State) (w : DWord) (f : Flit) (vals : List Word) : State :=
  (grpKids w).foldl (fun s i => queueFlit s (Fin.ofNat 18 i) (opClass s f.group.toNat f.opn.toNat) f vals) s

/-! ### MXFP8 (R49, R50) -/

def mxFF (pfmt : BitVec 4) : FF := if pfmt = 1 then .e4m3 else .e5m2

/-- An element times 2^(scale − 127), exact in FP32 or out of range. -/
def mxDecode (f : FF) (scale code : Nat) : Word :=
  if scale = 255 then 0x7FC00000
  else match decodeF f .nan code with
    | .fin n x =>
      let r := roundFV .rne .fp32 true (.fin n (x.scale ((scale : Int) - 127)))
      if r.code % 2 ^ 31 = 0x7F800000 && f = .e4m3 then 0x7FC00000 else BitVec.ofNat 32 r.code
    | .inf n => rne (.inf n) |>.1
    | .nan => 0x7FC00000

/-- The values of a payload of blocks. -/
def mxValues (f : FF) : Nat → List Byte → List Word
  | 0, _ => []
  | n + 1, l => (upTo 32).map (fun i => mxDecode f (l.headD 0).toNat ((l.drop (i + 1)).headD 0).toNat) ++ mxValues f n (l.drop 33)

/-- The greatest magnitude among finite values. -/
def absMax (l : List Word) : Dy := l.foldl (fun m w => match f32 w with
  | .fin _ x => if m.lt x.abs then x.abs else m
  | .inf _ | .nan => m) Dy.zero

/-- Quantise 32 values into a block (R50). -/
def mxBlock (f : FF) (l : List Word) : List Byte :=
  if l.any (fun w => expOf w = 255) then 0xFF :: List.replicate 32 (BitVec.ofNat 8 (if f = .e4m3 then 0x7F else 0x7E))
  else
    let m := absMax l
    let scale : Int := if m.isZero then 127 else clampI 0 254 (m.log2 - (if f = .e4m3 then 8 else 15) + 127)
    BitVec.ofNat 8 scale.toNat :: l.map (fun w => match f32 w with
      | .fin n x => BitVec.ofNat 8 (roundFV .rne f false (.fin n (x.scale (127 - scale)))).code
      | .inf _ | .nan => 0)

/-- Quantise values, a partial last block padded with +0 (R320). -/
def mxPayload (f : FF) (l : List Word) : List Byte :=
  (chunkBy 32 l.length l).flatMap (fun b => mxBlock f (b ++ List.replicate (32 - b.length) 0))

/-! ### Combining (R42, R46, R47) -/

def nanW : Word := 0x7FC00000
def negInf : Word := 0xFF800000

/-- Is a word a NaN or +∞? -/
def nanOrInf (w : Word) : Bool := (f32 w).isNan || w = 0x7F800000

/-- Two triples, each m, s, o[0] and on, possibly cut short (R47, R48). -/
def rsmPair (p q : List Word) : List Word :=
  let m1 := p.headD 0
  let m2 := q.headD 0
  if nanOrInf m1 || nanOrInf m2 then p.map (fun _ => nanW)
  else if m1 = negInf && m2 = negInf then (p.map (fun _ => (0 : Word))).set 0 negInf
  else if m1 = negInf then q
  else if m2 = negInf then p
  else
    let m := maxW m1 m2
    let a1 := exp2W (addW m1 (m ^^^ 0x80000000) )
    let a2 := exp2W (addW m2 (m ^^^ 0x80000000))
    m :: ((p.drop 1).zip (q.drop 1)).map (fun x => fmaW x.2 a2 (mulW x.1 a1))

/-- Two contributions' values (R46, R47); `z` is the length of an RSM triple. -/
def combine2 (rop : BitVec 4) (z : Nat) (a b : List Word) : List Word :=
  match rop.toNat with
  | 0 => (a.zip b).map (fun x => addW x.1 x.2)
  | 1 => (a.zip b).map (fun x => maxW x.1 x.2)
  | 2 => (a.zip b).map (fun x => minW x.1 x.2)
  | _ => ((chunkBy z a.length a).zip (chunkBy z b.length b)).flatMap (fun x => rsmPair x.1 x.2)

def combineAll (rop : BitVec 4) (z : Nat) : List (List Word) → List Word
  | [] => []
  | x :: r => r.foldl (combine2 rop z) x

/-- Words of a fragment of `cnt` items. -/
def itemWords (pfmt : BitVec 4) (cnt : Nat) : Nat := if pfmt = 0 then cnt else 32 * cnt

/-! ### Ending an operation (R44, R45) -/

/-- ENGINE on the local command of an operation, which ends here. -/
def endOp (s : State) (group opn : Nat) : State :=
  let s := match localCmd s group opn with
    | some r => failCommand s r (collInfo group opn)
    | none => s
  dropOp (dropParts s group opn) group opn

/-- ABORT along the tree, but not back to where it came from, and the operation ends here; where its local command is still to be issued,
the ABORT is kept for it (R44). -/
def abortOp (s : State) (group opn : Nat) (origin : Option Nat) : State :=
  let w := groupOf s group
  let s := ((grpPorts w).filter (fun i => some i ≠ origin)).foldl (fun s i => sendSignal s i 0x15 (grpRoot w) group opn) s
  if grpLocal w && !cmdOver s group opn && (localCmd s group opn).isNone then
    putOp (dropParts s group opn) { CollOp.new group opn with aborted := true }
  else endOp s group opn

/-! ### The local engine -/

/-- The port of a command's engine at the arbiters: of its die and its engine; a collective's die is the ENG of its group (R39, R320;
log entry 28). -/
def enginePort (s : State) (r : Running) : Nat :=
  let die := match r.cmd.coll with
    | some (g, _) => grpEng (groupOf s g)
    | none => dieOf r.core
  64 + 8 * die + r.cmd.cls

/-- How a command reaches memory: for its VF, in the class that it names, else in that of the most urgent unit of its graph (R84, R86). -/
def viaOf (s : State) (r : Running) (g : Graph) : Via :=
  { vf := (partOf s r.part).vf, port := enginePort s r
    cls := r.cmd.classOr (graphClass g) }

/-! ### Delivery to the local engine -/

/-- Destination of a collective command. -/
def Cmd.collDest : Cmd → Option (DWord × Nat)
  | .mc _ b n _ _ _ _ => some (b, n)
  | .red _ _ b n _ _ _ _ _ => some (b, n)
  | .bar _ _ | .copy _ _ _ | .gather _ _ _ _ _ | .xf _ _ _ _ _ _ | .qk _ _ _ _ _ _ _ _ | .pv _ _ _ _ | .get _ _ _ => none

/-- What a collective does about a stall. One that ends on it before it has begun gives nothing to its operation, which is over at this device;
one that has begun leaves it to what still comes down (R43, R133). -/
def collStall (s : State) (r : Running) (e : Stall) (group opn : Nat) : State :=
  let t := onStall s r e
  if e.ends && (!r.sent || (opOf s group opn).whole) then dropOp t group opn else t

/-- Write what has come down and has not reached the destination yet; when all of it has, the command is done (R40, R42). With its last words
an operation is over whose command has ended before. -/
def deliver (s : State) (group opn : Nat) : State :=
  match localCmd s group opn with
  | none => if cmdOver s group opn && (opOf s group opn).whole then dropOp s group opn else s
  | some r =>
    let o := opOf s group opn
    if !r.sent then s
    else match r.cmd.collDest with
      | none => if o.whole then modRunning s r.id (fun r => { r with fin := true }) else s
      | some (w, n) =>
        match graphOf s r.part r.slot with
        | none => s
        | some g =>
          let l := (o.down.take n).drop r.got
          let x : Put := if l.isEmpty then { s := s, stop := none }
            else writeRegion s r.part (viaOf s r g) r.core r.id g (regionOf w) (4 * r.got) (bytesOf l)
          match x.stop with
          | some e => collStall x.s r e group opn
          | none => modRunning x.s r.id (fun r => { r with got := r.got + l.length, fin := o.whole && n ≤ r.got + l.length })

/-- Words come down to this device; a relay forgets the operation after the last. -/
def cameDown (s : State) (group opn : Nat) (l : List Word) (last : Bool) : State :=
  let o := opOf s group opn
  if !grpLocal (groupOf s group) then (if last then dropOp s group opn else putOp s o)
  else deliver (putOp s { o with down := o.down ++ l, whole := last }) group opn

/-! ### Reduction (R42 to R44) -/

/-- The contributors in combining order. -/
def contributors (w : DWord) (o : CollOp) : List (Option Contrib) :=
  (if grpLocal w then [o.own] else []) ++ (grpKids w).map (fun i => o.kids.find? (fun c => c.port = some i))

/-- The result of a fragment goes to the parent, or down from the root (R42, R50). -/
def passUp (s : State) (w : DWord) (group opn : Nat) (rop pfmt : BitVec 4) (cnt : Nat) (last : Bool) (vals : List Word) : State :=
  let payload := padPayload (mxPayload (mxFF pfmt) vals)
  let send (s : State) (i vc type : Nat) : State :=
    if pfmt = 0 then sendValues s i vc type (grpRoot w) group opn rop last vals
    else sendFrag s i vc type (grpRoot w) group opn cnt rop pfmt last payload
  if grpIsRoot w then
    let s := (grpKids w).foldl (fun s i => send s i 3 0x12) s
    cameDown s group opn (if pfmt = 0 then vals else mxValues (mxFF pfmt) cnt payload) last
  else send s (grpParent w) 2 0x11

/-- The disagreement of two contributors at a fragment (R44). -/
def disagree (frag : Nat) (a b : Contrib) : Bool :=
  a.rop ≠ b.rop || a.pfmt ≠ b.pfmt
    || (match (a.frags.drop frag).head?, (b.frags.drop frag).head? with
        | some x, some y => x ≠ y
        | _, _ => false)

/-- Does the local contribution disagree with a child's fragment that starts at `pos` values? -/
def ownDisagrees (own kid : Contrib) (frag pos : Nat) : Bool :=
  own.rop ≠ kid.rop || own.pfmt ≠ kid.pfmt
    || (match (kid.frags.drop frag).head? with
        | some x =>
          let stop := pos + itemWords kid.pfmt x.1
          own.vals.length < stop || x.2 ≠ decide (stop = own.vals.length)
        | none => false)

/-- Combine every fragment for which all contributors are present. -/
def combineReady : Nat → Nat → Nat → State → State
  | 0, _, _, s => s
  | fuel + 1, group, opn, s =>
    let w := groupOf s group
    let o := opOf s group opn
    let kids := o.kids.filter (fun c => o.frags < c.frags.length)
    let clash := kids.any (fun a => kids.any (fun b => disagree o.frags a b))
      || (match o.own with
          | some x => kids.any (fun b => ownDisagrees x b o.frags o.values)
          | none => false)
    if clash then abortOp s group opn none
    else
      let present := (contributors w o).all (fun c => match c with
        | none => false
        | some c => c.port.isNone || o.frags < c.frags.length)
      match kids with
      | [] => s
      | k :: _ =>
        if !present then s
        else
          let x := (k.frags.drop o.frags).headD (0, true)
          let stop := o.values + itemWords k.pfmt x.1
          let all := combineAll k.rop (grpRsmd w + 2) (((contributors w o).filterMap id).map (fun c => c.vals.take stop))
          let s := putOp s { o with frags := o.frags + 1, values := stop }
          combineReady fuel group opn (passUp s w group opn k.rop k.pfmt x.1 x.2 (all.drop o.values))

/-- Fragments that are present anywhere. -/
def fragBound (o : CollOp) : Nat := o.kids.foldl (fun n c => max n c.frags.length) 0 + 1

/-- A leaf, or a root without children: the local contribution alone. -/
def reduceAlone (s : State) (w : DWord) (group opn : Nat) (c : Contrib) : State :=
  if grpIsRoot w then
    cameDown s group opn (if c.pfmt = 0 then c.vals
      else mxValues (mxFF c.pfmt) (ceilDiv c.vals.length 32) (mxPayload (mxFF c.pfmt) c.vals)) true
  else if c.pfmt = 0 then sendValues s (grpParent w) 2 0x11 (grpRoot w) group opn c.rop true c.vals
  else
    let cs := chunkBy 224 c.vals.length c.vals
    ((upTo cs.length).zip cs).foldl (fun s x =>
      passUp s w group opn c.rop c.pfmt (ceilDiv x.2.length 32) (x.1 + 1 = cs.length) x.2) s

/-- Combine, or start alone, once something has arrived. -/
def reduceGo (s : State) (group opn : Nat) : State :=
  let w := groupOf s group
  let o := opOf s group opn
  match grpKids w, o.own with
  | [], some c => reduceAlone s w group opn c
  | [], none => s
  | _ :: _, _ => combineReady (fragBound o) group opn s

/-- Does an operation hold combining state? A node without children combines nothing. -/
def CollOp.isOpen (o : CollOp) (s : State) : Bool := !(grpKids (groupOf s o.group)).isEmpty && (!o.kids.isEmpty || o.own.isSome)

def isOpenOp (s : State) (group opn : Nat) : Bool := s.collOps.any (fun o => o.group = group && o.opn = opn && o.isOpen s)

/-- The operation numbers of a group that hold combining state (R43). -/
def openOps (s : State) (group : Nat) : Nat := (s.collOps.filter (fun o => o.group = group && o.isOpen s)).length

/-- May an operation hold combining state: it does already, or there are less than four (R43)? -/
def mayOpen (s : State) (group opn : Nat) : Bool := isOpenOp s group opn || openOps s group < 4

/-- A REDUP fragment reaches the engine; one that is not the next of its contributor, or comes after an ABORT, is discarded (log entry
42). -/
def redupArrives (s : State) (port : Nat) (f : Flit) (vals : List Word) : State :=
  let group := f.group.toNat
  let opn := f.opn.toNat
  let o := opOf s group opn
  let c := (o.kids.find? (fun c => c.port = some port)).getD { port := some port, rop := f.rop, pfmt := f.pfmt, frags := [], vals := [] }
  let v := if f.pfmt = 0 then vals else mxValues (mxFF f.pfmt) f.cnt.toNat f.payload
  if o.aborted then s
  else if c.rop ≠ f.rop || c.pfmt ≠ f.pfmt then abortOp s group opn none
  else if f.frag.toNat ≠ c.frags.length then s
  else
    let c := { c with frags := c.frags ++ [(f.cnt.toNat, f.last)], vals := c.vals ++ v }
    reduceGo (putOp s { o with kids := o.kids.filter (fun x => x.port ≠ some port) ++ [c] }) group opn

/-- Does one operation number come before another, modulo 65 536 (R43)? -/
def opnBefore (a b : Nat) : Bool := 0 < (b + 65536 - a) % 65536 && (b + 65536 - a) % 65536 < 32768

/-- REDUP flits that wait in the VC buffers: port, flit, values, in the order of arrival at each port. -/
def buffered (s : State) : List (Fin 18 × Flit × List Word) :=
  (List.finRange 18).flatMap (fun i => (portOf s i).vcBuf.map (fun x => (i, x.1, x.2)))

/-- The buffered flit that is read next: of those whose operation may be open, one of the earliest operation of its group. -/
def nextBuffered (s : State) : Option (Fin 18 × Flit × List Word) :=
  let l := (buffered s).filter (fun x => mayOpen s x.2.1.group.toNat x.2.1.opn.toNat)
  l.foldl (fun b x => match b with
    | none => some x
    | some y => if x.2.1.group = y.2.1.group && opnBefore x.2.1.opn.toNat y.2.1.opn.toNat then some x else some y) none

/-- REDUP flits that waited in their VC buffers reach the engine, where operations have closed, the earlier operation first (R43). -/
def drainFrom : Nat → State → State
  | 0, s => s
  | n + 1, s =>
    match nextBuffered s with
    | none => s
    | some x =>
      let s := modFPort s x.1 (fun p => { p with vcBuf := p.vcBuf.erase x.2 })
      let s := if staleOp s x.2.1.group.toNat x.2.1.opn.toNat then s else redupArrives s x.1.val x.2.1 x.2.2
      drainFrom n (returnCredit s x.1 x.2.1.vc)

def drainBuffers (s : State) : State := drainFrom (buffered s).length s

/-- Is a flit malformed in its operation fields (R33, R39)? -/
def opBad (s : State) (f : Flit) : Bool :=
  let w := groupOf s f.group.toNat
  1024 ≤ f.group.toNat || !grpV w || 4 ≤ f.rop.toNat || 4 ≤ f.pfmt.toNat || (f.type = 0x11 && f.rop = 3 && grpRsmd w = 0)

/-- An accepted flit of a collective: discarded and counted when it is malformed in its operation fields; its buffer is free
again (R33, R35). `go` also gets whether the operation is over at this device. -/
def recvOp (s : State) (port : Fin 18) (type vc : Nat) (f : Flit) (go : State → DWord → List Word → Bool → State) : State :=
  recvFlit s port type vc f (fun s f vals =>
    let s := returnCredit s port f.vc
    if opBad s f then modFPort s port (fun p => { p with malformed := p.malformed + 1 })
    else go s (groupOf s f.group.toNat) vals (staleOp s f.group.toNat f.opn.toNat))

/-- Words of a flit that comes down. -/
def flitWords (f : Flit) (vals : List Word) : List Word :=
  match f.pfmt.toNat with
  | 0 => vals
  | 3 => wordsOf (f.cnt.toNat / 4) f.payload
  | _ => mxValues (mxFF f.pfmt) f.cnt.toNat f.payload

/-- What comes down goes on to the children; it is delivered where the operation is not over (R40). -/
def passDown (s : State) (w : DWord) (f : Flit) (vals : List Word) (ended : Bool) : State :=
  let s := copyDown s w f vals
  if ended then s else cameDown s f.group.toNat f.opn.toNat (flitWords f vals) f.last

def execMcast (port : Fin 18) (f : Flit) (s : State) : Host.Outcome State Fault Refusal :=
  .next (recvOp s port 0x10 1 f (fun s w vals ended => passDown s w f vals ended))

def execReddn (port : Fin 18) (f : Flit) (s : State) : Host.Outcome State Fault Refusal :=
  .next (recvOp s port 0x12 3 f (fun s w vals ended => drainBuffers (passDown s w f vals ended)))

/-- A contribution from a child; a fifth operation of a group waits in the VC buffer, and its credit with it (R43). One of an operation
that is over at this device is discarded (log entry 42). -/
def execRedup (port : Fin 18) (f : Flit) (s : State) : Host.Outcome State Fault Refusal :=
  .next (recvFlit s port 0x11 2 f (fun s f vals =>
    if opBad s f then returnCredit (modFPort s port (fun p => { p with malformed := p.malformed + 1 })) port f.vc
    else if staleOp s f.group.toNat f.opn.toNat then returnCredit s port f.vc
    else if !mayOpen s f.group.toNat f.opn.toNat then
      modFPort s port (fun p => { p with vcBuf := p.vcBuf ++ [(f, vals)] })
    else drainBuffers (redupArrives (returnCredit s port f.vc) port.val f vals)))

/-! ### Barrier (R41) -/

/-- The barrier's release goes down, and the local waiter is released, unless the operation is over at this device. -/
def barDown (s : State) (w : DWord) (group opn : Nat) (ended : Bool) : State :=
  let s := (grpKids w).foldl (fun s i => sendSignal s i 0x14 (grpRoot w) group opn) s
  if ended then s else cameDown s group opn [] true

/-- Once all have arrived, one BARUP goes to the parent, or BARDN from the root. -/
def barArrive (s : State) (group opn : Nat) (who : Option Nat) : State :=
  let w := groupOf s group
  let o := opOf s group opn
  if o.arrived.contains who then s
  else
    let o := { o with arrived := o.arrived ++ [who] }
    let s := putOp s o
    if (grpKids w).all (fun i => o.arrived.contains (some i)) && (!grpLocal w || o.arrived.contains none) then
      if grpIsRoot w then barDown s w group opn false
      else sendSignal s (grpParent w) 0x13 (grpRoot w) group opn
    else s

def execBarup (port : Fin 18) (f : Flit) (s : State) : Host.Outcome State Fault Refusal :=
  .next (recvOp s port 0x13 4 f (fun s _ _ ended =>
    if ended || (opOf s f.group.toNat f.opn.toNat).aborted then s else barArrive s f.group.toNat f.opn.toNat (some port.val)))

def execBardn (port : Fin 18) (f : Flit) (s : State) : Host.Outcome State Fault Refusal :=
  .next (recvOp s port 0x14 4 f (fun s w _ ended => barDown s w f.group.toNat f.opn.toNat ended))

def execAbort (port : Fin 18) (f : Flit) (s : State) : Host.Outcome State Fault Refusal :=
  .next (recvOp s port 0x15 4 f (fun s _ _ _ => drainBuffers (abortOp s f.group.toNat f.opn.toNat (some port.val))))

/-- Copy-engine data between devices: no rule gives a copy that receives it, so the flit is accepted and its buffer freed; one that is
malformed in its operation fields is counted (R32, R33; log entry 14). -/
def execFlitCopy (port : Fin 18) (f : Flit) (s : State) : Host.Outcome State Fault Refusal :=
  .next (recvOp s port 0x20 5 f (fun s _ _ _ => s))

/-- The timeout of an operation, or a port of its tree marked down: the local engine reports ENGINE (R45). -/
def execCollectiveTimeout (group : BitVec 10) (opn : BitVec 16) (s : State) : Host.Outcome State Fault Refusal :=
  .next (drainBuffers (endOp s group.toNat opn.toNat))

/-- Is a flit one of an operation of a group (R31, R32)? -/
def ofGroup (group : Nat) (f : Flit) : Bool := 0x10 ≤ f.type && f.type ≤ 0x15 && f.group.toNat = group

/-- Is an operation of a group outstanding on the device (R39): at its engines, or with flits that a port has still to send? One that an ABORT
has ended before its local command is not. -/
def groupBusy (s : State) (group : Nat) : Bool :=
  s.ports.toList.any (fun p => p.up && p.queue.any (fun q => ofGroup group q.f)) || s.collOps.any (fun o => o.group = group && !o.aborted) || s.engines.any (fun r => r.cmd.coll.elim false (fun c => c.1 = group))

/-- A write of a group's entry that waits; a later one takes its place. -/
def waitGroupWrite (s : State) (group : BitVec 10) (word : DWord) : State :=
  addTask { s with tasks := s.tasks.filter (fun i => match i with | .groupTableWrite g _ => g ≠ group | _ => true) } (.groupTableWrite group word)

/-- A group entry is written when no operation of the group is outstanding, and the control complex waits until none is; its counter
starts again at 0 (R39, R320). -/
def execGroupTableWrite (group : BitVec 10) (word : DWord) (s : State) : Host.Outcome State Fault Refusal :=
  .next (
    if groupBusy s group.toNat then waitGroupWrite s group word
    else
      let w := setBits (setBits (setBits word 60 3 0) 32 2 0) 0 8 0
      let s := (List.finRange 18).foldl (fun s i =>
        modFPort s i (fun p => { p with frags := p.frags.filter (fun e => e.1 / 65536 % 65536 ≠ group.toNat) })) s
      { s with groups := tset 0 s.groups group.toNat w, opn := tset 0 s.opn group.toNat 0
               collOps := s.collOps.filter (fun o => o.group ≠ group.toNat) })

/-! ### Retry and retraining (R33, R34) -/

/-- RETRY: every flit from ACK + 1 on is sent again with the same bits; the sixteenth retry of one SEQ in a row retrains the
link; the first flit resent after a retrain must not be asked for again (R33, R34). -/
def execRetry (port : Fin 18) (f : Flit) (s : State) : Host.Outcome State Fault Refusal :=
  .next (recvFlit s port 0x02 0 f (fun s f _ =>
    let p := portOf s port
    let want := seqNext f.ack.toNat
    if p.probe = some want then portDown s port
    else
      let n := if p.retrySeq = want then p.retries + 1 else 1
      let s := modFPort s port (fun p => { p with retrySeq := want, retries := n })
      if 16 ≤ n then addUrgent s (.retryLimit port)
      else p.replay.foldl (fun s x => emit s (.flit port.val x.1)) s))

/-- The link retrains: exponent states and credits start again (R34 to R36). -/
def retrain (p : FPort) : FPort :=
  { p with retraining := true, retries := 0, proof := false, credits := Vector.replicate 8 64
           txE := Vector.replicate 3 ExpState.reset, rxE := Vector.replicate 3 ExpState.reset }

def execRetryLimit (port : Fin 18) (s : State) : Host.Outcome State Fault Refusal :=
  .next (if (portOf s port).up then modFPort s port retrain else s)

/-- One unacknowledged flit coded anew from its uncoded payload. -/
def recode (txE : Vector ExpState 3) (x : Flit × Flit) : Flit × Vector ExpState 3 :=
  match codedVc x.2 with
  | some k => ({ x.1 with payload := codePayload txE[k] (rawValues x.2) }, txE.set k (txE[k].after (rawValues x.2)))
  | none => (x.1, txE)

/-- The link is up again: unacknowledged flits are coded anew and sent in SEQ order (R34). -/
def execLinkRetrainSuccess (port : Fin 18) (s : State) : Host.Outcome State Fault Refusal :=
  .next (
    let p := portOf s port
    if !p.retraining then s
    else
      let r := p.replay.foldl (fun (acc : List (Flit × Flit) × Vector ExpState 3) x =>
        let y := recode acc.2 x
        (acc.1 ++ [(y.1, x.2)], y.2)) ([], p.txE)
      let s := modFPort s port (fun p =>
        { p with retraining := false, proof := true, replay := r.1, txE := r.2, probe := r.1.head?.map (fun x => x.1.seq.toNat)
                 credits := r.1.foldl (fun c x => if x.1.vc = 0 then c
                   else c.set (Fin.ofNat 8 x.1.vc.toNat) (c.get (Fin.ofNat 8 x.1.vc.toNat) - 1)) p.credits })
      r.1.foldl (fun s x => emit s (.flit port.val x.1)) s)

/-- No success within 10 ms: the port is marked down (R34). -/
def execRetrainTimeout (port : Fin 18) (s : State) : Host.Outcome State Fault Refusal :=
  .next (if (portOf s port).retraining then portDown s port else s)

end Sys2Proof.Machine
end

