-- ==== Sys2Proof/Machine/Engines.lean ====
section
/-! DEFINITION. Engine commands (R315 to R321): what the entries hold or release, the checks at the release, what a command
does when it completes. -/

namespace Sys2Proof.Machine

/-! ### Shape of a command -/

/-- Exact widening (R318): to a wider format that holds every value of the source. -/
def widens (src dst : Fmt) : Bool :=
  match src, dst with
  | .fp16, .fp32 | .bf16, .fp32 | .e4m3, .fp16 | .e4m3, .bf16 | .e4m3, .fp32 | .e5m2, .fp16 | .e5m2, .bf16 | .e5m2, .fp32
  | .e8m0, .bf16 | .e8m0, .fp32 | .i8, .i16 | .i8, .i32 | .i16, .i32 | .n8, .n16 | .n8, .n32 | .n8, .i16 | .n8, .i32
  | .n16, .n32 | .n16, .i32 => true
  | _, _ => false

/-- Is the conversion one of those that `xf.cvt` has (R318)? -/
def xfPair (x : BitVec 24) : Bool :=
  match xfSrc x, xfDst x, xfMode x with
  | some a, some b, some m => x.toNat % 4096 = 0 && (skivPair a b m || (widens a b && ((fmtFF a).isSome || m = .rne)))
  | _, _, _ => false

/-! ### Checks at the release (R315 to R321) -/

/-- A region word that breaks R305 or its command's own rule: the word. -/
def badRegion (s : State) (p : Nat) (g : Graph) (ok : Region → Bool) (w : DWord) (len : Nat) : List Nat :=
  let r := regionOf w
  if ok r && regionFits s p g len r then [] else [w.toNat]

def badIf (b : Bool) (info : Nat) : List Nat := if b then [info] else []

def anyRegion (r : Region) : Bool := r ≠ .bad

/-- A rank-2 tensor region that starts at its first tile (R317). -/
def gatherSource (g : Graph) : Region → Bool
  | .tensor tid 0 0 => (tensorOf g tid).elim false (fun t => t.rank = 2)
  | .tensor _ _ _ | .tile _ _ | .loft _ | .hide _ | .bad => false

def isTileRegion : Region → Bool
  | .tile _ _ => true
  | .tensor _ _ _ | .loft _ | .hide _ | .bad => false

/-- The group's entry can serve the command (R320): valid, LOCAL, and for RSM the D that it names (R319). -/
def groupBad (s : State) (group : Nat) (rsm : Option Nat) : Bool :=
  let w := groupOf s group
  !grpV w || !grpLocal w || rsm.elim false (fun d => d = 0 || d ≠ grpRsmd w)

/-- A region that a stirrup result may go to: the loft is written by copy, gather and transform commands alone (R219). -/
def notLoft : Region → Bool
  | .loft _ | .bad => false
  | .tensor _ _ _ | .tile _ _ | .hide _ => true

/-- What is malformed in a command: the first offending word (R315). -/
def cmdBad (s : State) (p : Nat) (g : Graph) : Cmd → List Nat
  | .copy a b n => badRegion s p g Region.source a (8 * n) ++ badRegion s p g anyRegion b (8 * n)
  | .gather a b c n rb =>
    badIf (n = 0 || 4096 < n) n ++ badIf (rb = 0 || rb % 4 ≠ 0 || 65536 < rb) rb ++ badRegion s p g (gatherSource g) a 0
      ++ badRegion s p g anyRegion b (n * rb) ++ badRegion s p g isTileRegion c (4 * n)
  | .xf sel a b n _ x =>
    badIf (3 ≤ sel.toNat) sel.toNat ++ badIf (sel = 0 && !xfPair x) x.toNat ++ badIf (sel = 1 && n % 512 ≠ 0) n
      ++ badIf (sel ≠ 0 && x ≠ 0) x.toNat
      ++ (match a with | some a => badRegion s p g Region.source a (8 * n) | none => [])
      ++ (match b with | some b => badRegion s p g anyRegion b (xfLen sel n x) | none => badIf (262144 < xfLen sel n x) (xfLen sel n x))
  | .mc a b n pfmt _ group opn =>
    badIf (groupBad s group none) (collInfo group opn) ++ badIf (n = 0 || 16384 < n) n ++ badIf (pfmt = 1 || pfmt = 2) pfmt.toNat
      ++ (match a with
          | some a => badRegion s p g (fun r => r.source && r.phasedOrTile) a (4 * n)
          | none => badIf (grpIsRoot (groupOf s group)) 0)
      ++ badRegion s p g Region.phasedOrTile b (4 * n)
  | .bar group opn => badIf (groupBad s group none) (collInfo group opn)
  | .red rop a b n pfmt _ group d opn =>
    badIf (groupBad s group (if rop = .rsm then some d else none)) (collInfo group opn) ++ badIf (n = 0 || 16384 < n) n
      ++ badIf (rop = .rsm && n % (d + 2) ≠ 0) n ++ badIf (pfmt = 3) pfmt.toNat
      ++ badRegion s p g Region.phasedOrTile a (4 * n) ++ badRegion s p g Region.phasedOrTile b (4 * n)
  | .qk kf a b _ l0 nl ko vo =>
    let w := (kfFF kf).width / 8
    badIf (64 < l0 + nl) (l0 + nl) ++ badRegion s p g Region.source a (512 * nl) ++ badIf (bitsN b 0 40 ≠ 0) b.toNat
      ++ badIf (4096 < ko + w * 128 * nl || 4096 < vo + w * 128 * nl) (4096 * ko + vo)
  | .pv _ _ l0 nl => badIf (64 < l0 + nl) (l0 + nl)
  | .get b l0 nl => badIf (64 < l0 + nl) (l0 + nl) ++ badRegion s p g notLoft b (520 * nl)

/-- A collective takes the next operation number of its group (R320). -/
def withOpn (s : State) (c : Cmd) : Cmd × State :=
  let take (group : Nat) : Nat × State := (tget 0 s.opn group, { s with opn := tset 0 s.opn group ((tget 0 s.opn group + 1) % 65536) })
  match c with
  | .mc a b n pf cl g _ => let x := take g; (.mc a b n pf cl g x.1, x.2)
  | .bar g _ => let x := take g; (.bar g x.1, x.2)
  | .red r a b n pf cl g d _ => let x := take g; (.red r a b n pf cl g d x.1, x.2)
  | .copy _ _ _ | .gather _ _ _ _ _ | .xf _ _ _ _ _ _ | .qk _ _ _ _ _ _ _ _ | .pv _ _ _ _ | .get _ _ _ => (c, s)

/-- Is the command a copy of nothing, which is complete at once (R316)? -/
def Cmd.empty : Cmd → Bool
  | .copy _ _ n => n = 0
  | .gather _ _ _ _ _ | .xf _ _ _ _ _ _ | .mc _ _ _ _ _ _ _ | .bar _ _ | .red _ _ _ _ _ _ _ _ _ | .qk _ _ _ _ _ _ _ _
  | .pv _ _ _ _ | .get _ _ _ => false

def stirKey (core lane : Nat) : Nat := dieOf core * 64 + lane

def stirOf (s : State) (core lane : Nat) : StirLane := tget StirLane.reset s.stir (stirKey core lane)

def putStir (s : State) (core lane : Nat) (x : StirLane) : State := { s with stir := tput s.stir (stirKey core lane) x }

/-- A `stir.qk` takes its lanes for its graph when it is issued (R321). -/
def claimLanes (s : State) (r : Running) : State :=
  match r.cmd with
  | .qk _ _ _ _ l0 nl _ _ => (upFrom nl l0).foldl (fun s l => putStir s r.core l { stirOf s r.core l with owner := some (r.part, r.slot) }) s
  | .copy _ _ _ | .gather _ _ _ _ _ | .xf _ _ _ _ _ _ | .mc _ _ _ _ _ _ _ | .bar _ _ | .red _ _ _ _ _ _ _ _ _ | .pv _ _ _ _ | .get _ _ _ => s

/-- RELEASING A COMMAND of a graph's core: a malformed one raises ENGINE and does nothing; else it enters its engine, opens
its window and takes its stirrup lanes (R186, R194, R315, R320, R321). -/
def release (s : State) (p slot core : Nat) (opc : BitVec 8) (c : Cmd) : State :=
  match graphOf s p slot with
  | none => s
  | some g =>
    match cmdBad s p g c with
    | info :: _ => engineFault s p slot core opc info
    | [] =>
      if c.empty then s
      else
        let x := withOpn s c
        let s := x.2
        let r : Running := { id := s.cmdSeq, core := core, part := p, slot := slot, opc := opc, cmd := x.1, seen := coreSeen s core
                             blocked := false, sent := false, got := 0, fin := false }
        let s := claimLanes { s with engines := s.engines ++ [r], cmdSeq := s.cmdSeq + 1 } r
        match r.cmd.window r.id with
        | some w => modCore s (coreNo core) (fun k => openWindow k w)
        | none => s

/-- Commands of a core that have been released and have not completed (R315). -/
def outstanding (s : State) (core : Nat) : Nat := (s.engines.filter (fun r => r.core = core)).length

/-- Does the release of a command wait for room: is it one that does not complete, or end, at once (R315, R316)? -/
def takesRoom (s : State) (p : Nat) (g : Graph) (c : Cmd) : Bool := (cmdBad s p g c).isEmpty && !c.empty

/-! ### Issue -/

/-- An entry that waits holds the section: it is executed again, it counts once, and the fc in which it waits
count against BUDGET (R113, R349, R350). -/
def waitEntry (s : State) : State :=
  let li := s.cur.li
  modCurCore s (fun k => { k with secLi := li, secCount := k.secCount - 1, secWait := true })

/-- A command entry: held in the timed part; released in the boundary section, where it waits while 64 are outstanding (R315). -/
def issue (s : State) (opc : Nat) (c : Cmd) : State :=
  let opc : BitVec 8 := BitVec.ofNat 8 opc
  if !inSection s then hold s (.cmd opc c)
  else if 64 ≤ outstanding s s.cur.core.val && (curGraph s).elim true (fun g => takesRoom s s.cur.part g c) then waitEntry s
  else release s s.cur.part s.cur.slot s.cur.core.val opc c

/-- A region operand that may be z. -/
def optReg (s : State) (r : CReg) : Option DWord := match r with | .z => none | .c _ => some (cregVal s r)

def execCopy (a b : CReg) (n : BitVec 22) (s : State) : Host.Outcome State Fault Refusal :=
  .next (seqGo s (fun s => issue s 0xD5 (.copy (cregVal s a) (cregVal s b) n.toNat)))

def execGather (a b : CReg) (n : BitVec 22) (c : CReg) (rb : BitVec 24) (s : State) : Host.Outcome State Fault Refusal :=
  .next (seqGo s (fun s => issue s 0xD6 (.gather (cregVal s a) (cregVal s b) (cregVal s c) n.toNat rb.toNat)))

def execXf (sel : BitVec 8) (a b : CReg) (n : BitVec 22) (c : CReg) (x : BitVec 24) (link : Bool) (s : State) :
    Host.Outcome State Fault Refusal :=
  .next (seqGo s (fun s =>
    issue s 0xD7 (.xf sel (optReg s a) (if link then none else some (cregVal s b)) n.toNat (cregVal s c) x)))

def execCollMc (a b : CReg) (n : BitVec 22) (pfmt : BitVec 2) (cls : BitVec 2) (group : BitVec 10) (s : State) :
    Host.Outcome State Fault Refusal :=
  .next (seqGo s (fun s => issue s 0xD8 (.mc (optReg s a) (cregVal s b) n.toNat pfmt cls group.toNat 0)))

def execCollBar (_cls : BitVec 2) (group : BitVec 10) (s : State) : Host.Outcome State Fault Refusal :=
  .next (seqGo s (fun s => issue s 0xD9 (.bar group.toNat 0)))

def execCollRed (rop : ROp) (a b : CReg) (n : BitVec 22) (pfmt : BitVec 2) (cls : BitVec 2) (group : BitVec 10) (d : BitVec 12)
    (s : State) : Host.Outcome State Fault Refusal :=
  .next (seqGo s (fun s => issue s 0xDA (.red rop (cregVal s a) (cregVal s b) n.toNat pfmt cls group.toNat d.toNat 0)))

def execStirQk (kf : KF) (a b c : CReg) (l0 nlm1 : BitVec 6) (ko vo : BitVec 12) (s : State) : Host.Outcome State Fault Refusal :=
  .next (seqGo s (fun s =>
    issue s 0xDB (.qk kf (cregVal s a) (cregVal s b) (cregVal s c) l0.toNat (nlm1.toNat + 1) ko.toNat vo.toNat)))

def execStirPv (a b : CReg) (l0 nlm1 : BitVec 6) (s : State) : Host.Outcome State Fault Refusal :=
  .next (seqGo s (fun s => issue s 0xDC (.pv (cregVal s a) (cregVal s b) l0.toNat (nlm1.toNat + 1))))

def execStirGet (b : CReg) (l0 nlm1 : BitVec 6) (s : State) : Host.Outcome State Fault Refusal :=
  .next (seqGo s (fun s => issue s 0xDD (.get (cregVal s b) l0.toNat (nlm1.toNat + 1))))

/-! ### What a command does -/

/-- The command is done; buffers that a collective has freed are read again (R43). -/
def finishCommand (s : State) (r : Running) : State :=
  let s := endCommand s r
  match r.cmd.coll with
  | some (g, n) => drainBuffers (dropOp s g n)
  | none => s

/-- A command whose window is not open yet waits in its engine (R194). -/
def windowWaits (s : State) (r : Running) : Bool :=
  match r.cmd.window r.id with
  | some w => !(coreOf s (coreNo r.core)).windows.contains w
  | none => false

/-- Do earlier commands of the same core and engine stand before it: linked transforms, stirrup (R318, R321)? -/
def chainWaits (s : State) (r : Running) : Bool :=
  (r.cmd.cls = 2 || r.cmd.cls = 4) && s.engines.any (fun e => e.core = r.core && e.cmd.cls = r.cmd.cls && e.id < r.id)

/-- Write the result and finish, or do what the stall asks for. -/
def finishWith (x : Put) (r : Running) : State :=
  match x.stop with
  | none => finishCommand x.s r
  | some e => onStall x.s r e

/-- Read a source, make the result, write it (R315, R316). -/
def moveRegion (s : State) (r : Running) (g : Graph) (a b : DWord) (n : Nat) (f : List Byte → List Byte) : State :=
  let v := viaOf s r g
  match readRegion s r.part v r.core g r.seen (regionOf a) n with
  | .error e => onStall s r e
  | .ok (s, l) => finishWith (writeRegion s r.part v r.core r.id g (regionOf b) 0 (f l)) r

/-! #### Gather (R317) -/

/-- One element of a row: its code, zero outside DIM, each tile through the edge TLB (R150, R154). -/
def gatherElem (p : Nat) (v : Via) (c : Nat) (t : Tensor) (seen : Table Byte) (e x : Nat) (s : State) : Except Stall (State × Nat) :=
  let co : List Int := [e, x]
  if !t.inside co then .ok (s, 0)
  else
    let w := fmtBits t.fmt
    let o := t.elemOff co
    match throughTlb s (dieOf c) p v t (t.tileNo co) (o * w / 8) false with
    | .error f => .error (stallOf s f)
    | .ok (s, l) =>
      match l2Touch s v l.cattr (l.frame.toNat * 65536 + o * w / 8) .read with
      | .error q => .error (stallOf s { cls := q, info := l.frame.toNat * 65536 + o * w / 8 })
      | .ok s => .ok (s, codeAt (seenByte s seen) (l.frame.toNat * 65536) o w)

def gatherElems (p : Nat) (v : Via) (c : Nat) (t : Tensor) (seen : Table Byte) (x : Nat) : Nat → Nat → State → Except Stall (State × List Nat)
  | 0, _, s => .ok (s, [])
  | n + 1, e, s =>
    match gatherElem p v c t seen e x s with
    | .error q => .error q
    | .ok (s, y) =>
      match gatherElems p v c t seen x n (e + 1) s with
      | .error q => .error q
      | .ok (s, l) => .ok (s, y :: l)

/-- Codes packed into bytes. -/
def packBytes (w : Nat) (l : List Nat) : List Byte :=
  leOf (l.length * w / 8) (l.reverse.foldl (fun acc c => acc * 2 ^ w + c) 0)

/-- The rows read so far, and what stopped the reading. -/
def gatherRows (p : Nat) (v : Via) (c : Nat) (t : Tensor) (seen : Table Byte) (rb : Nat) : List Nat → State → State × List Byte × Option Stall
  | [], s => (s, [], none)
  | x :: r, s =>
    match gatherElems p v c t seen x (8 * rb / fmtBits t.fmt) 0 s with
    | .error e => (s, [], some e)
    | .ok (s, l) =>
      let y := gatherRows p v c t seen rb r s
      (y.1, packBytes (fmtBits t.fmt) l ++ y.2.1, y.2.2)

def runGather (s : State) (r : Running) (g : Graph) (a b c : DWord) (n rb : Nat) : State :=
  let v := viaOf s r g
  match regionOf a, regionOf c with
  | .tensor tid _ _, .tile mt line =>
    match tensorOf g tid with
    | none => failCommand s r a.toNat
    | some t =>
      let idx := (wordsOf n ((upTo (4 * n)).map (tileByte (coreOf s (coreNo r.core)) mt.val line))).map (·.toNat)
      let x := gatherRows r.part v r.core t r.seen rb idx s
      match x.2.2 with
      | none => finishWith (writeRegion x.1 r.part v r.core r.id g (regionOf b) 0 x.2.1) r
      | some e =>
        if !e.ends then onStall s r e
        else
          -- the rows before it are written, and stay (R133, R315)
          let y := writeRegion x.1 r.part v r.core r.id g (regionOf b) 0 x.2.1
          onStall y.s r (y.stop.getD e)
  | _, _ => failCommand s r a.toNat

/-! #### Transform (R318) -/

/-- Elements of bytes as codes of `w` bits. -/
def codesOf (w : Nat) (l : List Byte) : List Nat :=
  let v := leVal l
  (upTo (8 * l.length / w)).map (fun i => v / 2 ^ (w * i) % 2 ^ w)

/-- A 32 × 32 block of lane words transposed. -/
def transpose (l : List Word) : List Word :=
  (upTo 1024).map (fun i => (l.drop (32 * (i % 32) + i / 32)).headD 0)

/-- The transform block. -/
def xfBytes (sel : BitVec 8) (c : DWord) (x : BitVec 24) (l : List Byte) : List Byte :=
  match sel.toNat with
  | 0 =>
    let a := (xfSrc x).getD .fp32
    let b := (xfDst x).getD .fp32
    let cs := (codesOf (fmtBits a) l).map (convCode a b ((xfMode x).getD .rne) (x.getLsbD 12))
    leOf (ceilDiv (cs.length * fmtBits b) 8) (cs.reverse.foldl (fun acc v => acc * 2 ^ fmtBits b + v) 0)
  | 1 => bytesOf ((chunkBy 1024 l.length (wordsOf (l.length / 4) l)).flatMap transpose)
  | _ =>
    let k := bitsI c 0 8
    bytesOf ((wordsOf (l.length / 4) l).map (fun w => match f32 w with
      | .fin n v => (rne (.fin n (v.scale k))).1
      | .inf n => (rne (.inf n)).1
      | .nan => nanW))

/-- A core's private buffer. -/
def xfOf (s : State) (core : Nat) : XfLink := tget { link := false, bytes := [] } s.xfBuf core

def runXf (s : State) (r : Running) (g : Graph) (sel : BitVec 8) (a b : Option DWord) (n : Nat) (c : DWord) (x : BitVec 24) : State :=
  let v := viaOf s r g
  let q := xfOf s r.core
  if a.isNone && !q.link then failCommand s r 0
  else
    let src : Except Stall (State × List Byte) := match a with
      | some a => readRegion s r.part v r.core g r.seen (regionOf a) (8 * n)
      | none => .ok ({ s with xfBuf := tput s.xfBuf r.core { q with link := false } }, (q.bytes ++ List.replicate (8 * n) 0).take (8 * n))
    match src with
    | .error e => onStall s r e
    | .ok (s', l) =>
      let y := xfBytes sel c x l
      match b with
      | none => finishCommand { s' with xfBuf := tput s'.xfBuf r.core { link := true, bytes := y ++ q.bytes.drop y.length } } r
      | some b =>
        let z := writeRegion s' r.part v r.core r.id g (regionOf b) 0 y
        match z.stop with
        | some e => if e.ends then onStall z.s r e else onStall s r e
        | none => finishCommand z.s r

/-! #### Collectives (R320) -/

/-- Source words of a collective. -/
def collSource (s : State) (r : Running) (g : Graph) (a : DWord) (n : Nat) : Except Stall (State × List Word) :=
  match readRegion s r.part (viaOf s r g) r.core g r.seen (regionOf a) (4 * n) with
  | .error e => .error e
  | .ok (s, l) => .ok (s, wordsOf n l)

/-- The code of a reduction operator (R31). -/
def ropCode : ROp → BitVec 4
  | .sum => 0
  | .max => 1
  | .min => 2
  | .rsm => 3

/-- Does a reduction wait to be opened: four operations of its group hold combining state, or an earlier one of this device has not begun
(R43)? -/
def openWaits (s : State) (group opn : Nat) : Bool :=
  !mayOpen s group opn || s.engines.any (fun r => !r.sent && (match r.cmd with
    | .red _ _ _ _ _ _ g _ n => g = group && opnBefore n opn
    | _ => false))

/-- The engine begins its part: the root's multicast, the local contribution, the local arrival (R40 to R42, R320). -/
def collStart (s : State) (r : Running) (g : Graph) : State :=
  let begun (s : State) := modRunning s r.id (fun r => { r with sent := true })
  match r.cmd with
  | .mc a _ n pfmt _ group opn =>
    let w := groupOf s group
    if !grpIsRoot w then deliver (begun s) group opn
    else
      (match collSource s r g (a.getD 0) n with
       | .error e => drainBuffers (collStall s r e group opn)
       | .ok (s, l) =>
         let s := (grpKids w).foldl (fun s i =>
           if pfmt = 0 then sendValues s i 1 0x10 (grpRoot w) group opn 0 true l
           else sendBytes s i 1 0x10 (grpRoot w) group opn (bytesOf l)) s
         cameDown (begun s) group opn l true)
  | .bar group opn => deliver (barArrive (begun s) group opn none) group opn
  | .red rop a _ n pfmt _ group _ opn =>
    if openWaits s group opn then s
    else (match collSource s r g a n with
     | .error e => drainBuffers (collStall s r e group opn)
     | .ok (s, l) =>
       let f := mxFF (pfmt.zeroExtend 4)
       let vals := if pfmt = 0 then l else mxValues f (ceilDiv l.length 32) (mxPayload f l)
       let o := opOf s group opn
       let own : Contrib := { port := none, rop := ropCode rop, pfmt := pfmt.zeroExtend 4, frags := [], vals := vals }
       drainBuffers (deliver (reduceGo (putOp (begun s) { o with own := some own }) group opn) group opn))
  | .copy _ _ _ | .gather _ _ _ _ _ | .xf _ _ _ _ _ _ | .qk _ _ _ _ _ _ _ _ | .pv _ _ _ _ | .get _ _ _ => s

/-- A collective that has begun goes on when its words have come down; a port of its tree that is down ends it (R45). -/
def runColl (s : State) (r : Running) (g : Graph) (group opn : Nat) : State :=
  if r.fin then finishCommand s r
  else if (opOf s group opn).aborted || (grpPorts (groupOf s group)).any (fun i => !(portOf s (Fin.ofNat 18 i)).up) then
    drainBuffers (endOp s group opn)
  else if r.sent then drainBuffers (deliver s group opn)
  else collStart s r g

/-! #### Stirrup (R225, R226, R321) -/

/-- The first lane of a range that does not belong to the graph. -/
def strangeLane (s : State) (r : Running) (l0 nl : Nat) : Option Nat :=
  ((upTo nl).map (fun i => l0 + i)).find? (fun l => (stirOf s r.core l).owner ≠ some (r.part, r.slot))

def runQk (s : State) (r : Running) (g : Graph) (kf : KF) (a b c : DWord) (l0 nl ko vo : Nat) : State :=
  match readRegion s r.part (viaOf s r g) r.core g r.seen (regionOf a) (512 * nl) with
  | .error e => onStall s r e
  | .ok (s, l) =>
    let q := wordsOf (128 * nl) l
    finishCommand ((upTo nl).foldl (fun s j => putStir s r.core (l0 + j)
      { owner := (stirOf s r.core (l0 + j)).owner, j := j, kf := kf, q := (q.drop (128 * j)).take 128, sc := lowW c
        seq := bitsN b 52 12, gk := bitsN b 46 6, gv := bitsN b 40 6, ko := ko, vo := vo
        m := negInf, sum := 0, o := List.replicate 128 0 }) s) r

/-- 128 values of a position's record (R321): layer group, byte offset; `lane` picks the vector. Each read translates afresh, beside the edge TLB:
DESIGN CHOICE (log entry 94). -/
def stirVec (s : State) (v : Via) (r : Running) (x : StirLane) (lg off pos : Nat) : Except Stall (State × List FV) :=
  let w := (kfFF x.kf).width / 8
  let o := 4096 * (pos % 16) + off + w * 128 * x.j
  match kvPlace s r.part v.vf x.seq lg pos o false with
  | .error f => .error (if f.cls = cAbsent && !(seqOf s r.part x.seq).hot then .swap x.seq else stallOf s f)
  | .ok none => .ok (s, [])
  | .ok (some (f, ca)) =>
    match touchSectors v ca .read (sectorsOf (f * 65536 + o) (128 * w)) (touchDesc s v f) with
    | .error e => .error e
    | .ok s => .ok (s, (upTo 128).map (fun i => decodeF (kfFF x.kf) .nan (codeAt (seenByte s r.seen) (f * 65536 + o) i (8 * w))))

/-- A dot product summed exactly and rounded once (R225). -/
def dotOnce (l : List (FV × FV)) : Word :=
  BitVec.ofNat 32 (rneF .fp32 (l.foldl (fun (a : Acc) x => a.add x.1 x.2) Acc.zero).value).code

/-- One block of one lane (R226). -/
def stirBlock (x : StirLane) (l : List (Word × List Word)) : StirLane :=
  let m' := l.foldl (fun m p => maxW m p.1) x.m
  if m' = negInf then x
  else
    let neg := m' ^^^ 0x80000000
    let a := exp2W (addW x.m neg)
    let x := { x with sum := mulW x.sum a, o := x.o.map (fun o => mulW o a) }
    let y := l.foldl (fun (x : StirLane) p =>
      let e := exp2W (addW p.1 neg)
      { x with sum := addW x.sum e, o := (x.o.zip p.2).map (fun z => fmaW e z.2 z.1) }) x
    { y with m := m' }

/-- Scores and values of some positions of a lane. -/
def stirScores (v : Via) (r : Running) (x : StirLane) : List Nat → State → Except Stall (State × List (Word × List Word))
  | [], s => .ok (s, [])
  | p :: rest, s =>
    match stirVec s v r x x.gk x.ko p with
    | .error e => .error e
    | .ok (s, k) =>
      match stirVec s v r x x.gv x.vo p with
      | .error e => .error e
      | .ok (s, y) =>
        match stirScores v r x rest s with
        | .error e => .error e
        | .ok (s, l) =>
          let d := dotOnce ((x.q.map f32).zip k)
          .ok (s, (mulW x.sc d, y.map (fun f => (rne f).1)) :: l)

/-- The blocks of page sets that some positions fall into, in increasing order. -/
def kvBlocks (ps : List Nat) : List (List Nat) := (unionPos (ps.map (· / 16)) []).map (fun b => ps.filter (fun p => p / 16 = b))

def stirLaneRun (v : Via) (r : Running) : List (List Nat) → StirLane → State → Except Stall (State × StirLane)
  | [], x, s => .ok (s, x)
  | b :: rest, x, s =>
    match stirScores v r x b s with
    | .error e => .error e
    | .ok (s, l) => stirLaneRun v r rest (stirBlock x l) s

/-- Positions of a lane: the range, clamped to 0..F − 1 of its sequence (R321). -/
def stirRange (s : State) (p : Nat) (x : StirLane) (a b : Nat) : List Nat :=
  let q := seqOf s p x.seq
  let f := if q.v then q.f else 0
  if f = 0 || b < a || f ≤ a then [] else (upTo (min b (f - 1) + 1 - a)).map (fun i => a + i)

def stirLanes (v : Via) (r : Running) (a b : Nat) : List Nat → State → Except Stall State
  | [], s => .ok s
  | l :: rest, s =>
    let x := stirOf s r.core l
    let q := seqOf s r.part x.seq
    if q.v && !q.hot then .error (.swap x.seq)
    else match stirLaneRun v r (kvBlocks (stirRange s r.part x a b)) x s with
      | .error e => .error e
      | .ok (s, x) => stirLanes v r a b rest (putStir s r.core l x)

def runPv (s : State) (r : Running) (g : Graph) (a b : DWord) (l0 nl : Nat) : State :=
  match strangeLane s r l0 nl with
  | some l => failCommand s r l
  | none =>
    match stirLanes (viaOf s r g) r (bitsN a 0 48) (bitsN b 0 48) ((upTo nl).map (fun i => l0 + i)) s with
    | .error e => onStall s r e
    | .ok s => finishCommand s r

def runGet (s : State) (r : Running) (g : Graph) (b : DWord) (l0 nl : Nat) : State :=
  match strangeLane s r l0 nl with
  | some l => failCommand s r l
  | none =>
    let bytes := (upTo nl).flatMap (fun j =>
      let x := stirOf s r.core (l0 + j)
      bytesOf (x.m :: x.sum :: (x.o ++ List.replicate 128 0).take 128))
    finishWith (writeRegion s r.part (viaOf s r g) r.core r.id g (regionOf b) 0 bytes) r

/-! #### Completion -/

/-- An engine brings a command to its completion: it reads, computes and writes; a command whose access must wait stays
(R194, R315). Its windows close, and drains and `waitc` that wait for it end. -/
def execEngineCommandComplete (id : Nat) (s : State) : Host.Outcome State Fault Refusal :=
  .next (
    match s.engines.find? (fun r => r.id = id) with
    | none => s
    | some r =>
      match graphOf s r.part r.slot with
      | none => endCommand s r
      | some g =>
        if windowWaits s r || chainWaits s r then s
        else
          let s := modRunning s r.id (fun r => { r with blocked := false })
          match r.cmd with
          | .copy a b n => moveRegion s r g a b (8 * n) id'
          | .gather a b c n rb => runGather s r g a b c n rb
          | .xf sel a b n c x => runXf s r g sel a b n c x
          | .mc _ _ _ _ _ group opn => runColl s r g group opn
          | .bar group opn => runColl s r g group opn
          | .red _ _ _ _ _ _ group _ opn => runColl s r g group opn
          | .qk kf a b c l0 nl ko vo => runQk s r g kf a b c l0 nl ko vo
          | .pv a b l0 nl => runPv s r g a b l0 nl
          | .get b l0 nl => runGet s r g b l0 nl)
where
  id' (l : List Byte) : List Byte := l

end Sys2Proof.Machine
end

