-- ==== Sys2Proof/Machine/Seq.lean ====
section
/-! DEFINITION. The sequencer's control and system entries (R347 to R366): scalars, constants, branches, work, posts, waits,
status registers, traps; the ordering entries `seal` and the drains (R193, R195, R314). -/

namespace Sys2Proof.Machine

/-! ### Scalars (R352, R353) -/

/-- The second source: a register, or IMM24 sign-extended to 64 bits. -/
def sargVal (s : State) : SArg → DWord
  | .reg r => cregVal s r
  | .imm i => i.signExtend 64

/-- A scalar operation: two sources, one register. -/
def alu (d a : CReg) (b : SArg) (f : DWord → DWord → DWord) (s : State) : State :=
  bndGo s (fun s => setCreg s d (f (cregVal s a) (sargVal s b)))

def execSeqAdd (d a : CReg) (b : SArg) (s : State) : Host.Outcome State Fault Refusal := .next (alu d a b (fun x y => x + y) s)

def execSeqSub (d a : CReg) (b : SArg) (s : State) : Host.Outcome State Fault Refusal := .next (alu d a b (fun x y => x - y) s)

def execSeqMul (d a : CReg) (b : SArg) (s : State) : Host.Outcome State Fault Refusal := .next (alu d a b (fun x y => x * y) s)

def execSeqAnd (d a : CReg) (b : SArg) (s : State) : Host.Outcome State Fault Refusal := .next (alu d a b (fun x y => x &&& y) s)

def execSeqOr (d a : CReg) (b : SArg) (s : State) : Host.Outcome State Fault Refusal := .next (alu d a b (fun x y => x ||| y) s)

def execSeqXor (d a : CReg) (b : SArg) (s : State) : Host.Outcome State Fault Refusal := .next (alu d a b (fun x y => x ^^^ y) s)

def execSeqShl (d a : CReg) (b : SArg) (s : State) : Host.Outcome State Fault Refusal :=
  .next (alu d a b (fun x y => x <<< (y.toNat % 64)) s)

def execSeqShr (d a : CReg) (b : SArg) (s : State) : Host.Outcome State Fault Refusal :=
  .next (alu d a b (fun x y => x >>> (y.toNat % 64)) s)

def execSra (d a : CReg) (b : SArg) (s : State) : Host.Outcome State Fault Refusal :=
  .next (alu d a b (fun x y => x.sshiftRight (y.toNat % 64)) s)

def execLi (d : CReg) (imm : BitVec 24) (s : State) : Host.Outcome State Fault Refusal :=
  .next (bndGo s (fun s => setCreg s d (imm.signExtend 64)))

/-- Bits 16k to 16k + 15 of a word replaced (R353). -/
def insWord (w : DWord) (imm : BitVec 16) (k : Fin 4) : DWord := setBits w (16 * k.val) 16 imm.toNat

def execIns (d : CReg) (imm : BitVec 16) (k : Fin 4) (s : State) : Host.Outcome State Fault Refusal :=
  .next (bndGo s (fun s => setCreg s d (insWord (cregVal s d) imm k)))

/-! ### Branches (R354) -/

/-- COMPARE of R261, on words of any width. -/
def condHolds {n : Nat} (c : Cond) (a b : BitVec n) : Bool :=
  match c with
  | .always => true
  | .eq => a = b
  | .ne => a ≠ b
  | .ltu => a.toNat < b.toNat
  | .geu => b.toNat ≤ a.toNat
  | .lts => a.toInt < b.toInt
  | .ges => b.toInt ≤ a.toInt

/-- The next entry is `disp` list indices from this one. -/
def jump (s : State) (disp : BitVec 26) : State :=
  let li := ((s.cur.li : Int) + disp.toInt).toNat
  modCurCore s (fun k => { k with secLi := li })

def execBr (cond : Cond) (a b : CReg) (disp : BitVec 26) (s : State) : Host.Outcome State Fault Refusal :=
  .next (bndGo s (fun s => if condHolds cond (cregVal s a) (cregVal s b) then jump s disp else s))

/-- The register is written, then tested: z, which discards the write, reads 0 (R348, R354). -/
def execLoop (a : CReg) (disp : BitVec 26) (s : State) : Host.Outcome State Fault Refusal :=
  .next (bndGo s (fun s =>
    let s := setCreg s a (cregVal s a - 1)
    if cregVal s a ≠ 0 then jump s disp else s))

/-! ### Work (R355 to R359) -/

/-- TRAP with a code (R365). -/
def trapInfo (code : Nat) (info : DWord) : FaultInfo := { cls := cTrap, detail := code, info := info, lane := none }

/-- PERM on a hide offset (R356, R360, R361). -/
def hideFault (off : Nat) : FaultInfo := { cls := cPerm, detail := 0xFFFF, info := BitVec.ofNat 64 off, lane := none }

/-- May a sequencer entry write the offset: inside the partition and in no block of R313? -/
def seqHideOk (s : State) (off : Nat) : Bool := off < (curPart s).hideSize && !hideProtected s s.cur.part off

/-- An access of a boundary entry asks the bank, in the class of the graph's most urgent armed unit (R82; log entry 28). -/
def sectAsk (s : State) (p off : Nat) : State := hideRequest s p off ((curGraph s).elim 3 graphClass) s.cur.core.val

/-- Is an operator armed for the round? -/
def opArmed (s : State) (opx : BitVec 8) : Bool :=
  (curGraph s).elim false (fun g => opx.toNat < g.ops.length && (stAt g opx.toNat).arm.isSome)

def execFin (opx : BitVec 8) (s : State) : Host.Outcome State Fault Refusal :=
  .next (timedGo s (fun s => if opArmed s opx then modCurCore s (fun k => { k with fins := k.fins ++ [opx] }) else s))

def execEarly (opx : BitVec 8) (s : State) : Host.Outcome State Fault Refusal :=
  .next (timedGo s (fun s => if opArmed s opx then modCurCore s (fun k => { k with earlies := k.earlies ++ [opx] }) else s))

/-- The lowest free record for a sequencer's demand (R119). -/
def freeRecord (x : Part) : Option Nat :=
  (upFrom 256 1024).find? (fun k => (tfind x.demands k).elim true (fun d => d.done))

/-- Class and job of a sequencer's demand: those of the most urgent live demand of its graph, else class 3 and the stream that
loaded the graph (R119). -/
def issuerClass (s : State) : BitVec 2 × Nat × Nat :=
  match mostUrgent ((liveOn (curPart s) s.cur.slot).map (·.2)) with
  | some d => (d.prio, d.vf, d.stream)
  | none => (curGraph s).elim (3, 0, 0) (fun g => (3, g.vf, g.stream))

/-- `demand` waits for a free record, then asks as a DEMAND packet does and writes the record's index (R355). -/
def execSeqDemand (rel : Bool) (d a b : CReg) (slot sink : BitVec 6) (stride : BitVec 12) (s : State) :
    Host.Outcome State Fault Refusal :=
  .next (bndGo s (fun s =>
    if !askNames (curPart s) slot.toNat sink.toNat then
      faultSeq s (trapInfo 0xFFFA (BitVec.ofNat 64 (slot.toNat * 2 ^ 18 + sink.toNat * 2 ^ 12 + stride.toNat)))
    else match freeRecord (curPart s) with
      | none => waitEntry s
      | some k =>
        let c := issuerClass s
        let q : Ask := { slot := slot.toNat, sink := sink.toNat, rel := rel, a := bitsN (cregVal s a) 0 48, b := bitsN (cregVal s b) 0 48
                         stride := stride.toNat, prio := c.1, vf := c.2.1, stream := c.2.2, dnum := 0, dep := 0, prev := none }
        setCreg (acceptDemand s s.cur.part k q) d (BitVec.ofNat 64 k)))

/-- A post enters the buffer; a later one to the same offset replaces it (R356). -/
def putPost (l : List PostEnt) (off : Nat) (val : Word) : List PostEnt :=
  if l.any (fun e => e.off = off) then l.map (fun e => if e.off = off then { e with val := val } else e) else l ++ [{ off := off, val := val }]

def execPost (a b : CReg) (s : State) : Host.Outcome State Fault Refusal :=
  .next (bndGo s (fun s =>
    let off := bitsN (cregVal s a) 0 24
    let l := (curPart s).post
    if !seqHideOk s off then faultSeq s (hideFault off)
    else if 256 ≤ l.length && !l.any (fun e => e.off = off) then faultSeq s (trapInfo 0xFFFB (BitVec.ofNat 64 off))
    else modPart s s.cur.part (fun x => { x with post := putPost x.post off (lowW (cregVal s b)) })))

/-- Perform a cancel of a sequencer: the operands of R359. -/
def doCancel (s : State) (p : Nat) (level : CLevel) (w : DWord) : State :=
  let x := partOf s p
  match cancelOf x level (some (bitsN w 0 11)) (bitsN w 0 6) x.vf (bitsN w 0 3) with
  | none => s
  | some c => postCancel s p c

/-- `cancel` is posted in the boundary section, held to the commit in the timed part (R359). -/
def execSeqCancel (a : CReg) (level : CLevel) (s : State) : Host.Outcome State Fault Refusal :=
  .next (seqGo s (fun s =>
    let w := cregVal s a
    if level = .demand && 1279 < bitsN w 0 11 then faultSeq s (trapInfo 0xFFFA (BitVec.ofNat 64 (bitsN w 0 11)))
    else if inSection s then doCancel s s.cur.part level w
    else hold s (.cancel level w)))

/-! ### Waits (R360) -/

/-- Commands of this core in a class of the mask (R360). -/
def classBusy (s : State) (mask : BitVec 5) : Bool :=
  s.engines.any (fun r => r.core = s.cur.core.val && mask.getLsbD r.cmd.cls)

/-- What a wait finds: nothing yet, the value for D, or a fault. -/
inductive WaitRes where
  | wait | got (w : DWord) | bad (f : FaultInfo)

def recordWait (s : State) (w : DWord) (b : Nat) : WaitRes :=
  let k := bitsN w 0 11
  if 1279 < k then .bad (trapInfo 0xFFFA (BitVec.ofNat 64 k))
  else
    let v := workWord (curPart s) (1025 + 2 * k)
    if bit v b then .got v else .wait

def waitTest (s : State) (kind : WaitKind) (a b : DWord) : WaitRes :=
  match kind with
  | .done => recordWait s a 63
  | .trig => recordWait s a 62
  | .engines mask => if classBusy s mask then .wait else .got 0
  | .hide =>
    let off := bitsN a 0 24
    if (curPart s).hideSize ≤ off then .bad (hideFault off)
    else
      let v := hideRead s s.cur.part off
      if b.toNat ≤ v.toNat then .got v else .wait

def execWaitc (kind : WaitKind) (d a b : CReg) (s : State) : Host.Outcome State Fault Refusal :=
  .next (bndGo s (fun s =>
    match waitTest s kind (cregVal s a) (cregVal s b) with
    | .wait => waitEntry s
    | .got w => setCreg (if kind = .hide then sectAsk s s.cur.part (bitsN (cregVal s a) 0 24) else s) d w
    | .bad f => faultSeq s f))

/-! ### Semaphores, seal, drains (R193, R195, R361) -/

/-- A hide operation of the sequencer: performed in the boundary section, buffered in the timed part (R361). -/
def seqHide (s : State) (off : Nat) (op : HOp) : State :=
  if inSection s then performHide (sectAsk s s.cur.part off) s.cur.part off op
  else
    let rc := curRc s
    modCurCore s (fun k => { k with hideOps := k.hideOps ++ [{ stamp := rc, who := 0, off := off, op := op }] })

def execSig (op : SemOp) (a b : CReg) (s : State) : Host.Outcome State Fault Refusal :=
  .next (seqGo s (fun s =>
    let off := bitsN (cregVal s a) 0 24
    if !seqHideOk s off then faultSeq s (hideFault off) else seqHide s off (.sem op (cregVal s b))))

/-- A seal point. Hide operations are performed one by one in their issuer's order, so that in the boundary section every
earlier one has been performed, and in a timed entry the point takes its place in the commit order (R192, R193). -/
def execSeal (s : State) : Host.Outcome State Fault Refusal :=
  .next (seqGo s (fun s => if inSection s then s else seqHide s 0 .sealPoint))

/-- The kinds of memory that a drain waits for. -/
inductive DrainKind where
  | mt | loft | hide
  deriving DecidableEq, Repr

def DrainKind.fits : DrainKind → Region → Bool
  | .mt, .tile _ _ => true
  | .loft, .loft _ => true
  | .hide, .hide _ => true
  | _, _ => false

/-- Has this core a copy, gather or transform into that kind of memory that has not completed (R195)? -/
def drainBusy (s : State) (d : DrainKind) : Bool :=
  s.engines.any (fun r => r.core = s.cur.core.val && r.cmd.cls ≤ 2 && r.cmd.dest.elim false (fun x => d.fits (regionOf x.1)))

def drain (d : DrainKind) (s : State) : State := bndGo s (fun s => if drainBusy s d then waitEntry s else s)

def execDrainMt (s : State) : Host.Outcome State Fault Refusal := .next (drain .mt s)

def execDrainLoft (s : State) : Host.Outcome State Fault Refusal := .next (drain .loft s)

def execDrainHide (s : State) : Host.Outcome State Fault Refusal := .next (drain .hide s)

/-! ### Status registers (R362, R363) -/

/-- GINFO (R362). -/
def ginfo (s : State) (g : Graph) : DWord :=
  BitVec.ofNat 64 (g.l % 4096 * 2 ^ 52 + s.cur.slot % 64 * 2 ^ 46 + s.cur.core.val * 2 ^ 40 + (curCore s).fidx % 64 * 2 ^ 34
    + s.cur.part % 64 * 2 ^ 28 + (g.ops.length - 1) % 256 * 2 ^ 20)

/-- ESTAT of an element (R362). -/
def estat (e : Element) : DWord := BitVec.ofNat 64 ((if e.r.ixz then 16 else 0) + e.r.guf.toNat)

/-- Flags of every element, ORed. -/
def allFlags (k : Core) : BitVec 5 := k.elems.foldl (fun f e => f ||| e.r.flags) 0

def statusReg (s : State) (st sel : BitVec 8) : DWord :=
  let k := curCore s
  let e := elemOf k (Fin.ofNat 96 sel.toNat)
  match st.toNat with
  | 0x00 => tget 0 k.armw sel.toNat
  | 0x01 => (curGraph s).elim 0 (ginfo s)
  | 0x02 => if sel = 0xFF then (allFlags k).zeroExtend 64 else e.r.flags.zeroExtend 64
  | 0x03 => e.r.exc.zeroExtend 64
  | 0x04 => estat e
  | 0x05 => if k.brken then 1 else 0
  | n => if 8 ≤ n ∧ n < 16 then k.evc[Fin.ofNat 8 (n - 8)] else 0

def execRdst (d : CReg) (st sel : BitVec 8) (s : State) : Host.Outcome State Fault Refusal :=
  .next (bndGo s (fun s => setCreg s d (statusReg s st sel)))

/-- Clear the flags named by a word in an element. -/
def clearFlags (w : DWord) (e : Element) : Element := { e with r := { e.r with flags := e.r.flags &&& ~~~(w.truncate 5) } }

def writeStatus (k : Core) (st sel : BitVec 8) (w : DWord) : Core :=
  let n := Fin.ofNat 96 sel.toNat
  match st.toNat with
  | 0x02 => if sel = 0xFF then allElems k (fun _ e => clearFlags w e) else modElem k n (clearFlags w)
  | 0x03 => modElem k n (fun e => { e with r := { e.r with exc := w.truncate 16 } })
  | 0x04 => modElem k n (fun e => { e with r := { e.r with ixz := e.r.ixz && !w.getLsbD 4 } })
  | i => if 8 ≤ i ∧ i < 16 then { k with evc := k.evc.set (Fin.ofNat 8 (i - 8)) w } else k

def execWrst (a : CReg) (st sel : BitVec 8) (s : State) : Host.Outcome State Fault Refusal :=
  .next (bndGo s (fun s =>
    let w := cregVal s a
    modCurCore s (fun k => writeStatus k st sel w)))

/-- An event counter counts (R363). -/
def addEvc (k : Core) (c : Fin 8 × BitVec 16) : Core := { k with evc := k.evc.set c.1 (k.evc[c.1] + c.2.zeroExtend 64) }

def execCnt (i : Fin 8) (n : BitVec 16) (s : State) : Host.Outcome State Fault Refusal :=
  .next (seqGo s (fun s =>
    if inSection s then modCurCore s (fun k => addEvc k (i, n)) else modCurCore s (fun k => { k with cnts := k.cnts ++ [(i, n)] })))

/-! ### Ending and trapping (R364, R365) -/

def execSeqNop (s : State) : Host.Outcome State Fault Refusal := .next (seqGo s (fun s => s))

def execYld (s : State) : Host.Outcome State Fault Refusal := .next (bndGo s (fun s => modCurCore s (fun k => { k with secOn := false })))

/-- `halt`: the section ends, the live demands of the graph are cancelled and the graph is stopped, with no report (R132, R364). -/
def execHalt (s : State) : Host.Outcome State Fault Refusal := .next (bndGo s (fun s => stopSection s s.cur.part s.cur.slot s.cur.core.val))

def execTrap (a : CReg) (code : BitVec 16) (s : State) : Host.Outcome State Fault Refusal :=
  .next (seqGo s (fun s => faultSeq s (trapInfo code.toNat (cregVal s a))))

def execBrk (code : BitVec 16) (s : State) : Host.Outcome State Fault Refusal :=
  .next (seqGo s (fun s => if (curCore s).brken then faultSeq s (trapInfo 0xFFF0 (code.zeroExtend 64)) else s))

end Sys2Proof.Machine
end

