-- ==== Sys2Proof/Machine/Prefix.lean ====
section
/-! DEFINITION. Swapping sequences in and out of the pommel (R171), the prefix table and its awl operations (R177 to R180),
the prefix instructions and `flush.frame` (R323, R324). -/

namespace Sys2Proof.Machine

/-! ### Swapping sequences (R171) -/

/-- Does a stream of an armed unit of the partition name the sequence? -/
def seqNamed (s : State) (p q : Nat) : Bool :=
  (partOf s p).graphs.any (fun e =>
    let g := e.2
    anyArmed g && g.cores.any (fun c => (coreOf s (coreNo c)).ports.toList.any (fun port =>
      match nextRec port with
      | some r => r.kind = 2 && r.seq.toNat = q && portOn g r
      | none => false)))

/-- Sequences that may be swapped out, other than one. -/
def swappable (s : State) (p keep : Nat) : List (Nat × Seq) :=
  (partOf s p).seqs.filter (fun e => e.1 ≠ keep && e.2.v && e.2.hot && !seqNamed s p e.1)

/-- The least recently used of some sequences. -/
def oldestSeq (l : List (Nat × Seq)) : Option (Nat × Seq) :=
  l.foldl (fun b e => match b with
    | none => some e
    | some x => if e.2.used < x.2.used then some e else some x) none

/-- Frames for the control complex, of owner 256, in the pseudo-channels of a partition (R137, R168); none when there are none free. -/
def systemFrames (s : State) (p n : Nat) : Option (Nat × State) :=
  let cs := homeOrder s p s.allocs
  match allocRun s n with
  | none => none
  | some base =>
    let d : Frame :=
      { v := true, state := 0, poison := false, tier := 0, cattr := 0, owner := 256, sdom := 0, rcoff := 0, rcpart := 0
        home := coreNo (cs.headD 0), loc := 0 }
    (allocFrames cs (64 * s.allocs) base d n s).map (fun s => (base, { s with allocs := s.allocs + 1 }))

/-- Frames of the control complex are free again, and zero (R157). -/
def freeFrames (s : State) (base n : Nat) : State :=
  let out (f : Nat) : Bool := f < base || base + n ≤ f
  { s with
    frames := s.frames.filter (fun e => out e.1), mem := s.mem.filter (fun e => out (e.1 / 65536)), l2 := s.l2.filter (fun e => out (e.1 / 256))
    lostMem := s.lostMem.filter (fun k => out (k / 1024)) }

/-- The cold table of a sequence, moved to a larger one when its frontier has outgrown it (R168). -/
def coldTable (s : State) (p : Nat) (x : Seq) : Option (Seq × State) :=
  let need := max 1 (ceilDiv (8 * blocksOf x.f) 65536)
  if x.ctlen ≠ 0 && need ≤ x.ctlen then some (x, s)
  else match systemFrames s p need with
    | none => none
    | some y => some ({ x with ctbase := 65536 * y.1, ctlen := need }, if x.ctlen = 0 then y.2 else freeFrames y.2 (x.ctbase / 65536) x.ctlen)

/-- A cold table entry (R168). -/
def coldWord (e : PomEnt) : DWord := BitVec.ofNat 64 (2 ^ 63 + (if e.w then 2 ^ 62 else 0) + e.base.toNat)

/-- Swap a sequence out: its mappings go to its cold table, HOT becomes 0; none when there is no frame for the table. -/
def swapOut (s : State) (p vf q : Nat) : Option State :=
  (coldTable s p (seqOf s p q)).map (fun y =>
    let x := y.1
    let s := (upTo (blocksOf x.f)).foldl (fun s b =>
      match pomFind s vf q b with
      | some e => { pomErase s vf q b with mem := write64 s.mem (x.ctbase + 8 * b) (coldWord e) }
      | none => { s with mem := write64 s.mem (x.ctbase + 8 * b) 0 }) y.2
    putSeq s p q { x with hot := false })

/-- Swap sequences out, least recently used first, until `need` more entries fit. -/
def makeSwapRoom (p vf keep need : Nat) : Nat → State → Option State
  | 0, s => if pomFits s p vf need then some s else none
  | fuel + 1, s =>
    if pomFits s p vf need then some s
    else match oldestSeq (swappable s p keep) with
      | none => none
      | some e => match swapOut s p vf e.1 with
        | none => none
        | some s => makeSwapRoom p vf keep need fuel s

/-- Entries that the KV commands which faulted on a sequence need beside it. -/
def wantedFor (s : State) (p q : Nat) : Nat :=
  (partOf s p).graphs.foldl (fun n e => if e.2.hold.isSome && e.2.wantSeq = q then max n e.2.wantNew else n) 1

/-- Swap a cold sequence in, or make the room that a KV command needs beside a hot one; none when no sequence can be swapped out (R171). -/
def swapIn (s : State) (p q : Nat) : Option State :=
  let vf := (partOf s p).vf
  let x := seqOf s p q
  let n := if x.v && !x.hot then blocksOf x.f else wantedFor s p q
  match makeSwapRoom p vf q n ((partOf s p).seqs.length + 1) s with
  | none => none
  | some s =>
    if x.v && !x.hot then
      let s := (upTo n).foldl (fun s b =>
        let w := read64 s.mem (x.ctbase + 8 * b)
        if bit w 63 then pomPut s vf q b { base := BitVec.ofNat 32 (bitsN w 0 32), w := bit w 62 } else s) s
      some (touchSeq (modSeq s p q (fun x => { x with hot := true })) p q)
    else some s

/-! ### The prefix table (R177, R178) -/

/-- What a prefix operation is about: hash, parent hash, tokens. -/
structure PxKey where
  h : Word
  prev : Word
  tok : List Word
  deriving DecidableEq, Repr

/-- The table of the VF's domain, where it may use it (R178). -/
def pxTable (s : State) (vf : Nat) : Option PxDesc :=
  let d := (kvSdom s vf).toNat
  if d = 0 || !(vfOf s vf).sdoms.contains (kvSdom s vf) then none else tfind s.prefixes d

/-- Offset of way `w` of the set that a hash selects. -/
def pxWay (d : PxDesc) (h : Word) (w : Nat) : Nat := d.setOff (h.toNat % d.sets) + 10 * w

/-- Word `i` of a way. -/
def pxWord (s : State) (d : PxDesc) (h : Word) (w i : Nat) : DWord := hideRead s d.part (pxWay d h w + i)

/-- Does a way match (R178)? -/
def pxMatch (s : State) (d : PxDesc) (k : PxKey) (w : Nat) : Bool :=
  bit (pxWord s d k.h w 1) 63 && pxWord s d k.h w 0 = k.h ++ k.prev
    && (upTo 8).all (fun i => pxWord s d k.h w (2 + i) = (k.tok.drop (2 * i + 1)).headD 0 ++ (k.tok.drop (2 * i)).headD 0)

def pxBase (s : State) (d : PxDesc) (h : Word) (w : Nat) : Nat := bitsN (pxWord s d h w 1) 0 32

def pxFind (s : State) (d : PxDesc) (k : PxKey) : Option Nat := (upTo 4).find? (pxMatch s d k)

/-- A status with a BASE, as D receives it (R323). -/
def pxStatus (base st : Nat) : DWord := BitVec.ofNat 64 (base % 2 ^ 32 * 2 ^ 32 + st)

/-- A prefix operation is one operation at the bank of its set (R178). -/
def pxAsk (s : State) (d : PxDesc) (k : PxKey) : State := sectAsk s d.part (pxWay d k.h 0)

/-- PXLK: a hit pins the page set, unless its count is saturated. -/
def pxLookup (s : State) (vf : Nat) (k : PxKey) : DWord × State :=
  match pxTable s vf with
  | none => (pxStatus 0 4, s)
  | some d =>
    let s := pxAsk s d k
    match pxFind s d k with
    | none => (pxStatus 0 0, s)
    | some w =>
      let b := pxBase s d k.h w
      if countOf s b = 65535 then (pxStatus 0 2, s) else (pxStatus b 1, incCount s b)

/-- Write word 1 of a way: V and BASE; VP stays in way 0. -/
def pxPut1 (s : State) (d : PxDesc) (h : Word) (w : Nat) (v : Bool) (base : Nat) : State :=
  let o := pxWay d h w + 1
  hideWrite s d.part o (setBits (setBits (hideRead s d.part o) 63 1 (if v then 1 else 0)) 0 32 base)

/-- PXIN: an existing entry is named; else a free way, or the victim, takes the block (R178). -/
def pxInsert (s : State) (p vf : Nat) (k : PxKey) (q b : Nat) : DWord × State :=
  match pxTable s vf with
  | none => (pxStatus 0 4, s)
  | some d =>
    let s := pxAsk s d k
    let x := seqOf s p q
    if !x.v || x.f < 16 * (b + 1) then (pxStatus 0 4, s)
    else match pxFind s d k with
      | some w => (pxStatus (pxBase s d k.h w) 3, s)
      | none =>
        match pomFind s vf q b with
        | none => (pxStatus 0 4, s)
        | some e =>
          let free := (upTo 4).find? (fun w => !bit (pxWord s d k.h w 1) 63)
          let vp := bitsN (pxWord s d k.h 0 1) 61 2
          let w := free.getD vp
          let s := match free with
            | some _ => s
            | none =>
              let s := decCount s (pxBase s d k.h w)
              hideWrite s d.part (pxWay d k.h 0 + 1) (setBits (hideRead s d.part (pxWay d k.h 0 + 1)) 61 2 ((w + 1) % 4))
          let s := hideWrite s d.part (pxWay d k.h w) (k.h ++ k.prev)
          let s := pxPut1 s d k.h w true e.base.toNat
          let s := (upTo 8).foldl (fun s i =>
            hideWrite s d.part (pxWay d k.h w + 2 + i) ((k.tok.drop (2 * i + 1)).headD 0 ++ (k.tok.drop (2 * i)).headD 0)) s
          (pxStatus 0 0, pomPut (incCount s e.base.toNat) vf q b { e with w := false })

/-- A way becomes invalid and its count falls. -/
def pxDrop (s : State) (d : PxDesc) (h : Word) (w : Nat) : State :=
  let b := pxBase s d h w
  decCount (pxPut1 s d h w false b) b

def pxEvict (s : State) (vf : Nat) (k : PxKey) : DWord × State :=
  match pxTable s vf with
  | none => (pxStatus 0 4, s)
  | some d =>
    let s := pxAsk s d k
    match pxFind s d k with
    | none => (pxStatus 0 0, s)
    | some w => (pxStatus 0 1, pxDrop s d k.h w)

/-- The walk of R180: every entry of a domain's table that names a page set is made invalid. -/
def pxWalk (s : State) (dom base : Nat) : State :=
  match tfind s.prefixes dom with
  | none => s
  | some d =>
    (upTo d.sets).foldl (fun s k =>
      (upTo 4).foldl (fun s w =>
        let h : Word := BitVec.ofNat 32 k
        if bit (pxWord s d h w 1) 63 && pxBase s d h w = base then pxDrop s d h w else s) s) s

/-! ### Prefix instructions (R323) -/

/-- The operands of a prefix instruction, or the malformed token region. -/
def pxOperands (s : State) (a b : CReg) : Except FaultInfo PxKey :=
  let w := cregVal s a
  match regionOf (cregVal s b) with
  | .tile mt line =>
    .ok { h := highW w, prev := lowW w, tok := (tileLine (curCore s) mt.val line).data.toList.take 16 }
  | .tensor _ _ _ | .loft _ | .hide _ | .bad => .error (trapInfo 0xFFFE (cregVal s b))

/-- A prefix instruction in the boundary section: its status goes to D. -/
def pxGo (d a b : CReg) (f : State → PxKey → DWord × State) (s : State) : State :=
  bndGo s (fun s =>
    match pxOperands s a b with
    | .error e => faultSeq s e
    | .ok k => let r := f s k; setCreg r.2 d r.1)

def execPxlk (d a b : CReg) (s : State) : Host.Outcome State Fault Refusal :=
  .next (pxGo d a b (fun s k =>
    let r := pxLookup s (curPart s).vf k
    (r.1, if bitsN r.1 0 32 = 1 then takePin r.2 s.cur.part (bitsN r.1 32 32) else r.2)) s)

def execPxev (d a b : CReg) (s : State) : Host.Outcome State Fault Refusal :=
  .next (pxGo d a b (fun s k => pxEvict s (curPart s).vf k) s)

/-- `pxin` waits while a cold sequence is swapped in; one that cannot be is a boundary fault ABSENT (R178). -/
def execPxin (d a b c : CReg) (s : State) : Host.Outcome State Fault Refusal :=
  .next (bndGo s (fun s =>
    match pxOperands s a b with
    | .error e => faultSeq s e
    | .ok k =>
      let p := s.cur.part
      let vf := (curPart s).vf
      let q := bitsN (cregVal s c) 16 12
      let x := seqOf s p q
      if (pxTable s vf).isSome && x.v && !x.hot then
        (if (swapIn s p q).isNone then faultSeq s (kvAbsent x)
         else waitEntry (askTask s (.sequenceSwapIn (BitVec.ofNat 6 p) (BitVec.ofNat 12 q))))
      else
        let r := pxInsert s p vf k q (bitsN (cregVal s c) 0 16)
        setCreg r.2 d r.1))

/-- `flush.frame` (R324): only the owner; nothing while a sector holds pending contents. -/
def execFlushFrame (d a : CReg) (s : State) : Host.Outcome State Fault Refusal :=
  .next (bndGo s (fun s =>
    let f := bitsN (cregVal s a) 0 32
    let x := frameDesc s f
    if !x.v || x.owner ≠ (curPart s).vf then
      faultSeq s { cls := cPerm, detail := 0xFFFF, info := BitVec.ofNat 64 (f * 65536), lane := none }
    else if s.pend.any (fun e => frameNo (64 * e.1) = f) then setCreg s d 1
    else setCreg (flushFrame s f) d 0))

end Sys2Proof.Machine
end

