-- ==== Sys2Proof/Machine/Rounds.lean ====
section
/-! DEFINITION. The round loop of a graph: the start pulse with its restores (R107, R112, R126, R308), the end of each fabric
cycle (R203, R204, R256, R267), commit and void (R136), checkpoints and horizons (R125 to R127), the round boundary (R107), waits
and deadlines (R113, R114, R131). -/

namespace Sys2Proof.Machine

/-! ### Lists and agents (R255, R256) -/

/-- The cores of a graph in increasing number. -/
def coresUp (g : Graph) : List Nat := unionPos g.cores []

/-- List index of the first boundary entry. -/
def bndFirst (l : List DWord) : Nat := (l.takeWhile (fun w => stampOf w ≠ 0xFFF)).length

/-- Is the operator of an element armed? -/
def elemArmed (g : Graph) (x : Element) : Bool := x.opx ≠ 0xFF && x.opx.toNat < g.ops.length && (stAt g x.opx.toNat).arm.isSome

/-- Does the next entry carry the stamp? -/
def dueAt (l : List DWord) (i rc : Nat) : Bool := (l.drop i).head?.elim false (fun w => stampOf w = rc)

/-- Who fires at a stamp, cores increasing, the sequencer before the elements (R128, R192, R200). -/
def agentsAt (s : State) (g : Graph) (rc : Nat) : List Agent :=
  (coresUp g).flatMap (fun c =>
    let k := coreOf s (coreNo c)
    (if dueAt k.seqList k.seqLi rc then [{ core := c, elem := 127 }] else [])
      ++ (List.finRange 96).filterMap (fun e =>
        let x := elemOf k e
        if !x.sad && elemArmed g x && dueAt x.list x.li rc then some { core := c, elem := e.val } else none))

/-- Is it a word of a keeper? -/
def ofKeeper (w : RWord) : Bool := match w.place with | .kState _ | .kGain _ => true | _ => false

/-! ### Results that complete (R203, R204, R260, R267) -/

/-- New lanes where the mask is 1. -/
def blend (m : Word) (old new : Lanes) : Lanes := Lanes.tab (fun i => if m.getLsbD i.val then new[i] else old[i])

/-- Bits of a predicate register from lanes. -/
def predBits (m old : Word) (val : Lanes) : Word :=
  bitsWord (fun i => if m.getLsbD i.val then val[i] ≠ 0 else old.getLsbD i.val)

/-- Where a result has lanes for the result register, they land there (R203). -/
def PDst.hasRes : PDst → Bool
  | .keep _ _ _ w => w
  | .clearKeep _ => false
  | .v _ _ | .s _ _ | .p _ | .m _ | .line _ | .res => true

/-- The words that a result writes, with their residues (R205): a mark takes lane 0, the result register is the element's own. -/
def Pend.cells (q : Pend) : List (RPlace × Word) :=
  (if q.dst.hasRes then [(.res 0, q.mask)] else []) ++ (match q.dst with
    | .v n _ => [(.v n, q.mask)]
    | .s n _ => [(.s n, q.mask)]
    | .m n => [(.m, if q.mask.getLsbD 0 then oneLane n.val else 0)]
    | .keep j _ _ _ | .clearKeep j => [(.kState j, q.mask), (.kGain j, q.mask)]
    | .p _ | .line _ | .res => [])

/-- A result completes. -/
def completePend (r : ElemRegs) (q : Pend) : ElemRegs :=
  let r := r.rewrite q.cells
  let r := if q.dst.hasRes then { r with res := blend q.mask r.res q.res } else r
  match q.dst with
  | .v n nb => { r with v := r.v.set n (blend q.mask r.v[n] q.val), nbV := if q.mask = 0 then r.nbV else r.nbV.set n nb }
  | .s n nb => { r with s := r.s.set n (blend q.mask r.s[n] q.val), nbS := if q.mask = 0 then r.nbS else r.nbS.set n nb }
  | .p n => { r with p := r.p.set n (predBits q.mask r.p[n] q.val) }
  | .m n => if q.mask.getLsbD 0 then { r with m := r.m.set n q.val[0] } else r
  | .line _ | .res => r
  | .keep j gain guf _ =>
    let k := r.k[j]
    addGuf { r with k := r.k.set j { state := blend q.mask k.state q.val, gain := blend q.mask k.gain gain } } j guf
  | .clearKeep j =>
    let k := r.k[j]
    let r := { r with k := r.k.set j { state := blend q.mask k.state Lanes.zero, gain := blend q.mask k.gain (Lanes.all 0x3F800000) } }
    if q.mask.getLsbD 0 then clearGuf r j else r

/-- Is it a word that lasts for one fc: of a line, of an ALU, or from across an edge? -/
def passesBy (w : RWord) : Bool := match w.place with | .line _ | .alu | .edge _ => true | _ => false

/-- Is it a word of a result register? -/
def ofResult (w : RWord) : Bool := match w.place with | .res _ => true | _ => false

/-- The end of fabric cycle `rc` in an element: due results complete, and the result register is remembered, with its residues, for its
neighbours across an edge (R203). -/
def endElem (rc : Nat) (x : Element) : Element :=
  let r := ((x.r.pipe.filter (fun q => q.fc ≤ rc)).foldl completePend x.r).forget passesBy
  { x with r := { r with
    pipe := r.pipe.filter (fun q => rc < q.fc), hist := (r.res :: r.hist).take 13
    histRes := (r.resid.filter (fun h => ofResult h.1) :: r.histRes).take 13 } }

/-- The lines that an element's due results drive; a lane that is not enabled carries 0 (R260). -/
def elemDrives (rc : Nat) (x : Element) : List (Fin 20 × Lanes) :=
  (x.r.pipe.filter (fun q => q.fc ≤ rc)).filterMap (fun q =>
    match q.dst with
    | .line l => some (l, blend q.mask Lanes.zero q.val)
    | .v _ _ | .s _ _ | .p _ | .m _ | .res | .keep _ _ _ _ | .clearKeep _ => none)

/-- The end of a fabric cycle in a core: what was driven is latched in the next one (R204). -/
def endCore (rc : Nat) (k : Core) : Core :=
  let drives := (List.finRange 96).flatMap (fun e => elemDrives rc (elemOf k e))
  { allElems k (fun _ x => endElem rc x) with
    lineNow := drives.foldl (fun t d => tput t d.1.val d.2) k.lineNext, lineNext := [], tileOld := [] }

/-- Does the work begin a pass? It then reads weights that a load of the same fc completes (R329, log entry 81). -/
def SadAct.isPass : SadAct → Bool
  | .compute _ _ _ _ => true
  | .replay _ _ _ _ _ | .drive _ _ | .accWrite _ _ | .loadLine _ _ _ _ => false

/-- Work of a core's array that falls due at RC: before the entries of the stamp, or (`pass`) after them (R329, R331, R334). -/
def sadDue (s : State) (p slot c rc : Nat) (pass : Bool) : State :=
  let now (a : Nat × SadAct) : Bool := a.1 = rc && a.2.isPass = pass
  let due := (coreOf s (coreNo c)).sad.filter now
  let s := modCore s (coreNo c) (fun k => { k with sad := k.sad.filter (fun a => !now a) })
  due.foldl (fun s a =>
    let li := match a.2 with
      | .replay _ _ _ _ li => li
      | .compute _ _ _ li => li
      | .loadLine _ _ _ li => li
      | .drive _ _ | .accWrite _ _ => 0
    let cur : Ctx := { s.cur with part := p, slot := slot, core := coreNo c, elem := 127, li := li }
    sadAct { s with cur := cur } a.2) s

/-- The pacing gap of a partition runs down (R18, R19). -/
def gapTick (s : State) (p : Nat) : State :=
  let x := partOf s p
  if x.gapLeft = 0 then s
  else if x.gapLeft = 1 then addUrgent s (.pacingGapEnd (BitVec.ofNat 6 p) 1)
  else putPart s p { x with gapLeft := x.gapLeft - 1 }

/-- Do graphs of the partition run: is one in a round, at its boundary, in its section or waiting to commit (R80)? -/
def Part.running (x : Part) : Bool := x.graphs.any (fun e => match e.2.run with
  | .round | .ended | .heldCommit | .boundary | .sect => true
  | .idle | .ready => false)

/-- Its slice runs while no expiry stands and a graph of it is at work, else its grace period (R80). -/
def sliceTick (s : State) (p : Nat) : State :=
  let x := partOf s p
  if !x.slices then s
  else if x.sliceExp then
    let s := putPart s p { x with grace := x.grace + 1 }
    if x.grace + 1 = x.graceLimit * 1024 then addUrgent s (.graceExpiry (BitVec.ofNat 6 p)) else s
  else if !x.running then s
  else
    let s := putPart s p { x with sliceRun := x.sliceRun + 1 }
    if x.slice * 1048576 ≤ x.sliceRun + 1 then addUrgent s (.sliceExpiry (BitVec.ofNat 6 p)) else s

/-- One fc of a partition. -/
def partTick (s : State) (p : Nat) : State := sliceTick (gapTick s p) p

/-- The passes of a graph that begin in its fc. -/
def passesDue (s : State) (p slot : Nat) : State :=
  match graphOf s p slot with
  | none => s
  | some g => (coresUp g).foldl (fun s c => sadDue s p slot c g.rc true) s

/-- THE END OF A FABRIC CYCLE of a round: passes begin, results complete, lines latch, RC advances; at L, or when the round has
faulted, the round ends; else the entries of the new stamp are due. -/
def tick (s : State) (p slot : Nat) : State :=
  let s := passesDue s p slot
  match graphOf s p slot with
  | none => s
  | some g =>
    let s := modCores s g.cores (endCore g.rc)
    let rc := g.rc + 1
    if g.fault.isSome || g.l ≤ rc then modGraph s p slot (fun g => { g with run := .ended, rc := rc, todo := [] })
    else
      let s := modGraph s p slot (fun g => { g with rc := rc })
      let s := (coresUp g).foldl (fun s c => sadDue s p slot c rc false) s
      modGraph s p slot (fun g => { g with todo := agentsAt s g rc })

/-! ### Checkpoint and horizon records (R125) -/

/-- The elements of an operator, in increasing core and element number. -/
def opElems (s : State) (g : Graph) (o : Nat) : List (Nat × Fin 96) :=
  (coresUp g).flatMap (fun c =>
    (List.finRange 96).filterMap (fun e => if (elemOf (coreOf s (coreNo c)) e).opx.toNat = o then some (c, e) else none))

/-- S: bytes of a record. -/
def recSize (s : State) (g : Graph) (o : Nat) : Nat := 65536 * ceilDiv (2048 * (opElems s g o).length) 65536

/-- Address of the record of entry `j`; the horizon's stands behind the NSLOT checkpoints. -/
def recAddr (s : State) (g : Graph) (o j : Nat) : Nat := (ckAt g o).elim 0 (·.base) + j * recSize s g o

/-- The fault of the first frame of a record that may not be accessed, or of a line of it that another attribute filled: its class and
address. -/
def recBad (s : State) (p : Nat) (g : Graph) (o j : Nat) (write : Bool) : Option (BitVec 5 × Nat) :=
  let a := recAddr s g o j
  (upFrom (recSize s g o / 65536) (a / 65536)).findSome? (fun f =>
    match frameCheck s (partOf s p).vf f write with
    | some c => some (c, f * 65536)
    | none =>
      let ca := (frameDesc s f).cattr
      (s.l2.find? (fun e => e.1 / 256 = f && (e.2.cattr ≠ ca || (!write && e.2.lost ≠ 0)))).map (fun e =>
        (if e.2.cattr ≠ ca then cAttr else cPoison, 256 * e.1)))

/-- The 256 bytes of a keeper. -/
def keeperBytes (k : Keeper) : List Byte := bytesOf (k.state.toList ++ k.gain.toList)

/-- The part of an element: keepers, GUF bits, zeros. -/
def partBytes (r : ElemRegs) : List Byte :=
  r.k.toList.flatMap keeperBytes ++ [r.guf.zeroExtend 8] ++ List.replicate 1023 0

/-- A keeper from its 64 words. -/
def keeperOf (ws : List Word) : Keeper :=
  { state := Lanes.tab (fun i => (ws.drop i.val).headD 0), gain := Lanes.tab (fun i => (ws.drop (32 + i.val)).headD 0) }

/-- The stores that write a record, core by core. -/
def recStores (s : State) (g : Graph) (o j : Nat) : List (Nat × List Store) :=
  let es := opElems s g o
  ((upTo es.length).zip es).map (fun x =>
    let a := recAddr s g o j + 2048 * x.1
    let b := partBytes (elemOf (coreOf s (coreNo x.2.1)) x.2.2).r
    (x.2.1, ((upTo 2048).zip b).map (fun y =>
      { addr := a + y.1, byte := y.2, mask := 0xFF, cattr := (frameDesc s (frameNo a)).cattr, cls := unitClass g o })))

/-- Keepers and GUF bits restored from a record, read as the operator's own committed stores (R126). -/
def readRecord (s : State) (g : Graph) (o j : Nat) : State :=
  let es := opElems s g o
  ((upTo es.length).zip es).foldl (fun s x =>
    let a := recAddr s g o j + 2048 * x.1
    let rd (i : Nat) : Byte := readAs s (· = .core x.2.1) (a + i)
    let ws := wordsOf 256 ((upTo 1024).map rd)
    modCore s (coreNo x.2.1) (fun k => modElem k x.2.2 (fun e =>
      let ks := Vector.ofFn (fun i : Fin 4 => keeperOf (ws.drop (64 * i.val)))
      { e with r := { e.r.forget ofKeeper with k := ks, guf := (rd 1024).truncate 4 } }))) s

/-- Cleared keepers: the unit that starts at ORIGIN (R122). -/
def clearKeepers (s : State) (g : Graph) (o : Nat) : State :=
  (opElems s g o).foldl (fun s x =>
    modCore s (coreNo x.1) (fun k => modElem k x.2 (fun e =>
      { e with r := { e.r.forget ofKeeper with k := Vector.replicate 4 Keeper.cleared, guf := 0 } }))) s

/-- Entry `j` of an operator's table becomes invalid. -/
def dropEntry (o : OpState) (j : Nat) : OpState :=
  if j < o.ck.length then { o with ck := setAt o.ck j { v := false, time := 0 } } else { o with hz := { v := false, time := 0 } }

/-- Disarm an operator: its unit leaves its slot. -/
def disarm (x : Part) (slot o : Nat) : Part :=
  match tfind x.graphs slot with
  | none => x
  | some g =>
    match (stAt g o).arm with
    | none => x
    | some u => leaveSlot { x with graphs := tput x.graphs slot (modSt g o (fun st => { st with arm := none })) } u.cell

/-! ### The start pulse (R107, R112, R126, R308) -/

/-- The progression of an arm word. -/
def unitProg (d : OpDesc) (u : ArmUnit) : Prog :=
  let tb := d.origin + u.step * d.t
  { a := (tb + u.first : Nat), b := (tb + u.last : Nat), s := u.stride }

/-- A port at a round start: the record and progression of the round, and the position to which a void rewinds. -/
def startPort (g : Graph) (q : Port) : Port :=
  let q := { q with active := nextRec q, next := none }
  let q := match q.active with
    | none => q
    | some r =>
      if r.opx = 0xFF then { q with free := q.freeNext, prog := q.freeNext, pos := q.freeNext.a, step := 0, fin := false }
      else match (stAt g r.opx.toNat).arm with
        | none => q
        | some u =>
          let pr := unitProg (opAt g r.opx.toNat) u
          if u.fresh then { q with prog := pr, pos := pr.a, step := 0, fin := false } else { q with prog := pr }
  { q with pos0 := q.pos, step0 := q.step, fin0 := q.fin }

/-- TB of an armed operator, modulo 2^32 (R112). -/
def baseTime (g : Graph) (o : Nat) : Word :=
  let d := opAt g o
  BitVec.ofNat 32 (d.origin + ((stAt g o).arm.elim 0 (·.step)) * d.t)

/-- An element at a round start: m0 of an armed one, working accumulators, tags, what a void restores (R136, R202, R218, R339). Of what it holds,
only m0 is of this round (R134). -/
def startElem (g : Graph) (x : Element) : Element :=
  let r := x.r
  let r := { r.forget (fun w => passesBy w || (elemArmed g x && w = ⟨.m, 0⟩)) with
    wrote := if elemArmed g x then [(.m, oneLane 0)] else []
    m := if elemArmed g x then r.m.set 0 (baseTime g x.opx.toNat) else r.m
    accW := r.accC, nbV := Vector.replicate 32 0, nbS := Vector.replicate 8 0, left := 0, pipe := [], hist := [], histRes := [] }
  { x with r := r, start := r, li := 0 }

def startCore (g : Graph) (k : Core) : Core :=
  let k := applyRects k
  let k := allElems k (fun _ x => startElem g x)
  { k with
    ports := Vector.ofFn (fun i => startPort g k.ports[i]), seqLi := 0, lineNow := [], lineNext := [], sad := [], weights := []
    roundsStarted := k.roundsStarted + 1 }

/-- May a start pulse issue (R20, R79, R89, R110, R184)? A pacing gap of the partition holds it (R19). -/
def pulseFree (s : State) (p : Nat) (g : Graph) : Bool :=
  let x := partOf s p
  g.run = .ready && g.hold.isNone && anyArmed g && x.v && !x.bndStarted && !x.resetting && !s.hitch && !s.thermTrip
    && x.gapLeft = 0

/-- Restores that the armed units ask for: operator and entry (99: cleared keepers). -/
def restoresDue (g : Graph) : List (Nat × Nat) :=
  (g.restore.filter (fun r => (stAt g r.1.toNat).arm.elim false (·.fresh))).map (fun r => (r.1.toNat, r.2))

/-- A restore that meets poison: the entry goes, and the restart point is chosen again (R126). Nothing is reported of it: DESIGN CHOICE (log entry
87). -/
def chooseAgain (s : State) (p slot o j : Nat) : State :=
  let x := disarm (partOf s p) slot o
  armIdle (putPart s p { x with graphs := tmod x.graphs slot (fun g => { modSt g o (fun st => dropEntry st j) with run := .idle }) }) p slot

/-- An arming that ends in a fault of its restore leaves the production records as they were (R132). -/
def giveBack (g : Graph) : Graph :=
  (opxs g).foldl (fun g o => modSt g o (fun st =>
    match st.arm with
    | some u => if u.fresh then { st with slots := u.took.toList ++ st.slots, arm := some { u with took := none } } else st
    | none => st)) g

/-- The ENGINE fault of a record area (R126); its DETAIL is a free value. -/
def recFault (s : State) (p slot : Nat) (g : Graph) (o addr : Nat) : State :=
  let f : FaultInfo := { cls := cEngine, detail := Config.recordDetail addr, info := BitVec.ofNat 64 addr, lane := none }
  takeFault .outside s p slot (unitReport (partOf s p) slot g o f ((coresUp g).headD 0) 127 0 0 6)

/-- THE START PULSE: restores, then every core of the graph begins the round at RC 0. -/
def beginRound (s : State) (p slot : Nat) (g : Graph) : State :=
  let s := (restoresDue g).foldl (fun s r => if r.2 = 99 then clearKeepers s g r.1 else readRecord s g r.1 r.2) s
  let s := modCores s g.cores (startCore g)
  let s := modGraph s p slot (fun g =>
    { g with run := .round, rc := 0, fault := none, hit := none, waitCnt := 0, stopped := false, fresh := false, lastVoid := false, restore := [],
              sectEnd := none })
  modGraph s p slot (fun g => { g with todo := agentsAt s g 0 })

def execStartPulse (part slot : BitVec 6) (s : State) : Host.Outcome State Fault Refusal :=
  .next (match graphOf s part.toNat slot.toNat with
    | none => s
    | some g =>
      let p := part.toNat
      let sl := slot.toNat
      if !pulseFree s p g then s
      else
        match (restoresDue g).findSome? (fun r => if r.2 = 99 then none else (recBad s p g r.1 r.2 false).map (fun b => (r, b))) with
        | some (r, b) => if b.1 = cPoison then chooseAgain s p sl r.1 r.2 else recFault (modGraph s p sl giveBack) p sl g r.1 b.2
        | none =>
          let s := g.sectEnd.elim s (fun t => sampleCount s (dieOf ((coresUp g).headD 0)) 0x06 p (s.clk - t))
          beginRound s p sl g)

/-! ### What a committed round completes (R93, R126, R127) -/

def finsOf (s : State) (g : Graph) : List (BitVec 8) := (coresUp g).flatMap (fun c => (coreOf s (coreNo c)).fins)

def earliesOf (s : State) (g : Graph) : List (BitVec 8) := (coresUp g).flatMap (fun c => (coreOf s (coreNo c)).earlies)

/-- At least one port follows the operator, and every such port has made its last step (R93). -/
def portsDone (s : State) (g : Graph) (o : Nat) : Bool :=
  let ps := (coresUp g).flatMap (fun c =>
    (coreOf s (coreNo c)).ports.toList.filter (fun q => q.active.elim false (fun r => r.opx.toNat = o && r.opx ≠ 0xFF)))
  !ps.isEmpty && ps.all (·.fin)

/-- Does the operator's unit complete with this round? -/
def completes (s : State) (g : Graph) (o : Nat) : Bool :=
  (stAt g o).arm.isSome && ((opAt g o).rounds = 1 || (finsOf s g).contains (BitVec.ofNat 8 o) || portsDone s g o)

/-- Last executed position plus 1. -/
def nextPos (g : Graph) (o : Nat) : Nat :=
  let d := opAt g o
  (stAt g o).arm.elim d.origin (fun u => d.origin + u.step * d.t + u.last + 1)

/-- The slot that a new checkpoint takes: an invalid one, else the one of lowest TIME. -/
def ckSlot (o : OpState) : Nat :=
  match (upTo o.ck.length).find? (fun j => (o.ck.drop j).head?.elim false (fun e => !e.v)) with
  | some j => j
  | none =>
    (((upTo o.ck.length).zip o.ck).foldl (fun (b : Option (Nat × Nat)) e => match b with
      | none => some (e.1, e.2.time)
      | some y => if e.2.time < y.2 then some (e.1, e.2.time) else some y) none).elim 0 (·.1)

/-- The checkpoint that this round's commit takes: entry and TIME. -/
def ckDue (s : State) (g : Graph) (o : Nat) : Option (Nat × Nat) :=
  let d := opAt g o
  match d.ins.find? (fun i => i.kind = 5) with
  | none => none
  | some i =>
    let t := nextPos g o
    if completes s g o && (ckAt g o).isSome && d.origin < t && ((t - d.origin : Nat) : Int) % i.p1 = 0 then some (ckSlot (stAt g o), t) else none

/-- Elements of the operator on which `khor` fired for keeper `j`. -/
def khorsOf (s : State) (g : Graph) (o : Nat) (j : Fin 4) : List ElemRegs :=
  (coresUp g).flatMap (fun c =>
    let k := coreOf s (coreNo c)
    (k.khors.filter (fun h => h.2 = j && (elemOf k h.1).opx.toNat = o)).map (fun h => (elemOf k h.1).r))

/-- The horizon that this round's commit records: every element on which the entry fired holds gain +0 in every lane. -/
def hzDue (s : State) (g : Graph) (o : Nat) : Option (Nat × Nat) :=
  let st := stAt g o
  let t := nextPos g o
  let ok := (List.finRange 4).any (fun j =>
    let rs := khorsOf s g o j
    !rs.isEmpty && rs.all (fun r => (r.k[j]).gain.toList.all (· = 0)))
  if st.arm.isSome && hasAff (opAt g o) && (ckAt g o).isSome && ok && !(st.hz.v && t ≤ st.hz.time) then some (st.ck.length, t) else none

/-- Records that the commit writes: operator, entry, TIME. -/
def recordsDue (s : State) (g : Graph) : List (Nat × Nat × Nat) :=
  (opxs g).flatMap (fun o => (ckDue s g o).toList.map (fun r => (o, r.1, r.2)) ++ (hzDue s g o).toList.map (fun r => (o, r.1, r.2)))

/-- The records whose area can be written. -/
def recordsGood (s : State) (p : Nat) (g : Graph) : List (Nat × Nat × Nat) :=
  (recordsDue s g).filter (fun r => (recBad s p g r.1 r.2.1 true).isNone)

/-! ### The commit (R136, R189, R315) -/

/-- Every store of the round, with the writing core: those of streams before the bytes of records, DESIGN CHOICE (log entry 92). -/
def roundStores (s : State) (p : Nat) (g : Graph) : List (Nat × List Store) :=
  (coresUp g).map (fun c => (c, (coreOf s (coreNo c)).stores)) ++ (recordsGood s p g).flatMap (fun r => recStores s g r.1 r.2.1)

/-- The stores of a round performed (R136, R187). -/
def performRound (s : State) (p : Nat) (l : List (Nat × List Store)) : State :=
  l.foldl (fun s x => performStores s p (partOf s p).vf x.1 (.core x.1) x.2) s

/-- Page sets that the held appends take at the commit, in its order (R174). -/
def heldSets (s : State) (p : Nat) (g : Graph) : Nat :=
  ((heldInOrder s g).foldl (fun v h => match h.2.2 with
    | .kv k => v.add s p (partOf s p).vf k
    | .cmd _ _ | .cancel _ _ => v) KvView.empty).sets

/-- Does the commit wait for frames that eviction must free (R174)? -/
def allocHeld (s : State) (p : Nat) (g : Graph) : Bool := !setsFit p (partOf s p).vf (heldSets s p g) s

/-- What the stores and the KV commands of a round leave, their version copies charged (R175, R189). -/
def afterWrites (s : State) (p : Nat) (g : Graph) : State :=
  (heldInOrder s g).foldl (fun s h => match h.2.2 with
    | .kv k => kvCommit s p (partOf s p).vf h.1 (graphClass g) k
    | .cmd _ _ | .cancel _ _ => s) (performRound s p (roundStores s p g))

/-- Does the commit wait for the version store: would it take a die beyond the partition's allotment (R189)? -/
def versionHeld (s : State) (p : Nat) (g : Graph) : Bool :=
  let before := (partOf s p).verUsed
  let after := (partOf (afterWrites s p g) p).verUsed
  (upTo 4).any (fun d => tget 0 before d < tget 0 after d && verAllot (partOf s p) d < tget 0 after d)

/-- Does the commit wait for engine commands to complete: would it release more than its core may have outstanding (R315)? -/
def engineHeld (s : State) (p : Nat) (g : Graph) : Bool :=
  (coresUp g).any (fun c =>
    let n := ((coreOf s (coreNo c)).held.filter (fun h => match h.2 with
      | .cmd _ x => takesRoom s p g x
      | .kv _ | .cancel _ _ => false)).length
    n ≠ 0 && 64 < outstanding s c + n)

/-- Does the commit of a round wait: for engines, for frames or for the version store? -/
def commitHeld (s : State) (p : Nat) (g : Graph) : Bool := engineHeld s p g || allocHeld s p g || versionHeld s p g

/-- What a timed entry held is released (R136). -/
def releaseHeld (s : State) (p slot c : Nat) (cls : BitVec 2) : Held → State
  | .cmd opc x => release s p slot c opc x
  | .kv k => kvCommit s p (partOf s p).vf c cls k
  | .cancel level w => doCancel s p level w

/-- The class in which a hide operation of a core travels: that of the unit, or of the graph for its sequencer (R84). -/
def hideClass (k : Core) (g : Graph) (h : HideReq) : BitVec 2 :=
  if h.who = 0 then graphClass g else unitClass g (elemOf k (Fin.ofNat 96 (h.who - 1))).opx.toNat

/-- A hide operation reaches its bank (R82, R136): an immediate store on the path of R84. A seal point is no access. -/
def commitHide (s : State) (p c : Nat) (g : Graph) (h : HideReq) : State :=
  match h.op with
  | .st _ _ => performHide (storeAsk s ((partOf s p).hideKey h.off / 65536) c (h.who - 1)) p h.off h.op
  | .sealPoint => s
  | _ => performHide (hideRequest s p h.off (hideClass (coreOf s (coreNo c)) g h) c) p h.off h.op

/-- Arm words of the round, for `rdst` (R362). -/
def armwOf (g : Graph) : Table DWord :=
  (armedOps g).foldl (fun t o =>
    match (stAt g o).arm with
    | none => t
    | some u =>
      tput t o (BitVec.ofNat 64 (u.first % 4096 * 2 ^ 52 + u.last % 4096 * 2 ^ 40 + u.stride % 4096 * 2 ^ 28 + u.prio.toNat * 2 ^ 26
        + u.rcnt % 256 * 2 ^ 18 + o % 256 * 2 ^ 10))) []

/-- An element at the commit: CTX of an armed one advances, working accumulators become committed (R201, R218). -/
def commitElem (g : Graph) (x : Element) : Element :=
  let r := x.r
  { x with r := { r with ctx := if elemArmed g x then r.ctx + 1 else r.ctx, accC := r.accW } }

/-- A core at the commit: shadowed state merges, bank swaps take effect, gains wait for the next round (R136, R332, R345, R363). -/
def commitCore (g : Graph) (k : Core) : Core :=
  let k := applyBankOps k
  let k := k.cnts.foldl addEvc k
  let k := allElems k (fun _ x => commitElem g x)
  { k with
    gainsNext := k.gainsNext ++ k.gainsHeld, gainsHeld := [], stores := [], hideOps := [], held := [], cnts := [], units := 0
    weights := [], sad := [], lineNow := [], lineNext := [], armw := armwOf g }

/-- THE COMMIT of a round: stores core by core, hide operations in their order, then what was held in issue order; every record that
cannot be written is an ENGINE fault (R126, R136). -/
def commitRound (s : State) (p slot : Nat) : State :=
  match graphOf s p slot with
  | none => s
  | some g =>
    let cs := coresUp g
    let bad := (recordsDue s g).filterMap (fun r => (recBad s p g r.1 r.2.1 true).map (fun b => (r.1, b.2)))
    let hide := cs.flatMap (fun c => (coreOf s (coreNo c)).hideOps.map (fun h => (c, h)))
    let held := heldInOrder s g
    let s := performRound s p (roundStores s p g)
    let s := hide.foldl (fun s h => commitHide s p h.1 g h.2) s
    let s := modCores s g.cores (commitCore g)
    let s := passTokens (held.foldl (fun s h => releaseHeld s p slot h.1 (graphClass g) h.2.2) s) g.cores
    let s := bad.foldl (fun s b => recFault s p slot g b.1 b.2) s
    modGraph s p slot (fun g => { g with run := .boundary, bndLeft := 8, lastVoid := false, repeatCnt := 0 })

/-- Frames of the record area of an operator whose elements number `n` (R124). -/
def areaHolds (c : CkDesc) (n f : Nat) : Bool :=
  c.base / 65536 ≤ f && f < c.base / 65536 + ceilDiv (2048 * n) 65536 * (c.nslot + 1)

/-- Does a frame belong to a record area of a resident graph, of a graph whose context is saved, or of an image that has been accepted? Such
a frame is not migrated (R124). -/
def inRecords (s : State) (f : Nat) : Bool :=
  s.parts.any (fun e =>
    e.2.graphs.any (fun g => g.2.ckpts.any (fun c => areaHolds c (opElems s g.2 c.opx.toNat).length f))
      || e.2.loading.any (fun l => l.recs.any (fun r => r.1 ≤ f && f < r.1 + r.2))
      || e.2.saved.any (fun x => x.graphs.any (fun g => g.2.ckpts.any (fun c =>
          areaHolds c ((x.cores.filter (fun k => g.2.cores.contains k.num)).foldl (fun n k =>
            n + (k.core.elems.toList.filter (fun y => y.opx = c.opx)).length) 0) f))))

/-- Is the frame in a host window? Such a frame never leaves HBM (R26). -/
def inWindow (s : State) (f : Nat) : Bool := s.windows.any (fun w => w.base ≤ f && f < w.base + w.frames)

/-- A location in flash by its number: an LBA run, a namespace from 1 to 255, a controller (R145). -/
def flashAt (n : Nat) : Nat := n % 2 ^ 32 + 2 ^ 32 * (1 + n / 2 ^ 32 % 255) + 2 ^ 40 * (n / 2 ^ 32 / 255 % 256)

/-- Does a frame stand at a location of flash? -/
def flashUsed (s : State) (loc : Nat) : Bool := s.frames.any (fun e => e.2.v && e.2.tier = 2 && e.2.loc.toNat = loc)

/-- A free location in flash, from a proposal on. -/
def freeFlash (s : State) (seed : Nat) : Nat :=
  (((upTo (s.frames.length + 1)).map (fun i => flashAt (seed + i))).find? (fun l => !flashUsed s l)).getD (flashAt seed)

/-- Frames that the control complex may evict to make room: in HBM, resident, of a tenant, in no host window and no record area; those that
the partition cannot reach come first (R26, R124, R164, R174). A frame of a page set goes alone: DESIGN CHOICE (log entry 91). -/
def victims (s : State) (p : Nat) : List Nat :=
  let l := (s.frames.filter (fun e => (frameDesc s e.1).v && e.2.tier = 0 && e.2.state = 0 && e.2.owner < 256 && !inWindow s e.1
    && !inRecords s e.1)).map (·.1)
  let other := l.filter (fun f => !mayRead s (partOf s p).vf (rawFrame s f))
  if other.isEmpty then l else other

/-- The control complex evicts a frame, unless an eviction is under way. -/
def evictSome (s : State) (p : Nat) : State :=
  if s.tasks.any (fun i => match i with | .frameEvict _ _ => true | _ => false) then s
  else
    let l := victims s p
    match (l.drop (Config.allocHome s.allocs % l.length)).head? with
    | some f => addTask s (.frameEvict (BitVec.ofNat 32 f) (BitVec.ofNat 48 (freeFlash s (Config.freeLoc s.allocs))))
    | none => s

/-- The first store of a round that meets a line filled under another attribute, with its core: of those of the cores, the one of the lowest
RC, then of the lowest core (R128, R159). -/
def commitClash (s : State) (g : Graph) : Option (Nat × Store) :=
  ((coresUp g).flatMap (fun c => ((attrClashes s (coreOf s (coreNo c)).stores).map (fun x => (c, x))))).foldl
    (fun (b : Option (Nat × Store)) x => match b with
      | none => some x
      | some y => if x.2.rc < y.2.rc then some x else some y) none

/-- ATTR of such a store: its report names the access and the entry that made it (R129, R159). -/
def clashReport (s : State) (p slot c : Nat) (g : Graph) (x : Store) : Report :=
  let s := { s with cur := { s.cur with part := p, slot := slot, core := coreNo c, elem := 127, li := x.li } }
  let f := portFault (Fin.ofNat 16 x.port) { cls := cAttr, info := x.addr }
  let r := match ((coreOf s (coreNo c)).ports[Fin.ofNat 16 x.port]).active with
    | some r => portReport s r f
    | none => unitReport (partOf s p) slot g 255 f c 127 x.li 0 0
  { r with rc := BitVec.ofNat 12 x.rc }

/-- The commit, unless a store meets a line of another attribute: then the round ends with that fault (R159). -/
def commitOrClash (s : State) (p slot : Nat) (g : Graph) : State :=
  match commitClash s g with
  | some (c, x) => takeFault .round (modGraph s p slot (fun g => { g with run := .ended })) p slot (clashReport s p slot c g x)
  | none => commitRound s p slot

/-- A keeper word that a record is about to take and that its residue does not fit (R205): it is checked as its element reads it. -/
def recordCheck (s : State) (p : Nat) (g : Graph) : Option Instr :=
  (recordsGood s p g).findSome? (fun r => (opElems s g r.1).findSome? (fun x =>
    (residAt s (coreNo x.1) x.2 (fun w => if ofKeeper w then some w.lane else none)).map
      (residueRead (coreNo x.1) x.2 (elemOf (coreOf s (coreNo x.1)) x.2).li)))

/-- A round that has ended without a fault commits, or its commit is held (R136, R174, R189, R315). A boundary that has begun serves a
hold; none is asked for again (R183). -/
def execRoundCommit (part slot : BitVec 6) (s : State) : Host.Outcome State Fault Refusal :=
  .next (
    let p := part.toNat
    let sl := slot.toNat
    match graphOf s p sl with
    | none => s
    | some g =>
      if s.hitch || !((g.run = .ended && g.fault.isNone) || g.run = .heldCommit) then s
      else if (commitClash s g).isSome then commitOrClash s p sl g
      else match recordCheck s p g with
      | some c => addUrgent (modGraph s p sl (fun g => { g with run := .ended })) c
      | none =>
        let held := modGraph s p sl (fun g => { g with run := .heldCommit })
        if engineHeld s p g then held
        else if allocHeld s p g then evictSome held p
        else if versionHeld s p g then modPart held p (fun x => { x with bndReq := x.bndReq || !x.bndStarted })
        else commitOrClash s p sl g)

/-! ### The void (R128, R130, R131, R136) -/

/-- A change of the quota counter that leaves it above 0 lets the rounds held for QUOTA replay (R64). -/
def releaseQuota (s : State) (p : Nat) : State :=
  if (partOf s p).quota = 0 then s
  else modPart s p (fun x =>
    { x with graphs := x.graphs.map (fun e =>
        (e.1, if e.2.hold.elim false (fun r => r.cls = cQuota) then { e.2 with hold := none } else e.2)) })

/-- What an ABSENT fault waits for: a sequence that is swapped in, or a frame that is fetched (R165, R171). -/
def absentTask (s : State) (p : Nat) (g : Graph) (r : Report) : Instr :=
  if r.detail = 0xFFFE then .sequenceSwapIn (BitVec.ofNat 6 p) (BitVec.ofNat 12 g.wantSeq)
  else match (partOf s p).seqs.find? (fun e => e.2.v && !e.2.hot && BitVec.ofNat 64 e.2.ctbase = r.info) with
  | some e => .sequenceSwapIn (BitVec.ofNat 6 p) (BitVec.ofNat 12 e.1)
  | none => .frameFetch (BitVec.ofNat 32 (bitsN r.info 16 32))

/-- Is a POISON report that of a cached read of page sets (R123)? The sequence and the block of the position that the port has read. -/
def histPoison (s : State) (g : Graph) (r : Report) : Option (Nat × Nat) :=
  if r.cls ≠ cPoison || 16 ≤ r.detail.toNat then none
  else match (((coreOf s (coreNo r.core.toNat)).ports.toList.drop r.detail.toNat).head?).bind (·.active), g.hit with
    | some q, some (.kv seq pos) => if (opAt g q.opx.toNat).ins.any (fun i => i.kind = 6) then some (seq, pos / 16) else none
    | _, _ => none

/-- What follows a void, by class (R130, R131). -/
inductive After where
  | replay | hold | stop | hist
  deriving DecidableEq, Repr

def afterVoid (s : State) (g : Graph) (r : Report) : After :=
  if r.cls = cAbsent || r.cls = cQuota || r.cls = cUnderrun || r.cls = cOverrun then .hold
  else if r.cls = cResidue || (r.cls = cDeadline && r.detail = 3) then .replay
  else if (histPoison s g r).isSome then .hist
  else .stop

/-- How many voids in a row name the unit with the class: UNDERRUN and OVERRUN count as one class. -/
def countRepeat (g : Graph) (r : Report) : Graph :=
  let fam (c : BitVec 5) : BitVec 5 := if c = cOverrun then cUnderrun else c
  let same := g.repeatCnt ≠ 0 && g.repeatCls = fam r.cls && g.repeatOpx = r.opx && g.repeatStep = r.step
  { g with repeatCls := fam r.cls, repeatOpx := r.opx, repeatStep := r.step, repeatCnt := if same then g.repeatCnt + 1 else 1 }

/-- Has the graph reached the limit of its class: the third UNDERRUN or OVERRUN, the second DEADLINE 3 (R130, R131)? -/
def atReplayLimit (g : Graph) : Bool :=
  (g.repeatCls = cUnderrun && 3 ≤ g.repeatCnt) || (g.repeatCls = cDeadline && 2 ≤ g.repeatCnt)

/-- A replay translates afresh what has met a frame that moved: entries and latches of the frame that say so go (R165). -/
def dropMoving (s : State) (p : Nat) (g : Graph) (f : Nat) : State :=
  let stale (l : Latch) : Bool := l.moving && l.frame.toNat = f
  let s := { s with tlb := Vector.ofFn (fun d => s.tlb[d].filter (fun e => !(e.part = p && stale e.latch))) }
  modCores s g.cores (fun k => { k with ports := Vector.ofFn (fun i =>
    let q := k.ports[i]
    { q with latch := if q.latch.elim false stale then none else q.latch }) })

/-- What an ABSENT fault sets going: the translations that it met are dropped, and what it waits for is asked for (R165, R171). -/
def askAbsent (s : State) (p : Nat) (g : Graph) (r : Report) : State :=
  if r.cls = cAbsent then askTask (dropMoving s p g (bitsN r.info 16 32)) (absentTask s p g r) else s

/-- THE VOID of a round that has faulted: nothing of it stays; the fault is reported, and what follows is noted for the
boundary. -/
def execRoundVoid (part slot : BitVec 6) (s : State) : Host.Outcome State Fault Refusal :=
  .next (
    let p := part.toNat
    let sl := slot.toNat
    match graphOf s p sl with
    | none => s
    | some g =>
      match g.run, g.fault with
      | .ended, some r =>
        let act := afterVoid s g r
        let back := unitsTaken s g.cores
        let s := voidRound s p sl
        let s := if back = 0 then s else releaseQuota s p
        let s := modGraph s p sl (fun g => countRepeat g r)
        let s := queueReport s p (forwards r.cls) r
        match act with
        | .replay => modGraph s p sl (fun g => { g with fault := none }) |> limit p sl
        | .stop => modGraph s p sl (fun g => { g with fault := none, stopNext := true })
        | .hist => s
        | .hold =>
          let s := modGraph s p sl (fun g => { g with fault := none, hold := some r })
          askAbsent s p g r |> limit p sl
      | _, _ => s)
where
  limit (p sl : Nat) (s : State) : State :=
    match graphOf s p sl with
    | none => s
    | some g => if atReplayLimit g then addUrgent s (.replayLimit (BitVec.ofNat 6 p) (BitVec.ofNat 6 sl)) else s

/-- The third UNDERRUN or OVERRUN in a row on one unit stops the graph and is forwarded; so does the second DEADLINE 3, whose
report has been forwarded (R130, R131). -/
def execReplayLimit (part slot : BitVec 6) (s : State) : Host.Outcome State Fault Refusal :=
  .next (
    let p := part.toNat
    let sl := slot.toNat
    match graphOf s p sl with
    | none => s
    | some g =>
      if !atReplayLimit g then s
      else
        let s := match g.hold with
          | some r => if forwards r.cls then s else postEvent s g.vf (reportEvent r)
          | none => s
        stopGraph (modGraph s p sl (fun g => { g with repeatCnt := 0 })) p sl)

/-- An UNDERRUN or OVERRUN is over when the window that the access has met has closed (R130, R194). -/
def holdOver (s : State) (g : Graph) : Bool :=
  match g.hold with
  | some r => (r.cls = cUnderrun || r.cls = cOverrun) && (match g.hit with
      | some (.window c w) => !(coreOf s (coreNo c)).windows.contains w
      | some (.kv _ _) | none => true)
  | none => false

/-! ### The round boundary (R107, R114, R349) -/

/-- The pacing gap that a boundary of the partition sets (R18, R19). -/
def gapOf (x : Part) : Nat := if bit x.pace 0 then bitsN x.pace 16 12 else 0

/-- A boundary of the partition has ended: its pacing gap begins, or one in progress goes on for at least as long (R17 to R19). -/
def startGap (s : State) (p : Nat) : State := modPart s p (fun x => { x with gapLeft := max x.gapLeft (gapOf x) })

/-- The boundary has ended: the start pulse follows the pacing gap, if there is one. -/
def toPulse (s : State) (p slot : Nat) : State := startGap (modGraph s p slot (fun g => { g with run := .ready })) p

/-- Plan what waits and apply the cancels that have arrived (R107 steps 2 and 3, R118). -/
def planAndCancel (s : State) (p slot : Nat) : State :=
  match graphOf s p slot with
  | none => s
  | some g =>
    let hf := histFrontier s p g
    let x := checkSlot (planWaiting hf (partOf s p) slot) slot
    let x := applyCancels hf x slot g.cancels
    let x := checkSlot x slot
    putPart s p { x with graphs := tmod x.graphs slot (fun g => { g with cancels := [] }) }

/-- Demands that were accepted in the boundary work wait from now on with the others (R106). -/
def admitLate (s : State) (p slot : Nat) : State := modGraph s p slot (fun g => { g with waiting := g.waiting ++ g.late, late := [] })

/-- The arming step of a boundary (R107 step 4, R110, R111). -/
def armStep (s : State) (p slot : Nat) : State :=
  match graphOf s p slot with
  | none => s
  | some g => raisePromotions (putPart s p (armGraph (histFrontier s p g) (partOf s p) slot)) p slot

/-- The boundary has ended with no unit armed: what waits is planned as for an idle graph (R106, R107). -/
def toIdle (s : State) (p slot : Nat) (before : List Nat) : State :=
  let s := modGraph s p slot (fun g => { g with run := .idle })
  let s := armStep (planAndCancel s p slot) p slot
  startGap (armReleased (modGraph s p slot settle) p before) p

/-- When every core's section has ended: with an operator armed the start pulse follows; else the graph is idle (R106, R107). -/
def closeSection (s : State) (p slot : Nat) : State :=
  match graphOf s p slot with
  | none => s
  | some g =>
    if g.run ≠ .sect || g.cores.any (fun c => (coreOf s (coreNo c)).secOn) then s
    else
      let s := modGraph s p slot (fun g => { g with sectEnd := some s.clk })
      if anyArmed g then toPulse s p slot else toIdle s p slot (releasedAccs (partOf s p))

/-- The boundary section begins on every core that has boundary entries (R349). -/
def openSection (s : State) (p slot : Nat) : State :=
  match graphOf s p slot with
  | none => s
  | some g =>
    let s := modCores s g.cores (fun k =>
      let b := bndFirst k.seqList
      { k with secOn := b < k.seqList.length, secWait := false, secFired := false, secLi := b, secCount := 0 })
    closeSection (modGraph s p slot (fun g => { g with run := .sect })) p slot

/-- Step 1 of R107: what the round completed, its counters, checkpoints and horizons. -/
def recordStep (s : State) (p slot : Nat) (g : Graph) : State :=
  let recs := recordsGood s p g
  let fins := finsOf s g
  let earlies := earliesOf s g
  let done := portsDone s g
  let x := (opxs g).foldl (fun x o => recordUnit fins earlies done slot x o) (partOf s p)
  let x := { x with graphs := tmod x.graphs slot (fun g =>
    let g := recs.foldl (fun g r => modSt g r.1 (fun st =>
      if r.2.1 < st.ck.length then { st with ck := setAt st.ck r.2.1 { v := true, time := r.2.2 } }
      else { st with hz := { v := true, time := r.2.2 } })) g
    { g with rcom := inc32 g.rcom }) }
  let s := putPart s p (checkSlot x slot)
  modCores s g.cores (fun k => { k with fins := [], earlies := [], khors := [] })

/-- DEADLINE 2 of a unit that has run ROUNDS rounds (R114). The report's ROUND is the RCNT that the unit had in its last round (R129).
DEDUCED (log 67). -/
def roundsReport (s : State) (p slot : Nat) (g : Graph) (o : Nat) : Report :=
  let f : FaultInfo := { cls := cDeadline, detail := 2, info := BitVec.ofNat 64 (opAt g o).rounds, lane := none }
  let r := unitReport (partOf s p) slot g o f ((coresUp g).headD 0) 127 0 0 6
  { r with round := BitVec.ofNat 8 ((stAt g o).arm.elim 0 (fun u => u.rcnt - 1)) }

/-- Units that have run ROUNDS rounds: each is reported, the graph stops, a boundary is forced (R114, R131). -/
def deadlineRounds (s : State) (p slot : Nat) (g : Graph) (os : List Nat) : State :=
  let s := os.foldl (fun s o => queueReport s p true (roundsReport s p slot g o)) s
  modPart (stopGraph s p slot) p (fun x => { x with bndReq := true })

/-- A cached read met poison: the frontier falls to the block of the position, its units are given up, and every demand is planned again
(R123, R181). -/
def recoverPoison (s : State) (p slot seq blk : Nat) (g : Graph) : State :=
  let s := dropBlocks s p (partOf s p).vf seq blk
  let x := (opxs g).foldl (fun x o => disarm x slot o) (partOf s p)
  let s := putPart s p x
  let s := modGraph s p slot (fun g => { g with fault := none, hit := none, lastVoid := false, restore := [] })
  putPart s p (replan (histFrontier s p g) (partOf s p) slot)

/-- THE ROUND BOUNDARY. After a void the armed set stands and the replay follows; after a commit the five steps of R107, then
the boundary section. -/
def execRoundBoundary (part slot : BitVec 6) (s : State) : Host.Outcome State Fault Refusal :=
  .next (
    let p := part.toNat
    let sl := slot.toNat
    match graphOf s p sl with
    | none => s
    | some g =>
      if g.run ≠ .boundary then s
      else
        let s := modPart s p (fun x => { x with pace := x.paceNext })
        let before := releasedAccs (partOf s p)
        if g.lastVoid then
          (if g.stopNext then startGap (stopGraph s p sl) p
           else match g.fault with
             | some r =>
               match histPoison s g r with
               | some q =>
                 let s := recoverPoison s p sl q.1 q.2 g
                 let s := admitLate (armStep (planAndCancel s p sl) p sl) p sl
                 if (graphOf s p sl).elim false anyArmed then armReleased (toPulse s p sl) p before else toIdle s p sl before
               | none => toPulse (admitLate s p sl) p sl
             | none => toPulse (admitLate s p sl) p sl)
        else
          let s := recordStep s p sl g
          match graphOf s p sl with
          | none => s
          | some g =>
            if g.stopNext then startGap (armReleased (stopGraph s p sl) p before) p
            else match overRounds g with
              | o :: os => startGap (armReleased (deadlineRounds s p sl g (o :: os)) p before) p
              | [] =>
                let s := admitLate (armStep (planAndCancel s p sl) p sl) p sl
                openSection (armReleased s p before) p sl)

/-- The oldest passed-over candidate is promoted for the next arming step (R111). -/
def execPromotion (part slot : BitVec 6) (opx : BitVec 8) (s : State) : Host.Outcome State Fault Refusal :=
  .next (modGraph s part.toNat slot.toNat (fun g =>
    if opx.toNat < g.ops.length && 64 ≤ (stAt g opx.toNat).passed then
      modSt g opx.toNat (fun o => { o with promoted := o.promoted ++ o.passedBy.toList, passed := 0, passedBy := none })
    else g))

/-- The gap has run its course (R19): `left` fc of it were left when this was found, and a gap that has been started again since goes on. -/
def execPacingGapEnd (part : BitVec 6) (left : BitVec 12) (s : State) : Host.Outcome State Fault Refusal :=
  .next (modPart s part.toNat (fun x => if x.gapLeft = left.toNat then { x with gapLeft := 0 } else x))

/-! ### Waits and late results (R85, R113, R131, R350) -/

/-- Operator and tile step that a wait names (R113): the first candidate of the lowest operator that has one, else the lowest
released, unproduced position. -/
def waitNames (x : Part) (slot : Nat) (g : Graph) : Option (Nat × Nat × List Nat) :=
  let byCand := (opxs g).findSome? (fun o => (sortCands (candidates x slot g o)).head?.map (fun c => (o, c.step, c.u)))
  match byCand with
  | some r => some r
  | none =>
    let ds := (liveOn x slot).filter (fun e => released x e.2)
    (opxs g).findSome? (fun o =>
      let d := opAt g o
      let us := (unproducedNeed d (stAt g o)).filter (fun t => ds.any (fun e => (coneAt e.2.cone o).contains t))
      us.head?.map (fun t => (o, (t - d.origin) / d.t, us.filter (fun y => (y - d.origin) / d.t = (t - d.origin) / d.t))))

/-- The stream of the most urgent live demand whose cone holds one of the positions. -/
def streamOfPos (x : Part) (slot o : Nat) (ps : List Nat) : BitVec 3 :=
  (mostUrgent (((liveOn x slot).filter (fun e => meets ps (coneAt e.2.cone o))).map (·.2))).elim 0 (fun d => BitVec.ofNat 3 d.stream)

/-- The core whose boundary entry waits: the lowest. -/
def waitingCore (s : State) (g : Graph) : Nat :=
  ((coresUp g).find? (fun c => let k := coreOf s (coreNo c); k.secOn && k.secWait)).getD
    (((coresUp g).find? (fun c => (coreOf s (coreNo c)).secOn)).getD ((coresUp g).headD 0))

/-- The wait counter has reached BUDGET: DEADLINE 1, the graph stops, a boundary is forced (R113, R131). -/
def execWaitBudgetExpiry (part slot : BitVec 6) (s : State) : Host.Outcome State Fault Refusal :=
  .next (
    let p := part.toNat
    let sl := slot.toNat
    match graphOf s p sl with
    | none => s
    | some g =>
      if g.waitCnt < g.budget then s
      else
        let x := partOf s p
        let f : FaultInfo := { cls := cDeadline, detail := 1, info := BitVec.ofNat 64 g.budget, lane := none }
        let s := modPart s p (fun x => { x with bndReq := true })
        if g.run = .sect then
          let c := waitingCore s g
          takeFault .boundary s p sl (plainReport x sl f c (coreOf s (coreNo c)).secLi 0xFFF 0)
        else
          let c := (coresUp g).headD 0
          let r := match waitNames x sl g with
            | some (o, n, ps) => { plainReport x sl f c 0 0 6 with opx := BitVec.ofNat 8 o, step := BitVec.ofNat 40 n, stream := streamOfPos x sl o ps }
            | none => plainReport x sl f c 0 0 6
          takeFault .outside s p sl r)

/-- The 65 536th entry of a boundary section: TRAP 0xFFFD (R350). -/
def execBoundaryStepLimit (part slot : BitVec 6) (s : State) : Host.Outcome State Fault Refusal :=
  .next (match graphOf s part.toNat slot.toNat with
    | none => s
    | some g =>
      if g.run ≠ .sect then s
      else
        let c := ((coresUp g).find? (fun c => (coreOf s (coreNo c)).secOn && 65536 ≤ (coreOf s (coreNo c)).secCount)).getD (waitingCore s g)
        let k := coreOf s (coreNo c)
        takeFault .boundary s part.toNat slot.toNat
          (plainReport (partOf s part.toNat) slot.toNat (trapInfo 0xFFFD 0) c k.secLi 0xFFF 0))

/-- A result of `hld.i` that has not returned after 96 fc: DEADLINE 3, the round is voided and replayed (R85, R131). -/
def execHldILate (core : Fin 64) (elem : Fin 96) (li : BitVec 12) (lane : BitVec 5) (late : Lateness) (s : State) :
    Host.Outcome State Fault Refusal :=
  .next (match (coreOf s core).owner with
    | none => s
    | some (p, sl) =>
      match graphOf s p sl with
      | none => s
      | some g =>
        if !(g.run = .round || g.run = .ended) then s
        else
          let f : FaultInfo := { cls := cDeadline, detail := 3, info := late.fc.zeroExtend 64, lane := some lane.toNat }
          let o := (elemOf (coreOf s core) elem).opx.toNat
          takeFault .round s p sl (unitReport (partOf s p) sl g o f core.val elem.val li.toNat late.rc.toNat 0))

/-! ### Hard and soft errors (R79, R134) -/

/-- A HARD fault: it is reported, no further start pulse issues, and the partition is reset; one that arises during the reset is
absorbed into it (R79, R130). -/
def hardFault (s : State) (p : Nat) (r : Report) : State :=
  if (partOf s p).resetting then s
  else
    let s := modPart (queueReport s p true r) p (fun x => { x with resetting := true })
    addUrgent s (.partitionReset ⟨BitVec.ofNat 6 p, none⟩)

/-- RESCNT of an element: the round of the oldest of the last three detections, and how many there are (R134). -/
def resCnt (x : Element) : DWord := BitVec.ofNat 64 (x.detections.headD 0 % 1048576 * 2 ^ 44 + x.detections.length)

/-- The last three detections with a new one: rounds started on the core, the oldest first (R134). -/
def detected (l : List Nat) (n : Nat) : List Nat := let l := l ++ [n]; l.drop (l.length - 3)

/-- The report of a mismatch: of the element that has read or is about to write the word, or of the stream port that has read it (R129, R282). -/
def residueReport (s : State) (p slot : Nat) (g : Graph) (core : Fin 64) (c : ResidueCheck) (f : FaultInfo) : Report :=
  let s := { s with cur := { s.cur with part := p, slot := slot, core := core, elem := 127, li := c.li.toNat } }
  match c.port.bind (fun i => (coreOf s core).ports[i].active) with
  | some r => portReport s r f
  | none => unitReport (partOf s p) slot g (elemOf (coreOf s core) c.elem).opx.toNat f core.val c.elem.val c.li.toNat g.rc 0

/-- RESIDUE: a read names the lane for which the word was read, a write the word's own (R282). -/
def residueInfo (c : ResidueCheck) : FaultInfo :=
  { cls := cResidue, detail := 0, info := 0
    lane := if c.port.isSome then none else some (if c.read then c.lane.toNat else c.word.lane.val) }

/-- Is the word checked now: an entry reads it, or it is a result that an ALU is about to write (R205)? -/
def checksNow (c : ResidueCheck) : Bool := c.read || c.word.place = .alu

/-- A RESIDUE BESIDE A WORD (R205): it is held with the word, and the word is checked against it when it is read or written. Where they agree,
nothing follows. A mismatch on a value of the round in flight is RESIDUE and voids the round; the third detection on one element within 2^20
rounds of its core marks it failed, which is HARD (a stream port counts none: log entry 8); a mismatch on a value that an earlier round
committed is HARD with DETAIL 2 (R130, R134). -/
def execResidueLimit (core : Fin 64) (check : ResidueCheck) (s : State) : Host.Outcome State Fault Refusal :=
  let k := coreOf s core
  let elem := check.elem
  let word := wordIn s core elem check.word
  let old := isCommitted s core elem check.word
  let s := holdResid s core elem check.word check.held
  .next (match k.owner with
    | none => s
    | some (p, sl) =>
      match graphOf s p sl with
      | none => s
      | some g =>
        if !checksNow check || !(g.run = .round || g.run = .ended) || residue word = check.held then s
        else
          let n := k.roundsStarted
          let ds := detected (elemOf k elem).detections n
          let soft := residueReport s p sl g core check (residueInfo check)
          let hard (d : Nat) : Report := residueReport s p sl g core check { cls := cHard, detail := d, info := BitVec.ofNat 64 elem.val, lane := none }
          if old then hardFault s p (hard 2)
          else if check.port.isSome then takeFault .round s p sl soft
          else
            let s := modCore s core (fun k => modElem k elem (fun e => { e with detections := ds }))
            if ds.length < 3 || ds.headD 0 + 1048576 ≤ n then takeFault .round s p sl soft
            else hardFault (modCore s core (fun k => modElem k elem (fun e => { e with failed := true }))) p (hard 1))

/-! ### Arbiters (R82, R83) -/

/-- The first request of a lower class that has waited 1 024 units is granted the next unit (R83). -/
def grantStarved (arbiter : Nat) : List ArbReq → List ArbReq
  | [] => []
  | q :: r =>
    if q.arbiter = arbiter && q.cls ≠ 0 && 1024 ≤ q.waited && !q.granted then { q with granted := true } :: r
    else q :: grantStarved arbiter r

def execStarvationGrant (arbiter : Nat) (s : State) : Host.Outcome State Fault Refusal :=
  .next { s with arbs := grantStarved arbiter s.arbs }

end Sys2Proof.Machine
end

