-- ==== Sys2Proof/Machine/Schedule.lean ====
section
/-! DEFINITION. What the loader knows of an entry, and the checks of one list: encodings in their context (R255, R260, R264,
R266, R303, R325, R347), then the static schedule (R203, R204, R267 to R269, R310, R328 to R336). -/

namespace Sys2Proof.Machine

/-! ### What an element entry reads and writes (R267, R268, R283) -/

/-- A register as the schedule sees it. -/
inductive Reg' where
  | v (n : Nat) | s (n : Nat) | p (n : Nat) | m (n : Nat) | k (n : Nat)
  deriving DecidableEq, Repr

/-- An element entry: its sources, the bank kind that an expand needs, other registers it reads, whether it reads its
destination, what it writes, its latency (0: no result), whether it has a result-register result, and whether a predicate block
may hold it. -/
structure Fact where
  srcs : List Opnd
  want : Nat
  reads : List Reg'
  readsD : Bool
  dst : Option Dst
  keep : Option Nat
  lat : Nat
  res : Bool
  guardable : Bool
  deriving DecidableEq, Repr

/-- An entry with a result: destination, sources, base latency, bank kind. -/
def Fact.op (d : Dst) (srcs : List Opnd) (lat want : Nat) : Fact :=
  { srcs := srcs, want := want, reads := [], readsD := false, dst := some d, keep := none
    lat := lat + srcs.foldl (fun n o => max n (modLat o)) 0, res := true, guardable := true }

/-- One that reads its destination first. -/
def Fact.acc (d : Dst) (srcs : List Opnd) (lat want : Nat) : Fact := { Fact.op d srcs lat want with readsD := true }

/-- One that reads predicates or marks. -/
def Fact.reg (d : Dst) (rs : List Reg') (srcs : List Opnd) (lat : Nat) : Fact := { Fact.op d srcs lat 0 with reads := rs }

/-- A hide operation without a result. -/
def Fact.hide (srcs : List Opnd) : Fact :=
  { srcs := srcs, want := 0, reads := [], readsD := false, dst := none, keep := none, lat := 0, res := false, guardable := true }

def plainSrc (c : Src) : Opnd := { src := c, cls := .plain, neg := false }

/-- Bank kind by type (R264): 0 f32, 1 h2, 2 q4. -/
def kindX : XTy → Nat
  | .f32 => 0
  | .f16 | .bf16 => 1
  | .e4m3 | .e5m2 => 2

def kindN : Narrow → Nat
  | .f16 | .bf16 => 1
  | .e4m3 | .e5m2 => 2
  | .e2m1s | .i16 | .i8 | .n16 | .n8 | .x4 | .x8 => 0

/-- The facts of an element entry; other steps have none. -/
def factOf : Instr → Option Fact
  | .faddF32 d a b | .fsubF32 d a b | .fmulF32 d a b => some (.op d [a, b] 4 0)
  | .fmadF32 d a b | .fmsbF32 d a b | .fnmaF32 d a b => some (.acc d [a, b] 5 0)
  | .fminF32 d a b | .fmaxF32 d a b => some (.op d [a, b] 2 0)
  | .faddHalf _ d a b | .fsubHalf _ d a b | .fmulHalf _ d a b => some (.op d [a, b] 4 1)
  | .fmadHalf _ d a b | .fmsbHalf _ d a b | .fnmaHalf _ d a b => some (.acc d [a, b] 5 1)
  | .fminHalf _ d a b | .fmaxHalf _ d a b => some (.op d [a, b] 2 1)
  | .fcmpEq d a b | .fcmpNe d a b | .fcmpLt d a b | .fcmpLe d a b | .fcmpGt d a b | .fcmpGe d a b
  | .fcmpUn d a b => some (.op d [a, b] 3 0)
  | .frcp d a | .fsqrt d a | .frsq d a => some (.op d [a] 10 0)
  | .fexp2 d a | .flog2 d a => some (.op d [a] 12 0)
  | .fsel d a b k => some (.reg d [.p k.val] [a, b] 2)
  | .fclass d a _ => some (.op d [a] 2 0)
  | .iadd _ d a b | .isub _ d a b | .imin _ d a b | .imax _ d a b => some (.op d [a, b] 2 0)
  | .imul _ d a b | .imulh _ d a b => some (.op d [a, b] 4 0)
  | .imad _ d a b => some (.acc d [a, b] 5 0)
  | .and d a b | .or d a b | .xor d a b | .andn d a b | .shl d a b | .shr _ d a b | .rol d a b => some (.op d [a, b] 2 0)
  | .popc d a | .clz d a => some (.op d [a] 2 0)
  | .icmpEq _ d a b | .icmpNe _ d a b | .icmpLt _ d a b | .icmpLe _ d a b | .icmpGt _ d a b
  | .icmpGe _ d a b => some (.op d [a, b] 2 0)
  | .cvt _ d a => some (.op d [a] 3 0)
  | .pack _ _ d a b => some (.op d [a, b] 3 0)
  | .unpk src _ d a b => some (.op d (if src = .e2m1s then [a, b] else [a]) 3 (kindN src))
  | .perm d a b => some (.op d [a, b] 3 0)
  | .lrd _ _ _ d a | .redAdd _ _ _ d a | .redMax _ _ _ d a | .redMin _ _ _ d a | .scanAdd _ _ d a => some (.op d [a] 6 0)
  | .pand d a b | .por d a b | .pxor d a b | .pandn d a b => some (.reg d [.p a.val, .p b.val] [] 2)
  | .pnot d a | .pvec d a | .pcnt d a => some (.reg d [.p a.val] [] 2)
  | .ptst d a => some (.op d [a] 2 0)
  | .mov d a => some (.op d [a] 1 0)
  | .movi d _ | .moviH d _ => some (.op d [] 1 0)
  | .movm d a => some (.reg d [.p a.val] [] 1)
  | .movmP d a => some (.op d [a] 1 0)
  | .pblk g _ _ => some { Fact.hide [] with reads := [.p g.val], guardable := false }
  | .xpnd ty d a => some (.op d [a] 3 (kindX ty))
  | .qidx _ _ d a => some (.op d [a] 8 0)
  | .blkh d a b => some (.op d [a, b] 6 0)
  | .hadd a b | .hmax _ a b | .hmin _ a b | .hxchg a b | .hred a b | .hstI _ a b => some (.hide [a, b])
  | .hcas a b c => some (.hide [a, b, c])
  | .hldI _ d a => some { Fact.op d [a] 96 0 with lat := 96 + modLat a }
  | .bdot ty boff _ d a b c =>
    let f := Fact.op d ([a, b] ++ (if ty = .e2m1s then [plainSrc c] else [])) 6 0
    some { f with readsD := boff.val ≠ 0, guardable := false }
  | .bdotSet _ d a => some { Fact.op d [a] 6 0 with guardable := false }
  | .scacc d a b c => some { Fact.acc d [plainSrc a, plainSrc b, plainSrc c] 6 0 with guardable := false }
  | .scanAff _ d a b c | .scanAffG _ d a b c => some { Fact.op d [a, b, c] 12 0 with guardable := false }
  | .scanAffk _ j d a b => some { Fact.op d [a, b] 12 0 with reads := [.k j.val], keep := some j.val, guardable := false }
  | .kset j a b => some { Fact.op .nul [a, b] 2 0 with keep := some j.val }
  | .kget _ d j => some (.reg d [.k j.val] [] 2)
  | .kclr j => some { Fact.hide [] with keep := some j.val, lat := 1 }
  | .khor _ => some { Fact.hide [] with guardable := false }
  | _ => none

/-- The register that a source code names. -/
def srcReg : Src → List Reg'
  | .v n => [.v n.val]
  | .s n => [.s n.val]
  | .m n => [.m n.val]
  | .nN | .nE | .nS | .nW | .hl | .vl | .z | .lid => []

def dstReg : Dst → List Reg'
  | .v n => [.v n.val]
  | .s n => [.s n.val]
  | .p n => [.p n.val]
  | .m n => [.m n.val]
  | .hl | .vl | .nul => []

/-- Every register that an entry reads. -/
def Fact.allReads (f : Fact) : List Reg' :=
  f.srcs.flatMap (fun o => srcReg o.src) ++ f.reads ++ (if f.readsD then (f.dst.map dstReg).getD [] else [])

/-- Every register that it writes when its result completes. -/
def Fact.writes (f : Fact) : List Reg' := (f.dst.map dstReg).getD [] ++ (f.keep.map (fun j => [Reg'.k j])).getD []

/-- Register classes whose write ports it takes: the result register and keepers (R203, R268). -/
def Fact.ports (f : Fact) : List Nat := (if f.res then [0] else []) ++ (if f.keep.isSome then [1] else [])

/-! ### Lists of an image (R255) -/

/-- A refusal: code, footprint core, element (127 for none), list index, word (R271, R272). -/
structure LErr where
  code : Word
  core : Nat
  elem : Nat
  li : Nat
  word : DWord
  deriving DecidableEq, Repr

abbrev Ld (α : Type) := Except LErr α

/-- Refuse unless the condition holds. -/
def must (b : Bool) (e : LErr) : Ld Unit := if b then .ok () else .error e

/-- Check the items of a list in order. -/
def eachOk {α : Type} (f : α → Ld Unit) : List α → Ld Unit
  | [] => .ok ()
  | x :: r => match f x with
    | .error e => .error e
    | .ok _ => eachOk f r

/-- An entry of a list: its index, its word and that of its continuation, what it decodes to with the conditions of step 6 set
aside, and the one of those conditions that its fields break (R268, R270). -/
structure Ent where
  li : Nat
  w : DWord
  x : DWord
  i : Dec Instr
  late : Option DecErr

/-- Refusals of fields that R268 lists among the checks of step 6: predicate blocks, stamp banks, rectangles. -/
def lateErr : DecErr → Bool
  | .block | .expand | .rectangle => true
  | .inX e => lateErr e
  | .unassigned | .wrongList | .reservedOperand | .reservedModifier | .operandClass | .contMismatch | .reservedField
  | .packetCode | .packetReserved | .packetRange | .crc | .linkLayer | .length => false

/-- A modifier whose x8 group is one that exists. -/
def fixMod (m : BitVec 12) : BitVec 12 := if field m 9 3 = 4 && field m 1 1 = 1 then m &&& ~~~(0x010 : BitVec 12) else m

/-- An entry without what step 6 refuses: PAT bits beyond the block, x8 groups of 4 to 7. A rectangle beyond the grid is none. -/
def fixWord (e : DecErr) (w : DWord) : DWord :=
  let f := Fields.ofWord w
  match e with
  | .block => w &&& ~~~((0xFF : DWord) <<< (30 + (bitsN w 37 3)) &&& ((0xFF : DWord) <<< 29))
  | .expand | .inX .expand => { f with rest := fixMod f.ma ++ f.b ++ fixMod f.mb }.toWord
  | .rectangle | .unassigned | .wrongList | .reservedOperand | .reservedModifier | .operandClass | .contMismatch | .reservedField
  | .packetCode | .packetReserved | .packetRange | .crc | .linkLayer | .length | .inX _ => w

def fixNext (x : DWord) : DWord :=
  match XFields.ofWord (field x 52 12) x with
  | .ok y => { y with mc := fixMod y.mc }.toWord (field x 52 12)
  | .error _ => x

/-- An entry read from its words. -/
def entAt (seq : Bool) (li : Nat) (w : DWord) (x : Option DWord) : Ent :=
  let e : Ent := { li := li, w := w, x := x.getD 0, i := decodeEntry seq w x, late := none }
  match e.i with
  | .ok _ => e
  | .error b => if lateErr b then { e with i := decodeEntry seq (fixWord b w) (x.map fixNext), late := some b } else e

/-- The entries of a list of words; a continuation belongs to the entry before it. -/
def entsFrom (seq : Bool) : List DWord → Nat → List Ent
  | [], _ => []
  | [w], li => [entAt seq li w none]
  | w :: x :: r, li =>
    let e := entAt seq li w (some x)
    if contOf w && bitsN w 43 8 ≠ 0xFF then e :: entsFrom seq r (li + 2) else e :: entsFrom seq (x :: r) (li + 1)

def entsOf (seq : Bool) (l : List DWord) : List Ent := entsFrom seq l 0

def Ent.stamp (e : Ent) : Nat := stampOf e.w

/-- A stamp bank as an image declares it (R139, R254). -/
structure BankImg where
  kind : Nat
  zsub : Bool
  size : Nat
  ent : List DWord
  valid : BitVec 256
  deriving DecidableEq, Repr

/-- What the checks of a list need to know of the image. -/
structure ListCtx where
  core : Nat
  elem : Nat
  l : Nat
  nops : Nat
  banks : List BankImg
  recs : List StreamRec
  live : List StreamRec            -- those that can become a port's active record (R310)
  ops : List Nat                   -- the ELEMOPS operator of each element
  aff : Bool
  covered : Bool                   -- does an `smode` of an earlier section cover the element (R272, R328)?
  slots : List (Fin 8 × Rect)      -- every `smode` of the core's list, in list order

def ListCtx.err (c : ListCtx) (code : Word) (e : Ent) : LErr := { code := code, core := c.core, elem := c.elem, li := e.li, word := e.w }

/-- The refusal of an entry's fields, at the word that holds the failing one (R272). -/
def ListCtx.errDec (c : ListCtx) (b : DecErr) (e : Ent) : LErr :=
  match b with
  | .inX b => { code := b.code, core := c.core, elem := c.elem, li := e.li + 1, word := e.x }
  | b => c.err b.code e

/-- The rectangles that the `smode` entries of a list define. -/
def smodesOf (l : List Ent) : List (Fin 8 × Rect) :=
  l.filterMap (fun e => match e.i with
    | .ok (.smode slot row0 col0 nrm1 ncm1 form fmt) =>
      some (slot, { row0 := row0.val, col0 := col0.val, nr := nrm1.val + 1, nc := ncm1.val + 1, form := form, fmt := fmt })
    | _ => none)

/-- Every rectangle that a slot can hold, without repeats, the one that the loader sees at load first; a slot that no `smode`
names is off (R327). -/
def ListCtx.rects (c : ListCtx) (slot : Fin 8) : List Rect :=
  match (c.slots.filter (fun x => x.1 = slot)).map (·.2) with
  | [] => [Rect.off]
  | l => l.eraseDups

def ListCtx.first (c : ListCtx) (slot : Fin 8) : Rect := (c.rects slot).headD Rect.off

/-- The operator of an element. -/
def ListCtx.opOf (c : ListCtx) (e : Nat) : Nat := (c.ops.drop e).headD 0xFF

/-! ### Step 5: one entry in its context -/

/-- Section classes of the sequencer entries: may stand in the timed part, in the boundary section (R303, R325, R347). -/
def sectionOf : Instr → Bool × Bool
  | .fin _ | .early _ | .sstep _ | .tstep _ _ _ _ _ _ | .sload _ _ _ _ | .sread _ _ | .stw _ _ _ | .stsw _ | .stinv _ _ _ | .stsz _ _
  | .kvApp _ _ | .kvFork _ _ _ | .kvPin _ _ | .kvUnpin _ | .kvFree _ => (true, false)
  | .seqCancel _ _ | .sig _ _ _ | .seqNop | .trap _ _ | .brk _ | .cnt _ _ | .sgain _ _ _ _ | .seal | .copy _ _ _ | .gather _ _ _ _ _
  | .xf _ _ _ _ _ _ _ | .collMc _ _ _ _ _ _ | .collBar _ _ | .collRed _ _ _ _ _ _ _ _ | .stirQk _ _ _ _ _ _ _ _ | .stirPv _ _ _ _
  | .stirGet _ _ _ => (true, true)
  | _ => (false, true)

/-- Indices that an expand of z or of the lane numbers selects (R264). -/
def staticIndex (src : Src) (c : ModCls) : Option Nat :=
  let top (f : Nat → Nat) : Nat := if src = .lid then (upTo 32).foldl (fun n i => max n (f i)) 0 else 0
  if src ≠ .z ∧ src ≠ .lid then none
  else match c with
    | .x4 _ g => some (top (fun i => i / 16 ^ g.val % 16))
    | .x8 _ g => some (top (fun i => i / 256 ^ g.val % 256))
    | .plain | .rot _ _ | .bfly _ _ | .bcast _ _ => none

/-- Is an expand's bank declared, of the kind that the type needs, and large enough for static indices (R264, R222)? -/
def expandOk (banks : List BankImg) (want : Nat) (o : Opnd) : Bool :=
  match o.cls with
  | .x4 b _ | .x8 b _ =>
    (match (banks.drop b.val).head? with
     | none => false
     | some k => k.kind = want && (match staticIndex o.src o.cls with
       | none => true
       | some i => i < k.size))
  | .plain | .rot _ _ | .bfly _ _ | .bcast _ _ => true

/-- Entries that a predicate block holds: all there, none a `pblk`, each guardable (R260). -/
def blockOk (after : List Ent) (n : Nat) : Bool :=
  let l := after.take n
  l.length = n && l.all (fun e => match e.i with
    | .ok i => (match factOf i with
      | some f => f.guardable
      | none => true)
    | .error _ => true)

/-- Has the port a record (R310)? -/
def ListCtx.hasRec (c : ListCtx) (p : Nat) : Bool := c.recs.any (fun r => r.port.val = p)

/-- Records that can become a port's active one: the lowest-numbered one of each port and those that an `sdef` of the sequencer
list names for their port (R310). -/
def liveRecs (recs : List StreamRec) (all : List Ent) : List StreamRec :=
  (List.finRange 16).flatMap (fun p => (recs.filter (fun r => r.port = p)).take 1)
    ++ all.flatMap (fun e => match e.i with
      | .ok (.sdef q n) => ((recs.drop n.toNat).head?.toList).filter (fun r => r.port = q)
      | _ => [])

def kindOk (banks : List BankImg) (b : Fin 16) (ks : List Nat) : Bool := ((banks.drop b.val).head?).elim false (fun k => ks.contains k.kind)

/-- Is a branch target an entry of the boundary section (R354)? -/
def targetOk (all : List Ent) (t : Int) : Bool := all.any (fun e => (e.li : Int) = t && e.stamp = 0xFFF)

/-- Does the array use a codebook bank in this form (R333)? -/
def Rect.usesBank (r : Rect) : Bool := r.form = .indexed || r.form = .fast

/-- Conditions of an entry's fields that need the image: refusal codes in increasing order. A BANK that no rectangle of the
slot can use is a field that must be 0 (R7, R333). -/
def contextBad (c : ListCtx) (all : List Ent) (e : Ent) (i : Instr) : List Word :=
  let bad (b : Bool) (code : Word) : List Word := if b then [code] else []
  match i with
  | .khor _ => bad (!c.aff) 0x00030005
  | .tstep slot _ bank _ _ _ => bad (bank.val ≠ 0 && !(c.rects slot).any Rect.usesBank) 0x00010006
  | .sgain slot _ _ row => bad (32 * (c.first slot).nr ≤ row.toNat) 0x00030003
  | .sdef p n => bad (!(((c.recs.drop n.toNat).head?).elim false (fun r => r.port = p))) 0x00030005
  | .sarm p _ _ => bad (c.live.any (fun r => r.port = p && r.opx ≠ 0xFF)) 0x00030005
  | .sstep m => bad ((upTo 16).any (fun p => m.getLsbD p && !c.hasRec p)) 0x00030005
  | .early o | .fin o => bad (c.nops ≤ o.toNat) 0x00030003
  | .rdst _ st sel => bad (st = 0 && c.nops ≤ sel.toNat) 0x00030003
  | .br _ _ _ d | .loop _ d => bad (!targetOk all (e.li + d.toInt)) 0x00030007
  | _ => []

/-- The checks of R268 on an entry that are refused with codes of the encoding: sections of entries, predicate blocks, stamp
banks. -/
def placeBad (c : ListCtx) (after : List Ent) (e : Ent) (i : Instr) : List LErr :=
  let bad (b : Bool) (code : Word) : List LErr := if b then [c.err code e] else []
  bad (c.elem = 127 && !(if e.stamp = 0xFFF then (sectionOf i).2 else (sectionOf i).1)) 0x00030007
    ++ (match i with
      | .pblk _ n _ => bad (!blockOk after (n.val + 1)) 0x0003000A
      | .qidx ty b _ a =>
        bad (!kindOk c.banks b [if ty = .f32 then 0 else 1] || !expandOk c.banks 0 a) 0x0003000B
      | .tstep slot _ bank _ _ _ => bad ((c.rects slot).any Rect.usesBank && !kindOk c.banks bank [1, 3]) 0x0003000B
      | .stw b _ _ | .stsw b | .stinv b _ _ | .stsz b _ => bad (c.banks.length ≤ b.val) 0x0003000B
      | i => match factOf i with
        | some f => bad (!(f.srcs.take 2).all (expandOk c.banks f.want)) 0x0003000B
            ++ (if (f.srcs.drop 2).all (expandOk c.banks f.want) then [] else [c.errDec (.inX .expand) e])
        | none => [])
      ++ (e.late.map (fun b => c.errDec b e)).toList

/-- Is the stamp in order, below L, used once, and in the right kind of list (R255)? -/
def stampOk (c : ListCtx) (prev : Option Nat) (st : Nat) : Bool :=
  if st = 0xFFF then c.elem = 127
  else st < c.l && prev.elim true (fun p => p < st)

/-- The entries of a list, one after the other. -/
def checkEnts (c : ListCtx) (all : List Ent) : Option Nat → List Ent → Ld Unit
  | _, [] => .ok ()
  | prev, e :: r =>
    let st := e.stamp
    let dec : Ld Unit := match e.i with
      | .error x => if lateErr x then .ok () else .error (c.errDec x e)
      | .ok _ => .ok ()
    match dec with
    | .error x => .error x
    | .ok _ =>
      let bads := (match e.i with
        | .ok i => contextBad c all e i
        | .error _ => []) ++ (if stampOk c prev st then [] else [0x00030008])
      match bads with
      | code :: _ => .error (c.err code e)
      | [] => checkEnts c all (some st) r

/-- Step 5 for one list: its capacity, then its entries (R255, R270). -/
def checkList (c : ListCtx) (words : List DWord) : Ld Unit :=
  let e0 : LErr := { code := 0x00030009, core := c.core, elem := c.elem, li := 0, word := 0 }
  if c.elem = 127 then
    if 4096 < words.length || 1024 < (words.filter (fun w => stampOf w = 0xFFF)).length then .error e0
    else let l := entsOf true words; checkEnts c l none l
  else if 1024 < words.length then .error e0
  else let l := entsOf false words; checkEnts c l none l

/-! ### Lines (R204, R212, R331, R334, R336) -/

/-- One of several alternatives, of which one is in force in a round: what they are of (0 to 15: the active record of a port,
16 to 23: the rectangle of a slot), which one this is, and how many there are. -/
structure Alt where
  key : Nat
  idx : Nat
  num : Nat
  deriving DecidableEq, Repr

/-- Can the two be in force in one round? -/
def Alt.meets (a b : Alt) : Bool := a.key ≠ b.key || a.idx = b.idx

/-- A drive of a line: in which fc, by whom in the order of R270 (section, entry, part of it), with which operator (none:
whatever is armed), and under which alternative of a port or slot. -/
structure Drv where
  line : Nat
  fc : Nat
  sec : Nat
  li : Nat
  sub : Nat
  op : Option Nat
  alt : Option Alt
  deriving DecidableEq, Repr

def Drv.before (a b : Drv) : Bool :=
  a.sec < b.sec || (a.sec = b.sec && (a.li < b.li || (a.li = b.li && a.sub < b.sub)))

/-- The line that a source or destination code names at an element. -/
def lineOfSrc (e : Nat) : Src → Option Nat
  | .hl => some (e / 12)
  | .vl => some (8 + e % 12)
  | .v _ | .s _ | .m _ | .nN | .nE | .nS | .nW | .z | .lid => none

def lineOfDst (e : Nat) : Dst → Option Nat
  | .hl => some (e / 12)
  | .vl => some (8 + e % 12)
  | .v _ | .s _ | .p _ | .m _ | .nul => none

/-- Drives of the list of an element of operator `o`. -/
def elemDrvs (sec e o : Nat) (l : List Ent) : List Drv :=
  l.filterMap (fun x => match x.i with
    | .ok i => (factOf i).bind (fun f =>
        if !f.res then none
        else (f.dst.bind (lineOfDst e)).map (fun ln =>
          { line := ln, fc := x.stamp + f.lat - 1, sec := sec, li := x.li, sub := 0, op := some o, alt := none }))
    | .error _ => none)

/-- Stamps at which an entry steps ports, with the mask (R308, R334). -/
def portSteps (x : Ent) : List (Nat × BitVec 16) :=
  match x.i with
  | .ok (.sstep m) => [(x.stamp, m)]
  | .ok (.tstep _ _ _ rep int m) => (upTo (rep.toNat + 1)).map (fun r => (x.stamp + r * (int.toNat + 1), m))
  | _ => []

/-- How a port may move a vector: as a write or not, its line, the operator that it follows (none: a free port). -/
structure PortUse where
  write : Bool
  line : Nat
  op : Option Nat
  deriving DecidableEq, Repr

/-- The alternatives of a list of them. -/
def alts {α : Type} (key : Nat) (l : List α) : List (Alt × α) :=
  ((upTo l.length).map (fun i => ({ key := key, idx := i, num := l.length } : Alt))).zip l

/-- The uses of a port, one alternative for each, without repeats. -/
def portUses (c : ListCtx) (p : Nat) : List (Alt × PortUse) :=
  alts p ((c.live.filter (fun r => r.port.val = p)).map (fun r =>
    ({ write := r.write, line := (portLine r).val, op := if r.opx = 0xFF then none else some r.opx.toNat } : PortUse))).eraseDups

/-- Drives of a port step: a reading port drives its line in every round, zeros where its operator is not armed (R308). -/
def portDrvs (c : ListCtx) (sec li t p : Nat) : List Drv :=
  ((portUses c p).filter (fun x => !x.2.write)).map (fun x =>
    { line := x.2.line, fc := t, sec := sec, li := li, sub := p + 1, op := none, alt := some x.1 })

/-- The drives of a `tstep` or `sread` entry on a rectangle; zeros where its operator is not armed (R334, R336). -/
def rectDrvs (x : Ent) (sec : Nat) (a : Alt) (r : Rect) : List Drv :=
  let cols (fc : Nat) : List Drv :=
    (upTo r.nc).map (fun j => { line := (r.vl j).val, fc := fc, sec := sec, li := x.li, sub := 0, op := none, alt := some a })
  match x.i with
  | .ok (.tstep _ acc _ rep int _) =>
    if acc then [] else (upTo (rep.toNat + 1)).flatMap (fun k => cols (x.stamp + k * (int.toNat + 1) + 1 + r.nr * r.rowDelay))
  | .ok (.sread _ _) => cols x.stamp
  | _ => []

/-- The slot that an entry of the array names. -/
def slotOf (x : Ent) : Option (Fin 8) :=
  match x.i with
  | .ok (.tstep s _ _ _ _ _) => some s
  | .ok (.sread s _) => some s
  | .ok (.sload s _ _ _) => some s
  | _ => none

/-- The rectangles that an entry may act on, one alternative for each. -/
def rectsAt (c : ListCtx) (x : Ent) : List (Alt × Rect) := ((slotOf x).map (fun s => alts (16 + s.val) (c.rects s))).getD []

def entDrvs (c : ListCtx) (sec : Nat) (x : Ent) : List Drv :=
  (portSteps x).flatMap (fun st => ((upTo 16).filter (fun p => st.2.getLsbD p)).flatMap (portDrvs c sec x.li st.1))
    ++ (rectsAt c x).flatMap (fun a => rectDrvs x sec a.1 a.2)

/-- Who reads: the operator with which it does (none: whatever is armed), the alternative under which it does. -/
structure Reader where
  op : Option Nat
  alt : Option Alt

/-- Is a drive there whenever the reader reads, as far as arming goes? Every set of operators that arming can produce counts
(R268); a graph of one operator has but one. -/
def armedWith (c : ListCtx) (r d : Option Nat) : Bool := d = none || d = r || (c.nops = 1 && d = some 0)

/-- Is the line driven in the fc before, whatever is armed and whichever alternatives are in force when the reader reads? -/
def driven (c : ListCtx) (ds : List Drv) (r : Reader) (line s : Nat) : Bool :=
  let here := ds.filter (fun d => d.line = line && d.fc + 1 = s && armedWith c r.op d.op)
  s ≠ 0 && here.any (fun d => match d.alt with
    | none => true
    | some a => r.alt = some a || (upTo a.num).all (fun i => here.any (fun x => x.alt = some { a with idx := i })))

/-- Does a drive meet an earlier party's on its line in a round that can be? -/
def clashes (ds : List Drv) (d : Drv) : Bool :=
  ds.any (fun x => x.line = d.line && x.fc = d.fc && x.before d && (match x.alt, d.alt with
    | some a, some b => a.meets b
    | _, _ => true))

/-! ### Step 6: the schedule of an element list (R203, R268, R269) -/

/-- What a neighbour read sees: whether there is a neighbour, the fc in which its results complete, the extra delay. -/
structure Nbr where
  ok : Bool
  done : List Nat
  lag : Nat
  deriving DecidableEq, Repr

/-- The direction of a neighbour code. -/
def nbrDir : Src → Option (Int × Int)
  | .nN => some (-1, 0)
  | .nE => some (0, 1)
  | .nS => some (1, 0)
  | .nW => some (0, -1)
  | .v _ | .s _ | .m _ | .hl | .vl | .z | .lid => none

/-- Result-register results of a list. -/
def resultsOf (l : List Ent) : List Nat :=
  l.filterMap (fun x => match x.i with
    | .ok i => (factOf i).bind (fun f => if f.res then some (x.stamp + f.lat - 1) else none)
    | .error _ => none)

/-- What has been written so far: registers with the stamp from which they may be read; write ports taken. -/
structure Sched where
  ready : List (Reg' × Nat)
  taken : List (Nat × Nat)

/-- The checks of one entry: the refusal code, or the schedule after it. -/
def schedEnt (c : ListCtx) (ds : List Drv) (mine : List Drv) (vWrites : List Nat) (nbr : Int × Int → Nbr) (x : Ent) (f : Fact) (q : Sched) :
    Except Word Sched :=
  let st := x.stamp
  let late (r : Reg') : Bool := (q.ready.find? (fun y => y.1 = r)).elim false (fun y => st < y.2)
  let stale (r : Reg') : Bool := match r with
    | .v n => !(q.ready.any (fun y => y.1 = r)) && !vWrites.any (fun m => m ≠ n)
    | .s _ | .p _ | .m _ | .k _ => false
  let fc := st + f.lat - 1
  let ports := f.ports.map (fun p => (p, fc))
  let lineSrcs := f.srcs.filterMap (fun o => lineOfSrc c.elem o.src)
  if f.allReads.any late then .error 0x00040001
  else if f.lat ≠ 0 && c.l ≤ fc then .error 0x00040002
  else if ports.any q.taken.contains then .error 0x00040003
  else if mine.any (fun d => d.li = x.li && (clashes ds d || c.l ≤ d.fc + 1)) || 
      lineSrcs.any (fun ln => !driven c ds { op := some (c.opOf c.elem), alt := none } ln st) then .error 0x00040004
  else if f.allReads.any stale then .error 0x00040005
  else if (f.srcs.filterMap (fun o => nbrDir o.src)).any (fun d => let n := nbr d; !n.ok || !n.done.any (fun t => t + 1 + n.lag ≤ st)) then
    .error 0x00040006
  else .ok
    { ready := (if f.lat = 0 then [] else f.writes.map (fun r => (r, fc + 1))) ++ q.ready, taken := ports ++ q.taken }

def schedEnts (c : ListCtx) (ds mine : List Drv) (vw : List Nat) (nbr : Int × Int → Nbr) : List Ent → Sched → Ld Unit
  | [], _ => .ok ()
  | x :: r, q =>
    match x.i with
    | .error _ => schedEnts c ds mine vw nbr r q
    | .ok i =>
      match placeBad c r x i with
      | b :: _ => .error b
      | [] => match factOf i with
      | none => schedEnts c ds mine vw nbr r q
      | some f =>
        match schedEnt c ds mine vw nbr x f q with
        | .error code => .error (c.err code x)
        | .ok q => if c.covered && x.li = 0 then .error (c.err 0x00040007 x) else schedEnts c ds mine vw nbr r q

/-- The rotating registers that a list writes. -/
def vWritesOf (l : List Ent) : List Nat :=
  l.flatMap (fun x => match x.i with
    | .ok i => (match (factOf i).bind (·.dst) with
      | some (.v n) => [n.val]
      | _ => [])
    | .error _ => [])

/-! ### Step 6: the schedule of a sequencer list (R268, R328 to R336) -/

/-- Elements of a rectangle. -/
def Rect.cells (r : Rect) : List Nat := (upTo r.nr).flatMap (fun i => (upTo r.nc).map (fun j => 12 * (r.row0 + i) + r.col0 + j))

def Rect.on (r : Rect) : Bool := r.form ≠ .off

/-- A rectangle, of whatever form, against the earlier ones of other slots and the elements that it covers (R328). -/
def rectBad (c : ListCtx) (prior : List (Fin 8 × Rect)) (full : List Nat) (slot : Fin 8) (r : Rect) : Bool :=
  prior.any (fun p => p.1 ≠ slot && p.2.cells.any r.cells.contains)
    || r.cells.any full.contains
    || r.cells.any (fun e => c.opOf e ≠ c.opOf (r.cells.headD 0))

/-- Is a load of the slot complete before a stamp: an earlier `sload`, with its time on the rectangle (R328, R330)? -/
def loadedBy (before : List Ent) (slot : Fin 8) (r : Rect) (st : Nat) : Bool :=
  before.any (fun e => match e.i with
    | .ok (.sload s lines _ _) => s = slot && e.stamp + r.loadTime lines ≤ st
    | _ => false)

/-- Codes of what is wrong with an entry of the timed part, and of `smode`. -/
def seqBad' (c : ListCtx) (ds mine : List Drv) (full : List Nat) (before : List Ent) (stepped : List (Nat × Nat)) (x : Ent) : List Word :=
  let bad (b : Bool) (code : Word) : List Word := if b then [code] else []
  let st := x.stamp
  let rs := rectsAt c x
  let my := mine.filter (fun d => d.li = x.li)
  let lineBad := my.any (fun d => clashes ds d || (d.sub ≠ 0 && c.l ≤ d.fc + 1))
    || (portSteps x).any (fun y => (upTo 16).any (fun p => y.2.getLsbD p
        && (portUses c p).any (fun u => u.2.write && !driven c ds { op := u.2.op, alt := some u.1 } u.2.line y.1)))
  let twice := ((portSteps x).flatMap (fun y => ((upTo 16).filter (fun p => y.2.getLsbD p)).map (fun p => (p, y.1)))).any stepped.contains
  match x.i with
  | .error .rectangle => [0x00040007]
  | .error _ => []
  | .ok (.smode slot row0 col0 nrm1 ncm1 form fmt) =>
    bad (rectBad c (smodesOf before) full slot
      { row0 := row0.val, col0 := col0.val, nr := nrm1.val + 1, nc := ncm1.val + 1, form := form, fmt := fmt }) 0x00040007
  | .ok (.sload _ lines seg off) =>
    bad (lines && rs.any (fun a => let r := a.2; r.on && r.nr = 1 && (upTo r.nc).any (fun j =>
      (upTo (r.loadTime true)).any (fun u => !driven c ds { op := none, alt := some a.1 } (r.vl j).val (st + u))))) 0x00040004
      ++ bad (rs.any (fun a => let r := a.2; if lines then r.nr ≠ 1 || !(r.form = .dense || r.form = .affine)
          else r.on && 192 * 65536 < 65536 * seg.toNat + 256 * off.toNat + r.nR * (r.cb + r.xb))) 0x00040007
  | .ok (.tstep slot acc _ rep int _) =>
    let ts := (upTo (rep.toNat + 1)).map (fun k => st + k * (int.toNat + 1))
    bad (rs.any (fun a => a.2.nc ≠ 0 && ts.any (fun t => c.l < t + 1 + a.2.nr * a.2.rowDelay + (if acc then 1 else 2)))) 0x00040002
      ++ bad (lineBad || rs.any (fun a => a.2.on && ts.any (fun t => (upTo a.2.nr).any (fun i =>
          !driven c ds { op := some (c.opOf (a.2.cells.headD 0)), alt := some a.1 } (a.2.hl i) (t + 1)))))
        0x00040004
      ++ bad (rs.any (fun a => !loadedBy before slot a.2 st)) 0x00040007
      ++ bad twice 0x00040009
  | .ok (.sread _ _) => bad (rs.any (fun a => a.2.nc ≠ 0) && c.l ≤ st + 1) 0x00040002 ++ bad lineBad 0x00040004
  | .ok (.sstep _) => bad lineBad 0x00040004 ++ bad twice 0x00040009
  | .ok _ => []

def schedSeq (c : ListCtx) (ds mine : List Drv) (full : List Nat) : List Ent → List Ent → List (Nat × Nat) → Ld Unit
  | _, [], _ => .ok ()
  | before, x :: r, stepped =>
    let place := match x.i with
      | .ok i => placeBad c r x i
      | .error _ => []
    match place ++ (seqBad' c ds mine full before stepped x).map (fun code => c.err code x) with
    | b :: _ => .error b
    | [] =>
      let mv := (portSteps x).flatMap (fun y => ((upTo 16).filter (fun p => y.2.getLsbD p)).map (fun p => (p, y.1)))
      schedSeq c ds mine full (before ++ [x]) r (mv ++ stepped)

end Sys2Proof.Machine
end

