-- ==== Sys2Proof/Machine/Loader.lean ====
section
/-! DEFINITION. Images (R71, R252 to R254): parsing, the checks of `sorrus` in the order of R270 with the codes of R271, and the
graph and cores that a load makes (R59, R121, R209, R218, R254, R310, R327). -/

namespace Sys2Proof.Machine

/-! ### Bytes of an image -/

/-- `n` bytes at an offset, as a number (R4, R252). -/
def leAt (im : List Byte) (o n : Nat) : Nat := leVal ((im.drop o).take n)

def dwAt (im : List Byte) (o : Nat) : DWord := BitVec.ofNat 64 (leAt im o 8)

/-- Words from an offset on. -/
def dwsAt (im : List Byte) (o n : Nat) : List DWord := (upTo n).map (fun i => dwAt im (o + 8 * i))

/-- One bit of CRC-32C, reflected (R253). -/
def crcBit (c : Word) : Word := if c.getLsbD 0 then (c >>> 1) ^^^ 0x82F63B78 else c >>> 1

def crcByte (c : Word) (b : Byte) : Word :=
  let c := c ^^^ b.zeroExtend 32
  crcBit (crcBit (crcBit (crcBit (crcBit (crcBit (crcBit (crcBit c)))))))

/-- CRC-32C: initial value all ones, final inversion (R253). -/
def crc32c (l : List Byte) : Word := ~~~(l.foldl crcByte 0xFFFFFFFF)

/-! ### The trailer (R71) -/

/-- Bytes of the signature trailer. -/
def trailerLen : Nat := 3392

/-- Step 1: the trailer's form and the key slot, the Ed25519 signature, the ML-DSA-65 signature. -/
def sigBad (keys : Vector KeySlot 4) (image : List Byte) : Option Word :=
  let n := image.length - trailerLen
  let msg := image.take n
  let t := image.drop n
  let slot := leAt t 8 1
  let zero (o k : Nat) : Bool := leAt t o k = 0
  let key := keys.get (Fin.ofNat 4 slot)
  if image.length < trailerLen || leAt t 0 4 ≠ 0x53474B31 || !(zero 4 4 && zero 9 7 && zero 3389 3) || 4 ≤ slot || !key.loaded then
    some 0xFFFF0003
  else if !Config.ed25519Ok msg key.ed ((t.drop 16).take 64) then some 0xFFFF0001
  else if !Config.mldsaOk msg key.ml ((t.drop 80).take 3309) then some 0xFFFF0002
  else none

/-! ### Header, footprint, directory (R252, R254) -/

/-- A directory entry. -/
structure Sect where
  typ : Nat
  where_ : Nat
  count : Nat
  off : Nat
  deriving DecidableEq, Repr

def Sect.core (s : Sect) : Nat := s.where_ / 256
def Sect.elem (s : Sect) : Nat := s.where_ % 256

def nCore (im : List Byte) : Nat := leAt im 16 2
def nSect (im : List Byte) : Nat := leAt im 18 2

/-- The offsets (ΔY, ΔX) of the footprint. -/
def footOf (im : List Byte) : List (Int × Int) :=
  (upTo (nCore im)).map (fun f => (signed 8 (leAt im (32 + 2 * f) 1), signed 8 (leAt im (33 + 2 * f) 1)))

/-- Where the directory begins. -/
def dirAt (im : List Byte) : Nat := 16 * ceilDiv (32 + 2 * nCore im) 16

def sectsOf (im : List Byte) : List Sect :=
  (upTo (nSect im)).map (fun k =>
    let o := dirAt im + 16 * k
    { typ := leAt im o 2, where_ := leAt im (o + 2) 2, count := leAt im (o + 4) 4, off := leAt im (o + 8) 8 })

/-- Bytes of the records of a TILEDATA section from an offset on. -/
def tileDataLen (im : List Byte) : Nat → Nat → Nat
  | 0, _ => 0
  | n + 1, o =>
    let k := 8 + 128 * bitsN (dwAt im o) 32 12
    k + tileDataLen im n (o + k)

/-- Bytes of a section; none for a type that does not exist. -/
def Sect.len (im : List Byte) (s : Sect) : Option Nat :=
  match s.typ with
  | 1 => some (8 + s.count)
  | 2 => some (64 * s.count)
  | 3 => some (16 * s.count)
  | 4 => some (64 * s.count)
  | 5 => some (8 * s.count)
  | 6 => some (96 * s.count)
  | 7 => some (16 * s.count)
  | 8 => some (tileDataLen im (min s.count im.length) s.off)
  | 9 => some (64 * s.count)
  | 10 => some (128 * s.count)
  | 11 => some (4224 * s.count)
  | _ => none

/-- A section by type and place. -/
def sectFind (ss : List Sect) (typ w : Nat) : Option Sect := ss.find? (fun s => s.typ = typ && s.where_ = w)

/-- WHERE fits the type (R254). -/
def Sect.placed (n : Nat) (s : Sect) : Bool :=
  if s.typ ≤ 4 then s.where_ = 0xFFFF
  else if s.typ = 5 then s.core < n && (s.elem < 96 || s.elem = 0xFF)
  else s.core < n && s.elem = 0xFE

/-! ### Records -/

/-- An operator descriptor of eight words (R99). -/
def opOfWords (w : List DWord) : OpDesc :=
  let at' (i : Nat) : DWord := (w.drop i).headD 0
  let h0 := at' 0
  let nin := bitsN h0 53 3
  { nin := nin, scls := BitVec.ofNat 3 (bitsN h0 50 3), t := bitsN h0 38 12 + 1, rounds := bitsN h0 30 8, qd := bitsN h0 24 6
    qmt := Fin.ofNat 16 (bitsN h0 20 4), origin := bitsN (at' 1) 16 48, limit := bitsN (at' 2) 16 48
    ins := (upTo (min nin 4)).map (fun i =>
      let x := at' (3 + i)
      { kind := BitVec.ofNat 4 (bitsN x 60 4), prod := BitVec.ofNat 8 (bitsN x 52 8), p1 := bitsI x 28 24, p2 := bitsI x 4 24 }) }

/-- A tensor descriptor (R147). -/
def tensorOfWords (w : List DWord) : Tensor :=
  let at' (i : Nat) : DWord := (w.drop i).headD 0
  { tid := BitVec.ofNat 20 (bitsN (at' 0) 44 20), rank := bitsN (at' 0) 41 3, fmt := (fmtOf (bitsN (at' 0) 37 4)).getD .fp32
    layout := BitVec.ofNat 2 (bitsN (at' 0) 35 2)
    dim := Vector.ofFn (fun i : Fin 5 => bitsN (at' (1 + i.val / 2)) (32 * (i.val % 2)) 32)
    lt := Vector.ofFn (fun i : Fin 5 => bitsN (at' 4) (4 * i.val) 4), ttbase := bitsN (at' 5) 0 48 }

/-- A tile port descriptor (R207). -/
def tilePortOfWords (w0 w1 : DWord) : TilePort :=
  { mt := Fin.ofNat 16 (bitsN w1 4 4), read := bit w1 8, base := bitsN w0 52 12
    cm1 := Vector.ofFn (fun i : Fin 4 => match i.val with
      | 0 => bitsN w0 40 12
      | 1 => bitsN w0 15 12
      | 2 => bitsN w1 52 12
      | _ => bitsN w1 27 12)
    str := Vector.ofFn (fun i : Fin 4 => match i.val with
      | 0 => bitsI w0 27 13
      | 1 => bitsI w0 2 13
      | 2 => bitsI w1 39 13
      | _ => bitsI w1 14 13)
    layout := BitVec.ofNat 2 (bitsN w1 12 2), enc := BitVec.ofNat 3 (bitsN w1 9 3) }

/-- A STREAMS record (R306). -/
def streamOfWords (w : List DWord) : StreamRec :=
  let at' (i : Nat) : DWord := (w.drop i).headD 0
  { port := Fin.ofNat 16 (bitsN (at' 0) 60 4), kind := BitVec.ofNat 2 (bitsN (at' 0) 58 2), write := bit (at' 0) 57
    line := bitsN (at' 0) 53 4, nv := bitsN (at' 0) 41 12 + 1, tid := BitVec.ofNat 20 (bitsN (at' 0) 21 20)
    mt := Fin.ofNat 16 (bitsN (at' 0) 17 4)
    coord := Vector.ofFn (fun i : Fin 5 => bitsI (at' (1 + i.val / 2)) (32 * (i.val % 2)) 32)
    tdim := bitsN (at' 4) 61 3, tstr := bitsI (at' 4) 37 24, kdim := bitsN (at' 4) 34 3, kstr := bitsI (at' 4) 10 24
    edim := bitsN (at' 5) 61 3, estr := bitsI (at' 5) 37 24, itid := BitVec.ofNat 20 (bitsN (at' 5) 17 20)
    opx := BitVec.ofNat 8 (bitsN (at' 6) 56 8), qopx := BitVec.ofNat 8 (bitsN (at' 6) 48 8)
    seq := BitVec.ofNat 12 (bitsN (at' 6) 36 12), lg := BitVec.ofNat 6 (bitsN (at' 6) 30 6) }

/-- A bank record (R139): half 0 fills both halves (R254). -/
def bankAt (im : List Byte) (o : Nat) : BankImg :=
  let w := dwAt im (o + 0x1040)
  { kind := bitsN w 5 2, zsub := bit w 4, size := bitsN w 7 9, ent := dwsAt im o 256, valid := BitVec.ofNat 256 (leAt im (o + 0x1000) 32) }

/-- A TILEDATA record: tile, KEEP, first line, lines. -/
structure TileImg where
  mt : Nat
  keep : Bool
  first : Nat
  lines : List Lanes

def lanesAt (im : List Byte) (o : Nat) : Lanes := Lanes.tab (fun i => BitVec.ofNat 32 (leAt im (o + 4 * i.val) 4))

def tilesAt (im : List Byte) : Nat → Nat → List TileImg
  | 0, _ => []
  | n + 1, o =>
    let w := dwAt im o
    let k := bitsN w 32 12
    { mt := bitsN w 0 4, keep := bit w 4, first := bitsN w 16 12, lines := (upTo k).map (fun i => lanesAt im (o + 8 + 128 * i)) }
      :: tilesAt im n (o + 8 + 128 * k)

/-- What an image gives a footprint core. -/
structure CoreImg where
  ops : List Nat
  ports : List TilePort
  tiles : List TileImg
  recs : List StreamRec
  skiv : List DWord
  banks : List BankImg
  elems : List (Nat × List DWord)
  seq : List DWord

/-- An image. -/
structure Img where
  xd : Bool
  foot : List (Int × Int)
  graph : DWord
  sinks : List Nat
  opWords : List (List DWord)
  ops : List OpDesc
  cks : List CkDesc
  tensors : List Tensor
  cores : List CoreImg

def Sect.words (im : List Byte) (n : Nat) (s : Sect) : List (List DWord) := (upTo s.count).map (fun i => dwsAt im (s.off + 8 * n * i) n)

def coreImg (im : List Byte) (ss : List Sect) (f : Nat) : CoreImg :=
  let here (t : Nat) : List Sect := (sectFind ss t (256 * f + 0xFE)).toList
  { ops := (here 6).flatMap (fun s => (upTo 96).map (fun i => leAt im (s.off + i) 1))
    ports := (here 7).flatMap (fun s => (s.words im 2).map (fun w => tilePortOfWords (w.headD 0) ((w.drop 1).headD 0)))
    tiles := (here 8).flatMap (fun s => tilesAt im s.count s.off)
    recs := (here 9).flatMap (fun s => (s.words im 8).map streamOfWords)
    skiv := (here 10).flatMap (fun s => dwsAt im s.off 16)
    banks := (here 11).flatMap (fun s => (upTo s.count).map (fun i => bankAt im (s.off + 4224 * i)))
    elems := (upTo 96).filterMap (fun e => (sectFind ss 5 (256 * f + e)).map (fun s => (e, dwsAt im s.off s.count)))
    seq := ((sectFind ss 5 (256 * f + 0xFF)).map (fun s => dwsAt im s.off s.count)).getD [] }

/-- Everything that an image says, unchecked. -/
def parseImg (im : List Byte) : Img :=
  let ss := sectsOf im
  let graph (t : Nat) : List Sect := (sectFind ss t 0xFFFF).toList
  let opWords := (graph 2).flatMap (fun s => s.words im 8)
  { xd := leAt im 6 2 % 2 = 1, foot := footOf im
    graph := ((graph 1).map (fun s => dwAt im s.off)).headD 0
    sinks := (graph 1).flatMap (fun s => (upTo s.count).map (fun i => leAt im (s.off + 8 + i) 1))
    opWords := opWords, ops := opWords.map opOfWords
    cks := (graph 3).flatMap (fun s => (s.words im 2).map (fun w =>
      let d := (w.drop 1).headD 0
      { opx := BitVec.ofNat 8 (bitsN (w.headD 0) 0 8), base := 65536 * bitsN d 16 32, nslot := bitsN d 5 5 }))
    tensors := (graph 4).flatMap (fun s => (s.words im 8).map tensorOfWords)
    cores := (upTo (nCore im)).map (coreImg im ss) }

/-! ### Steps 2 and 3 (R252 to R254, R270) -/

/-- A refusal that is tied to no element and no word. -/
def lerr (code : Word) (core : Nat := 0) (word : DWord := 0) (li : Nat := 0) : LErr := { code := code, core := core, elem := 127, li := li, word := word }

/-- The header and the checksum, in the header's order. `len` is LOADG's LENGTH. -/
def checkHeader (im : List Byte) (len : Nat) : Ld Unit := do
  must (leAt im 0 4 = 0x474D4950 && leAt im 4 2 = 1) (lerr 0x00010001)
  must (leAt im 6 2 < 2) (lerr 0x00010006)
  must (leAt im 8 4 + trailerLen = len) (lerr 0x00010002)
  must ((crc32c (im.take 12 ++ [0, 0, 0, 0] ++ im.drop 16)).toNat = leAt im 12 4) (lerr 0x00010003)
  let foot := footOf im
  must (1 ≤ nCore im && nCore im ≤ 64) (lerr 0x00010005)
  must (leAt im 20 12 = 0) (lerr 0x00010006)
  must (foot.headD (0, 0) = (0, 0) && foot.eraseDups.length = foot.length) (lerr 0x00010005)

/-- The element that a directory entry is tied to: that of an element list (R254, R272). -/
def Sect.elemNo (s : Sect) : Nat := if s.typ = 5 && s.elem < 96 then s.elem else 127

/-- A section in the directory: its type, its place, its alignment and bounds, and those before it. -/
def sectBad (im : List Byte) (before : List Sect) (s : Sect) : Bool :=
  match s.len im with
  | none => true
  | some n =>
    !s.placed (nCore im) || s.off % 8 ≠ 0 || im.length < s.off + n || s.off < dirAt im + 16 * nSect im
      || before.any (fun b => (b.typ = s.typ && b.where_ = s.where_)
          || (match b.len im with
              | some k => n ≠ 0 && k ≠ 0 && s.off < b.off + k && b.off < s.off + n
              | none => false))
      || ((s.typ = 6 || s.typ = 10) && s.count ≠ 1)

def checkSects (im : List Byte) : List Sect → List Sect → Ld Unit
  | _, [] => .ok ()
  | before, s :: r =>
    if sectBad im before s then
      .error { lerr 0x00010004 (if s.where_ = 0xFFFF then 0 else s.core) with elem := s.elemNo } else checkSects im (before ++ [s]) r

/-- The directory: every section good, and those required present (R254). -/
def checkDir (im : List Byte) (g : Img) : Ld Unit := do
  let ss := sectsOf im
  must (1 ≤ nSect im && nSect im ≤ 4096) (lerr 0x00010004)
  checkSects im [] ss
  must ((sectFind ss 1 0xFFFF).isSome && (sectFind ss 2 0xFFFF).isSome) (lerr 0x00010004)
  must ((sectFind ss 3 0xFFFF).isSome || !g.ops.any hasAff) (lerr 0x00010004)
  eachOk (fun f => must ((sectFind ss 5 (256 * f + 0xFF)).isSome && (sectFind ss 6 (256 * f + 0xFE)).isSome
    && (sectFind ss 10 (256 * f + 0xFE)).isSome) (lerr 0x00010004 f)) (upTo (nCore im))
  eachOk (fun f => eachOk (fun (t : TileImg) => must (t.first + t.lines.length ≤ 4096) (lerr 0x00010004 f))
    ((g.cores.drop f).head?.elim [] (·.tiles))) (upTo (nCore im))

/-! ### Step 4: the descriptors (R98 to R100, R124, R139, R147, R207, R210, R211, R306, R411) -/

/-- Bits of a word that must be 0. -/
def clearBits (w : DWord) (lo n : Nat) : Bool := bitsN w lo n = 0

def checkGraph (g : Img) : Ld Unit := do
  let w := g.graph
  must (16 ≤ bitsN w 52 12 && 1 ≤ bitsN w 36 16) (lerr 0x00020001 0 w)
  must (clearBits w 0 22) (lerr 0x00010006 0 w)
  must (bitsN w 28 8 + 1 = g.ops.length && bitsN w 22 6 + 1 = g.sinks.length) (lerr 0x00020001 0 w)

/-- Are the parameters of an input within the limits of its kind (R100)? -/
def inOk (scls : BitVec 3) (i : InDesc) : Bool :=
  match i.kind.toNat with
  | 0 => i.p1 = 0 && i.p2 = 0
  | 1 => i.p2 = 0
  | 2 => 1 ≤ i.p1 && i.p1 ≤ 4095 && 0 ≤ i.p2 && i.p2 < i.p1
  | 3 => 2 ≤ i.p1 && i.p1 ≤ 4095 && i.p2 = 0
  | 4 => i.p1 ≤ i.p2 && i.p2 - i.p1 ≤ 4095 && (scls = 0 || scls = 1)
  | 5 => 1 ≤ i.p1 && i.p2 = 0 && scls = 2
  | 6 => i.p1 = 0 && i.p2 = 0 && scls = 3
  | 7 => i.p1 = 0 && i.p2 = 0 && scls = 4
  | 8 => i.p1 = 0 && i.p2 = 0 && i.prod = 0xFF
  | _ => false

/-- Is an operator followed by a KV stream (R411)? -/
def kvFollowed (g : Img) (x : Nat) : Bool := g.cores.any (fun c => c.recs.any (fun r => r.kind = 2 && r.opx.toNat = x && r.opx ≠ 0xFF))

def checkOp (g : Img) (x : Nat) (w : List DWord) : Ld Unit := do
  let at' (i : Nat) : DWord := (w.drop i).headD 0
  let h0 := at' 0
  let d := opOfWords w
  must (bitsN h0 56 8 = x && d.nin ≤ 4 && d.scls.toNat ≤ 4 && d.rounds ≠ 0) (lerr 0x00020003 0 h0)
  must (clearBits h0 0 20) (lerr 0x00010006 0 h0)
  must (clearBits (at' 1) 0 16) (lerr 0x00010006 0 (at' 1))
  must (clearBits (at' 2) 0 16) (lerr 0x00010006 0 (at' 2))
  must (d.origin ≤ d.limit) (lerr 0x00020003 0 (at' 2))
  eachOk (fun i =>
    if d.nin ≤ i then must (at' (3 + i) = 0) (lerr 0x00010006 0 (at' (3 + i)))
    else
      let n := (d.ins.drop i).headD { kind := 0, prod := 0, p1 := 0, p2 := 0 }
      let iw := at' (3 + i)
      if !clearBits iw 0 4 then .error (lerr 0x00010006 0 iw)
      else if !inOk d.scls n then .error (lerr 0x00020004 0 iw)
      else if n.prod ≠ 0xFF && x ≤ n.prod.toNat then .error (lerr 0x00020005 0 iw)
      else if n.kind = 5 && n.p1 % (d.t : Int) ≠ 0 then .error (lerr 0x00020006 0 iw)
      else if n.kind = 6 && !kvFollowed g x then .error (lerr 0x00020005 0 iw)
      else .ok ()) (upTo 4)
  must (at' 7 = 0) (lerr 0x00010006 0 (at' 7))
  let need : Nat := match d.scls.toNat with
    | 2 => 5
    | 3 => 6
    | 4 => 7
    | _ => 99
  must (need = 99 || d.ins.any (fun i => i.kind.toNat = need)) (lerr 0x00020005 0 h0)

def checkOps (g : Img) : Ld Unit := eachOk (fun x => checkOp g x.1 x.2) ((upTo g.opWords.length).zip g.opWords)

/-- Each AFFST operator has one descriptor, and no other operator has one (R124). -/
def checkCks (g : Img) (ws : List (List DWord)) : Ld Unit := do
  eachOk (fun (k : Nat × List DWord) =>
    let w0 := k.2.headD 0
    let w := (k.2.drop 1).headD 0
    let x := bitsN w0 0 8
    if !clearBits w0 8 56 then .error (lerr 0x00010006 0 w0)
    else if !(clearBits w 48 16 && clearBits w 10 6 && clearBits w 0 5) then .error (lerr 0x00010006 0 w)
    else if !((g.ops.drop x).head?.elim false hasAff) || bitsN w 5 5 = 0 || 16 < bitsN w 5 5
        || (ws.take k.1).any (fun v => bitsN (v.headD 0) 0 8 = x) then .error (lerr 0x00020006 0 w)
    else .ok ()) ((upTo ws.length).zip ws)
  must ((upTo g.ops.length).all (fun x => !hasAff ((g.ops.drop x).headD OpDesc.none) || g.cks.any (fun c => c.opx.toNat = x))) (lerr 0x00020006)

/-- A tensor descriptor's own conditions (R147): the first word of eight that breaks one. The extent of a dimension stands in
W1 to W3, its tile extent, like the sum of them, in W4. -/
def tensorWord (ws : List DWord) (t : Tensor) : Option DWord :=
  let at' (i : Nat) : DWord := (ws.drop i).headD 0
  if !(1 ≤ t.rank && t.rank ≤ 5 && bitsN (at' 0) 37 4 ≠ 15 && t.layout ≠ 3 && (t.layout ≠ 2 || 2 ≤ t.rank)) then some (at' 0)
  else match (List.finRange 5).find? (fun i => if i.val < t.rank then t.dim[i] = 0 else t.dim[i] ≠ 0) with
    | some i => some (at' (1 + i.val / 2))
    | none =>
      if (List.finRange 5).any (fun i => t.rank ≤ i.val && t.lt[i] ≠ 0) || t.lt.toList.foldl (· + ·) 0 + Nat.log2 (fmtBits t.fmt) ≠ 19 then
        some (at' 4)
      else if t.ttbase % 8 ≠ 0 then some (at' 5)
      else none

def checkTensors (ws : List (List DWord)) : Ld Unit :=
  eachOk (fun (k : Nat × List DWord) =>
    let at' (i : Nat) : DWord := (k.2.drop i).headD 0
    let t := tensorOfWords k.2
    let rsv := [(at' 0, 0, 35), (at' 3, 32, 32), (at' 4, 20, 44), (at' 5, 48, 16), (at' 6, 0, 64), (at' 7, 0, 64)]
    match rsv.find? (fun r => !clearBits r.1 r.2.1 r.2.2) with
    | some r => .error (lerr 0x00010006 0 r.1)
    | none =>
      match tensorWord k.2 t with
      | some w => .error (lerr 0x00020007 0 w)
      | none => must (!(ws.take k.1).any (fun v => bitsN (v.headD 0) 44 20 = t.tid.toNat)) (lerr 0x00020008 0 (at' 0)))
    ((upTo ws.length).zip ws)

def checkElemOps (g : Img) (f : Nat) (l : List Nat) : Ld Unit :=
  eachOk (fun (x : Nat × Nat) =>
    must (x.2 = 0xFF || x.2 < g.ops.length) { code := 0x0002000C, core := f, elem := x.1, li := 0, word := BitVec.ofNat 64 x.2 })
    ((upTo l.length).zip l)

def checkPorts (f : Nat) (ws : List (List DWord)) : Ld Unit :=
  let ds := ws.map (fun w => tilePortOfWords (w.headD 0) ((w.drop 1).headD 0))
  eachOk (fun (k : Nat × List DWord) =>
    let w0 := k.2.headD 0
    let w1 := (k.2.drop 1).headD 0
    let d := tilePortOfWords w0 w1
    if !clearBits w0 0 2 then .error (lerr 0x00010006 f w0)
    else if !clearBits w1 0 4 then .error (lerr 0x00010006 f w1)
    else must (d.layout ≠ 3 && d.enc.toNat < 4 && !(ds.take k.1).any (fun e => e.mt = d.mt && e.read = d.read)) (lerr 0x00020009 f w1))
    ((upTo ws.length).zip ws)

/-- Reserved bits of TILEDATA headers. -/
def checkTileData (im : List Byte) (f : Nat) : Nat → Nat → Ld Unit
  | 0, _ => .ok ()
  | n + 1, o =>
    let w := dwAt im o
    if !(clearBits w 5 11 && clearBits w 28 4 && clearBits w 44 20) then .error (lerr 0x00010006 f w)
    else checkTileData im f n (o + 8 + 128 * bitsN w 32 12)

/-- The conditions of R306 on one record: codes in increasing order, each with the word that holds the failing field; 0 where
the failure is in no one word (R272). -/
def streamBad (g : Img) (ws : List DWord) : List (Word × DWord) :=
  let at' (i : Nat) : DWord := (ws.drop i).headD 0
  let r := streamOfWords ws
  let bad (b : Bool) (code : Word) (w : DWord) : List (Word × DWord) := if b then [(code, w)] else []
  let ten (t : BitVec 20) : Option Tensor := g.tensors.find? (fun x => x.tid = t)
  let tensor := r.kind = 0 || r.kind = 3
  let q := (g.ops.drop r.qopx.toNat).head?
  bad (!(clearBits (at' 0) 0 17 && (tensor || r.tid = 0) && (r.kind = 1 || r.mt = 0))) 0x00010006 (at' 0)
    ++ bad (!clearBits (at' 3) 32 32) 0x00010006 (at' 3)
    ++ bad (!clearBits (at' 4) 0 10) 0x00010006 (at' 4)
    ++ bad (!clearBits (at' 5) 0 17) 0x00010006 (at' 5)
    ++ bad (!clearBits (at' 6) 0 30) 0x00010006 (at' 6)
    ++ bad (at' 7 ≠ 0) 0x00010006 (at' 7)
    ++ bad (tensor && (ten r.tid).isNone) 0x00020007 (at' 0)
    ++ bad (tensor && !((ten r.tid).elim true (fun t => r.tdim < t.rank && r.kdim < t.rank))) 0x00020007 (at' 4)
    ++ bad (tensor && !((ten r.tid).elim true (fun t => r.edim < t.rank))
        || (r.kind = 3 && !((ten r.itid).elim false (fun t => t.rank = 2 && t.fmt = .n32)))) 0x00020007 (at' 5)
    ++ bad (r.kind = 1 && q.elim false (fun q => q.qd = 0)) 0x00020009 (at' 6)
    ++ bad (r.kind = 1 && q.elim false (fun q => 4096 < r.nv * q.qd * q.t)) 0x00020009 0
    ++ bad ((if r.port.val / 4 % 2 = 0 then 12 else 8) ≤ r.line) 0x0002000D (at' 0)
    ++ bad ((r.opx ≠ 0xFF && g.ops.length ≤ r.opx.toNat) || (r.kind = 1 && q.isNone)) 0x0002000D (at' 6)
    ++ bad (r.kind = 2 && 32 < r.nv) 0x00030005 (at' 0)

def checkStreams (g : Img) (f : Nat) (ws : List (List DWord)) : Ld Unit :=
  eachOk (fun w => match streamBad g w with
    | (code, word) :: _ => .error (lerr code f word)
    | [] => .ok ()) ws

/-- Is a format one that no skiver may name as DFMT (R211)? -/
def noDst : Fmt → Bool
  | .e2m1s | .e8m0 | .x4 | .x8 => true
  | .fp32 | .fp16 | .bf16 | .e4m3 | .e5m2 | .n32 | .i32 | .n16 | .i16 | .n8 | .i8 => false

/-- A skiver word and the records of its port (R210, R211): a write record's tensor has the skiver's DFMT, bypassed or not; any
other record needs BYP = 1. -/
def skivBad (g : Img) (recs : List StreamRec) (p : Nat) (w : DWord) : List Word :=
  let bad (b : Bool) (code : Word) : List Word := if b then [code] else []
  let form := match fmtOf (bitsN w 12 4), fmtOf (bitsN w 8 4), rmodeOf (bitsN w 5 3) with
    | some a, some b, some m => !noDst b && (if skivByp w then a = b && (m = .rne || (fmtRange a).isNone) else skivPair a b m)
    | _, _, _ => false
  let fits (r : StreamRec) : Bool :=
    if r.write && (r.kind = 0 || r.kind = 3) then (g.tensors.find? (fun t => t.tid = r.tid)).elim false (fun t => t.fmt = skivDst w)
    else skivByp w
  bad (!(clearBits w 16 48 && clearBits w 0 3)) 0x00010006
    ++ bad (!form || !(recs.filter (fun r => r.port.val = p)).all fits) 0x0002000A

def checkSkivers (g : Img) (f : Nat) (recs : List StreamRec) (l : List DWord) : Ld Unit :=
  eachOk (fun (x : Nat × DWord) => match skivBad g recs x.1 x.2 with
    | code :: _ => .error (lerr code f x.2)
    | [] => .ok ()) ((upTo l.length).zip l)

def checkBanks (im : List Byte) (f : Nat) (s : Sect) : Ld Unit :=
  eachOk (fun i => do
    let o := s.off + 4224 * i
    let w := dwAt im (o + 0x1040)
    must (clearBits w 25 39 && clearBits w 0 2) (lerr 0x00010006 f w)
    eachOk (fun j => let z := dwAt im (o + 0x1048 + 8 * j); must (z = 0) (lerr 0x00010006 f z)) (upTo 7)
    must (i < 16 && bitsN w 7 9 ≤ 256 && bitsN w 16 9 ≤ 256 && !(bitsN w 5 2 = 3 && bit w 4)) (lerr 0x0002000B f w)) (upTo s.count)

/-- One section's descriptors. -/
def checkSect (im : List Byte) (g : Img) (s : Sect) : Ld Unit :=
  match s.typ with
  | 1 => checkGraph g
  | 2 => checkOps g
  | 3 => checkCks g (s.words im 2)
  | 4 => checkTensors (s.words im 8)
  | 6 => checkElemOps g s.core ((upTo 96).map (fun i => leAt im (s.off + i) 1))
  | 7 => checkPorts s.core (s.words im 2)
  | 8 => checkTileData im s.core s.count s.off
  | 9 => checkStreams g s.core (s.words im 8)
  | 10 => checkSkivers g s.core ((g.cores.drop s.core).head?.elim [] (·.recs)) (dwsAt im s.off 16)
  | 11 => checkBanks im s.core s
  | _ => .ok ()

/-- The sink map names operators without a queue (R98). -/
def checkSinks (g : Img) : Ld Unit :=
  eachOk (fun o => must ((g.ops.drop o).head?.elim false (fun d => d.qd = 0)) (lerr 0x00020002 0 (BitVec.ofNat 64 o))) g.sinks

/-- Step 4: sections in directory order; the sink map after them (R270). -/
def checkDescs (im : List Byte) (g : Img) : Ld Unit := do
  let ss := sectsOf im
  let upToOps := ss.takeWhile (fun s => s.typ ≠ 2)
  eachOk (checkSect im g) (upToOps ++ (ss.drop upToOps.length).take 1)
  checkSinks g
  eachOk (checkSect im g) (ss.drop (upToOps.length + 1))

/-! ### Steps 5 and 6 -/

/-- What the list checks need of the image. -/
def ctxOf (g : Img) (f e : Nat) (covered : Bool := false) : ListCtx :=
  let c := (g.cores.drop f).head?
  let seq := c.elim [] (fun c => entsOf true c.seq)
  let recs := c.elim [] (·.recs)
  let ops := c.elim [] (·.ops)
  { core := f, elem := e, l := bitsN g.graph 52 12, nops := g.ops.length, banks := c.elim [] (·.banks), recs := recs
    live := liveRecs recs seq, ops := ops, aff := (g.ops.drop ((ops.drop e).headD 0xFF)).head?.elim false hasAff, covered := covered, slots := smodesOf seq }

/-- Step 5: the lists in directory order. -/
def checkLists (im : List Byte) (g : Img) : Ld Unit :=
  eachOk (fun s =>
    if s.typ = 5 then checkList (ctxOf g s.core (if s.elem = 0xFF then 127 else s.elem)) (dwsAt im s.off s.count) else .ok ()) (sectsOf im)

/-- A section with its place in the directory. -/
def numbered (ss : List Sect) : List (Nat × Sect) := (upTo ss.length).zip ss

/-- Every drive of the lines of a core, with the place of each list in the directory. -/
def coreDrvs (im : List Byte) (g : Img) (f : Nat) : List Drv :=
  (numbered (sectsOf im)).flatMap (fun x =>
    if x.2.typ = 5 && x.2.core = f then
      (if x.2.elem = 0xFF then (entsOf true (dwsAt im x.2.off x.2.count)).flatMap (entDrvs (ctxOf g f 127) x.1)
       else elemDrvs x.1 x.2.elem ((ctxOf g f 127).opOf x.2.elem) (entsOf false (dwsAt im x.2.off x.2.count)))
    else [])

/-- The list of an element of a footprint core. -/
def elemList (g : Img) (f e : Nat) : List DWord :=
  ((g.cores.drop f).head?.bind (fun c => (c.elems.find? (fun x => x.1 = e)).map (·.2))).getD []

/-- The results of an element's list that complete whenever an element of the footprint core with context `me` is armed
(R268). -/
def resultsWith (g : Img) (me : ListCtx) (f e : Nat) : List Nat :=
  if armedWith me (some (me.opOf me.elem)) (some ((ctxOf g f 127).opOf e)) then resultsOf (entsOf false (elemList g f e)) else []

/-- What an element's neighbour reads see (R203, R78): results that are there whatever is armed beside it. -/
def nbrOf (g : Img) (f e : Nat) (d : Int × Int) : Nbr :=
  let me := ctxOf g f e
  let row : Int := (e / 12 : Nat) + d.1
  let col : Int := (e % 12 : Nat) + d.2
  let other := ((row + 8) % 8 * 12 + (col + 12) % 12).toNat
  if 0 ≤ row ∧ row < 8 ∧ 0 ≤ col ∧ col < 12 then { ok := true, done := resultsWith g me f other, lag := 0 }
  else
    let here := (g.foot.drop f).headD (0, 0)
    match (upTo g.foot.length).find? (fun k => (g.foot.drop k).headD (0, 0) = (here.1 + d.1, here.2 + d.2)) with
    | none => { ok := false, done := [], lag := 0 }
    | some k => { ok := true, done := resultsWith g me k other, lag := if g.xd then 12 else 3 }

/-- Elements whose nonempty lists stand before the sequencer's list in the directory: with those a rectangle of it conflicts
(R272). -/
def fullElems (im : List Byte) (f : Nat) : List Nat :=
  ((sectsOf im).takeWhile (fun s => !(s.typ = 5 && s.core = f && s.elem = 0xFF))).filterMap (fun s =>
    if s.typ = 5 && s.core = f && s.elem < 96 && s.count ≠ 0 then some s.elem else none)

/-- Does a rectangle of the sequencer's list, which stands before this section in the directory, cover the element? -/
def coveredBy (im : List Byte) (g : Img) (x : Nat × Sect) : Bool :=
  ((sectsOf im).take x.1).any (fun s => s.typ = 5 && s.core = x.2.core && s.elem = 0xFF)
    && (smodesOf (entsOf true ((g.cores.drop x.2.core).head?.elim [] (·.seq)))).any (fun r => r.2.cells.contains x.2.elem)

/-- The two ports of a tile agree in ENC; a KIND 1 record names a declared tile port (R209, R268, R307). -/
def checkTilePorts (f : Nat) (ws : List (List DWord)) : Ld Unit :=
  let ds := ws.map (fun w => tilePortOfWords (w.headD 0) ((w.drop 1).headD 0))
  eachOk (fun (k : Nat × TilePort) =>
    must ((ds.take k.1).all (fun d => d.mt ≠ k.2.mt || d.enc = k.2.enc)) (lerr 0x00040008 f ((((ws.drop k.1).headD []).drop 1).headD 0)))
    ((upTo ds.length).zip ds)

def checkTileRefs (g : Img) (f : Nat) (ws : List (List DWord)) : Ld Unit :=
  let ds := (g.cores.drop f).head?.elim [] (·.ports)
  eachOk (fun w =>
    let r := streamOfWords w
    must (r.kind ≠ 1 || ds.any (fun d => d.mt = r.mt && d.read = !r.write)) (lerr 0x00040008 f (w.headD 0))) ws

/-- The schedule of one section. -/
def checkSched (im : List Byte) (g : Img) (x : Nat × Sect) : Ld Unit :=
  let s := x.2
  let f := s.core
  match s.typ with
  | 7 => checkTilePorts f (s.words im 2)
  | 9 => checkTileRefs g f (s.words im 8)
  | 5 =>
    let ds := coreDrvs im g f
    let mine := ds.filter (fun d => d.sec = x.1)
    let words := dwsAt im s.off s.count
    if s.elem = 0xFF then
      let l := entsOf true words
      schedSeq (ctxOf g f 127) ds mine (fullElems im f) [] l []
    else
      let l := entsOf false words
      schedEnts (ctxOf g f s.elem (coveredBy im g x)) ds mine (vWritesOf l) (nbrOf g f s.elem) l { ready := [], taken := [] }
  | _ => .ok ()

/-- Step 6. -/
def checkSchedule (im : List Byte) (g : Img) : Ld Unit := eachOk (checkSched im g) (numbered (sectsOf im))

/-- Steps 2 to 6 on the bytes before the trailer. -/
def sorrus (im : List Byte) (len : Nat) : Ld Img := do
  checkHeader im len
  let g := parseImg im
  checkDir im g
  checkDescs im g
  checkLists im g
  checkSchedule im g
  .ok g

/-! ### Step 7: placement (R77, R124) -/

/-- The core of a footprint offset at an origin. -/
def placeCore (origin : Nat) (d : Int × Int) : Option Nat := coreAt ((coordY origin : Nat) + d.1) ((coordX origin : Nat) + d.2)

/-- Cores that are occupied for a load into a slot: by another graph, or by a load that has been accepted for another slot. -/
def occupied (s : State) (p slot c : Nat) : Bool :=
  (match (coreOf s (coreNo c)).owner with
   | some (q, k) => !(q = p && k = slot)
   | none => false)
    || (partOf s p).loading.any (fun l => l.slot ≠ slot && (footOf l.image).any (fun d => placeCore l.origin d = some c))

/-- Elements of an operator in an image. -/
def elemCount (g : Img) (o : Nat) : Nat := g.cores.foldl (fun n c => n + (c.ops.filter (· = o)).length) 0

/-- The record areas of an image: first frame and length (R124, R125). -/
def recAreas (g : Img) : List (Nat × Nat) :=
  g.cks.map (fun c => (c.base / 65536, ceilDiv (2048 * elemCount g c.opx.toNat) 65536 * (c.nslot + 1)))

/-- Is every frame of a record area the VF's, in the HBM tier (R124)? -/
def ckArea (s : State) (vf : Nat) (a : Nat × Nat) : Bool :=
  (upFrom a.2 a.1).all (fun f => let d := frameDesc s f; d.v && d.owner = vf && d.tier = 0)

/-- Is a frame of the record areas on its way? It is no more when the graph is resident (R124; log entry 83). -/
def recMoves (s : State) (g : Img) : Bool := (recAreas g).any (fun a => s.fwd.any (fun e => a.1 ≤ e.frame.toNat && e.frame.toNat < a.1 + a.2))

/-- The placement checks; of two codes of R77 that both apply, 0xFFFF0004 comes first: DESIGN CHOICE (log entry 88). -/
def checkPlace (s : State) (p vf slot origin : Nat) (g : Img) : Ld (List Nat) := do
  let x := partOf s p
  let places := g.foot.map (placeCore origin)
  eachOk (fun (y : Nat × Option Nat) => must (match y.2 with
    | none => false
    | some c => bit x.cores c && !occupied s p slot c) (lerr 0xFFFF0004 y.1)) ((upTo places.length).zip places)
  let cs := places.filterMap id
  must (g.xd || cs.all (fun c => dieOf c = dieOf (cs.headD 0))) (lerr 0xFFFF0005)
  must ((recAreas g).all (ckArea s vf)) (lerr 0xFFFF0006)
  .ok cs

/-- W2 of a REFUSE event (R272). -/
def LErr.place (e : LErr) : DWord := BitVec.ofNat 64 (e.core % 64 * 2 ^ 58 + e.elem % 128 * 2 ^ 51 + e.li % 4096 * 2 ^ 39)

/-- Everything that a LOADG checks of an image, in the order of R270. -/
def acceptImage (s : State) (p vf slot origin : Nat) (image : List Byte) : Ld (List Nat) :=
  match sigBad (vfOf s vf).keys image with
  | some code => .error (lerr code)
  | none =>
    match sorrus (image.take (image.length - trailerLen)) image.length with
    | .error e => .error e
    | .ok g => checkPlace s p vf slot origin g

/-! ### The graph and its cores (R59, R121, R196, R209, R218, R254, R310, R327, R348) -/

/-- The graph of an image at its placed cores. -/
def graphOfImg (g : Img) (cores : List Nat) (vf stream image : Nat) : Graph :=
  { l := bitsN g.graph 52 12, budget := bitsN g.graph 36 16, xd := g.xd, ops := g.ops, sinks := g.sinks.map (BitVec.ofNat 8)
    ckpts := g.cks, tensors := g.tensors, cores := cores, vf := vf, stream := stream, image := image
    st := (upTo g.ops.length).map (fun x =>
      (x, OpState.init ((g.ops.drop x).headD OpDesc.none) ((g.cks.find? (fun c => c.opx.toNat = x)).elim 0 (·.nslot))))
    run := .idle, rc := 0, todo := [], fault := none, hit := none, lastVoid := false, hold := none, stopped := false, stopNext := false, fresh := true
    waitCnt := 0, bndLeft := 0, sectEnd := none, cancels := [], waiting := [], late := [], repeatCls := 0, repeatOpx := 0, repeatStep := 0, repeatCnt := 0
    wantSeq := 0, wantNew := 0, restore := [], acpt := 0, cmpl := 0, rcom := 0, rvoid := 0 }

/-- The lines of a tile that stay: those of tiles that the new image declares `keep` (R209). -/
def keptTiles (old : Table TileLine) (ts : List TileImg) : Table TileLine :=
  old.filter (fun e => ts.any (fun t => t.keep && t.mt = e.1 / 4096))

/-- Preloaded lines take the encoding of their tile as their tag (R209). -/
def loadTile (k : Core) (t : TileImg) : Core :=
  ((upTo t.lines.length).zip t.lines).foldl (fun k x => putTile k t.mt (t.first + x.1) { tag := tileEnc k t.mt, data := x.2 }) k

def bankOfImg (b : BankImg) : Bank :=
  let ent := ((upTo 256).zip b.ent).foldl (fun t x => tset 0 t x.1 x.2) []
  { declared := true, kind := BitVec.ofNat 2 b.kind, zsub := b.zsub, act := false, swp := false, size := Vector.replicate 2 b.size
    ent := Vector.replicate 2 ent, valid := Vector.replicate 2 b.valid }

/-- An element after a load: its list and operator; its registers as after a reset; its soft-error record stays (R134, R201,
R218, R221). -/
def loadElem (old : Element) (ops : List Nat) (lists : List (Nat × List DWord)) (e : Fin 96) : Element :=
  { Element.reset with
    list := ((lists.find? (fun x => x.1 = e.val)).map (·.2)).getD [], opx := BitVec.ofNat 8 ((ops.drop e.val).headD 0xFF)
    detections := old.detections, failed := old.failed }

/-- The lowest-numbered record of each port is its active one (R310). -/
def loadPort (recs : List StreamRec) (i : Fin 16) : Port :=
  { Port.reset with
    active := recs.find? (fun r => r.port = i)
    recs := ((upTo recs.length).zip recs).filterMap (fun x => if x.2.port = i then some x.1 else none) }

/-- A core after a load of footprint core `f`. Its event counters, `brken`, round count and loft stay the core's own. -/
def loadCore (k : Core) (g : Img) (p slot f : Nat) : Core :=
  match (g.cores.drop f).head? with
  | none => k
  | some c =>
    let rect (i : Fin 8) : Rect := (((smodesOf (entsOf true c.seq)).find? (fun x => x.1 = i)).map (·.2)).getD Rect.off
    let k1 : Core := { Core.reset with
      elems := Vector.ofFn (fun e => loadElem k.elems[e] c.ops c.elems e), owner := some (p, slot), fidx := f
      tiles := keptTiles k.tiles c.tiles, windows := [], loft := k.loft, loftWritten := []
      banks := Vector.ofFn (fun i : Fin 16 => ((c.banks.drop i.val).head?).elim Bank.reset bankOfImg)
      records := c.recs, ports := Vector.ofFn (loadPort c.recs), tilePorts := c.ports
      skiv := Vector.ofFn (fun i : Fin 16 => (c.skiv.drop i.val).headD 8)
      rects := Vector.ofFn rect, rectsNext := Vector.ofFn rect, seqList := c.seq, evc := k.evc, brken := k.brken
      roundsStarted := k.roundsStarted }
    applyRects (c.tiles.foldl loadTile k1)

/-- A core that no graph occupies any more. -/
def freeCore (k : Core) : Core :=
  { Core.reset with
    elems := Vector.ofFn (fun e => { Element.reset with detections := k.elems[e].detections, failed := k.elems[e].failed })
    tiles := k.tiles, loft := k.loft, evc := k.evc, brken := k.brken, roundsStarted := k.roundsStarted }

/-- Empty a slot: its graph goes, its cores are free (R59); its graph record stays until a load clears it (R95). -/
def emptySlot (s : State) (p slot : Nat) : State :=
  match graphOf s p slot with
  | none => s
  | some g => modPart (modCores s g.cores freeCore) p (fun x =>
      { x with graphs := terase x.graphs slot, oldRecs := tput x.oldRecs slot (g.acpt ++ g.cmpl, g.rcom ++ g.rvoid) })

/-- Put an accepted image into its slot; the old graph goes (R59). -/
def installLoad (s : State) (p : Nat) (l : Load) : State :=
  let g := parseImg (l.image.take (l.image.length - trailerLen))
  let cores := (g.foot.map (placeCore l.origin)).filterMap id
  let old := (graphOf s p l.slot).elim [] (·.cores)
  let s := modPart (modCores s (old.filter (fun c => !cores.contains c)) freeCore) p (fun x => { x with oldRecs := terase x.oldRecs l.slot })
  let s := ((upTo cores.length).zip cores).foldl (fun s x => modCore s (coreNo x.2) (fun k => loadCore k g p l.slot x.1)) s
  putGraph s p l.slot (graphOfImg g cores (partOf s p).vf l.stream l.addr)

end Sys2Proof.Machine
end

