-- ==== Sys2Proof/Machine/Context.lean ====
section
/-! DEFINITION. The saved context of a suspended VF (R137 to R141): the element context record, the stamp-bank record, saving
and restoring a partition. -/

namespace Sys2Proof.Config

/-- FREE. The bytes of the sections of a saved context whose layout no rule gives byte for byte (R137): the Rein section; the configuration and
the sequencer section of a core; the head of a line record; a port record. Each is a function of what the table of R137 puts there. -/
opaque reinSection : Machine.Context → List Byte
opaque configSection : Machine.Core → List Byte
opaque sequencerSection : Nat → Machine.Core → List Byte
opaque lineHead : Nat → Nat → BitVec 3 → List Byte
opaque portRecord : Machine.Port → List Byte

end Sys2Proof.Config

namespace Sys2Proof.Machine

/-! ### The element context record (R138) -/

/-- The lane words of registers, lane 0 first. -/
def lanesWords (l : List Lanes) : List Word := l.flatMap (·.toList)

/-- STATUS, bits [127:0] (R138). -/
def elemStatus (x : Element) : Nat :=
  let r := x.r
  x.li % 1024 * 2 ^ 64 + r.flags.toNat * 2 ^ 32 + r.exc.toNat * 2 ^ 16 + r.guf.toNat * 2 ^ 12 + (if r.ixz then 2 ^ 11 else 0)
    + (if x.sad then 2 ^ 10 + x.form.toNat * 2 ^ 7 else 0) + r.ctx.toNat

/-- Word `i` of a wide number. -/
def wordOfNat (n i : Nat) : Word := BitVec.ofNat 32 (n / 2 ^ (32 * i))

/-- The 2 048 words of the record. -/
def elemWords (x : Element) : List Word :=
  let r := x.r
  lanesWords r.v.toList ++ lanesWords r.s.toList ++ r.k.toList.flatMap (fun k => k.state.toList ++ k.gain.toList)
    ++ r.res.toList ++ r.accC.toList ++ r.m.toList ++ r.p.toList ++ (upTo 4).map (wordOfNat (elemStatus x))
    ++ List.replicate 4 0 ++ r.gains.toList ++ List.replicate 392 0

def elemRecord (x : Element) : List Byte := bytesOf (elemWords x)

/-- Lanes from word `i` of a list on. -/
def lanesFrom (ws : List Word) (i : Nat) : Lanes := Lanes.tab (fun j => (ws.drop (i + j.val)).headD 0)

/-- The registers that a record's words hold; what the record does not hold starts as after a reset. -/
def regsOfWords (ws : List Word) : ElemRegs :=
  let at' (i : Nat) : Word := (ws.drop i).headD 0
  let st1 := (at' 1616).toNat
  { ElemRegs.reset with
    v := Vector.ofFn (fun i => lanesFrom ws (32 * i.val)), s := Vector.ofFn (fun i => lanesFrom ws (1024 + 32 * i.val))
    k := Vector.ofFn (fun i => { state := lanesFrom ws (1280 + 64 * i.val), gain := lanesFrom ws (1312 + 64 * i.val) })
    res := lanesFrom ws 1536, accC := lanesFrom ws 1568, accW := lanesFrom ws 1568
    m := Vector.ofFn (fun i => at' (1600 + i.val)), p := Vector.ofFn (fun i => at' (1608 + i.val))
    gains := lanesFrom ws 1624
    flags := BitVec.ofNat 5 (at' 1617).toNat, exc := BitVec.ofNat 16 (st1 / 2 ^ 16), guf := BitVec.ofNat 4 (st1 / 2 ^ 12)
    ixz := st1 / 2 ^ 11 % 2 = 1, ctx := BitVec.ofNat 5 st1 }

/-- An element from its record, over the rest of it. -/
def elemOfRecord (x : Element) (b : List Byte) : Element :=
  let ws := wordsOf 2048 b
  let st1 := ((ws.drop 1616).headD 0).toNat
  let r := regsOfWords ws
  let sad := st1 / 2 ^ 10 % 2 = 1
  { x with r := r, start := r, li := ((ws.drop 1618).headD 0).toNat % 1024, sad := sad
           form := if sad then BitVec.ofNat 3 (st1 / 2 ^ 7) else 0 }

/-- What a saved core keeps of an element beside the record: its list, its operator and its soft-error record. -/
def bareElem (x : Element) : Element :=
  { Element.reset with list := x.list, opx := x.opx, detections := x.detections, failed := x.failed }

/-! ### The stamp-bank record (R139) -/

/-- The entries of a half, 8 bytes each. -/
def halfBytes (t : Table DWord) : List Byte := (upTo 256).flatMap (fun i => leOf 8 (tget 0 t i).toNat)

def bankControl (b : Bank) : Nat :=
  b.size[1] % 512 * 2 ^ 16 + b.size[0] % 512 * 2 ^ 7 + b.kind.toNat * 2 ^ 5 + (if b.zsub then 2 ^ 4 else 0)
    + (if b.act then 2 ^ 3 else 0) + (if b.swp then 2 ^ 2 else 0)

def bankRecord (b : Bank) : List Byte :=
  halfBytes b.ent[0] ++ halfBytes b.ent[1] ++ leOf 32 b.valid[0].toNat ++ leOf 32 b.valid[1].toNat ++ leOf 8 (bankControl b)
    ++ List.replicate 56 0

/-- The entries of a half from its bytes. -/
def halfOf (b : List Byte) : Table DWord :=
  (upTo 256).foldl (fun t i => tset 0 t i (BitVec.ofNat 64 (leVal ((b.drop (8 * i)).take 8)))) []

/-- A bank from its record; whether the image declares it stays. -/
def bankOfRecord (x : Bank) (b : List Byte) : Bank :=
  let c := leVal ((b.drop 0x1040).take 8)
  let valid (o : Nat) : BitVec 256 := BitVec.ofNat 256 (leVal ((b.drop o).take 32))
  { x with
    kind := BitVec.ofNat 2 (c / 2 ^ 5), zsub := c / 2 ^ 4 % 2 = 1, act := c / 2 ^ 3 % 2 = 1, swp := c / 2 ^ 2 % 2 = 1
    size := #v[c / 2 ^ 7 % 512, c / 2 ^ 16 % 512], ent := #v[halfOf b, halfOf (b.drop 0x800)], valid := #v[valid 0x1000, valid 0x1020] }

/-! ### A core (R137, R140) -/

/-- Latched translations are not saved (R137). -/
def dropLatches (k : Core) : Core := { k with ports := Vector.ofFn (fun i => { k.ports[i] with latch := none }) }

/-- The loft as it is saved: the segments that were written since the load; the others read zero after the restore (R137, R140). -/
def savedLoft (k : Core) : Table Byte := k.loft.filter (fun e => k.loftWritten.contains (e.1 / 65536))

def saveCore (s : State) (c : Nat) : SavedCore :=
  let k := coreOf s (coreNo c)
  { num := c, elems := k.elems.toList.map elemRecord, banks := k.banks.toList.map bankRecord
    core := { dropLatches k with
      loft := savedLoft k
      elems := Vector.ofFn (fun e => bareElem k.elems[e])
      banks := Vector.ofFn (fun i => { Bank.reset with declared := k.banks[i].declared }) } }

/-- A core from what was saved of it; soft-error records, failed elements, `brken` and the round count are the core's own. -/
def restoreCore (now : Core) (x : SavedCore) : Core :=
  let k := x.core
  { k with
    elems := Vector.ofFn (fun e =>
      let y := elemOfRecord k.elems[e] ((x.elems.drop e.val).headD [])
      { y with detections := now.elems[e].detections, failed := now.elems[e].failed })
    banks := Vector.ofFn (fun i => bankOfRecord k.banks[i] ((x.banks.drop i.val).headD []))
    brken := now.brken, roundsStarted := now.roundsStarted }

/-- A core for a VF that has not yet run: as after a reset, but for its soft-error records, `brken` and the round count (R80). -/
def freshCore (k : Core) : Core :=
  { Core.reset with
    elems := Vector.ofFn (fun e => { Element.reset with detections := k.elems[e].detections, failed := k.elems[e].failed })
    brken := k.brken, roundsStarted := k.roundsStarted }

/-- Registers with every bit zero: keepers and row gains too, which a load sets to 1.0 (R79). -/
def ElemRegs.zero : ElemRegs :=
  { ElemRegs.reset with k := Vector.replicate 4 { state := Lanes.zero, gain := Lanes.zero }, gains := Lanes.zero }

/-- A core with its tiles, banks, loft and registers zero; what the control complex counts of its soft errors stays (R79 step 5, R134). -/
def zeroCore (k : Core) : Core :=
  { Core.reset with
    elems := Vector.ofFn (fun e =>
      { Element.reset with r := ElemRegs.zero, start := ElemRegs.zero, detections := k.elems[e].detections, failed := k.elems[e].failed })
    roundsStarted := k.roundsStarted }

/-! ### The partition's hide -/

/-- Does a key of the hide lie in a bank of the partition (R74)? -/
def hideKeyOf (x : Part) (key : Nat) : Bool := bit x.cores (key / 65536 / 4)

/-- Keys of words that share domains depend on: count words of shared frames, prefix-table sets (R79 step 5). -/
def sharedKeys (s : State) (p : Nat) : List Nat :=
  let x := partOf s p
  unionPos ((s.frames.filter (fun e => e.2.v && e.2.sdom ≠ 0 && e.2.rcpart.toNat = p)).map (fun e => x.hideKey e.2.rcoff.toNat)) []

/-- Does a prefix table of the partition hold the word at a key? -/
def prefixKey (s : State) (p key : Nat) : Bool :=
  let x := partOf s p
  s.prefixes.any (fun d => d.2.part = p &&
    (upTo (ceilDiv (d.2.sets * 40) 65536 + 1)).any (fun i =>
      let o := d.2.base + 65536 * i
      x.hideKey o / 65536 = key / 65536 && d.2.holds (o + key % 65536)))

/-- Is the word at a key the partition's own: in its banks, and not one that a share domain depends on? -/
def ownKey (s : State) (p : Nat) (key : Nat) : Bool :=
  hideKeyOf (partOf s p) key && !(sharedKeys s p).contains key && !prefixKey s p key

/-- Every word of the partition's hide space (R137). -/
def hideAll (s : State) (p : Nat) : Table DWord := s.hide.filter (fun e => hideKeyOf (partOf s p) e.1)

/-- Zero the partition's own words. -/
def zeroHide (s : State) (p : Nat) : State := { s with hide := s.hide.filter (fun e => !ownKey s p e.1) }

/-! ### Saving (R137) -/

/-- Is a stirrup lane one of the partition's? -/
def StirLane.of (x : StirLane) (p : Nat) : Bool := x.owner.elim false (fun o => o.1 = p)

def saveContext (s : State) (p : Nat) : Context :=
  let x := partOf s p
  { vf := x.vf, graphs := x.graphs, demands := x.demands, nextAcc := x.nextAcc, armSlots := x.armSlots, oldRecs := x.oldRecs, jobs := x.jobs, phn := x.phn
    hide := hideAll s p, quota := x.quota, seqs := x.seqs, pins := x.pins, stir := s.stir.filter (fun e => e.2.of p)
    xf := s.xfBuf.filter (fun e => bit x.cores e.1), cores := x.coreList.map (saveCore s), area := 0, areaLen := 0 }

/-- A section of the saved area: its type, its length, and the bytes of it that are not zero, each run with its offset. -/
structure CtxSect where
  typ : Nat
  len : Nat
  runs : List (Nat × List Byte)
  deriving DecidableEq, Repr

/-- A section of some bytes. -/
def CtxSect.plain (typ : Nat) (b : List Byte) : CtxSect := { typ := typ, len := b.length, runs := [(0, b)] }

/-- Section 1: what the Rein unit holds of the graphs. -/
def reinSect (c : Context) : CtxSect :=
  .plain 1 (Config.reinSection { c with hide := [], seqs := [], pins := [], stir := [], xf := [], cores := [], area := 0, areaLen := 0 })

/-- Section 3: lists, and the configuration words of streams, tiles and skivers, as loaded. -/
def configSect (k : Core) : CtxSect :=
  .plain 3 (Config.configSection { Core.reset with
    elems := Vector.ofFn (fun e => { Element.reset with list := k.elems[e].list, opx := k.elems[e].opx })
    seqList := k.seqList, records := k.records, tilePorts := k.tilePorts, skiv := k.skiv })

/-- Section 4: LI, RC, c0 to c31, the arm words, rectangles and forms. -/
def sequencerSect (rc : Nat) (k : Core) : CtxSect :=
  .plain 4 (Config.sequencerSection rc { Core.reset with seqLi := k.seqLi, c := k.c, armw := k.armw, rects := k.rects, rectsNext := k.rectsNext })

/-- Section 7: every line that is not clear: its tile, its number and its tag, then its 128 bytes (R209). -/
def tileSect (k : Core) : CtxSect :=
  .plain 7 ((k.tiles.filter (fun e => e.2.tag ≠ 7)).flatMap (fun e =>
    Config.lineHead (e.1 / 4096) (e.1 % 4096) e.2.tag ++ bytesOf e.2.data.toList))

/-- Section 8: 16 records of 128 bytes, without latched translations. -/
def portSect (k : Core) : CtxSect :=
  .plain 8 (k.ports.toList.flatMap (fun q => (Config.portRecord { q with latch := none, slow := false } ++ List.replicate 128 0).take 128))

/-- Section 2: the hide words by their offsets; the work block as the device computes it. -/
def hideSect (s : State) (p : Nat) : CtxSect :=
  let x := partOf s p
  let plain := (hideAll s p).map (fun e => (x.coreList.findIdx (· = e.1 / 65536 / 4) * 262144 + e.1 % 262144, e.2))
  let block := (upFrom 4096 x.reinBase.toNat ++ upFrom 8256 x.kvBase.toNat).map (fun o => (o, hideRead s p o))
  { typ := 2, len := 8 * x.hideSize, runs := (plain ++ block).map (fun e => (8 * e.1, leOf 8 e.2.toNat)) }

/-- Section 9: a map of the loft's segments that were written since the load, then those segments in order. -/
def loftSect (k : Core) : CtxSect :=
  let segs := unionPos k.loftWritten []
  let map := leOf 24 ((segs.map (fun n => 2 ^ n)).foldl (· + ·) 0)
  { typ := 9, len := 24 + 65536 * segs.length
    runs := (0, map) :: (savedLoft k).map (fun e => (24 + 65536 * segs.findIdx (· = e.1 / 65536) + e.1 % 65536, [e.2])) }

/-- RC of the graph that a core belongs to. -/
def coreRc (s : State) (k : Core) : Nat := (k.owner.bind (fun o => graphOf s o.1 o.2)).elim 0 (·.rc)

/-- The seven sections of a core, in the order of the table of R137. -/
def coreSects (s : State) (c : Nat) : List CtxSect :=
  let k := coreOf s (coreNo c)
  [configSect k, sequencerSect (coreRc s k) k,
   { typ := 5, len := 96 * 8192, runs := (upTo 96).map (fun e => (8192 * e, elemRecord (elemOf k (Fin.ofNat 96 e)))) },
   { typ := 6, len := 16 * 4224, runs := (upTo 16).map (fun i => (4224 * i, bankRecord k.banks[Fin.ofNat 16 i])) },
   tileSect k, portSect k, loftSect k]

/-- All sections of a partition: those of a type stand together, core by core: DESIGN CHOICE (R137; log entry 79). -/
def allSects (s : State) (p : Nat) (c : Context) : List CtxSect :=
  let cores := (partOf s p).coreList.map (coreSects s)
  reinSect c :: hideSect s p :: (upTo 7).flatMap (fun t => cores.flatMap (fun l => (l.drop t).take 1))

/-- Bytes of the header: 4 KiB, or as many units of 4 KiB as its directory takes: DESIGN CHOICE (log entry 79). -/
def headerLen (n : Nat) : Nat := 4096 * ceilDiv (8 * (8 + 2 * n)) 4096

/-- The sections of a saved context, each with its offset in the area: they follow the header, 4 KiB aligned. -/
def placeSects : Nat → List CtxSect → List (Nat × CtxSect)
  | _, [] => []
  | o, x :: r => (o, x) :: placeSects (o + 4096 * ceilDiv x.len 4096) r

/-- The header: what it is, whose it is, the cores, the directory (R137). -/
def ctxHeader (s : State) (p : Nat) (l : List (Nat × CtxSect)) : List DWord :=
  let x := partOf s p
  [0x5A435458, BitVec.ofNat 64 (x.vf * 256 + p), x.cores, 0, 0, 0, 0, 0]
    ++ l.flatMap (fun e => [BitVec.ofNat 64 e.2.typ, BitVec.ofNat 64 (e.2.len * 2 ^ 32 + e.1)])

/-- The context is written into frames of the control complex (R137); none when there are no frames for it. -/
def writeArea (s : State) (p : Nat) (c : Context) : Option (State × Context) :=
  let sects := allSects s p c
  let l := placeSects (headerLen sects.length) sects
  let size := l.foldl (fun m e => max m (e.1 + e.2.len)) (headerLen sects.length)
  let n := ceilDiv size 65536
  (systemFrames s p n).map (fun x =>
    let s := x.2
    let a := 65536 * x.1
    let h := ctxHeader s p l
    let mem := ((upTo h.length).zip h).foldl (fun m w => write64 m (a + 8 * w.1) w.2) s.mem
    let mem := l.foldl (fun m e => e.2.runs.foldl (fun m r => writeBytes m (a + e.1 + r.1) r.2) m) mem
    ({ s with mem := mem }, { c with area := x.1, areaLen := n }))

/-- The frames of a saved area are free again, and zero (R157). -/
def dropArea (s : State) (c : Context) : State :=
  if c.areaLen = 0 then s else freeFrames s c.area c.areaLen

/-- Hot sequences of the running VF. -/
def hotSeqs (s : State) (p : Nat) : List Nat := ((partOf s p).seqs.filter (fun e => e.2.v && e.2.hot)).map (·.1)

/-- Swap out every hot sequence of the running VF for whose table there are frames (R140). -/
def swapOutAll (s : State) (p : Nat) : State :=
  (hotSeqs s p).foldl (fun s q => (swapOut s p (partOf s p).vf q).getD s) s

/-- The entry of the slice list that follows the running VF (R81). A running VF that is no entry of the list, which the manual forbids, is
followed by entry 0: DESIGN CHOICE (log entry 48). -/
def nextSlice (x : Part) : Nat :=
  let k := ((upTo x.nslv).find? (fun k => x.slvVf k = x.vf)).getD (x.nslv - 1)
  x.slvVf ((k + 1) % x.nslv)

/-- A partition with every graph slot empty and no demand. -/
def bareSlots (x : Part) : Part :=
  { x with graphs := [], demands := [], nextAcc := 0, armSlots := [], oldRecs := [], jobs := [], phn := 0, phAcpt := 0, phCmpl := 0, post := []
           quota := 0, seqs := [], pins := [], sliceRun := 0, sliceExp := false, sliceAt := 0, grace := 0, switching := .none }

/-! ### Restoring (R141) -/

/-- The translation of a core's port at its saved position; a port that translates nothing there has no latch. -/
def relatchPort (p : Nat) (g : Graph) (c : Nat) (s : State) (i : Fin 16) : State :=
  let q := (coreOf s (coreNo c)).ports[i]
  match q.active with
  | none => s
  | some r =>
    match (if r.kind = 0 && !q.fin && 0 ≤ q.pos then tensorOf g r.tid else none) with
    | none => s
    | some t =>
      let co := streamCoord r q.pos.toNat q.step 0
      if !t.inside co then s
      else match translate s p { vf := (partOf s p).vf, port := c, cls := portClass g r } t (t.tileNo co) (t.elemOff co * fmtBits t.fmt / 8)
          r.write with
        | .ok (s, l) => modCore s (coreNo c) (fun k => modPort k i (fun q => { q with latch := some l }))
        | .error _ => s

/-- Every stream of the partition's graphs is latched again at its saved position (R141). -/
def relatchAll (s : State) (p : Nat) : State :=
  (partOf s p).graphs.foldl (fun s e =>
    e.2.cores.foldl (fun s c => (List.finRange 16).foldl (relatchPort p e.2 c) s) s) s

/-- A saved stirrup lane comes back, unless another graph has taken the lane meanwhile (R321). -/
def restoreLane (s : State) (e : Nat × StirLane) : State :=
  if (tget StirLane.reset s.stir e.1).owner.isSome then s else { s with stir := tput s.stir e.1 e.2 }

/-- A VF's context comes back: its cores, its hide words but for those that share domains depend on (log entry 79), its records; then the
arming step, without a commit (R141). -/
def restoreContext (s : State) (p : Nat) (c : Context) : State :=
  let s := c.cores.foldl (fun s x => modCore s (coreNo x.num) (fun k => restoreCore k x)) s
  let s := (c.hide.filter (fun e => ownKey s p e.1)).foldl (fun s e => { s with hide := tput s.hide e.1 e.2 }) s
  let s := c.stir.foldl restoreLane s
  let s := c.xf.foldl (fun s e => { s with xfBuf := tput s.xfBuf e.1 e.2 }) s
  let s := modPart s p (fun x =>
    { x with graphs := c.graphs, demands := c.demands, nextAcc := c.nextAcc, armSlots := c.armSlots, oldRecs := c.oldRecs, jobs := c.jobs, phn := c.phn
             quota := c.quota, seqs := c.seqs, pins := c.pins, saved := x.saved.filter (fun y => y.vf ≠ c.vf) })
  let s := dropArea (relatchAll s p) c
  let s := c.graphs.foldl (fun s e => e.2.hold.elim s (fun r => askAbsent s p e.2 r)) s
  c.graphs.foldl (fun s e => if e.2.idle then armIdle (planAndCancel s p e.1) p e.1 else s) s

/-- Does a step that swaps a sequence of the partition in still wait? It is asked for again after the restore of the VF that it was for. -/
def swapsIn (p : Nat) : Instr → Bool
  | .sequenceSwapIn q _ => q.toNat = p
  | _ => false

/-- THE SAVE (R80, R137): the context is saved, in the device and in its area, and the partition is bound to the next VF of its list, with
every slot empty and its hide zero. -/
def rebindSlice (s : State) (p : Nat) (c : Context) : State :=
  let s := modVf { s with tasks := s.tasks.filter (fun i => !swapsIn p i) } c.vf (fun v => { v with evLeft := v.evWait.length })
  let nxt := nextSlice (partOf s p)
  let cores := (partOf s p).coreList
  let s := zeroHide (modCores s cores freshCore) p
  let s := { s with
    stir := s.stir.filter (fun e => !e.2.of p), xfBuf := s.xfBuf.filter (fun e => !cores.contains e.1)
    tlb := Vector.ofFn (fun d => s.tlb[d].filter (fun e => e.part ≠ p)) }
  modPart s p (fun x =>
    { bareSlots x with ctl := setBits x.ctl 0 8 nxt, saved := x.saved.filter (fun y => y.vf ≠ c.vf) ++ [c], switching := .restore })

/-- The control complex makes room for a save, where it can. -/
def roomFor (s : State) (p : Nat) : Option State := let t := evictSome s p; if t.tasks.length = s.tasks.length && (victims s p).isEmpty then none else some t

/-- One step of the save: it waits while sequences cannot be swapped out, or the area cannot be placed, for frames that eviction frees; with
nothing to evict the device's own copy stands alone (log entry 79). -/
def saveSlice (s : State) (p : Nat) : State :=
  let s := swapOutAll s p
  let c := saveContext s p
  match (if (hotSeqs s p).isEmpty then writeArea s p c else none) with
  | some x => rebindSlice x.1 p x.2
  | none => (roomFor s p).getD (rebindSlice s p c)

/-- The saved context of the running VF. -/
def ownSaved (s : State) (p : Nat) : Option Context := (partOf s p).saved.find? (fun y => y.vf = (partOf s p).vf)

/-- THE RESTORE (R80, R141): the VF's context comes back, or it starts with nothing. -/
def restoreSlice (s : State) (p : Nat) : State :=
  let s := (ownSaved s p).elim s (restoreContext s p)
  modPart s p (fun x => { x with switching := .none })

/-- A reset that comes during a restore discards the saved area (R141). -/
def discardSaved (s : State) (p : Nat) : State :=
  if (partOf s p).switching ≠ .restore then s
  else match ownSaved s p with
    | some c => modPart (dropArea s c) p (fun x => { x with saved := x.saved.filter (fun y => y.vf ≠ c.vf) })
    | none => s

end Sys2Proof.Machine
end

