-- ==== Sys2Proof/Machine/Boundary.lean ====
section
/-! DEFINITION. The phase boundary of a partition (R183, R184, R189, R196), time slices (R80, R81), and the reset of a partition in
isolation (R79). -/

namespace Sys2Proof.Machine

/-! ### The phase boundary (R183, R184) -/

/-- Ask for a phase boundary. -/
def askBoundary (s : State) (p : Nat) : State := modPart s p (fun x => { x with bndReq := true })

/-- The value of PHN after the first boundary whose step 1 begins after now (R183): one under way that has not published yet comes first. -/
def nextPhn (x : Part) : Nat := x.phn.toNat + (if x.bndStarted && x.switching = .none then 2 else 1)

/-- Does a command wait behind one that waits for the version store, in its chain, for its tile or loft window, or for an operation that its
port must open first? Then it cannot begin before the boundary either (R189, R194, R318). -/
def waitsBehind (s : State) (r : Running) : Bool :=
  let behind (f : Running → Bool) : Bool := s.engines.any (fun q => q.part = r.part && q.blocked && f q)
  (chainWaits s r && behind (fun q => q.core = r.core && q.cmd.cls = r.cmd.cls && q.id < r.id))
    || (windowWaits s r && behind (fun q => q.core = r.core && !windowWaits s q && q.id < r.id))
    || (match r.cmd with
        | .red _ _ _ _ _ _ g _ n => !r.sent && openWaits s g n && behind (fun q => q.cmd.coll.elim false (fun c => c.1 = g))
        | _ => false)

/-- Has a graph finished its round in flight and its section? One whose commit waits for the version store, and for nothing else, counts
as finished (R184 step 1, R189). -/
def graphSettled (s : State) (p : Nat) (g : Graph) : Bool :=
  match g.run with
  | .idle | .ready => true
  | .heldCommit => !engineHeld s p g && !allocHeld s p g && versionHeld s p g
  | .round | .ended | .boundary | .sect => false

/-- Steps 1 and 2: every graph has settled, every engine command has completed or waits for the boundary itself. -/
def boundaryReady (s : State) (p : Nat) : Bool :=
  (partOf s p).graphs.all (fun e => graphSettled s p e.2) && s.engines.all (fun r => r.part ≠ p || r.blocked || waitsBehind s r)

/-- A post becomes readable: V is set, the value stands below (R63, R356). -/
def performPost (s : State) (p : Nat) (e : PostEnt) : State := hideWrite (hideRequest s p e.off 3 hostPort) p e.off (0x80000000#32 ++ e.val)

/-- Steps 3 to 5: publication, posts, the phase record. -/
def publishPhase (s : State) (p : Nat) : State :=
  let s := publish s p
  let s := (partOf s p).post.foldl (fun s e => performPost s p e) s
  modPart s p (fun x => { x with post := [], phn := x.phn + 1, phAcpt := 0, phCmpl := 0 })

/-- Step 6: commits that waited, and engine stores that waited (R189). -/
def performHeld (s : State) (p : Nat) : State :=
  let s := ((partOf s p).graphs.filter (fun e => e.2.run = .heldCommit)).foldl (fun s e => commitOrClash s p e.1 e.2) s
  { s with engines := s.engines.map (fun r => if r.part = p then { r with blocked := false } else r) }

/-- Stirrup lanes of a graph that goes are free. -/
def dropLanes (s : State) (p slot : Nat) : State := { s with stir := s.stir.filter (fun e => e.2.owner ≠ some (p, slot)) }

/-- Is a demand on the slot outstanding? -/
def slotBusy (s : State) (p slot : Nat) : Bool := !(liveOn (partOf s p) slot).isEmpty

/-- A RECONFIGURATION: the units of the old graph leave their slots, the new graph takes its place, and every live demand that has been accepted
on the slot since the load was checked is planned again for it; the graph is armed, as an idle one is (R59, R105; log entry 83). -/
def replaceGraph (s : State) (p : Nat) (l : Load) : State :=
  let before := releasedAccs (partOf s p)
  let old := (graphOf s p l.slot).elim [] opxs
  let s := putPart s p (old.foldl (fun x o => disarm x l.slot o) (partOf s p))
  let s := installLoad (dropLanes s p l.slot) p l
  match graphOf s p l.slot with
  | none => s
  | some g =>
    let s := putPart s p (carryOver (histFrontier s p g) (partOf s p) l.slot)
    armReleased (armIdle s p l.slot) p before

/-- The reconfigurations that this boundary performs (R59). A token does not pass while an engine command of the partition is incomplete,
as one is that a held commit has released, or whose store waited for this boundary: the loads wait for the next one (R196). -/
def installLoads (s : State) (p : Nat) : State :=
  let x := partOf s p
  let due := x.loading.filter (fun l => l.phn ≤ x.phn.toNat)
  if due.isEmpty then s
  else if s.engines.any (fun r => r.part = p) then askBoundary s p
  else
    let s := due.foldl (fun s l => replaceGraph s p l) s
    modPart s p (fun x => { x with loading := x.loading.filter (fun l => !due.contains l) })

/-- May the slice end here: it has expired, nothing is in flight, the engines have drained, the version store is empty (R137)? -/
def mayEndSlice (s : State) (p : Nat) : Bool :=
  let x := partOf s p
  x.slices && x.graphs.all (fun e => e.2.idle || e.2.run = .ready || e.2.run = .idle) && x.loading.isEmpty
    && s.engines.all (fun r => r.part ≠ p) && s.pend.all (fun e => e.2.part ≠ p)

/-- An expired slice ends at this boundary: the save follows; or the next boundary is asked for (R80). An expiry that has come after step 1
waits for the boundary that it has asked for (R183). A partition that slices no longer has none to end. -/
def endSlice (s : State) (p : Nat) : State :=
  if !(partOf s p).sliceExp || (partOf s p).phn.toNat < (partOf s p).sliceAt then s
  else if !(partOf s p).slices then modPart s p (fun x => { x with sliceExp := false })
  else if mayEndSlice s p then modPart s p (fun x => { x with switching := .save })
  else askBoundary s p

/-- THE PHASE BOUNDARY. Its first step stops start pulses; it waits until all has settled; then the ending phase is published, the
phase record advances, what was held is performed, the slice may end, which takes a save and a restore, and start pulses resume. -/
def execPhaseBoundary (part : BitVec 6) (s : State) : Host.Outcome State Fault Refusal :=
  .next (
    let p := part.toNat
    let x := partOf s p
    let pulses (s : State) : State := modPart s p (fun x => { x with bndStarted := x.switching ≠ .none })
    if s.hitch || x.resetting || !(x.bndReq || x.bndStarted) then s
    else if x.switching = .save then saveSlice s p
    else if x.switching = .restore then pulses (restoreSlice s p)
    else
      let s := if x.bndStarted then s else putPart s p { x with bndStarted := true, bndReq := false }
      if !boundaryReady s p then s
      else
        pulses (endSlice (installLoads (performHeld (publishPhase s p) p) p) p))

/-! ### Time slices (R80, R131) -/

/-- The slice has run its length: a phase boundary is asked for (R80, R183). -/
def execSliceExpiry (part : BitVec 6) (s : State) : Host.Outcome State Fault Refusal :=
  .next (modPart s part.toNat (fun x =>
    if x.slices && x.slice * 1048576 ≤ x.sliceRun && !x.sliceExp then
      { x with sliceExp := true, sliceAt := nextPhn x, grace := 0, bndReq := true } else x))

/-- No boundary within GRACE: DEADLINE 4, and a boundary is forced at the next round boundary; no demand is cancelled. -/
def execGraceExpiry (part : BitVec 6) (s : State) : Host.Outcome State Fault Refusal :=
  .next (
    let p := part.toNat
    let x := partOf s p
    if !x.sliceExp || x.graceLimit = 0 || x.grace < x.graceLimit * 1024 then s
    else
      let f : FaultInfo := { cls := cDeadline, detail := 4, info := BitVec.ofNat 64 (x.graceLimit * 1024), lane := none }
      let r := { plainReport x 0 f 0 0 0 6 with stream := 0 }
      askBoundary (queueReport s p true r) p)

/-! ### The reset of a partition (R79) -/

/-- Step 2: the engines stop; ABORT goes out for every collective operation that is outstanding, and contributions to others that waited for the
places of these are read (R43). -/
def stopEngines (s : State) (p : Nat) : State :=
  let mine := s.engines.filter (fun r => r.part = p)
  let s := { s with engines := s.engines.filter (fun r => r.part ≠ p) }
  let s := (mine.filterMap (fun r => if r.fin then none else r.cmd.coll)).foldl (fun s c => abortOp s c.1 c.2 none) s
  drainBuffers ((mine.filterMap (fun r => if r.fin then r.cmd.coll else none)).foldl (fun s c => dropOp s c.1 c.2) s)

/-- The L2 lines that lie in a partition's slices: slice i of a die is that of its i-th core (R73, R144). -/
def partLines (s : State) (p : Nat) : List Nat :=
  (s.l2.filter (fun e => bit (partOf s p).cores (16 * e.2.die + sliceOf s (e.1 / 256) e.1))).map (·.1)

/-- A sector returns to its published value: what an eviction of its pending contents has marked as elided is so no more, unless it is all
zero (R79, R158). -/
def unElide (s : State) (k : Nat) : State :=
  if ((upTo 64).all (fun i => readB s.mem (64 * k + i) = 0)) then s
  else { s with mdt := tset 0 s.mdt (k / 4) (tget 0 s.mdt (k / 4) &&& ~~~(BitVec.ofNat 4 (2 ^ (k % 4)))), stale := terase s.stale k }

/-- Step 3: sectors written in the phase return to their phase-start versions; other dirty lines are written back. -/
def rollBack (s : State) (p : Nat) : State :=
  let s := (s.pend.filter (fun e => e.2.part = p)).foldl (fun s e => unElide s e.1) s
  let s := modPart { s with pend := s.pend.filter (fun e => e.2.part ≠ p) } p (fun x => { x with verUsed := [] })
  (partLines s p).foldl (fun s l => writeBack s l) s

/-- A block's mapping goes, hot or cold. -/
def unmapBlock (s : State) (vf q : Nat) (x : Seq) (b : Nat) : State :=
  if x.hot then
    (match pomFind s vf q b with
     | some e => decCount (pomErase s vf q b) e.base.toNat
     | none => s)
  else
    let w := read64 s.mem (x.ctbase + 8 * b)
    if bit w 63 then decCount { s with mem := write64 s.mem (x.ctbase + 8 * b) 0 } (bitsN w 0 32) else s

/-- Lower a count `n` times. -/
def decCounts (base : Nat) : Nat → State → State
  | 0, s => s
  | n + 1, s => decCounts base n (decCount s base)

/-- Step 4: every mapping of the partition's sequences and every pin that it took are released; the frames of cold tables are free. -/
def releaseAll (s : State) (p : Nat) : State :=
  let x := partOf s p
  let s := x.seqs.foldl (fun s e =>
    let s := if e.2.v then (upTo (blocksOf e.2.f)).foldl (fun s b => unmapBlock s x.vf e.1 e.2 b) s else s
    if e.2.ctlen = 0 then s else freeFrames s (e.2.ctbase / 65536) e.2.ctlen) s
  x.pins.foldl (fun s e => decCounts e.1 e.2 s) s

/-- Step 5: hide, tiles, banks, lofts and registers are zero, every slot is empty, every demand cancelled. -/
def zeroPart (s : State) (p : Nat) : State :=
  let cores := (partOf s p).coreList
  let s := zeroHide (modCores s cores zeroCore) p
  let s := { s with
    stir := s.stir.filter (fun e => !e.2.of p), xfBuf := s.xfBuf.filter (fun e => !cores.contains e.1)
    tlb := Vector.ofFn (fun d => s.tlb[d].filter (fun e => e.part ≠ p)) }
  modPart s p (fun x => { bareSlots x with loading := [], bndReq := false, bndStarted := false })

/-- Step 6: every stream of the bound VF enters HALT at its packet, and a RESET event is written. -/
def haltStreams (s : State) (vf : Nat) : State :=
  modVf s vf (fun v => { v with
    streams := Vector.ofFn (fun i =>
      { v.streams[i] with state := .halt, reason := 0, stage := 0, target := 0, sent := [], lastDemand := none }) })

def resetEvent (p : Nat) : Event :=
  { code := 0, tag := 0, stream := 0, type := 0x07, w1 := BitVec.ofNat 64 p, w2 := 0, w3 := 0, irq := true }

/-- THE RESET OF A PARTITION, in the order of R79. -/
def resetPart (s : State) (p : Nat) : State :=
  let x := partOf s p
  let s := dropLoads s x.coreList
  let s := passTokens (zeroPart (releaseAll (rollBack (stopEngines (discardSaved s p) p) p) p) p) x.coreList
  let s := if x.bound then postEvent (haltStreams s x.vf) x.vf (resetEvent p) else s
  modPart s p (fun x => { x with resetting := false })

/-- HARD with DETAIL 2: an uncorrectable error in a structure of the partition, which INFO names (R130, R135). -/
def structureReport (x : Part) (w : DWord) : Report :=
  plainReport x 0 { cls := cHard, detail := 2, info := w, lane := none } (x.coreList.headD 0) 0 0 0

/-- A HARD fault resets its partition: one that has been reported before; the error of a tile, loft, bank, hide bank, list or table that
`o.hard` names is reported first, and the reset follows, unless that report has stopped the clocks (R79, R89, R135). -/
def execPartitionReset (o : ResetOrder) (s : State) : Host.Outcome State Fault Refusal :=
  .next (
    let p := o.part.toNat
    match o.hard with
    | none => if (partOf s p).resetting then resetPart s p else s
    | some w =>
      if s.hitch || !(partOf s p).v then s else hardFault s p (structureReport (partOf s p) w))

end Sys2Proof.Machine
end

