-- ==== Sys2Proof/Machine/Packets.lean ====
section
/-! DEFINITION. The packets of a command stream (R55 to R65): what each waits for, does and completes with; rejection; timeouts;
the event ring (R66 to R68). -/

namespace Sys2Proof.Machine

/-! ### The stream that executes -/

def curStream (s : State) : Stream := streamOf s s.cur.vf s.cur.stream

def modCurStream (s : State) (f : Stream → Stream) : State := modStream s s.cur.vf s.cur.stream f

/-- Bytes of the ring (R53). -/
def Stream.ring (q : Stream) : Nat := 2 ^ q.log2

/-- The front end goes on at a packet, or waits in IDLE where none is written (R55). -/
def Stream.goTo (q : Stream) (rp : Nat) : Stream :=
  let rp := rp % q.ring
  { q with rp := rp, stage := 0, target := 0, state := if rp = q.wp then .idle else .run }

/-- The die that stands for a partition in capture units: that of its lowest core. -/
def partDie (s : State) (p : Nat) : Nat := dieOf ((partOf s p).coreList.headD 0)

/-- The latency of a packet that has completed is measured (R88). -/
def packetDone (s : State) : State :=
  match runningPart s s.cur.vf with
  | some p => sampleLatency s (partDie s p) 0x08 p
  | none => s

/-- The packet has completed (R55, R57). -/
def finishPacket (s : State) : State := packetDone (modCurStream s (fun q => q.goTo (q.rp + 32)))

/-- The packet waits. -/
def waitPacket (s : State) : State := modCurStream s (fun q => { q with state := .wait })

/-- An event that a packet causes (R67). -/
def packetEvent (s : State) (type : BitVec 8) (tag : BitVec 16) (code : Word) (w1 w2 w3 : DWord) (irq : Bool) : State :=
  postEvent s s.cur.vf { code := code, tag := tag, stream := BitVec.ofNat 3 s.cur.stream.val, type := type, w1 := w1, w2 := w2, w3 := w3, irq := irq }

/-- The stream enters HALT with RP at the packet. -/
def haltStream (s : State) : State := modCurStream s (fun q => { q with state := .halt, stage := 0, target := 0 })

def rpWord (s : State) : DWord := BitVec.ofNat 64 (curStream s).rp

/-- May the ring take an entry (R68)? -/
def ringRoom (v : Vf) : Bool := v.evEn && (v.evHead + 32) % 2 ^ v.evLog2 ≠ v.evTail

/-- Can an event of the VF be written at once? -/
def ringFree (v : Vf) : Bool := v.evWait.isEmpty && ringRoom v

/-- An event is posted and the stream halts; where the event cannot be written at once, the front end waits for it first: stage 4 (R68). -/
def haltWith (s : State) (post : State → State) : State :=
  if ringFree (vfOf s s.cur.vf) then haltStream (post s) else waitPacket (modCurStream (post s) (fun q => { q with stage := 4 }))

/-- Does an event that a stream's packet has caused still wait to be written: REJECT, REFUSE or TIMEOUT? -/
def haltEventWaits (v : Vf) (n : Fin 8) : Bool :=
  v.evWait.any (fun e => e.stream.toNat = n.val && (e.type = 0x03 || e.type = 0x04 || e.type = 0x05))

/-- A stream at stage 4 halts once its event has been written. -/
def haltWritten (s : State) : State := if haltEventWaits (vfOf s s.cur.vf) s.cur.stream then waitPacket s else haltStream s

/-- A REJECTED PACKET does nothing but this (R65, R68). -/
def rejectPacket (reason : Nat) (tag : BitVec 16) (s : State) : State :=
  let s := haltWith s (fun s => packetEvent s 0x03 tag (BitVec.ofNat 32 reason) (rpWord s) 0 0 true)
  modCurStream s (fun q => { q with reason := BitVec.ofNat 8 reason })

/-- A packet of a VF that runs on a partition; the packets of a suspended VF are held (R81). -/
def pktGo (s : State) (f : Nat → State → State) : State :=
  match runningPart s s.cur.vf with
  | some p => f p s
  | none => s

/-! ### WHEN (R58) -/

/-- Live demands that were accepted from the stream. -/
def streamLive (s : State) (p : Nat) : List Demand :=
  let q := curStream s
  ((partOf s p).demands.filter (fun e => e.2.live && q.sent.contains e.2.acc)).map (·.2)

/-- Wait for the first boundary that begins from now on. -/
def toBoundary (s : State) (p stage : Nat) : State :=
  let t := nextPhn (partOf s p)
  waitPacket (modCurStream (askBoundary s p) (fun q => { q with stage := stage, target := t }))

/-- Has the boundary that the packet waits for occurred? -/
def boundaryPassed (s : State) (p : Nat) : Bool := (curStream s).target ≤ (partOf s p).phn.toNat

/-- The packet still waits for its boundary, which stays asked for. -/
def pollBoundary (s : State) (p : Nat) : State :=
  waitPacket (if (partOf s p).bndReq || (partOf s p).bndStarted then s else askBoundary s p)

/-- The WHEN condition: whether it holds, and the state in which the packet waits when it does not. -/
def whenGate (wh : BitVec 2) (p : Nat) (s : State) : Bool × State :=
  let q := curStream s
  if 2 ≤ q.stage then (true, s)
  else match wh.toNat with
    | 0 => (true, s)
    | 1 => ((streamLive s p).all (·.trig), waitPacket s)
    | 2 => ((streamLive s p).isEmpty, waitPacket s)
    | _ =>
      if q.stage = 0 then (false, if (streamLive s p).isEmpty then toBoundary s p 1 else waitPacket s)
      else (boundaryPassed s p, pollBoundary s p)

/-- Do something once the WHEN condition holds. -/
def whenGo (wh : BitVec 2) (p : Nat) (s : State) (f : State → State) : State :=
  let g := whenGate wh p s
  if g.1 then f s else g.2

/-- Then a boundary must follow (R62): stage 2 waits for it. -/
def thenBoundary (p : Nat) (s : State) (f : State → State) : State :=
  if (curStream s).stage < 2 then toBoundary s p 2
  else if (curStream s).stage = 2 && !boundaryPassed s p then pollBoundary s p
  else f s

/-- Then an event is written, and with it the packet completes (R57, R68): stage 3 waits for it. -/
def thenEvent (type : BitVec 8) (s : State) (post : State → State) : State :=
  if (curStream s).stage < 3 then waitPacket (modCurStream (post s) (fun q => { q with stage := 3 }))
  else if (vfOf s s.cur.vf).evWait.any (fun e => e.type = type && e.stream.toNat = s.cur.stream.val && !e.att) then waitPacket s
  else finishPacket s

/-! ### NOP, LOADG (R59) -/

def execNop (_tag : BitVec 16) (s : State) : Host.Outcome State Fault Refusal := .next (finishPacket s)

/-- Are the image's frames the VF's (R59, R65)? -/
def imageOwned (s : State) (vf image len : Nat) : Bool :=
  (upFrom (ceilDiv len 65536) (image / 65536)).all (fun f => let d := frameDesc s f; d.v && d.owner = vf)

/-- Digest bytes, in the order that they are hashed again. -/
def digestBytes (d : BitVec 384) : List Byte := leOf 48 d.toNat

/-- The image chain after an accepted image (R72). -/
def chainNext (m : BitVec 384) (image : List Byte) : BitVec 384 := Config.sha384 (digestBytes m ++ digestBytes (Config.sha384 image))

/-- An accepted image waits for its reconfiguration (R59). -/
def acceptLoad (s : State) (p : Nat) (slot origin image : Nat) (bytes : List Byte) (g : Img) : State :=
  let t := nextPhn (partOf s p)
  let l : Load := { slot := slot, origin := origin, image := bytes, addr := image, stream := s.cur.stream.val, phn := t, recs := recAreas g }
  let s := modVf s s.cur.vf (fun v => { v with chain := chainNext v.chain bytes })
  let s := modPart s p (fun x => { x with loads := x.loads + 1, loading := x.loading ++ [l] })
  toBoundary s p 1

/-- A refused image: REFUSE, and the stream halts at the LOADG (R59, R272). -/
def refuseLoad (s : State) (tag : BitVec 16) (image : Nat) (e : LErr) : State :=
  haltWith s (fun s => packetEvent s 0x04 tag e.code (BitVec.ofNat 64 image) e.place e.word true)

/-- The slot is emptied once its graph is idle and its commands are done (R59, R196). It loads no image, so neither the image chain nor the
LOADG count of R72 counts it: DEDUCED (log entry 83). -/
def emptyGo (s : State) (p slot : Nat) : State :=
  if (graphOf s p slot).elim true (fun g => g.run = .idle) && s.engines.all (fun r => !(r.part = p && r.slot = slot)) then
    finishPacket (emptySlot (dropLanes s p slot) p slot)
  else waitPacket s

/-- The image is read, as published, and checked (R59 steps 2 to 5, R198). Its bytes are those that the frames hold, whatever their STATE and
POISON: DESIGN CHOICE (log entry 83). -/
def loadGo (s : State) (tag : BitVec 16) (p slot origin image len : Nat) : State :=
  let bytes := readBytes s.mem image len
  match acceptImage s p s.cur.vf slot origin bytes with
  | .error e => refuseLoad s tag image e
  | .ok _ =>
    let g := parseImg (bytes.take (bytes.length - trailerLen))
    if recMoves s g then waitPacket s else acceptLoad s p slot origin image bytes g

def execLoadg (tag : BitVec 16) (slot origin : BitVec 6) (image : BitVec 48) (length : Word) (s : State) :
    Host.Outcome State Fault Refusal :=
  .next (pktGo s (fun p s =>
    let im := image.toNat
    let len := length.toNat
    if (curStream s).stage = 1 then
      (if (partOf s p).loading.any (fun l => l.stream = s.cur.stream.val) then pollBoundary s p else finishPacket s)
    else if len ≠ 0 && (im % 65536 ≠ 0 || !imageOwned s s.cur.vf im len) then rejectPacket 4 tag s
    else if slotBusy s p slot.toNat then waitPacket s
    else if len = 0 then emptyGo s p slot.toNat
    else loadGo s tag p slot.toNat origin.toNat im len))

/-! ### DEMAND (R60) -/

/-- The record of a stream's demand (R94). -/
def streamRecord (n : Nat) (dnum : Word) : Nat := 128 * n + dnum.toNat % 128

def execDemand (tag : BitVec 16) (slot sink : BitVec 6) (dep : BitVec 2) (rel : Bool) (a b : BitVec 48) (stride : Word) (s : State) :
    Host.Outcome State Fault Refusal :=
  .next (pktGo s (fun p s =>
    let x := partOf s p
    let q := curStream s
    let k := streamRecord s.cur.stream.val q.dnum
    if dep = 3 then rejectPacket 1 tag s
    else if stride = 0 || !askNames x slot.toNat sink.toNat then rejectPacket 3 tag s
    else if (tfind x.demands k).elim false (·.live) then waitPacket s
    else
      let ask : Ask := { slot := slot.toNat, sink := sink.toNat, rel := rel, a := a.toNat, b := b.toNat, stride := stride.toNat
                         prio := q.prio, vf := s.cur.vf, stream := s.cur.stream.val, dnum := q.dnum, dep := dep, prev := q.lastDemand }
      let live := (streamLive s p).map (·.acc)
      let s := acceptDemand s p k ask
      finishPacket (modCurStream s (fun q => { q with dnum := q.dnum + 1, lastDemand := some x.nextAcc, sent := live ++ [x.nextAcc] }))))

/-! ### WAITS, SIGNAL, BRANCH (R61, R63) -/

/-- An access of a front end asks the bank, in the class of its stream (R61, R82; log entry 28). -/
def frontAsk (s : State) (p off : Nat) : State := hideRequest s p off (curStream s).prio hostPort

def waitHolds (c : WCond) (w v : DWord) : Bool :=
  match c with
  | .ge => v.toNat ≤ w.toNat
  | .eq => w = v
  | .ne => w ≠ v

def execWaits (tag : BitVec 16) (cond : WCond) (_timeout : BitVec 16) (off : BitVec 24) (value : DWord) (s : State) :
    Host.Outcome State Fault Refusal :=
  .next (pktGo s (fun p s =>
    if (partOf s p).hideSize ≤ off.toNat then rejectPacket 4 tag s
    else if waitHolds cond (hideRead s p off.toNat) value then finishPacket (frontAsk s p off.toNat)
    else waitPacket s))

def execSignal (tag : BitVec 16) (op : SemOp) (wh : BitVec 2) (off : BitVec 24) (value : DWord) (s : State) :
    Host.Outcome State Fault Refusal :=
  .next (pktGo s (fun p s =>
    if (partOf s p).hideSize ≤ off.toNat || hideProtected s p off.toNat then rejectPacket 4 tag s
    else whenGo wh p s (fun s => finishPacket (performHide (frontAsk s p off.toNat) p off.toNat (.sem op value)))))

/-- Is an offset strictly between RP and WP in ring order (R63)? -/
def aheadInRing (q : Stream) (target : Nat) : Bool :=
  let d := (target + q.ring - q.rp) % q.ring
  let w := (q.wp + q.ring - q.rp) % q.ring
  0 < d && d < w

/-- The target of a branch. -/
def branchTarget (q : Stream) (disp : Word) : Nat := (((q.rp : Int) + 32 * disp.toInt) % (q.ring : Int)).toNat

/-- The branch is decided: `eat` clears V in the same operation as the read. Of a word that signals may not write it clears what is stored: DESIGN
CHOICE (log entry 89). -/
def branchGo (tag : BitVec 16) (taken : Bool) (disp : Word) (eat : State → State) (s : State) : State :=
  let q := curStream s
  let t := branchTarget q disp
  if !taken then finishPacket (eat s)
  else if 0 < disp.toInt && !aheadInRing q t then rejectPacket 5 tag s
  else packetDone (modCurStream (eat s) (fun q => q.goTo t))

def execBranch (tag : BitVec 16) (cond : Cond) (consume : Bool) (_timeout : BitVec 16) (off : BitVec 24) (value mask disp : Word) (s : State) :
    Host.Outcome State Fault Refusal :=
  .next (pktGo s (fun p s =>
    let w := hideRead s p off.toNat
    if disp = 0 then rejectPacket 3 tag s
    else if (partOf s p).hideSize ≤ off.toNat then rejectPacket 4 tag s
    else if cond = .always then branchGo tag true disp (fun s => s) s
    else if !bit w 63 then waitPacket s
    else
      branchGo tag (condHolds cond (lowW w &&& mask) (value &&& mask)) disp
        (fun s => if consume then hideWrite s p off.toNat (setBits w 63 1 0) else s) (frontAsk s p off.toNat)))

/-! ### CANCEL, QUOTA (R64) -/

/-- The record of a live demand with a number, within a stream. -/
def demandNamed (x : Part) (vf n : Nat) (dnum : Word) : Option Nat :=
  let k := streamRecord n dnum
  match tfind x.demands k with
  | some d => if d.live && d.dnum = dnum && d.vf = vf then some k else none
  | none => none

def execCancel (_tag : BitVec 16) (level : CLevel) (slot : BitVec 6) (stream : Fin 8) (dnum : Word) (s : State) :
    Host.Outcome State Fault Refusal :=
  .next (pktGo s (fun p s =>
    let x := partOf s p
    finishPacket (match cancelOf x level (demandNamed x s.cur.vf stream.val dnum) slot.toNat s.cur.vf stream.val with
      | some c => postCancel s p c
      | none => s)))

def execQuota (tag : BitVec 16) (add : Bool) (value : Word) (s : State) : Host.Outcome State Fault Refusal :=
  .next (pktGo s (fun p s =>
    let n : Int := if add then ((partOf s p).quota : Int) + value.toInt else (value.toNat : Int)
    if n < 0 || ((vfOf s s.cur.vf).qceil.toNat : Int) < n then rejectPacket 6 tag s
    else finishPacket (releaseQuota (modPart (frontAsk s p (partOf s p).kvBase.toNat) p (fun x => { x with quota := n.toNat })) p)))

/-! ### PHASE, TIMESTAMP, FENCEH (R62) -/

def execPhase (_tag : BitVec 16) (wh : BitVec 2) (s : State) : Host.Outcome State Fault Refusal :=
  .next (pktGo s (fun p s => whenGo wh p s (fun s => thenBoundary p s finishPacket)))

/-- Idle cycles pass before the count is read (R2). They are the next free value of `State.free`, which nothing else reads (log entry 5). -/
def execTimestamp (tag : BitVec 16) (wh : BitVec 2) (s : State) : Host.Outcome State Fault Refusal :=
  .next (pktGo s (fun p s => whenGo wh p s (fun s => thenEvent 0x02 s (fun s =>
    let s := { s with fc := s.fc + Config.idleCycles s.free, free := s.free + 1 }
    packetEvent s 0x02 tag 0 (BitVec.ofNat 64 s.fc) 0 0 false))))

def execFenceh (tag : BitVec 16) (irq : Bool) (s : State) : Host.Outcome State Fault Refusal :=
  .next (pktGo s (fun p s => whenGo 3 p s (fun s => thenBoundary p s (fun s => thenEvent 0x01 s (fun s =>
    packetEvent s 0x01 tag 0 0 0 0 irq)))))

/-! ### Timeouts (R61, R63) -/

/-- Bytes of host memory. -/
def hostBytes (s : State) (a n : Nat) : List Byte := readBytes s.hostMem a n

/-- The four words of the packet at RP (R55, R57). -/
def packetWords (s : State) (vf : Nat) (n : Fin 8) : List DWord :=
  let q := streamOf s vf n
  (upTo 4).map (fun i => read64 s.hostMem (q.base.toNat + q.rp + 8 * i))

def packetAt (s : State) (vf : Nat) (n : Fin 8) : Dec Instr :=
  let w := packetWords s vf n
  decodePacket ((w.drop 0).headD 0) ((w.drop 1).headD 0) ((w.drop 2).headD 0) ((w.drop 3).headD 0)

/-- A timeout runs out on a stream that waits at a packet: TIMEOUT, and HALT at the packet (R61, R68). -/
def timeOut (s : State) (vf : Nat) (n : Fin 8) (op : Nat) (tag : BitVec 16) : State :=
  let s := { s with cur := { s.cur with vf := vf, stream := n } }
  haltWith s (fun s => packetEvent s 0x05 tag (BitVec.ofNat 32 op) (rpWord s) 0 0 true)

/-- Does the stream wait at a packet that has not ended with an event? -/
def streamWaits (s : State) (vf : Nat) (n : Fin 8) : Bool :=
  (streamOf s vf n).en && (streamOf s vf n).state = .wait && (streamOf s vf n).stage < 4

def execWaitsTimeout (vf : BitVec 8) (n : Fin 8) (s : State) : Host.Outcome State Fault Refusal :=
  .next (match packetAt s vf.toNat n with
    | .ok (.waits tag _ t _ _) => if streamWaits s vf.toNat n && t ≠ 0 then timeOut s vf.toNat n 0x03 tag else s
    | _ => s)

def execBranchTimeout (vf : BitVec 8) (n : Fin 8) (s : State) : Host.Outcome State Fault Refusal :=
  .next (match packetAt s vf.toNat n with
    | .ok (.branch tag _ _ t _ _ _ _) => if streamWaits s vf.toNat n && t ≠ 0 then timeOut s vf.toNat n 0x06 tag else s
    | _ => s)

/-! ### The event ring (R66 to R68) -/

/-- W0 of an event (R67). -/
def eventW0 (e : Event) (ph : Bool) : DWord := e.code ++ e.tag ++ (0 : BitVec 4) ++ e.stream ++ BitVec.ofBool ph ++ e.type

/-- Is the VF listed and not running (R81)? -/
def suspended (s : State) (vf : Nat) : Bool := (partOfVf s vf).isSome && (runningPart s vf).isNone

/-- May the oldest waiting event be written: the ring has room, and a suspended VF's ring receives what waited when it was suspended, no
more (R68, R81)? -/
def eventReady (s : State) (vf : Nat) : Bool :=
  let v := vfOf s vf
  !v.evWait.isEmpty && ringRoom v && (!suspended s vf || v.evLeft ≠ 0)

/-- The oldest waiting event is written when there is room; the VF's message follows where the ring asks for it. -/
def execEventWrite (vf : BitVec 8) (s : State) : Host.Outcome State Fault Refusal :=
  .next (
    let v := vfOf s vf.toNat
    match v.evWait with
    | [] => s
    | e :: rest =>
      if !eventReady s vf.toNat || s.hitch then s
      else
        let a := v.evBase.toNat + v.evHead
        let m := [eventW0 e v.evPh, e.w1, e.w2, e.w3]
        let h := ((upTo 4).zip m).foldl (fun h w => write64 h (a + 8 * w.1) w.2) s.hostMem
        let head := (v.evHead + 32) % 2 ^ v.evLog2
        let busy := v.attBusy && !e.att
        let s := putVf { s with hostMem := h } vf.toNat
          { v with evWait := rest, evLeft := v.evLeft - 1, evHead := head, evPh := if head = 0 then !v.evPh else v.evPh, attBusy := busy }
        if v.evIrq && e.irq then emit s (.msix vf.toNat) else s)

end Sys2Proof.Machine
end

