-- ==== Sys2Proof/Machine/Regs.lean ====
section
/-! DEFINITION. Registers: what a read returns (R6, R52 to R54, R66, R69, R70, R88, R134); writes: command streams (R52, R53), the event ring (R66), the VF's and the control complex's registers
(R6, R54, R76, R81, R86, R90, R94, R167, R168, R413), pacing (R19), capture units (R88), attestation (R72), function-level reset
(R65), key slots (R70). -/

namespace Sys2Proof.Machine

/-! ### Reads (R6): WO and RSV fields read 0 -/

/-- The registers of a command stream, by offset (R53). -/
def sqRead (q : Stream) (off : Nat) : DWord :=
  match off with
  | 0x00 => q.base
  | 0x08 => BitVec.ofNat 64 q.log2
  | 0x10 => BitVec.ofNat 64 q.wp
  | 0x18 => BitVec.ofNat 64 q.rp
  | 0x20 => BitVec.ofNat 64 (q.prio.toNat * 2 ^ 6 + (if q.en then 1 else 0))
  | 0x28 =>
    let st : Nat := match q.state with
      | .off => 0
      | .idle => 1
      | .run => 2
      | .wait => 3
      | .halt => 4
    BitVec.ofNat 64 (q.dnum.toNat * 2 ^ 32 + q.reason.toNat * 2 ^ 8 + st)
  | _ => 0

/-- The event-ring registers, from 0x1000 on (R66). -/
def evRead (v : Vf) (off : Nat) : DWord :=
  match off with
  | 0x00 => v.evBase
  | 0x08 => BitVec.ofNat 64 v.evLog2
  | 0x10 => BitVec.ofNat 64 v.evHead
  | 0x18 => BitVec.ofNat 64 v.evTail
  | 0x20 => BitVec.ofNat 64 ((if v.evIrq then 2 else 0) + (if v.evEn then 1 else 0))
  | _ => 0

/-- VF_INFO: BOUND and PART tell where the VF is bound now (R54). -/
def vfInfoRead (s : State) (vf : Nat) : DWord :=
  let v := vfOf s vf
  BitVec.ofNat 64 (v.qceil.toNat * 2 ^ 32 + v.minprio.toNat * 2 ^ 30 + (partOfVf s vf).elim 0 (fun p => 64 + p % 64))

/-- The word of a key slot: [0] loaded, [63:32] the first four bytes of its Ed25519 key (R70). -/
def keySlotWord (k : KeySlot) : DWord := if k.loaded then BitVec.ofNat 64 (k.ed.toNat % 2 ^ 32 * 2 ^ 32 + 1) else 0

/-- The records of the capability list: identifier and body. DEVICE is there from reset, the others appear when STATUS becomes 1 (R70). -/
def capRecords (s : State) (vf : Nat) : List (Nat × List DWord) :=
  let v := vfOf s vf
  (1, [Config.partCode ++ s.status.zeroExtend 32]) ::
    (if s.status ≠ 1 then []
     else [(2, [BitVec.ofNat 64 Config.clockHz]), (3, v.keys.toList.map keySlotWord), (4, [v.nonceAddr, v.reportAddr, Config.certAddr, 0])])

/-- The words of the list from a BAR offset on: each record behind the one before it, at VER 1 (R69; log entry 78). -/
def capWords : Nat → List (Nat × List DWord) → List DWord
  | _, [] => []
  | off, (id, body) :: r =>
    let len := 8 * (body.length + 1)
    BitVec.ofNat 64 ((if r.isEmpty then 0 else off + len) * 2 ^ 48 + len * 2 ^ 32 + 2 ^ 16 + id) :: body ++ capWords (off + len) r

/-- A READ OF A WORD OF A VF'S BAR, by the VF or by the physical function through its own window (R52). -/
def barRead (s : State) (vf off : Nat) : DWord :=
  if off < 0x200 then sqRead (streamOf s vf (Fin.ofNat 8 (off / 0x40))) (off % 0x40)
  else if off < 0x1000 then 0
  else if off < 0x1028 then evRead (vfOf s vf) (off - 0x1000)
  else if off = 0x2000 then vfInfoRead s vf
  else if off < 0x8000 then 0
  else if off % 8 = 0 then ((capWords 0x8000 (capRecords s vf)).drop ((off - 0x8000) / 8)).headD 0
  else 0

/-- The byte that stands `i` bytes after CERT_ADDR (R72). -/
def certRead (i : Nat) : Byte := (Config.certificates.drop i).headD 0

/-- A read of a register of the physical function or the control complex; of one that has a BAR offset, the word there. The share-domain sets
and the prefix descriptors are no registers of the manual: they read 0 (log entry 21). -/
def readReg (s : State) (r : Reg) : DWord :=
  match r with
  | .sqBase vf n => barRead s vf.toNat (0x40 * n.val)
  | .sqSize vf n => barRead s vf.toNat (0x40 * n.val + 0x08)
  | .sqRp vf n => barRead s vf.toNat (0x40 * n.val + 0x18)
  | .sqStat vf n => barRead s vf.toNat (0x40 * n.val + 0x28)
  | .evBase vf => barRead s vf.toNat 0x1000
  | .evSize vf => barRead s vf.toNat 0x1008
  | .evHead vf => barRead s vf.toNat 0x1010
  | .evCtl vf => barRead s vf.toNat 0x1020
  | .vfInfo vf | .vfInfoOwn vf => barRead s vf.toNat 0x2000
  | .nonceAddr vf => (vfOf s vf.toNat).nonceAddr
  | .reportAddr vf => (vfOf s vf.toNat).reportAddr
  | .certAddr _ => Config.certAddr
  | .unlisted _ _ => 0
  | .kvCfg vf => (vfOf s vf.toNat).kvCfg
  | .shareDomains _ | .prefixDesc _ _ _ _ => 0
  | .reinBase p => (partOf s p.toNat).reinBase.zeroExtend 64
  | .kvBase p => (partOf s p.toNat).kvBase.zeroExtend 64
  | .olim die vf => BitVec.ofNat 64 (tget 0x200000 s.olim (die.val * 256 + vf.toNat))
  | .hitchArm => s.hitchArm
  | .capCtl die unit => (capOf s (capKey die.val unit.val)).ctl
  | .collTimeout => s.collTimeout
  | .brken c => if (coreOf s c).brken then 1 else 0

/-- A read of a partition's registers (R76, R81), and of PACE_CTL (R18). -/
def partRead (s : State) (r : PartReg) (p : Nat) : DWord :=
  match r with
  | .cores => (partOf s p).cores
  | .slv => (partOf s p).slv
  | .ctl => (partOf s p).ctl

def paceRead (s : State) (p : Nat) : DWord := (partOf s p).paceNext

/-- The results of a capture unit: CAP_MIN, CAP_MAX, CAP_CNT, and the bins two by two (R88). -/
def capMinRead (c : Cap) : DWord := c.min

def capMaxRead (c : Cap) : DWord := c.max

def capCntRead (c : Cap) : DWord := c.cnt

def capHistRead (c : Cap) (h : Fin 16) : DWord := c.hist[Fin.ofNat 32 (2 * h.val + 1)] ++ c.hist[Fin.ofNat 32 (2 * h.val)]

/-- L2_OCC (R86). -/
def occRead (s : State) (die owner : Nat) : DWord := BitVec.ofNat 64 (occupancy s die owner)

/-- FDT_COUNT (R143). -/
def fdtRead (s : State) : DWord := BitVec.ofNat 64 s.fdtCount

/-- An entry of the group table: its reserved bits were written as 0 (R39). -/
def groupRead (s : State) (g : BitVec 10) : DWord := groupOf s g.toNat

/-- RESCNT of an element (R134). -/
def resCntRead (s : State) (c : Fin 64) (e : Fin 96) : DWord := resCnt (elemOf (coreOf s c) e)

/-! ### Command streams (R53) -/

/-- WP is written: its low bits read 0, and it is reduced modulo the ring (R53); an idle front end goes on (R55). -/
def execSqWpWrite (vf : BitVec 8) (n : Fin 8) (val : DWord) (s : State) : Host.Outcome State Fault Refusal :=
  .next (modStream s vf.toNat n (fun q =>
    let wp := bitsN val 5 19 * 32 % q.ring
    let q := { q with wp := wp }
    if q.en && (q.state = .idle || q.state = .run) then { q with state := if q.rp = wp then .idle else .run } else q))

/-- PRIO of a write to SQ_CTL: a value below MINPRIO reads back as MINPRIO (R53). -/
def prioOf (v : Vf) (val : DWord) : BitVec 2 :=
  let p := bitsN val 6 2
  BitVec.ofNat 2 (if p < v.minprio.toNat then v.minprio.toNat else p)

/-- A write of EN = 1, with PRIO: the streams of a VF that is not bound stay disabled (R51). One that a reset of its partition has halted stays
in HALT (R79). -/
def enableStream (s : State) (v : Nat) (n : Fin 8) (val : DWord) : State :=
  let pr := prioOf (vfOf s v) val
  modStream s v n (fun q =>
    let q := { q with prio := pr }
    if q.en || (partOfVf s v).isNone then q
    else { q with en := true, state := if q.state = .halt then .halt else if q.rp = q.wp then .idle else .run, stage := 0 })

def execSqEnable (vf : BitVec 8) (n : Fin 8) (val : DWord) (s : State) : Host.Outcome State Fault Refusal :=
  .next (enableStream s vf.toNat n val)

/-- The job record of a stream is cleared: demands that were accepted before count in it no more (R95). -/
def clearJob (jobs : Table Job) (n nextAcc : Nat) : Table Job := tput jobs n { Job.reset with since := nextAcc }

/-- Do something to the saved context of a VF, wherever one is. -/
def modSaved (s : State) (v : Nat) (f : Context → Context) : State :=
  { s with parts := s.parts.map (fun e => (e.1, { e.2 with saved := e.2.saved.map (fun c => if c.vf = v then f c else c) })) }

/-- A stream is disabled: a packet that waits is abandoned; RP and DNUM return to 0 unless the stream is in HALT; its job record is
cleared, in the saved context of a suspended VF too (R53, R65, R95). The demands that were accepted from it go on (R65), and count as its
earlier ones for WHEN and DEP of its later packets (R58, R60). -/
def disableStream (s : State) (v : Nat) (n : Fin 8) : State :=
  let s := (runningPart s v).elim s (fun p => modPart s p (fun x =>
    { x with jobs := clearJob x.jobs n.val x.nextAcc, loading := x.loading.filter (fun l => l.stream ≠ n.val) }))
  let s := modSaved s v (fun c => { c with jobs := clearJob c.jobs n.val c.nextAcc })
  modStream s v n (fun q =>
    let q := if q.state = .halt then q else { q with rp := 0, dnum := 0 }
    { q with en := false, state := .off, stage := 0, target := 0 })

/-- A write of EN = 0, with PRIO. -/
def stopStream (s : State) (v : Nat) (n : Fin 8) (val : DWord) : State :=
  let pr := prioOf (vfOf s v) val
  modStream (disableStream s v n) v n (fun q => { q with prio := pr })

def execSqDisable (vf : BitVec 8) (n : Fin 8) (val : DWord) (s : State) : Host.Outcome State Fault Refusal :=
  .next (stopStream s vf.toNat n val)

/-- A write with SKIP or RESUME, and with EN and PRIO as written: in HALT the stream goes on, by `go`. DESIGN CHOICE (log entry 82): a write that
clears EN disables the stream, and nothing goes on. -/
def leaveHalt (vf : BitVec 8) (w : SqCtlWrite) (go : Stream → Stream) (s : State) : State :=
  if bit w.val 0 then modStream (enableStream s vf.toNat w.n w.val) vf.toNat w.n (fun q => if q.en && q.state = .halt then go q else q)
  else stopStream s vf.toNat w.n w.val

def execSqSkip (vf : BitVec 8) (w : SqCtlWrite) (s : State) : Host.Outcome State Fault Refusal :=
  .next (leaveHalt vf w (fun q => q.goTo (q.rp + 32)) s)

def execSqResume (vf : BitVec 8) (w : SqCtlWrite) (s : State) : Host.Outcome State Fault Refusal :=
  .next (leaveHalt vf w (fun q => q.goTo q.rp) s)

/-- TAIL is written: entries before it are free (R66, R68). -/
def execEvTailWrite (vf : BitVec 8) (val : DWord) (s : State) : Host.Outcome State Fault Refusal :=
  .next (modVf s vf.toNat (fun v => { v with evTail := bitsN val 0 24 }))

/-! ### Plain registers (R6) -/

/-- LOG2 of a ring: a value outside its range reads back as 12 (R53, R66). -/
def ringLog2 (val : DWord) (top : Nat) : Nat :=
  let n := bitsN val 0 5
  if 12 ≤ n && n ≤ top then n else 12

/-- An address of 4 KiB alignment: bits [11:0] read 0. -/
def page4k (val : DWord) : DWord := setBits val 0 12 0

/-- A token for a range of frames, or for all: it passes at once every node whose graph has no round in flight (R155). -/
def issueToken (s : State) (all : Bool) (base count : Nat) : State :=
  let busy (c : Nat) : Bool := match (coreOf s (coreNo c)).owner with
    | none => false
    | some (p, slot) => match graphOf s p slot with
      | none => false
      | some g => g.inFlight && g.run ≠ .boundary
  passTokens { s with tokens := s.tokens ++ [{ all := all, base := base, count := count, left := upTo 64 }] } ((upTo 64).filter (fun c => !busy c))

/-- A VF's share-domain set gains or loses a domain; the change is followed by a token (R146, R157; log entry 21). -/
def writeDomains (s : State) (vf : Nat) (val : DWord) : State :=
  let d : BitVec 10 := BitVec.ofNat 10 (bitsN val 0 10)
  let l := (vfOf s vf).sdoms
  if d = 0 then s
  else if bit val 63 then
    (if l.contains d || 8 ≤ l.length then s else issueToken (modVf s vf (fun v => { v with sdoms := v.sdoms ++ [d] })) true 0 0)
  else issueToken (modVf s vf (fun v => { v with sdoms := v.sdoms.filter (fun x => x ≠ d) })) true 0 0

/-- KV_CFG is written while the VF is not bound; a domain must be one of the VF's (R167). -/
def writeKvCfg (s : State) (vf : Nat) (val : DWord) : State :=
  let d : BitVec 10 := BitVec.ofNat 10 (bitsN val 38 10)
  if (partOfVf s vf).isSome || !(d = 0 || (vfOf s vf).sdoms.contains d) then s
  else modVf s vf (fun v => { v with kvCfg := BitVec.ofNat 64 (bitsN val 32 16 * 2 ^ 32) })

/-- CAP_CTL is written with EN = 0: a window that runs stops; the results, DONE and ERR stay, and DONE is not set (R88). That it is so is DESIGN
CHOICE (log entry 84). -/
def capIdle (c : Cap) (val : DWord) : Cap :=
  { c with ctl := BitVec.ofNat 64 (bitsN c.ctl 61 2 * 2 ^ 61 + bitsN val 31 30 * 2 ^ 31), left := 0 }

/-- No stream of a VF uses a class more urgent than MINPRIO (R53, R54). -/
def raiseMin (v : Vf) : Vf :=
  { v with streams := Vector.ofFn (fun i =>
      let q := v.streams[i]
      if q.prio < v.minprio then { q with prio := v.minprio } else q) }

/-- A register without behaviour of its own: its RW fields are stored, the rest is ignored (R6). -/
def writeReg (s : State) (r : Reg) (val : DWord) : State :=
  match r with
  | .sqBase vf n => modStream s vf.toNat n (fun q => if q.en then q else { q with base := page4k val })
  | .sqSize vf n => modStream s vf.toNat n (fun q =>
      if q.en then q
      else
        let l := ringLog2 val 24
        { q with log2 := l, wp := q.wp % 2 ^ l, rp := q.rp % 2 ^ l })
  | .sqRp _ _ | .sqStat _ _ | .evHead _ | .certAddr _ | .unlisted _ _ | .vfInfoOwn _ => s
  | .evBase vf => modVf s vf.toNat (fun v => { v with evBase := page4k val })
  | .evSize vf => modVf s vf.toNat (fun v => { v with evLog2 := ringLog2 val 20 })
  | .evCtl vf => modVf s vf.toNat (fun v => { v with evEn := bit val 0, evIrq := bit val 1 })
  | .vfInfo vf => modVf s vf.toNat (fun v => raiseMin { v with qceil := highW val, minprio := BitVec.ofNat 2 (bitsN val 30 2) })
  | .nonceAddr vf => modVf s vf.toNat (fun v => { v with nonceAddr := val })
  | .reportAddr vf => modVf s vf.toNat (fun v => { v with reportAddr := val })
  | .kvCfg vf => writeKvCfg s vf.toNat val
  | .shareDomains vf => writeDomains s vf.toNat val
  | .reinBase p => modPart s p.toNat (fun x =>
      if val.toNat % 4096 = 0 && val.toNat + 4096 ≤ x.hideSize then { x with reinBase := BitVec.ofNat 24 val.toNat } else x)
  | .kvBase p => modPart s p.toNat (fun x =>
      if val.toNat % 65536 = 0 && val.toNat + 8256 ≤ x.hideSize then { x with kvBase := BitVec.ofNat 24 val.toNat } else x)
  | .olim die vf => { s with olim := tset 0x200000 s.olim (die.val * 256 + vf.toNat) (min (bitsN val 0 22) 0x200000) }
  | .hitchArm =>
    let s := { s with hitchArm := BitVec.ofNat 64 (bitsN val 11 52 * 2 ^ 11) }
    if bit val 63 then stopClocks s else s
  | .capCtl die unit => let k := capKey die.val unit.val; putCap s k (capIdle (capOf s k) val)
  | .prefixDesc dom p l salt =>
    if dom = 0 || l.toNat < 6 || 20 < l.toNat || val.toNat % 65536 ≠ 0 || (partOf s p.toNat).hideSize ≤ val.toNat then s
    else { s with prefixes := tput s.prefixes dom.toNat { part := p.toNat, base := val.toNat, log2e := l.toNat, salt := salt } }
  | .collTimeout => if 940000 ≤ val.toNat && val.toNat ≤ 9400000000 then { s with collTimeout := val } else s
  | .brken c => modCore s c (fun k => { k with brken := bit val 0 })

def execRegisterWrite (r : Reg) (val : DWord) (s : State) : Host.Outcome State Fault Refusal := .next (writeReg s r val)

/-- PACE_CTL is written; it takes effect at the partition's next round boundary (R18, R19). -/
def execPaceCtlWrite (part : BitVec 6) (val : DWord) (s : State) : Host.Outcome State Fault Refusal :=
  .next (modPart s part.toNat (fun x =>
    { x with paceNext := BitVec.ofNat 64 (bitsN val 16 12 * 2 ^ 16 + bitsN val 0 1) }))

/-! ### Partitions (R76, R81, R144, R413) -/

/-- Is the RESET event of a partition still to be written (R79)? -/
def resetPending (s : State) (p : Nat) : Bool :=
  (partOf s p).resetting || s.vfs.any (fun v => v.2.evWait.any (fun e => e.type = 0x07 && e.w1.toNat = p))

/-- Does a slice list, defined or not, name the VF of a window (R81, R413)? -/
def Part.lists (x : Part) (vf : Nat) : Bool := (upTo x.nslv).any (fun k => x.slvVf k = vf)

/-- Does a change bind no VF to two partitions, leave the VF of every open window where it is, and put it on no other slice list (R51, R81,
R413)? -/
def bindsOk (s t : State) : Bool :=
  s.windows.all (fun w => partOfVf t w.vf = partOfVf s w.vf
      && t.parts.all (fun e => !e.2.lists w.vf || partOfVf t w.vf = some e.1 || (partOf s e.1).lists w.vf))
    && t.parts.all (fun e => t.parts.all (fun f => e.1 = f.1 || !e.2.vfList.any (fun v => e.2.binds v && f.2.binds v)))

/-- Lines whose home a change alters are written back and invalidated before it takes effect (R144). -/
def rehome (s t : State) : State :=
  let moved := (s.l2.filter (fun e => homeSlices s (e.1 / 256) ≠ homeSlices t (e.1 / 256))).map (·.1)
  moved.foldl (fun s l => evictLine s l) s

/-- The LOADG packets of a VF that a change takes off its partition are abandoned there: what they loaded is not installed, and the packet
starts again if the VF comes back (R59, R65). -/
def dropLoading (s t : State) (v : Nat) : State :=
  match runningPart s v with
  | none => t
  | some p =>
    if runningPart t v = some p then t
    else
      let due := (partOf s p).loading.map (·.stream)
      modPart (modVf t v (fun x => { x with
        streams := Vector.ofFn (fun i => if due.contains i.val then { x.streams[i] with stage := 0, target := 0 } else x.streams[i]) })) p
        (fun x => { x with loading := [] })

/-- The streams of VFs that are bound no longer are disabled (R51); the demands of the partition that they leave count for them no more. -/
def dropUnbound (s t : State) : State :=
  (s.vfs.map (·.1)).foldl (fun t v =>
    let t := dropLoading s t v
    if (partOfVf s v).isSome && (partOfVf t v).isNone then
      (List.finRange 8).foldl (fun t n => modStream (disableStream t v n) v n (fun q => { q with lastDemand := none, sent := [] })) t
    else t) t

/-- A VF that a change suspends: its ring still receives what waits now (R81). -/
def noteSuspended (s t : State) : State :=
  { t with vfs := t.vfs.map (fun e =>
      (e.1, if suspended t e.1 && !suspended s e.1 then { e.2 with evLeft := e.2.evWait.length } else e.2)) }

/-- PART_CTL with its fields: NSLV above 8 reads back as 8. -/
def ctlWord (val : DWord) : DWord :=
  BitVec.ofNat 64 (bitsN val 63 1 * 2 ^ 63 + bitsN val 24 33 * 2 ^ 24 + min (bitsN val 9 4) 8 * 2 ^ 9 + bitsN val 0 9)

/-- The pommel allotment of a partition: 4 096 entries for each of its cores on the die of its lowest (R169; log entry 78). -/
def Part.allotment (x : Part) : Nat :=
  let cs := x.coreList
  4096 * (cs.filter (fun c => dieOf c = dieOf (cs.headD 0))).length

/-- The partition after a write to one of its registers, if the write is not ignored: a partition has at least one core (R73), and one that
slices no longer has no slice that has expired (R80). -/
def partWrite (x : Part) (r : PartReg) (val : DWord) : Option Part :=
  match r with
  | .cores => if x.v then none else let y := { x with cores := val }; some { y with pomAllot := y.allotment }
  | .slv => if x.v then none else some { x with slv := val }
  | .ctl =>
    let y := { x with ctl := ctlWord val }
    let y := if y.slices then y else { y with sliceExp := false, sliceAt := 0, grace := 0 }
    if y.v && y.coreList.isEmpty then none
    else some (if y.bound && (!x.bound || y.vf ≠ x.vf || !x.v) then { y with phn := 0, sliceRun := 0, sliceExp := false, sliceAt := 0, grace := 0 } else y)

/-- Do two partitions share a core (R73)? -/
def coresClash (s : State) (p : Nat) (x : Part) : Bool := s.parts.any (fun e => e.1 ≠ p && e.2.cores &&& x.cores ≠ 0)

/-- A write to PART_CTL, PART_CORES or PART_SLV. One that comes while a slice is being saved or restored waits for its end: DESIGN CHOICE (log
entry 79). -/
def execPartCtlWrite (r : PartReg) (part : BitVec 6) (val : DWord) (s : State) : Host.Outcome State Fault Refusal :=
  .next (
    let p := part.toNat
    match partWrite (partOf s p) r val with
    | none => s
    | some x =>
      let t := putPart s p x
      if (partOf s p).switching ≠ .none then addTask s (.partCtlWrite r part val)
      else if (r ≠ .slv && resetPending s p) || coresClash s p x || !bindsOk s t then s
      else noteSuspended s (dropUnbound s (putPart (rehome s t) p x)))

/-! ### Capture units (R88) -/

/-- A write of EN = 1: the results are cleared and the window starts, or ERR is set. DESIGN CHOICE (log entry 84): a start that ERR refuses
keeps the earlier results. -/
def execCaptureWindowStart (die : Fin 4) (unit : Fin 32) (val : DWord) (s : State) : Host.Outcome State Fault Refusal :=
  .next (
    let k := capKey die.val unit.val
    let fields := bitsN val 31 30 * 2 ^ 31
    let probe := bitsN val 46 8
    let wlog := bitsN val 40 6
    if probe = 0 || 0x0A ≤ probe || wlog < 10 || 40 < wlog then
      putCap s k { capOf s k with ctl := BitVec.ofNat 64 (2 ^ 61 + fields), left := 0 }
    else
      putCap s k { ctl := BitVec.ofNat 64 (2 ^ 63 + fields), min := 0xFFFFFFFFFFFFFFFF, max := 0, cnt := 0
                   hist := Vector.replicate 32 0, left := 2 ^ wlog })

/-- The window ends: DONE is set, EN cleared, the results stay. -/
def execCaptureWindowEnd (die : Fin 4) (unit : Fin 32) (s : State) : Host.Outcome State Fault Refusal :=
  .next (
    let k := capKey die.val unit.val
    let c := capOf s k
    if c.runs then putCap s k { c with ctl := setBits (setBits c.ctl 63 1 0) 62 1 1, left := 0 } else s)

/-! ### Attestation (R72) -/

/-- Exactly `n` bytes. -/
def fitBytes (n : Nat) (l : List Byte) : List Byte := (l ++ List.replicate n 0).take n

/-- The 144 bytes that are signed. -/
def reportBody (s : State) (vf : Nat) : List Byte :=
  let v := vfOf s vf
  let p := partOfVf s vf
  leOf 4 1 ++ leOf 2 vf ++ leOf 2 (p.getD 0xFFFF) ++ hostBytes s v.nonceAddr.toNat 32 ++ digestBytes s.fwHash
    ++ digestBytes v.chain ++ leOf 8 (p.elim 0 (fun p => (partOf s p).loads.toNat))

/-- GO: the report is written, and after it a FENCE event with TAG 0xFFFF. -/
def execAttestGo (vf : BitVec 8) (s : State) : Host.Outcome State Fault Refusal :=
  .next (
    let v := vfOf s vf.toNat
    if s.status ≠ 1 || v.attBusy then s
    else
      let b := reportBody s vf.toNat
      let r := b ++ fitBytes 64 (Config.signEd25519 b) ++ fitBytes 3309 (Config.signMldsa b)
      let s := { s with hostMem := writeBytes s.hostMem v.reportAddr.toNat r }
      let s := modVf s vf.toNat (fun v => { v with attBusy := true })
      postEvent s vf.toNat { code := 0, tag := 0xFFFF, stream := 0, type := 0x01, w1 := 0, w2 := 0, w3 := 0, irq := false, att := true })

/-! ### Function-level reset (R65, R172, R178) -/

/-- Does frame `f` begin a page set of the VF: a counted frame, and the one before it not of the same count word? -/
def beginsSet (s : State) (vf f : Nat) : Bool :=
  let d := tget Frame.reset s.frames f
  let c := tget Frame.reset s.frames (f - 1)
  d.v && d.owner = vf && countOf s f ≠ 0
    && (f = 0 || !(c.v && c.owner = vf && c.rcpart = d.rcpart && c.rcoff = d.rcoff))

/-- Mappings of a page set, hot and cold. -/
def mappingsOf (s : State) (base : Nat) : Nat :=
  let hot := (s.pommel.filter (fun e => e.2.base.toNat = base)).length
  let cold (q : Seq) : Nat :=
    if q.v && !q.hot then ((upTo (blocksOf q.f)).filter (fun b =>
      let w := read64 s.mem (q.ctbase + 8 * b)
      bit w 63 && bitsN w 0 32 = base)).length else 0
  let seqs := s.parts.flatMap (fun e => e.2.seqs ++ e.2.saved.flatMap (·.seqs))
  hot + (seqs.map (fun e => cold e.2)).foldl (· + ·) 0

/-- Valid prefix-table entries that name a page set. -/
def entriesOf (s : State) (base : Nat) : Nat :=
  (s.prefixes.map (fun e =>
    ((upTo e.2.sets).flatMap (fun k => (upTo 4).filter (fun w =>
      let h : Word := BitVec.ofNat 32 k
      bit (pxWord s e.2 h w 1) 63 && pxBase s e.2 h w = base))).length)).foldl (· + ·) 0

/-- Pins of the VF's page sets are given up, and its saturated page sets are reclaimed. -/
def freePins (s : State) (vf : Nat) : State :=
  ((s.frames.filter (fun e => beginsSet s vf e.1)).map (·.1)).foldl (fun s base =>
    let sat := countOf s base = 65535
    let n := if sat then 0 else mappingsOf s base + entriesOf s base
    if countOf s base ≤ n then s
    else
      let s := setCount s base n
      let s := { s with parts := s.parts.map (fun e => (e.1, { e.2 with pins := terase e.2.pins base })) }
      if n = 0 then addTask s (.pageSetReclaim (BitVec.ofNat 32 base)) else s) s

/-- The jobs of a VF's streams are cancelled; in a suspended context the cancels wait for the VF's next slice. -/
def cancelJobs (s : State) (vf : Nat) : State :=
  let s := (runningPart s vf).elim s (fun p => (upTo 8).foldl (fun s n => postCancel s p (.job vf n (partOf s p).nextAcc)) s)
  modSaved s vf (fun c => { c with graphs := c.graphs.map (fun g =>
    (g.1, { g.2 with cancels := g.2.cancels ++ (upTo 8).map (fun n => CancelReq.job vf n c.nextAcc) })) })

/-- THE RESET OF A VF: its jobs are cancelled, its registers return to their reset values, its pins are given up (R65, R172). Demands whose
cancel has not taken effect yet still count as its streams' earlier ones (R58). -/
def execFunctionLevelReset (vf : BitVec 8) (s : State) : Host.Outcome State Fault Refusal :=
  .next (
    let v := vf.toNat
    let s := cancelJobs s v
    let s := (List.finRange 8).foldl (fun s n => disableStream s v n) s
    let s := modVf s v (fun x =>
      { Vf.reset with streams := Vector.ofFn (fun i => { Stream.reset with lastDemand := x.streams[i].lastDemand, sent := x.streams[i].sent })
                      evWait := x.evWait, evLeft := x.evLeft, sdoms := x.sdoms, keys := x.keys, attBusy := x.attBusy, chain := x.chain })
    freePins s v)

/-! ### Key slots (R70) -/

def execKeySlotLoad (vf : BitVec 8) (slot : Fin 4) (edKey : BitVec 256) (mlKey : List Byte) (s : State) : Host.Outcome State Fault Refusal :=
  .next (modVf s vf.toNat (fun v => { v with keys := v.keys.set slot { loaded := true, ed := edKey, ml := mlKey } }))

end Sys2Proof.Machine
end

