-- ==== Sys2Proof/Machine/Control.lean ====
section
/-! DEFINITION. Work of the control complex on memory: fetching, moving, evicting, poisoning and reclaiming frames (R157, R161 to
R165, R180), tokens (R155), the compression attribute (R159), sequences (R171) and page sets (R172). Each step does what can be
done now, and stands again among the device's tasks while it waits. -/

namespace Sys2Proof.Machine

/-! ### Waiting for phase boundaries (R157, R163) -/

/-- Partitions one of whose VFs, running or suspended, may map the frame, with their PHN. -/
def mappers (s : State) (f : Nat) : List (Nat × Nat) :=
  (s.parts.filter (fun e => e.2.vfList.any (fun v => e.2.binds v && mayRead s v (tget Frame.reset s.frames f)))).map (fun e =>
    (e.1, e.2.phn.toNat))

/-- Has each of them passed a boundary since? -/
def boundariesPassed (s : State) (l : List (Nat × Nat)) : Bool := l.all (fun e => (partOf s e.1).phn.toNat ≠ e.2)

/-- Are stores to a frame of the run pending (R190)? -/
def runPending (s : State) (base n : Nat) : Bool := s.pend.any (fun e => base ≤ frameNo (64 * e.1) && frameNo (64 * e.1) < base + n)

/-- The control complex writes a word of memory, which is published at once; the line that holds it leaves L2 first (R190). -/
def ctlWrite (s : State) (a : Nat) (w : DWord) : State :=
  let s := evictLine s (a / 256)
  let k := a / 64
  let nib := tget 0 s.mdt (k / 4)
  { s with mem := write64 s.mem a w, stale := terase s.stale k, mdt := tset 0 s.mdt (k / 4) (nib &&& ~~~(BitVec.ofNat 4 (2 ^ (k % 4)))) }

/-- A round that an ABSENT fault on the frame holds may replay. -/
def dropFrameHold (f : Nat) (g : Graph) : Graph :=
  if g.hold.elim false (fun r => r.cls = cAbsent && r.detail ≠ 0xFFFE && bitsN r.info 16 32 = f) then { g with hold := none } else g

/-- Rounds that an ABSENT fault on a frame holds may replay, those of a saved context after its restore (R137, R165). -/
def releaseFrame (s : State) (f : Nat) : State :=
  { s with parts := s.parts.map (fun e => (e.1, { e.2 with
      graphs := e.2.graphs.map (fun g => (g.1, dropFrameHold f g.2))
      saved := e.2.saved.map (fun c => { c with graphs := c.graphs.map (fun g => (g.1, dropFrameHold f g.2)) }) })) }

/-! ### Tokens and poison (R155, R161, R180) -/

/-- The change for which a token is issued, made by the control complex: a tile-table entry that the physical function writes for a tenant,
the owner or the share domain of the frames (R157). -/
def narrow (s : State) (base n : Nat) : Narrowing → State
  | .none => s
  | .ttEntry a w => ctlWrite s (a.toNat / 8 * 8) w
  | .owner o => (upFrom n base).foldl (fun s f => modFrame s f (fun d => { d with owner := o.toNat })) s
  | .sdom d => (upFrom n base).foldl (fun s f => modFrame s f (fun x => { x with sdom := d })) s

/-- A TOKEN is issued, after the change that it follows; that for a tile-table entry names the frame that the entry has named (R157). An entry
whose sector has pending contents is written once they are published (R190). -/
def execRelatchToken (all : Bool) (base : BitVec 32) (run : TokenRange) (s : State) : Host.Outcome State Fault Refusal :=
  .next (
    let n := run.count.toNat
    if !(all || (1 ≤ n && n ≤ 65536)) then s
    else match run.change with
      | .ttEntry a _ =>
        if (tfind s.pend (a.toNat / 64)).isSome then addTask s (.relatchToken all base run)
        else
          let old := read64 s.mem (a.toNat / 8 * 8)
          let s := narrow s base.toNat n run.change
          if bit old 63 then issueToken s all (bitsN old 16 32) 1 else issueToken s all base.toNat n
      | .none | .owner _ | .sdom _ => issueToken (narrow s base.toNat n run.change) all base.toNat n)

/-- Do two frames belong to one page set: same owner, same count word (R166)? -/
def sameSet (a b : Frame) : Bool := a.v && b.v && a.owner = b.owner && a.rcpart = b.rcpart && a.rcoff = b.rcoff

/-- The base of the page set that holds a frame. -/
def setBase (s : State) : Nat → Nat → Nat
  | 0, f => f
  | n + 1, f =>
    if f ≠ 0 && sameSet (tget Frame.reset s.frames f) (tget Frame.reset s.frames (f - 1)) then setBase s n (f - 1) else f

/-- POISON: the bit, the token, and for a shared page set the walk of its domain's table. -/
def poisonFrame (s : State) (f : Nat) : State :=
  if !(tget Frame.reset s.frames f).v then s
  else
    let s := issueToken (modFrame s f (fun d => { d with poison := true })) false f 1
    let d := tget Frame.reset s.frames f
    if d.sdom = 0 then s else pxWalk s d.sdom.toNat (setBase s 64 f)

/-- The contents of a frame are lost: what memory holds of it cannot be read, and it is poisoned (R161). -/
def loseFrame (s : State) (f : Nat) : State :=
  poisonFrame { s with lostMem := upFrom 1024 (1024 * f) ++ s.lostMem.filter (fun k => k / 1024 ≠ f) } f

/-- An uncorrectable error in a sector that L2 holds: a clean one is fetched again from memory, the data of a dirty one is lost and its frame
poisoned (R135). -/
def sectorError (s : State) (f k : Nat) : State :=
  match tfind s.l2 (k / 4) with
  | none => s
  | some l =>
    let m : BitVec 4 := BitVec.ofNat 4 (2 ^ (k % 4))
    if l.valid &&& m = 0 then s
    else if l.dirty &&& m = 0 then { s with l2 := tput s.l2 (k / 4) { l with valid := l.valid &&& ~~~m } }
    else poisonFrame { s with l2 := tput s.l2 (k / 4) { l with lost := l.lost ||| m } } f

/-- What was lost of a frame: all its data in memory or that of one sector, which accesses that still reach it tell; the data of a sector of L2
(R135, R161); the metadata of a line, which surfaces at the next access or write-back that needs it; nothing that is known (R160). -/
def execFramePoison (loss : Loss) (s : State) : Host.Outcome State Fault Refusal :=
  .next (
    let f := loss.frame.toNat
    if !(tget Frame.reset s.frames f).v then s
    else match loss.lost with
    | .contents => loseFrame s f
    | .memory n => poisonFrame { s with lostMem := unionPos [1024 * f + n.toNat] s.lostMem } f
    | .sector n => sectorError s f (1024 * f + n.toNat)
    | .metadata n => { s with mdtBad := unionPos [256 * f + n.toNat] s.mdtBad }
    | .unread => poisonFrame s f)

/-! ### Fetching (R29, R164, R165) -/

/-- The frame is resident: rounds that waited for it may replay. -/
def makeResident (s : State) (f : Nat) (g : Frame → Frame) : State :=
  releaseFrame (modFrame s f (fun d => { g d with state := 0 })) f

/-- An ABSENT frame of flash is read by NVMe; one whose pool port is down is bound to the other port, if that is up. -/
def execFrameFetch (frame : BitVec 32) (s : State) : Host.Outcome State Fault Refusal :=
  .next (
    let f := frame.toNat
    let d := tget Frame.reset s.frames f
    if !(frameDesc s f).v || d.state = 0 then releaseFrame s f
    else if d.state = 1 then addTask s (.frameFetch frame)
    else if d.tier = 2 then (if s.fetching.contains f then s else { s with fetching := s.fetching ++ [f] })
    else if d.tier = 1 then
      (if s.poolUp[Fin.ofNat 2 (1 - d.loc.toNat / 2 ^ 47)] then makeResident s f (fun d => { d with loc := d.loc ^^^ (1 <<< 47) })
       else if s.poolUp[Fin.ofNat 2 (d.loc.toNat / 2 ^ 47)] then makeResident s f id
       else s)
    else makeResident s f id)

/-- Cores in whose pseudo-channels a frame may be placed: those of the partition that holds its home, else every core; a frame of a share
domain stays in those of the core where it lies, or where it lay before it left HBM; one that never did goes to its home's (R75; log
entry 76). -/
def placeCores (s : State) (f : Nat) : List Nat :=
  let d := rawFrame s f
  if d.sdom ≠ 0 then [if d.tier = 0 then locCore d.loc.toNat else tget d.home.val s.placed f]
  else match partOfCore s d.home.val with
    | some p => (partOf s p).coreList
    | none => upTo 64

/-- The read ends: the frame is resident in HBM, or it is poisoned (R30, R164). With no HBM location free, one is made free first. -/
def execNvmeReadCompletion (frame : BitVec 32) (ok : Bool) (s : State) : Host.Outcome State Fault Refusal :=
  .next (
    let f := frame.toNat
    let done (s : State) : State := { s with fetching := s.fetching.filter (fun x => x ≠ f) }
    if !s.fetching.contains f then s
    else if !ok then releaseFrame (poisonFrame (done s) f) f
    else match freeLocIn s (Config.freeLoc s.allocs) (placeCores s f) with
      | some l => makeResident { done s with allocs := s.allocs + 1 } f (fun d => { d with tier := 0, loc := BitVec.ofNat 48 l })
      | none => addTask (evictSome s ((partOfCore s (rawFrame s f).home.val).getD 64)) (.nvmeReadCompletion frame ok))

/-! ### Moving and evicting (R163, R164) -/

def pairOf (s : State) (f : Nat) : Option Fwd := s.fwd.find? (fun x => x.frame.toNat = f)

/-- May a frame be placed at a location: an HBM index that exists and is free, in pseudo-channels where the frame may lie; a pool location; a
free location of flash in a namespace from 1 on (R75, R145)? -/
def placeOk (s : State) (f : Nat) (tier : BitVec 2) (loc : BitVec 48) : Bool :=
  let n := loc.toNat
  if tier = 0 then n < Config.hbmFrames && !locUsed s n && n % locPerCore < locRoom s && (placeCores s f).contains (locCore n)
  else if tier = 2 then n / 2 ^ 32 % 256 ≠ 0 && !flashUsed s n
  else true

/-- Step 1: the pair, the descriptor with STATE MOVING and the destination, the token. -/
def moveStart (s : State) (f : Nat) (tier : BitVec 2) (loc : BitVec 48) : State :=
  let d := rawFrame s f
  let s := if d.tier = 0 then { s with placed := tput s.placed f (locCore d.loc.toNat) } else s
  let s := { s with fwd := s.fwd ++ [{ frame := BitVec.ofNat 32 f, tier := d.tier, loc := d.loc, waits := none }] }
  issueToken (modFrame s f (fun d => { d with state := 1, tier := tier, loc := loc })) false f 1

/-- Step 2: the boundaries that the move waits for are those that follow the token. -/
def moveWaits (s : State) (f : Nat) : State :=
  { s with fwd := s.fwd.map (fun x => if x.frame.toNat = f then { x with waits := some (mappers s f) } else x) }

/-- Dirty lines go to the source. -/
def writeBackFrame (s : State) (f : Nat) : State :=
  ((s.l2.filter (fun e => e.1 / 256 = f)).map (·.1)).foldl (fun s l => writeBack s l) s

def dropPair (s : State) (f : Nat) : State := { s with fwd := s.fwd.filter (fun x => x.frame.toNat ≠ f) }

/-- The state that a move ends in: RESIDENT at the destination, or ABSENT in flash. A source that cannot be read poisons the frame, which
ends at its destination (R163); a write to a pool port that is down poisons it too, and it is ABSENT (R29). -/
def moveLand (s : State) (f : Nat) (flash : Bool) (src : Fwd) : State :=
  let d := rawFrame s f
  let down := portDownAt s d.tier d.loc
  let s := issueToken (modFrame (writeBackFrame s f) f (fun d => { d with state := if flash || down then 2 else 0 })) false f 1
  let s := if down || portDownAt s src.tier src.loc then loseFrame s f else s
  if flash then s else releaseFrame s f

/-- One step of a move or an eviction; `again` is its task. -/
def moveStep (s : State) (f : Nat) (flash : Bool) (tier : BitVec 2) (loc : BitVec 48) (again : Instr) : State :=
  let d := rawFrame s f
  match pairOf s f with
  | none =>
    if !(frameDesc s f).v || d.state ≠ 0 || (inWindow s f && tier ≠ 0) || 256 ≤ d.owner || inRecords s f || !placeOk s f tier loc then s
    else if 8 ≤ s.fwd.length then addTask s again
    else addTask (moveStart s f tier loc) again
  | some x =>
    if tokenOut s f then addTask s again
    else if d.state = 1 then
      match x.waits with
      | none => addTask (moveWaits s f) again
      | some l => addTask (if boundariesPassed s l && !runPending s f 1 then moveLand s f flash x else s) again
    else
      let s := if flash then (s.l2.filter (fun e => e.1 / 256 = f)).foldl (fun s e => evictLine s e.1) s else s
      dropPair s f

/-- The control complex moves a frame between HBM and pool locations. -/
def execFrameMove (frame : BitVec 32) (tier : BitVec 2) (loc : BitVec 48) (s : State) : Host.Outcome State Fault Refusal :=
  .next (if 2 ≤ tier.toNat then s else moveStep s frame.toNat false tier loc (.frameMove frame tier loc))

/-- The control complex evicts a frame to flash. -/
def execFrameEvict (frame : BitVec 32) (loc : BitVec 48) (s : State) : Host.Outcome State Fault Refusal :=
  .next (moveStep s frame.toNat true 2 loc (.frameEvict frame loc))

/-! ### Reclaiming (R157, R172) -/

def reclaimOf (s : State) (f : Nat) : Option Reclaim := s.reclaim.find? (fun r => r.frame = f)

/-- A frame that is reused: its lines are written back and invalidated, it is zero, its descriptor is clear. -/
def clearFrame (s : State) (f : Nat) : State :=
  let s := flushFrame s f
  { s with
    mem := s.mem.filter (fun c => c.1 / 65536 ≠ f), frames := terase s.frames f, mdt := s.mdt.filter (fun e => e.1 / 256 ≠ f)
    stale := s.stale.filter (fun e => e.1 / 1024 ≠ f), mdtBad := s.mdtBad.filter (fun l => l / 256 ≠ f)
    lostMem := s.lostMem.filter (fun k => k / 1024 ≠ f), placed := terase s.placed f
    reclaim := s.reclaim.filter (fun r => r.frame ≠ f) }

/-- A run of frames begins its way to reuse: one token for all. -/
def reclaimStart (s : State) (base n : Nat) : State :=
  issueToken { s with reclaim := s.reclaim ++ (upFrom n base).map (fun f => { frame := f, waits := none }) } false base n

def reclaimWaits (s : State) (base n : Nat) : State :=
  { s with reclaim := s.reclaim.map (fun r => if base ≤ r.frame && r.frame < base + n then { r with waits := some (mappers s r.frame) } else r) }

/-- One step of a reclaim: none while it waits, with the state it waits in. -/
def reclaimStep (s : State) (base n : Nat) : Bool × State :=
  match reclaimOf s base with
  | none => (false, reclaimStart s base n)
  | some r =>
    if tokenOut s base then (false, s)
    else match r.waits with
      | none => (false, reclaimWaits s base n)
      | some l => if boundariesPassed s l && !runPending s base n then (true, (upFrom n base).foldl clearFrame s) else (false, s)

/-- An unmapped frame is made ready for reuse. -/
def execFrameReclaim (frame : BitVec 32) (s : State) : Host.Outcome State Fault Refusal :=
  .next (
    let f := frame.toNat
    if !(tget Frame.reset s.frames f).v then s
    else
      let r := reclaimStep s f 1
      if r.1 then r.2 else addTask r.2 (.frameReclaim frame))

/-- A round that waits for the quota may replay (R64). -/
def dropQuotaHold (g : Graph) : Graph := if g.hold.elim false (fun r => r.cls = cQuota) then { g with hold := none } else g

/-- A unit returns to the quota of the page set's owner, in its partition or in its saved context (R172, R64). -/
def returnQuota (s : State) (vf : Nat) : State :=
  match runningPart s vf with
  | some p => releaseQuota (modPart s p (fun x => { x with quota := x.quota + 1 })) p
  | none =>
    { s with parts := s.parts.map (fun e => (e.1, { e.2 with saved := e.2.saved.map (fun c =>
        if c.vf = vf then { c with quota := c.quota + 1, graphs := c.graphs.map (fun g => (g.1, dropQuotaHold g.2)) } else c) })) }

/-- A page set whose count is 0 is reclaimed. -/
def execPageSetReclaim (base : BitVec 32) (s : State) : Host.Outcome State Fault Refusal :=
  .next (
    let f := base.toNat
    let d := tget Frame.reset s.frames f
    if !d.v || countOf s f ≠ 0 then s
    else
      let r := reclaimStep s f (setLen s f)
      if r.1 then returnQuota r.2 d.owner else addTask r.2 (.pageSetReclaim base))

/-! ### The compression attribute (R159) -/

/-- Unmap with its token, flush under the old attribute, rewrite and remap, in this order; what later fills decode is what the flush has left
in memory. -/
def execCattrChange (frame : BitVec 32) (attr : BitVec 2) (ttEntry : BitVec 48) (s : State) : Host.Outcome State Fault Refusal :=
  .next (
    let f := frame.toNat
    let a := ttEntry.toNat
    let w := read64 s.mem a
    let again : Instr := .cattrChange frame attr ttEntry
    if 2 ≤ attr.toNat || !(frameDesc s f).v || bitsN w 16 32 ≠ f then s
    else if (tfind s.pend (a / 64)).isSome then addTask s again
    else if bit w 63 then
      (if (tget Frame.reset s.frames f).cattr = attr then s
       else addTask (issueToken (ctlWrite s a (setBits w 63 1 0)) false f 1) again)
    else if tokenOut s f || runPending s f 1 then addTask s again
    else ctlWrite (modFrame (flushFrame s f) f (fun d => { d with cattr := attr })) a (setBits w 63 1 1))

/-! ### Sequences (R171) -/

/-- Does the graph's voided round wait for the sequence: by its cold table, where it has one (`x.ctlen`), or as a KV command that names it? -/
def waitsForSeq (x : Seq) (q : Nat) (g : Graph) : Bool :=
  g.hold.elim false (fun r => r.cls = cAbsent &&
    ((x.ctlen ≠ 0 && r.detail ≠ 0xFFFE && r.info.toNat = x.ctbase) || (r.detail = 0xFFFE && g.wantSeq = q)))

/-- The rounds that wait for the sequence replay, or, when no sequence can be swapped out, their graphs stop and the fault is
forwarded. -/
def execSequenceSwapIn (part : BitVec 6) (seq : BitVec 12) (s : State) : Host.Outcome State Fault Refusal :=
  .next (
    let p := part.toNat
    let q := seq.toNat
    let x := seqOf s p q
    let waiting := ((partOf s p).graphs.filter (fun e => waitsForSeq x q e.2)).map (·.1)
    match swapIn s p q with
    | some s => waiting.foldl (fun s k => releaseHold s p k) s
    | none =>
      waiting.foldl (fun s k =>
        match graphOf s p k with
        | none => s
        | some g =>
          let s := match g.hold with
            | some r => postEvent s g.vf (reportEvent { r with detail := 0xFFFE })
            | none => s
          stopGraph s p k) s)

end Sys2Proof.Machine
end

