-- ==== Sys2Proof/Machine/Board.lean ====
section
/-! DEFINITION. Power, reset and boot (R18, R20 to R24), HITCH and the debug port (R89 to R91), the host memory port (R26, R27, R412,
R413), the pool ports (R28 to R30). -/

namespace Sys2Proof.Machine

/-! ### Reset and power (R21 to R24) -/

/-- What no reset of the package changes: the debug fuse, the device identifier and the host's own memory (DESIGN CHOICE, log entry 78: R22 and
R21 name what is lost on the package); and the model's own: inputs that are still to come, what has been sent, the count of free values. The
bytes of pool frames are gone with the descriptors that named them. A device without power stays so (R21). -/
def afterReset (s : State) : State :=
  { State.reset with
    boot := if s.boot = .off then .off else .reset
    fuse := s.fuse, deviceId := s.deviceId, hostMem := s.hostMem, inbox := s.inbox, free := s.free, freeLat := s.freeLat, freeGap := s.freeGap, out := s.out }

/-- PWR_GOOD goes low: the whole device is reset. -/
def execPwrGoodLow (s : State) : Host.Outcome State Fault Refusal := .next { afterReset s with pwrGood := false }

def execSysRstN (s : State) : Host.Outcome State Fault Refusal := .next { afterReset s with pwrGood := s.pwrGood, perstN := s.perstN, sysRstN := false }

/-- PERST_N resets the device as SYS_RST_N does (R22), which stays as it is; the order of R23 runs again. -/
def execPerstN (s : State) : Host.Outcome State Fault Refusal := .next { afterReset s with pwrGood := s.pwrGood, sysRstN := s.sysRstN, perstN := false }

def execPowerRemoved (s : State) : Host.Outcome State Fault Refusal := .next { afterReset s with pwrGood := false, boot := .off }

/-- A fabric port that has trained (R23, R35). -/
def trainedPort : FPort := { FPort.reset with up := true }

/-- The most frames whose descriptors and metadata, 144 bytes each, fit into the HBM tier beside a location of every core (log entry 76). -/
def fdtLimit : Nat := (64 * (locPerCore - 1) - 2) * 65536 / 144

/-- FDT_COUNT lies between the HBM-tier frames and 2^32 (R143), and leaves room for the tables of R145 and R158. -/
def fdtRange (n : Nat) : Nat := max Config.hbmFrames (min n fdtLimit)

/-- Grenrov's keys, as the boot ROM checks them (R71). -/
def grenrovKeys : Vector KeySlot 4 :=
  Vector.ofFn (fun i => { loaded := true, ed := Config.grenrovEd i.val, ml := Config.grenrovMl i.val })

/-- FDT_COUNT and the frames of the tables, which the firmware reserves before the device is ready (R143, R145). -/
def withTables (s : State) (n : Nat) : State :=
  let s := { s with fdtCount := n }
  { s with tableBase := Config.tableFrame % (n + 1 - tableFrames s) }

/-- THE POWER-UP ORDER (R23): rails and PWR_GOOD, SYS_RST_N released, PLL lock, firmware check, zeroed memories, trained links, ready. `board.last`
says whether the order has come to its last step; a firmware image whose trailer or signatures fail ends it (R71). DESIGN CHOICE (log entry
58): an order that has failed, or has timed out (STATUS 3, R24), comes to no later step before the next reset. -/
def execPowerUp (fw : List Byte) (frames : BitVec 33) (board : BoardLines) (s : State) : Host.Outcome State Fault Refusal :=
  .next (
    if s.boot = .ready || s.boot = .failed then s
    else
      let s := { s with pwrGood := true, sysRstN := true, pll := true, fc := 0 }
      if (sigBad grenrovKeys fw).isSome then { s with boot := .failed, status := 2 }
      else if !board.last then { s with boot := .booting, fwHash := Config.sha384 fw }
      else { withTables s (fdtRange frames.toNat) with
        boot := .ready, status := 1, cfgNormal := true, fwHash := Config.sha384 fw
        poolUp := Vector.ofFn (fun i => board.poolUp.getLsbD i.val), ports := Vector.replicate 18 trainedPort })

/-- Once both resets are released the host port trains (R24); the step includes the release of PERST_N. -/
def execHostLinkTraining (s : State) : Host.Outcome State Fault Refusal :=
  .next (if s.sysRstN then { s with perstN := true, hostLink := true } else s)

/-- A configuration request: Retry Status until the device is ready, or until the boot timeout. -/
def execConfigurationRequest (s : State) : Host.Outcome State Fault Refusal :=
  .next (if s.hostLink then emit s (.config (!s.cfgNormal)) else s)

/-- 1 s after the release of PERST_N: a device that is not ready reports the failure and answers normally (R24). -/
def execBootTimeout (s : State) : Host.Outcome State Fault Refusal :=
  .next (if s.boot = .ready || !s.perstN then s
    else { s with boot := .failed, cfgNormal := true, status := if s.status = 0 then 3 else s.status })

/-! ### Pacing and temperature (R18, R20) -/

/-- The firmware chooses a GAP for a partition from the one in force, 0 while pacing is off; it is enabled (log entry 17). -/
def paceWith (f : Nat → Nat → Nat) (s : State) (p : Nat) : State :=
  let g := (Config.firmwareGap s.freeGap).toNat
  let s := { s with freeGap := s.freeGap + 1 }
  modPart s p (fun x =>
    let old := if bit x.paceNext 0 then bitsN x.paceNext 16 12 else 0
    { x with paceNext := setBits (setBits x.paceNext 16 12 (f old g)) 0 1 1 })

/-- Defined partitions for which a condition holds. -/
def partsWhere (s : State) (f : Part → Bool) : List Nat := (s.parts.filter (fun e => e.2.v && f e.2)).map (·.1)

/-- A raised GAP: above the old one, as far as the field goes (R20). -/
def raisedGap (old g : Nat) : Nat := min 4095 (max (old + 1) g)

/-- 100 °C: GAP is raised on every partition with cores on the die. -/
def execTemperature100C (die : Fin 4) (s : State) : Host.Outcome State Fault Refusal :=
  .next ((partsWhere s (fun x => x.coreList.any (fun c => dieOf c = die.val))).foldl (paceWith raisedGap) s)

/-- 110 °C: no start pulse issues any more, THERMTRIP_N is low; only a reset ends it. -/
def execThermtrip (_die : Fin 4) (s : State) : Host.Outcome State Fault Refusal := .next { s with thermTrip := true }

/-- The cap of the management interface, from 800 W to 2 800 W; the firmware adjusts PACE_CTL to hold it (R18). A cap outside the range is
ignored: DESIGN CHOICE (log entry 59). -/
def execPowerCap (watts : BitVec 16) (s : State) : Host.Outcome State Fault Refusal :=
  .next (if 800 ≤ watts.toNat && watts.toNat ≤ 2800 then
      (partsWhere s (fun _ => true)).foldl (paceWith (fun _ g => g)) { s with powerCap := watts.toNat }
    else s)

/-! ### HITCH (R89 to R91) -/

def execHitch (s : State) : Host.Outcome State Fault Refusal := .next (stopClocks s)

/-- A write of 1 to HITCH_ARM.SW triggers HITCH at once. -/
def execHitchArmSw (s : State) : Host.Outcome State Fault Refusal := .next (stopClocks s)

/-- While HITCH holds, the state is read out; with a blown fuse, only the identification registers until a signed unlock record
has been presented. -/
def execJtagReadout (unlock : Bool) (s : State) : Host.Outcome State Fault Refusal :=
  .next (if !s.hitch then s
    else
      let s := if unlock then { s with unlocked := true } else s
      emit s (.jtag (!s.fuse || s.unlocked)))

/-! ### The CXL.mem window (R26, R412, R413) -/

/-- Frames of 256 MiB, and of 64 GiB. -/
def windowUnit : Nat := 4096
def windowMost : Nat := 1048576

/-- HBM locations of some cores that no frame uses and the tables leave (R75, R145). -/
def freeLocs (s : State) (cores : List Nat) : Nat :=
  let on (c : Nat) : Nat :=
    (s.frames.filter (fun e => e.2.v && e.2.tier = 0 && e.2.state ≠ 2 && locCore e.2.loc.toNat = c)).length
      + (s.fwd.filter (fun e => e.tier = 0 && locCore e.loc.toNat = c)).length
  cores.foldl (fun n c => n + (locRoom s - on c)) 0

/-- May the window be opened: a bound VF without one, a size within bounds, free frames and locations, a home in its partition? -/
def windowOk (s : State) (vf base frames : Nat) (home : Fin 64) : Bool :=
  (match partOfVf s vf with
   | some p => bit (partOf s p).cores home.val && frames ≤ freeLocs s (partOf s p).coreList
   | none => false)
    && s.windows.all (fun w => w.vf ≠ vf) && frames ≠ 0 && frames % windowUnit = 0 && frames ≤ windowMost && runFree s base frames

def windowFrame (vf : Nat) (home : Fin 64) (loc : Nat) : Frame :=
  { v := true, state := 0, poison := false, tier := 0, cattr := 0, owner := vf, sdom := 0, rcoff := 0, rcpart := 0, home := home
    loc := BitVec.ofNat 48 loc }

/-- One frame of a window, at a free location of the home's pseudo-channels or of another core's of the partition (R75). -/
def addWindowFrame (vf : Nat) (home : Fin 64) (s : State) (f : Nat) : State :=
  let cores := home.val :: (((partOfCore s home.val).elim [] (fun p => (partOf s p).coreList)).filter (· ≠ home.val))
  let l := (freeLocIn s (Config.freeLoc s.allocs) cores).getD 0
  { s with frames := tput s.frames f (windowFrame vf home l), allocs := s.allocs + 1 }

/-- The control complex reserves the window's frames for the VF. -/
def execCxlMemWindowOpen (vf : BitVec 8) (base : BitVec 32) (frames : BitVec 21) (home : Fin 64) (s : State) :
    Host.Outcome State Fault Refusal :=
  .next (if !windowOk s vf.toNat base.toNat frames.toNat home then s
    else
      let s := (upFrom frames.toNat base.toNat).foldl (addWindowFrame vf.toNat home) s
      { s with windows := s.windows ++ [{ vf := vf.toNat, base := base.toNat, frames := frames.toNat, home := home }] })

def execCxlMemWindowClose (vf : BitVec 8) (s : State) : Host.Outcome State Fault Refusal :=
  .next { s with windows := s.windows.filter (fun w => w.vf ≠ vf.toNat) }

/-- The global address of an offset in a VF's window, where `len` bytes fit. -/
def windowAddr (s : State) (vf off len : Nat) : Option Nat :=
  (s.windows.find? (fun w => w.vf = vf)).bind (fun w => if off + len ≤ 65536 * w.frames then some (65536 * w.base + off) else none)

/-- The host reaches memory through L2, for the VF that owns the window, in the lowest class: DESIGN CHOICE (log entry 78). -/
def hostVia (vf : Nat) : Via := { vf := vf, port := hostPort, cls := 3 }

/-- The attribute under which the host meets a line: the one that it was filled under, else its frame's. -/
def hostAttr (s : State) (a : Nat) : BitVec 2 := (tfind s.l2 (a / 256)).elim (frameDesc s (frameNo a)).cattr (·.cattr)

/-- The stores of a host write. -/
def hostStores (s : State) (a : Nat) (bytes : List Byte) : List Store :=
  ((upTo bytes.length).zip bytes).map (fun x => { addr := a + x.1, byte := x.2, mask := 0xFF, cattr := hostAttr s (a + x.1), cls := 3 })

/-- A host write through the L2 of the frame's home, pending until the partition's next boundary; with the version store full it waits for
that boundary (R189), and one that meets unreadable metadata is not performed and poisons the frame (R160). -/
def execCxlMemWrite (vf : BitVec 8) (addr : BitVec 48) (bytes : List Byte) (s : State) : Host.Outcome State Fault Refusal :=
  .next (match windowAddr s vf.toNat addr.toNat bytes.length, partOfVf s vf.toNat with
    | some a, some p =>
      if s.hitch || !s.hostLink then s
      else
        let l := hostStores s a bytes
        if (partOf s p).switching ≠ .none then addTask s (.cxlMemWrite vf addr bytes)
        else if !versionFits s p (l.map (·.addr)) then
          addTask (if (partOf s p).bndStarted then s else askBoundary s p) (.cxlMemWrite vf addr bytes)
        else match fillFor (hostVia vf.toNat) l (storeSectors l []) s with
          | .ok s => performStores s p vf.toNat hostPort .host l
          | .error f => if f.cls = cPoison then addUrgent s (.framePoison ⟨BitVec.ofNat 32 (frameNo f.info), .unread⟩) else s
    | _, _ => s)

/-- Some sectors pass through L2 (R26, R412): the first that cannot be read ends the read, with the state that it leaves. -/
def hostTouch (vf : Nat) : List Nat → State → Except (Nat × State) State
  | [], s => .ok s
  | k :: r, s =>
    match l2Touch s (hostVia vf) (hostAttr s (64 * k)) (64 * k) .read with
    | .ok s => hostTouch vf r s
    | .error _ => .error (k, s)

/-- A host read that meets data which was lost, or metadata that cannot be read, is answered with poison; in the second case the frame is
poisoned (R160, R161; log entry 78). -/
def hostLost (s : State) (vf k : Nat) : State :=
  let s := if mdtFails s (k / 4) then addUrgent s (.framePoison ⟨BitVec.ofNat 32 (frameNo (64 * k)), .unread⟩) else s
  emit s (.cxlPoison vf)

/-- A host read through the L2 of the frame's home: its own pending bytes, else the published ones (R412). -/
def execCxlMemRead (vf : BitVec 8) (addr : BitVec 48) (len : Nat) (s : State) : Host.Outcome State Fault Refusal :=
  .next (match windowAddr s vf.toNat addr.toNat len with
    | some a =>
      if s.hitch || !s.hostLink then s
      else
        match hostTouch vf.toNat (unionPos ((upTo len).map (fun i => (a + i) / 64)) []) s with
        | .error e => hostLost e.2 vf.toNat e.1
        | .ok s => emit s (.cxlData vf.toNat ((upTo len).map (fun i => readAs s (· = .host) (a + i))))
    | none => s)

/-! ### CXL.cache (R27) -/

/-- A host line is read: it is held Shared, among at most 256. -/
def holdLine (s : State) (a : Nat) : State :=
  let l : BitVec 58 := BitVec.ofNat 58 (a / 64)
  let rest := s.hostLines.filter (fun x => x ≠ l)
  { s with hostLines := (l :: rest).take 256 }

/-- A snoop drops the line. -/
def execCxlCacheSnoop (line : BitVec 58) (s : State) : Host.Outcome State Fault Refusal :=
  .next { s with hostLines := s.hostLines.filter (fun x => x ≠ line) }

/-! ### Pool ports (R28, R29) -/

/-- A pool-tier frame of owner 256 at a port's address. -/
def poolFrame (port : Fin 2) (dpa : Nat) : Frame :=
  { v := true, state := 0, poison := false, tier := 1, cattr := 0, owner := 256, sdom := 0, rcoff := 0, rcpart := 0, home := 0
    loc := BitVec.ofNat 48 (port.val * 2 ^ 47 + dpa / 65536) }

/-- An extent whose base and length are multiples of 64 KiB is mapped as pool-tier frames from `frame` on; any other is refused. -/
def execDcdExtentOffer (port : Fin 2) (base len : DWord) (frame : BitVec 32) (s : State) : Host.Outcome State Fault Refusal :=
  .next (
    let n := len.toNat / 65536
    if base.toNat % 65536 ≠ 0 || len.toNat % 65536 ≠ 0 || !s.poolUp[port] || !runFree s frame.toNat n then s
    else
      let t := (upTo n).foldl (fun t i => tput t (frame.toNat + i) (poolFrame port (base.toNat + 65536 * i))) s.frames
      { s with frames := t, extents := s.extents ++ [(port.val, base.toNat, len.toNat, frame.toNat)] })

/-- Is the frame bound to the pool port: by its location, or while it moves by its source, which its write-backs go to (R29, R163)? -/
def boundTo (s : State) (port : Fin 2) (f : Nat) : Bool :=
  let d := tget Frame.reset s.frames f
  let l := memPlace s f
  d.v && (onPort port d.tier d.loc || onPort port l.1 l.2)

/-- The link of a pool port goes down: frames that a failed request was writing are lost, every frame of the port is ABSENT from then on (of one
that moves off it, `frameCheck` says so), and latches are dropped (R29, R161); where a move ends, it is dealt with there. -/
def execPoolLinkDown (port : Fin 2) (writing : List (BitVec 32)) (s : State) : Host.Outcome State Fault Refusal :=
  .next (
    let hit := writing.filter (fun f => boundTo s port f.toNat)
    let s := hit.foldl (fun s f => loseFrame s f.toNat) { s with poolUp := s.poolUp.set port false }
    issueToken { s with frames := s.frames.map (fun e =>
      (e.1, if e.2.v && onPort port e.2.tier e.2.loc && e.2.state = 0 then { e.2 with state := 2 } else e.2)) } true 0 0)

end Sys2Proof.Machine
end

