-- ==== Sys2Proof/Machine/ElemFloat.lean ====
section
/-! DEFINITION. Floating-point instructions of an element (R284 to R288). -/

namespace Sys2Proof.Machine

/-- A rounded FP32 code as a lane word with its flags. -/
def rndW (r : Rnd) : Word × Flags := (BitVec.ofNat 32 r.code, r.fl)

/-- The half format that SUB selects (R284). -/
def halfFF (bf : Bool) : FF := if bf then .bf16 else .fp16

/-- Both halves of lane words: position 0 in [15:0], position 1 in [31:16] (R279). -/
def halves2 (g : Nat → Nat → Rnd) (a b : Word) : Word × Flags :=
  let lo := g (elemAt a 16 0) (elemAt b 16 0)
  let hi := g (elemAt a 16 1) (elemAt b 16 1)
  (BitVec.ofNat 32 (lo.code + 65536 * hi.code), lo.fl ||| hi.fl)

def halves3 (g : Nat → Nat → Nat → Rnd) (a b c : Word) : Word × Flags :=
  let lo := g (elemAt a 16 0) (elemAt b 16 0) (elemAt c 16 0)
  let hi := g (elemAt a 16 1) (elemAt b 16 1) (elemAt c 16 1)
  (BitVec.ofNat 32 (lo.code + 65536 * hi.code), lo.fl ||| hi.fl)

/-- Operations on codes of a format, rounded once to it (R284, R238). -/
def opAdd (f : FF) (a b : Nat) : Rnd := fadd f (decodeF f .nan a) (decodeF f .nan b)
def opSub (f : FF) (a b : Nat) : Rnd := fadd f (decodeF f .nan a) (decodeF f .nan b).neg
def opMul (f : FF) (a b : Nat) : Rnd := fmul f (decodeF f .nan a) (decodeF f .nan b)
def opMad (f : FF) (a b d : Nat) : Rnd := ffma f (decodeF f .nan a) (decodeF f .nan b) (decodeF f .nan d)
def opMsb (f : FF) (a b d : Nat) : Rnd := ffma f (decodeF f .nan a) (decodeF f .nan b) (decodeF f .nan d).neg
def opNma (f : FF) (a b d : Nat) : Rnd := ffma f (decodeF f .nan a).neg (decodeF f .nan b) (decodeF f .nan d)
def opMin (f : FF) (a b : Nat) : Rnd := { code := fminc f a b, fl := 0 }
def opMax (f : FF) (a b : Nat) : Rnd := { code := fmaxc f a b, fl := 0 }

def onF32 (g : FF → Nat → Nat → Rnd) (a b : Word) : Word × Flags := rndW (g .fp32 a.toNat b.toNat)
def onF32d (g : FF → Nat → Nat → Nat → Rnd) (a b d : Word) : Word × Flags := rndW (g .fp32 a.toNat b.toNat d.toNat)

/-! ### Arithmetic (R284) -/

def execFaddF32 (d : Dst) (a b : Opnd) (s : State) : Host.Outcome State Fault Refusal := .next (lane2 .f32 .f32 4 d a b (onF32 opAdd) s)

def execFaddHalf (bf : Bool) (d : Dst) (a b : Opnd) (s : State) : Host.Outcome State Fault Refusal :=
  .next (lane2 .half .half 4 d a b (halves2 (opAdd (halfFF bf))) s)

def execFsubF32 (d : Dst) (a b : Opnd) (s : State) : Host.Outcome State Fault Refusal := .next (lane2 .f32 .f32 4 d a b (onF32 opSub) s)

def execFsubHalf (bf : Bool) (d : Dst) (a b : Opnd) (s : State) : Host.Outcome State Fault Refusal :=
  .next (lane2 .half .half 4 d a b (halves2 (opSub (halfFF bf))) s)

def execFmulF32 (d : Dst) (a b : Opnd) (s : State) : Host.Outcome State Fault Refusal := .next (lane2 .f32 .f32 4 d a b (onF32 opMul) s)

def execFmulHalf (bf : Bool) (d : Dst) (a b : Opnd) (s : State) : Host.Outcome State Fault Refusal :=
  .next (lane2 .half .half 4 d a b (halves2 (opMul (halfFF bf))) s)

def execFminF32 (d : Dst) (a b : Opnd) (s : State) : Host.Outcome State Fault Refusal := .next (lane2 .f32 .f32 2 d a b (onF32 opMin) s)

def execFminHalf (bf : Bool) (d : Dst) (a b : Opnd) (s : State) : Host.Outcome State Fault Refusal :=
  .next (lane2 .half .half 2 d a b (halves2 (opMin (halfFF bf))) s)

def execFmaxF32 (d : Dst) (a b : Opnd) (s : State) : Host.Outcome State Fault Refusal := .next (lane2 .f32 .f32 2 d a b (onF32 opMax) s)

def execFmaxHalf (bf : Bool) (d : Dst) (a b : Opnd) (s : State) : Host.Outcome State Fault Refusal :=
  .next (lane2 .half .half 2 d a b (halves2 (opMax (halfFF bf))) s)

def execFmadF32 (d : Dst) (a b : Opnd) (s : State) : Host.Outcome State Fault Refusal := .next (lane3 .f32 5 d a b (onF32d opMad) s)

def execFmadHalf (bf : Bool) (d : Dst) (a b : Opnd) (s : State) : Host.Outcome State Fault Refusal :=
  .next (lane3 .half 5 d a b (halves3 (opMad (halfFF bf))) s)

def execFmsbF32 (d : Dst) (a b : Opnd) (s : State) : Host.Outcome State Fault Refusal := .next (lane3 .f32 5 d a b (onF32d opMsb) s)

def execFmsbHalf (bf : Bool) (d : Dst) (a b : Opnd) (s : State) : Host.Outcome State Fault Refusal :=
  .next (lane3 .half 5 d a b (halves3 (opMsb (halfFF bf))) s)

def execFnmaF32 (d : Dst) (a b : Opnd) (s : State) : Host.Outcome State Fault Refusal := .next (lane3 .f32 5 d a b (onF32d opNma) s)

def execFnmaHalf (bf : Bool) (d : Dst) (a b : Opnd) (s : State) : Host.Outcome State Fault Refusal :=
  .next (lane3 .half 5 d a b (halves3 (opNma (halfFF bf))) s)

/-! ### Comparisons (R285) -/

/-- A comparison on FP32 values: the relation on numbers, its answer on a NaN operand, and whether a NaN signals. -/
def fcmpW (onNan signals : Bool) (rel : FV → FV → Bool) (a b : Word) : Bool × Flags :=
  let x := f32 a
  let y := f32 b
  if x.isNan || y.isNan then (onNan, flIf signals flFI) else (rel x y, 0)

def execFcmpEq (d : Dst) (a b : Opnd) (s : State) : Host.Outcome State Fault Refusal := .next (laneP .f32 3 d a b (fcmpW false false eqV) s)

def execFcmpNe (d : Dst) (a b : Opnd) (s : State) : Host.Outcome State Fault Refusal := .next (laneP .f32 3 d a b (fcmpW true false (fun x y => !eqV x y)) s)

def execFcmpLt (d : Dst) (a b : Opnd) (s : State) : Host.Outcome State Fault Refusal := .next (laneP .f32 3 d a b (fcmpW false true ltV) s)

def execFcmpLe (d : Dst) (a b : Opnd) (s : State) : Host.Outcome State Fault Refusal := .next (laneP .f32 3 d a b (fcmpW false true (fun x y => !ltV y x)) s)

def execFcmpGt (d : Dst) (a b : Opnd) (s : State) : Host.Outcome State Fault Refusal := .next (laneP .f32 3 d a b (fcmpW false true (fun x y => ltV y x)) s)

def execFcmpGe (d : Dst) (a b : Opnd) (s : State) : Host.Outcome State Fault Refusal := .next (laneP .f32 3 d a b (fcmpW false true (fun x y => !ltV x y)) s)

def execFcmpUn (d : Dst) (a b : Opnd) (s : State) : Host.Outcome State Fault Refusal := .next (laneP .f32 3 d a b (fcmpW true false (fun _ _ => false)) s)

/-! ### Unary operations (R286, R241) -/

def execFrcp (d : Dst) (a : Opnd) (s : State) : Host.Outcome State Fault Refusal := .next (lane1 .f32 10 d a (fun w => rndW (rcpV (f32 w))) s)

def execFsqrt (d : Dst) (a : Opnd) (s : State) : Host.Outcome State Fault Refusal := .next (lane1 .f32 10 d a (fun w => rndW (sqrtV (f32 w))) s)

def execFrsq (d : Dst) (a : Opnd) (s : State) : Host.Outcome State Fault Refusal := .next (lane1 .f32 10 d a (fun w => rndW (rsqV (f32 w))) s)

def execFexp2 (d : Dst) (a : Opnd) (s : State) : Host.Outcome State Fault Refusal := .next (lane1 .f32 12 d a (fun w => rndW (exp2V (f32 w))) s)

def execFlog2 (d : Dst) (a : Opnd) (s : State) : Host.Outcome State Fault Refusal := .next (lane1 .f32 12 d a (fun w => rndW (log2V (f32 w))) s)

/-! ### Selection and classes (R287, R288) -/

/-- A selection lane by lane under a predicate; bits are copied. -/
def execFsel (d : Dst) (a b : Opnd) (k : Fin 8) (s : State) : Host.Outcome State Fault Refusal :=
  .next (elemGo s (fun v =>
    let x := readOpnd v .keep v.en a
    let y := readOpnd v .keep v.en b
    let p := v.r.p[k]
    .ok (pushV v (lat2 2 a b) d (Lanes.tab (fun i => if p.getLsbD i.val then x.val[i] else y.val[i])) v.r)))

/-- The class number of an FP32 lane (R288). -/
def fclassOf (w : Word) : Nat :=
  match f32 w with
  | .nan => 8
  | .inf s => if s then 0 else 7
  | .fin s _ =>
    let mag := w.toNat % 2 ^ 31
    let m := if mag = 0 then 0 else if mag < 2 ^ 23 then 1 else 2
    if s then 3 - m else 4 + m

def execFclass (d : Dst) (a : Opnd) (mask : BitVec 9) (s : State) : Host.Outcome State Fault Refusal :=
  .next (lane1 .f32 2 d a (fun w => (if mask.getLsbD (fclassOf w) then 1 else 0, 0)) s)

end Sys2Proof.Machine
end

