-- ==== Sys2Proof/Machine/ElemHide.lean ====
section
/-! DEFINITION. Element hide operations (R311 to R313). -/

namespace Sys2Proof.Machine

/-- PERM on a hide offset (R313). -/
def hidePerm (off : Nat) (lane : Option Nat) : FaultInfo :=
  { cls := cPerm, detail := 0xFFFF, info := BitVec.ofNat 64 off, lane := lane }

/-- May an operation name the offset? Only `hld.i` may read what the device itself writes (R313). -/
def hideAllowed (s : State) (load : Bool) (off : Nat) : Bool :=
  off < (curPart s).hideSize && (load || !hideProtected s s.cur.part off)

/-- The enabled lanes, increasing. -/
def enabledLanes (v : EView) : List (Fin 32) := (List.finRange 32).filter (fun i => v.en.getLsbD i.val)

/-- The first enabled lane whose offset is refused. -/
def hideBad (v : EView) (load : Bool) (off : Lanes) : Option FaultInfo :=
  ((enabledLanes v).find? (fun i => !hideAllowed v.s load off[i].toNat)).map (fun i => hidePerm off[i].toNat (some i.val))

/-- Buffer one operation for every enabled lane, in lane order (R192, R312). -/
def bufferHide (v : EView) (off : Lanes) (op : Fin 32 → HOp) : EOut :=
  match hideBad v false off with
  | some f => .bad v f
  | none =>
    { r := v.r, khor := [], fault := none
      hide := (enabledLanes v).map (fun i => { stamp := v.rc, who := 1 + v.e.val, off := off[i].toNat, op := op i }) }

/-- An operation with one data source. -/
def hideGo (t : NegTy) (a b : Opnd) (op : Word → HOp) (s : State) : State :=
  elemGo s (fun v =>
    let x := (readOpnd v .keep v.en a).val
    let y := (readOpnd v t v.en b).val
    bufferHide v x (fun i => op y[i]))

def execHadd (a b : Opnd) (s : State) : Host.Outcome State Fault Refusal := .next (hideGo .int a b .add s)

def execHmax (n32 : Bool) (a b : Opnd) (s : State) : Host.Outcome State Fault Refusal := .next (hideGo .keep a b (.max n32) s)

def execHmin (n32 : Bool) (a b : Opnd) (s : State) : Host.Outcome State Fault Refusal := .next (hideGo .keep a b (.min n32) s)

def execHcas (a b c : Opnd) (s : State) : Host.Outcome State Fault Refusal :=
  .next (elemGo s (fun v =>
    let x := (readOpnd v .keep v.en a).val
    let y := (readOpnd v .keep v.en b).val
    let z := (readOpnd v .keep v.en c).val
    bufferHide v x (fun i => .cas z[i] y[i])))

def execHxchg (a b : Opnd) (s : State) : Host.Outcome State Fault Refusal := .next (hideGo .keep a b .xchg s)

def execHred (a b : Opnd) (s : State) : Host.Outcome State Fault Refusal := .next (hideGo .f32 a b .fadd s)

def execHstI (hi : Bool) (a b : Opnd) (s : State) : Host.Outcome State Fault Refusal := .next (hideGo .keep a b (.st hi) s)

/-- The bank of a hide offset of the partition that executes (R74). -/
def hideBank (s : State) (off : Nat) : Nat := (curPart s).hideKey off / 65536

/-- A load performed at its bank at issue; it sees no buffered operation (R312). Every enabled lane sets out for its bank, and the result
completes in fc S + 95 unless the bank answers too late (R84, R85). One whose offset is refused reads nothing, and has no latency. -/
def execHldI (hi : Bool) (d : Dst) (a : Opnd) (s : State) : Host.Outcome State Fault Refusal :=
  .next (if h : s.cur.elem < 96 then
      let v := elemView s ⟨s.cur.elem, h⟩
      let x := (readOpnd v .keep v.en a).val
      match hideBad v true x with
      | some f => elemEnd v (.bad v f)
      | none => elemEnd v
          { EOut.ok (pushV v (96 + modLat a) d
              (Lanes.tab (fun i =>
                let w := hideRead s s.cur.part x[i].toNat
                if v.en.getLsbD i.val then (if hi then highW w else lowW w) else 0)) v.r) with
            loads := (enabledLanes v).map (fun i => (hideBank s x[i].toNat, i.val)) }
    else illegal s)

end Sys2Proof.Machine
end

