-- ==== Sys2Proof/Machine/ElemInt.lean ====
section
/-! DEFINITION. Integer and logic instructions, predicate operations and moves of an element (R289, R290, R296, R297, R298). -/

namespace Sys2Proof.Machine

/-- V(x): a lane word as a number of the type (R289). -/
def valI (n32 : Bool) (w : Word) : Int := if n32 then (w.toNat : Int) else w.toInt

/-- A result without flags. -/
def plainW (f : Word → Word → Word) (a b : Word) : Word × Flags := (f a b, 0)

/-- The number of 1 bits, and of leading 0 bits. -/
def popW (w : Word) : Nat := ((upTo 32).filter (fun i => w.getLsbD i)).length
def clzW (w : Word) : Nat := if w = 0 then 32 else 31 - Nat.log2 w.toNat

/-- ROL32 (R235). -/
def rol32 (w : Word) (n : Nat) : Word := w.rotateLeft n

/-! ### Arithmetic and logic (R289) -/

def execIadd (n32 : Bool) (d : Dst) (a b : Opnd) (s : State) : Host.Outcome State Fault Refusal :=
  .next (lane2 .int .int 2 d a b (plainW (fun x y => wrap32 (valI n32 x + valI n32 y))) s)

def execIsub (n32 : Bool) (d : Dst) (a b : Opnd) (s : State) : Host.Outcome State Fault Refusal :=
  .next (lane2 .int .int 2 d a b (plainW (fun x y => wrap32 (valI n32 x - valI n32 y))) s)

def execImul (n32 : Bool) (d : Dst) (a b : Opnd) (s : State) : Host.Outcome State Fault Refusal :=
  .next (lane2 .int .int 4 d a b (plainW (fun x y => wrap32 (valI n32 x * valI n32 y))) s)

def execImulh (n32 : Bool) (d : Dst) (a b : Opnd) (s : State) : Host.Outcome State Fault Refusal :=
  .next (lane2 .int .int 4 d a b (plainW (fun x y => wrap32 (valI n32 x * valI n32 y / 2 ^ 32))) s)

def execImin (n32 : Bool) (d : Dst) (a b : Opnd) (s : State) : Host.Outcome State Fault Refusal :=
  .next (lane2 .int .int 2 d a b (plainW (fun x y => wrap32 (min (valI n32 x) (valI n32 y)))) s)

def execImax (n32 : Bool) (d : Dst) (a b : Opnd) (s : State) : Host.Outcome State Fault Refusal :=
  .next (lane2 .int .int 2 d a b (plainW (fun x y => wrap32 (max (valI n32 x) (valI n32 y)))) s)

def execImad (n32 : Bool) (d : Dst) (a b : Opnd) (s : State) : Host.Outcome State Fault Refusal :=
  .next (lane3 .int 5 d a b (fun x y z => (wrap32 (valI n32 x * valI n32 y + valI n32 z), 0)) s)

def execAnd (d : Dst) (a b : Opnd) (s : State) : Host.Outcome State Fault Refusal := .next (lane2 .keep .keep 2 d a b (plainW (fun x y => x &&& y)) s)

def execOr (d : Dst) (a b : Opnd) (s : State) : Host.Outcome State Fault Refusal := .next (lane2 .keep .keep 2 d a b (plainW (fun x y => x ||| y)) s)

def execXor (d : Dst) (a b : Opnd) (s : State) : Host.Outcome State Fault Refusal := .next (lane2 .keep .keep 2 d a b (plainW (fun x y => x ^^^ y)) s)

def execAndn (d : Dst) (a b : Opnd) (s : State) : Host.Outcome State Fault Refusal := .next (lane2 .keep .keep 2 d a b (plainW (fun x y => x &&& ~~~y)) s)

def execShl (d : Dst) (a b : Opnd) (s : State) : Host.Outcome State Fault Refusal := .next (lane2 .keep .keep 2 d a b (plainW (fun x y => x <<< (y.toNat % 32))) s)

def execRol (d : Dst) (a b : Opnd) (s : State) : Host.Outcome State Fault Refusal := .next (lane2 .keep .keep 2 d a b (plainW (fun x y => rol32 x (y.toNat % 32))) s)

def execShr (n32 : Bool) (d : Dst) (a b : Opnd) (s : State) : Host.Outcome State Fault Refusal :=
  .next (lane2 .keep .keep 2 d a b (plainW (fun x y => wrap32 (valI n32 x / 2 ^ (y.toNat % 32)))) s)

def execPopc (d : Dst) (a : Opnd) (s : State) : Host.Outcome State Fault Refusal := .next (lane1 .keep 2 d a (fun x => (BitVec.ofNat 32 (popW x), 0)) s)

def execClz (d : Dst) (a : Opnd) (s : State) : Host.Outcome State Fault Refusal := .next (lane1 .keep 2 d a (fun x => (BitVec.ofNat 32 (clzW x), 0)) s)

/-! ### Comparisons (R290) -/

def execIcmpEq (_n32 : Bool) (d : Dst) (a b : Opnd) (s : State) : Host.Outcome State Fault Refusal := .next (laneP .int 2 d a b (fun x y => (decide (x = y), 0)) s)

def execIcmpNe (_n32 : Bool) (d : Dst) (a b : Opnd) (s : State) : Host.Outcome State Fault Refusal := .next (laneP .int 2 d a b (fun x y => (decide (x ≠ y), 0)) s)

def execIcmpLt (n32 : Bool) (d : Dst) (a b : Opnd) (s : State) : Host.Outcome State Fault Refusal := .next (laneP .int 2 d a b (fun x y => (decide (valI n32 x < valI n32 y), 0)) s)

def execIcmpLe (n32 : Bool) (d : Dst) (a b : Opnd) (s : State) : Host.Outcome State Fault Refusal := .next (laneP .int 2 d a b (fun x y => (decide (valI n32 x ≤ valI n32 y), 0)) s)

def execIcmpGt (n32 : Bool) (d : Dst) (a b : Opnd) (s : State) : Host.Outcome State Fault Refusal := .next (laneP .int 2 d a b (fun x y => (decide (valI n32 y < valI n32 x), 0)) s)

def execIcmpGe (n32 : Bool) (d : Dst) (a b : Opnd) (s : State) : Host.Outcome State Fault Refusal := .next (laneP .int 2 d a b (fun x y => (decide (valI n32 y ≤ valI n32 x), 0)) s)

/-! ### Predicate operations (R296) -/

def execPand (d : Dst) (a b : Fin 8) (s : State) : Host.Outcome State Fault Refusal := .next (predGo d (fun r => r.p[a] &&& r.p[b]) s)

def execPor (d : Dst) (a b : Fin 8) (s : State) : Host.Outcome State Fault Refusal := .next (predGo d (fun r => r.p[a] ||| r.p[b]) s)

def execPxor (d : Dst) (a b : Fin 8) (s : State) : Host.Outcome State Fault Refusal := .next (predGo d (fun r => r.p[a] ^^^ r.p[b]) s)

def execPandn (d : Dst) (a b : Fin 8) (s : State) : Host.Outcome State Fault Refusal := .next (predGo d (fun r => r.p[a] &&& ~~~r.p[b]) s)

def execPnot (d : Dst) (a : Fin 8) (s : State) : Host.Outcome State Fault Refusal := .next (predGo d (fun r => ~~~r.p[a]) s)

def execPtst (d : Dst) (a : Opnd) (s : State) : Host.Outcome State Fault Refusal := .next (lane1 .keep 2 d a (fun x => (if x = 0 then 0 else 1, 0)) s)

def execPvec (d : Dst) (a : Fin 8) (s : State) : Host.Outcome State Fault Refusal := .next (predGo d (fun r => r.p[a]) s)

/-- All 32 bits are counted, whatever the guard. -/
def execPcnt (d : Dst) (a : Fin 8) (s : State) : Host.Outcome State Fault Refusal :=
  .next (elemGo s (fun v => .ok (pushV v 2 d (Lanes.all (BitVec.ofNat 32 (popW v.r.p[a]))) v.r)))

/-! ### Moves (R297) -/

def execMov (d : Dst) (a : Opnd) (s : State) : Host.Outcome State Fault Refusal := .next (lane1 .keep 1 d a (fun x => (x, 0)) s)

def execMovi (d : Dst) (imm : BitVec 18) (s : State) : Host.Outcome State Fault Refusal :=
  .next (elemGo s (fun v => .ok (pushV v 1 d (Lanes.all (imm.signExtend 32)) v.r)))

def execMoviH (d : Dst) (imm : BitVec 16) (s : State) : Host.Outcome State Fault Refusal :=
  .next (elemGo s (fun v => .ok (pushV v 1 d (Lanes.all (imm ++ (0 : BitVec 16))) v.r)))

/-- A mark takes the 32 bits of a predicate; every lane is read, whatever the guard (R280). -/
def execMovm (d : Dst) (a : Fin 8) (s : State) : Host.Outcome State Fault Refusal :=
  .next (elemGo s (fun v => .ok (pushV v 1 d (Lanes.all v.r.p[a]) v.r)))

/-- A predicate takes the 32 bits of a mark: lane `i` gives bit `i` of the word that it reads. A permute class moves words from
lane to lane, and every lane of a mark reads the same one, so that it costs its fc and no more (R264, R279, R297). -/
def execMovmP (d : Dst) (a : Opnd) (s : State) : Host.Outcome State Fault Refusal :=
  .next (elemGo s (fun v =>
    let x := (readOpnd v .keep v.en a).val
    .ok (pushP v (1 + modLat a) d (bitsWord (fun i => (x[i]).getLsbD i.val)) v.r)))

/-- The predicate-block prefix: the guard register is copied into the latch (R260, R298). -/
def execPblk (guard : Fin 8) (nm1 : Fin 8) (pat : BitVec 8) (s : State) : Host.Outcome State Fault Refusal :=
  .next (elemGo s (fun v => .ok { v.r with guard := v.r.p[guard], pat := pat, left := nm1.val + 1 }))

end Sys2Proof.Machine
end

