-- ==== Sys2Proof/Machine/Dispatch.lean ====
section
/-! DEFINITION. One arm for each step of the part: a direct call of its meaning. -/

namespace Sys2Proof.Machine

def exec (i : Instr) (s : State) : Host.Outcome State Fault Refusal :=
  match i with
  | .powerUp fw frames board => Sys2Proof.Machine.execPowerUp fw frames board s
  | .temperature100C die => Sys2Proof.Machine.execTemperature100C die s
  | .thermtrip die => Sys2Proof.Machine.execThermtrip die s
  | .jtagReadout unlock => Sys2Proof.Machine.execJtagReadout unlock s
  | .cxlMemWrite vf addr bytes => Sys2Proof.Machine.execCxlMemWrite vf addr bytes s
  | .cxlMemRead vf addr len => Sys2Proof.Machine.execCxlMemRead vf addr len s
  | .cxlCacheSnoop line => Sys2Proof.Machine.execCxlCacheSnoop line s
  | .dcdExtentOffer port base len frame => Sys2Proof.Machine.execDcdExtentOffer port base len frame s
  | .poolLinkDown port writing => Sys2Proof.Machine.execPoolLinkDown port writing s
  | .nvmeReadCompletion frame ok => Sys2Proof.Machine.execNvmeReadCompletion frame ok s
  | .flitSend port => Sys2Proof.Machine.execFlitSend port s
  | .idle port f => Sys2Proof.Machine.execIdle port f s
  | .credit port f => Sys2Proof.Machine.execCredit port f s
  | .retry port f => Sys2Proof.Machine.execRetry port f s
  | .exponentCountHalve port dir vc => Sys2Proof.Machine.execExponentCountHalve port dir vc s
  | .retryLimit port => Sys2Proof.Machine.execRetryLimit port s
  | .retrainTimeout port => Sys2Proof.Machine.execRetrainTimeout port s
  | .mcast port f => Sys2Proof.Machine.execMcast port f s
  | .redup port f => Sys2Proof.Machine.execRedup port f s
  | .reddn port f => Sys2Proof.Machine.execReddn port f s
  | .barup port f => Sys2Proof.Machine.execBarup port f s
  | .bardn port f => Sys2Proof.Machine.execBardn port f s
  | .abort port f => Sys2Proof.Machine.execAbort port f s
  | .flitCopy port f => Sys2Proof.Machine.execFlitCopy port f s
  | .collectiveTimeout group opn => Sys2Proof.Machine.execCollectiveTimeout group opn s
  | .groupTableWrite group word => Sys2Proof.Machine.execGroupTableWrite group word s
  | .sqWpWrite vf n val => Sys2Proof.Machine.execSqWpWrite vf n val s
  | .sqEnable vf n val => Sys2Proof.Machine.execSqEnable vf n val s
  | .sqDisable vf n val => Sys2Proof.Machine.execSqDisable vf n val s
  | .sqSkip vf w => Sys2Proof.Machine.execSqSkip vf w s
  | .sqResume vf w => Sys2Proof.Machine.execSqResume vf w s
  | .evTailWrite vf val => Sys2Proof.Machine.execEvTailWrite vf val s
  | .registerWrite r val => Sys2Proof.Machine.execRegisterWrite r val s
  | .paceCtlWrite part val => Sys2Proof.Machine.execPaceCtlWrite part val s
  | .partCtlWrite r part val => Sys2Proof.Machine.execPartCtlWrite r part val s
  | .captureWindowStart die unit val => Sys2Proof.Machine.execCaptureWindowStart die unit val s
  | .captureWindowEnd die unit => Sys2Proof.Machine.execCaptureWindowEnd die unit s
  | .attestGo vf => Sys2Proof.Machine.execAttestGo vf s
  | .functionLevelReset vf => Sys2Proof.Machine.execFunctionLevelReset vf s
  | .nop tag => Sys2Proof.Machine.execNop tag s
  | .loadg tag slot origin image length => Sys2Proof.Machine.execLoadg tag slot origin image length s
  | .demand tag slot sink dep rel a b stride => Sys2Proof.Machine.execDemand tag slot sink dep rel a b stride s
  | .waits tag cond timeout off value => Sys2Proof.Machine.execWaits tag cond timeout off value s
  | .waitsTimeout vf n => Sys2Proof.Machine.execWaitsTimeout vf n s
  | .signal tag op wh off value => Sys2Proof.Machine.execSignal tag op wh off value s
  | .phase tag wh => Sys2Proof.Machine.execPhase tag wh s
  | .branch tag cond consume timeout off value mask disp => Sys2Proof.Machine.execBranch tag cond consume timeout off value mask disp s
  | .branchTimeout vf n => Sys2Proof.Machine.execBranchTimeout vf n s
  | .cancel tag level slot stream dnum => Sys2Proof.Machine.execCancel tag level slot stream dnum s
  | .quota tag add value => Sys2Proof.Machine.execQuota tag add value s
  | .timestamp tag wh => Sys2Proof.Machine.execTimestamp tag wh s
  | .fenceh tag irq => Sys2Proof.Machine.execFenceh tag irq s
  | .eventWrite vf => Sys2Proof.Machine.execEventWrite vf s
  | .startPulse part slot => Sys2Proof.Machine.execStartPulse part slot s
  | .roundCommit part slot => Sys2Proof.Machine.execRoundCommit part slot s
  | .roundVoid part slot => Sys2Proof.Machine.execRoundVoid part slot s
  | .roundBoundary part slot => Sys2Proof.Machine.execRoundBoundary part slot s
  | .promotion part slot opx => Sys2Proof.Machine.execPromotion part slot opx s
  | .waitBudgetExpiry part slot => Sys2Proof.Machine.execWaitBudgetExpiry part slot s
  | .pacingGapEnd part left => Sys2Proof.Machine.execPacingGapEnd part left s
  | .phaseBoundary part => Sys2Proof.Machine.execPhaseBoundary part s
  | .sliceExpiry part => Sys2Proof.Machine.execSliceExpiry part s
  | .graceExpiry part => Sys2Proof.Machine.execGraceExpiry part s
  | .partitionReset o => Sys2Proof.Machine.execPartitionReset o s
  | .hldILate core elem li lane late => Sys2Proof.Machine.execHldILate core elem li lane late s
  | .starvationGrant arbiter => Sys2Proof.Machine.execStarvationGrant arbiter s
  | .residueLimit core check => Sys2Proof.Machine.execResidueLimit core check s
  | .replayLimit part slot => Sys2Proof.Machine.execReplayLimit part slot s
  | .boundaryStepLimit part slot => Sys2Proof.Machine.execBoundaryStepLimit part slot s
  | .engineCommandComplete id => Sys2Proof.Machine.execEngineCommandComplete id s
  | .frameFetch frame => Sys2Proof.Machine.execFrameFetch frame s
  | .frameMove frame tier loc => Sys2Proof.Machine.execFrameMove frame tier loc s
  | .frameEvict frame loc => Sys2Proof.Machine.execFrameEvict frame loc s
  | .relatchToken all base run => Sys2Proof.Machine.execRelatchToken all base run s
  | .framePoison loss => Sys2Proof.Machine.execFramePoison loss s
  | .frameReclaim frame => Sys2Proof.Machine.execFrameReclaim frame s
  | .cattrChange frame attr ttEntry => Sys2Proof.Machine.execCattrChange frame attr ttEntry s
  | .translation core port use coord => Sys2Proof.Machine.execTranslation core port use coord s
  | .sequenceSwapIn part seq => Sys2Proof.Machine.execSequenceSwapIn part seq s
  | .pageSetReclaim base => Sys2Proof.Machine.execPageSetReclaim base s
  | .faddF32 d a b => Sys2Proof.Machine.execFaddF32 d a b s
  | .fsubF32 d a b => Sys2Proof.Machine.execFsubF32 d a b s
  | .fmulF32 d a b => Sys2Proof.Machine.execFmulF32 d a b s
  | .fmadF32 d a b => Sys2Proof.Machine.execFmadF32 d a b s
  | .fmsbF32 d a b => Sys2Proof.Machine.execFmsbF32 d a b s
  | .fnmaF32 d a b => Sys2Proof.Machine.execFnmaF32 d a b s
  | .fminF32 d a b => Sys2Proof.Machine.execFminF32 d a b s
  | .fmaxF32 d a b => Sys2Proof.Machine.execFmaxF32 d a b s
  | .faddHalf bf d a b => Sys2Proof.Machine.execFaddHalf bf d a b s
  | .fsubHalf bf d a b => Sys2Proof.Machine.execFsubHalf bf d a b s
  | .fmulHalf bf d a b => Sys2Proof.Machine.execFmulHalf bf d a b s
  | .fmadHalf bf d a b => Sys2Proof.Machine.execFmadHalf bf d a b s
  | .fmsbHalf bf d a b => Sys2Proof.Machine.execFmsbHalf bf d a b s
  | .fnmaHalf bf d a b => Sys2Proof.Machine.execFnmaHalf bf d a b s
  | .fminHalf bf d a b => Sys2Proof.Machine.execFminHalf bf d a b s
  | .fmaxHalf bf d a b => Sys2Proof.Machine.execFmaxHalf bf d a b s
  | .fcmpEq d a b => Sys2Proof.Machine.execFcmpEq d a b s
  | .fcmpNe d a b => Sys2Proof.Machine.execFcmpNe d a b s
  | .fcmpLt d a b => Sys2Proof.Machine.execFcmpLt d a b s
  | .fcmpLe d a b => Sys2Proof.Machine.execFcmpLe d a b s
  | .fcmpGt d a b => Sys2Proof.Machine.execFcmpGt d a b s
  | .fcmpGe d a b => Sys2Proof.Machine.execFcmpGe d a b s
  | .fcmpUn d a b => Sys2Proof.Machine.execFcmpUn d a b s
  | .frcp d a => Sys2Proof.Machine.execFrcp d a s
  | .fsqrt d a => Sys2Proof.Machine.execFsqrt d a s
  | .frsq d a => Sys2Proof.Machine.execFrsq d a s
  | .fexp2 d a => Sys2Proof.Machine.execFexp2 d a s
  | .flog2 d a => Sys2Proof.Machine.execFlog2 d a s
  | .fsel d a b k => Sys2Proof.Machine.execFsel d a b k s
  | .fclass d a mask => Sys2Proof.Machine.execFclass d a mask s
  | .iadd n32 d a b => Sys2Proof.Machine.execIadd n32 d a b s
  | .isub n32 d a b => Sys2Proof.Machine.execIsub n32 d a b s
  | .imul n32 d a b => Sys2Proof.Machine.execImul n32 d a b s
  | .imulh n32 d a b => Sys2Proof.Machine.execImulh n32 d a b s
  | .imad n32 d a b => Sys2Proof.Machine.execImad n32 d a b s
  | .imin n32 d a b => Sys2Proof.Machine.execImin n32 d a b s
  | .imax n32 d a b => Sys2Proof.Machine.execImax n32 d a b s
  | .and d a b => Sys2Proof.Machine.execAnd d a b s
  | .or d a b => Sys2Proof.Machine.execOr d a b s
  | .xor d a b => Sys2Proof.Machine.execXor d a b s
  | .andn d a b => Sys2Proof.Machine.execAndn d a b s
  | .shl d a b => Sys2Proof.Machine.execShl d a b s
  | .shr n32 d a b => Sys2Proof.Machine.execShr n32 d a b s
  | .rol d a b => Sys2Proof.Machine.execRol d a b s
  | .popc d a => Sys2Proof.Machine.execPopc d a s
  | .clz d a => Sys2Proof.Machine.execClz d a s
  | .icmpEq n32 d a b => Sys2Proof.Machine.execIcmpEq n32 d a b s
  | .icmpNe n32 d a b => Sys2Proof.Machine.execIcmpNe n32 d a b s
  | .icmpLt n32 d a b => Sys2Proof.Machine.execIcmpLt n32 d a b s
  | .icmpLe n32 d a b => Sys2Proof.Machine.execIcmpLe n32 d a b s
  | .icmpGt n32 d a b => Sys2Proof.Machine.execIcmpGt n32 d a b s
  | .icmpGe n32 d a b => Sys2Proof.Machine.execIcmpGe n32 d a b s
  | .cvt pair d a => Sys2Proof.Machine.execCvt pair d a s
  | .pack dst pos d a b => Sys2Proof.Machine.execPack dst pos d a b s
  | .unpk src pos d a b => Sys2Proof.Machine.execUnpk src pos d a b s
  | .perm d a b => Sys2Proof.Machine.execPerm d a b s
  | .lrd op g all d a => Sys2Proof.Machine.execLrd op g all d a s
  | .redAdd ty g all d a => Sys2Proof.Machine.execRedAdd ty g all d a s
  | .redMax ty g all d a => Sys2Proof.Machine.execRedMax ty g all d a s
  | .redMin ty g all d a => Sys2Proof.Machine.execRedMin ty g all d a s
  | .scanAdd ty g d a => Sys2Proof.Machine.execScanAdd ty g d a s
  | .pand d a b => Sys2Proof.Machine.execPand d a b s
  | .por d a b => Sys2Proof.Machine.execPor d a b s
  | .pxor d a b => Sys2Proof.Machine.execPxor d a b s
  | .pandn d a b => Sys2Proof.Machine.execPandn d a b s
  | .pnot d a => Sys2Proof.Machine.execPnot d a s
  | .ptst d a => Sys2Proof.Machine.execPtst d a s
  | .pvec d a => Sys2Proof.Machine.execPvec d a s
  | .pcnt d a => Sys2Proof.Machine.execPcnt d a s
  | .mov d a => Sys2Proof.Machine.execMov d a s
  | .movi d imm => Sys2Proof.Machine.execMovi d imm s
  | .moviH d imm => Sys2Proof.Machine.execMoviH d imm s
  | .movm d a => Sys2Proof.Machine.execMovm d a s
  | .movmP d a => Sys2Proof.Machine.execMovmP d a s
  | .pblk guard nm1 pat => Sys2Proof.Machine.execPblk guard nm1 pat s
  | .xpnd ty d a => Sys2Proof.Machine.execXpnd ty d a s
  | .qidx ty bank d a => Sys2Proof.Machine.execQidx ty bank d a s
  | .blkh d a b => Sys2Proof.Machine.execBlkh d a b s
  | .hadd a b => Sys2Proof.Machine.execHadd a b s
  | .hmax n32 a b => Sys2Proof.Machine.execHmax n32 a b s
  | .hmin n32 a b => Sys2Proof.Machine.execHmin n32 a b s
  | .hcas a b c => Sys2Proof.Machine.execHcas a b c s
  | .hxchg a b => Sys2Proof.Machine.execHxchg a b s
  | .hred a b => Sys2Proof.Machine.execHred a b s
  | .hldI hi d a => Sys2Proof.Machine.execHldI hi d a s
  | .hstI hi a b => Sys2Proof.Machine.execHstI hi a b s
  | .bdot ty boff km1 d a b c => Sys2Proof.Machine.execBdot ty boff km1 d a b c s
  | .bdotSet nb d a => Sys2Proof.Machine.execBdotSet nb d a s
  | .scacc d a b c => Sys2Proof.Machine.execScacc d a b c s
  | .scanAff g d a b c => Sys2Proof.Machine.execScanAff g d a b c s
  | .scanAffG g d a b c => Sys2Proof.Machine.execScanAffG g d a b c s
  | .scanAffk g j d a b => Sys2Proof.Machine.execScanAffk g j d a b s
  | .kset j a b => Sys2Proof.Machine.execKset j a b s
  | .kget gain d j => Sys2Proof.Machine.execKget gain d j s
  | .kclr j => Sys2Proof.Machine.execKclr j s
  | .khor j => Sys2Proof.Machine.execKhor j s
  | .sdef port n => Sys2Proof.Machine.execSdef port n s
  | .sset port f a => Sys2Proof.Machine.execSset port f a s
  | .sstep mask => Sys2Proof.Machine.execSstep mask s
  | .sarm port a b => Sys2Proof.Machine.execSarm port a b s
  | .copy a b n => Sys2Proof.Machine.execCopy a b n s
  | .gather a b n c rb => Sys2Proof.Machine.execGather a b n c rb s
  | .xf sel a b n c x link => Sys2Proof.Machine.execXf sel a b n c x link s
  | .collMc a b n pfmt cls group => Sys2Proof.Machine.execCollMc a b n pfmt cls group s
  | .collBar cls group => Sys2Proof.Machine.execCollBar cls group s
  | .collRed rop a b n pfmt cls group d => Sys2Proof.Machine.execCollRed rop a b n pfmt cls group d s
  | .stirQk kf a b c l0 nlm1 ko vo => Sys2Proof.Machine.execStirQk kf a b c l0 nlm1 ko vo s
  | .stirPv a b l0 nlm1 => Sys2Proof.Machine.execStirPv a b l0 nlm1 s
  | .stirGet b l0 nlm1 => Sys2Proof.Machine.execStirGet b l0 nlm1 s
  | .kvApp a n => Sys2Proof.Machine.execKvApp a n s
  | .kvFork a b n => Sys2Proof.Machine.execKvFork a b n s
  | .kvPin a b => Sys2Proof.Machine.execKvPin a b s
  | .kvUnpin b => Sys2Proof.Machine.execKvUnpin b s
  | .kvFree a => Sys2Proof.Machine.execKvFree a s
  | .pxlk d a b => Sys2Proof.Machine.execPxlk d a b s
  | .pxin d a b c => Sys2Proof.Machine.execPxin d a b c s
  | .pxev d a b => Sys2Proof.Machine.execPxev d a b s
  | .flushFrame d a => Sys2Proof.Machine.execFlushFrame d a s
  | .tstep slot acc bank repm1 intm1 mask => Sys2Proof.Machine.execTstep slot acc bank repm1 intm1 mask s
  | .smode slot row0 col0 nrm1 ncm1 form fmt => Sys2Proof.Machine.execSmode slot row0 col0 nrm1 ncm1 form fmt s
  | .sload slot lines seg off => Sys2Proof.Machine.execSload slot lines seg off s
  | .sgain slot a all row => Sys2Proof.Machine.execSgain slot a all row s
  | .sread slot clr => Sys2Proof.Machine.execSread slot clr s
  | .stw bank a idx => Sys2Proof.Machine.execStw bank a idx s
  | .stsw bank => Sys2Proof.Machine.execStsw bank s
  | .stinv bank first nm1 => Sys2Proof.Machine.execStinv bank first nm1 s
  | .stsz bank size => Sys2Proof.Machine.execStsz bank size s
  | .seqAdd d a b => Sys2Proof.Machine.execSeqAdd d a b s
  | .seqSub d a b => Sys2Proof.Machine.execSeqSub d a b s
  | .seqMul d a b => Sys2Proof.Machine.execSeqMul d a b s
  | .seqAnd d a b => Sys2Proof.Machine.execSeqAnd d a b s
  | .seqOr d a b => Sys2Proof.Machine.execSeqOr d a b s
  | .seqXor d a b => Sys2Proof.Machine.execSeqXor d a b s
  | .seqShl d a b => Sys2Proof.Machine.execSeqShl d a b s
  | .seqShr d a b => Sys2Proof.Machine.execSeqShr d a b s
  | .sra d a b => Sys2Proof.Machine.execSra d a b s
  | .li d imm => Sys2Proof.Machine.execLi d imm s
  | .ins d imm k => Sys2Proof.Machine.execIns d imm k s
  | .br cond a b disp => Sys2Proof.Machine.execBr cond a b disp s
  | .loop a disp => Sys2Proof.Machine.execLoop a disp s
  | .fin opx => Sys2Proof.Machine.execFin opx s
  | .seqDemand rel d a b slot sink stride => Sys2Proof.Machine.execSeqDemand rel d a b slot sink stride s
  | .post a b => Sys2Proof.Machine.execPost a b s
  | .early opx => Sys2Proof.Machine.execEarly opx s
  | .seqCancel a level => Sys2Proof.Machine.execSeqCancel a level s
  | .waitc kind d a b => Sys2Proof.Machine.execWaitc kind d a b s
  | .sig op a b => Sys2Proof.Machine.execSig op a b s
  | .trap a code => Sys2Proof.Machine.execTrap a code s
  | .brk code => Sys2Proof.Machine.execBrk code s
  | .rdst d st sel => Sys2Proof.Machine.execRdst d st sel s
  | .wrst a st sel => Sys2Proof.Machine.execWrst a st sel s
  | .cnt k n => Sys2Proof.Machine.execCnt k n s
  | .malformedFlit port => Sys2Proof.Machine.execMalformedFlit port s
  | .linkRetrainSuccess port => Sys2Proof.Machine.execLinkRetrainSuccess port s
  | .cxlMemWindowOpen vf base frames home => Sys2Proof.Machine.execCxlMemWindowOpen vf base frames home s
  | .cxlMemWindowClose vf => Sys2Proof.Machine.execCxlMemWindowClose vf s
  | .keySlotLoad vf slot edKey mlKey => Sys2Proof.Machine.execKeySlotLoad vf slot edKey mlKey s
  | .powerCap watts => Sys2Proof.Machine.execPowerCap watts s
  | .pwrGoodLow => Sys2Proof.Machine.execPwrGoodLow s
  | .sysRstN => Sys2Proof.Machine.execSysRstN s
  | .perstN => Sys2Proof.Machine.execPerstN s
  | .hostLinkTraining => Sys2Proof.Machine.execHostLinkTraining s
  | .configurationRequest => Sys2Proof.Machine.execConfigurationRequest s
  | .bootTimeout => Sys2Proof.Machine.execBootTimeout s
  | .powerRemoved => Sys2Proof.Machine.execPowerRemoved s
  | .hitch => Sys2Proof.Machine.execHitch s
  | .hitchArmSw => Sys2Proof.Machine.execHitchArmSw s
  | .drainMt => Sys2Proof.Machine.execDrainMt s
  | .drainLoft => Sys2Proof.Machine.execDrainLoft s
  | .drainHide => Sys2Proof.Machine.execDrainHide s
  | .seal => Sys2Proof.Machine.execSeal s
  | .seqNop => Sys2Proof.Machine.execSeqNop s
  | .yld => Sys2Proof.Machine.execYld s
  | .halt => Sys2Proof.Machine.execHalt s

end Sys2Proof.Machine
end

