-- ==== Sys2Proof/Machine/Fetch.lean ====
section
/-! DEFINITION. Which agent moves next, and what it fetches: list entries of elements and sequencers (R200, R255, R256, R349, R350),
packets (R55), the steps that the device sets itself, and what comes from outside. -/

namespace Sys2Proof.Machine

/-! ### Entries -/

/-- An entry of a list decoded, with its continuation where it has one. -/
def entryAt (seq : Bool) (l : List DWord) (i : Nat) : Dec Instr := decodeEntry seq ((l.drop i).headD 0) ((l.drop (i + 1)).head?)

/-- The index of the entry that follows. -/
def afterEntry (l : List DWord) (i : Nat) : Nat := if contOf ((l.drop i).headD 0) then i + 2 else i + 1

/-- Who executes: an agent of a graph. -/
def agentCtx (s : State) (p slot core elem li : Nat) : Ctx :=
  { part := p, slot := slot, core := coreNo core, elem := elem, li := li, vf := (partOf s p).vf, stream := s.cur.stream }

/-- Execute a decoded entry; one that does not decode is ILLEGAL (R266). -/
def runEntry (s : State) (i : Dec Instr) : Host.Outcome State Fault Refusal :=
  match i with
  | .ok i => exec i s
  | .error _ => .next (illegal s)

/-- The list of an agent, and where it stands in it. -/
def agentList (s : State) (a : Agent) : List DWord × Nat :=
  let k := coreOf s (coreNo a.core)
  if a.elem < 96 then let x := elemOf k (Fin.ofNat 96 a.elem); (x.list, x.li) else (k.seqList, k.seqLi)

/-- The agent moves past its entry. -/
def passEntry (s : State) (a : Agent) (li : Nat) : State :=
  modCore s (coreNo a.core) (fun k =>
    if a.elem < 96 then modElem k (Fin.ofNat 96 a.elem) (fun x => { x with li := li }) else { k with seqLi := li })

/-- The state in which an agent's entry executes. -/
def agentState (s : State) (p slot : Nat) (a : Agent) (rest : List Agent) : State :=
  let l := agentList s a
  let s := modGraph s p slot (fun g => { g with todo := rest })
  { passEntry s a (afterEntry l.1 l.2) with cur := agentCtx s p slot a.core a.elem l.2 }

/-- The lowest of some lanes. -/
def lowestOf (l : List (Fin 32)) : Option (Fin 32) :=
  l.foldl (fun b n => match b with
    | none => some n
    | some m => if n < m then some n else some m) none

/-- The lowest lane of a mask. -/
def lowestLane (en : Word) : Option (Fin 32) := (List.finRange 32).find? (fun i => en.getLsbD i.val)

/-- Is the word one that a register names? -/
def Reg'.names (r : ElemRegs) (w : RWord) : Reg' → Bool
  | .v n => w.place = .v (physV r (Fin.ofNat 32 n))
  | .s n => w.place = .s (Fin.ofNat 8 n)
  | .p _ => false
  | .m n => w.place = .m && w.lane.val = n
  | .k j => w.place = .kState (Fin.ofNat 4 j) || w.place = .kGain (Fin.ofNat 4 j)

/-- The lane in which a word is read by an instruction that reads the lanes `en` of its place. -/
def laneIn (en : Word) (w : RWord) : Option (Fin 32) := if en.getLsbD w.lane.val then some w.lane else none

/-- The lane in which a register's reading in the lanes `en` reads a word; a mark is read by every lane (R262). -/
def Reg'.readLane (r : ElemRegs) (en : Word) (w : RWord) (q : Reg') : Option (Fin 32) :=
  if q.names r w then (match q with
    | .m _ => lowestLane en
    | .v _ | .s _ | .p _ | .k _ => laneIn en w) else none

/-- Where an element finds its neighbour's result register: inside the core, or across an edge (R203, R262). -/
def nearPlace (e : Fin 96) (d : Fin 4) : RPlace :=
  match d with
  | 0 => if elemRow e.val = 0 then .edge 0 else .res (Fin.ofNat 96 (e.val - 12))
  | 1 => if elemRow e.val = 7 then .edge 1 else .res (Fin.ofNat 96 (e.val + 12))
  | 2 => if elemCol e.val = 11 then .edge 2 else .res (Fin.ofNat 96 (e.val + 1))
  | 3 => if elemCol e.val = 0 then .edge 3 else .res (Fin.ofNat 96 (e.val - 1))

/-- The lane in which a source, read in the lanes `en`, reads a word (R262). -/
def srcLane (r : ElemRegs) (e : Fin 96) (en : Word) (w : RWord) (o : Src) : Option (Fin 32) :=
  let at' (p : RPlace) := if w.place = p then laneIn en w else none
  match o with
  | .hl => at' (.line (hLine e))
  | .vl => at' (.line (vLine e))
  | .nN => at' (nearPlace e 0)
  | .nS => at' (nearPlace e 1)
  | .nE => at' (nearPlace e 2)
  | .nW => at' (nearPlace e 3)
  | .v _ | .s _ | .m _ => lowestOf ((srcReg o).filterMap (fun q => q.readLane r en w))
  | .z | .lid => none

/-- A cross-lane instruction: it reads every lane of its sources, whatever the guard (R280). -/
def crossLane : Instr → Bool
  | .perm _ _ _ | .lrd _ _ _ _ _ | .redAdd _ _ _ _ _ | .redMax _ _ _ _ _ | .redMin _ _ _ _ _ | .scanAdd _ _ _ _ | .blkh _ _ _ | .pcnt _ _
  | .movm _ _ | .movmP _ _ => true
  | _ => false

/-- A modifier of class 001 to 011: every lane of its source is read (R264, R280). -/
def wholeCls : ModCls → Bool
  | .rot _ _ | .bfly _ _ | .bcast _ _ => true
  | .plain | .x4 _ _ | .x8 _ _ => false

/-- The lowest lane in which an element entry reads a word (R205, R280, R283). -/
def readLane (r : ElemRegs) (e : Fin 96) (i : Instr) (w : RWord) : Option (Fin 32) :=
  let en := (takeGuard r).1
  match i with
  | .khor j => if Reg'.names r w (.k j.val) then some w.lane else none
  | i => (factOf i).bind (fun f =>
      let regs := f.reads ++ (if f.readsD then (f.dst.map dstReg).getD [] else [])
      lowestOf (f.srcs.filterMap (fun o => srcLane r e (if crossLane i || wholeCls o.cls then 0xFFFFFFFF else en) w o.src)
        ++ regs.filterMap (fun q => q.readLane r en w)))

/-- The check that an agent's entry meets: of the words that it reads, the one of the lowest lane which its residue does not fit (R205, R282). -/
def entryCheck (s : State) (a : Agent) (i : Dec Instr) : Option Instr :=
  match i with
  | .ok i =>
    if a.elem < 96 then
      let c := coreNo a.core
      let e := Fin.ofNat 96 a.elem
      (residAt s c e (readLane (elemOf (coreOf s c) e).r e i)).map (residueRead c e (agentList s a).2)
    else none
  | .error _ => none

/-- What the check found follows the entry at once; of the two faults of one entry the first in the order of R128 is kept. -/
def withCheck (c : Option Instr) : Host.Outcome State Fault Refusal → Host.Outcome State Fault Refusal
  | .next s => .next (c.elim s (addUrgent s))
  | o => o

/-- A TIMED ENTRY fires: the first agent of the fc that has not fired yet (R200, R256), and the words that it reads are checked (R134, R205). -/
def fireAgent (s : State) (p slot : Nat) (a : Agent) (rest : List Agent) : Host.Outcome State Fault Refusal :=
  let l := agentList s a
  let i := entryAt (!(a.elem < 96)) l.1 l.2
  withCheck (entryCheck s a i) (runEntry (agentState s p slot a rest) i)

/-- The end of a section entry: the section may have ended. -/
def afterSection (p slot : Nat) : Host.Outcome State Fault Refusal → Host.Outcome State Fault Refusal
  | .next s => .next (closeSection s p slot)
  | o => o

/-- The state in which a section entry executes. -/
def sectionState (s : State) (p slot core : Nat) : State :=
  let k := coreOf s (coreNo core)
  let s := modCore s (coreNo core) (fun k => { k with secLi := afterEntry k.seqList k.secLi, secCount := k.secCount + 1, secWait := false, secFired := true })
  { s with cur := agentCtx s p slot core 127 k.secLi }

/-- A SECTION ENTRY executes: past the last one the section ends as with `yld`; the 65 536th is TRAP 0xFFFD (R349, R350). -/
def fireSection (s : State) (p slot core : Nat) : Host.Outcome State Fault Refusal :=
  let k := coreOf s (coreNo core)
  if k.seqList.length ≤ k.secLi then .next (closeSection (modCore s (coreNo core) (fun k => { k with secOn := false })) p slot)
  else if 65536 ≤ k.secCount + 1 then
    afterSection p slot
      (exec (.boundaryStepLimit (BitVec.ofNat 6 p) (BitVec.ofNat 6 slot)) (modCore s (coreNo core) (fun k => { k with secCount := k.secCount + 1 })))
  else afterSection p slot (runEntry (sectionState s p slot core) (entryAt true k.seqList k.secLi))

/-! ### Packets (R55, R65, R81) -/

/-- The TAG of a packet that does not decode. -/
def tagOf (w0 : DWord) : BitVec 16 := BitVec.ofNat 16 (bitsN w0 16 16)

/-- The state in which a packet executes: its host line is held. -/
def packetState (s : State) (vf : Nat) (n : Fin 8) : State :=
  let q := streamOf s vf n
  let s := holdLine s (q.base.toNat + q.rp)
  { s with cur := { s.cur with vf := vf, stream := n } }

/-- A PACKET executes; one that has ended with an event still to be written waits for it (R68). -/
def firePacket (s : State) (vf : Nat) (n : Fin 8) : Host.Outcome State Fault Refusal :=
  let t := packetState s vf n
  if (streamOf s vf n).stage = 4 then .next (haltWritten t)
  else match packetAt s vf n with
    | .ok i => exec i t
    | .error e => .next (rejectPacket e.reason (tagOf ((packetWords s vf n).headD 0)) t)

/-! ### Moves -/

/-- Who may move. -/
inductive Move where
  | inbox | task
  | stream (vf : Nat) (n : Fin 8)
  | graph (p slot : Nat)
  | sect (p slot core : Nat)
  | engine (id : Nat)
  | boundary (p : Nat)
  | event (vf : Nat)
  | flit (port : Fin 18)
  | clock
  deriving DecidableEq, Repr

/-- Does the VF run on its partition, with its context in place (R80, R81)? -/
def vfRuns (s : State) (vf : Nat) : Bool := (runningPart s vf).elim false (fun p => (partOf s p).switching = .none)

/-- Has a front end a packet that it may begin or go on with? A suspended VF's packets are held, but for NOP, and so are those of a VF whose
context is being saved or restored (R55, R81). -/
def streamReady (s : State) (vf : Nat) (n : Fin 8) : Bool :=
  let q := streamOf s vf n
  q.en && (q.state = .run || q.state = .wait) && q.rp ≠ q.wp && s.boot = .ready
    && (vfRuns s vf || (partOfVf s vf).isSome && (match packetAt s vf n with | .ok (.nop _) => true | _ => false))

/-- Has a graph a move of its own in this fc, other than an entry of its section? A round ends when its immediate loads have returned (R85). -/
def graphReady (s : State) (p : Nat) (g : Graph) : Bool :=
  match g.run with
  | .idle => false
  | .sect => !g.cores.any (fun c => (coreOf s (coreNo c)).secOn)
  | .round => !g.todo.isEmpty
  | .boundary => g.bndLeft = 0
  | .ended => !loadsOut s g.cores
  | .heldCommit => !engineHeld s p g && !versionHeld s p g
  | .ready => pulseFree s p g || holdOver s g

/-- Must a graph still move before the fc can end: an entry is due, a section has not executed its entry, a round has ended (R13,
R256)? The idle cycles before a start pulse and during a hold are the implementation's (R2). -/
def graphDue (s : State) (p : Nat) (g : Graph) : Bool :=
  match g.run with
  | .round => !g.todo.isEmpty
  | .boundary => g.bndLeft = 0
  | .ended => !loadsOut s g.cores
  | .heldCommit => !commitHeld s p g
  | .sect => !g.cores.any (fun c => (coreOf s (coreNo c)).secOn)
      || g.cores.any (fun c => let k := coreOf s (coreNo c); k.secOn && !k.secFired)
  | .idle | .ready => false

def clockDue (s : State) : Bool := s.parts.any (fun e => e.2.graphs.any (fun g => graphDue s e.1 g.2))

/-- May a port send a queued flit (R35)? -/
def flitReady (s : State) (i : Fin 18) : Bool :=
  let p := portOf s i
  p.up && !p.retraining && p.replay.length < 256 && (nextFlit p).isSome

/-- Every move that can be made now; while HITCH holds, only what comes from outside (R89). -/
def movesOf (s : State) : List Move :=
  let inb := if s.inbox.isEmpty then [] else [Move.inbox]
  if s.hitch then inb ++ [.clock]
  else
    inb ++ (if s.tasks.isEmpty then [] else [.task])
      ++ s.vfs.flatMap (fun v => (List.finRange 8).filterMap (fun n => if streamReady s v.1 n then some (.stream v.1 n) else none))
      ++ s.parts.flatMap (fun e =>
          e.2.graphs.flatMap (fun g =>
            (if graphReady s e.1 g.2 then [.graph e.1 g.1] else [])
              ++ (if g.2.run = .sect then (g.2.cores.filter (fun c => let k := coreOf s (coreNo c); k.secOn && !k.secFired)).map (fun c => .sect e.1 g.1 c) else []))
            ++ (if e.2.bndReq || e.2.bndStarted then [.boundary e.1] else []))
      ++ s.engines.map (fun r => .engine r.id)
      ++ (s.vfs.filter (fun v => eventReady s v.1)).map (fun v => .event v.1)
      ++ ((List.finRange 18).filter (flitReady s)).map .flit
      ++ (if clockDue s then [] else [.clock])

/-! ### One move -/

/-- May the input be acted on: while HITCH holds, only resets, the removal of power and the debug port (R89, R91); without power, and
until the device is ready, only what brings it up (R21 to R24)? -/
def hitchInput : Instr → Bool
  | .pwrGoodLow | .sysRstN | .perstN | .powerRemoved | .jtagReadout _ => true
  | _ => false

def bootInput : Instr → Bool
  | .pwrGoodLow | .sysRstN | .perstN | .powerRemoved | .powerUp _ _ _ | .hostLinkTraining | .configurationRequest | .bootTimeout
  | .hitch | .jtagReadout _ | .thermtrip _ => true
  | _ => false

/-- What the outside may do now. Without power nothing answers but the rise of the supply (R21). -/
def inputActs (s : State) (i : Instr) : Bool :=
  if s.hitch then hitchInput i
  else match s.boot with
    | .ready => true
    | .off => (match i with | .pwrGoodLow | .sysRstN | .perstN | .powerRemoved | .powerUp _ _ _ => true | _ => false)
    | .reset | .booting | .failed => bootInput i

/-- What a graph does next. -/
def fireGraph (s : State) (p slot : Nat) : Host.Outcome State Fault Refusal :=
  match graphOf s p slot with
  | none => .next s
  | some g =>
    let a := BitVec.ofNat 6 p
    let b := BitVec.ofNat 6 slot
    match g.run with
    | .round => (match g.todo with
        | x :: rest => fireAgent s p slot x rest
        | [] => .next s)
    | .ended => if g.fault.isSome then exec (.roundVoid a b) s else exec (.roundCommit a b) s
    | .heldCommit => exec (.roundCommit a b) s
    | .boundary => exec (.roundBoundary a b) s
    | .ready => if holdOver s g then .next (releaseHold s p slot) else exec (.startPulse a b) s
    | .sect => .next (closeSection s p slot)
    | .idle => .next s

/-- Does the wait counter of a graph run in an fc (R113)? Not in a pacing gap of its partition, whatever waits (R19; log entry 69), and not in
the fc of a phase boundary (R184). A section that waits counts once, on however many cores it waits. -/
def waitRuns (s : State) (p : Nat) (e : Nat × Graph) : Bool :=
  let x := partOf s p
  !x.bndStarted && x.gapLeft = 0 && (match e.2.run with
    | .idle => e.2.hold.isNone && waitsForWork x e.1
    | .ready => !pulseFree s p e.2 && e.2.hold.isNone && waitsForWork x e.1
    | .heldCommit => engineHeld s p e.2 && !allocHeld s p e.2
    | .sect => e.2.cores.any (fun c => let k := coreOf s (coreNo c); k.secOn && k.secWait)
    | .round | .ended | .boundary => false)

/-- One fc of a graph: a round's cycle ends, the fixed boundary work goes on, a section may execute its next entry. -/
def graphTick (s : State) (p slot : Nat) : State :=
  match graphOf s p slot with
  | none => s
  | some g =>
    match g.run with
    | .round => tick s p slot
    | .boundary => modGraph s p slot (fun g => { g with bndLeft := g.bndLeft - 1 })
    | .sect => modCores s g.cores (fun k => { k with secFired := false })
    | .idle | .ready | .ended | .heldCommit => s

/-- One fc of a partition: its wait counters, its graphs, its pacing gap and its slice. -/
def partClock (s t : State) (p : Nat) : State :=
  let gs := (partOf s p).graphs
  let t := (gs.filter (fun g => waitRuns s p g)).foldl (fun t g => bumpWait t p g.1) t
  partTick (gs.foldl (fun t g => graphTick t p g.1) t) p

/-- THE FABRIC CLOCK (R13): one fc passes for every graph, partition, arbiter and capture unit of the device at once. -/
def clockTick (s : State) : State :=
  if s.hitch || clockDue s || s.boot ≠ .ready then s
  else
    let t := { s with clk := s.clk + 1, fc := s.fc + 1 }
    capTick (arbTick (s.parts.foldl (fun t e => partClock s t e.1) t))

/-- Make a move. -/
def fire (s : State) : Move → Host.Outcome State Fault Refusal
  | .inbox => (match s.inbox with
      | i :: rest =>
        let t := { s with inbox := rest }
        if inputActs s i then exec i t else .next t
      | [] => .next s)
  | .task => (match s.tasks with
      | i :: rest => exec i { s with tasks := rest }
      | [] => .next s)
  | .stream vf n => firePacket s vf n
  | .graph p slot => fireGraph s p slot
  | .sect p slot core => fireSection s p slot core
  | .engine id => exec (.engineCommandComplete id) s
  | .boundary p => exec (.phaseBoundary (BitVec.ofNat 6 p)) s
  | .event vf => exec (.eventWrite (BitVec.ofNat 8 vf)) s
  | .flit port => exec (.flitSend port) s
  | .clock => .next (clockTick s)

/-- The choice among the moves (log entry 4): the next entry of `turn`, and with none left, each in its turn. -/
def choose (s : State) : Move × State :=
  let ms := movesOf s
  match s.turn with
  | n :: rest => ((ms.drop (n % ms.length)).headD .clock, { s with turn := rest })
  | [] => ((ms.drop (s.rr % ms.length)).headD .clock, { s with rr := s.rr + 1 })

/-- What has to happen at once comes first; then a move. -/
def stepOnce (s : State) : Host.Outcome State Fault Refusal :=
  match s.urgent with
  | i :: rest => if s.hitch && !hitchInput i then .next { s with urgent := rest } else exec i { s with urgent := rest }
  | [] => let c := choose s; fire c.2 c.1

/-! ### Placing one instruction where the next step fetches it (log entry 1) -/

/-- A graph of one operator with one core, in flight or in its section, with nothing else due. -/
def oneGraph (sect : Bool) (todo : List Agent) : Graph :=
  let d : OpDesc := { nin := 0, scls := 0, t := 1, rounds := 1, qd := 0, qmt := 0, origin := 0, limit := 0, ins := [] }
  let u : ArmUnit := { step := 0, first := 0, last := 0, stride := 1, prio := 0, rcnt := 0, trig := false, cell := 0, fresh := false, took := none }
  { l := 4095, budget := 65535, xd := false, ops := [d], sinks := [], ckpts := [], tensors := [], cores := [0], vf := 0, stream := 0, image := 0
    st := [(0, { need := [], had := [], f := 0, wb := 0, win := [], slots := [], kpos := 0, ck := [], hz := { v := false, time := 0 }, passed := 0
                 passedBy := none, promoted := [], arm := some u })]
    run := if sect then .sect else .round
    rc := 0, todo := todo, fault := none, hit := none, lastVoid := false, hold := none, stopped := false, stopNext := false, fresh := false
    waitCnt := 0, bndLeft := 0, sectEnd := none, cancels := [], waiting := [], late := [], repeatCls := 0, repeatOpx := 0, repeatStep := 0, repeatCnt := 0
    wantSeq := 0, wantNew := 0, restore := [], acpt := 0, cmpl := 0, rcom := 0, rvoid := 0 }

/-- Partition 0, defined on core 0 and bound to VF 0, with at most one graph. -/
def onePart (x : Part) (g : List (Nat × Graph)) : Part :=
  { x with cores := 1, ctl := 0x8000000000000100, graphs := g, bndReq := false, bndStarted := false, gapLeft := 0, resetting := false }

/-- Core 0 with the words on the list of element 0, or of the sequencer. -/
def oneCore (k : Core) (elem : Bool) (sect : Bool) (ws : List DWord) : Core :=
  if elem then putElem k 0 { elemOf k 0 with list := ws, li := 0, opx := 0, sad := false }
  else { k with seqList := ws, seqLi := 0, secLi := 0, secCount := 0, secOn := sect, secFired := false }

/-- Nothing else can move before it. -/
def quiet (s : State) : State :=
  { s with hitch := false, boot := .ready, urgent := [], tasks := [], inbox := [], turn := [], rr := 0, vfs := [], engines := [] }

/-- The words of an entry on a list of a graph in flight on core 0. -/
def placeEntry (s : State) (ws : List DWord) (i : Instr) : State :=
  let elem := i.isElem
  let sect := !elem && !(sectionOf i).1
  let s := quiet s
  let a : Agent := { core := 0, elem := if elem then 0 else 127 }
  { s with
    parts := [(0, onePart (partOf s 0) [(0, oneGraph sect (if sect then [] else [a]))])]
    cores := s.cores.set 0 { oneCore (coreOf s 0) elem sect ws with owner := some (0, 0) } }

/-- The words of a packet at the head of an enabled ring of VF 0. -/
def placePacket (s : State) (ws : List DWord) : State :=
  let s := quiet s
  let q : Stream := { Stream.reset with base := 0x1000, wp := 32, en := true, state := .run }
  let h := ((upTo ws.length).zip ws).foldl (fun h w => write64 h (0x1000 + 8 * w.1) w.2) s.hostMem
  { s with
    parts := [(0, onePart (partOf s 0) [])], hostMem := h
    vfs := [(0, { vfOf s 0 with streams := (Vector.replicate 8 Stream.reset).set 0 q, evWait := [] })] }

end Sys2Proof.Machine
end

