-- ==== Sys2Proof/Machine/Step.lean ====
section
/-! DEFINITION. One step of the machine, and where an instruction is placed to be the next that it runs. -/

namespace Sys2Proof.Machine

/-- ONE STEP. -/
def step (s : State) : Host.Outcome State Fault Refusal := stepOnce s

/-- The instruction of `w` stored where the next step fetches (log entry 1): an entry on a list of a graph in flight, a packet at
the head of a ring, a flit that arrives. -/
def State.withFetchWord (s : State) (nbits w : Nat) : State :=
  match decodeTableWord nbits w with
  | none => s
  | some i =>
    if nbits ≤ 128 then placeEntry s [wordAt w 0, wordAt w 1] i
    else if nbits ≤ 256 then placePacket s ((upTo 4).map (wordAt w))
    else { quiet s with parts := [], inbox := [i] }

end Sys2Proof.Machine
end

