-- ==== Sys2Proof/Safety.lean ====
section
/-! DEFINITION. What a safe run of the device is, and the words in which claims about every state are stated: who executes,
what an element entry reads and leaves, when HITCH holds, when the byte memories are in canonical form. -/

namespace Sys2Proof.Safety

open Sys2Proof.Machine

/-- The outcome is a next state: neither a fault of the model nor a refusal. -/
def completes (o : Host.Outcome State Fault Refusal) : Prop := ∃ t, o = .next t

/-- The two byte memories are in canonical form: equal memories are equal data. -/
def memCanon (s : State) : Prop := Memory.wf s.mem = true ∧ Memory.wf s.hostMem = true

/-- HITCH holds, and nothing that could release it or that the debug port asks for is on its way (R89, R91). -/
def frozen (s : State) : Prop :=
  s.hitch = true ∧ s.urgent.all (fun i => !hitchInput i) = true ∧ s.inbox.all (fun i => !hitchInput i) = true

/-- A sequencer entry executes at a stamp of the timed part. -/
def inTimed (s : State) : Prop := 96 ≤ s.cur.elem ∧ inSection s = false

/-- A sequencer entry executes in the boundary section. -/
def inBoundary (s : State) : Prop := 96 ≤ s.cur.elem ∧ inSection s = true

/-- Only the core that executes differs. -/
abbrev onCore (s : State) (f : Core → Core) : State := modCurCore s f

/-- A register of the sequencer gets a value; z discards it, and nothing else changes (R261). -/
def regGets (s : State) (d : CReg) (w : DWord) : State :=
  match d with
  | .c n => onCore s (fun k => { k with c := k.c.set n w })
  | .z => s

/-! ### Element entries -/

/-- A source as the entry on element `e` reads it, in the enabled lanes. -/
def opnd (s : State) (e : Fin 96) (t : NegTy) (o : Opnd) : ORead := readOpnd (elemView s e) t (elemView s e).en o

/-- A source of which the entry reads every lane (R280). -/
def opndAll (s : State) (e : Fin 96) (t : NegTy) (o : Opnd) : ORead := readOpnd (elemView s e) t 0xFFFFFFFF o

/-- Only the registers of element `e` of the core that executes differ, from those in which the guard has been taken. -/
def elemGets (s : State) (e : Fin 96) (f : ElemRegs → ElemRegs) : State :=
  onCore s (fun k => putElem k e { elemOf k e with r := f (elemView s e).r })

/-- A result of latency `lat` is in flight to a place, in the enabled lanes; sticky flags are set; nothing else changes. -/
def landsAt (s : State) (e : Fin 96) (lat : Nat) (p : PDst) (val : Lanes) (fl : Flags) (sub : Bool) : State :=
  elemGets s e (fun r =>
    { r with
      pipe := r.pipe ++ [{ fc := curRc s + lat - 1, dst := p, val := val, res := val, mask := (elemView s e).en }]
      flags := r.flags ||| fl, ixz := r.ixz || sub })

/-- The same for a destination code. -/
def lands (s : State) (e : Fin 96) (lat : Nat) (d : Dst) (f : Fin 32 → Word) (fl : Flags) (sub : Bool) : State :=
  landsAt s e lat (dstPlace (elemView s e) 0 d) (Lanes.tab f) fl sub

/-- The flags of a lane function, over the enabled lanes. -/
def flagsOver (s : State) (e : Fin 96) (f : Fin 32 → Flags) : Flags :=
  (List.finRange 32).foldl (fun acc i => if (elemView s e).en.getLsbD i.val then acc ||| f i else acc) 0

/-- Rounded FP32 results, lane by lane, with the flags of the enabled lanes. -/
def rounds (s : State) (e : Fin 96) (lat : Nat) (d : Dst) (r : Fin 32 → Rnd) (sub : Bool) : State :=
  lands s e lat d (fun i => BitVec.ofNat 32 (r i).code) (flagsOver s e (fun i => (r i).fl)) sub

/-- Rounded results of the two halves of every lane (R279). -/
def roundsHalf (s : State) (e : Fin 96) (lat : Nat) (d : Dst) (r : Nat → Fin 32 → Rnd) (sub : Bool) : State :=
  lands s e lat d (fun i => BitVec.ofNat 32 ((r 0 i).code + 65536 * (r 1 i).code)) (flagsOver s e (fun i => (r 0 i).fl ||| (r 1 i).fl)) sub

/-- An element entry buffers one hide operation for every enabled lane, in lane order, and changes nothing else. -/
def buffers (s : State) (e : Fin 96) (off : Lanes) (op : Fin 32 → HOp) : State :=
  onCore s (fun k =>
    { putElem k e { elemOf k e with r := (elemView s e).r } with
      hideOps := k.hideOps ++ (enabledLanes (elemView s e)).map (fun i =>
        { stamp := curRc s, who := 1 + e.val, off := off[i].toNat, op := op i }) })

/-! ### Sequencer entries -/

/-- The sequencer register that an entry writes (R352 to R354, R355, R360, R362, R323, R324). -/
def seqDest : Instr → Option CReg
  | .seqAdd d _ _ | .seqSub d _ _ | .seqMul d _ _ | .seqAnd d _ _ | .seqOr d _ _ | .seqXor d _ _ | .seqShl d _ _ | .seqShr d _ _
  | .sra d _ _ | .li d _ | .ins d _ _ | .loop d _ | .seqDemand _ d _ _ _ _ _ | .waitc _ d _ _ | .rdst d _ _ | .pxlk d _ _
  | .pxin d _ _ _ | .pxev d _ _ | .flushFrame d _ => some d
  | _ => none

/-- The entries that step stream ports, whose accesses fill lines of L2 (R308, R333). -/
def isPortStep : Instr → Bool
  | .sstep _ | .tstep _ _ _ _ _ _ => true
  | _ => false

/-- The byte at an address stands as memory holds it: its sector is neither elided nor left stale under ZSE, and no dirty line under ZSE holds
it (R158, R159). -/
def plainAt (s : State) (a : Nat) : Prop :=
  tfind s.stale (a / 64) = none ∧ elided s (a / 64) = false ∧ ∀ l, tfind s.l2 (a / 256) = some l → l.cattr = 1 → l.dirty = 0

/-! ### Flits -/

/-- A fabric port accepts the flit: its link is up, the flit is well formed for its type and VC, and its SEQ is the next (R31, R33, R34). -/
def accepts (s : State) (port : Fin 18) (type vc : Nat) (f : Flit) : Prop :=
  (portOf s port).up = true ∧ (portOf s port).retraining = false ∧ f.wf type vc = true ∧ f.seq.toNat = ((portOf s port).rxSeq + 1) % 4096

/-- The port once it has accepted the flit. -/
def accepted (s : State) (port : Fin 18) (type vc : Nat) (f : Flit) : State := recvFlit s port type vc f (fun s _ _ => s)

/-- The values of a flit under the port's exponent coding; none for a flit that is not coded (R37). -/
def flitVals (s : State) (port : Fin 18) (f : Flit) : List Word :=
  match codedVc f with
  | some k => decodeValues (portOf s port).rxE[k].top f.cnt.toNat (bytesToBits f.payload)
  | none => []

end Sys2Proof.Safety
end

