-- ==== Sys2Proof/Certificates/Slice0/Obligations.lean ====
section
/-! DEFINITION. The statements about the model: what the instructions, the steps of the device and its faults do, by the numbered
rules of the manual. Each says on its face where it rests on a choice of the model. -/

section

open Sys2Proof Sys2Proof.Machine Sys2Proof.Safety

/-! ### Element entries: results -/

/-- R289, R290, R283, R267: each integer instruction of an element puts its lane results in flight, for every operand form, and
changes nothing else.
R289: the logic, shift and count instructions of an element, for every operand form that has no modifier fault. -/
def Obligations.IntegerAndLogicLaneResults : Prop :=
  (∀ (s : State) (e : Fin 96) (n32 : Bool) (d : Dst) (a b : Opnd), s.cur.elem = e.val →
      firstBad [opnd s e .int a, opnd s e .int b] = none →
      let x := (opnd s e .int a).val
      let y := (opnd s e .int b).val
      let z := dstVal (elemView s e) d
      let m := max (modLat a) (modLat b)
      let sub := (opnd s e .int a).ixz || (opnd s e .int b).ixz
      exec (.iadd n32 d a b) s = .next (lands s e (2 + m) d (fun i => x[i] + y[i]) 0 sub)
      ∧ exec (.isub n32 d a b) s = .next (lands s e (2 + m) d (fun i => x[i] - y[i]) 0 sub)
      ∧ exec (.imul n32 d a b) s = .next (lands s e (4 + m) d (fun i => x[i] * y[i]) 0 sub)
      ∧ exec (.imad n32 d a b) s = .next (lands s e (5 + m) d (fun i => x[i] * y[i] + z[i]) 0 sub)
      ∧ exec (.imulh true d a b) s = .next (lands s e (4 + m) d (fun i => BitVec.ofNat 32 (x[i].toNat * y[i].toNat / 2 ^ 32)) 0 sub)
      ∧ exec (.imulh false d a b) s = .next (lands s e (4 + m) d (fun i => BitVec.ofInt 32 (x[i].toInt * y[i].toInt / 2 ^ 32)) 0 sub)
      ∧ exec (.imin true d a b) s = .next (lands s e (2 + m) d (fun i => if x[i].ult y[i] then x[i] else y[i]) 0 sub)
      ∧ exec (.imin false d a b) s = .next (lands s e (2 + m) d (fun i => if x[i].slt y[i] then x[i] else y[i]) 0 sub)
      ∧ exec (.imax true d a b) s = .next (lands s e (2 + m) d (fun i => if x[i].ult y[i] then y[i] else x[i]) 0 sub)
      ∧ exec (.imax false d a b) s = .next (lands s e (2 + m) d (fun i => if x[i].slt y[i] then y[i] else x[i]) 0 sub)
      ∧ exec (.icmpEq n32 d a b) s = .next (lands s e (2 + m) d (fun i => if x[i] = y[i] then 1 else 0) 0 sub)
      ∧ exec (.icmpNe n32 d a b) s = .next (lands s e (2 + m) d (fun i => if x[i] = y[i] then 0 else 1) 0 sub)
      ∧ exec (.icmpLt true d a b) s = .next (lands s e (2 + m) d (fun i => if x[i].ult y[i] then 1 else 0) 0 sub)
      ∧ exec (.icmpLt false d a b) s = .next (lands s e (2 + m) d (fun i => if x[i].slt y[i] then 1 else 0) 0 sub)
      ∧ exec (.icmpLe true d a b) s = .next (lands s e (2 + m) d (fun i => if y[i].ult x[i] then 0 else 1) 0 sub)
      ∧ exec (.icmpLe false d a b) s = .next (lands s e (2 + m) d (fun i => if y[i].slt x[i] then 0 else 1) 0 sub)
      ∧ exec (.icmpGt true d a b) s = .next (lands s e (2 + m) d (fun i => if y[i].ult x[i] then 1 else 0) 0 sub)
      ∧ exec (.icmpGt false d a b) s = .next (lands s e (2 + m) d (fun i => if y[i].slt x[i] then 1 else 0) 0 sub)
      ∧ exec (.icmpGe true d a b) s = .next (lands s e (2 + m) d (fun i => if x[i].ult y[i] then 0 else 1) 0 sub)
      ∧ exec (.icmpGe false d a b) s = .next (lands s e (2 + m) d (fun i => if x[i].slt y[i] then 0 else 1) 0 sub))
  ∧ (∀ (s : State) (e : Fin 96) (d : Dst) (a b : Opnd), s.cur.elem = e.val →
      firstBad [opnd s e .keep a, opnd s e .keep b] = none → firstBad [opnd s e .keep a] = none →
      let x := (opnd s e .keep a).val
      let y := (opnd s e .keep b).val
      let m := max (modLat a) (modLat b)
      let sub := (opnd s e .keep a).ixz || (opnd s e .keep b).ixz
      exec (.and d a b) s = .next (lands s e (2 + m) d (fun i => x[i] &&& y[i]) 0 sub)
      ∧ exec (.or d a b) s = .next (lands s e (2 + m) d (fun i => x[i] ||| y[i]) 0 sub)
      ∧ exec (.xor d a b) s = .next (lands s e (2 + m) d (fun i => x[i] ^^^ y[i]) 0 sub)
      ∧ exec (.andn d a b) s = .next (lands s e (2 + m) d (fun i => x[i] &&& ~~~y[i]) 0 sub)
      ∧ exec (.shl d a b) s = .next (lands s e (2 + m) d (fun i => x[i] <<< (y[i].toNat % 32)) 0 sub)
      ∧ exec (.shr true d a b) s = .next (lands s e (2 + m) d (fun i => x[i] >>> (y[i].toNat % 32)) 0 sub)
      ∧ exec (.shr false d a b) s = .next (lands s e (2 + m) d (fun i => x[i].sshiftRight (y[i].toNat % 32)) 0 sub)
      ∧ exec (.rol d a b) s = .next (lands s e (2 + m) d (fun i => x[i].rotateLeft (y[i].toNat % 32)) 0 sub)
      ∧ exec (.popc d a) s = .next (lands s e (2 + modLat a) d (fun i => BitVec.ofNat 32 (popW x[i])) 0 (opnd s e .keep a).ixz)
      ∧ exec (.clz d a) s = .next (lands s e (2 + modLat a) d (fun i => BitVec.ofNat 32 (clzW x[i])) 0 (opnd s e .keep a).ixz)
      ∧ exec (.ptst d a) s = .next (lands s e (2 + modLat a) d (fun i => if x[i] = 0 then 0 else 1) 0 (opnd s e .keep a).ixz)
      ∧ exec (.mov d a) s = .next (lands s e (1 + modLat a) d (fun i => x[i]) 0 (opnd s e .keep a).ixz))

/-- R284, R238, R267: the floating-point arithmetic of an element. The result of a lane is the exact result rounded once; the half
formats do both halves; NaN operands and NEG are those of the operand read; flags come from the enabled lanes.
R284, R279: the same on the two halves of every lane, in the format that SUB selects. -/
def Obligations.FloatingPointLaneResults : Prop :=
  (∀ (s : State) (e : Fin 96) (d : Dst) (a b : Opnd), s.cur.elem = e.val →
      firstBad [opnd s e .f32 a, opnd s e .f32 b] = none →
      let x := fun i : Fin 32 => (opnd s e .f32 a).val[i]
      let y := fun i : Fin 32 => (opnd s e .f32 b).val[i]
      let z := fun i : Fin 32 => (dstVal (elemView s e) d)[i]
      let m := max (modLat a) (modLat b)
      let sub := (opnd s e .f32 a).ixz || (opnd s e .f32 b).ixz
      exec (.faddF32 d a b) s = .next (rounds s e (4 + m) d (fun i => fadd .fp32 (f32 (x i)) (f32 (y i))) sub)
      ∧ exec (.fsubF32 d a b) s = .next (rounds s e (4 + m) d (fun i => fadd .fp32 (f32 (x i)) (f32 (y i)).neg) sub)
      ∧ exec (.fmulF32 d a b) s = .next (rounds s e (4 + m) d (fun i => fmul .fp32 (f32 (x i)) (f32 (y i))) sub)
      ∧ exec (.fmadF32 d a b) s = .next (rounds s e (5 + m) d (fun i => ffma .fp32 (f32 (x i)) (f32 (y i)) (f32 (z i))) sub)
      ∧ exec (.fmsbF32 d a b) s = .next (rounds s e (5 + m) d (fun i => ffma .fp32 (f32 (x i)) (f32 (y i)) (f32 (z i)).neg) sub)
      ∧ exec (.fnmaF32 d a b) s = .next (rounds s e (5 + m) d (fun i => ffma .fp32 (f32 (x i)).neg (f32 (y i)) (f32 (z i))) sub)
      ∧ exec (.fminF32 d a b) s = .next (lands s e (2 + m) d (fun i => minW (x i) (y i)) 0 sub)
      ∧ exec (.fmaxF32 d a b) s = .next (lands s e (2 + m) d (fun i => maxW (x i) (y i)) 0 sub))
  ∧ (∀ (s : State) (e : Fin 96) (bf : Bool) (d : Dst) (a b : Opnd), s.cur.elem = e.val →
      firstBad [opnd s e .half a, opnd s e .half b] = none →
      let f : FF := if bf then .bf16 else .fp16
      let v := fun (w : Word) (h : Nat) => decodeF f .nan (elemAt w 16 h)
      let x := fun i : Fin 32 => (opnd s e .half a).val[i]
      let y := fun i : Fin 32 => (opnd s e .half b).val[i]
      let z := fun i : Fin 32 => (dstVal (elemView s e) d)[i]
      let m := max (modLat a) (modLat b)
      let sub := (opnd s e .half a).ixz || (opnd s e .half b).ixz
      exec (.faddHalf bf d a b) s = .next (roundsHalf s e (4 + m) d (fun h i => fadd f (v (x i) h) (v (y i) h)) sub)
      ∧ exec (.fsubHalf bf d a b) s = .next (roundsHalf s e (4 + m) d (fun h i => fadd f (v (x i) h) (v (y i) h).neg) sub)
      ∧ exec (.fmulHalf bf d a b) s = .next (roundsHalf s e (4 + m) d (fun h i => fmul f (v (x i) h) (v (y i) h)) sub)
      ∧ exec (.fmadHalf bf d a b) s = .next (roundsHalf s e (5 + m) d (fun h i => ffma f (v (x i) h) (v (y i) h) (v (z i) h)) sub)
      ∧ exec (.fmsbHalf bf d a b) s = .next (roundsHalf s e (5 + m) d (fun h i => ffma f (v (x i) h) (v (y i) h) (v (z i) h).neg) sub)
      ∧ exec (.fnmaHalf bf d a b) s = .next (roundsHalf s e (5 + m) d (fun h i => ffma f (v (x i) h).neg (v (y i) h) (v (z i) h)) sub)
      ∧ exec (.fminHalf bf d a b) s = .next (roundsHalf s e (2 + m) d (fun h i => { code := fminc f (elemAt (x i) 16 h) (elemAt (y i) 16 h), fl := 0 }) sub)
      ∧ exec (.fmaxHalf bf d a b) s = .next (roundsHalf s e (2 + m) d (fun h i => { code := fmaxc f (elemAt (x i) 16 h) (elemAt (y i) 16 h), fl := 0 }) sub))

/-- R285 to R288: comparisons are 1 or 0 in each lane, a NaN operand makes all but `fcmp.ne` and `fcmp.un` 0, and FI is set on a NaN
by all but `fcmp.eq`, `fcmp.ne` and `fcmp.un`; unary operations, classes and selection. -/
def Obligations.CompareAndUnaryResults : Prop :=
  ∀ (s : State) (e : Fin 96) (d : Dst) (a b : Opnd) (mask : BitVec 9) (k : Fin 8), s.cur.elem = e.val →
    firstBad [opnd s e .f32 a, opnd s e .f32 b] = none → firstBad [opnd s e .f32 a] = none →
    let x := fun i : Fin 32 => f32 (opnd s e .f32 a).val[i]
    let y := fun i : Fin 32 => f32 (opnd s e .f32 b).val[i]
    let un := fun i : Fin 32 => (x i).isNan || (y i).isNan
    let m := max (modLat a) (modLat b)
    let sub := (opnd s e .f32 a).ixz || (opnd s e .f32 b).ixz
    let sub1 := (opnd s e .f32 a).ixz
    let fi := flagsOver s e (fun i => if un i then 1 else 0)
    exec (.fcmpEq d a b) s = .next (lands s e (3 + m) d (fun i => if !un i && eqV (x i) (y i) then 1 else 0) 0 sub)
    ∧ exec (.fcmpNe d a b) s = .next (lands s e (3 + m) d (fun i => if un i || !eqV (x i) (y i) then 1 else 0) 0 sub)
    ∧ exec (.fcmpLt d a b) s = .next (lands s e (3 + m) d (fun i => if !un i && ltV (x i) (y i) then 1 else 0) fi sub)
    ∧ exec (.fcmpLe d a b) s = .next (lands s e (3 + m) d (fun i => if !un i && !ltV (y i) (x i) then 1 else 0) fi sub)
    ∧ exec (.fcmpGt d a b) s = .next (lands s e (3 + m) d (fun i => if !un i && ltV (y i) (x i) then 1 else 0) fi sub)
    ∧ exec (.fcmpGe d a b) s = .next (lands s e (3 + m) d (fun i => if !un i && !ltV (x i) (y i) then 1 else 0) fi sub)
    ∧ exec (.fcmpUn d a b) s = .next (lands s e (3 + m) d (fun i => if un i then 1 else 0) 0 sub)
    ∧ exec (.frcp d a) s = .next (rounds s e (10 + modLat a) d (fun i => rcpV (x i)) sub1)
    ∧ exec (.fsqrt d a) s = .next (rounds s e (10 + modLat a) d (fun i => sqrtV (x i)) sub1)
    ∧ exec (.frsq d a) s = .next (rounds s e (10 + modLat a) d (fun i => rsqV (x i)) sub1)
    ∧ exec (.fexp2 d a) s = .next (rounds s e (12 + modLat a) d (fun i => exp2V (x i)) sub1)
    ∧ exec (.flog2 d a) s = .next (rounds s e (12 + modLat a) d (fun i => log2V (x i)) sub1)
    ∧ exec (.fclass d a mask) s = .next (lands s e (2 + modLat a) d
        (fun i => if mask.getLsbD (fclassOf (opnd s e .f32 a).val[i]) then 1 else 0) 0 sub1)
    ∧ exec (.fsel d a b k) s = .next (lands s e (2 + m) d
        (fun i => if ((elemView s e).r.p[k]).getLsbD i.val then (opnd s e .keep a).val[i] else (opnd s e .keep b).val[i]) 0 false)

/-- R291 to R294, R302: conversions, packing, permutation and the block hash. -/
def Obligations.ConversionResults : Prop :=
  ∀ (s : State) (e : Fin 96) (d : Dst) (a b : Opnd) (pair : CvtPair) (nw : Narrow) (pos : Fin 8), s.cur.elem = e.val →
    (firstBad [opnd s e (cvtNeg pair) a] = none →
      exec (.cvt pair d a) s = .next (lands s e (3 + modLat a) d (fun i => (cvtWord pair (opnd s e (cvtNeg pair) a).val[i]).1)
        (flagsOver s e (fun i => (cvtWord pair (opnd s e (cvtNeg pair) a).val[i]).2)) (opnd s e (cvtNeg pair) a).ixz))
    ∧ (let t : NegTy := if nw.isFp then .f32 else .int
       let r := fun i : Fin 32 => Machine.packCode nw (opnd s e t a).val[i]
       firstBad [opnd s e t a, opnd s e .keep b] = none →
        exec (.pack nw pos d a b) s = .next (lands s e (3 + max (modLat a) (modLat b)) d
          (fun i => setElem (opnd s e .keep b).val[i] (narrowWidth nw) pos.val (r i).code)
          (flagsOver s e (fun i => (r i).fl)) ((opnd s e t a).ixz || (opnd s e .keep b).ixz)))
    ∧ (firstBad [opnd s e (unpkNeg nw) a, opnd s e .keep b] = none →
        exec (.unpk nw pos d a b) s = .next (lands s e (3 + max (modLat a) (modLat b)) d
          (fun i => unpkWord nw a.neg (elemAt (opnd s e (unpkNeg nw) a).val[i] (narrowWidth nw) pos.val) (opnd s e .keep b).val[i])
          0 ((opnd s e (unpkNeg nw) a).ixz || (opnd s e .keep b).ixz)))
    ∧ exec (.perm d a b) s = .next (lands s e (3 + max (modLat a) (modLat b)) d
        (fun i => (opndAll s e .keep a).val[Fin.ofNat 32 ((opndAll s e .keep b).val[i]).toNat]) 0 false)
    ∧ exec (.blkh d a b) s = .next (lands s e (6 + max (modLat a) (modLat b)) d
        (fun i => let h := if i.val < 16 then 0 else 16
          blkHash (opndAll s e .keep b).val[Fin.ofNat 32 h] (fun j => (opndAll s e .keep a).val[Fin.ofNat 32 (h + j)])) 0 false)

/-- R295, R229, R300, R301: reductions and scans over segments of 2^g lanes, expansion and nearest-entry search. A scan of FP32 lanes passes no
bits of a NaN on: it reads every NaN as the canonical one.
R247: over an operation that is associative and commutative, the tree of a reduction gives the first lane of each segment the
segment's lanes combined in order. -/
def Obligations.ReductionAndCodebookResults : Prop :=
  (∀ (s : State) (e : Fin 96) (d : Dst) (a : Opnd) (g : Fin 6) (all : Bool) (op : LOp) (ty : RTy) (xt : XTy) (qt : QTy) (bank : Fin 16),
      s.cur.elem = e.val →
      (firstBad [opndAll s e .keep a] = none →
        exec (.lrd op g all d a) s = .next (landsAt s e (6 + modLat a) (dstPlace (elemView s e) 0 d)
          (reduceLanes (logOp op) g.val all (opndAll s e .keep a).val).1 0 (opndAll s e .keep a).ixz))
      ∧ (let x := opndAll s e (rtyNeg ty) a
         let out := fun (r : Lanes × Flags) => landsAt s e (6 + modLat a) (dstPlace (elemView s e) 0 d) r.1
           (if (elemView s e).en = 0 then 0 else r.2) x.ixz
         firstBad [x] = none →
          exec (.redAdd ty g all d a) s = .next (out (reduceLanes (addOp ty) g.val all x.val))
          ∧ exec (.redMax ty g all d a) s = .next (out (reduceLanes (maxOp ty) g.val all x.val))
          ∧ exec (.redMin ty g all d a) s = .next (out (reduceLanes (minOp ty) g.val all x.val))
          ∧ exec (.scanAdd ty g d a) s = .next (out (scanTree (addOp ty) g.val
              (Lanes.tab (fun i => if ty = .f32 ∧ (f32 x.val[i]).isNan = true then 0x7FC00000 else x.val[i])))))
      ∧ (firstBad [opnd s e .keep a] = none →
        exec (.xpnd xt d a) s = .next (lands s e (3 + modLat a) d (fun i => (opnd s e .keep a).val[i]) 0 (opnd s e .keep a).ixz))
      ∧ (let es := Bank.parts ((curCore s).banks[bank]) qt
         let y := fun i : Fin 32 => qVal qt (opnd s e (qNeg qt) a).val[i]
         es ≠ [] →
          exec (.qidx qt bank d a) s = .next (lands s e (8 + modLat a) d
            (fun i => if (y i).isNan then 0 else BitVec.ofNat 32 (nearestIndex (y i) es))
            (flagsOver s e (fun i => if (y i).isNan then 1 else 0)) false)))
  ∧ (∀ (f : Word → Word → Word) (g : Fin 6) (x : Lanes) (i : Fin 32),
      (∀ a b c, f (f a b) c = f a (f b c)) → (∀ a b, f a b = f b a) → i.val % 2 ^ g.val = 0 →
      (redTree (fun a b => (f a b, 0)) g.val x).1[i]
        = ((upTo (2 ^ g.val)).drop 1).foldl (fun acc k => f acc x[Fin.ofNat 32 (i.val + k)]) x[i])

/-- R248: `scan.add` puts into every lane the inclusive prefix sum within its segment of S = 2^g lanes. The levels are those of the
rule: at level j, with d = 2^j, a lane whose position in its segment is at least d combines the lane d below it with itself,
both as the level before left them; of an FP32 lane that is a NaN the canonical NaN is read (R229). On integers the result is the plain sum of the lanes of the segment up to and with the lane. -/
def Obligations.ScanAddFormsPrefixSums : Prop :=
  ∀ (s : State) (e : Fin 96) (d : Dst) (a : Opnd) (g : Fin 6) (ty : RTy), s.cur.elem = e.val →
    let x := opndAll s e (rtyNeg ty) a
    let op : Word → Word → Word := fun u v =>
      match ty with
      | .f32 => BitVec.ofNat 32 (fadd .fp32 (f32 u) (f32 v)).code
      | .i32 | .n32 => u + v
    firstBad [x] = none →
    ∃ (level : Nat → Fin 32 → Word) (fl : Flags),
      (∀ i, level 0 i = if ty = .f32 ∧ (f32 x.val[i]).isNan = true then 0x7FC00000 else x.val[i])
      ∧ (∀ (j : Nat) (i : Fin 32), j < g.val →
        level (j + 1) i = (if 2 ^ j ≤ i.val % 2 ^ g.val then op (level j (Fin.ofNat 32 (i.val - 2 ^ j))) (level j i) else level j i))
      ∧ exec (.scanAdd ty g d a) s = .next (landsAt s e (6 + modLat a) (dstPlace (elemView s e) 0 d) (Lanes.tab (level g.val)) fl x.ixz)
      ∧ (ty ≠ .f32 → fl = 0 ∧ ∀ i, level g.val i
          = ((upTo (i.val % 2 ^ g.val + 1)).map (fun k => x.val[Fin.ofNat 32 (i.val - k)])).foldl (· + ·) 0)

/-- R296 to R298, R260, R264, R279: predicate operations, moves and the predicate-block prefix. `movm.p` takes bit `i` of the mark for lane `i`,
after a permutation of its lanes where the source has one. -/
def Obligations.PredicateAndMoveResults : Prop :=
  ∀ (s : State) (e : Fin 96) (d : Dst) (k j : Fin 8) (i18 : BitVec 18) (i16 : BitVec 16) (pat : BitVec 8) (a : Opnd), s.cur.elem = e.val →
    let r := (elemView s e).r
    let pl := fun (w : Word) => lands s e 2 d (fun i => if w.getLsbD i.val then 1 else 0) 0 false
    exec (.pand d k j) s = .next (pl (r.p[k] &&& r.p[j]))
    ∧ exec (.por d k j) s = .next (pl (r.p[k] ||| r.p[j]))
    ∧ exec (.pxor d k j) s = .next (pl (r.p[k] ^^^ r.p[j]))
    ∧ exec (.pandn d k j) s = .next (pl (r.p[k] &&& ~~~r.p[j]))
    ∧ exec (.pnot d k) s = .next (pl (~~~r.p[k]))
    ∧ exec (.pvec d k) s = .next (pl r.p[k])
    ∧ exec (.pcnt d k) s = .next (lands s e 2 d (fun _ => BitVec.ofNat 32 (popW r.p[k])) 0 false)
    ∧ exec (.movi d i18) s = .next (lands s e 1 d (fun _ => i18.signExtend 32) 0 false)
    ∧ exec (.moviH d i16) s = .next (lands s e 1 d (fun _ => BitVec.ofNat 32 (i16.toNat * 65536)) 0 false)
    ∧ exec (.movm d k) s = .next (lands s e 1 d (fun _ => r.p[k]) 0 false)
    ∧ exec (.movmP d a) s = .next (lands s e (1 + modLat a) d (fun i => if ((opnd s e .keep a).val[i]).getLsbD i.val then 1 else 0) 0 false)
    ∧ (a.src = .m k → a.cls = .plain → a.neg = false → ∀ i : Fin 32, (opnd s e .keep a).val[i] = r.m[k])
    ∧ exec (.pblk k j pat) s = .next (elemGets s e (fun r => { r with guard := r.p[k], pat := pat, left := j.val + 1 }))

/-- R311, R312, R192, R313: a hide operation of an element is buffered for every enabled lane in lane order, `hld.i` reads at
issue; an offset outside the partition, or one that the device writes itself (but for a load), is PERM at the lowest such lane. Every enabled
lane of a load sets out for its bank, and comes to the edge of its die 18 fc later (R84). That an access is on its way by itself from there
is the model's reading of the arbiters (log entry 28), and where a partition's hide lies in the banks too (log entry 45).
What a hide operation makes of the word at its offset (R311, R361): the half that it does not name stays. -/
def Obligations.ElementHideResults : Prop :=
  (∀ (s : State) (e : Fin 96) (n32 hi : Bool) (d : Dst) (a b c : Opnd), s.cur.elem = e.val →
      let x := (opnd s e .keep a).val
      let y := (opnd s e .keep b).val
      let z := (opnd s e .keep c).val
      let en := fun i : Fin 32 => ((elemView s e).en).getLsbD i.val
      ((∀ i, en i = true → hideAllowed s false x[i].toNat = true) →
        exec (.hadd a b) s = .next (buffers s e x (fun i => .add (opnd s e .int b).val[i]))
        ∧ exec (.hmax n32 a b) s = .next (buffers s e x (fun i => .max n32 y[i]))
        ∧ exec (.hmin n32 a b) s = .next (buffers s e x (fun i => .min n32 y[i]))
        ∧ exec (.hcas a b c) s = .next (buffers s e x (fun i => .cas z[i] y[i]))
        ∧ exec (.hxchg a b) s = .next (buffers s e x (fun i => .xchg y[i]))
        ∧ exec (.hred a b) s = .next (buffers s e x (fun i => .fadd (opnd s e .f32 b).val[i]))
        ∧ exec (.hstI hi a b) s = .next (buffers s e x (fun i => .st hi y[i])))
      ∧ ((∀ i, en i = true → x[i].toNat < (curPart s).hideSize) →
        let asks : List LoadReq := (enabledLanes (elemView s e)).map (fun i =>
          { bank := (curPart s).hideKey x[i].toNat / 65536, core := s.cur.core.val, elem := e.val, lane := i.val, li := s.cur.li, rc := curRc s
            store := false, issued := s.clk, stage := 0, due := s.clk + 18 })
        exec (.hldI hi d a) s = .next { lands s e (96 + modLat a) d
          (fun i => let w := hideRead s s.cur.part x[i].toNat
            if en i then (if hi then w.extractLsb' 32 32 else w.extractLsb' 0 32) else 0) 0 false with loads := s.loads ++ asks })
      ∧ (∀ i, en i = true → hideAllowed s false x[i].toNat = false → (∀ j, j < i → en j = true → hideAllowed s false x[j].toNat = true) →
        ∀ q ∈ [Instr.hadd a b, .hmax n32 a b, .hmin n32 a b, .hcas a b c, .hxchg a b, .hred a b, .hstI hi a b],
          exec q s = .next (faultElem s { cls := 2, detail := 0xFFFF, info := BitVec.ofNat 64 x[i].toNat, lane := some i.val }))
      ∧ (∀ i, en i = true → (curPart s).hideSize ≤ x[i].toNat → (∀ j, j < i → en j = true → x[j].toNat < (curPart s).hideSize) →
        exec (.hldI hi d a) s = .next (faultElem s { cls := 2, detail := 0xFFFF, info := BitVec.ofNat 64 x[i].toNat, lane := some i.val })))
  ∧ (∀ (w : DWord) (x c : Word) (v : DWord),
      let hi := w.extractLsb' 32 32
      let lo := w.extractLsb' 0 32
      hopApply (.add x) w = hi ++ (lo + x)
      ∧ hopApply (.max true x) w = hi ++ (if lo.ult x then x else lo)
      ∧ hopApply (.max false x) w = hi ++ (if lo.slt x then x else lo)
      ∧ hopApply (.min true x) w = hi ++ (if x.ult lo then x else lo)
      ∧ hopApply (.min false x) w = hi ++ (if x.slt lo then x else lo)
      ∧ hopApply (.cas c x) w = (if lo = c then hi ++ x else w)
      ∧ hopApply (.xchg x) w = lo ++ x
      ∧ hopApply (.fadd x) w = hi ++ BitVec.ofNat 32 (fadd .fp32 (f32 lo) (f32 x)).code
      ∧ hopApply (.st false x) w = hi ++ x
      ∧ hopApply (.st true x) w = x ++ lo
      ∧ hopApply (.sem .add v) w = w + v
      ∧ hopApply (.sem .set v) w = v
      ∧ hopApply (.sem .max v) w = (if w.ult v then v else w)
      ∧ hopApply .sealPoint w = w)

/-- R337 to R343, R220, R221: block products and scales, affine scans, keepers and horizon requests. An affine scan reads its carry in the first
lane of each segment, and no other lane of that source. The sign of `bdot.set`, the flags of `bdot` from the enabled result lanes, and the
flags of `scan.aff.g` from the composition are the model's readings (log entries 34 and 35).
R221, R341, R342: a scan that carries through a keeper gives the same lanes as one whose carry is the keeper's state, and the
keeper takes the segment's last state and the product of the gains, flushed below 2^−126. -/
def Obligations.BlockScanKeeperResults : Prop :=
  (∀ (s : State) (e : Fin 96) (d : Dst) (a b c : Opnd) (sc sa sb : Src) (ty : STy) (boff nb : Fin 32) (km1 : BitVec 8) (g : Fin 6)
      (j : Fin 4) (gain : Bool), s.cur.elem = e.val →
      let v := elemView s e
      let no := fun (en : Word) (f : Flags) => if en = 0 then (0 : Flags) else f
      -- a block product of K positions fills the lanes from BOFF on, and tags its destination with the block count
      (let x := (opnd s e (styNeg ty) a).val
       let y := (opnd s e (styNeg ty) b).val
       let k := km1.toNat + 1
       let n := (k + 31) / 32
       let q := fun i => blockSum (packedVal ty x (srcVal v sc) a.neg 0) (packedVal ty y (srcVal v sc) b.neg 1) k i
       exec (.bdot ty boff km1 d a b sc) s = .next (landsAt s e (6 + max (modLat a) (modLat b))
          (dstPlace v (if boff.val = 0 then n else if tagOfDst v d = boff.val then boff.val + n else 0) d)
          (Lanes.tab (fun i => if i.val < boff.val then (dstVal v d)[i]
            else if i.val - boff.val < n then BitVec.ofNat 32 (q (i.val - boff.val)).code else 0))
          ((upTo n).foldl (fun f i => if v.en.getLsbD (boff.val + i) then f ||| (q i).fl else f) 0) false))
      ∧ exec (.bdotSet nb d a) s = .next (landsAt s e (6 + modLat a) (dstPlace v (nb.val + 1) d)
          (Lanes.tab (fun i => if i.val ≤ nb.val then (opnd s e .f32 a).val[i] else 0)) 0 false)
      -- block scales: every block is scaled and added in order
      ∧ (tagOfSrc v sa ≠ 0 → (sb = .z ∨ scaleCount (srcVal v sb) = tagOfSrc v sa) → (sc = .z ∨ scaleCount (srcVal v sc) = tagOfSrc v sa) →
          let r := (upTo (tagOfSrc v sa)).foldl (fun acc i =>
              scaleStep (f32 (srcVal v sa)[Fin.ofNat 32 i]) (scaleVal sb (srcVal v sb) i) (scaleVal sc (srcVal v sc) i) acc) ((dstVal v d)[0], (0 : Flags))
          exec (.scacc d sa sb sc) s = .next (landsAt s e 6 (dstPlace v 0 d) (Lanes.all r.1) (no v.en r.2) false))
      ∧ (tagOfSrc v sa = 0 →
          exec (.scacc d sa sb sc) s = .next (faultElem s { cls := 7, detail := 0, info := 0, lane := none }))
      -- scans
      ∧ (let x := opndAll s e .f32 a
         let y := opndAll s e .f32 b
         let z := readOpnd (elemView s e) .f32 (firstLanes g.val) c
         let sub := x.ixz || y.ixz || z.ixz
         let m := max (max (modLat a) (modLat b)) (modLat c)
         let p := compose g.val x.val y.val
         let h := applyCarry p (fun i => z.val[segFirst g.val i])
         firstBad [x, y, z] = none →
          exec (.scanAff g d a b c) s = .next (landsAt s e (12 + m) (dstPlace v 0 d) h.1 (no v.en h.2) sub)
          ∧ exec (.scanAffG g d a b c) s = .next (landsAt s e (12 + m) (dstPlace v 0 d) p.g (no v.en p.fl) sub))
      -- keepers
      ∧ exec (.kget gain d j) s = .next (landsAt s e 2 (dstPlace v 0 d) (if gain then v.r.k[j].gain else v.r.k[j].state) 0 false)
      ∧ exec (.kclr j) s = .next (landsAt s e 1 (.clearKeep j) Lanes.zero 0 false)
      ∧ exec (.khor j) s = .next (onCore s (fun k => { putElem k e { elemOf k e with r := v.r } with khors := k.khors ++ [(e, j)] }))
      ∧ (let x := opnd s e .f32 a
         let y := opnd s e .f32 b
         firstBad [x, y] = none →
          exec (.kset j a b) s = .next (landsAt s e (2 + max (modLat a) (modLat b))
            (.keep j (Lanes.tab (fun i => ufWord y.val[i])) ((List.finRange 32).any (fun i => v.en.getLsbD i.val && underUF y.val[i])) true)
            x.val 0 (x.ixz || y.ixz))))
  ∧ (∀ (s : State) (e : Fin 96) (d : Dst) (a b : Opnd) (g : Fin 6) (j : Fin 4), s.cur.elem = e.val →
      firstBad [opndAll s e .f32 a, opndAll s e .f32 b] = none →
      let v := elemView s e
      let k := v.r.k[j]
      let p := compose g.val (opndAll s e .f32 a).val (opndAll s e .f32 b).val
      let h := applyCarry p (fun i => k.state[segLast g.val i])
      let raw := Lanes.tab (fun i => mulW p.g[segLast g.val i] k.gain[segLast g.val i])
      ∃ t fl, exec (.scanAffk g j d a b) s = .next t
        ∧ t = elemGets s e (fun r =>
          { r with
            pipe := r.pipe ++ [{ fc := curRc s + 12 + max (modLat a) (modLat b) - 1, dst := dstPlace v 0 d, val := h.1, res := h.1, mask := v.en }]
              ++ [{ fc := curRc s + 12 + max (modLat a) (modLat b) - 1
                    dst := .keep j (Lanes.tab (fun i => ufWord raw[i])) ((List.finRange 32).any (fun i => v.en.getLsbD i.val && underUF raw[i])) false
                    val := Lanes.tab (fun i => h.1[segLast g.val i]), res := Lanes.tab (fun i => h.1[segLast g.val i]), mask := v.en }]
            flags := r.flags ||| fl, ixz := r.ixz || ((opndAll s e .f32 a).ixz || (opndAll s e .f32 b).ixz) }))

/-! ### Operands, landing, frame -/

/-- R262, R264, R279: the permute classes move lanes inside segments of 2^g lanes, and NEG flips signs by the type that reads. -/
def Obligations.OperandForms : Prop :=
  ∀ (v : EView) (t : NegTy) (read : Word) (c : Src) (g : Fin 6) (dist : BitVec 5) (i : Fin 32) (cls : ModCls) (neg : Bool),
    let z := 2 ^ g.val
    let j := i.val % z
    let raw := srcVal v c
    let at' := fun (k : Nat) => raw[Fin.ofNat 32 k]
    ((readOpnd v t read { src := c, cls := .plain, neg := false }).val[i] = raw[i])
    ∧ (readOpnd v t read { src := c, cls := .rot g dist, neg := false }).val[i] = at' (i.val - j + (j + dist.toNat) % z)
    ∧ (readOpnd v t read { src := c, cls := .bfly g dist, neg := false }).val[i] = at' (i.val - j + (j ^^^ dist.toNat))
    ∧ (readOpnd v t read { src := c, cls := .bcast g dist, neg := false }).val[i] = at' (i.val - j + dist.toNat)
    ∧ (let w := (readOpnd v t read { src := c, cls := cls, neg := false }).val[i]
       (readOpnd v t read { src := c, cls := cls, neg := true }).val[i] =
        (match t with
         | .keep => w
         | .f32 => w ^^^ 0x80000000
         | .half => w ^^^ 0x80008000
         | .f8 => w ^^^ 0x80808080
         | .int => -w))
    ∧ (readOpnd v t read { src := c, cls := cls, neg := true }).bad = (readOpnd v t read { src := c, cls := cls, neg := false }).bad

/-- R222, R223, R264, R280: an expand modifier, of 4-bit or of 8-bit indices, replaces each lane that is read by the low half of the entry that
its group names in the active half; an index that names no entry reads as zero under ZSUB and is INDEX at the lowest such lane without it.
R128, R264, R280: an element entry with a faulting source faults its round at that lane, and changes nothing but the graph's
first fault: for every entry whose sources take an expand modifier, which is the only one that faults. -/
def Obligations.ExpandsAndFaultingSources : Prop :=
  (∀ (v : EView) (t : NegTy) (read : Word) (c : Src) (bank : Fin 16) (grp : Fin 8) (grp8 : Fin 4) (eight : Bool) (i : Fin 32),
      let b := v.k.banks[bank]
      let h : Fin 2 := if b.act then 1 else 0
      let idx := fun (i : Fin 32) => if eight then (srcVal v c)[i].toNat / 2 ^ (8 * grp8.val) % 256 else (srcVal v c)[i].toNat / 2 ^ (4 * grp.val) % 16
      let good := fun (i : Fin 32) => idx i < b.size[h] ∧ (b.valid[h]).getLsbD (idx i) = true
      let o : Opnd := { src := c, cls := if eight then .x8 bank grp8 else .x4 bank grp, neg := false }
      (read.getLsbD i.val = true → good i → (readOpnd v t read o).val[i] = (tget 0 b.ent[h] (idx i)).extractLsb' 0 32)
      ∧ (read.getLsbD i.val = false → (readOpnd v t read o).val[i] = (srcVal v c)[i])
      ∧ (b.zsub = true → read.getLsbD i.val = true → ¬ good i →
          (readOpnd v t read o).val[i] = 0 ∧ (readOpnd v t read o).ixz = true ∧ (readOpnd v t read o).bad = none)
      ∧ (b.zsub = false → read.getLsbD i.val = true → ¬ good i → (∀ j, j < i → read.getLsbD j.val = true → good j) →
          (readOpnd v t read o).bad = some { cls := 6, detail := bank.val, info := BitVec.ofNat 64 (idx i), lane := some i.val }))
  ∧ (∀ (s : State) (e : Fin 96) (d : Dst) (a b c : Opnd) (f : FaultInfo) (n32 bf all : Bool) (mask : BitVec 9) (pair : CvtPair) (nw : Narrow)
      (pos : Fin 8) (g : Fin 6) (op : LOp) (ty : RTy) (xt : XTy) (j : Fin 4), s.cur.elem = e.val →
      let faults := fun (l : List Instr) => ∀ q ∈ l, exec q s = .next (faultElem s f)
      (firstBad [opnd s e .f32 a, opnd s e .f32 b] = some f →
        faults [.faddF32 d a b, .fsubF32 d a b, .fmulF32 d a b, .fmadF32 d a b, .fmsbF32 d a b, .fnmaF32 d a b, .fminF32 d a b, .fmaxF32 d a b,
          .fcmpEq d a b, .fcmpNe d a b, .fcmpLt d a b, .fcmpLe d a b, .fcmpGt d a b, .fcmpGe d a b, .fcmpUn d a b, .kset j a b])
      ∧ (firstBad [opnd s e .half a, opnd s e .half b] = some f →
        faults [.faddHalf bf d a b, .fsubHalf bf d a b, .fmulHalf bf d a b, .fmadHalf bf d a b, .fmsbHalf bf d a b, .fnmaHalf bf d a b,
          .fminHalf bf d a b, .fmaxHalf bf d a b])
      ∧ (firstBad [opnd s e .int a, opnd s e .int b] = some f →
        faults [.iadd n32 d a b, .isub n32 d a b, .imul n32 d a b, .imad n32 d a b, .imulh n32 d a b, .imin n32 d a b, .imax n32 d a b,
          .icmpEq n32 d a b, .icmpNe n32 d a b, .icmpLt n32 d a b, .icmpLe n32 d a b, .icmpGt n32 d a b, .icmpGe n32 d a b])
      ∧ (firstBad [opnd s e .keep a, opnd s e .keep b] = some f →
        faults [.and d a b, .or d a b, .xor d a b, .andn d a b, .shl d a b, .shr n32 d a b, .rol d a b])
      ∧ (firstBad [opnd s e .f32 a] = some f →
        faults [.frcp d a, .fsqrt d a, .frsq d a, .fexp2 d a, .flog2 d a, .fclass d a mask])
      ∧ (firstBad [opnd s e .keep a] = some f → faults [.popc d a, .clz d a, .ptst d a, .mov d a, .xpnd xt d a])
      ∧ (firstBad [opnd s e (cvtNeg pair) a] = some f → exec (.cvt pair d a) s = .next (faultElem s f))
      ∧ (firstBad [opnd s e (if nw.isFp then .f32 else .int) a, opnd s e .keep b] = some f →
          exec (.pack nw pos d a b) s = .next (faultElem s f))
      ∧ (firstBad [opnd s e (unpkNeg nw) a, opnd s e .keep b] = some f → exec (.unpk nw pos d a b) s = .next (faultElem s f))
      ∧ (firstBad [opndAll s e .keep a] = some f → exec (.lrd op g all d a) s = .next (faultElem s f))
      ∧ (firstBad [opndAll s e (rtyNeg ty) a] = some f →
          faults [.redAdd ty g all d a, .redMax ty g all d a, .redMin ty g all d a, .scanAdd ty g d a])
      ∧ (firstBad [opndAll s e .f32 a, opndAll s e .f32 b, readOpnd (elemView s e) .f32 (firstLanes g.val) c] = some f →
          faults [.scanAff g d a b c, .scanAffG g d a b c])
      ∧ (firstBad [opndAll s e .f32 a, opndAll s e .f32 b] = some f → exec (.scanAffk g j d a b) s = .next (faultElem s f)))

/-- R260, R203, R220, R221, R278: a result that completes writes the enabled lanes of its destination and of the result register, and leaves
every other register as it is; a line, and the destination that is no register, take the result register alone, and the update of a keeper
by `scan.affk` or `kclr` leaves it. -/
def Obligations.CompletedResultsLand : Prop :=
  ∀ (r : ElemRegs) (q : Pend) (i : Fin 32) (n : Fin 32) (m : Fin 32) (j o : Fin 8) (kp kq : Fin 4) (nb : Nat) (l : Fin 20) (gain : Lanes)
    (guf res : Bool),
    let on := q.mask.getLsbD i.val
    let t := completePend r q
    let resLands := t.res[i] = (if on then q.res[i] else r.res[i])
    let others := t.flags = r.flags ∧ t.ixz = r.ixz ∧ t.accW = r.accW ∧ t.accC = r.accC ∧ t.gains = r.gains ∧ t.exc = r.exc ∧ t.pipe = r.pipe
      ∧ t.guard = r.guard ∧ t.pat = r.pat ∧ t.left = r.left
    others
    ∧ (q.dst = .v n nb →
      (t.v[n])[i] = (if on then q.val[i] else (r.v[n])[i]) ∧ resLands
      ∧ (m ≠ n → t.v[m] = r.v[m])
      ∧ t.s = r.s ∧ t.p = r.p ∧ t.m = r.m ∧ t.k = r.k)
    ∧ (q.dst = .s j nb →
      (t.s[j])[i] = (if on then q.val[i] else (r.s[j])[i]) ∧ resLands
      ∧ (o ≠ j → t.s[o] = r.s[o])
      ∧ t.v = r.v ∧ t.p = r.p ∧ t.m = r.m ∧ t.k = r.k)
    ∧ (q.dst = .p j →
      (t.p[j]).getLsbD i.val = (if on then decide (q.val[i] ≠ 0) else (r.p[j]).getLsbD i.val) ∧ resLands
      ∧ (o ≠ j → t.p[o] = r.p[o])
      ∧ t.v = r.v ∧ t.s = r.s ∧ t.m = r.m ∧ t.k = r.k)
    ∧ (q.dst = .m j →
      t.m[j] = (if q.mask.getLsbD 0 then q.val[(0 : Fin 32)] else r.m[j]) ∧ resLands
      ∧ (o ≠ j → t.m[o] = r.m[o])
      ∧ t.v = r.v ∧ t.s = r.s ∧ t.p = r.p ∧ t.k = r.k)
    ∧ (q.dst = .line l ∨ q.dst = .res → resLands ∧ t.v = r.v ∧ t.s = r.s ∧ t.p = r.p ∧ t.m = r.m ∧ t.k = r.k)
    ∧ (q.dst = .keep kp gain guf res →
      (t.k[kp].state)[i] = (if on then q.val[i] else (r.k[kp].state)[i]) ∧ (t.k[kp].gain)[i] = (if on then gain[i] else (r.k[kp].gain)[i])
      ∧ t.guf.getLsbD kp.val = (r.guf.getLsbD kp.val || guf)
      ∧ (if res then resLands else t.res = r.res)
      ∧ (kq ≠ kp → t.k[kq] = r.k[kq] ∧ t.guf.getLsbD kq.val = r.guf.getLsbD kq.val)
      ∧ t.v = r.v ∧ t.s = r.s ∧ t.p = r.p ∧ t.m = r.m)
    ∧ (q.dst = .clearKeep kp →
      (t.k[kp].state)[i] = (if on then 0 else (r.k[kp].state)[i]) ∧ (t.k[kp].gain)[i] = (if on then 0x3F800000 else (r.k[kp].gain)[i])
      ∧ t.guf.getLsbD kp.val = (r.guf.getLsbD kp.val && !q.mask.getLsbD 0)
      ∧ t.res = r.res
      ∧ (kq ≠ kp → t.k[kq] = r.k[kq] ∧ t.guf.getLsbD kq.val = r.guf.getLsbD kq.val)
      ∧ t.v = r.v ∧ t.s = r.s ∧ t.p = r.p ∧ t.m = r.m)

/-- THE FRAME OF AN ELEMENT ENTRY (R136, R199, R200): whatever the entry, no memory, no hide word, no other core and no other element
changes; of its own element only what is in flight, the sticky flags and the guard change before its result lands. -/
def Obligations.ElementEntryFrame : Prop :=
  ∀ (i : Instr) (s t : State) (e : Fin 96), i.isElem = true → s.cur.elem = e.val → exec i s = .next t →
    t.mem = s.mem ∧ t.hostMem = s.hostMem ∧ t.pend = s.pend ∧ t.hide = s.hide ∧ t.engines = s.engines ∧ t.frames = s.frames
    ∧ t.vfs = s.vfs ∧ t.pommel = s.pommel
    ∧ (∀ c : Fin 64, c ≠ s.cur.core → coreOf t c = coreOf s c)
    ∧ (∀ a : Fin 96, a ≠ e → elemOf (coreOf t s.cur.core) a = elemOf (coreOf s s.cur.core) a)
    ∧ (let k := coreOf s s.cur.core
       let k' := coreOf t s.cur.core
       k'.tiles = k.tiles ∧ k'.loft = k.loft ∧ k'.banks = k.banks ∧ k'.c = k.c ∧ k'.stores = k.stores ∧ k'.held = k.held ∧ k'.ports = k.ports)
    ∧ (let x := elemOf (coreOf s s.cur.core) e
       let x' := elemOf (coreOf t s.cur.core) e
       x'.start = x.start ∧ x'.list = x.list ∧ x'.li = x.li ∧ x'.opx = x.opx
       ∧ x'.r.v = x.r.v ∧ x'.r.s = x.r.s ∧ x'.r.p = x.r.p ∧ x'.r.m = x.r.m ∧ x'.r.k = x.r.k ∧ x'.r.res = x.r.res
       ∧ x'.r.accW = x.r.accW ∧ x'.r.accC = x.r.accC ∧ x'.r.gains = x.r.gains ∧ x'.r.exc = x.r.exc ∧ x'.r.guf = x.r.guf ∧ x'.r.ctx = x.r.ctx)

/-! ### Taking a fault -/

/-- R128: of the faults of a round the one with the lowest RC, core, sequencer before elements, element and lane is kept; taking it
changes nothing else, but for R160: a POISON that met metadata that cannot be read has the frame poisoned. -/
def Obligations.FirstFaultIsKept : Prop :=
  ∀ (s : State) (p slot : Nat) (r q : Report) (g : Graph), graphOf s p slot = some g → g.fault = some q →
    let eo := fun (x : Report) => if x.elem = 127 then 0 else x.elem.toNat + 1
    let before := r.rc < q.rc ∨ (r.rc = q.rc ∧ (r.core < q.core ∨ (r.core = q.core ∧ (eo r < eo q ∨ (eo r = eo q ∧ r.lane < q.lane)))))
    let t := takeFault .round s p slot r
    let unread := r.cls = 5 ∧ r.info.toNat / 256 ∈ s.mdtBad
    (before → graphOf t p slot = some { g with fault := some r, hit := none }) ∧ (¬ before → graphOf t p slot = some g)
    ∧ t = { s with
        parts := t.parts
        urgent := s.urgent ++ (if unread then [.framePoison ⟨BitVec.ofNat 32 (r.info.toNat / 65536), .unread⟩] else []) }

/-- R129, R67: the three words of a fault event.
R129, R130: a report goes to the end of the partition's fault queue and, unless its class is ABSENT, RESIDUE, UNDERRUN or OVERRUN,
to the events that wait for the ring of the graph's VF; nothing else changes in the cores, the memory or the hide. -/
def Obligations.ReportsAreQueued : Prop :=
  (∀ (r : Report),
      let e := reportEvent r
      e.type = 0x06 ∧ e.tag = 0 ∧ e.stream = r.stream ∧ e.code.toNat = r.cls.toNat ∧ e.w3 = r.info
      ∧ e.w1.extractLsb' 58 6 = r.slot ∧ e.w1.extractLsb' 50 8 = r.opx ∧ e.w1.extractLsb' 10 40 = r.step ∧ e.w1.extractLsb' 2 8 = r.round
      ∧ e.w1.extractLsb' 0 2 = 0
      ∧ e.w2.extractLsb' 58 6 = r.core ∧ e.w2.extractLsb' 51 7 = r.elem ∧ e.w2.extractLsb' 39 12 = r.li ∧ e.w2.extractLsb' 27 12 = r.rc
      ∧ e.w2.extractLsb' 22 5 = r.lane ∧ e.w2.getLsbD 21 = r.lv ∧ e.w2.extractLsb' 17 4 = r.eng ∧ e.w2.getLsbD 16 = false
      ∧ e.w2.extractLsb' 0 16 = r.detail)
  ∧ (∀ (s : State) (p : Nat) (r : Report) (g : Graph), graphOf s p r.slot.toNat = some g → hitchSelects s p r = false →
      let t := queueReport s p (forwards r.cls) r
      (partOf t p).faultQ = (partOf s p).faultQ ++ [r]
      ∧ (vfOf t g.vf).evWait = (if r.cls = 1 ∨ r.cls = 9 ∨ r.cls = 11 ∨ r.cls = 12 then (vfOf s g.vf).evWait else (vfOf s g.vf).evWait ++ [reportEvent r])
      ∧ t.cores = s.cores ∧ t.mem = s.mem ∧ t.hide = s.hide ∧ t.hitch = s.hitch)

/-! ### Sequencer entries -/

/-- R352, R261: the scalar operations of the boundary section on 64-bit registers, modulo 2^64: each completes on every operand with its
result in D and nothing else changed; the second source is a register or a sign-extended immediate, and an immediate shift count is
at most 63; z reads 0 and discards. -/
def Obligations.ScalarEntries : Prop :=
  ∀ (s : State) (d a : CReg) (b : SArg), inBoundary s →
    let x := cregVal s a
    let y := match b with
      | .reg r => cregVal s r
      | .imm i => i.signExtend 64
    exec (.seqAdd d a b) s = .next (regGets s d (x + y))
    ∧ exec (.seqSub d a b) s = .next (regGets s d (x - y))
    ∧ exec (.seqMul d a b) s = .next (regGets s d (x * y))
    ∧ exec (.seqAnd d a b) s = .next (regGets s d (x &&& y))
    ∧ exec (.seqOr d a b) s = .next (regGets s d (x ||| y))
    ∧ exec (.seqXor d a b) s = .next (regGets s d (x ^^^ y))
    ∧ ((Instr.seqShl d a b).wf = true → exec (.seqShl d a b) s = .next (regGets s d (x <<< (y.toNat % 64))))
    ∧ ((Instr.seqShr d a b).wf = true → exec (.seqShr d a b) s = .next (regGets s d (x >>> (y.toNat % 64))))
    ∧ ((Instr.sra d a b).wf = true → exec (.sra d a b) s = .next (regGets s d (x.sshiftRight (y.toNat % 64))))
    ∧ cregVal s .z = 0 ∧ (∀ n, cregVal (regGets s (.c n) x) (.c n) = x)

/-- R354, R261, R348: branches and loops of the boundary section complete on every operand. A branch that is taken, and a loop whose counter,
written and then read, is not 0, make the entry DISP list indices from this one the next; a branch changes no register, a loop only its
counter. A loop on z, which discards the write and reads 0, is not taken. -/
def Obligations.BranchAndLoopEntries : Prop :=
  ∀ (s : State) (c : Cond) (a b : CReg) (n : Fin 32) (disp : BitVec 26), inBoundary s →
    let x := cregVal s a
    let y := cregVal s b
    let taken := match c with
      | .always => true
      | .eq => decide (x = y)
      | .ne => decide (x ≠ y)
      | .ltu => x.ult y
      | .geu => !x.ult y
      | .lts => x.slt y
      | .ges => !x.slt y
    let goes := fun (t : State) => onCore t (fun k => { k with secLi := ((s.cur.li : Int) + disp.toInt).toNat })
    exec (.br c a b disp) s = .next (if taken then goes s else s)
    ∧ (let w := cregVal s (.c n) - 1
       exec (.loop (.c n) disp) s = .next (if w = 0 then regGets s (.c n) w else goes (regGets s (.c n) w)))
    ∧ exec (.loop .z disp) s = .next s

/-- R353: `li` writes its sign-extended IMM24, `ins` replaces bits [16k+15:16k] of its register by IMM24[15:0] with k =
IMM24[17:16], and both go on; an `ins` word whose IMM24[23:18] is not 0 or whose D is z is refused with 0x0003_0003; one `li` and
four `ins` make any 64-bit word. -/
def Obligations.ConstantEntries : Prop :=
  ∀ (s : State) (d : CReg) (imm : BitVec 24) (k : Fin 4) (stamp : BitVec 12) (code : BitVec 6) (w : DWord),
    let word := fun (opc : BitVec 8) (f : BitVec 6) (i : BitVec 24) =>
      ({ stamp := stamp, cont := 0, opc := opc, f1 := f, f2 := 0, rest := (0 : BitVec 6) ++ i, low := 0 } : Fields).toWord
    let c := cregVal s d
    (inBoundary s →
      exec (.li d imm) s = .next (regGets s d (imm.signExtend 64))
      ∧ ∃ v : DWord, exec (.ins d (imm.extractLsb' 0 16) k) s = .next (regGets s d v)
        ∧ (∀ i : Nat, i < 64 → v.getLsbD i = (if 16 * k.val ≤ i ∧ i ≤ 16 * k.val + 15 then imm.getLsbD (i - 16 * k.val) else c.getLsbD i)))
    ∧ decodeEntry true (word 0xA9 (cregCode d) imm) none = .ok (.li d imm)
    ∧ (imm.extractLsb' 18 6 = 0 → d ≠ .z →
        decodeEntry true (word 0xAA (cregCode d) imm) none
          = .ok (.ins d (imm.extractLsb' 0 16) (Fin.ofNat 4 (imm.extractLsb' 16 2).toNat)))
    ∧ (imm.extractLsb' 18 6 ≠ 0 ∨ code = cregCode .z →
        ∃ e, decodeEntry true (word 0xAA code imm) none = .error e ∧ e.code = 0x00030003)
    ∧ insWord (insWord (insWord (insWord ((w.extractLsb' 0 24).signExtend 64) (w.extractLsb' 0 16) 0) (w.extractLsb' 16 16) 1)
        (w.extractLsb' 32 16) 2) (w.extractLsb' 48 16) 3 = w

/-- R362 to R365: status registers, counters, nop, yield, and a breakpoint that is not enabled.
R362, R363: what the status registers hold. -/
def Obligations.StatusAndControlEntries : Prop :=
  (∀ (s : State) (d a : CReg) (st sel : BitVec 8) (i : Fin 8) (n code : BitVec 16),
      (inBoundary s →
        exec (.rdst d st sel) s = .next (regGets s d (statusReg s st sel))
        ∧ exec (.wrst a st sel) s = .next (onCore s (fun k => writeStatus k st sel (cregVal s a)))
        ∧ exec (.cnt i n) s = .next (onCore s (fun k => { k with evc := k.evc.set i (k.evc[i] + n.zeroExtend 64) }))
        ∧ exec .yld s = .next (onCore s (fun k => { k with secOn := false }))
        ∧ exec .halt s = .next (stopSection s s.cur.part s.cur.slot s.cur.core.val)
        ∧ exec .seqNop s = .next s)
      ∧ (inTimed s →
        exec (.cnt i n) s = .next (onCore s (fun k => { k with cnts := k.cnts ++ [(i, n)] }))
        ∧ exec .seqNop s = .next s)
      ∧ (96 ≤ s.cur.elem → (curCore s).brken = false → exec (.brk code) s = .next s))
  ∧ (∀ (s : State) (k : Core) (st sel : BitVec 8) (e : Fin 96) (i : Fin 8) (w : DWord),
      (sel.toNat = e.val →
        statusReg s 0x02 sel = ((elemOf (curCore s) e).r.flags).zeroExtend 64
        ∧ statusReg s 0x03 sel = ((elemOf (curCore s) e).r.exc).zeroExtend 64
        ∧ (elemOf (writeStatus k 0x02 sel w) e).r.flags = (elemOf k e).r.flags &&& ~~~(w.extractLsb' 0 5)
        ∧ (elemOf (writeStatus k 0x03 sel w) e).r.exc = w.extractLsb' 0 16
        ∧ (elemOf (writeStatus k 0x04 sel w) e).r.ixz = ((elemOf k e).r.ixz && !w.getLsbD 4))
      ∧ (sel = 0xFF → ∀ a : Fin 96, (elemOf (writeStatus k 0x02 sel w) a).r.flags = (elemOf k a).r.flags &&& ~~~(w.extractLsb' 0 5))
      ∧ statusReg s 0x05 sel = (if (curCore s).brken then 1 else 0)
      ∧ statusReg s (BitVec.ofNat 8 (8 + i.val)) sel = (curCore s).evc[i]
      ∧ (writeStatus k (BitVec.ofNat 8 (8 + i.val)) sel w).evc[i] = w)

/-- R365, R351: `trap`, and `brk` where breakpoints are enabled, take TRAP: in a round they void it; in the boundary section the report
is queued and the graph is stopped.
R351: the report of a boundary fault names no unit: ELEM 127, RC 0xFFF, OPX 0xFF, STEP 0, ROUND 0.
R303, R325, R347, R366, R266: an entry reached in the wrong place is ILLEGAL with the 64 bits of the entry, whichever it is: every boundary-only
entry at a timed stamp, every timed-only entry in the boundary section, every sequencer entry in an element's list, every element entry
in a sequencer's list. -/
def Obligations.TrapsAndMisplacedEntries : Prop :=
  (∀ (s : State) (a : CReg) (code : BitVec 16), 96 ≤ s.cur.elem →
      let info : FaultInfo := { cls := 15, detail := code.toNat, info := cregVal s a, lane := none }
      let brk : FaultInfo := { cls := 15, detail := 0xFFF0, info := code.zeroExtend 64, lane := none }
      let p := s.cur.part
      let slot := s.cur.slot
      (inSection s = true →
        exec (.trap a code) s = .next (stopSection (queueReport s p true (boundaryReport s info)) p slot s.cur.core.val)
        ∧ ((curCore s).brken = true → exec (.brk code) s = .next (stopSection (queueReport s p true (boundaryReport s brk)) p slot s.cur.core.val)))
      ∧ (inSection s = false →
        exec (.trap a code) s = .next (takeFault .round s p slot (seqReport s info))
        ∧ ((curCore s).brken = true → exec (.brk code) s = .next (takeFault .round s p slot (seqReport s brk)))))
  ∧ (∀ (s : State) (f : FaultInfo),
      let r := boundaryReport s f
      r.elem = 127 ∧ r.rc = 0xFFF ∧ r.opx = 0xFF ∧ r.step = 0 ∧ r.round = 0 ∧ r.cls = f.cls ∧ r.info = f.info
      ∧ r.core.toNat = s.cur.core.val ∧ r.slot = BitVec.ofNat 6 s.cur.slot ∧ r.li = BitVec.ofNat 12 s.cur.li)
  ∧ (∀ (s : State) (i : Instr),
      let ill := fun (w : DWord) => ({ cls := 13, detail := 0, info := w, lane := none } : FaultInfo)
      let here := ((curCore s).seqList.drop s.cur.li).headD 0
      let timedBad := takeFault .round s s.cur.part s.cur.slot (seqReport s (ill here))
      let sectBad := stopSection (queueReport s s.cur.part true (boundaryReport s (ill here))) s.cur.part s.cur.slot s.cur.core.val
      (i.isSeq = true → (sectionOf i).1 = false → inTimed s → exec i s = .next timedBad)
      ∧ (i.isSeq = true → (sectionOf i).2 = false → inBoundary s → exec i s = .next sectBad)
      ∧ (i.isElem = true → inTimed s → exec i s = .next timedBad)
      ∧ (i.isElem = true → inBoundary s → exec i s = .next sectBad)
      ∧ (i.isSeq = true → ∀ e : Fin 96, s.cur.elem = e.val →
          exec i s = .next (takeFault .round s s.cur.part s.cur.slot (elemReport s (ill (((elemOf (curCore s) e).list.drop s.cur.li).headD 0))))))

/-- R355, R356, R357, R358, R359: `fin` and `early` on an armed operator, posts, cancels and demands.
R355, R119: `demand` in the boundary section asks for the range that its registers bound, with the class and the job of the most
urgent live demand of its own graph, in the lowest free record, and writes the record's index. -/
def Obligations.WorkEntries : Prop :=
  (∀ (s : State) (a b : CReg) (opx : BitVec 8) (level : CLevel),
      (inTimed s → opArmed s opx = true →
        exec (.fin opx) s = .next (onCore s (fun k => { k with fins := k.fins ++ [opx] }))
        ∧ exec (.early opx) s = .next (onCore s (fun k => { k with earlies := k.earlies ++ [opx] })))
      ∧ (inTimed s → opArmed s opx = false → exec (.fin opx) s = .next s ∧ exec (.early opx) s = .next s)
      ∧ (inTimed s → (level = .demand → (cregVal s a).toNat % 2048 < 1280) →
        exec (.seqCancel a level) s = .next (onCore s (fun k => { k with held := k.held ++ [(curRc s, .cancel level (cregVal s a))] })))
      ∧ (inBoundary s → (level = .demand → (cregVal s a).toNat % 2048 < 1280) →
        exec (.seqCancel a level) s = .next (doCancel s s.cur.part level (cregVal s a)))
      ∧ (inBoundary s →
        let off := (cregVal s a).toNat % 2 ^ 24
        let v := (cregVal s b).extractLsb' 0 32
        let l := (curPart s).post
        let put : List PostEnt → Host.Outcome State Fault Refusal := fun m => .next (modPart s s.cur.part (fun x => { x with post := m }))
        seqHideOk s off = true →
          ((∀ e ∈ l, e.off ≠ off) → l.length < 256 → exec (.post a b) s = put (l ++ [{ off := off, val := v }]))
          ∧ ((∃ e ∈ l, e.off = off) → exec (.post a b) s = put (l.map (fun e => if e.off = off then { e with val := v } else e)))))
  ∧ (∀ (s : State) (rel : Bool) (d a b : CReg) (slot sink : BitVec 6) (stride : BitVec 12) (k : Nat), inBoundary s →
      askNames (curPart s) slot.toNat sink.toNat = true → freeRecord (curPart s) = some k →
      let c := issuerClass s
      let q : Ask := { slot := slot.toNat, sink := sink.toNat, rel := rel, a := (cregVal s a).toNat % 2 ^ 48, b := (cregVal s b).toNat % 2 ^ 48
                       stride := stride.toNat, prio := c.1, vf := c.2.1, stream := c.2.2, dnum := 0, dep := 0, prev := none }
      exec (.seqDemand rel d a b slot sink stride) s = .next (regGets (acceptDemand s s.cur.part k q) d (BitVec.ofNat 64 k))
      ∧ 1024 ≤ k ∧ k < 1280 ∧ (∀ x, tfind (curPart s).demands k = some x → x.done = true))

/-- R360: `waitc` in the boundary section writes D once what it waits for holds, and else is executed again, every kind of it: that it waits by
being executed again is the model's reading (log entry 26), and that the read that lets it go on asks its bank (log entry 28).
R361, R192, R193, R195, R314: semaphores and seals are performed at once in the boundary section and take their place in the commit
order in the timed part; a drain goes on when no copy, gather or transform of its core into that memory is outstanding, and is executed again
while one is (log entry 26). -/
def Obligations.WaitsSemaphoresDrains : Prop :=
  (∀ (s : State) (d a b : CReg) (mask : BitVec 5), inBoundary s →
      let k := (cregVal s a).toNat % 2 ^ 11
      let off := (cregVal s a).toNat % 2 ^ 24
      let rec1 := workWord (curPart s) (1025 + 2 * k)
      let w := hideRead s s.cur.part off
      (k < 1280 →
        (rec1.getLsbD 63 = true → exec (.waitc .done d a b) s = .next (regGets s d rec1))
        ∧ (rec1.getLsbD 63 = false → exec (.waitc .done d a b) s = .next (waitEntry s))
        ∧ (rec1.getLsbD 62 = true → exec (.waitc .trig d a b) s = .next (regGets s d rec1))
        ∧ (rec1.getLsbD 62 = false → exec (.waitc .trig d a b) s = .next (waitEntry s)))
      ∧ ((∀ r ∈ s.engines, r.core = s.cur.core.val → mask.getLsbD r.cmd.cls = false) →
        exec (.waitc (.engines mask) d a b) s = .next (regGets s d 0))
      ∧ ((∃ r ∈ s.engines, r.core = s.cur.core.val ∧ mask.getLsbD r.cmd.cls = true) →
        exec (.waitc (.engines mask) d a b) s = .next (waitEntry s))
      ∧ (off < (curPart s).hideSize →
        ((cregVal s b).toNat ≤ w.toNat → exec (.waitc .hide d a b) s = .next (regGets (sectAsk s s.cur.part off) d w))
        ∧ (w.toNat < (cregVal s b).toNat → exec (.waitc .hide d a b) s = .next (waitEntry s)))
      ∧ ((curPart s).hideSize ≤ off →
        exec (.waitc .hide d a b) s = .next (stopSection (queueReport s s.cur.part true
          (boundaryReport s { cls := 2, detail := 0xFFFF, info := BitVec.ofNat 64 off, lane := none })) s.cur.part s.cur.slot s.cur.core.val)))
  ∧ (∀ (s : State) (a b : CReg) (op : SemOp),
      let off := (cregVal s a).toNat % 2 ^ 24
      let h : HOp := .sem op (cregVal s b)
      let none' := fun (d : DrainKind) => ∀ r ∈ s.engines, r.core = s.cur.core.val → r.cmd.cls ≤ 2 →
        ∀ x, r.cmd.dest = some x → d.fits (regionOf x.1) = false
      let some' := fun (d : DrainKind) => ∃ r ∈ s.engines, r.core = s.cur.core.val ∧ r.cmd.cls ≤ 2
        ∧ ∃ x, r.cmd.dest = some x ∧ d.fits (regionOf x.1) = true
      (inBoundary s → seqHideOk s off = true →
        exec (.sig op a b) s = .next (hideWrite (sectAsk s s.cur.part off) s.cur.part off (hopApply h (hideRead s s.cur.part off))))
      ∧ (inBoundary s → exec .seal s = .next s)
      ∧ (inTimed s → seqHideOk s off = true →
        exec (.sig op a b) s = .next (onCore s (fun k => { k with hideOps := k.hideOps ++ [{ stamp := curRc s, who := 0, off := off, op := h }] })))
      ∧ (inTimed s →
        exec .seal s = .next (onCore s (fun k => { k with hideOps := k.hideOps ++ [{ stamp := curRc s, who := 0, off := 0, op := .sealPoint }] })))
      ∧ (inBoundary s → none' .mt → exec .drainMt s = .next s)
      ∧ (inBoundary s → none' .loft → exec .drainLoft s = .next s)
      ∧ (inBoundary s → none' .hide → exec .drainHide s = .next s)
      ∧ (inBoundary s → some' .mt → exec .drainMt s = .next (waitEntry s))
      ∧ (inBoundary s → some' .loft → exec .drainLoft s = .next (waitEntry s))
      ∧ (inBoundary s → some' .hide → exec .drainHide s = .next (waitEntry s)))

/-- R308, R310: stream records and progressions for the next round, and port steps.
R308, R309, R212: a port that steps past its NV vectors goes to the next position of its progression, and past the last one it is
finished; a position outside the progression moves nothing. That two ports may step one tile port in an fc is the model's choice (log entry 93). -/
def Obligations.StreamEntries : Prop :=
  (∀ (s : State) (port : Fin 16) (n : BitVec 8) (a b : CReg) (f : Fin 7) (mask : BitVec 16) (r : StreamRec),
      let q := (curCore s).ports[port]
      let puts : Port → Host.Outcome State Fault Refusal := fun q' => .next (onCore s (fun k => { k with ports := k.ports.set port q' }))
      (inBoundary s → (curCore s).records[n.toNat]? = some r →
        exec (.sdef port n) s = puts { q with next := some r, latch := if dropsLatch (nextRec q) (some r) then none else q.latch })
      ∧ (inBoundary s → nextRec q = some r →
        let r' := setField r f (cregVal s a)
        exec (.sset port f a) s = puts { q with next := some r', latch := if dropsLatch (some r) (some r') then none else q.latch })
      ∧ (inBoundary s →
        exec (.sarm port a b) s = puts { q with freeNext := { a := ((cregVal s a).toNat % 2 ^ 48 : Nat), b := ((cregVal s b).toNat % 2 ^ 48 : Nat), s := 1 } })
      ∧ (inTimed s → exec (.sstep mask) s = .next (stepPorts s mask)))
  ∧ (∀ (r : StreamRec) (q : Port),
      (q.step + 1 < r.nv → (advancePort r q).step = q.step + 1 ∧ (advancePort r q).pos = q.pos ∧ (advancePort r q).fin = q.fin)
      ∧ (¬ q.step + 1 < r.nv → (advancePort r q).step = 0 ∧ (advancePort r q).pos = q.pos + q.prog.s
        ∧ ((advancePort r q).fin = true ↔ q.prog.b < q.pos + q.prog.s))
      ∧ (advancePort r q).active = q.active ∧ (advancePort r q).prog = q.prog ∧ (advancePort r q).pos0 = q.pos0
      ∧ (advancePort r q).step0 = q.step0 ∧ (advancePort r q).latch = q.latch)

/-- R326, R327, R332, R344: rectangles and gains wait for the next round start, gains of a round first for its commit, and bank writes wait for
the commit.
R344, R345: what a bank write does to the shadow half when it is applied: an entry becomes valid with its value, a range becomes
invalid, a size is set; the active half stays. -/
def Obligations.ArrayAndBankEntries : Prop :=
  (∀ (s : State) (slot : Fin 8) (row0 : Fin 8) (col0 : Fin 12) (nrm1 : Fin 8) (ncm1 : Fin 12) (form : SForm) (fmt : STy) (a : CReg)
      (all : Bool) (row idx first nm1 : BitVec 8) (bank : Fin 16) (size : BitVec 9),
      let g : GainOp := { slot := slot, row := if all then none else some row.toNat, val := (cregVal s a).extractLsb' 0 32, li := s.cur.li }
      let bop : BankOp → Host.Outcome State Fault Refusal := fun o => .next (onCore s (fun k => { k with bankOps := k.bankOps ++ [o] }))
      (inBoundary s →
        (let r : Rect := { row0 := row0.val, col0 := col0.val, nr := nrm1.val + 1, nc := ncm1.val + 1, form := form, fmt := fmt }
         exec (.smode slot row0 col0 nrm1 ncm1 form fmt) s = .next (onCore s (fun k => { k with rectsNext := k.rectsNext.set slot r })))
        ∧ exec (.sgain slot a all row) s = .next (onCore s (fun k => { k with gainsNext := k.gainsNext ++ [g] })))
      ∧ (inTimed s →
        exec (.sgain slot a all row) s = .next (onCore s (fun k => { k with gainsHeld := k.gainsHeld ++ [g] }))
        ∧ exec (.stw bank a idx) s = bop (.write bank idx (cregVal s a))
        ∧ exec (.stinv bank first nm1) s = bop (.inval bank first.toNat (first.toNat + nm1.toNat))
        ∧ exec (.stsz bank size) s = bop (.size bank size.toNat)
        ∧ exec (.stsw bank) s = bop (.swap bank)))
  ∧ (∀ (k : Core) (n : Fin 16) (idx : BitVec 8) (v : DWord) (first last size : Nat) (j : Nat),
      let b := k.banks[n]
      let act : Fin 2 := if b.act then 1 else 0
      let sh : Fin 2 := if b.act then 0 else 1
      let w := (applyBankOp k (.write n idx v)).banks[n]
      let i := (applyBankOp k (.inval n first last)).banks[n]
      let z := (applyBankOp k (.size n size)).banks[n]
      tget 0 w.ent[sh] idx.toNat = v ∧ (w.valid[sh]).getLsbD idx.toNat = true ∧ w.ent[act] = b.ent[act] ∧ w.valid[act] = b.valid[act]
      ∧ (j < 256 → (i.valid[sh]).getLsbD j = ((b.valid[sh]).getLsbD j && !(decide (first ≤ j ∧ j ≤ last)))) ∧ i.ent = b.ent ∧ i.valid[act] = b.valid[act]
      ∧ z.size[sh] = size ∧ z.size[act] = b.size[act] ∧ z.ent = b.ent ∧ w.act = b.act ∧ i.act = b.act ∧ z.act = b.act)

/-- R329, R331, R333, R336: a load from the loft takes the rectangle's bytes column by column and is ready after the load time, until which what the slot
held before stays in use; a tile
step steps its ports now, computes one fc later and replays at its interval; `sread` drives the accumulator words of the bottom element of every
column of a rectangle inside the grid on that column's line, none of which disagrees with the residue that is held alongside it, and zeros where
the rectangle is off; with CLR it clears those words and no others. -/
def Obligations.ArrayTimedEntries : Prop :=
  ∀ (s : State) (slot : Fin 8) (seg off : BitVec 8) (acc clr : Bool) (bank : Fin 16) (rep : BitVec 12) (int : BitVec 10)
    (mask : BitVec 16), inTimed s →
    let r := (curCore s).rects[slot]
    let start := 65536 * seg.toNat + 256 * off.toNat
    let size := r.nR * (r.cb + r.xb)
    let cols := loftCols (curCore s) r start
    let loads := fun (w : Weights) => w :: tget [] (curCore s).weights slot.val
    (loftWindow (curCore s) (start / 65536) ((start + size - 1) / 65536) = none → (r.form = .fast → fastBad r cols = none) →
      exec (.sload slot false seg off) s = .next (onCore s (fun k =>
        { k with weights := tput k.weights slot.val (loads { ready := curRc s + r.loadTime false - 1, cols := cols }) })))
    ∧ (∀ w, loftWindow (curCore s) (start / 65536) ((start + size - 1) / 65536) = some w →
      exec (.sload slot false seg off) s = .next (takeHit s s.cur.part s.cur.slot
        (seqReport s { cls := 11, detail := 0xFFFF, info := BitVec.ofNat 64 start, lane := none }) (some (.window s.cur.core.val w))))
    ∧ (∃ t, exec (.sload slot true seg off) s = .next t
        ∧ (coreOf t s.cur.core).sad = (curCore s).sad ++ ((upTo (r.loadTime true)).drop 1).map (fun u =>
            (curRc s + u, .loadLine slot u (curRc s + r.loadTime true - 1) s.cur.li))
        ∧ (∃ w l, tfind (coreOf t s.cur.core).weights slot.val = some (w :: l) ∧ w.ready = curRc s + r.loadTime true - 1
            ∧ l.length = (tget [] (curCore s).weights slot.val).length))
    ∧ (let later := ((upTo (rep.toNat + 1)).drop 1).map (fun n => (curRc s + n * (int.toNat + 1), SadAct.replay slot acc bank mask s.cur.li))
       let t := stepPorts (onCore s (fun k => { k with sad := k.sad ++ later })) mask
       exec (.tstep slot acc bank rep int mask) s = .next (onCore t (fun k =>
        { k with sad := k.sad ++ [(curRc t + 1, .compute slot acc bank s.cur.li)] })))
    ∧ (let bottom := fun (j : Nat) => Fin.ofNat 96 (12 * (r.row0 + r.nr - 1) + r.col0 + j)
       1 ≤ r.nr → r.row0 + r.nr ≤ 8 → r.col0 + r.nc ≤ 12 →
       (r.form ≠ .off → ∀ j : Nat, j < r.nc → ∀ h ∈ (elemOf (curCore s) (bottom j)).r.resid, h.1.place ≠ .acc) →
       ∃ k, exec (.sread slot clr) s = .next (onCore s (fun _ => k))
        ∧ (∀ j : Nat, j < r.nc → tfind k.lineNext (8 + r.col0 + j)
            = some (if r.form = .off then Lanes.zero else Lanes.tab (fun i => (elemOf (curCore s) (bottom j)).r.accW[i])))
        ∧ (∀ l : Nat, (∀ j : Nat, j < r.nc → l ≠ 8 + r.col0 + j) → tfind k.lineNext l = tfind (curCore s).lineNext l)
        ∧ (∀ e : Fin 96, (clr = false ∨ r.form = .off ∨ ∀ j : Nat, j < r.nc → e ≠ bottom j) → elemOf k e = elemOf (curCore s) e)
        ∧ (clr = true → r.form ≠ .off → ∀ j : Nat, j < r.nc →
            let x := elemOf (curCore s) (bottom j)
            let y := elemOf k (bottom j)
            y.r.accW = Vector.replicate 32 0 ∧ y.r.accC = x.r.accC ∧ y.r.v = x.r.v ∧ y.r.s = x.r.s ∧ y.r.p = x.r.p ∧ y.r.m = x.r.m ∧ y.r.k = x.r.k
              ∧ y.r.res = x.r.res ∧ y.r.gains = x.r.gains ∧ y.r.pipe = x.r.pipe ∧ y.r.flags = x.r.flags ∧ y.start = x.start ∧ y.li = x.li)
        ∧ k.tiles = (curCore s).tiles ∧ k.loft = (curCore s).loft ∧ k.weights = (curCore s).weights ∧ k.sad = (curCore s).sad
        ∧ k.ports = (curCore s).ports ∧ k.c = (curCore s).c)

/-- R315 to R321, R136: in the timed part an engine command is held to the commit with the values of its registers, and nothing else
changes; in the boundary section it is released at once while fewer than 64 commands of its core are outstanding, else the
entry waits, unless the command takes no place among them: one that is malformed, or a copy of nothing, which ends as it is released. A
`stir.qk` that is well formed takes its lanes for its graph as it is issued (R321). -/
def Obligations.EngineCommandsAreIssued : Prop :=
  ∀ (s : State) (a b c : CReg) (n : BitVec 22) (rb x : BitVec 24) (sel : BitVec 8) (link : Bool) (pfmt cls : BitVec 2) (group : BitVec 10)
    (rop : ROp) (d ko vo : BitVec 12) (kf : KF) (l0 nlm1 : BitVec 6),
    let orNone := fun (r : CReg) => if r = .z then none else some (cregVal s r)
    let cmds : List (Instr × BitVec 8 × Cmd) :=
      [ (.copy a b n, 0xD5, .copy (cregVal s a) (cregVal s b) n.toNat)
      , (.gather a b n c rb, 0xD6, .gather (cregVal s a) (cregVal s b) (cregVal s c) n.toNat rb.toNat)
      , (.xf sel a b n c x link, 0xD7, .xf sel (orNone a) (if link then none else some (cregVal s b)) n.toNat (cregVal s c) x)
      , (.collMc a b n pfmt cls group, 0xD8, .mc (orNone a) (cregVal s b) n.toNat pfmt cls group.toNat 0)
      , (.collBar cls group, 0xD9, .bar group.toNat 0)
      , (.collRed rop a b n pfmt cls group d, 0xDA, .red rop (cregVal s a) (cregVal s b) n.toNat pfmt cls group.toNat d.toNat 0)
      , (.stirQk kf a b c l0 nlm1 ko vo, 0xDB, .qk kf (cregVal s a) (cregVal s b) (cregVal s c) l0.toNat (nlm1.toNat + 1) ko.toNat vo.toNat)
      , (.stirPv a b l0 nlm1, 0xDC, .pv (cregVal s a) (cregVal s b) l0.toNat (nlm1.toNat + 1))
      , (.stirGet b l0 nlm1, 0xDD, .get (cregVal s b) l0.toNat (nlm1.toNat + 1)) ]
    ∀ e ∈ cmds,
      (inTimed s → exec e.1 s = .next (onCore s (fun k => { k with held := k.held ++ [(curRc s, .cmd e.2.1 e.2.2)] })))
      ∧ (inBoundary s → outstanding s s.cur.core.val < 64 →
          exec e.1 s = .next (release s s.cur.part s.cur.slot s.cur.core.val e.2.1 e.2.2))
      ∧ (inBoundary s → 64 ≤ outstanding s s.cur.core.val → ∀ g, graphOf s s.cur.part s.cur.slot = some g →
          (cmdBad s s.cur.part g e.2.2 = [] → (∀ x y, e.2.2 ≠ .copy x y 0) → exec e.1 s = .next (waitEntry s))
          ∧ (cmdBad s s.cur.part g e.2.2 ≠ [] ∨ (∃ x y, e.2.2 = .copy x y 0) →
              exec e.1 s = .next (release s s.cur.part s.cur.slot s.cur.core.val e.2.1 e.2.2)))
      ∧ (∀ g w x y z kf' ko' vo' f m j, graphOf s s.cur.part s.cur.slot = some g → e.2 = (w, .qk kf' x y z f m ko' vo') →
          cmdBad s s.cur.part g e.2.2 = [] → j < m →
            (stirOf (release s s.cur.part s.cur.slot s.cur.core.val e.2.1 e.2.2) s.cur.core.val (f + j)).owner = some (s.cur.part, s.cur.slot))

/-- R171, R173, R174, R322: a KV entry whose enabling register has EN clear does nothing; one that passes its check takes its quota units at
issue and is held to the commit; one that fails it takes no units, and faults with what the check finds, having noted what it wanted. A
sequence that is V and not HOT is ABSENT with its cold table in INFO; reserved bits of an operand, an append, pin or free of a sequence that is
not V and an append past 1 048 576 positions are PERM with the sequence in INFO[43:32]; too few units are QUOTA with the VF. That the check
counts what the rounds' held commands will leave is the model's reading (log entry 85).
R178, R323, R324: the prefix entries and `flush.frame` of the boundary section write their status to D. -/
def Obligations.KvPrefixAndFlushEntries : Prop :=
  (∀ (s : State) (a b : CReg) (n : BitVec 24) (u : Nat), inTimed s →
      let w := cregVal s a
      let x := cregVal s b
      let p := s.cur.part
      let vf := (curPart s).vf
      let takes := fun (m : Nat) (t : State) => if m = 0 then t else takeUnits t p m
      let ok := fun (k : KvOp) => kvCheck s p vf k = .ok u
      let holds := fun (k : KvOp) => (Host.Outcome.next (onCore (takes u s) (fun c => { c with held := c.held ++ [(curRc s, .kv k)] })) : Host.Outcome State Fault Refusal)
      (w.getLsbD 63 = false → exec (.kvApp a n) s = .next s ∧ exec (.kvFork a b n) s = .next s ∧ exec (.kvFree a) s = .next s)
      ∧ (x.getLsbD 63 = false → exec (.kvPin a b) s = .next s ∧ exec (.kvUnpin b) s = .next s)
      ∧ (w.getLsbD 63 = true → w.toNat / 2 ^ 12 % 2 ^ 51 = 0 →
        (ok (.app (w.toNat % 4096) n.toNat 0) → exec (.kvApp a n) s = holds (.app (w.toNat % 4096) n.toNat u))
        ∧ (ok (.free (w.toNat % 4096)) → exec (.kvFree a) s = holds (.free (w.toNat % 4096)))
        ∧ (x.toNat / 2 ^ 12 % 2 ^ 51 = 0 → ok (.fork (w.toNat % 4096) (x.toNat % 4096) n.toNat) →
            exec (.kvFork a b n) s = holds (.fork (w.toNat % 4096) (x.toNat % 4096) n.toNat)))
      ∧ (x.getLsbD 63 = true → x.toNat / 2 ^ 32 % 2 ^ 31 = 0 →
        (w.toNat / 2 ^ 12 % 2 ^ 51 = 0 → ok (.pin (w.toNat % 4096) (x.extractLsb' 0 32)) →
          exec (.kvPin a b) s = holds (.pin (w.toNat % 4096) (x.extractLsb' 0 32)))
        ∧ (ok (.unpin (x.extractLsb' 0 32)) → exec (.kvUnpin b) s = holds (.unpin (x.extractLsb' 0 32))))
      -- a check that fails
      ∧ (let seq := w.toNat % 4096
         let par := x.toNat % 4096
         let base := x.extractLsb' 0 32
         let q := seqOf s p seq
         let cold := fun (q : Machine.Seq) => q.v = true ∧ q.hot = false
         let absent := fun (q : Machine.Seq) => ({ cls := 1, detail := 0xFFFE, info := BitVec.ofNat 64 q.ctbase, lane := none } : FaultInfo)
         let perm := fun (f : FaultInfo) => f.cls = 2 ∧ f.detail = 0xFFFE ∧ f.info.toNat / 2 ^ 32 = seq ∧ f.lane = none
         let faults := fun (i : Instr) (f : FaultInfo) => ∃ t q m, exec i s = .next (takeFault .round t p s.cur.slot (seqReport t f))
           ∧ t = modCurGraph s (fun g => if g.fault.isSome then g else { g with wantSeq := q, wantNew := m })
         let refuses := fun (i : Instr) => ∃ f, perm f ∧ exec i s = .next (takeFault .round s p s.cur.slot (seqReport s f))
         (w.getLsbD 63 = true → w.toNat / 2 ^ 12 % 2 ^ 51 = 0 →
            (∀ f, kvCheck s p vf (.app seq n.toNat 0) = .error f → faults (.kvApp a n) f)
            ∧ (∀ f, kvCheck s p vf (.free seq) = .error f → faults (.kvFree a) f)
            ∧ (∀ f, x.toNat / 2 ^ 12 % 2 ^ 51 = 0 → kvCheck s p vf (.fork seq par n.toNat) = .error f → faults (.kvFork a b n) f)
            ∧ (x.toNat / 2 ^ 12 % 2 ^ 51 ≠ 0 → refuses (.kvFork a b n)))
         ∧ (w.getLsbD 63 = true → w.toNat / 2 ^ 12 % 2 ^ 51 ≠ 0 → refuses (.kvApp a n) ∧ refuses (.kvFree a) ∧ refuses (.kvFork a b n))
         ∧ (x.getLsbD 63 = true → w.toNat / 2 ^ 12 % 2 ^ 51 = 0 → x.toNat / 2 ^ 32 % 2 ^ 31 = 0 →
            ∀ f, kvCheck s p vf (.pin seq base) = .error f → faults (.kvPin a b) f)
         ∧ (x.getLsbD 63 = true → w.toNat / 2 ^ 12 % 2 ^ 51 ≠ 0 ∨ x.toNat / 2 ^ 32 % 2 ^ 31 ≠ 0 → refuses (.kvPin a b))
         ∧ (x.getLsbD 63 = true → x.toNat / 2 ^ 32 % 2 ^ 31 ≠ 0 →
            ∃ f, f.cls = 2 ∧ f.detail = 0xFFFE ∧ exec (.kvUnpin b) s = .next (takeFault .round s p s.cur.slot (seqReport s f)))
         ∧ (cold q → kvCheck s p vf (.app seq n.toNat 0) = .error (absent q) ∧ kvCheck s p vf (.free seq) = .error (absent q)
            ∧ kvCheck s p vf (.pin seq base) = .error (absent q) ∧ kvCheck s p vf (.fork seq par n.toNat) = .error (absent q))
         ∧ (¬ cold q → cold (seqOf s p par) → kvCheck s p vf (.fork seq par n.toNat) = .error (absent (seqOf s p par)))
         ∧ (q.v = false → heldKv s p = [] → ∀ k ∈ [KvOp.app seq n.toNat 0, .pin seq base, .free seq], ∃ f, kvCheck s p vf k = .error f ∧ perm f)
         ∧ (q.v = true → q.hot = true → heldKv s p = [] → 1048576 < q.f + n.toNat → ∃ f, kvCheck s p vf (.app seq n.toNat 0) = .error f ∧ perm f)
         ∧ (q.v = true → q.hot = true → heldKv s p = [] → q.f % 16 ≠ 0 → ∃ f, kvCheck s p vf (.pin seq base) = .error f ∧ perm f)
         ∧ (q.v = true → q.hot = true → heldKv s p = [] → q.f % 16 = 0 → q.f + n.toNat ≤ 1048576 →
            let m := (q.f + n.toNat + 15) / 16 - q.f / 16
            pomFits s p vf m = true → (partOf s p).quota < m →
              kvCheck s p vf (.app seq n.toNat 0) = .error { cls := 4, detail := 0, info := BitVec.ofNat 64 vf, lane := none })))
  ∧ (∀ (s : State) (d a b c : CReg) (mt : Fin 16) (line : Nat), inBoundary s →
      let p := s.cur.part
      let vf := (curPart s).vf
      let k : PxKey := { h := (cregVal s a).extractLsb' 32 32, prev := (cregVal s a).extractLsb' 0 32
                         tok := (tileLine (curCore s) mt.val line).data.toList.take 16 }
      let q := (cregVal s c).toNat / 65536 % 4096
      (regionOf (cregVal s b) = .tile mt line →
        (let r := pxLookup s vf k
         exec (.pxlk d a b) s = .next (regGets (if r.1.toNat % 2 ^ 32 = 1 then takePin r.2 p (r.1.toNat / 2 ^ 32 % 2 ^ 32) else r.2) d r.1))
        ∧ (let r := pxEvict s vf k
           exec (.pxev d a b) s = .next (regGets r.2 d r.1))
        ∧ ((pxTable s vf).isSome = false ∨ (seqOf s p q).v = false ∨ (seqOf s p q).hot = true →
            let r := pxInsert s p vf k q ((cregVal s c).toNat % 65536)
            exec (.pxin d a b c) s = .next (regGets r.2 d r.1)))
      ∧ (let f := (cregVal s a).toNat % 2 ^ 32
         (frameDesc s f).v = true → (frameDesc s f).owner = vf →
          (s.pend.any (fun e => e.1 / 1024 = f) = true → exec (.flushFrame d a) s = .next (regGets s d 1))
          ∧ (s.pend.any (fun e => e.1 / 1024 = f) = false → exec (.flushFrame d a) s = .next (regGets (flushFrame s f) d 0))))

/-- What an entry of a sequencer's list leaves as it is, whatever the entry and wherever it is reached: the host's memory, every byte
of memory that stands as memory holds it (a port step may fill a line of L2, and the fill makes bytes that ZSE had elided or left stale
plain, R158, R159; no other entry changes any byte), every sequencer register but its destination, and the vector, scratch, predicate,
mask, keeper and result registers of every element (R136, R261, R349). -/
def Obligations.SequencerEntryFrame : Prop :=
  ∀ (i : Instr) (s t : State) (c : Fin 64) (n : Fin 32) (e : Fin 96), i.isSeq = true → exec i s = .next t →
    t.hostMem = s.hostMem ∧ (∀ a, plainAt s a → readB t.mem a = readB s.mem a) ∧ (isPortStep i = false → t.mem = s.mem)
    ∧ (¬ (c = s.cur.core ∧ seqDest i = some (.c n)) → (coreOf t c).c[n] = (coreOf s c).c[n])
    ∧ (let x := elemOf (coreOf s c) e
       let y := elemOf (coreOf t c) e
       y.r.v = x.r.v ∧ y.r.s = x.r.s ∧ y.r.p = x.r.p ∧ y.r.m = x.r.m ∧ y.r.k = x.r.k ∧ y.r.res = x.r.res)

/-! ### Power, reset, HITCH, the outside -/

/-- R21, R22: each reset input, in every state, leaves every register, queue and memory of the package at its reset value and no round,
command or packet of what was before; SYS_RST_N and PERST_N each leave the other as it is. What is outside the package stays: the debug fuse, the device identifier and the host's memory
(the model's log entry 78), and, of the model's own, the inputs still to come, the outputs and the counts of free values. A device from which
power has been removed stays without it.
R22, R23, R53, R66, R221: what the machine holds right after reset, as far as the manual states it; and its byte memories
are in the model's canonical form, the invariant that every step keeps. -/
def Obligations.ResetInputsAndState : Prop :=
  (∀ (s : State),
      let r : State := { State.reset with
        boot := if s.boot = .off then .off else .reset
        fuse := s.fuse, deviceId := s.deviceId, hostMem := s.hostMem, inbox := s.inbox, out := s.out
        free := s.free, freeLat := s.freeLat, freeGap := s.freeGap }
      exec .pwrGoodLow s = .next { r with pwrGood := false }
      ∧ exec .sysRstN s = .next { r with pwrGood := s.pwrGood, perstN := s.perstN, sysRstN := false }
      ∧ exec .perstN s = .next { r with pwrGood := s.pwrGood, sysRstN := s.sysRstN, perstN := false }
      ∧ exec .powerRemoved s = .next { r with pwrGood := false, boot := .off })
  ∧ (let s := State.reset
    s.hitch = false ∧ s.cfgNormal = false ∧ s.fc = 0 ∧ s.parts = [] ∧ s.mem = [] ∧ s.hide = [] ∧ s.engines = [] ∧ s.frames = []
    ∧ (∀ c : Fin 64, (s.cores[c]).owner = none ∧ (s.cores[c]).brken = false)
    ∧ (∀ j : Fin 4, (ElemRegs.reset).k[j] = Keeper.cleared)
    ∧ (Stream.reset).en = false ∧ (Stream.reset).state = .off ∧ (Stream.reset).log2 = 12 ∧ (Vf.reset).evPh = true ∧ (Vf.reset).evEn = false
    ∧ memCanon s)

/-- R23, R24, R71: the power-up order completes while the device is neither ready nor failed: it ends in a device that is ready, in one that
still boots, or in a failed one when the trailer or a signature of the firmware image is not good. That an order can end with its last step
outstanding, that link training includes the release of PERST_N, that a failed or timed-out order takes no later step before a reset, and that
a boot timeout keeps the STATUS of a failure are the model's readings (log entry 58). Once SYS_RST_N is released the host
link trains; a configuration request gets Retry Status until the device is ready or the boot timeout has passed, which reports a
device that is not ready as failed. -/
def Obligations.PowerUpOrder : Prop :=
  ∀ (s : State) (fw : List Byte) (frames : BitVec 33) (up : BitVec 2) (last : Bool),
    (s.boot ≠ .ready → s.boot ≠ .failed →
      ∃ t, exec (.powerUp fw frames ⟨up, last⟩) s = .next t ∧ t.pwrGood = true ∧ t.sysRstN = true ∧ t.pll = true ∧ t.fc = 0
        ∧ t.cores = s.cores ∧ t.mem = s.mem ∧ t.parts = s.parts
        ∧ (match sigBad grenrovKeys fw, last with
          | some _, _ => t.boot = .failed ∧ t.status = 2
          | none, false => t.boot = .booting ∧ t.status = s.status ∧ t.cfgNormal = s.cfgNormal ∧ t.fwHash = Config.sha384 fw
          | none, true => t.boot = .ready ∧ t.status = 1 ∧ t.cfgNormal = true ∧ t.fwHash = Config.sha384 fw
            ∧ 6291456 ≤ t.fdtCount ∧ t.fdtCount ≤ 2 ^ 32
            ∧ (∀ i : Fin 18, (t.ports[i]).up = true) ∧ ∀ i : Fin 2, t.poolUp[i] = up.getLsbD i.val))
    ∧ (s.boot = .ready ∨ s.boot = .failed → exec (.powerUp fw frames ⟨up, last⟩) s = .next s)
    ∧ (s.sysRstN = true → exec .hostLinkTraining s = .next { s with perstN := true, hostLink := true })
    ∧ (s.hostLink = true → exec .configurationRequest s = .next { s with out := s.out ++ [.config (!s.cfgNormal)] })
    ∧ (s.boot ≠ .ready → s.perstN = true →
      exec .bootTimeout s = .next { s with boot := .failed, cfgNormal := true, status := if s.status = 0 then 3 else s.status })
    ∧ (s.boot = .ready → exec .bootTimeout s = .next s)

/-- R18, R20: at 100 °C the firmware raises GAP on every partition with cores on the die, above the one in force as far as the field goes, and
enables pacing; the chosen GAP is free (the model's log entry 17); at 110 °C no start pulse issues until a reset; a cap outside 800 W to 2 800 W is not taken (the model's log entry 59).
R89, R90, R91: HITCH stops the clocks and takes the host, pool and fabric links down, and keeps all else; the debug port reads
the state out while HITCH holds, in full unless a blown fuse is still locked. -/
def Obligations.PowerAndHitchInputs : Prop :=
  (∀ (s : State) (die : Fin 4) (watts : BitVec 16) (p : Nat) (x : Part), keysRise s.parts = true → tfind s.parts p = some x → x.v = true →
      let old := if bit x.paceNext 0 then bitsN x.paceNext 16 12 else 0
      (∃ t, exec (.temperature100C die) s = .next t ∧ t.cores = s.cores ∧ t.mem = s.mem
        ∧ (x.coreList.any (fun c => c / 16 = die.val) = true →
            bit (partOf t p).paceNext 0 = true ∧ min 4095 (old + 1) ≤ bitsN (partOf t p).paceNext 16 12)
        ∧ (x.coreList.any (fun c => c / 16 = die.val) = false → partOf t p = x))
      ∧ exec (.thermtrip die) s = .next { s with thermTrip := true }
      ∧ (∀ (q : Nat) (g : Graph), pulseFree { s with thermTrip := true } q g = false)
      ∧ (∀ (part slot : BitVec 6), s.thermTrip = true → exec (.startPulse part slot) s = .next s)
      ∧ (800 ≤ watts.toNat → watts.toNat ≤ 2800 →
        ∃ t, exec (.powerCap watts) s = .next t ∧ t.powerCap = watts.toNat ∧ bit (partOf t p).paceNext 0 = true ∧ t.cores = s.cores)
      ∧ (watts.toNat < 800 ∨ 2800 < watts.toNat → exec (.powerCap watts) s = .next s))
  ∧ (∀ (s : State) (unlock : Bool),
      (∃ t, exec .hitch s = .next t ∧ exec .hitchArmSw s = .next t ∧ t.hitch = true ∧ t.hostLink = false
        ∧ (∀ i : Fin 2, t.poolUp[i] = false) ∧ (∀ i : Fin 18, (t.ports[i]).up = false ∧ (t.ports[i]).replay = (s.ports[i]).replay)
        ∧ t = { s with hitch := true, hostLink := false, poolUp := t.poolUp, ports := t.ports })
      ∧ (s.hitch = false → exec (.jtagReadout unlock) s = .next s)
      ∧ (s.hitch = true → exec (.jtagReadout unlock) s =
          .next { s with unlocked := unlock || s.unlocked, out := s.out ++ [.jtag (!s.fuse || (unlock || s.unlocked))] }))

/-- R89: while HITCH holds and no reset, removal of power or debug request is on its way, a step changes no core, partition, memory,
hide word, stream, port or clock, and HITCH goes on to hold. -/
def Obligations.HitchFreezesTheMachine : Prop :=
  ∀ (s t : State), frozen s → step s = .next t →
    frozen t ∧ t.cores = s.cores ∧ t.parts = s.parts ∧ t.mem = s.mem ∧ t.hostMem = s.hostMem ∧ t.pend = s.pend ∧ t.hide = s.hide ∧ t.vfs = s.vfs
    ∧ t.ports = s.ports ∧ t.fc = s.fc ∧ t.engines = s.engines ∧ t.frames = s.frames ∧ t.out = s.out

/-- R26, R412, R413, R185, R160, R161: the host's window. A write is pending, so that the published memory stays, and every byte of it is read
back by the host; with the version store full it asks for a boundary and waits. A read passes through L2 and returns
what the host itself has written in the phase, else the published bytes; one that meets lost data or unreadable metadata is answered with poison.
With the link down or under HITCH nothing happens. Which windows may be opened (log entry 57), the wait for a context that is being saved (79)
and the answer with poison (78) are the model's choices.
R27 to R30, R70, R164: snoops, extent offers, pool links, flash reads, key slots. A pool link that goes down leaves every frame of its port ABSENT
and poisons those that a failed request was writing, and no other frame; a flash read that fails poisons its frame. Where extents are mapped is the
control complex's own choice (log entry 55). -/
def Obligations.HostAndPoolPorts : Prop :=
  (∀ (s : State) (vf : BitVec 8) (addr : BitVec 48) (bytes : List Byte) (len a p : Nat) (base : BitVec 32) (n : BitVec 21) (home : Fin 64),
      (windowAddr s vf.toNat addr.toNat bytes.length = some a → partOfVf s vf.toNat = some p → s.hitch = false → s.hostLink = true →
        let l := hostStores s a bytes
        let fits := versionFits s p (l.map (·.addr))
        let fills := fillFor (hostVia vf.toNat) l (storeSectors l []) s
        let again : Instr := .cxlMemWrite vf addr bytes
        ((partOf s p).switching = .none → fits = true →
          (∀ u, fills = .ok u → ∃ t, exec again s = .next t ∧ t.hostMem = s.hostMem ∧ t.cores = s.cores
            ∧ (∀ b, plainAt s b → readB t.mem b = readB s.mem b)
            ∧ (∀ i : Nat, i < bytes.length → bytes[i]? = some (readAs t (· = .host) (a + i))))
          ∧ (∀ f, fills = .error f → exec again s = .next
              { s with urgent := s.urgent ++ (if f.cls = 5 then [.framePoison ⟨BitVec.ofNat 32 (f.info / 65536), .unread⟩] else []) }))
        ∧ ((partOf s p).switching = .none → fits = false → exec again s = .next
            (addTask (if (partOf s p).bndStarted then s else modPart s p (fun x => { x with bndReq := true })) again))
        ∧ ((partOf s p).switching ≠ .none → exec again s = .next (addTask s again)))
      ∧ (windowAddr s vf.toNat addr.toNat len = some a → s.hitch = false → s.hostLink = true →
        let reads := hostTouch vf.toNat (unionPos ((upTo len).map (fun i => (a + i) / 64)) []) s
        (∀ u, reads = .ok u → exec (.cxlMemRead vf addr len) s = .next
            { u with out := u.out ++ [.cxlData vf.toNat ((upTo len).map (fun i => readAs u (· = .host) (a + i)))] }
          ∧ u.out = s.out ∧ u.cores = s.cores ∧ (∀ b, plainAt s b → readB u.mem b = readB s.mem b))
        ∧ (∀ k u, reads = .error (k, u) → exec (.cxlMemRead vf addr len) s = .next
            { u with
              urgent := u.urgent ++ (if mdtFails u (k / 4) then [.framePoison ⟨BitVec.ofNat 32 (k / 1024), .unread⟩] else [])
              out := u.out ++ [.cxlPoison vf.toNat] }
          ∧ u.out = s.out ∧ u.cores = s.cores))
      ∧ (s.hostLink = false ∨ s.hitch = true → exec (.cxlMemWrite vf addr bytes) s = .next s ∧ exec (.cxlMemRead vf addr len) s = .next s)
      ∧ (windowOk s vf.toNat base.toNat n.toNat home = true →
        ∃ t, exec (.cxlMemWindowOpen vf base n home) s = .next t ∧ t.mem = s.mem ∧ t.cores = s.cores
          ∧ t.windows = s.windows ++ [{ vf := vf.toNat, base := base.toNat, frames := n.toNat, home := home }])
      ∧ (windowOk s vf.toNat base.toNat n.toNat home = false → exec (.cxlMemWindowOpen vf base n home) s = .next s)
      ∧ exec (.cxlMemWindowClose vf) s = .next { s with windows := s.windows.filter (fun w => w.vf ≠ vf.toNat) })
  ∧ (∀ (s : State) (line : BitVec 58) (port : Fin 2) (base len : DWord) (frame : BitVec 32) (ok : Bool) (vf : BitVec 8) (slot : Fin 4)
      (ed : BitVec 256) (ml : List Byte) (writing : List (BitVec 32)),
      exec (.cxlCacheSnoop line) s = .next { s with hostLines := s.hostLines.filter (fun x => x ≠ line) }
      ∧ (base.toNat % 65536 = 0 → len.toNat % 65536 = 0 → s.poolUp[port] = true → runFree s frame.toNat (len.toNat / 65536) = true →
        ∃ t, exec (.dcdExtentOffer port base len frame) s = .next t
          ∧ t.extents = s.extents ++ [(port.val, base.toNat, len.toNat, frame.toNat)] ∧ t.mem = s.mem ∧ t.cores = s.cores)
      ∧ (base.toNat % 65536 ≠ 0 ∨ len.toNat % 65536 ≠ 0 → exec (.dcdExtentOffer port base len frame) s = .next s)
      ∧ (∃ t, exec (.poolLinkDown port writing) s = .next t ∧ t.poolUp = s.poolUp.set port false ∧ t.mem = s.mem
          ∧ ∀ f : Nat, let d := tget Frame.reset s.frames f
            let on := fun (tier : BitVec 2) (loc : BitVec 48) => tier = 1 ∧ loc.toNat / 2 ^ 47 = port.val
            let here := d.v = true ∧ on d.tier d.loc
            let lost := (∃ w ∈ writing, w.toNat = f) ∧ d.v = true ∧ (on d.tier d.loc ∨ on (memPlace s f).1 (memPlace s f).2)
            (¬ here → ¬ lost → tget Frame.reset t.frames f = d)
            ∧ (here → ¬ lost → inTables s f = false → tget Frame.reset t.frames f = { d with state := if d.state = 0 then 2 else d.state })
            ∧ (here → lost → inTables s f = false → tget Frame.reset t.frames f = { d with state := if d.state = 0 then 2 else d.state, poison := true })
            ∧ (¬ here → lost → inTables s f = false → tget Frame.reset t.frames f = { d with poison := true })
            ∧ (lost → ∀ k : Nat, k < 1024 → 1024 * f + k ∈ t.lostMem))
      ∧ (s.fetching.contains frame.toNat = false → exec (.nvmeReadCompletion frame ok) s = .next s)
      ∧ (s.fetching.contains frame.toNat = true → inTables s frame.toNat = false →
        let d := tget Frame.reset s.frames frame.toNat
        let place := freeLocIn s (Config.freeLoc s.allocs) (placeCores s frame.toNat)
        (∀ l, place = some l → ∃ t, exec (.nvmeReadCompletion frame true) s = .next t ∧ t.fetching = s.fetching.filter (fun x => x ≠ frame.toNat)
          ∧ tget Frame.reset t.frames frame.toNat = { d with tier := 0, loc := BitVec.ofNat 48 l, state := 0 } ∧ t.mem = s.mem ∧ t.cores = s.cores)
        ∧ (place = none → ∃ q, exec (.nvmeReadCompletion frame true) s = .next (addTask (evictSome s q) (.nvmeReadCompletion frame true)))
        ∧ (d.v = true → ∃ t, exec (.nvmeReadCompletion frame false) s = .next t ∧ t.fetching = s.fetching.filter (fun x => x ≠ frame.toNat)
          ∧ tget Frame.reset t.frames frame.toNat = { d with poison := true } ∧ t.mem = s.mem))
      ∧ (∃ t, exec (.keySlotLoad vf slot ed ml) s = .next t ∧ (vfOf t vf.toNat).keys = (vfOf s vf.toNat).keys.set slot { loaded := true, ed := ed, ml := ml }
          ∧ t.mem = s.mem ∧ t.cores = s.cores ∧ t.parts = s.parts))

/-! ### Registers -/

/-- R52, R53, R55, R65, R66, R68, R79: registers of a command stream and of the event ring: WP, the four writes of SQ_CTL with their PRIO, which is
never below MINPRIO, and TAIL. A stream that a reset of its partition has left in HALT stays there when it is enabled, until SKIP or RESUME
with EN = 1. That SKIP or RESUME with EN = 0 disables the stream and lets nothing go on is the model's reading (log entry 82). -/
def Obligations.StreamRegisters : Prop :=
  ∀ (s : State) (vf : BitVec 8) (n : Fin 8) (val : DWord),
    let v := vf.toNat
    let q := streamOf s v n
    let prio := max (val.toNat / 64 % 4) (vfOf s v).minprio.toNat
    (∃ t, exec (.sqWpWrite vf n val) s = .next t
      ∧ (streamOf t v n).wp = val.toNat / 32 % 2 ^ 19 * 32 % 2 ^ q.log2 ∧ (streamOf t v n).rp = q.rp ∧ (streamOf t v n).en = q.en
      ∧ (q.en = true → q.state = .idle ∨ q.state = .run → ((streamOf t v n).state = .idle ↔ q.rp = (streamOf t v n).wp)))
    ∧ (∃ t, exec (.sqEnable vf n val) s = .next t
      ∧ (q.en = false → partOfVf s v ≠ none → (streamOf t v n).en = true ∧ (streamOf t v n).stage = 0
          ∧ (q.state ≠ .halt → ((streamOf t v n).state = .idle ↔ q.rp = q.wp)) ∧ (q.state = .halt → (streamOf t v n).state = .halt))
      ∧ (q.en = false → partOfVf s v = none → (streamOf t v n).en = false)
      ∧ (streamOf t v n).prio.toNat = prio)
    ∧ (∃ t, exec (.sqDisable vf n val) s = .next t ∧ (streamOf t v n).en = false ∧ (streamOf t v n).state = .off
      ∧ (streamOf t v n).prio.toNat = prio
      ∧ (q.state ≠ .halt → (streamOf t v n).rp = 0 ∧ (streamOf t v n).dnum = 0)
      ∧ (q.state = .halt → (streamOf t v n).rp = q.rp ∧ (streamOf t v n).dnum = q.dnum))
    ∧ (val.getLsbD 0 = true → q.en = true ∨ partOfVf s v ≠ none → q.state = .halt →
      let goes := fun (i : Instr) (rp : Nat) => ∃ t, exec i s = .next t ∧ (streamOf t v n).rp = rp % 2 ^ q.log2 ∧ (streamOf t v n).en = true
        ∧ ((streamOf t v n).state = .idle ↔ rp % 2 ^ q.log2 = q.wp) ∧ ((streamOf t v n).state = .run ↔ rp % 2 ^ q.log2 ≠ q.wp)
        ∧ (streamOf t v n).prio.toNat = prio
      goes (.sqSkip vf ⟨n, val⟩) (q.rp + 32) ∧ goes (.sqResume vf ⟨n, val⟩) q.rp)
    ∧ (val.getLsbD 0 = true → (q.en = true ∧ q.state ≠ .halt) ∨ (q.en = false ∧ partOfVf s v = none) →
      let stays := fun (i : Instr) => ∃ t, exec i s = .next t ∧ streamOf t v n = { q with prio := BitVec.ofNat 2 prio }
      stays (.sqSkip vf ⟨n, val⟩) ∧ stays (.sqResume vf ⟨n, val⟩))
    ∧ (val.getLsbD 0 = true → q.en = false → partOfVf s v ≠ none → q.state ≠ .halt →
      let runs := fun (i : Instr) => ∃ t, exec i s = .next t ∧ (streamOf t v n).en = true ∧ (streamOf t v n).rp = q.rp
        ∧ ((streamOf t v n).state = .idle ↔ q.rp = q.wp) ∧ (streamOf t v n).state ≠ .halt ∧ (streamOf t v n).prio.toNat = prio
      runs (.sqSkip vf ⟨n, val⟩) ∧ runs (.sqResume vf ⟨n, val⟩))
    ∧ (val.getLsbD 0 = false → exec (.sqSkip vf ⟨n, val⟩) s = exec (.sqDisable vf n val) s ∧ exec (.sqResume vf ⟨n, val⟩) s = exec (.sqDisable vf n val) s)
    ∧ (∃ t, exec (.evTailWrite vf val) s = .next t ∧ (vfOf t v).evTail = val.toNat % 2 ^ 24 ∧ (vfOf t v).evHead = (vfOf s v).evHead)

/-- R6, R18, R53, R54, R66, R69, R70, R76: writes to registers without behaviour of their own, to PACE_CTL, and to PART_CORES and PART_SLV of a partition
that is defined, which are ignored; of PART_CTL, field by field, ignored with V = 1 while the partition has no cores (the model's reading, log entry
51) and while its reset is pending (R79); reads of SQ_CTL, SQ_STAT and VF_INFO, of the first capability record, and of
an unlisted offset. The pommel allotment that a partition gets with its cores and where the capability records stand, with their VER, are the
model's choices (log entry 78), and that a write waits while a slice is saved or restored (79). -/
def Obligations.PlainRegisters : Prop :=
  ∀ (s : State) (vf : BitVec 8) (n : Fin 8) (val : DWord) (part : BitVec 6) (c : Fin 64),
    (∃ t, exec (.registerWrite (.evBase vf) val) s = .next t ∧ (vfOf t vf.toNat).evBase = val &&& ~~~(0xFFF : DWord) ∧ t.cores = s.cores)
    ∧ (∃ t, exec (.registerWrite (.evCtl vf) val) s = .next t ∧ (vfOf t vf.toNat).evEn = val.getLsbD 0 ∧ (vfOf t vf.toNat).evIrq = val.getLsbD 1)
    ∧ ((streamOf s vf.toNat n).en = true → (∃ t, exec (.registerWrite (.sqBase vf n) val) s = .next t ∧ streamOf t vf.toNat n = streamOf s vf.toNat n))
    ∧ exec (.registerWrite (.sqRp vf n) val) s = .next s ∧ exec (.registerWrite (.sqStat vf n) val) s = .next s
    ∧ exec (.registerWrite (.evHead vf) val) s = .next s
    ∧ (∃ t, exec (.registerWrite (.brken c) val) s = .next t ∧ (coreOf t c).brken = val.getLsbD 0 ∧ t.mem = s.mem)
    ∧ (∃ t, exec (.paceCtlWrite part val) s = .next t ∧ bitsN (partOf t part.toNat).paceNext 16 12 = val.toNat / 65536 % 4096
        ∧ (partOf t part.toNat).pace = (partOf s part.toNat).pace)
    ∧ ((partOf s part.toNat).v = true → exec (.partCtlWrite .cores part val) s = .next s ∧ exec (.partCtlWrite .slv part val) s = .next s)
    ∧ ((partOf s part.toNat).switching = .none → (partOf s part.toNat).v = false → resetPending s part.toNat = false → s.windows = [] → s.l2 = [] → s.vfs = [] →
        (∀ e ∈ s.parts, e.1 ≠ part.toNat → e.2.cores &&& val = 0) → s.parts.all (fun e => !e.2.v) = true →
        let x := { partOf s part.toNat with cores := val }
        exec (.partCtlWrite .cores part val) s = .next (putPart s part.toNat { x with pomAllot := x.allotment }))
    -- PART_CTL
    ∧ (let p := part.toNat
       let x := partOf s p
       let w : Instr := .partCtlWrite .ctl part val
       (x.switching = .none → resetPending s p = false → s.windows = [] → (∀ e ∈ s.parts, e.1 ≠ p → e.2.v = false ∧ e.2.cores &&& x.cores = 0) →
          (val.getLsbD 63 = true → x.coreList ≠ []) →
          ∃ t, exec w s = .next t ∧ t.cores = s.cores ∧ t.mem = s.mem ∧ t.hide = s.hide
            ∧ (let y := partOf t p
               y.v = val.getLsbD 63 ∧ y.l2sh = val.getLsbD 56 ∧ y.slice = val.toNat / 2 ^ 40 % 2 ^ 16 ∧ y.graceLimit = val.toNat / 2 ^ 24 % 2 ^ 16
               ∧ y.nslv = min (val.toNat / 2 ^ 9 % 16) 8 ∧ y.bound = val.getLsbD 8 ∧ y.vf = val.toNat % 256
               ∧ y.ctl.toNat / 2 ^ 57 % 64 = 0 ∧ y.ctl.toNat / 2 ^ 13 % 2048 = 0 ∧ y.cores = x.cores ∧ y.slv = x.slv))
       ∧ (val.getLsbD 63 = true → x.coreList = [] → exec w s = .next s)
       ∧ (x.switching = .none → resetPending s p = true → exec w s = .next s)
       ∧ (x.switching ≠ .none → val.getLsbD 63 = false ∨ x.coreList ≠ [] → exec w s = .next (addTask s w)))
    ∧ exec (.registerWrite (.vfInfoOwn vf) val) s = .next s
    ∧ (let q := streamOf s vf.toNat n
       let ctl := (barRead s vf.toNat (0x40 * n.val + 0x20)).toNat
       let stat := (barRead s vf.toNat (0x40 * n.val + 0x28)).toNat
       ctl % 2 = (if q.en then 1 else 0) ∧ ctl / 64 = q.prio.toNat
       ∧ stat / 2 ^ 32 = q.dnum.toNat ∧ stat / 2 ^ 8 % 2 ^ 24 = q.reason.toNat ∧ (stat % 2 ^ 8 = 4 ↔ q.state = .halt))
    ∧ (let info := (barRead s vf.toNat 0x2000).toNat
       info / 2 ^ 32 = (vfOf s vf.toNat).qceil.toNat ∧ info / 2 ^ 30 % 4 = (vfOf s vf.toNat).minprio.toNat
       ∧ (partOfVf s vf.toNat = none → info % 2 ^ 30 = 0) ∧ (∀ p, partOfVf s vf.toNat = some p → info % 2 ^ 30 = 64 + p % 64))
    ∧ barRead s vf.toNat 0x8000 = (if s.status = 1 then 0x8010001000010001 else 0x0000001000010001)
    ∧ barRead s vf.toNat 0x8008 = Config.partCode ++ s.status.zeroExtend 32
    ∧ (∀ off : Nat, 0x200 ≤ off → off < 0x1000 → barRead s vf.toNat off = 0)

/-- R88: a write of EN = 1 with a probe and a window in range clears the results and starts the window, another sets ERR; at the end of the
window DONE is set, EN cleared, and the results stay. That a start which is refused keeps the earlier results is the model's reading (log entry 84).
R72, R65: GO writes the signed report to host memory, marks the unit busy and posts the FENCE event with TAG 0xFFFF; a function-level
reset disables every stream, clears the ring and returns the VF's registers to their reset values, KV_CFG among them, and keeps the keys and the
share domains, which the control complex has loaded, and which demands came from each stream (R58): what it returns and what it keeps is the model's
reading (log entry 53). The signatures are
uninterpreted. -/
def Obligations.CapturesAttestationReset : Prop :=
  (∀ (s : State) (die : Fin 4) (unit : Fin 32) (val : DWord),
      let k := die.val * 32 + unit.val
      let probe := val.toNat / 2 ^ 46 % 2 ^ 8
      let wlog := val.toNat / 2 ^ 40 % 2 ^ 6
      (1 ≤ probe → probe ≤ 9 → 10 ≤ wlog → wlog ≤ 40 →
        ∃ t, exec (.captureWindowStart die unit val) s = .next t
          ∧ (let c := tget Cap.reset t.caps k
             c.ctl.getLsbD 63 = true ∧ c.ctl.getLsbD 61 = false ∧ c.cnt = 0 ∧ c.max = 0 ∧ c.min = 0xFFFFFFFFFFFFFFFF ∧ c.left = 2 ^ wlog
             ∧ c.hist = Vector.replicate 32 0))
      ∧ (probe = 0 ∨ 10 ≤ probe ∨ wlog < 10 ∨ 40 < wlog →
        ∃ t, exec (.captureWindowStart die unit val) s = .next t
          ∧ (tget Cap.reset t.caps k).ctl.getLsbD 61 = true ∧ (tget Cap.reset t.caps k).ctl.getLsbD 63 = false
          ∧ (tget Cap.reset t.caps k).cnt = (tget Cap.reset s.caps k).cnt)
      ∧ ((tget Cap.reset s.caps k).ctl.getLsbD 63 = true →
        ∃ t, exec (.captureWindowEnd die unit) s = .next t
          ∧ (tget Cap.reset t.caps k).ctl.getLsbD 62 = true ∧ (tget Cap.reset t.caps k).ctl.getLsbD 63 = false
          ∧ (tget Cap.reset t.caps k).hist = (tget Cap.reset s.caps k).hist))
  ∧ (∀ (s : State) (vf : BitVec 8) (n : Fin 8),
      let v := vf.toNat
      (s.status = 1 → (vfOf s v).attBusy = false →
        ∃ t, exec (.attestGo vf) s = .next t ∧ (vfOf t v).attBusy = true ∧ t.mem = s.mem ∧ t.cores = s.cores
          ∧ (∃ e, (vfOf t v).evWait = (vfOf s v).evWait ++ [e] ∧ e.type = 0x01 ∧ e.tag = 0xFFFF ∧ e.att = true)
          ∧ (∃ l, l.length = 144 + 64 + 3309 ∧ t.hostMem = writeBytes s.hostMem (vfOf s v).reportAddr.toNat l))
      ∧ ((vfOf s v).attBusy = true → exec (.attestGo vf) s = .next s)
      ∧ (∃ t, exec (.functionLevelReset vf) s = .next t
          ∧ streamOf t v n = { Stream.reset with lastDemand := (streamOf s v n).lastDemand, sent := (streamOf s v n).sent } ∧ (vfOf t v).evHead = 0 ∧ (vfOf t v).evEn = false
          ∧ (vfOf t v).qceil = 0 ∧ (vfOf t v).minprio = 3 ∧ (vfOf t v).kvCfg = 0
          ∧ (vfOf t v).keys = (vfOf s v).keys ∧ (vfOf t v).sdoms = (vfOf s v).sdoms))

/-! ### Packets and events -/

/-- R55, R57, R65, R68: a packet that completes moves RP to the next one, modulo the ring, and the front end is IDLE exactly when it has
reached WP; a rejected packet halts its stream at the packet with a REJECT event that names it and its reason: at once when the event can be
written at once, else the front end waits at the packet until it has been written.
R61, R63, R65, R68: a timeout on a stream that waits at its packet halts it with a TIMEOUT event that names the packet, as soon as that event can
be written. -/
def Obligations.PacketsEndOrHalt : Prop :=
  (∀ (s : State) (reason : Nat) (tag : BitVec 16),
      let q := streamOf s s.cur.vf s.cur.stream
      let d := streamOf (finishPacket s) s.cur.vf s.cur.stream
      let r := streamOf (rejectPacket reason tag s) s.cur.vf s.cur.stream
      let h := streamOf (haltWritten s) s.cur.vf s.cur.stream
      let v := vfOf (rejectPacket reason tag s) s.cur.vf
      d.rp = (q.rp + 32) % 2 ^ q.log2 ∧ (d.state = .idle ↔ d.rp = q.wp) ∧ (d.state = .run ↔ d.rp ≠ q.wp) ∧ d.wp = q.wp ∧ d.dnum = q.dnum ∧ d.stage = 0
      ∧ (ringFree (vfOf s s.cur.vf) = true → r.state = .halt) ∧ (ringFree (vfOf s s.cur.vf) = false → r.state = .wait ∧ r.stage = 4)
      ∧ (haltEventWaits (vfOf s s.cur.vf) s.cur.stream = false → h.state = .halt)
      ∧ (haltEventWaits (vfOf s s.cur.vf) s.cur.stream = true → h.state = .wait ∧ h.stage = q.stage) ∧ h.rp = q.rp
      ∧ r.rp = q.rp ∧ r.reason = BitVec.ofNat 8 reason
      ∧ v.evWait = (vfOf s s.cur.vf).evWait ++
          [{ code := BitVec.ofNat 32 reason, tag := tag, stream := BitVec.ofNat 3 s.cur.stream.val, type := 0x03, w1 := BitVec.ofNat 64 q.rp, w2 := 0
             w3 := 0, irq := true }])
  ∧ (∀ (s : State) (vf : BitVec 8) (n : Fin 8) (tag t : BitVec 16) (c : WCond) (off : BitVec 24) (val : DWord) (bc : Cond) (eat : Bool) (v m disp : Word),
      let q := streamOf s vf.toNat n
      let ends := fun (op : Word) (o : Host.Outcome State Fault Refusal) => ∃ u, o = .next u
        ∧ (ringFree (vfOf s vf.toNat) = true → (streamOf u vf.toNat n).state = .halt)
        ∧ (ringFree (vfOf s vf.toNat) = false → (streamOf u vf.toNat n).state = .wait ∧ (streamOf u vf.toNat n).stage = 4)
        ∧ (streamOf u vf.toNat n).rp = q.rp
        ∧ (∃ e, (vfOf u vf.toNat).evWait = (vfOf s vf.toNat).evWait ++ [e] ∧ e.type = 0x05 ∧ e.tag = tag ∧ e.code = op ∧ e.w1 = BitVec.ofNat 64 q.rp)
      q.en = true → q.state = .wait → q.stage < 4 → t ≠ 0 →
      (packetAt s vf.toNat n = .ok (.waits tag c t off val) → ends 0x03 (exec (.waitsTimeout vf n) s))
      ∧ (packetAt s vf.toNat n = .ok (.branch tag bc eat t off v m disp) → ends 0x06 (exec (.branchTimeout vf n) s)))

/-- R58, R61, R63, R64: NOP, WAITS, SIGNAL under every WHEN, BRANCH back and forward, CANCEL and QUOTA of a VF that runs on a partition. That a
cancel of a phase or a job names only demands accepted before it is the model's reading (log entry 44), the class in which a packet asks the bank
of its hide word its choice (28), and what CONSUME does to a word that signals may not write (89). -/
def Obligations.SimplePackets : Prop :=
  ∀ (s : State) (p : Nat) (tag tmo : BitVec 16) (off : BitVec 24) (value : DWord) (op : SemOp) (cnd : WCond) (bc : Cond) (eat : Bool)
    (v m disp : Word) (slot : BitVec 6) (st : Fin 8) (dnum : Word) (add : Bool),
    runningPart s s.cur.vf = some p →
    let x := partOf s p
    let w := hideRead s p off.toNat
    let q := streamOf s s.cur.vf s.cur.stream
    exec (.nop tag) s = .next (finishPacket s)
    -- WAITS
    ∧ (off.toNat < x.hideSize →
        let holds := match cnd with
          | .ge => !w.ult value
          | .eq => decide (w = value)
          | .ne => decide (w ≠ value)
        exec (.waits tag cnd tmo off value) s = .next (if holds then finishPacket (frontAsk s p off.toNat) else waitPacket s))
    -- SIGNAL at once, once every live demand of the stream has triggered, once none is live, and at the boundary after that
    ∧ (off.toNat < x.hideSize → hideProtected s p off.toNat = false →
        let sent := finishPacket (hideWrite (frontAsk s p off.toNat) p off.toNat (hopApply (.sem op value) w))
        (q.stage < 2 →
          exec (.signal tag op 0 off value) s = .next sent
          ∧ exec (.signal tag op 1 off value) s = .next (if (streamLive s p).all (·.trig) then sent else waitPacket s)
          ∧ exec (.signal tag op 2 off value) s = .next (if (streamLive s p).isEmpty then sent else waitPacket s))
        ∧ (q.stage = 0 → exec (.signal tag op 3 off value) s = .next (if (streamLive s p).isEmpty then toBoundary s p 1 else waitPacket s))
        ∧ (q.stage = 1 → exec (.signal tag op 3 off value) s = .next (if q.target ≤ x.phn.toNat then sent else pollBoundary s p)))
    -- BRANCH
    ∧ (off.toNat < x.hideSize → disp ≠ 0 → bc = .always ∨ w.getLsbD 63 = true →
        let taken := bc = .always ∨ condHolds bc (w.extractLsb' 0 32 &&& m) (v &&& m) = true
        let s' := if bc = .always then s else frontAsk s p off.toNat
        let t := if eat = true ∧ bc ≠ .always then hideWrite s' p off.toNat (w &&& 0x7FFFFFFFFFFFFFFF) else s'
        let ring := 2 ^ q.log2
        let target := (((q.rp : Int) + 32 * disp.toInt) % (ring : Int)).toNat
        let ahead := 0 < (target + ring - q.rp) % ring ∧ (target + ring - q.rp) % ring < (q.wp + ring - q.rp) % ring
        (taken → disp.toInt < 0 ∨ ahead → exec (.branch tag bc eat tmo off v m disp) s = .next (packetDone (modStream t s.cur.vf s.cur.stream (fun q => q.goTo target))))
        ∧ (taken → 0 < disp.toInt → ¬ ahead → exec (.branch tag bc eat tmo off v m disp) s = .next (rejectPacket 5 tag s'))
        ∧ (¬ taken → exec (.branch tag bc eat tmo off v m disp) s = .next (finishPacket t)))
    ∧ (off.toNat < x.hideSize → disp ≠ 0 → bc ≠ .always → w.getLsbD 63 = false → exec (.branch tag bc eat tmo off v m disp) s = .next (waitPacket s))
    -- CANCEL
    ∧ exec (.cancel tag .graph slot st dnum) s = .next (finishPacket (postCancel s p (.graph slot.toNat)))
    ∧ exec (.cancel tag .job slot st dnum) s = .next (finishPacket (postCancel s p (.job s.cur.vf st.val x.nextAcc)))
    ∧ exec (.cancel tag .phase slot st dnum) s = .next (finishPacket (postCancel s p (.phase x.phn.toNat x.nextAcc)))
    ∧ (demandNamed x s.cur.vf st.val dnum = none → exec (.cancel tag .demand slot st dnum) s = .next (finishPacket s))
    -- QUOTA
    ∧ (let n : Int := if add then (x.quota : Int) + v.toInt else v.toNat
       (0 ≤ n → n ≤ (vfOf s s.cur.vf).qceil.toNat →
          exec (.quota tag add v) s = .next (finishPacket (releaseQuota (modPart (frontAsk s p x.kvBase.toNat) p (fun x => { x with quota := n.toNat })) p)))
       ∧ (n < 0 ∨ ((vfOf s s.cur.vf).qceil.toNat : Int) < n → exec (.quota tag add v) s = .next (rejectPacket 6 tag s)))

/-- R60, R94, R95, R115: DEMAND with a stride, a sink of a loaded graph and a free record is accepted in that record under the stream's next
DNUM, with the stream's class; else it is rejected, or waits for its record. -/
def Obligations.DemandPacket : Prop :=
  ∀ (s : State) (p : Nat) (tag : BitVec 16) (slot sink : BitVec 6) (dep : BitVec 2) (rel : Bool) (a b : BitVec 48) (stride : Word) (g : Graph),
    runningPart s s.cur.vf = some p →
    let x := partOf s p
    let q := streamOf s s.cur.vf s.cur.stream
    let k := 128 * s.cur.stream.val + q.dnum.toNat % 128
    (dep ≠ 3 → stride ≠ 0 → graphOf s p slot.toNat = some g → sink.toNat < g.sinks.length →
      ((∀ d, tfind x.demands k = some d → d.live = false) →
        let ask : Ask := { slot := slot.toNat, sink := sink.toNat, rel := rel, a := a.toNat, b := b.toNat, stride := stride.toNat
                           prio := q.prio, vf := s.cur.vf, stream := s.cur.stream.val, dnum := q.dnum, dep := dep, prev := q.lastDemand }
        let live := (streamLive s p).map (·.acc)
        let s' := acceptDemand s p k ask
        let s'' := modStream s' s'.cur.vf s'.cur.stream (fun q => { q with dnum := q.dnum + 1, lastDemand := some x.nextAcc, sent := live ++ [x.nextAcc] })
        exec (.demand tag slot sink dep rel a b stride) s = .next (finishPacket s''))
      ∧ ((∃ d, tfind x.demands k = some d ∧ d.live = true) → exec (.demand tag slot sink dep rel a b stride) s = .next (waitPacket s)))
    ∧ (dep = 3 → exec (.demand tag slot sink dep rel a b stride) s = .next (rejectPacket 1 tag s))
    ∧ (dep ≠ 3 → stride = 0 → exec (.demand tag slot sink dep rel a b stride) s = .next (rejectPacket 3 tag s))
    ∧ (dep ≠ 3 → graphOf s p slot.toNat = none → exec (.demand tag slot sink dep rel a b stride) s = .next (rejectPacket 3 tag s))
    ∧ (dep ≠ 3 → graphOf s p slot.toNat = some g → g.sinks.length ≤ sink.toNat →
        exec (.demand tag slot sink dep rel a b stride) s = .next (rejectPacket 3 tag s))

/-- R58, R59, R62, R183: PHASE, FENCEH and LOADG ask for a phase boundary and wait for the first one that begins then; PHASE, which first waits for
its WHEN, completes after it (with WHEN = 3 after two: the model's reading, log entry 47), FENCEH
and TIMESTAMP complete once their event has been written; LOADG is accepted when its image passes the checks and no frame of its record areas
is moving (the wait for such a move, and that the image is read whatever the STATE of its frames, is log entry 83), else it is refused and
the stream halts; with LENGTH 0 it empties its slot once the graph is idle and its commands are done (the model's reading, log entry 52). -/
def Obligations.PhasePackets : Prop :=
  ∀ (s : State) (p : Nat) (tag : BitVec 16) (irq : Bool) (slot origin : BitVec 6) (image : BitVec 48) (length : Word),
    runningPart s s.cur.vf = some p →
    let x := partOf s p
    let q := streamOf s s.cur.vf s.cur.stream
    let bytes := readBytes s.mem image.toNat length.toNat
    let img := parseImg (bytes.take (bytes.length - 3392))
    (q.stage < 2 → exec (.phase tag 0) s = .next (toBoundary s p 2)
      ∧ exec (.phase tag 1) s = .next (if (streamLive s p).all (·.trig) then toBoundary s p 2 else waitPacket s)
      ∧ exec (.phase tag 2) s = .next (if (streamLive s p).isEmpty then toBoundary s p 2 else waitPacket s))
    ∧ (q.stage = 0 → exec (.phase tag 3) s = .next (if (streamLive s p).isEmpty then toBoundary s p 1 else waitPacket s))
    ∧ (q.stage = 1 → exec (.phase tag 3) s = .next (if q.target ≤ x.phn.toNat then toBoundary s p 2 else pollBoundary s p))
    ∧ (q.stage = 2 → q.target ≤ x.phn.toNat → ∀ wh, exec (.phase tag wh) s = .next (finishPacket s))
    ∧ (q.stage = 2 → x.phn.toNat < q.target → ∀ wh, exec (.phase tag wh) s = .next (pollBoundary s p))
    ∧ (q.stage = 3 → (∀ e ∈ (vfOf s s.cur.vf).evWait, ¬ (e.type = 0x02 ∧ e.stream.toNat = s.cur.stream.val)) → ∀ wh,
        exec (.timestamp tag wh) s = .next (finishPacket s))
    ∧ (q.stage = 0 → ∃ t, exec (.timestamp tag 0) s = .next t ∧ (streamOf t s.cur.vf s.cur.stream).state = .wait ∧ s.fc ≤ t.fc
        ∧ (∃ e, (vfOf t s.cur.vf).evWait = (vfOf s s.cur.vf).evWait ++ [e] ∧ e.type = 0x02 ∧ e.tag = tag ∧ e.w1 = BitVec.ofNat 64 t.fc))
    ∧ (q.stage = 0 → (streamLive s p).isEmpty = true → exec (.fenceh tag irq) s = .next (toBoundary s p 1))
    ∧ (q.stage = 3 → (∀ e ∈ (vfOf s s.cur.vf).evWait, ¬ (e.type = 0x01 ∧ e.stream.toNat = s.cur.stream.val ∧ e.att = false)) →
        exec (.fenceh tag irq) s = .next (finishPacket s))
    ∧ (q.stage = 0 → length ≠ 0 → image.toNat % 65536 = 0 → imageOwned s s.cur.vf image.toNat length.toNat = true → slotBusy s p slot.toNat = false →
        (∀ c, acceptImage s p s.cur.vf slot.toNat origin.toNat bytes = .ok c → exec (.loadg tag slot origin image length) s = .next
          (if recMoves s img then waitPacket s else acceptLoad s p slot.toNat origin.toNat image.toNat bytes img))
        ∧ (∀ e, acceptImage s p s.cur.vf slot.toNat origin.toNat bytes = .error e →
          exec (.loadg tag slot origin image length) s = .next (refuseLoad s tag image.toNat e)))
    ∧ (q.stage = 0 → length ≠ 0 → image.toNat % 65536 ≠ 0 → exec (.loadg tag slot origin image length) s = .next (rejectPacket 4 tag s))
    ∧ (q.stage = 1 → (∀ l ∈ x.loading, l.stream ≠ s.cur.stream.val) → exec (.loadg tag slot origin image length) s = .next (finishPacket s))
    ∧ (q.stage = 1 → (∃ l ∈ x.loading, l.stream = s.cur.stream.val) → exec (.loadg tag slot origin image length) s = .next (pollBoundary s p))
    ∧ (q.stage = 0 →
        let idle := (∀ g, graphOf s p slot.toNat = some g → g.run = .idle) ∧ ∀ r ∈ s.engines, ¬ (r.part = p ∧ r.slot = slot.toNat)
        let gone := emptySlot { s with stir := s.stir.filter (fun e => e.2.owner ≠ some (p, slot.toNat)) } p slot.toNat
        (slotBusy s p slot.toNat = true → exec (.loadg tag slot origin image 0) s = .next (waitPacket s))
        ∧ (slotBusy s p slot.toNat = false → ¬ idle → exec (.loadg tag slot origin image 0) s = .next (waitPacket s))
        ∧ (slotBusy s p slot.toNat = false → idle → exec (.loadg tag slot origin image 0) s = .next (finishPacket gone)
          ∧ graphOf gone p slot.toNat = none ∧ gone.mem = s.mem ∧ (partOf gone p).loads = x.loads))

/-- R66, R67, R68, R72, R81: the oldest waiting event is written at HEAD with the ring's phase bit when the ring has room, and for a VF that is suspended only
what waited when it was suspended; HEAD moves on, the phase bit turns
with the ring, and an MSI-X message follows where both the ring and the event ask for one. The event of an attestation frees its unit. -/
def Obligations.EventIsWritten : Prop :=
  ∀ (s : State) (vf : BitVec 8) (e : Event) (rest : List Event),
    let v := vfOf s vf.toNat
    let head := (v.evHead + 32) % 2 ^ v.evLog2
    v.evWait = e :: rest → s.hitch = false →
    (v.evEn = true → head ≠ v.evTail → suspended s vf.toNat = false ∨ v.evLeft ≠ 0 →
      ∃ t, exec (.eventWrite vf) s = .next t ∧ (vfOf t vf.toNat).evWait = rest ∧ (vfOf t vf.toNat).evHead = head
        ∧ (vfOf t vf.toNat).evPh = (if head = 0 then !v.evPh else v.evPh) ∧ t.mem = s.mem ∧ t.cores = s.cores
        ∧ (vfOf t vf.toNat).attBusy = (v.attBusy && !e.att) ∧ (vfOf t vf.toNat).evLeft = v.evLeft - 1
        ∧ t.out = s.out ++ (if v.evIrq = true ∧ e.irq = true then [.msix vf.toNat] else [])
        ∧ (let w0 := read64 t.hostMem (v.evBase.toNat + v.evHead)
           w0.extractLsb' 0 8 = e.type ∧ w0.getLsbD 8 = v.evPh ∧ w0.extractLsb' 9 3 = e.stream ∧ w0.extractLsb' 16 16 = e.tag ∧ w0.extractLsb' 32 32 = e.code)
        ∧ read64 t.hostMem (v.evBase.toNat + v.evHead + 8) = e.w1 ∧ read64 t.hostMem (v.evBase.toNat + v.evHead + 16) = e.w2
        ∧ read64 t.hostMem (v.evBase.toNat + v.evHead + 24) = e.w3)
    ∧ (v.evEn = false ∨ head = v.evTail ∨ (suspended s vf.toNat = true ∧ v.evLeft = 0) → exec (.eventWrite vf) s = .next s)

/-! ### Memory control -/

/-- R135, R155, R157, R160, R161, R180, R190: a poisoned frame keeps everything but its poison bit, and what was lost of it is marked, in memory or in the
line that holds it dirty; a clean sector of L2 is only fetched again; lost metadata is noted, to surface at the next access that needs
it. A re-latch token follows the change that it is issued for (a tile-table entry, whose old frame it names, an owner or a share
domain) and passes at once the nodes of cores on which no graph has a round in flight, so that no latch there names its frames any more. That
an entry is published at once, and waits while its sector has pending contents, is the model's reading (log entry 56).
R124, R145, R157, R163, R164, R165: the first step of a fetch, a move, an eviction and a reclaim. A flash frame that is ABSENT is read; a move or an eviction
of a resident frame notes the pair with the source, sets MOVING with the destination and issues a token; a reclaim issues a
token; each comes back as a task of the device. Where the pseudo-channels of a core lie in the location numbers is the model's choice (log
entry 76). -/
def Obligations.FrameControl : Prop :=
  (∀ (s : State) (frame : BitVec 32) (f : Nat) (all : Bool) (count : BitVec 17) (c : Fin 64) (i : Fin 16) (l : Latch) (n : BitVec 8)
      (k : BitVec 10) (a : BitVec 48) (w : DWord) (o : BitVec 9) (dom : BitVec 10),
      let b := frame.toNat
      let d := tget Frame.reset s.frames b
      let inRun := b ≤ f ∧ f < b + count.toNat
      let sector := 1024 * b + k.toNat
      let m : BitVec 4 := BitVec.ofNat 4 (2 ^ (sector % 4))
      let poisons := fun (i : Instr) (holds : State → Prop) => ∃ t, exec i s = .next t ∧ tget Frame.reset t.frames b = { d with poison := true }
        ∧ t.mem = s.mem ∧ (f ≠ b → tget Frame.reset t.frames f = tget Frame.reset s.frames f) ∧ holds t
      let quiet := ∀ p slot g, (coreOf s c).owner = some (p, slot) → graphOf s p slot = some g →
        g.run ≠ .round ∧ g.run ≠ .ended ∧ g.run ≠ .heldCommit
      let token := fun (change : Narrowing) (first run : Nat) (holds : State → Prop) =>
        ∃ t, exec (.relatchToken all frame ⟨count, change⟩) s = .next t ∧ holds t
          ∧ (quiet → ((coreOf t c).ports[i]).latch = some l → all = false ∧ ¬ (first ≤ l.frame.toNat ∧ l.frame.toNat < first + run))
      (d.v = true → inTables s b = false →
        poisons (.framePoison ⟨frame, .contents⟩) (fun t => (∀ x ∈ s.lostMem, x ∈ t.lostMem) ∧ ∀ x : Nat, x < 1024 → 1024 * b + x ∈ t.lostMem)
        ∧ poisons (.framePoison ⟨frame, .memory k⟩) (fun t => (∀ x ∈ s.lostMem, x ∈ t.lostMem) ∧ sector ∈ t.lostMem)
        ∧ poisons (.framePoison ⟨frame, .unread⟩) (fun t => t.lostMem = s.lostMem)
        ∧ (∀ q, tfind s.l2 (sector / 4) = some q → q.valid &&& m ≠ 0 → q.dirty &&& m ≠ 0 →
            poisons (.framePoison ⟨frame, .sector k⟩) (fun t => tfind t.l2 (sector / 4) = some { q with lost := q.lost ||| m })))
      ∧ (d.v = true → ∀ q, tfind s.l2 (sector / 4) = some q → q.valid &&& m ≠ 0 → q.dirty &&& m = 0 →
          exec (.framePoison ⟨frame, .sector k⟩) s = .next { s with l2 := tput s.l2 (sector / 4) { q with valid := q.valid &&& ~~~m } })
      ∧ (d.v = false → exec (.framePoison ⟨frame, .contents⟩) s = .next s)
      ∧ (d.v = true → ∃ t, exec (.framePoison ⟨frame, .metadata n⟩) s = .next t ∧ 256 * b + n.toNat ∈ t.mdtBad ∧ (∀ x ∈ s.mdtBad, x ∈ t.mdtBad)
          ∧ t = { s with mdtBad := t.mdtBad })
      ∧ (all = true ∨ (1 ≤ count.toNat ∧ count.toNat ≤ 65536) →
        token .none b count.toNat (fun t => t.mem = s.mem ∧ t.frames = s.frames)
        ∧ (tfind s.pend (a.toNat / 64) = none →
            let old := read64 s.mem (a.toNat / 8 * 8)
            token (.ttEntry a w) (if old.getLsbD 63 then (old.extractLsb' 16 32).toNat else b) (if old.getLsbD 63 then 1 else count.toNat)
              (fun t => t.mem = write64 s.mem (a.toNat / 8 * 8) w ∧ t.frames = s.frames))
        ∧ ((tfind s.pend (a.toNat / 64)).isSome = true →
            exec (.relatchToken all frame ⟨count, .ttEntry a w⟩) s = .next (addTask s (.relatchToken all frame ⟨count, .ttEntry a w⟩)))
        ∧ token (.owner o) b count.toNat (fun t => t.mem = s.mem
            ∧ (inRun → inTables s f = false → tget Frame.reset t.frames f = { tget Frame.reset s.frames f with owner := o.toNat })
            ∧ (¬ inRun → tget Frame.reset t.frames f = tget Frame.reset s.frames f))
        ∧ token (.sdom dom) b count.toNat (fun t => t.mem = s.mem
            ∧ (inRun → inTables s f = false → tget Frame.reset t.frames f = { tget Frame.reset s.frames f with sdom := dom })
            ∧ (¬ inRun → tget Frame.reset t.frames f = tget Frame.reset s.frames f)))
      ∧ (all = false → count.toNat = 0 ∨ 65536 < count.toNat → exec (.relatchToken all frame ⟨count, .none⟩) s = .next s))
  ∧ (∀ (s : State) (frame : BitVec 32) (tier : BitVec 2) (loc : BitVec 48),
      let f := frame.toNat
      let d := rawFrame s f
      let pairs : List Fwd := s.fwd ++ [{ frame := BitVec.ofNat 32 f, tier := d.tier, loc := d.loc, waits := none }]
      ((frameDesc s f).v = true → d.state = 2 → d.tier = 2 → s.fetching.contains f = false →
        exec (.frameFetch frame) s = .next { s with fetching := s.fetching ++ [f] })
      ∧ ((frameDesc s f).v = true → d.state = 0 → d.owner < 256 → pairOf s f = none → s.fwd.length < 8 → inRecords s f = false →
        (tier.toNat < 2 → inWindow s f = false ∨ tier = 0 → placeOk s f tier loc = true →
          ∃ t, exec (.frameMove frame tier loc) s = .next t ∧ t.fwd = pairs ∧ t.tasks = s.tasks ++ [.frameMove frame tier loc] ∧ t.mem = s.mem
            ∧ rawFrame t f = { d with state := 1, tier := tier, loc := loc })
        ∧ (inWindow s f = false → placeOk s f 2 loc = true →
          ∃ t, exec (.frameEvict frame loc) s = .next t ∧ t.fwd = pairs ∧ t.tasks = s.tasks ++ [.frameEvict frame loc] ∧ t.mem = s.mem
            ∧ rawFrame t f = { d with state := 1, tier := 2, loc := loc }))
      -- a frame of a record area, of the control complex, or bound for a place that is taken or may not hold it stays where it is
      ∧ (pairOf s f = none → inRecords s f = true ∨ 256 ≤ d.owner ∨ placeOk s f tier loc = false → exec (.frameMove frame tier loc) s = .next s)
      ∧ (pairOf s f = none → inRecords s f = true ∨ 256 ≤ d.owner ∨ loc.toNat / 2 ^ 32 % 256 = 0 → exec (.frameEvict frame loc) s = .next s)
      ∧ ((tget Frame.reset s.frames f).v = true → reclaimOf s f = none →
        (∃ t, exec (.frameReclaim frame) s = .next t ∧ t.reclaim = s.reclaim ++ [{ frame := f, waits := none }]
          ∧ t.tasks = s.tasks ++ [.frameReclaim frame] ∧ t.mem = s.mem ∧ t.frames = s.frames)
        ∧ (countOf s f = 0 →
          ∃ t, exec (.pageSetReclaim frame) s = .next t ∧ t.tasks = s.tasks ++ [.pageSetReclaim frame] ∧ t.mem = s.mem ∧ t.frames = s.frames
            ∧ t.reclaim = s.reclaim ++ (upFrom (setLen s f) f).map (fun f => { frame := f, waits := none }))))

/-- R150 to R154, R159, R171: a change of the compression attribute first clears V of the table entry, and at its end sets the attribute and V; a
translation of an access that a tensor port still makes in the round under way, with the reads of the tables that it makes through L2, latches
the frame when it meets no fault, and leaves all as it is when it does: the fault is that of the step which makes the access. It translates for no
other access; a write through a skiver that converts takes elements of the skiver's source format (R211). A sequence that can be swapped in
lets the rounds that wait for it replay. That a slow translation, or slow memory behind a port of KV page sets or a gather, leaves the buffer of the
port not ready, and that a translation ahead of its step raises nothing, is the model's choice (log entry 31), and that the table entry is published at once and that no bytes but its own are rewritten
its readings (56 and 27). -/
def Obligations.AttributeTranslationSwap : Prop :=
  ∀ (s : State) (frame : BitVec 32) (attr : BitVec 2) (a : BitVec 48) (core : Fin 64) (port : Fin 16) (co : List Int)
    (p slot : Nat) (g : Graph) (r : StreamRec) (ten : Tensor) (part : BitVec 6) (seq : BitVec 12) (s' : State) (write slow : Bool),
    let f := frame.toNat
    let w := read64 s.mem a.toNat
    (attr.toNat < 2 → (frameDesc s f).v = true → w.toNat / 2 ^ 16 % 2 ^ 32 = f →
      (tfind s.pend (a.toNat / 64) = none → w.getLsbD 63 = true → (tget Frame.reset s.frames f).cattr ≠ attr →
        ∃ t, exec (.cattrChange frame attr a) s = .next t ∧ t.mem = write64 s.mem a.toNat (w &&& 0x7FFFFFFFFFFFFFFF) ∧ t.frames = s.frames
          ∧ t.tasks = s.tasks ++ [.cattrChange frame attr a])
      ∧ (tfind s.pend (a.toNat / 64) = none → w.getLsbD 63 = false → tokenOut s f = false → runPending s f 1 = false →
        ∃ t, exec (.cattrChange frame attr a) s = .next t ∧ t.mem = write64 s.mem a.toNat (w ||| 0x8000000000000000)
          ∧ (inTables s f = false → (tget Frame.reset t.frames f).cattr = attr))
      ∧ ((tfind s.pend (a.toNat / 64)).isSome = true ∨ (w.getLsbD 63 = false ∧ (tokenOut s f = true ∨ runPending s f 1 = true)) →
        exec (.cattrChange frame attr a) s = .next (addTask s (.cattrChange frame attr a))))
    ∧ ((coreOf s core).owner = some (p, slot) → graphOf s p slot = some g → ((coreOf s core).ports[port]).active = some r →
      let k := coreOf s core
      let late := fun (t : State) => modCore t core (fun k =>
        { k with ports := k.ports.set port { k.ports[port] with slow := k.ports[port].slow || slow } })
      let still := stillSteps k g r port
      let width := fun (ten : Tensor) => if r.write = true ∧ skivByp k.skiv[r.port] = false then fmtBits (skivSrc k.skiv[r.port]) else fmtBits ten.fmt
      (r.kind = 0 → tensorOf g r.tid = some ten → still = true → ten.inside co = true →
        reaches r (width ten) co (stepsLeft k port) k.ports[port] = true →
        let walk := throughLatch s p { vf := (partOf s p).vf, port := core.val, cls := portClass g r } ten (ten.tileNo co)
          (ten.elemOff co * fmtBits ten.fmt / 8) r.write (k.ports[port]).latch
        (∀ t l, walk = .ok (t, l) → exec (.translation core port ⟨r.write, slow⟩ co) s = .next (late (modCore t core (fun k =>
            { k with ports := k.ports.set port { k.ports[port] with latch := some l } }))))
        ∧ (∀ x, walk = .error x → exec (.translation core port ⟨r.write, slow⟩ co) s = .next s))
      ∧ (r.kind = 2 ∨ r.kind = 3 → still = true → exec (.translation core port ⟨r.write, slow⟩ co) s = .next (late s))
      ∧ (r.kind = 1 ∨ write ≠ r.write ∨ still = false → exec (.translation core port ⟨write, slow⟩ co) s = .next s)
      ∧ (r.kind = 0 → tensorOf g r.tid = some ten → ten.inside co = false ∨ reaches r (width ten) co (stepsLeft k port) k.ports[port] = false →
          exec (.translation core port ⟨write, slow⟩ co) s = .next s))
    ∧ (swapIn s part.toNat seq.toNat = some s' →
        exec (.sequenceSwapIn part seq) s = .next
          ((((partOf s part.toNat).graphs.filter (fun e => waitsForSeq (seqOf s part.toNat seq.toNat) seq.toNat e.2)).map (·.1)).foldl
            (fun s k => modGraph s part.toNat k (fun g => { g with hold := none })) s'))

/-- R74: the cores of a partition in rising order carry its hide space. It has 262 144 words for each core; offset w lies in bank
4·c_j + k at word w mod 65 536 of it, with j = FLOOR(w / 262 144) and k = FLOOR(w / 65 536) mod 4, and no two offsets lie at one
place; at or beyond the size an offset lies outside the partition, so that nothing is written there. -/
def Obligations.HideOffsetsAddressBanks : Prop :=
  ∀ (s : State) (p off other : Nat) (w : DWord),
    let x := partOf s p
    let cs := x.coreList
    let place := fun (o : Nat) (c : Nat) => (4 * c + o / 65536 % 4) * 65536 + o % 65536
    cs.Pairwise (· < ·) ∧ (∀ c : Nat, c ∈ cs ↔ c < 64 ∧ x.cores.getLsbD c = true)
    ∧ x.hideSize = 262144 * cs.length
    ∧ (∀ c, cs[off / 262144]? = some c →
        off < x.hideSize ∧ x.hideKey off = place off c
        ∧ hideWrite s p off w = { s with hide := tset 0 s.hide (place off c) w })
    ∧ (off < x.hideSize → other < x.hideSize → x.hideKey off = x.hideKey other → off = other)
    ∧ (x.hideSize ≤ off → cs[off / 262144]? = none ∧ hideWrite s p off w = s ∧ (s.cur.part = p → seqHideOk s off = false))

/-! ### Rounds and boundaries -/

/-- R107, R110, R111, R112, R202, R19: a start pulse begins a round at RC 0 with no fault, with the first time of its operator's tile step in m0 of each
element of an armed operator, and none issues in a pacing gap of the partition; the last fc of a gap ends
it; a promotion joins those that stand. -/
def Obligations.RoundBegins : Prop :=
  ∀ (s : State) (part slot : BitVec 6) (left : BitVec 12) (opx : BitVec 8) (g : Graph),
    let p := part.toNat
    let sl := slot.toNat
    graphOf s p sl = some g →
    (pulseFree s p g = true → restoresDue g = [] →
      ∃ t g', exec (.startPulse part slot) s = .next t ∧ graphOf t p sl = some g' ∧ g'.run = .round ∧ g'.rc = 0 ∧ g'.fault = none ∧ g'.waitCnt = 0
        ∧ g'.lastVoid = false ∧ g'.ops = g.ops ∧ t.mem = s.mem ∧ t.hide = s.hide
        ∧ (∀ (c : Fin 64) (e : Fin 96) (u : ArmUnit), let o := (elemOf (coreOf s c) e).opx
            c.val ∈ g.cores → o ≠ 0xFF → o.toNat < g.ops.length → (stAt g o.toNat).arm = some u →
            (elemOf (coreOf t c) e).r.m[0] = BitVec.ofNat 32 ((opAt g o.toNat).origin + u.step * (opAt g o.toNat).t)))
    ∧ (pulseFree s p g = false → exec (.startPulse part slot) s = .next s)
    ∧ ((partOf s p).gapLeft = left.toNat → exec (.pacingGapEnd part left) s = .next (putPart s p { partOf s p with gapLeft := 0 }))
    ∧ ((partOf s p).gapLeft ≠ 0 → pulseFree s p g = false)
    ∧ ((partOf s p).gapLeft ≠ left.toNat → ∃ t, exec (.pacingGapEnd part left) s = .next t ∧ partOf t p = partOf s p ∧ t.cores = s.cores ∧ t.mem = s.mem)
    ∧ (opx.toNat < g.ops.length → 64 ≤ (stAt g opx.toNat).passed →
      ∃ t, exec (.promotion part slot opx) s = .next t ∧ t = { s with parts := t.parts }
        ∧ graphOf t p sl = some (modSt g opx.toNat (fun o => { o with promoted := o.promoted ++ o.passedBy.toList, passed := 0, passedBy := none })))

/-- R128, R130, R136, R159, R174, R189, R315: a round that has ended without a fault commits, unless its commit is held: by engines, by frames that must be evicted first,
or by the version store, for which a boundary is asked unless one has begun; a store that meets a line of another attribute is that round's fault.
A commit leaves on each core of the graph what `CommitAndVoidOfACore` says, and the boundary follows. One that has faulted is voided: its report
is queued, RVOID counts
it, its quota units return, and the boundary follows with nothing of the round left on a core of the graph, as the same statement says. A keeper word that a record of the commit reads beside another residue than its own is checked first (R205).
ATTR at the commit (log entry 33), which frame is evicted (19) and that the words of a record are read so (8) are the model's readings.
R107, R18: after a void that nothing stops, the armed set stands and the graph is ready for its replay, which follows the pacing gap of the partition: the
one that PACE_CTL asks for, or what is left of one in progress, if that is longer. That a gap follows a void too is the model's reading (log entry
62). -/
def Obligations.RoundsEndAndReplay : Prop :=
  (∀ (s : State) (part slot : BitVec 6) (g : Graph) (r : Report),
      let p := part.toNat
      let sl := slot.toNat
      graphOf s p sl = some g → g.run = .ended → s.hitch = false →
      let held := modGraph s p sl (fun g => { g with run := .heldCommit })
      let clear := commitClash s g = none ∧ recordCheck s p g = none
      (g.fault = none → clear → engineHeld s p g = false → allocHeld s p g = false → versionHeld s p g = false →
        exec (.roundCommit part slot) s = .next (commitRound s p sl))
      ∧ (g.cores.Nodup → (∀ c ∈ g.cores, c < 64) →
        let t := commitRound s p sl
        (∃ g', graphOf t p sl = some g' ∧ g'.run = .boundary ∧ g'.lastVoid = false ∧ g'.repeatCnt = 0)
        ∧ ∀ (c : Fin 64) (e : Fin 96), c.val ∈ g.cores →
            (elemOf (coreOf t c) e).r = (elemOf (commitCore g (coreOf s c)) e).r ∧ (coreOf t c).c = (coreOf s c).c
            ∧ (coreOf t c).stores = [] ∧ (coreOf t c).hideOps = [] ∧ (coreOf t c).held = [] ∧ (coreOf t c).bankOps = []
            ∧ (coreOf t c).banks = (commitCore g (coreOf s c)).banks)
      ∧ (g.fault = none → clear → engineHeld s p g = true → exec (.roundCommit part slot) s = .next held)
      ∧ (g.fault = none → clear → engineHeld s p g = false → allocHeld s p g = true → exec (.roundCommit part slot) s = .next (evictSome held p))
      ∧ (g.fault = none → clear → engineHeld s p g = false → allocHeld s p g = false → versionHeld s p g = true →
        exec (.roundCommit part slot) s = .next (modPart held p (fun x => { x with bndReq := x.bndReq || !x.bndStarted })))
      ∧ (∀ c, g.fault = none → commitClash s g = none → recordCheck s p g = some c → exec (.roundCommit part slot) s = .next
          (addUrgent (modGraph s p sl (fun g => { g with run := .ended })) c))
      ∧ (∀ c x, g.fault = none → commitClash s g = some (c, x) → exec (.roundCommit part slot) s = .next
          (takeFault .round (modGraph s p sl (fun g => { g with run := .ended })) p sl (clashReport s p sl c g x)))
      ∧ (g.fault = some r → hitchSelects s p r = false →
        ∃ t g', exec (.roundVoid part slot) s = .next t ∧ graphOf t p sl = some g' ∧ g'.run = .boundary ∧ g'.lastVoid = true ∧ g'.rc = 0
          ∧ (partOf t p).faultQ = (partOf s p).faultQ ++ [r] ∧ t.mem = s.mem ∧ t.hide = s.hide ∧ t.pend = s.pend
          ∧ g'.rvoid = g.rvoid + 1 ∧ g'.rcom = g.rcom ∧ (partOf t p).quota = (partOf s p).quota + unitsTaken s g.cores
          ∧ (r.cls = 1 ∨ r.cls = 4 ∨ r.cls = 11 ∨ r.cls = 12 → g'.hold = some r)
          ∧ ∀ (c : Fin 64) (e : Fin 96), c.val ∈ g.cores →
              let k := voidCore (coreOf s c)
              let k' := coreOf t c
              elemOf k' e = elemOf k e ∧ k'.stores = [] ∧ k'.hideOps = [] ∧ k'.held = [] ∧ k'.bankOps = [] ∧ k'.gainsHeld = [] ∧ k'.fins = []
              ∧ k'.earlies = [] ∧ k'.tiles = k.tiles ∧ k'.loft = k.loft ∧ k'.banks = k.banks ∧ k'.c = k.c ∧ k'.armw = k.armw))
  ∧ (∀ (s : State) (part slot : BitVec 6) (g : Graph),
      let p := part.toNat
      let sl := slot.toNat
      let pace := (partOf s p).paceNext
      let gap := if pace.getLsbD 0 then pace.toNat / 65536 % 4096 else 0
      graphOf s p sl = some g → g.run = .boundary → g.lastVoid = true → g.stopNext = false → g.fault = none →
      ∃ t g', exec (.roundBoundary part slot) s = .next t ∧ graphOf t p sl = some g' ∧ g'.st = g.st
        ∧ g'.run = .ready ∧ (partOf t p).gapLeft = max (partOf s p).gapLeft gap ∧ (partOf t p).pace = pace ∧ t.cores = s.cores ∧ t.mem = s.mem)

/-- R136: a voided round leaves nothing: registers, keepers, flags, counters and accumulators are those at round start, what the
round held back is gone, ports are rewound; memory tiles, the loft, banks and sequencer registers stay.
R136, R201, R218, R332, R345: what the commit makes of a core: working accumulators become committed, CTX of an armed element advances, what the round held is
gone; registers keep what the round left in them, and tiles, loft and sequencer registers stay. -/
def Obligations.CommitAndVoidOfACore : Prop :=
  (∀ (k : Core) (e : Fin 96) (i : Fin 16),
      (elemOf (voidCore k) e).r = (elemOf k e).start ∧ (elemOf (voidCore k) e).start = (elemOf k e).start
      ∧ (elemOf (voidCore k) e).list = (elemOf k e).list
      ∧ (voidCore k).stores = [] ∧ (voidCore k).hideOps = [] ∧ (voidCore k).held = [] ∧ (voidCore k).bankOps = [] ∧ (voidCore k).gainsHeld = []
      ∧ (voidCore k).khors = [] ∧ (voidCore k).fins = [] ∧ (voidCore k).earlies = [] ∧ (voidCore k).cnts = [] ∧ (voidCore k).lineNow = []
      ∧ ((voidCore k).ports[i]).pos = (k.ports[i]).pos0 ∧ ((voidCore k).ports[i]).step = (k.ports[i]).step0
      ∧ (voidCore k).tiles = k.tiles ∧ (voidCore k).loft = k.loft ∧ (voidCore k).banks = k.banks ∧ (voidCore k).c = k.c ∧ (voidCore k).evc = k.evc
      ∧ (voidCore k).armw = k.armw)
  ∧ (∀ (g : Graph) (k : Core) (e : Fin 96),
      let x := elemOf k e
      let y := elemOf (commitCore g k) e
      y.r.accC = x.r.accW ∧ y.r.accW = x.r.accW ∧ y.r.ctx = (if elemArmed g x then x.r.ctx + 1 else x.r.ctx)
      ∧ y.r.v = x.r.v ∧ y.r.s = x.r.s ∧ y.r.p = x.r.p ∧ y.r.m = x.r.m ∧ y.r.k = x.r.k ∧ y.r.flags = x.r.flags ∧ y.r.exc = x.r.exc
      ∧ (commitCore g k).stores = [] ∧ (commitCore g k).hideOps = [] ∧ (commitCore g k).held = [] ∧ (commitCore g k).bankOps = []
      ∧ (commitCore g k).gainsNext = k.gainsNext ++ k.gainsHeld ∧ (commitCore g k).gainsHeld = []
      ∧ (commitCore g k).tiles = k.tiles ∧ (commitCore g k).loft = k.loft ∧ (commitCore g k).c = k.c)

/-- R93, R95, R96, R107, R114, R115, R132: the boundary of a committed round records, plans, applies cancels, arms, and opens the boundary section. The
recording step counts the round and records the units of the operators; a graph that is to stop stops; units that have run ROUNDS rounds are
reported, every one, and a phase boundary is forced (that each is reported is the model's reading, log entry 67).
R93, R96, R104, R115, R121: an armed unit at a recording step. One that completes leaves its arm slot with V at 0 and gives its positions to its queue
slot or its production record, and to the demands that lacked them; one that does not complete stays armed, with its round counted in its slot word;
each has triggered once it has executed `early`.
R115: a demand has triggered when every unit that holds a position of its cone has and none of what it lacks is unarmed, and completes, and is counted,
when it lacks nothing and no such unit is armed. -/
def Obligations.BoundaryAfterCommit : Prop :=
  (∀ (s : State) (part slot : BitVec 6) (g : Graph),
      let p := part.toNat
      let sl := slot.toNat
      graphOf s p sl = some g → g.run = .boundary → g.lastVoid = false →
      let s0 := modPart s p (fun x => { x with pace := x.paceNext })
      let before := releasedAccs (partOf s p)
      let r := recordStep s0 p sl g
      let x1 := (opxs g).foldl (fun x o => recordUnit (finsOf s g) (earliesOf s g) (portsDone s g) sl x o) (partOf s0 p)
      let ends := fun (t : State) => exec (.roundBoundary part slot) s = .next t
      ∃ g1, graphOf r p sl = some g1 ∧ g1.rcom = g.rcom + 1 ∧ g1.ops = g.ops ∧ r.mem = s.mem ∧ r.hide = s.hide ∧ (partOf r p).armSlots = x1.armSlots
      ∧ (∃ h, tfind x1.graphs sl = some h ∧ ∀ o : Nat, o < g.ops.length →
          let a := stAt g1 o
          let b := stAt h o
          a.arm = b.arm ∧ a.need = b.need ∧ a.had = b.had ∧ a.f = b.f ∧ a.win = b.win ∧ a.slots = b.slots ∧ a.kpos = b.kpos)
      ∧ (g1.stopNext = true → ends (startGap (armReleased (stopGraph r p sl) p before) p))
      ∧ (g1.stopNext = false → overRounds g1 = [] →
          ends (openSection (armReleased (admitLate (armStep (planAndCancel r p sl) p sl) p sl) p before) p sl))
      ∧ (g1.stopNext = false → overRounds g1 ≠ [] →
          ∃ t l, ends t ∧ (partOf t p).faultQ = (partOf s p).faultQ ++ l ∧ l.map (·.opx) = (overRounds g1).map (BitVec.ofNat 8)
            ∧ (∀ q ∈ l, q.cls = 10 ∧ q.detail = 2 ∧ q.slot = slot) ∧ (partOf t p).bndReq = true))
  ∧ (∀ (fins earlies : List (BitVec 8)) (done : Nat → Bool) (slot : Nat) (x : Part) (o : Nat) (g : Graph) (u : ArmUnit),
      tfind x.graphs slot = some g → (stAt g o).arm = some u →
      let d := opAt g o
      let st := stAt g o
      let y := recordUnit fins earlies done slot x o
      let u' := { u with rcnt := u.rcnt + 1, fresh := false, trig := u.trig || earlies.contains (BitVec.ofNat 8 o) }
      let ends := d.rounds = 1 ∨ BitVec.ofNat 8 o ∈ fins ∨ done o = true
      ∃ g', tfind y.graphs slot = some g' ∧ g'.ops = g.ops ∧ (∀ o' : Nat, o' ≠ o → stAt g' o' = stAt g o')
        ∧ (stAt g' o).kpos = (if d.scls = 2 ∨ d.scls = 4 then d.origin + u.step * d.t + u.last + 1 else st.kpos)
        ∧ (¬ ends → (stAt g' o).arm = some u' ∧ y.demands = x.demands ∧ (stAt g' o).need = st.need ∧ (stAt g' o).f = st.f ∧ (stAt g' o).win = st.win
            ∧ (stAt g' o).slots = st.slots
            ∧ (let w := tget 0 y.armSlots u.cell
               w.getLsbD 63 = true ∧ w.getLsbD 62 = u'.trig ∧ w.toNat / 2 ^ 54 % 256 = (u.rcnt + 1) % 256 ∧ w.toNat / 2 ^ 48 % 64 = slot % 64
               ∧ w.toNat / 2 ^ 40 % 256 = o % 256 ∧ w.toNat % 2 ^ 40 = u.step % 2 ^ 40))
        ∧ (ends → (stAt g' o).arm = none ∧ tget 0 y.armSlots u.cell = tget 0 x.armSlots u.cell &&& 0x7FFFFFFFFFFFFFFF
            ∧ (d.qd ≠ 0 → (stAt g' o).slots = st.slots ++ [{ step := u.step, pos := u.pos d }] ∧ ∀ t ∈ u.pos d, produced d (stAt g' o) t = true)
            ∧ (d.qd = 0 → (stAt g' o).slots = st.slots
              ∧ (u.stride = 1 → st.f = d.origin + u.step * d.t + u.first → ∀ t ∈ u.pos d, produced d (stAt g' o) t = true))
            ∧ (∀ k q, tfind x.demands k = some q → q.slot = slot → q.done = false → ∃ q', tfind y.demands k = some q' ∧ q'.done = false
                ∧ (∀ c ∈ q'.left, c.1.toNat = o → ∀ t ∈ c.2, t ∉ u.pos d)
                ∧ (q.opx.toNat = o → q'.lack = q.lack.filter (fun t => !(u.pos d).contains t)
                  ∧ q'.dpos.toNat = min (q.total - q'.lack.length) (2 ^ 32 - 1))
                ∧ (q.opx.toNat ≠ o → q'.lack = q.lack ∧ q'.dpos = q.dpos)))
        ∧ (∀ cell : Nat, cell ≠ u.cell → tget 0 y.armSlots cell = tget 0 x.armSlots cell))
  ∧ (∀ (g : Graph) (x : Part) (k : Nat) (d : Demand), tfind x.demands k = some d → d.planned = true → d.done = false →
      let holds := fun (o : Nat) (u : ArmUnit) => o < g.ops.length ∧ (stAt g o).arm = some u ∧ ∃ t ∈ u.pos (opAt g o), t ∈ coneAt d.cone o
      let ended := (∀ c ∈ d.left, c.2 = []) ∧ ∀ o u, ¬ holds o u
      let fired := (∀ o u, holds o u → u.trig = true)
        ∧ ∀ c ∈ d.left, ∀ t ∈ c.2, ∃ u, c.1.toNat < g.ops.length ∧ (stAt g c.1.toNat).arm = some u ∧ t ∈ u.pos (opAt g c.1.toNat)
      let y := checkDemand g x (k, d)
      ∃ d', tfind y.demands k = some d' ∧ (d'.done = true ↔ ended) ∧ (d'.trig = true ↔ d.trig = true ∨ fired) ∧ (ended → d'.canc = false)
        ∧ (∀ h, tfind x.graphs d.slot = some h → ∃ h', tfind y.graphs d.slot = some h' ∧ (ended → h'.cmpl = h.cmpl + 1) ∧ (¬ ended → h'.cmpl = h.cmpl)))

/-- R106, R108: planning puts every position that a demand asks for and that is not produced into the need set of its sink and into the demand's
cone.
R96, R109, R110: a candidate's positions are needed and not produced, and a released live demand asks for one of them; its class and age are those of
the most urgent such demand; an operator of SCLS 2 to 4 has none while its unit is armed. An operator whose unit stays armed, or which has no armable
candidate, is left as it is; else its first armable candidate, promoted ones before others, then by class, age and step, is armed in the lowest free
slot, over the positions that it needs. That the end of a range which is off its stride is a position of its own is the model's reading (log entry 75). -/
def Obligations.PlanningAndArming : Prop :=
  (∀ (hf : Nat → Nat) (x : Part) (slot k : Nat) (g : Graph) (d : Demand), tfind x.graphs slot = some g → tfind x.demands k = some d → d.done = false →
      let o := d.opx.toNat
      let od := opAt g o
      let y := planOne hf x slot k
      o < g.ops.length → g.ops.length ≤ 256 → 1 ≤ d.prog.s → (stAt g o).need = [] →
      ∃ g' d', tfind y.graphs slot = some g' ∧ tfind y.demands k = some d' ∧ g'.ops = g.ops ∧ d'.planned = true ∧ d'.prog = d.prog ∧ d'.done = false
        ∧ ∀ t : Nat, (d.prog.clamp od.origin od.limit).mem t = true → produced od (stAt g o) t = false →
            inSet (stAt g' o).need t = true ∧ t ∈ coneAt d'.cone o ∧ t ∈ coneAt d'.left o)
  ∧ (∀ (hf : Nat → Nat) (x : Part) (slot o : Nat) (g : Graph), tfind x.graphs slot = some g →
      let d := opAt g o
      let st := stAt g o
      let y := armOp hf slot x o
      let can := fun (c : Cand) => c ∈ candidates x slot g o ∧ inputsReady g hf o (execution d st c).2 = true ∧ (makeRoom g hf o).isSome = true
        ∧ (freeSlot x).isSome = true
      let asks := fun (c : Cand) (q : Nat × Demand) => q ∈ x.demands ∧ q.2.slot = slot ∧ q.2.done = false ∧ released x q.2 = true
        ∧ ∃ t ∈ c.u, t ∈ coneAt q.2.cone o
      let first := fun (a b : Cand) => (a.promoted = true ∧ b.promoted = false) ∨ (a.promoted = b.promoted ∧ (a.prio < b.prio ∨ (a.prio = b.prio
        ∧ (a.age < b.age ∨ (a.age = b.age ∧ a.step < b.step)))))
      (∀ c ∈ candidates x slot g o,
          (∀ t ∈ c.u, inSet st.need t = true ∧ produced d st t = false ∧ (t - d.origin) / d.t = c.step)
          ∧ (∃ q, asks c q ∧ q.2.prio = c.prio ∧ q.2.acc = c.age)
          ∧ (∀ q, asks c q → c.prio < q.2.prio ∨ (c.prio = q.2.prio ∧ c.age ≤ q.2.acc))
          ∧ (2 ≤ d.scls.toNat → st.arm = none))
      ∧ (st.arm ≠ none → y = x)
      ∧ (st.arm = none → (∀ c, ¬ can c) → y = x)
      ∧ (∀ c, st.arm = none → can c → (∀ b, can b → b = c ∨ first c b) →
          ∃ g' u cell, tfind y.graphs slot = some g' ∧ g'.ops = g.ops ∧ (stAt g' o).arm = some u ∧ u.step = (execution d st c).1 ∧ u.prio = c.prio
            ∧ u.rcnt = 0 ∧ u.trig = false ∧ u.cell = cell ∧ freeSlot x = some cell ∧ some (stAt g' o).slots = makeRoom g hf o
            ∧ ((execution d st c).1 = c.step → (∀ t ∈ c.u, d.origin ≤ t) → ∀ t ∈ c.u, t ∈ u.pos d)
            ∧ (tget 0 y.armSlots cell).getLsbD 63 = true ∧ (tget 0 y.armSlots cell).toNat % 2 ^ 40 = u.step % 2 ^ 40
            ∧ (∀ o' : Nat, o' ≠ o → stAt g' o' = stAt g o') ∧ y.demands = x.demands))

/-- R85, R113, R129, R130, R131, R134, R205, R350: what raises DEADLINE 1 and 3, TRAP 0xFFFD, RESIDUE and HARD. A residue that comes to stand beside a
word is held with it. It raises nothing while nobody reads or writes the word, and nothing where it agrees with the word; a mismatch
on a value of the round in flight is RESIDUE at the lane for which the word is read, the third on an element within 2^20 rounds HARD with DETAIL 1, one
on a committed value HARD with DETAIL 2. One that a stream port reads is RESIDUE with no lane, and counts for no element. That a defect is an input, which words count as committed (log entry 8), and that the window counts start pulses of the core (46) are
the model's choices.
R83, R130, R131: the replay limit stops the graph, and forwards a report that has not been forwarded; a request of a lower class that has waited 1 024 units is
granted, the first of its arbiter. -/
def Obligations.DeadlinesAndLimits : Prop :=
  (∀ (s : State) (part slot : BitVec 6) (g : Graph) (core : Fin 64) (elem : Fin 96) (li rc : BitVec 12) (lane : BitVec 5) (late : BitVec 16) (p' sl' : Nat)
      (word : RWord) (held : BitVec 3) (read : Bool) (port : Fin 16),
      let p := part.toNat
      let sl := slot.toNat
      let n := (coreOf s core).roundsStarted
      let seen := (elemOf (coreOf s core) elem).detections ++ [n]
      let ds := seen.drop (seen.length - 3)
      let few := ds.length < 3 ∨ ds.headD 0 + 2 ^ 20 ≤ n
      let check : Instr := .residueLimit core ⟨elem, li, word, held, read, lane, none⟩
      let value := wordIn s core elem word
      let old := isCommitted s core elem word
      let beside := holdResid s core elem word held
      let agrees := value.toNat % 7 = held.toNat
      let checked := read = true ∨ word.place = .alu
      let hard := fun (t : State) (d : Nat) => (partOf t p').resetting = true ∧ t.urgent = s.urgent ++ [.partitionReset ⟨BitVec.ofNat 6 p', none⟩]
        ∧ ∃ r, (partOf t p').faultQ = (partOf s p').faultQ ++ [r] ∧ r.cls = 16 ∧ r.detail.toNat = d ∧ r.li = li ∧ r.elem.toNat = elem.val
      (graphOf s p sl = some g → g.budget ≤ g.waitCnt → g.run ≠ .sect →
        ∃ r, exec (.waitBudgetExpiry part slot) s = .next (takeFault .outside (modPart s p (fun x => { x with bndReq := true })) p sl r)
          ∧ r.cls = 10 ∧ r.detail = 1 ∧ r.info = BitVec.ofNat 64 g.budget ∧ r.eng = 6)
      ∧ (graphOf s p sl = some g → g.budget ≤ g.waitCnt → g.run = .sect →
        ∃ r, exec (.waitBudgetExpiry part slot) s = .next (takeFault .boundary (modPart s p (fun x => { x with bndReq := true })) p sl r)
          ∧ r.cls = 10 ∧ r.detail = 1 ∧ r.rc = 0xFFF ∧ r.elem = 127)
      ∧ (graphOf s p sl = some g → g.run = .sect →
        ∃ r, exec (.boundaryStepLimit part slot) s = .next (takeFault .boundary s p sl r) ∧ r.cls = 15 ∧ r.detail = 0xFFFD ∧ r.rc = 0xFFF)
      ∧ ((coreOf s core).owner = some (p', sl') → graphOf s p' sl' = some g → g.run = .round →
        (∃ r, exec (.hldILate core elem li lane ⟨rc, late⟩) s = .next (takeFault .round s p' sl' r) ∧ r.cls = 10 ∧ r.detail = 3 ∧ r.info = late.zeroExtend 64
          ∧ r.lane = lane ∧ r.lv = true ∧ r.li = li ∧ r.rc = rc)
        ∧ (¬ checked ∨ agrees → exec check s = .next beside)
        ∧ (checked → ¬ agrees → old = false → few → ∃ t r, exec check s = .next (takeFault .round t p' sl' r) ∧ r.cls = 9 ∧ r.li = li ∧ r.elem.toNat = elem.val
            ∧ r.lv = true ∧ r.lane.toNat = (if read = true then lane.toNat else word.lane.val)
            ∧ t = modCore beside core (fun k => modElem k elem (fun e => { e with detections := ds })))
        ∧ (checked → ¬ agrees → old = false → ¬ few → (partOf s p').resetting = false →
          ∃ t, exec check s = .next t ∧ (elemOf (coreOf t core) elem).failed = true ∧ (elemOf (coreOf t core) elem).detections = ds ∧ hard t 1)
        ∧ (checked → ¬ agrees → old = true → (partOf s p').resetting = false →
          ∃ t, exec check s = .next t ∧ t.cores = beside.cores ∧ hard t 2))
      ∧ ((coreOf s core).owner = some (p', sl') → graphOf s p' sl' = some g → g.run = .round → ¬ agrees → old = false →
          ∃ r, exec (.residueLimit core ⟨elem, li, word, held, true, lane, some port⟩) s = .next (takeFault .round beside p' sl' r) ∧ r.cls = 9 ∧ r.lv = false)
      ∧ ((coreOf s core).owner = none → exec check s = .next beside)
      ∧ (let l := (elemOf (coreOf beside core) (resHolder word elem)).r.resid
         (agrees → ∀ h ∈ l, h.1 ≠ word) ∧ (¬ agrees → (word, held) ∈ l)
         ∧ ∀ h ∈ (elemOf (coreOf s core) (resHolder word elem)).r.resid, h.1 ≠ word → h ∈ l))
  ∧ (∀ (s : State) (part slot : BitVec 6) (g : Graph) (arb : Nat) (q : ArbReq) (pre post : List ArbReq),
      let p := part.toNat
      let sl := slot.toNat
      (graphOf s p sl = some g → atReplayLimit g = true → g.hold = none →
        exec (.replayLimit part slot) s = .next (stopGraph (modGraph s p sl (fun g => { g with repeatCnt := 0 })) p sl))
      ∧ (∀ r, graphOf s p sl = some g → atReplayLimit g = true → g.hold = some r →
        let sent := modVf s g.vf (fun v => { v with evWait := v.evWait ++ [reportEvent r] })
        let u := if r.cls = 1 ∨ r.cls = 9 ∨ r.cls = 11 ∨ r.cls = 12 then sent else s
        exec (.replayLimit part slot) s = .next (stopGraph (modGraph u p sl (fun g => { g with repeatCnt := 0 })) p sl))
      ∧ (graphOf s p sl = some g → atReplayLimit g = false → exec (.replayLimit part slot) s = .next s)
      ∧ (let starved := fun (x : ArbReq) => x.arbiter = arb ∧ x.cls ≠ 0 ∧ 1024 ≤ x.waited ∧ x.granted = false
         s.arbs = pre ++ q :: post → (∀ x ∈ pre, ¬ starved x) → starved q →
          exec (.starvationGrant arb) s = .next { s with arbs := pre ++ { q with granted := true } :: post }))

/-- R184, R185, R187, R63, R137, R141: a boundary that is ready publishes the pending bytes of its partition and advances PHN; the performed part is
as `publishPhase` says. Start pulses resume with its end, or, where a slice ends with it, once its context has been saved and the next one
restored, each a step of the boundary that follows (log entry 79). -/
def Obligations.PhaseBoundaryPublishes : Prop :=
  ∀ (s : State) (part : BitVec 6) (a : Nat),
    let p := part.toNat
    let x := partOf s p
    let s1 := if x.bndStarted then s else putPart s p { x with bndStarted := true, bndReq := false }
    let t := publishPhase s p
    let pulses := fun (t : State) => modPart t p (fun x => { x with bndStarted := decide (x.switching ≠ .none) })
    (s.hitch = false → x.resetting = false → x.bndReq = true ∨ x.bndStarted = true →
      (x.switching = .none → boundaryReady s1 p = true →
        exec (.phaseBoundary part) s = .next (pulses (endSlice (installLoads (performHeld (publishPhase s1 p) p) p) p)))
      ∧ (x.switching = .none → boundaryReady s1 p = false → exec (.phaseBoundary part) s = .next s1)
      ∧ (x.switching = .save → exec (.phaseBoundary part) s = .next (saveSlice s p))
      ∧ (x.switching = .restore → exec (.phaseBoundary part) s = .next (pulses (restoreSlice s p))))
    ∧ (x.bndReq = false → x.bndStarted = false → exec (.phaseBoundary part) s = .next s)
    ∧ (partOf t p).phn = x.phn + 1 ∧ (partOf t p).post = [] ∧ (partOf t p).phAcpt = 0 ∧ (partOf t p).phCmpl = 0
    ∧ (∀ e ∈ t.pend, e.2.part ≠ p)
    ∧ (keysRise s.pend = true → (∀ e ∈ s.pend, keysRise e.2.bytes = true ∧ ∀ b ∈ e.2.bytes, b.1 / 64 = e.1) →
        (∀ q, tfind s.pend (a / 64) = some q → q.part = p → readB t.mem a = pendingB s a)
        ∧ ((∀ q, tfind s.pend (a / 64) = some q → q.part ≠ p) → readB t.mem a = readB s.mem a))

/-- R80, R131, R79, R135, R183: a slice that has run its length expires and asks for a boundary; without one within GRACE it is DEADLINE 4 and a
boundary is asked for, and no demand is cancelled; an uncorrectable error in
a structure of a partition is HARD with DETAIL 2, after which its reset follows at once; the reset of a partition leaves its cores zero, its slots empty
and, when it is bound, its VF's streams halted. What a reset keeps in the corners that the manual leaves open is the model's reading (log
entry 51). -/
def Obligations.SlicesAndPartitionReset : Prop :=
  ∀ (s : State) (part : BitVec 6) (n : Fin 8) (w : DWord),
    let p := part.toNat
    let x := partOf s p
    (x.slices = true → x.slice * 2 ^ 20 ≤ x.sliceRun → x.sliceExp = false →
      exec (.sliceExpiry part) s = .next (putPart s p { x with sliceExp := true, sliceAt := nextPhn x, grace := 0, bndReq := true }))
    ∧ (x.sliceExp = true → x.graceLimit ≠ 0 → x.graceLimit * 1024 ≤ x.grace →
      ∃ t r, exec (.graceExpiry part) s = .next t ∧ (partOf t p).faultQ = x.faultQ ++ [r] ∧ r.cls = 10 ∧ r.detail = 4 ∧ (partOf t p).demands = x.demands
        ∧ (partOf t p).bndReq = true ∧ t.mem = s.mem)
    ∧ (x.resetting = false → exec (.partitionReset ⟨part, none⟩) s = .next s)
    ∧ (s.hitch = false → x.v = true → x.resetting = false →
      ∃ r, exec (.partitionReset ⟨part, some w⟩) s = .next
          (addUrgent (modPart (queueReport s p true r) p (fun x => { x with resetting := true })) (.partitionReset ⟨part, none⟩))
        ∧ r.cls = 16 ∧ r.detail = 2 ∧ r.info = w)
    ∧ (x.v = true → x.resetting = true → exec (.partitionReset ⟨part, some w⟩) s = .next s)
    ∧ (x.resetting = true →
      ∃ t, exec (.partitionReset ⟨part, none⟩) s = .next t ∧ (partOf t p).resetting = false ∧ (partOf t p).graphs = [] ∧ (partOf t p).cores = x.cores
        ∧ (partOf t p).demands = [] ∧ (∀ e ∈ t.engines, e.part ≠ p) ∧ (∀ e ∈ t.pend, e.2.part ≠ p)
        ∧ (∀ c : Fin 64, x.cores.getLsbD c.val = true →
            let k := coreOf t c
            k.c = Vector.replicate 32 0 ∧ k.tiles = [] ∧ k.loft = [] ∧ k.banks = Vector.replicate 16 Bank.reset ∧ k.owner = none
            ∧ k.stores = [] ∧ k.hideOps = [] ∧ k.held = [] ∧ ∀ e : Fin 96, (elemOf k e).r = ElemRegs.zero)
        ∧ (x.bound = true → (streamOf t x.vf n).state = .halt))

/-! ### Links and collectives -/

/-- R31 to R35: an accepted flit advances the receive sequence number and frees what it acknowledges; CREDIT returns credits, at most 64 for a VC; a flit
out of sequence changes nothing, but that a retrain has succeeded when it is the first after it; a malformed one is counted and answered by RETRY, or,
as the first after a retrain, marks the port down; HITCH and other ports are not touched.
R32, R34, R35, R82: a port sends, of the queued flits whose VC holds a credit and that can take no further value (R37; log entry 13), the one of the most urgent class that came first (one that 1 024
flits of more urgent classes have overtaken before all others: R83, and the model's log entry 28 for what is counted), under its next SEQ and with the ACK of the reverse direction, spends the credit, and keeps the flit for replay; with
nothing to send it sends IDLE; a full replay buffer, a link that is down or retrains sends nothing. That COPY does nothing more is the model's log entry 14; that its credit returns at
once, that link flits take a SEQ, and that a flit whose CRC fails is counted, is log entry 41. -/
def Obligations.FlitsReceivedAndSent : Prop :=
  (∀ (s : State) (port other : Fin 18) (f : Flit) (i : Fin 8),
      let p := portOf s port
      (accepts s port 0x00 0 f → f.vc = 0 →
        ∃ t, exec (.idle port f) s = .next t ∧ (portOf t port).rxSeq = f.seq.toNat ∧ (portOf t port).replay = dropAcked f.ack.toNat p.replay
          ∧ (portOf t port).credits = p.credits ∧ (portOf t port).queue = p.queue ∧ t.out = s.out ∧ (other ≠ port → portOf t other = portOf s other))
      ∧ (accepts s port 0x01 0 f → f.vc = 0 →
        ∃ t, exec (.credit port f) s = .next t ∧ (portOf t port).rxSeq = f.seq.toNat
          ∧ ((portOf t port).credits)[i] = min 64 (p.credits[i] + ((f.payload.drop i.val).headD 0).toNat) ∧ t.mem = s.mem ∧ t.cores = s.cores)
      ∧ (accepts s port 0x20 5 f → f.vc = 5 →
        ∃ t, exec (.flitCopy port f) s = .next t ∧ (portOf t port).rxSeq = f.seq.toNat ∧ t.mem = s.mem ∧ t.cores = s.cores
          ∧ (portOf t port).malformed = p.malformed + (if opBad s f then 1 else 0)
          ∧ (∃ c, (portOf t port).queue = p.queue ++ [c] ∧ c.f.type = 0x01 ∧ c.f.payload[5]? = some 1))
      ∧ (p.up = true → p.retraining = false → f.wf 0x00 0 = true → f.seq.toNat ≠ (p.rxSeq + 1) % 4096 →
          exec (.idle port f) s = .next (modFPort s port (fun p => { p with proof := false })))
      ∧ (p.up = false ∨ p.retraining = true → exec (.malformedFlit port) s = .next s)
      ∧ (p.up = true → p.retraining = false → ∃ t, exec (.malformedFlit port) s = .next t ∧ (portOf t port).malformed = p.malformed + 1
          ∧ (p.proof = false → ∃ c, (portOf t port).queue = p.queue ++ [c] ∧ c.f.type = 0x02) ∧ (portOf t port).rxSeq = p.rxSeq
          ∧ (p.proof = true → (portOf t port).up = false)))
  ∧ (∀ (s : State) (port : Fin 18) (i j : Nat) (q r : QFlit),
      let p := portOf s port
      let may := fun (j : Nat) (r : QFlit) => p.queue[j]? = some r ∧ (r.f.vc = 0 ∨ 0 < p.credits[Fin.ofNat 8 r.f.vc.toNat]) ∧ r.full p.txE = true
        ∧ (∀ k x, k < j → p.queue[k]? = some x → x.f.vc = r.f.vc → x.f.vc ≠ 0 → msgKey x.f ≠ msgKey r.f)
      (nextFlit p = some (i, q) → may i q
        ∧ (may j r → (1024 ≤ r.waited → 1024 ≤ q.waited)
          ∧ ((1024 ≤ q.waited ↔ 1024 ≤ r.waited) → q.cls ≤ r.cls ∧ (q.cls = r.cls → i ≤ j))))
      ∧ (nextFlit p = none → ¬ may j r)
      ∧ (p.up = true → p.retraining = false → p.replay.length < 256 →
        (nextFlit p = some (i, q) →
          (∃ t g x, exec (.flitSend port) s = .next t ∧ t.out = s.out ++ [.flit port.val g] ∧ (portOf t port).txSeq = (p.txSeq + 1) % 4096
            ∧ (portOf t port).replay = p.replay ++ [(g, x)]
            ∧ g.type = q.f.type ∧ g.vc = q.f.vc ∧ g.seq = BitVec.ofNat 12 p.txSeq ∧ g.ack = BitVec.ofNat 12 p.rxSeq
            ∧ (∀ n : Fin 8, (portOf t port).credits[n] = p.credits[n] - (if q.f.vc ≠ 0 ∧ n = Fin.ofNat 8 q.f.vc.toNat then 1 else 0)))
          ∧ (codedVc q.f = none → inMessage q.f = false →
            let g := { q.f with seq := BitVec.ofNat 12 p.txSeq, ack := BitVec.ofNat 12 p.rxSeq }
            ∃ t, exec (.flitSend port) s = .next t ∧ t.out = s.out ++ [.flit port.val g] ∧ (portOf t port).replay = p.replay ++ [(g, g)]
              ∧ (portOf t port).queue.map (·.f) = (p.queue.map (·.f)).eraseIdx i))
        ∧ (nextFlit p = none →
          ∃ t g, exec (.flitSend port) s = .next t ∧ t.out = s.out ++ [.flit port.val g] ∧ g.type = 0x00 ∧ g.vc = 0 ∧ (portOf t port).queue = p.queue
            ∧ (portOf t port).credits = p.credits))
      ∧ (p.up = false ∨ p.retraining = true ∨ 256 ≤ p.replay.length → exec (.flitSend port) s = .next s))

/-- R33, R34, R36, R38, R45: RETRY sends everything again from ACK + 1 on, with the same bits; the retry limit retrains the link, which starts its coding and its
credits again; a link that is up again resends what is not acknowledged; one that is not within its time is marked down.
R37: exponent coding loses nothing: a value coded under a table of at most 16 exponents is read back as it was, and what follows it stays. -/
def Obligations.RetriesAndExponentCoding : Prop :=
  (∀ (s : State) (port : Fin 18) (f : Flit) (dir : Dir) (vc : Fin 3),
      let p := portOf s port
      let kept := dropAcked f.ack.toNat p.replay
      (accepts s port 0x02 0 f → f.vc = 0 → p.probe = none → p.retrySeq ≠ (f.ack.toNat + 1) % 4096 →
        ∃ t, exec (.retry port f) s = .next t ∧ t.out = s.out ++ kept.map (fun x => .flit port.val x.1) ∧ (portOf t port).replay = kept
          ∧ (portOf t port).retries = 1 ∧ (portOf t port).txSeq = p.txSeq)
      ∧ (p.up = true → ∃ t, exec (.retryLimit port) s = .next t ∧ (portOf t port).retraining = true ∧ (portOf t port).retries = 0
          ∧ (portOf t port).credits = Vector.replicate 8 64 ∧ (portOf t port).replay = p.replay ∧ (portOf t port).queue = p.queue
          ∧ (portOf t port).txE = Vector.replicate 3 ExpState.reset)
      ∧ (p.retraining = true → (∃ t, exec (.linkRetrainSuccess port) s = .next t ∧ (portOf t port).retraining = false ∧ (portOf t port).proof = true
          ∧ (portOf t port).replay.map (·.1.seq) = p.replay.map (·.1.seq) ∧ t.out.length = s.out.length + p.replay.length)
        ∧ (∃ t, exec (.retrainTimeout port) s = .next t ∧ (portOf t port).up = false ∧ (portOf t port).retraining = false))
      ∧ (∃ t, exec (.exponentCountHalve port dir vc) s = .next t
          ∧ (dir = .tx → ((portOf t port).txE)[vc] = (p.txE[vc]).settled ∧ (portOf t port).rxE = p.rxE)
          ∧ (dir = .rx → ((portOf t port).rxE)[vc] = (p.rxE[vc]).settled ∧ (portOf t port).txE = p.txE)))
  ∧ (∀ (t : List Nat) (vals : List Word) (rest : List Bool), t.length ≤ 16 →
      decodeValues t vals.length (vals.flatMap (codeValue t) ++ rest) = vals
      ∧ (∀ w, decodeValue t (codeValue t w ++ rest) = (w, rest)))

/-- R33, R39 to R45: what an accepted collective flit does once its buffer's credit has been returned: one that is malformed in its operation fields is counted; what comes
down goes on to the children and, where the operation is not over at this device, to its destination; arrivals, contributions and ABORT act on the
operation. A contribution of an operation that is over here or has been aborted is discarded (the model's log entries 42 and 77).
R41: the last arrival at a barrier sends one BARUP to the parent, and an earlier one sends nothing. -/
def Obligations.CollectiveFlitsAndBarriers : Prop :=
  (∀ (s : State) (port : Fin 18) (f : Flit),
      let g := f.group.toNat
      let n := f.opn.toNat
      let after := fun (type vc : Nat) => returnCredit (accepted s port type vc f) port f.vc
      let ready := fun (type vc : Nat) => accepts s port type vc f ∧ opBad s f = false
      let bad := fun (type vc : Nat) => accepts s port type vc f ∧ opBad s f = true
      let isOver := fun (type vc : Nat) => staleOp (after type vc) g n
      let counted := fun (t : State) => modFPort t port (fun p => { p with malformed := p.malformed + 1 })
      let vals := flitVals s port f
      let passed := fun (t : State) =>
        let u := copyDown t (groupOf t g) f vals
        if staleOp t g n then u else cameDown u g n (flitWords f vals) f.last
      (ready 0x10 1 → exec (.mcast port f) s = .next (passed (after 0x10 1)))
      ∧ (ready 0x12 3 → exec (.reddn port f) s = .next (drainBuffers (passed (after 0x12 3))))
      ∧ (ready 0x13 4 → isOver 0x13 4 = false → (opOf (after 0x13 4) g n).aborted = false →
          exec (.barup port f) s = .next (barArrive (after 0x13 4) g n (some port.val)))
      ∧ (ready 0x13 4 → isOver 0x13 4 = true ∨ (opOf (after 0x13 4) g n).aborted = true → exec (.barup port f) s = .next (after 0x13 4))
      ∧ (ready 0x14 4 → exec (.bardn port f) s = .next (barDown (after 0x14 4) (groupOf (after 0x14 4) g) g n (isOver 0x14 4)))
      ∧ (ready 0x15 4 → exec (.abort port f) s = .next (drainBuffers (abortOp (after 0x15 4) g n (some port.val))))
      ∧ (bad 0x10 1 → exec (.mcast port f) s = .next (counted (after 0x10 1)))
      ∧ (bad 0x12 3 → exec (.reddn port f) s = .next (counted (after 0x12 3)))
      ∧ (bad 0x13 4 → exec (.barup port f) s = .next (counted (after 0x13 4)))
      ∧ (bad 0x14 4 → exec (.bardn port f) s = .next (counted (after 0x14 4)))
      ∧ (bad 0x15 4 → exec (.abort port f) s = .next (counted (after 0x15 4)))
      ∧ (bad 0x11 2 → exec (.redup port f) s = .next (returnCredit (counted (accepted s port 0x11 2 f)) port f.vc))
      ∧ (let a := accepted s port 0x11 2 f
         ready 0x11 2 →
          (staleOp a g n = true → exec (.redup port f) s = .next (returnCredit a port f.vc))
          ∧ (staleOp a g n = false → mayOpen a g n = true →
              exec (.redup port f) s = .next (drainBuffers (redupArrives (returnCredit a port f.vc) port.val f vals)))
          ∧ (staleOp a g n = false → mayOpen a g n = false →
              exec (.redup port f) s = .next (modFPort a port (fun p => { p with vcBuf := p.vcBuf ++ [(f, vals)] })))))
  ∧ (∀ (s : State) (g n : Nat) (who : Option Nat) (q : Fin 18),
      let w := groupOf s g
      let o := opOf s g n
      let all := o.arrived ++ [who]
      let full := (∀ i ∈ grpKids w, some i ∈ all) ∧ (grpLocal w = true → none ∈ all)
      who ∉ o.arrived → grpParent w < 18 →
      (full → ∃ f, (portOf (barArrive s g n who) q).queue = (portOf s q).queue ++ (if q.val = grpParent w then [f] else [])
          ∧ f.f.type = 0x13 ∧ f.f.vc = 4 ∧ f.f.group.toNat = g % 65536 ∧ f.f.opn.toNat = n % 65536 ∧ f.f.dst = grpRoot w)
      ∧ (¬ full → portOf (barArrive s g n who) q = portOf s q))

/-- R39, R45, R315, R316, R320: a group entry is written when no operation of the group is outstanding, at the engines or in the flits that ports have
still to send, and waits while one is; a timeout ends the operation and fails the local command; an engine command
completes.
R315 to R318, R320, R321, R225, R226: what a gather, transform, collective or stirrup command does when it can go on. A gather writes the rows that the words of
its tile name; a transform the block's result, to memory or to the core's private buffer; a collective that has its words ends, one whose operation was aborted or whose tree
lost a port fails, and one that begins sends its words, arrives or contributes; `stir.qk` loads its lanes, `stir.pv` runs them over the positions, `stir.get` writes them out.
That a command moves all its data in the step of its completion is the model's choice (log entry 29), and when an operation is over at a node that has no command of its own its
reading (42); that a page-set read translates afresh is its choice (94). Collectives of MXFP8 and of opaque payloads are left out here. -/
def Obligations.GroupsTimeoutsEngines : Prop :=
  (∀ (s : State) (grp : BitVec 10) (n : BitVec 16) (word : DWord) (id : Nat) (r : Running) (g : Graph) (a b : DWord) (len : Nat),
      (groupBusy s grp.toNat = true → exec (.groupTableWrite grp word) s = .next (waitGroupWrite s grp word))
      ∧ ((∀ o ∈ s.collOps, o.group ≠ grp.toNat) → (∀ e ∈ s.engines, ∀ c, e.cmd.coll = some c → c.1 ≠ grp.toNat) →
        (∀ i : Fin 18, ∀ q ∈ (portOf s i).queue, ¬ (0x10 ≤ q.f.type.toNat ∧ q.f.type.toNat ≤ 0x15 ∧ q.f.group.toNat = grp.toNat)) →
        ∃ t, exec (.groupTableWrite grp word) s = .next t ∧ groupOf t grp.toNat = word &&& 0x8FFFFFFCFFFFFF00 ∧ tget 0 t.opn grp.toNat = 0 ∧ t.cores = s.cores)
      ∧ (localCmd s grp.toNat n.toNat = none →
          exec (.collectiveTimeout grp n) s = .next (drainBuffers (dropOp (dropParts s grp.toNat n.toNat) grp.toNat n.toNat)))
      ∧ (localCmd s grp.toNat n.toNat = some r → exec (.collectiveTimeout grp n) s =
          .next (drainBuffers (dropOp (dropParts (failCommand s r (collInfo grp.toNat n.toNat)) grp.toNat n.toNat) grp.toNat n.toNat)))
      ∧ (s.engines.find? (fun r => r.id = id) = some r → graphOf s r.part r.slot = some g → windowWaits s r = false → chainWaits s r = false →
          r.cmd = .copy a b len →
          exec (.engineCommandComplete id) s = .next (moveRegion (modRunning s r.id (fun r => { r with blocked := false })) r g a b (8 * len) execEngineCommandComplete.id')))
  ∧ (∀ (s u : State) (id : Nat) (r : Running) (g : Graph) (l : List Byte),
      let t := modRunning s r.id (fun r => { r with blocked := false })
      let v := viaOf t r g
      let goes := fun (u : State) => exec (.engineCommandComplete id) s = .next u
      let writes := fun (u : State) (b : DWord) (l : List Byte) => writeRegion u r.part v r.core r.id g (regionOf b) 0 l
      let begun := fun (u : State) => modRunning u r.id (fun r => { r with sent := true })
      let down := fun (grp n : Nat) => (opOf t grp n).aborted = true ∨ ∃ i ∈ grpPorts (groupOf t grp), (portOf t (Fin.ofNat 18 i)).up = false
      s.engines.find? (fun r => r.id = id) = some r → graphOf s r.part r.slot = some g → windowWaits s r = false → chainWaits s r = false →
      (∀ a b c n rb tid x y mt line tn, r.cmd = .gather a b c n rb → regionOf a = .tensor tid x y → regionOf c = .tile mt line → tensorOf g tid = some tn →
          let idx := (wordsOf n ((upTo (4 * n)).map (tileByte (coreOf t (coreNo r.core)) mt.val line))).map (·.toNat)
          gatherRows r.part v r.core tn r.seen rb idx t = (u, l, none) → goes (finishWith (writes u b l) r))
      ∧ (∀ sel a b n c x, r.cmd = .xf sel (some a) (some b) n c x → readRegion t r.part v r.core g r.seen (regionOf a) (8 * n) = .ok (u, l) →
          (writes u b (xfBytes sel c x l)).stop = none → goes (finishCommand (writes u b (xfBytes sel c x l)).s r))
      ∧ (∀ sel a n c x, r.cmd = .xf sel (some a) none n c x → readRegion t r.part v r.core g r.seen (regionOf a) (8 * n) = .ok (u, l) →
          goes (finishCommand { u with xfBuf := tput u.xfBuf r.core { link := true, bytes := xfBytes sel c x l ++ (xfOf t r.core).bytes.drop (xfBytes sel c x l).length } } r))
      ∧ (∀ grp n, r.cmd.coll = some (grp, n) →
          (r.fin = true → goes (finishCommand t r))
          ∧ (r.fin = false → down grp n → goes (drainBuffers (endOp t grp n)))
          ∧ (r.fin = false → ¬ down grp n → r.sent = true → goes (drainBuffers (deliver t grp n)))
          ∧ (r.fin = false → ¬ down grp n → r.sent = false →
            (r.cmd = .bar grp n → goes (deliver (barArrive (begun t) grp n none) grp n))
            ∧ (∀ a b k pf cls, r.cmd = .mc a b k pf cls grp n →
              (grpIsRoot (groupOf t grp) = false → goes (deliver (begun t) grp n))
              ∧ (∀ ws, grpIsRoot (groupOf t grp) = true → pf = 0 → collSource t r g (a.getD 0) k = .ok (u, ws) →
                  let w := groupOf t grp
                  let sent := (grpKids w).foldl (fun s i => sendValues s i 1 0x10 (grpRoot w) grp n 0 true ws) u
                  goes (cameDown (begun sent) grp n ws true)))
            ∧ (∀ rop a b k pf cls d, r.cmd = .red rop a b k pf cls grp d n →
              (openWaits t grp n = true → goes t)
              ∧ (∀ ws, openWaits t grp n = false → pf = 0 → collSource t r g a k = .ok (u, ws) →
                  let own : Contrib := { port := none, rop := ropCode rop, pfmt := 0, frags := [], vals := ws }
                  goes (drainBuffers (deliver (reduceGo (putOp (begun u) { opOf u grp n with own := some own }) grp n) grp n))))))
      ∧ (∀ kf a b c l0 nl ko vo, r.cmd = .qk kf a b c l0 nl ko vo → readRegion t r.part v r.core g r.seen (regionOf a) (512 * nl) = .ok (u, l) →
          ∃ w, goes (finishCommand w r) ∧ ∀ j < nl, let x := stirOf w r.core (l0 + j)
            x.owner = (stirOf s r.core (l0 + j)).owner ∧ x.j = j ∧ x.kf = kf ∧ x.q = ((wordsOf (128 * nl) l).drop (128 * j)).take 128 ∧ x.sc = lowW c ∧ x.seq = bitsN b 52 12
            ∧ x.gk = bitsN b 46 6 ∧ x.gv = bitsN b 40 6 ∧ x.ko = ko ∧ x.vo = vo ∧ x.m = negInf ∧ x.sum = 0 ∧ x.o = List.replicate 128 0)
      ∧ (∀ a b l0 nl, r.cmd = .pv a b l0 nl →
          (∀ w, strangeLane t r l0 nl = none → stirLanes v r (bitsN a 0 48) (bitsN b 0 48) ((upTo nl).map (fun i => l0 + i)) t = .ok w → goes (finishCommand w r))
          ∧ (∀ k, strangeLane t r l0 nl = some k → goes (failCommand t r k)))
      ∧ (∀ b l0 nl, r.cmd = .get b l0 nl →
          (strangeLane t r l0 nl = none → goes (finishWith (writes t b ((upTo nl).flatMap (fun j => let x := stirOf t r.core (l0 + j)
              bytesOf (x.m :: x.sum :: (x.o ++ List.replicate 128 0).take 128)))) r))
          ∧ (∀ k, strangeLane t r l0 nl = some k → goes (failCommand t r k))))

/-! ### Encoding, the step, the memory -/

/-- R255 to R264, R57: words written out from the manual's encodings decode to the steps that they stand for. -/
def Obligations.DecodesSpecWords : Prop :=
  let v := fun (n : Fin 32) => ({ src := .v n, cls := .plain, neg := false } : Opnd)
  decodeEntry false 0x00C0186080056000 none = .ok (.fmadF32 (.v 3) (v 1) { src := .nW, cls := .plain, neg := false })
  ∧ decodeEntry false 0x0110008196340002 none
      = .ok (.faddF32 (.v 4) { src := .v 3, cls := .rot 3 3, neg := false } { src := .s 0, cls := .plain, neg := true })
  ∧ decodeEntry false 0x01637A40A0000000 none = .ok (.pblk 2 2 5)
  ∧ decodeEntry false 0x014390A200005000 none = .ok (.redAdd .f32 2 true (.v 5) (v 4))
  ∧ decodeEntry false 0x0003082000000002 none = .ok (.movi (.v 1) 1)
  ∧ decodeEntry false 0x0054000080004000 none = .ok (.hadd (v 1) (v 2))
  ∧ decodeEntry false 0x0064306080000000 none = .ok (.hldI false (.v 3) (v 1))
  ∧ decodeEntry true 0x00C6900000000012 none = .ok (.sstep 9)
  ∧ decodeEntry true 0xFFF6A88280004000 none = .ok (.copy (.c 4) (.c 5) 8192)
  ∧ decodeEntry true 0xFFF6A00000000000 none = .ok .drainMt
  ∧ decodeEntry true 0xFFF5002080000003 none = .ok (.seqAdd (.c 1) (.c 1) (.imm 1))
  ∧ decodeEntry true 0xFFF5484000000006 none = .ok (.li (.c 2) 3)
  ∧ decodeEntry true 0xFFF5802118000004 none = .ok (.br .ltu (.c 1) (.c 2) 2)
  ∧ decodeEntry true 0xFFF5C80188000000 none = .ok (.post (.c 3) (.c 4))
  ∧ decodeEntry true 0xFFF6080000000000 none = .ok .yld
  ∧ decodePacket 0x0001000200010002 0 0 1 = .ok (.demand 1 2 0 0 true 0 0 1)
  ∧ decodePacket 0x000000010004000A 0 0 0 = .ok (.fenceh 4 true)

/-- R255 to R264, R31, R57: the decoder reads every well-formed list entry at every stamp, every well-formed packet and every
well-formed flit back from its encoding, with every operand: no bit of an encoding is dropped. Every packet has four words, every flit its bytes. -/
def Obligations.DecodeOfEncode : Prop :=
  ∀ (i : Instr), i.wf = true →
    (∀ stamp : BitVec 12, i.isElem = true ∨ i.isSeq = true →
      decodeEntry i.isSeq ((encode stamp i).headD 0) (encode stamp i)[1]? = .ok i)
    ∧ (∀ ws, encodePacket i = some ws →
      decodePacket (ws.headD 0) ((ws.drop 1).headD 0) ((ws.drop 2).headD 0) ((ws.drop 3).headD 0) = .ok i)
    ∧ (∀ f, encodeFlit i = some f → ∃ port : Fin 18, decodeFlit port f.bytes = .ok i)
    ∧ (match i with
      | .nop _ | .loadg _ _ _ _ _ | .demand _ _ _ _ _ _ _ _ | .waits _ _ _ _ _ | .signal _ _ _ _ _ | .phase _ _ | .branch _ _ _ _ _ _ _ _
      | .cancel _ _ _ _ _ | .quota _ _ _ | .timestamp _ _ | .fenceh _ _ => ∃ a b c d, encodePacket i = some [a, b, c, d]
      | .idle _ f | .credit _ f | .retry _ f | .mcast _ f | .redup _ f | .reddn _ f | .barup _ f | .bardn _ f | .abort _ f | .flitCopy _ f =>
        encodeFlit i = some f
      | _ => True)

/-- R200, R256, R349, R55, R68, R21: one step runs what its move names: what has to happen at once, else the entry of the first agent of the
cycle that has not fired, the section entry, the packet at RP (one that has ended with an event still to be written waits for that), or the input
that waits, where the device may act on it. A word that an entry reads and its residue does not fit is checked in the same cycle, at once after it
(R205). That urgent work comes first, and
that `choose` names every other move, is the model's choice (log entry 4). -/
def Obligations.StepRunsTheDecodedInstruction : Prop :=
  ∀ (s : State),
    (∀ i rest, s.urgent = i :: rest → s.hitch = false → step s = exec i { s with urgent := rest })
    ∧ (s.urgent = [] →
      let t := (choose s).2
      (∀ p slot g a rest i, (choose s).1 = .graph p slot → graphOf t p slot = some g → g.run = .round → g.todo = a :: rest →
        entryAt (!decide (a.elem < 96)) (agentList t a).1 (agentList t a).2 = .ok i →
          (entryCheck t a (.ok i) = none → step s = exec i (agentState t p slot a rest))
          ∧ (∀ c u, entryCheck t a (.ok i) = some c → exec i (agentState t p slot a rest) = .next u → step s = .next (addUrgent u c)))
      ∧ (∀ p slot core i, (choose s).1 = .sect p slot core →
          (coreOf t (coreNo core)).secLi < (coreOf t (coreNo core)).seqList.length → (coreOf t (coreNo core)).secCount + 1 < 65536 →
          entryAt true (coreOf t (coreNo core)).seqList (coreOf t (coreNo core)).secLi = .ok i →
          step s = afterSection p slot (exec i (sectionState t p slot core)))
      ∧ (∀ vf n i, (choose s).1 = .stream vf n → (streamOf t vf n).stage ≠ 4 → packetAt t vf n = .ok i → step s = exec i (packetState t vf n))
      ∧ (∀ vf n, (choose s).1 = .stream vf n → (streamOf t vf n).stage = 4 → step s = .next (haltWritten (packetState t vf n)))
      ∧ (∀ i rest, (choose s).1 = .inbox → t.inbox = i :: rest → inputActs t i = true → step s = exec i { t with inbox := rest })
      ∧ (∀ i rest, (choose s).1 = .inbox → t.inbox = i :: rest → inputActs t i = false → step s = .next { t with inbox := rest })
      ∧ (∀ i rest, (choose s).1 = .task → t.tasks = i :: rest → step s = exec i { t with tasks := rest }))

/-- THE BYTE MEMORIES KEEP THEIR CANONICAL FORM through every step (R4, R185): the addresses of the listed bytes rise, and no byte is
listed that reads as an unlisted one, so that equal memories are equal data. -/
def Obligations.MemoryStaysCanonical : Prop :=
  ∀ (s t : State), memCanon s → step s = .next t → memCanon t

end
end

