-- ==== Sys2Proof/Laws/Elem.lean ====
section
/-! SUPPORT. What the frames of the element entries do, said once: each lane operation puts one result in flight. -/

namespace Sys2Proof.Laws

open Sys2Proof.Machine Sys2Proof.Safety

theorem elemGo_of {s : State} {e : Fin 96} (h : s.cur.elem = e.val) (f : EView → EOut) :
    elemGo s f = elemEnd (elemView s e) (f (elemView s e)) := by
  have h2 : s.cur.elem < 96 := h ▸ e.isLt
  have : (⟨s.cur.elem, h2⟩ : Fin 96) = e := Fin.ext h
  simp only [elemGo, h2, dite_true, this]

@[simp] theorem elemView_s (s : State) (e : Fin 96) : (elemView s e).s = s := rfl
@[simp] theorem elemView_k (s : State) (e : Fin 96) : (elemView s e).k = curCore s := rfl
@[simp] theorem elemView_e (s : State) (e : Fin 96) : (elemView s e).e = e := rfl
@[simp] theorem elemView_rc (s : State) (e : Fin 96) : (elemView s e).rc = curRc s := rfl

/-- An entry that neither buffers nor faults changes its element's registers alone. -/
theorem elemEnd_regs (s : State) (e : Fin 96) (f : ElemRegs → ElemRegs) :
    elemEnd (elemView s e) (.ok (f (elemView s e).r)) = elemGets s e f := by
  simp [elemEnd, EOut.ok, elemGets, onCore, modCurCore, modCore, elemView, putElem, curCore]

theorem elemEnd_bad (s : State) (e : Fin 96) (i : FaultInfo) : elemEnd (elemView s e) (.bad (elemView s e) i) = faultElem s i := rfl

theorem tab_ext {f g : Fin 32 → Word} (h : ∀ i, f i = g i) : Lanes.tab f = Lanes.tab g := congrArg _ (funext h)

/-- Lane results with their flags, as an entry's effect. -/
theorem ok_lands (s : State) (e : Fin 96) (lat : Nat) (d : Dst) (f : Fin 32 → Word × Flags) (sub : Bool) :
    elemEnd (elemView s e) (.ok (pushV (elemView s e) lat d (Lanes.tab (fun i => (Vector.ofFn f)[i].1))
      (addIxz (addFlags (elemView s e).r (laneFlags (elemView s e).en (Vector.ofFn f))) sub)))
    = lands s e lat d (fun i => (f i).1) (flagsOver s e (fun i => (f i).2)) sub := by
  have h := elemEnd_regs s e (fun r => pushV (elemView s e) lat d (Lanes.tab (fun i => (Vector.ofFn f)[i].1))
      (addIxz (addFlags r (laneFlags (elemView s e).en (Vector.ofFn f))) sub))
  rw [show elemEnd (elemView s e) (.ok (pushV (elemView s e) lat d (Lanes.tab (fun i => (Vector.ofFn f)[i].1))
      (addIxz (addFlags (elemView s e).r (laneFlags (elemView s e).en (Vector.ofFn f))) sub))) = _ from h]
  simp [lands, landsAt, pushV, push, addIxz, addFlags, laneFlags, flagsOver, Fin.getElem_fin]

theorem flagsOver_zero (s : State) (e : Fin 96) : flagsOver s e (fun _ => 0) = 0 := by
  simp only [flagsOver]
  generalize List.finRange 32 = l
  induction l with
  | nil => rfl
  | cons a l ih => simp

theorem lane1_lands {s : State} {e : Fin 96} (h : s.cur.elem = e.val) (t : NegTy) (lat : Nat) (d : Dst) (a : Opnd)
    (f : Word → Word × Flags) (hb : firstBad [opnd s e t a] = none) :
    lane1 t lat d a f s = lands s e (lat + modLat a) d (fun i => (f (opnd s e t a).val[i]).1)
      (flagsOver s e (fun i => (f (opnd s e t a).val[i]).2)) (opnd s e t a).ixz := by
  rw [lane1, elemGo_of h]
  simp only [opnd] at hb ⊢
  simp only [hb]
  exact ok_lands s e _ d (fun i => f (opnd s e t a).val[i]) _

theorem lane2_lands {s : State} {e : Fin 96} (h : s.cur.elem = e.val) (ta tb : NegTy) (lat : Nat) (d : Dst) (a b : Opnd)
    (f : Word → Word → Word × Flags) (hb : firstBad [opnd s e ta a, opnd s e tb b] = none) :
    lane2 ta tb lat d a b f s = lands s e (lat + max (modLat a) (modLat b)) d
      (fun i => (f (opnd s e ta a).val[i] (opnd s e tb b).val[i]).1)
      (flagsOver s e (fun i => (f (opnd s e ta a).val[i] (opnd s e tb b).val[i]).2))
      ((opnd s e ta a).ixz || (opnd s e tb b).ixz) := by
  rw [lane2, elemGo_of h]
  simp only [opnd] at hb ⊢
  simp only [hb]
  exact ok_lands s e _ d (fun i => f (opnd s e ta a).val[i] (opnd s e tb b).val[i]) _

theorem lane3_lands {s : State} {e : Fin 96} (h : s.cur.elem = e.val) (t : NegTy) (lat : Nat) (d : Dst) (a b : Opnd)
    (f : Word → Word → Word → Word × Flags) (hb : firstBad [opnd s e t a, opnd s e t b] = none) :
    lane3 t lat d a b f s = lands s e (lat + max (modLat a) (modLat b)) d
      (fun i => (f (opnd s e t a).val[i] (opnd s e t b).val[i] (dstVal (elemView s e) d)[i]).1)
      (flagsOver s e (fun i => (f (opnd s e t a).val[i] (opnd s e t b).val[i] (dstVal (elemView s e) d)[i]).2))
      ((opnd s e t a).ixz || (opnd s e t b).ixz) := by
  rw [lane3, elemGo_of h]
  simp only [opnd] at hb ⊢
  simp only [hb]
  exact ok_lands s e _ d (fun i => f (opnd s e t a).val[i] (opnd s e t b).val[i] (dstVal (elemView s e) d)[i]) _

/-- One result in flight, without flags. -/
theorem push_lands (s : State) (e : Fin 96) (lat : Nat) (p : PDst) (val : Lanes) :
    elemEnd (elemView s e) (.ok (push (elemView s e) lat p val val (elemView s e).r)) = landsAt s e lat p val 0 false := by
  have h := elemEnd_regs s e (fun r => push (elemView s e) lat p val val r)
  rw [show elemEnd (elemView s e) (.ok (push (elemView s e) lat p val val (elemView s e).r)) = _ from h]
  simp [landsAt, push]

/-- One result in flight with flags. -/
theorem push_lands_flags (s : State) (e : Fin 96) (lat : Nat) (p : PDst) (val : Lanes) (fl : Flags) (sub : Bool) :
    elemEnd (elemView s e) (.ok (push (elemView s e) lat p val val (addIxz (addFlags (elemView s e).r fl) sub)))
      = landsAt s e lat p val fl sub := by
  have h := elemEnd_regs s e (fun r => push (elemView s e) lat p val val (addIxz (addFlags r fl) sub))
  rw [show elemEnd (elemView s e) (.ok (push (elemView s e) lat p val val (addIxz (addFlags (elemView s e).r fl) sub))) = _ from h]
  simp [landsAt, push, addIxz, addFlags]

theorem cross1_lands {s : State} {e : Fin 96} (h : s.cur.elem = e.val) (t : NegTy) (lat : Nat) (d : Dst) (a : Opnd)
    (f : Lanes → Lanes × Flags) (hb : firstBad [opndAll s e t a] = none) :
    cross1 t lat d a f s = landsAt s e (lat + modLat a) (dstPlace (elemView s e) 0 d) (f (opndAll s e t a).val).1
      (if (elemView s e).en = 0 then 0 else (f (opndAll s e t a).val).2) (opndAll s e t a).ixz := by
  rw [cross1, elemGo_of h]
  simp only [opndAll] at hb ⊢
  simp only [hb]
  exact push_lands_flags ..

theorem cross2_lands {s : State} {e : Fin 96} (h : s.cur.elem = e.val) (lat : Nat) (d : Dst) (a b : Opnd)
    (f : Lanes → Lanes → Lanes) :
    cross2 lat d a b f s = landsAt s e (lat + max (modLat a) (modLat b)) (dstPlace (elemView s e) 0 d)
      (f (opndAll s e .keep a).val (opndAll s e .keep b).val) 0 false := by
  rw [cross2, elemGo_of h]
  exact push_lands ..

theorem predGo_lands {s : State} {e : Fin 96} (h : s.cur.elem = e.val) (d : Dst) (f : ElemRegs → Word) :
    predGo d f s = lands s e 2 d (fun i => if (f (elemView s e).r).getLsbD i.val then 1 else 0) 0 false := by
  rw [predGo, elemGo_of h]
  exact push_lands ..

end Sys2Proof.Laws
end

