-- ==== Sys2Proof/Laws/State.lean ====
section
/-! SUPPORT. One lemma per field of the state for each of its named updates: what the update makes of the field. -/

namespace Sys2Proof.Laws

open Sys2Proof.Machine

/-! ### putCore -/

@[simp] theorem putCore_pwrGood (s : State) (c : Fin 64) (k : Core) : (putCore s c k).pwrGood = s.pwrGood := rfl
@[simp] theorem putCore_sysRstN (s : State) (c : Fin 64) (k : Core) : (putCore s c k).sysRstN = s.sysRstN := rfl
@[simp] theorem putCore_perstN (s : State) (c : Fin 64) (k : Core) : (putCore s c k).perstN = s.perstN := rfl
@[simp] theorem putCore_boot (s : State) (c : Fin 64) (k : Core) : (putCore s c k).boot = s.boot := rfl
@[simp] theorem putCore_status (s : State) (c : Fin 64) (k : Core) : (putCore s c k).status = s.status := rfl
@[simp] theorem putCore_pll (s : State) (c : Fin 64) (k : Core) : (putCore s c k).pll = s.pll := rfl
@[simp] theorem putCore_fc (s : State) (c : Fin 64) (k : Core) : (putCore s c k).fc = s.fc := rfl
@[simp] theorem putCore_clk (s : State) (c : Fin 64) (k : Core) : (putCore s c k).clk = s.clk := rfl
@[simp] theorem putCore_fwHash (s : State) (c : Fin 64) (k : Core) : (putCore s c k).fwHash = s.fwHash := rfl
@[simp] theorem putCore_cfgNormal (s : State) (c : Fin 64) (k : Core) : (putCore s c k).cfgNormal = s.cfgNormal := rfl
@[simp] theorem putCore_hostLink (s : State) (c : Fin 64) (k : Core) : (putCore s c k).hostLink = s.hostLink := rfl
@[simp] theorem putCore_fdtCount (s : State) (c : Fin 64) (k : Core) : (putCore s c k).fdtCount = s.fdtCount := rfl
@[simp] theorem putCore_thermTrip (s : State) (c : Fin 64) (k : Core) : (putCore s c k).thermTrip = s.thermTrip := rfl
@[simp] theorem putCore_powerCap (s : State) (c : Fin 64) (k : Core) : (putCore s c k).powerCap = s.powerCap := rfl
@[simp] theorem putCore_deviceId (s : State) (c : Fin 64) (k : Core) : (putCore s c k).deviceId = s.deviceId := rfl
@[simp] theorem putCore_hitch (s : State) (c : Fin 64) (k : Core) : (putCore s c k).hitch = s.hitch := rfl
@[simp] theorem putCore_hitchArm (s : State) (c : Fin 64) (k : Core) : (putCore s c k).hitchArm = s.hitchArm := rfl
@[simp] theorem putCore_fuse (s : State) (c : Fin 64) (k : Core) : (putCore s c k).fuse = s.fuse := rfl
@[simp] theorem putCore_unlocked (s : State) (c : Fin 64) (k : Core) : (putCore s c k).unlocked = s.unlocked := rfl
@[simp] theorem putCore_caps (s : State) (c : Fin 64) (k : Core) : (putCore s c k).caps = s.caps := rfl
@[simp] theorem putCore_arbs (s : State) (c : Fin 64) (k : Core) : (putCore s c k).arbs = s.arbs := rfl
@[simp] theorem putCore_loads (s : State) (c : Fin 64) (k : Core) : (putCore s c k).loads = s.loads := rfl
@[simp] theorem putCore_arbBusy (s : State) (c : Fin 64) (k : Core) : (putCore s c k).arbBusy = s.arbBusy := rfl
@[simp] theorem putCore_vfs (s : State) (c : Fin 64) (k : Core) : (putCore s c k).vfs = s.vfs := rfl
@[simp] theorem putCore_windows (s : State) (c : Fin 64) (k : Core) : (putCore s c k).windows = s.windows := rfl
@[simp] theorem putCore_hostLines (s : State) (c : Fin 64) (k : Core) : (putCore s c k).hostLines = s.hostLines := rfl
@[simp] theorem putCore_hostMem (s : State) (c : Fin 64) (k : Core) : (putCore s c k).hostMem = s.hostMem := rfl
@[simp] theorem putCore_poolUp (s : State) (c : Fin 64) (k : Core) : (putCore s c k).poolUp = s.poolUp := rfl
@[simp] theorem putCore_extents (s : State) (c : Fin 64) (k : Core) : (putCore s c k).extents = s.extents := rfl
@[simp] theorem putCore_fetching (s : State) (c : Fin 64) (k : Core) : (putCore s c k).fetching = s.fetching := rfl
@[simp] theorem putCore_ports (s : State) (c : Fin 64) (k : Core) : (putCore s c k).ports = s.ports := rfl
@[simp] theorem putCore_groups (s : State) (c : Fin 64) (k : Core) : (putCore s c k).groups = s.groups := rfl
@[simp] theorem putCore_opn (s : State) (c : Fin 64) (k : Core) : (putCore s c k).opn = s.opn := rfl
@[simp] theorem putCore_collOps (s : State) (c : Fin 64) (k : Core) : (putCore s c k).collOps = s.collOps := rfl
@[simp] theorem putCore_collTimeout (s : State) (c : Fin 64) (k : Core) : (putCore s c k).collTimeout = s.collTimeout := rfl
@[simp] theorem putCore_mem (s : State) (c : Fin 64) (k : Core) : (putCore s c k).mem = s.mem := rfl
@[simp] theorem putCore_pend (s : State) (c : Fin 64) (k : Core) : (putCore s c k).pend = s.pend := rfl
@[simp] theorem putCore_frames (s : State) (c : Fin 64) (k : Core) : (putCore s c k).frames = s.frames := rfl
@[simp] theorem putCore_l2 (s : State) (c : Fin 64) (k : Core) : (putCore s c k).l2 = s.l2 := rfl
@[simp] theorem putCore_olim (s : State) (c : Fin 64) (k : Core) : (putCore s c k).olim = s.olim := rfl
@[simp] theorem putCore_mdt (s : State) (c : Fin 64) (k : Core) : (putCore s c k).mdt = s.mdt := rfl
@[simp] theorem putCore_stale (s : State) (c : Fin 64) (k : Core) : (putCore s c k).stale = s.stale := rfl
@[simp] theorem putCore_placed (s : State) (c : Fin 64) (k : Core) : (putCore s c k).placed = s.placed := rfl
@[simp] theorem putCore_mdtBad (s : State) (c : Fin 64) (k : Core) : (putCore s c k).mdtBad = s.mdtBad := rfl
@[simp] theorem putCore_mdtHeld (s : State) (c : Fin 64) (k : Core) : (putCore s c k).mdtHeld = s.mdtHeld := rfl
@[simp] theorem putCore_lostMem (s : State) (c : Fin 64) (k : Core) : (putCore s c k).lostMem = s.lostMem := rfl
@[simp] theorem putCore_tableBase (s : State) (c : Fin 64) (k : Core) : (putCore s c k).tableBase = s.tableBase := rfl
@[simp] theorem putCore_fwd (s : State) (c : Fin 64) (k : Core) : (putCore s c k).fwd = s.fwd := rfl
@[simp] theorem putCore_tokens (s : State) (c : Fin 64) (k : Core) : (putCore s c k).tokens = s.tokens := rfl
@[simp] theorem putCore_reclaim (s : State) (c : Fin 64) (k : Core) : (putCore s c k).reclaim = s.reclaim := rfl
@[simp] theorem putCore_tlb (s : State) (c : Fin 64) (k : Core) : (putCore s c k).tlb = s.tlb := rfl
@[simp] theorem putCore_hide (s : State) (c : Fin 64) (k : Core) : (putCore s c k).hide = s.hide := rfl
@[simp] theorem putCore_prefixes (s : State) (c : Fin 64) (k : Core) : (putCore s c k).prefixes = s.prefixes := rfl
@[simp] theorem putCore_pommel (s : State) (c : Fin 64) (k : Core) : (putCore s c k).pommel = s.pommel := rfl
@[simp] theorem putCore_allocs (s : State) (c : Fin 64) (k : Core) : (putCore s c k).allocs = s.allocs := rfl
@[simp] theorem putCore_engines (s : State) (c : Fin 64) (k : Core) : (putCore s c k).engines = s.engines := rfl
@[simp] theorem putCore_cmdSeq (s : State) (c : Fin 64) (k : Core) : (putCore s c k).cmdSeq = s.cmdSeq := rfl
@[simp] theorem putCore_xfBuf (s : State) (c : Fin 64) (k : Core) : (putCore s c k).xfBuf = s.xfBuf := rfl
@[simp] theorem putCore_stir (s : State) (c : Fin 64) (k : Core) : (putCore s c k).stir = s.stir := rfl
@[simp] theorem putCore_parts (s : State) (c : Fin 64) (k : Core) : (putCore s c k).parts = s.parts := rfl
@[simp] theorem putCore_cores (s : State) (c : Fin 64) (k : Core) : (putCore s c k).cores = s.cores.set c k := rfl
@[simp] theorem putCore_cur (s : State) (c : Fin 64) (k : Core) : (putCore s c k).cur = s.cur := rfl
@[simp] theorem putCore_urgent (s : State) (c : Fin 64) (k : Core) : (putCore s c k).urgent = s.urgent := rfl
@[simp] theorem putCore_tasks (s : State) (c : Fin 64) (k : Core) : (putCore s c k).tasks = s.tasks := rfl
@[simp] theorem putCore_inbox (s : State) (c : Fin 64) (k : Core) : (putCore s c k).inbox = s.inbox := rfl
@[simp] theorem putCore_turn (s : State) (c : Fin 64) (k : Core) : (putCore s c k).turn = s.turn := rfl
@[simp] theorem putCore_rr (s : State) (c : Fin 64) (k : Core) : (putCore s c k).rr = s.rr := rfl
@[simp] theorem putCore_free (s : State) (c : Fin 64) (k : Core) : (putCore s c k).free = s.free := rfl
@[simp] theorem putCore_freeLat (s : State) (c : Fin 64) (k : Core) : (putCore s c k).freeLat = s.freeLat := rfl
@[simp] theorem putCore_freeGap (s : State) (c : Fin 64) (k : Core) : (putCore s c k).freeGap = s.freeGap := rfl
@[simp] theorem putCore_out (s : State) (c : Fin 64) (k : Core) : (putCore s c k).out = s.out := rfl

/-! ### modCore -/

@[simp] theorem modCore_pwrGood (s : State) (c : Fin 64) (f : Core → Core) : (modCore s c f).pwrGood = s.pwrGood := rfl
@[simp] theorem modCore_sysRstN (s : State) (c : Fin 64) (f : Core → Core) : (modCore s c f).sysRstN = s.sysRstN := rfl
@[simp] theorem modCore_perstN (s : State) (c : Fin 64) (f : Core → Core) : (modCore s c f).perstN = s.perstN := rfl
@[simp] theorem modCore_boot (s : State) (c : Fin 64) (f : Core → Core) : (modCore s c f).boot = s.boot := rfl
@[simp] theorem modCore_status (s : State) (c : Fin 64) (f : Core → Core) : (modCore s c f).status = s.status := rfl
@[simp] theorem modCore_pll (s : State) (c : Fin 64) (f : Core → Core) : (modCore s c f).pll = s.pll := rfl
@[simp] theorem modCore_fc (s : State) (c : Fin 64) (f : Core → Core) : (modCore s c f).fc = s.fc := rfl
@[simp] theorem modCore_clk (s : State) (c : Fin 64) (f : Core → Core) : (modCore s c f).clk = s.clk := rfl
@[simp] theorem modCore_fwHash (s : State) (c : Fin 64) (f : Core → Core) : (modCore s c f).fwHash = s.fwHash := rfl
@[simp] theorem modCore_cfgNormal (s : State) (c : Fin 64) (f : Core → Core) : (modCore s c f).cfgNormal = s.cfgNormal := rfl
@[simp] theorem modCore_hostLink (s : State) (c : Fin 64) (f : Core → Core) : (modCore s c f).hostLink = s.hostLink := rfl
@[simp] theorem modCore_fdtCount (s : State) (c : Fin 64) (f : Core → Core) : (modCore s c f).fdtCount = s.fdtCount := rfl
@[simp] theorem modCore_thermTrip (s : State) (c : Fin 64) (f : Core → Core) : (modCore s c f).thermTrip = s.thermTrip := rfl
@[simp] theorem modCore_powerCap (s : State) (c : Fin 64) (f : Core → Core) : (modCore s c f).powerCap = s.powerCap := rfl
@[simp] theorem modCore_deviceId (s : State) (c : Fin 64) (f : Core → Core) : (modCore s c f).deviceId = s.deviceId := rfl
@[simp] theorem modCore_hitch (s : State) (c : Fin 64) (f : Core → Core) : (modCore s c f).hitch = s.hitch := rfl
@[simp] theorem modCore_hitchArm (s : State) (c : Fin 64) (f : Core → Core) : (modCore s c f).hitchArm = s.hitchArm := rfl
@[simp] theorem modCore_fuse (s : State) (c : Fin 64) (f : Core → Core) : (modCore s c f).fuse = s.fuse := rfl
@[simp] theorem modCore_unlocked (s : State) (c : Fin 64) (f : Core → Core) : (modCore s c f).unlocked = s.unlocked := rfl
@[simp] theorem modCore_caps (s : State) (c : Fin 64) (f : Core → Core) : (modCore s c f).caps = s.caps := rfl
@[simp] theorem modCore_arbs (s : State) (c : Fin 64) (f : Core → Core) : (modCore s c f).arbs = s.arbs := rfl
@[simp] theorem modCore_loads (s : State) (c : Fin 64) (f : Core → Core) : (modCore s c f).loads = s.loads := rfl
@[simp] theorem modCore_arbBusy (s : State) (c : Fin 64) (f : Core → Core) : (modCore s c f).arbBusy = s.arbBusy := rfl
@[simp] theorem modCore_vfs (s : State) (c : Fin 64) (f : Core → Core) : (modCore s c f).vfs = s.vfs := rfl
@[simp] theorem modCore_windows (s : State) (c : Fin 64) (f : Core → Core) : (modCore s c f).windows = s.windows := rfl
@[simp] theorem modCore_hostLines (s : State) (c : Fin 64) (f : Core → Core) : (modCore s c f).hostLines = s.hostLines := rfl
@[simp] theorem modCore_hostMem (s : State) (c : Fin 64) (f : Core → Core) : (modCore s c f).hostMem = s.hostMem := rfl
@[simp] theorem modCore_poolUp (s : State) (c : Fin 64) (f : Core → Core) : (modCore s c f).poolUp = s.poolUp := rfl
@[simp] theorem modCore_extents (s : State) (c : Fin 64) (f : Core → Core) : (modCore s c f).extents = s.extents := rfl
@[simp] theorem modCore_fetching (s : State) (c : Fin 64) (f : Core → Core) : (modCore s c f).fetching = s.fetching := rfl
@[simp] theorem modCore_ports (s : State) (c : Fin 64) (f : Core → Core) : (modCore s c f).ports = s.ports := rfl
@[simp] theorem modCore_groups (s : State) (c : Fin 64) (f : Core → Core) : (modCore s c f).groups = s.groups := rfl
@[simp] theorem modCore_opn (s : State) (c : Fin 64) (f : Core → Core) : (modCore s c f).opn = s.opn := rfl
@[simp] theorem modCore_collOps (s : State) (c : Fin 64) (f : Core → Core) : (modCore s c f).collOps = s.collOps := rfl
@[simp] theorem modCore_collTimeout (s : State) (c : Fin 64) (f : Core → Core) : (modCore s c f).collTimeout = s.collTimeout := rfl
@[simp] theorem modCore_mem (s : State) (c : Fin 64) (f : Core → Core) : (modCore s c f).mem = s.mem := rfl
@[simp] theorem modCore_pend (s : State) (c : Fin 64) (f : Core → Core) : (modCore s c f).pend = s.pend := rfl
@[simp] theorem modCore_frames (s : State) (c : Fin 64) (f : Core → Core) : (modCore s c f).frames = s.frames := rfl
@[simp] theorem modCore_l2 (s : State) (c : Fin 64) (f : Core → Core) : (modCore s c f).l2 = s.l2 := rfl
@[simp] theorem modCore_olim (s : State) (c : Fin 64) (f : Core → Core) : (modCore s c f).olim = s.olim := rfl
@[simp] theorem modCore_mdt (s : State) (c : Fin 64) (f : Core → Core) : (modCore s c f).mdt = s.mdt := rfl
@[simp] theorem modCore_stale (s : State) (c : Fin 64) (f : Core → Core) : (modCore s c f).stale = s.stale := rfl
@[simp] theorem modCore_placed (s : State) (c : Fin 64) (f : Core → Core) : (modCore s c f).placed = s.placed := rfl
@[simp] theorem modCore_mdtBad (s : State) (c : Fin 64) (f : Core → Core) : (modCore s c f).mdtBad = s.mdtBad := rfl
@[simp] theorem modCore_mdtHeld (s : State) (c : Fin 64) (f : Core → Core) : (modCore s c f).mdtHeld = s.mdtHeld := rfl
@[simp] theorem modCore_lostMem (s : State) (c : Fin 64) (f : Core → Core) : (modCore s c f).lostMem = s.lostMem := rfl
@[simp] theorem modCore_tableBase (s : State) (c : Fin 64) (f : Core → Core) : (modCore s c f).tableBase = s.tableBase := rfl
@[simp] theorem modCore_fwd (s : State) (c : Fin 64) (f : Core → Core) : (modCore s c f).fwd = s.fwd := rfl
@[simp] theorem modCore_tokens (s : State) (c : Fin 64) (f : Core → Core) : (modCore s c f).tokens = s.tokens := rfl
@[simp] theorem modCore_reclaim (s : State) (c : Fin 64) (f : Core → Core) : (modCore s c f).reclaim = s.reclaim := rfl
@[simp] theorem modCore_tlb (s : State) (c : Fin 64) (f : Core → Core) : (modCore s c f).tlb = s.tlb := rfl
@[simp] theorem modCore_hide (s : State) (c : Fin 64) (f : Core → Core) : (modCore s c f).hide = s.hide := rfl
@[simp] theorem modCore_prefixes (s : State) (c : Fin 64) (f : Core → Core) : (modCore s c f).prefixes = s.prefixes := rfl
@[simp] theorem modCore_pommel (s : State) (c : Fin 64) (f : Core → Core) : (modCore s c f).pommel = s.pommel := rfl
@[simp] theorem modCore_allocs (s : State) (c : Fin 64) (f : Core → Core) : (modCore s c f).allocs = s.allocs := rfl
@[simp] theorem modCore_engines (s : State) (c : Fin 64) (f : Core → Core) : (modCore s c f).engines = s.engines := rfl
@[simp] theorem modCore_cmdSeq (s : State) (c : Fin 64) (f : Core → Core) : (modCore s c f).cmdSeq = s.cmdSeq := rfl
@[simp] theorem modCore_xfBuf (s : State) (c : Fin 64) (f : Core → Core) : (modCore s c f).xfBuf = s.xfBuf := rfl
@[simp] theorem modCore_stir (s : State) (c : Fin 64) (f : Core → Core) : (modCore s c f).stir = s.stir := rfl
@[simp] theorem modCore_parts (s : State) (c : Fin 64) (f : Core → Core) : (modCore s c f).parts = s.parts := rfl
@[simp] theorem modCore_cores (s : State) (c : Fin 64) (f : Core → Core) : (modCore s c f).cores = s.cores.set c (f (coreOf s c)) := rfl
@[simp] theorem modCore_cur (s : State) (c : Fin 64) (f : Core → Core) : (modCore s c f).cur = s.cur := rfl
@[simp] theorem modCore_urgent (s : State) (c : Fin 64) (f : Core → Core) : (modCore s c f).urgent = s.urgent := rfl
@[simp] theorem modCore_tasks (s : State) (c : Fin 64) (f : Core → Core) : (modCore s c f).tasks = s.tasks := rfl
@[simp] theorem modCore_inbox (s : State) (c : Fin 64) (f : Core → Core) : (modCore s c f).inbox = s.inbox := rfl
@[simp] theorem modCore_turn (s : State) (c : Fin 64) (f : Core → Core) : (modCore s c f).turn = s.turn := rfl
@[simp] theorem modCore_rr (s : State) (c : Fin 64) (f : Core → Core) : (modCore s c f).rr = s.rr := rfl
@[simp] theorem modCore_free (s : State) (c : Fin 64) (f : Core → Core) : (modCore s c f).free = s.free := rfl
@[simp] theorem modCore_freeLat (s : State) (c : Fin 64) (f : Core → Core) : (modCore s c f).freeLat = s.freeLat := rfl
@[simp] theorem modCore_freeGap (s : State) (c : Fin 64) (f : Core → Core) : (modCore s c f).freeGap = s.freeGap := rfl
@[simp] theorem modCore_out (s : State) (c : Fin 64) (f : Core → Core) : (modCore s c f).out = s.out := rfl

/-! ### modCurCore -/

@[simp] theorem modCurCore_pwrGood (s : State) (f : Core → Core) : (modCurCore s f).pwrGood = s.pwrGood := rfl
@[simp] theorem modCurCore_sysRstN (s : State) (f : Core → Core) : (modCurCore s f).sysRstN = s.sysRstN := rfl
@[simp] theorem modCurCore_perstN (s : State) (f : Core → Core) : (modCurCore s f).perstN = s.perstN := rfl
@[simp] theorem modCurCore_boot (s : State) (f : Core → Core) : (modCurCore s f).boot = s.boot := rfl
@[simp] theorem modCurCore_status (s : State) (f : Core → Core) : (modCurCore s f).status = s.status := rfl
@[simp] theorem modCurCore_pll (s : State) (f : Core → Core) : (modCurCore s f).pll = s.pll := rfl
@[simp] theorem modCurCore_fc (s : State) (f : Core → Core) : (modCurCore s f).fc = s.fc := rfl
@[simp] theorem modCurCore_clk (s : State) (f : Core → Core) : (modCurCore s f).clk = s.clk := rfl
@[simp] theorem modCurCore_fwHash (s : State) (f : Core → Core) : (modCurCore s f).fwHash = s.fwHash := rfl
@[simp] theorem modCurCore_cfgNormal (s : State) (f : Core → Core) : (modCurCore s f).cfgNormal = s.cfgNormal := rfl
@[simp] theorem modCurCore_hostLink (s : State) (f : Core → Core) : (modCurCore s f).hostLink = s.hostLink := rfl
@[simp] theorem modCurCore_fdtCount (s : State) (f : Core → Core) : (modCurCore s f).fdtCount = s.fdtCount := rfl
@[simp] theorem modCurCore_thermTrip (s : State) (f : Core → Core) : (modCurCore s f).thermTrip = s.thermTrip := rfl
@[simp] theorem modCurCore_powerCap (s : State) (f : Core → Core) : (modCurCore s f).powerCap = s.powerCap := rfl
@[simp] theorem modCurCore_deviceId (s : State) (f : Core → Core) : (modCurCore s f).deviceId = s.deviceId := rfl
@[simp] theorem modCurCore_hitch (s : State) (f : Core → Core) : (modCurCore s f).hitch = s.hitch := rfl
@[simp] theorem modCurCore_hitchArm (s : State) (f : Core → Core) : (modCurCore s f).hitchArm = s.hitchArm := rfl
@[simp] theorem modCurCore_fuse (s : State) (f : Core → Core) : (modCurCore s f).fuse = s.fuse := rfl
@[simp] theorem modCurCore_unlocked (s : State) (f : Core → Core) : (modCurCore s f).unlocked = s.unlocked := rfl
@[simp] theorem modCurCore_caps (s : State) (f : Core → Core) : (modCurCore s f).caps = s.caps := rfl
@[simp] theorem modCurCore_arbs (s : State) (f : Core → Core) : (modCurCore s f).arbs = s.arbs := rfl
@[simp] theorem modCurCore_loads (s : State) (f : Core → Core) : (modCurCore s f).loads = s.loads := rfl
@[simp] theorem modCurCore_arbBusy (s : State) (f : Core → Core) : (modCurCore s f).arbBusy = s.arbBusy := rfl
@[simp] theorem modCurCore_vfs (s : State) (f : Core → Core) : (modCurCore s f).vfs = s.vfs := rfl
@[simp] theorem modCurCore_windows (s : State) (f : Core → Core) : (modCurCore s f).windows = s.windows := rfl
@[simp] theorem modCurCore_hostLines (s : State) (f : Core → Core) : (modCurCore s f).hostLines = s.hostLines := rfl
@[simp] theorem modCurCore_hostMem (s : State) (f : Core → Core) : (modCurCore s f).hostMem = s.hostMem := rfl
@[simp] theorem modCurCore_poolUp (s : State) (f : Core → Core) : (modCurCore s f).poolUp = s.poolUp := rfl
@[simp] theorem modCurCore_extents (s : State) (f : Core → Core) : (modCurCore s f).extents = s.extents := rfl
@[simp] theorem modCurCore_fetching (s : State) (f : Core → Core) : (modCurCore s f).fetching = s.fetching := rfl
@[simp] theorem modCurCore_ports (s : State) (f : Core → Core) : (modCurCore s f).ports = s.ports := rfl
@[simp] theorem modCurCore_groups (s : State) (f : Core → Core) : (modCurCore s f).groups = s.groups := rfl
@[simp] theorem modCurCore_opn (s : State) (f : Core → Core) : (modCurCore s f).opn = s.opn := rfl
@[simp] theorem modCurCore_collOps (s : State) (f : Core → Core) : (modCurCore s f).collOps = s.collOps := rfl
@[simp] theorem modCurCore_collTimeout (s : State) (f : Core → Core) : (modCurCore s f).collTimeout = s.collTimeout := rfl
@[simp] theorem modCurCore_mem (s : State) (f : Core → Core) : (modCurCore s f).mem = s.mem := rfl
@[simp] theorem modCurCore_pend (s : State) (f : Core → Core) : (modCurCore s f).pend = s.pend := rfl
@[simp] theorem modCurCore_frames (s : State) (f : Core → Core) : (modCurCore s f).frames = s.frames := rfl
@[simp] theorem modCurCore_l2 (s : State) (f : Core → Core) : (modCurCore s f).l2 = s.l2 := rfl
@[simp] theorem modCurCore_olim (s : State) (f : Core → Core) : (modCurCore s f).olim = s.olim := rfl
@[simp] theorem modCurCore_mdt (s : State) (f : Core → Core) : (modCurCore s f).mdt = s.mdt := rfl
@[simp] theorem modCurCore_stale (s : State) (f : Core → Core) : (modCurCore s f).stale = s.stale := rfl
@[simp] theorem modCurCore_placed (s : State) (f : Core → Core) : (modCurCore s f).placed = s.placed := rfl
@[simp] theorem modCurCore_mdtBad (s : State) (f : Core → Core) : (modCurCore s f).mdtBad = s.mdtBad := rfl
@[simp] theorem modCurCore_mdtHeld (s : State) (f : Core → Core) : (modCurCore s f).mdtHeld = s.mdtHeld := rfl
@[simp] theorem modCurCore_lostMem (s : State) (f : Core → Core) : (modCurCore s f).lostMem = s.lostMem := rfl
@[simp] theorem modCurCore_tableBase (s : State) (f : Core → Core) : (modCurCore s f).tableBase = s.tableBase := rfl
@[simp] theorem modCurCore_fwd (s : State) (f : Core → Core) : (modCurCore s f).fwd = s.fwd := rfl
@[simp] theorem modCurCore_tokens (s : State) (f : Core → Core) : (modCurCore s f).tokens = s.tokens := rfl
@[simp] theorem modCurCore_reclaim (s : State) (f : Core → Core) : (modCurCore s f).reclaim = s.reclaim := rfl
@[simp] theorem modCurCore_tlb (s : State) (f : Core → Core) : (modCurCore s f).tlb = s.tlb := rfl
@[simp] theorem modCurCore_hide (s : State) (f : Core → Core) : (modCurCore s f).hide = s.hide := rfl
@[simp] theorem modCurCore_prefixes (s : State) (f : Core → Core) : (modCurCore s f).prefixes = s.prefixes := rfl
@[simp] theorem modCurCore_pommel (s : State) (f : Core → Core) : (modCurCore s f).pommel = s.pommel := rfl
@[simp] theorem modCurCore_allocs (s : State) (f : Core → Core) : (modCurCore s f).allocs = s.allocs := rfl
@[simp] theorem modCurCore_engines (s : State) (f : Core → Core) : (modCurCore s f).engines = s.engines := rfl
@[simp] theorem modCurCore_cmdSeq (s : State) (f : Core → Core) : (modCurCore s f).cmdSeq = s.cmdSeq := rfl
@[simp] theorem modCurCore_xfBuf (s : State) (f : Core → Core) : (modCurCore s f).xfBuf = s.xfBuf := rfl
@[simp] theorem modCurCore_stir (s : State) (f : Core → Core) : (modCurCore s f).stir = s.stir := rfl
@[simp] theorem modCurCore_parts (s : State) (f : Core → Core) : (modCurCore s f).parts = s.parts := rfl
@[simp] theorem modCurCore_cores (s : State) (f : Core → Core) : (modCurCore s f).cores = s.cores.set s.cur.core (f (curCore s)) := rfl
@[simp] theorem modCurCore_cur (s : State) (f : Core → Core) : (modCurCore s f).cur = s.cur := rfl
@[simp] theorem modCurCore_urgent (s : State) (f : Core → Core) : (modCurCore s f).urgent = s.urgent := rfl
@[simp] theorem modCurCore_tasks (s : State) (f : Core → Core) : (modCurCore s f).tasks = s.tasks := rfl
@[simp] theorem modCurCore_inbox (s : State) (f : Core → Core) : (modCurCore s f).inbox = s.inbox := rfl
@[simp] theorem modCurCore_turn (s : State) (f : Core → Core) : (modCurCore s f).turn = s.turn := rfl
@[simp] theorem modCurCore_rr (s : State) (f : Core → Core) : (modCurCore s f).rr = s.rr := rfl
@[simp] theorem modCurCore_free (s : State) (f : Core → Core) : (modCurCore s f).free = s.free := rfl
@[simp] theorem modCurCore_freeLat (s : State) (f : Core → Core) : (modCurCore s f).freeLat = s.freeLat := rfl
@[simp] theorem modCurCore_freeGap (s : State) (f : Core → Core) : (modCurCore s f).freeGap = s.freeGap := rfl
@[simp] theorem modCurCore_out (s : State) (f : Core → Core) : (modCurCore s f).out = s.out := rfl

/-! ### putPart -/

@[simp] theorem putPart_pwrGood (s : State) (p : Nat) (x : Part) : (putPart s p x).pwrGood = s.pwrGood := rfl
@[simp] theorem putPart_sysRstN (s : State) (p : Nat) (x : Part) : (putPart s p x).sysRstN = s.sysRstN := rfl
@[simp] theorem putPart_perstN (s : State) (p : Nat) (x : Part) : (putPart s p x).perstN = s.perstN := rfl
@[simp] theorem putPart_boot (s : State) (p : Nat) (x : Part) : (putPart s p x).boot = s.boot := rfl
@[simp] theorem putPart_status (s : State) (p : Nat) (x : Part) : (putPart s p x).status = s.status := rfl
@[simp] theorem putPart_pll (s : State) (p : Nat) (x : Part) : (putPart s p x).pll = s.pll := rfl
@[simp] theorem putPart_fc (s : State) (p : Nat) (x : Part) : (putPart s p x).fc = s.fc := rfl
@[simp] theorem putPart_clk (s : State) (p : Nat) (x : Part) : (putPart s p x).clk = s.clk := rfl
@[simp] theorem putPart_fwHash (s : State) (p : Nat) (x : Part) : (putPart s p x).fwHash = s.fwHash := rfl
@[simp] theorem putPart_cfgNormal (s : State) (p : Nat) (x : Part) : (putPart s p x).cfgNormal = s.cfgNormal := rfl
@[simp] theorem putPart_hostLink (s : State) (p : Nat) (x : Part) : (putPart s p x).hostLink = s.hostLink := rfl
@[simp] theorem putPart_fdtCount (s : State) (p : Nat) (x : Part) : (putPart s p x).fdtCount = s.fdtCount := rfl
@[simp] theorem putPart_thermTrip (s : State) (p : Nat) (x : Part) : (putPart s p x).thermTrip = s.thermTrip := rfl
@[simp] theorem putPart_powerCap (s : State) (p : Nat) (x : Part) : (putPart s p x).powerCap = s.powerCap := rfl
@[simp] theorem putPart_deviceId (s : State) (p : Nat) (x : Part) : (putPart s p x).deviceId = s.deviceId := rfl
@[simp] theorem putPart_hitch (s : State) (p : Nat) (x : Part) : (putPart s p x).hitch = s.hitch := rfl
@[simp] theorem putPart_hitchArm (s : State) (p : Nat) (x : Part) : (putPart s p x).hitchArm = s.hitchArm := rfl
@[simp] theorem putPart_fuse (s : State) (p : Nat) (x : Part) : (putPart s p x).fuse = s.fuse := rfl
@[simp] theorem putPart_unlocked (s : State) (p : Nat) (x : Part) : (putPart s p x).unlocked = s.unlocked := rfl
@[simp] theorem putPart_caps (s : State) (p : Nat) (x : Part) : (putPart s p x).caps = s.caps := rfl
@[simp] theorem putPart_arbs (s : State) (p : Nat) (x : Part) : (putPart s p x).arbs = s.arbs := rfl
@[simp] theorem putPart_loads (s : State) (p : Nat) (x : Part) : (putPart s p x).loads = s.loads := rfl
@[simp] theorem putPart_arbBusy (s : State) (p : Nat) (x : Part) : (putPart s p x).arbBusy = s.arbBusy := rfl
@[simp] theorem putPart_vfs (s : State) (p : Nat) (x : Part) : (putPart s p x).vfs = s.vfs := rfl
@[simp] theorem putPart_windows (s : State) (p : Nat) (x : Part) : (putPart s p x).windows = s.windows := rfl
@[simp] theorem putPart_hostLines (s : State) (p : Nat) (x : Part) : (putPart s p x).hostLines = s.hostLines := rfl
@[simp] theorem putPart_hostMem (s : State) (p : Nat) (x : Part) : (putPart s p x).hostMem = s.hostMem := rfl
@[simp] theorem putPart_poolUp (s : State) (p : Nat) (x : Part) : (putPart s p x).poolUp = s.poolUp := rfl
@[simp] theorem putPart_extents (s : State) (p : Nat) (x : Part) : (putPart s p x).extents = s.extents := rfl
@[simp] theorem putPart_fetching (s : State) (p : Nat) (x : Part) : (putPart s p x).fetching = s.fetching := rfl
@[simp] theorem putPart_ports (s : State) (p : Nat) (x : Part) : (putPart s p x).ports = s.ports := rfl
@[simp] theorem putPart_groups (s : State) (p : Nat) (x : Part) : (putPart s p x).groups = s.groups := rfl
@[simp] theorem putPart_opn (s : State) (p : Nat) (x : Part) : (putPart s p x).opn = s.opn := rfl
@[simp] theorem putPart_collOps (s : State) (p : Nat) (x : Part) : (putPart s p x).collOps = s.collOps := rfl
@[simp] theorem putPart_collTimeout (s : State) (p : Nat) (x : Part) : (putPart s p x).collTimeout = s.collTimeout := rfl
@[simp] theorem putPart_mem (s : State) (p : Nat) (x : Part) : (putPart s p x).mem = s.mem := rfl
@[simp] theorem putPart_pend (s : State) (p : Nat) (x : Part) : (putPart s p x).pend = s.pend := rfl
@[simp] theorem putPart_frames (s : State) (p : Nat) (x : Part) : (putPart s p x).frames = s.frames := rfl
@[simp] theorem putPart_l2 (s : State) (p : Nat) (x : Part) : (putPart s p x).l2 = s.l2 := rfl
@[simp] theorem putPart_olim (s : State) (p : Nat) (x : Part) : (putPart s p x).olim = s.olim := rfl
@[simp] theorem putPart_mdt (s : State) (p : Nat) (x : Part) : (putPart s p x).mdt = s.mdt := rfl
@[simp] theorem putPart_stale (s : State) (p : Nat) (x : Part) : (putPart s p x).stale = s.stale := rfl
@[simp] theorem putPart_placed (s : State) (p : Nat) (x : Part) : (putPart s p x).placed = s.placed := rfl
@[simp] theorem putPart_mdtBad (s : State) (p : Nat) (x : Part) : (putPart s p x).mdtBad = s.mdtBad := rfl
@[simp] theorem putPart_mdtHeld (s : State) (p : Nat) (x : Part) : (putPart s p x).mdtHeld = s.mdtHeld := rfl
@[simp] theorem putPart_lostMem (s : State) (p : Nat) (x : Part) : (putPart s p x).lostMem = s.lostMem := rfl
@[simp] theorem putPart_tableBase (s : State) (p : Nat) (x : Part) : (putPart s p x).tableBase = s.tableBase := rfl
@[simp] theorem putPart_fwd (s : State) (p : Nat) (x : Part) : (putPart s p x).fwd = s.fwd := rfl
@[simp] theorem putPart_tokens (s : State) (p : Nat) (x : Part) : (putPart s p x).tokens = s.tokens := rfl
@[simp] theorem putPart_reclaim (s : State) (p : Nat) (x : Part) : (putPart s p x).reclaim = s.reclaim := rfl
@[simp] theorem putPart_tlb (s : State) (p : Nat) (x : Part) : (putPart s p x).tlb = s.tlb := rfl
@[simp] theorem putPart_hide (s : State) (p : Nat) (x : Part) : (putPart s p x).hide = s.hide := rfl
@[simp] theorem putPart_prefixes (s : State) (p : Nat) (x : Part) : (putPart s p x).prefixes = s.prefixes := rfl
@[simp] theorem putPart_pommel (s : State) (p : Nat) (x : Part) : (putPart s p x).pommel = s.pommel := rfl
@[simp] theorem putPart_allocs (s : State) (p : Nat) (x : Part) : (putPart s p x).allocs = s.allocs := rfl
@[simp] theorem putPart_engines (s : State) (p : Nat) (x : Part) : (putPart s p x).engines = s.engines := rfl
@[simp] theorem putPart_cmdSeq (s : State) (p : Nat) (x : Part) : (putPart s p x).cmdSeq = s.cmdSeq := rfl
@[simp] theorem putPart_xfBuf (s : State) (p : Nat) (x : Part) : (putPart s p x).xfBuf = s.xfBuf := rfl
@[simp] theorem putPart_stir (s : State) (p : Nat) (x : Part) : (putPart s p x).stir = s.stir := rfl
@[simp] theorem putPart_parts (s : State) (p : Nat) (x : Part) : (putPart s p x).parts = tput s.parts p x := rfl
@[simp] theorem putPart_cores (s : State) (p : Nat) (x : Part) : (putPart s p x).cores = s.cores := rfl
@[simp] theorem putPart_cur (s : State) (p : Nat) (x : Part) : (putPart s p x).cur = s.cur := rfl
@[simp] theorem putPart_urgent (s : State) (p : Nat) (x : Part) : (putPart s p x).urgent = s.urgent := rfl
@[simp] theorem putPart_tasks (s : State) (p : Nat) (x : Part) : (putPart s p x).tasks = s.tasks := rfl
@[simp] theorem putPart_inbox (s : State) (p : Nat) (x : Part) : (putPart s p x).inbox = s.inbox := rfl
@[simp] theorem putPart_turn (s : State) (p : Nat) (x : Part) : (putPart s p x).turn = s.turn := rfl
@[simp] theorem putPart_rr (s : State) (p : Nat) (x : Part) : (putPart s p x).rr = s.rr := rfl
@[simp] theorem putPart_free (s : State) (p : Nat) (x : Part) : (putPart s p x).free = s.free := rfl
@[simp] theorem putPart_freeLat (s : State) (p : Nat) (x : Part) : (putPart s p x).freeLat = s.freeLat := rfl
@[simp] theorem putPart_freeGap (s : State) (p : Nat) (x : Part) : (putPart s p x).freeGap = s.freeGap := rfl
@[simp] theorem putPart_out (s : State) (p : Nat) (x : Part) : (putPart s p x).out = s.out := rfl

/-! ### modPart -/

@[simp] theorem modPart_pwrGood (s : State) (p : Nat) (f : Part → Part) : (modPart s p f).pwrGood = s.pwrGood := rfl
@[simp] theorem modPart_sysRstN (s : State) (p : Nat) (f : Part → Part) : (modPart s p f).sysRstN = s.sysRstN := rfl
@[simp] theorem modPart_perstN (s : State) (p : Nat) (f : Part → Part) : (modPart s p f).perstN = s.perstN := rfl
@[simp] theorem modPart_boot (s : State) (p : Nat) (f : Part → Part) : (modPart s p f).boot = s.boot := rfl
@[simp] theorem modPart_status (s : State) (p : Nat) (f : Part → Part) : (modPart s p f).status = s.status := rfl
@[simp] theorem modPart_pll (s : State) (p : Nat) (f : Part → Part) : (modPart s p f).pll = s.pll := rfl
@[simp] theorem modPart_fc (s : State) (p : Nat) (f : Part → Part) : (modPart s p f).fc = s.fc := rfl
@[simp] theorem modPart_clk (s : State) (p : Nat) (f : Part → Part) : (modPart s p f).clk = s.clk := rfl
@[simp] theorem modPart_fwHash (s : State) (p : Nat) (f : Part → Part) : (modPart s p f).fwHash = s.fwHash := rfl
@[simp] theorem modPart_cfgNormal (s : State) (p : Nat) (f : Part → Part) : (modPart s p f).cfgNormal = s.cfgNormal := rfl
@[simp] theorem modPart_hostLink (s : State) (p : Nat) (f : Part → Part) : (modPart s p f).hostLink = s.hostLink := rfl
@[simp] theorem modPart_fdtCount (s : State) (p : Nat) (f : Part → Part) : (modPart s p f).fdtCount = s.fdtCount := rfl
@[simp] theorem modPart_thermTrip (s : State) (p : Nat) (f : Part → Part) : (modPart s p f).thermTrip = s.thermTrip := rfl
@[simp] theorem modPart_powerCap (s : State) (p : Nat) (f : Part → Part) : (modPart s p f).powerCap = s.powerCap := rfl
@[simp] theorem modPart_deviceId (s : State) (p : Nat) (f : Part → Part) : (modPart s p f).deviceId = s.deviceId := rfl
@[simp] theorem modPart_hitch (s : State) (p : Nat) (f : Part → Part) : (modPart s p f).hitch = s.hitch := rfl
@[simp] theorem modPart_hitchArm (s : State) (p : Nat) (f : Part → Part) : (modPart s p f).hitchArm = s.hitchArm := rfl
@[simp] theorem modPart_fuse (s : State) (p : Nat) (f : Part → Part) : (modPart s p f).fuse = s.fuse := rfl
@[simp] theorem modPart_unlocked (s : State) (p : Nat) (f : Part → Part) : (modPart s p f).unlocked = s.unlocked := rfl
@[simp] theorem modPart_caps (s : State) (p : Nat) (f : Part → Part) : (modPart s p f).caps = s.caps := rfl
@[simp] theorem modPart_arbs (s : State) (p : Nat) (f : Part → Part) : (modPart s p f).arbs = s.arbs := rfl
@[simp] theorem modPart_loads (s : State) (p : Nat) (f : Part → Part) : (modPart s p f).loads = s.loads := rfl
@[simp] theorem modPart_arbBusy (s : State) (p : Nat) (f : Part → Part) : (modPart s p f).arbBusy = s.arbBusy := rfl
@[simp] theorem modPart_vfs (s : State) (p : Nat) (f : Part → Part) : (modPart s p f).vfs = s.vfs := rfl
@[simp] theorem modPart_windows (s : State) (p : Nat) (f : Part → Part) : (modPart s p f).windows = s.windows := rfl
@[simp] theorem modPart_hostLines (s : State) (p : Nat) (f : Part → Part) : (modPart s p f).hostLines = s.hostLines := rfl
@[simp] theorem modPart_hostMem (s : State) (p : Nat) (f : Part → Part) : (modPart s p f).hostMem = s.hostMem := rfl
@[simp] theorem modPart_poolUp (s : State) (p : Nat) (f : Part → Part) : (modPart s p f).poolUp = s.poolUp := rfl
@[simp] theorem modPart_extents (s : State) (p : Nat) (f : Part → Part) : (modPart s p f).extents = s.extents := rfl
@[simp] theorem modPart_fetching (s : State) (p : Nat) (f : Part → Part) : (modPart s p f).fetching = s.fetching := rfl
@[simp] theorem modPart_ports (s : State) (p : Nat) (f : Part → Part) : (modPart s p f).ports = s.ports := rfl
@[simp] theorem modPart_groups (s : State) (p : Nat) (f : Part → Part) : (modPart s p f).groups = s.groups := rfl
@[simp] theorem modPart_opn (s : State) (p : Nat) (f : Part → Part) : (modPart s p f).opn = s.opn := rfl
@[simp] theorem modPart_collOps (s : State) (p : Nat) (f : Part → Part) : (modPart s p f).collOps = s.collOps := rfl
@[simp] theorem modPart_collTimeout (s : State) (p : Nat) (f : Part → Part) : (modPart s p f).collTimeout = s.collTimeout := rfl
@[simp] theorem modPart_mem (s : State) (p : Nat) (f : Part → Part) : (modPart s p f).mem = s.mem := rfl
@[simp] theorem modPart_pend (s : State) (p : Nat) (f : Part → Part) : (modPart s p f).pend = s.pend := rfl
@[simp] theorem modPart_frames (s : State) (p : Nat) (f : Part → Part) : (modPart s p f).frames = s.frames := rfl
@[simp] theorem modPart_l2 (s : State) (p : Nat) (f : Part → Part) : (modPart s p f).l2 = s.l2 := rfl
@[simp] theorem modPart_olim (s : State) (p : Nat) (f : Part → Part) : (modPart s p f).olim = s.olim := rfl
@[simp] theorem modPart_mdt (s : State) (p : Nat) (f : Part → Part) : (modPart s p f).mdt = s.mdt := rfl
@[simp] theorem modPart_stale (s : State) (p : Nat) (f : Part → Part) : (modPart s p f).stale = s.stale := rfl
@[simp] theorem modPart_placed (s : State) (p : Nat) (f : Part → Part) : (modPart s p f).placed = s.placed := rfl
@[simp] theorem modPart_mdtBad (s : State) (p : Nat) (f : Part → Part) : (modPart s p f).mdtBad = s.mdtBad := rfl
@[simp] theorem modPart_mdtHeld (s : State) (p : Nat) (f : Part → Part) : (modPart s p f).mdtHeld = s.mdtHeld := rfl
@[simp] theorem modPart_lostMem (s : State) (p : Nat) (f : Part → Part) : (modPart s p f).lostMem = s.lostMem := rfl
@[simp] theorem modPart_tableBase (s : State) (p : Nat) (f : Part → Part) : (modPart s p f).tableBase = s.tableBase := rfl
@[simp] theorem modPart_fwd (s : State) (p : Nat) (f : Part → Part) : (modPart s p f).fwd = s.fwd := rfl
@[simp] theorem modPart_tokens (s : State) (p : Nat) (f : Part → Part) : (modPart s p f).tokens = s.tokens := rfl
@[simp] theorem modPart_reclaim (s : State) (p : Nat) (f : Part → Part) : (modPart s p f).reclaim = s.reclaim := rfl
@[simp] theorem modPart_tlb (s : State) (p : Nat) (f : Part → Part) : (modPart s p f).tlb = s.tlb := rfl
@[simp] theorem modPart_hide (s : State) (p : Nat) (f : Part → Part) : (modPart s p f).hide = s.hide := rfl
@[simp] theorem modPart_prefixes (s : State) (p : Nat) (f : Part → Part) : (modPart s p f).prefixes = s.prefixes := rfl
@[simp] theorem modPart_pommel (s : State) (p : Nat) (f : Part → Part) : (modPart s p f).pommel = s.pommel := rfl
@[simp] theorem modPart_allocs (s : State) (p : Nat) (f : Part → Part) : (modPart s p f).allocs = s.allocs := rfl
@[simp] theorem modPart_engines (s : State) (p : Nat) (f : Part → Part) : (modPart s p f).engines = s.engines := rfl
@[simp] theorem modPart_cmdSeq (s : State) (p : Nat) (f : Part → Part) : (modPart s p f).cmdSeq = s.cmdSeq := rfl
@[simp] theorem modPart_xfBuf (s : State) (p : Nat) (f : Part → Part) : (modPart s p f).xfBuf = s.xfBuf := rfl
@[simp] theorem modPart_stir (s : State) (p : Nat) (f : Part → Part) : (modPart s p f).stir = s.stir := rfl
@[simp] theorem modPart_parts (s : State) (p : Nat) (f : Part → Part) : (modPart s p f).parts = tput s.parts p (f (partOf s p)) := rfl
@[simp] theorem modPart_cores (s : State) (p : Nat) (f : Part → Part) : (modPart s p f).cores = s.cores := rfl
@[simp] theorem modPart_cur (s : State) (p : Nat) (f : Part → Part) : (modPart s p f).cur = s.cur := rfl
@[simp] theorem modPart_urgent (s : State) (p : Nat) (f : Part → Part) : (modPart s p f).urgent = s.urgent := rfl
@[simp] theorem modPart_tasks (s : State) (p : Nat) (f : Part → Part) : (modPart s p f).tasks = s.tasks := rfl
@[simp] theorem modPart_inbox (s : State) (p : Nat) (f : Part → Part) : (modPart s p f).inbox = s.inbox := rfl
@[simp] theorem modPart_turn (s : State) (p : Nat) (f : Part → Part) : (modPart s p f).turn = s.turn := rfl
@[simp] theorem modPart_rr (s : State) (p : Nat) (f : Part → Part) : (modPart s p f).rr = s.rr := rfl
@[simp] theorem modPart_free (s : State) (p : Nat) (f : Part → Part) : (modPart s p f).free = s.free := rfl
@[simp] theorem modPart_freeLat (s : State) (p : Nat) (f : Part → Part) : (modPart s p f).freeLat = s.freeLat := rfl
@[simp] theorem modPart_freeGap (s : State) (p : Nat) (f : Part → Part) : (modPart s p f).freeGap = s.freeGap := rfl
@[simp] theorem modPart_out (s : State) (p : Nat) (f : Part → Part) : (modPart s p f).out = s.out := rfl

/-! ### putGraph -/

@[simp] theorem putGraph_pwrGood (s : State) (p k : Nat) (g : Graph) : (putGraph s p k g).pwrGood = s.pwrGood := rfl
@[simp] theorem putGraph_sysRstN (s : State) (p k : Nat) (g : Graph) : (putGraph s p k g).sysRstN = s.sysRstN := rfl
@[simp] theorem putGraph_perstN (s : State) (p k : Nat) (g : Graph) : (putGraph s p k g).perstN = s.perstN := rfl
@[simp] theorem putGraph_boot (s : State) (p k : Nat) (g : Graph) : (putGraph s p k g).boot = s.boot := rfl
@[simp] theorem putGraph_status (s : State) (p k : Nat) (g : Graph) : (putGraph s p k g).status = s.status := rfl
@[simp] theorem putGraph_pll (s : State) (p k : Nat) (g : Graph) : (putGraph s p k g).pll = s.pll := rfl
@[simp] theorem putGraph_fc (s : State) (p k : Nat) (g : Graph) : (putGraph s p k g).fc = s.fc := rfl
@[simp] theorem putGraph_clk (s : State) (p k : Nat) (g : Graph) : (putGraph s p k g).clk = s.clk := rfl
@[simp] theorem putGraph_fwHash (s : State) (p k : Nat) (g : Graph) : (putGraph s p k g).fwHash = s.fwHash := rfl
@[simp] theorem putGraph_cfgNormal (s : State) (p k : Nat) (g : Graph) : (putGraph s p k g).cfgNormal = s.cfgNormal := rfl
@[simp] theorem putGraph_hostLink (s : State) (p k : Nat) (g : Graph) : (putGraph s p k g).hostLink = s.hostLink := rfl
@[simp] theorem putGraph_fdtCount (s : State) (p k : Nat) (g : Graph) : (putGraph s p k g).fdtCount = s.fdtCount := rfl
@[simp] theorem putGraph_thermTrip (s : State) (p k : Nat) (g : Graph) : (putGraph s p k g).thermTrip = s.thermTrip := rfl
@[simp] theorem putGraph_powerCap (s : State) (p k : Nat) (g : Graph) : (putGraph s p k g).powerCap = s.powerCap := rfl
@[simp] theorem putGraph_deviceId (s : State) (p k : Nat) (g : Graph) : (putGraph s p k g).deviceId = s.deviceId := rfl
@[simp] theorem putGraph_hitch (s : State) (p k : Nat) (g : Graph) : (putGraph s p k g).hitch = s.hitch := rfl
@[simp] theorem putGraph_hitchArm (s : State) (p k : Nat) (g : Graph) : (putGraph s p k g).hitchArm = s.hitchArm := rfl
@[simp] theorem putGraph_fuse (s : State) (p k : Nat) (g : Graph) : (putGraph s p k g).fuse = s.fuse := rfl
@[simp] theorem putGraph_unlocked (s : State) (p k : Nat) (g : Graph) : (putGraph s p k g).unlocked = s.unlocked := rfl
@[simp] theorem putGraph_caps (s : State) (p k : Nat) (g : Graph) : (putGraph s p k g).caps = s.caps := rfl
@[simp] theorem putGraph_arbs (s : State) (p k : Nat) (g : Graph) : (putGraph s p k g).arbs = s.arbs := rfl
@[simp] theorem putGraph_loads (s : State) (p k : Nat) (g : Graph) : (putGraph s p k g).loads = s.loads := rfl
@[simp] theorem putGraph_arbBusy (s : State) (p k : Nat) (g : Graph) : (putGraph s p k g).arbBusy = s.arbBusy := rfl
@[simp] theorem putGraph_vfs (s : State) (p k : Nat) (g : Graph) : (putGraph s p k g).vfs = s.vfs := rfl
@[simp] theorem putGraph_windows (s : State) (p k : Nat) (g : Graph) : (putGraph s p k g).windows = s.windows := rfl
@[simp] theorem putGraph_hostLines (s : State) (p k : Nat) (g : Graph) : (putGraph s p k g).hostLines = s.hostLines := rfl
@[simp] theorem putGraph_hostMem (s : State) (p k : Nat) (g : Graph) : (putGraph s p k g).hostMem = s.hostMem := rfl
@[simp] theorem putGraph_poolUp (s : State) (p k : Nat) (g : Graph) : (putGraph s p k g).poolUp = s.poolUp := rfl
@[simp] theorem putGraph_extents (s : State) (p k : Nat) (g : Graph) : (putGraph s p k g).extents = s.extents := rfl
@[simp] theorem putGraph_fetching (s : State) (p k : Nat) (g : Graph) : (putGraph s p k g).fetching = s.fetching := rfl
@[simp] theorem putGraph_ports (s : State) (p k : Nat) (g : Graph) : (putGraph s p k g).ports = s.ports := rfl
@[simp] theorem putGraph_groups (s : State) (p k : Nat) (g : Graph) : (putGraph s p k g).groups = s.groups := rfl
@[simp] theorem putGraph_opn (s : State) (p k : Nat) (g : Graph) : (putGraph s p k g).opn = s.opn := rfl
@[simp] theorem putGraph_collOps (s : State) (p k : Nat) (g : Graph) : (putGraph s p k g).collOps = s.collOps := rfl
@[simp] theorem putGraph_collTimeout (s : State) (p k : Nat) (g : Graph) : (putGraph s p k g).collTimeout = s.collTimeout := rfl
@[simp] theorem putGraph_mem (s : State) (p k : Nat) (g : Graph) : (putGraph s p k g).mem = s.mem := rfl
@[simp] theorem putGraph_pend (s : State) (p k : Nat) (g : Graph) : (putGraph s p k g).pend = s.pend := rfl
@[simp] theorem putGraph_frames (s : State) (p k : Nat) (g : Graph) : (putGraph s p k g).frames = s.frames := rfl
@[simp] theorem putGraph_l2 (s : State) (p k : Nat) (g : Graph) : (putGraph s p k g).l2 = s.l2 := rfl
@[simp] theorem putGraph_olim (s : State) (p k : Nat) (g : Graph) : (putGraph s p k g).olim = s.olim := rfl
@[simp] theorem putGraph_mdt (s : State) (p k : Nat) (g : Graph) : (putGraph s p k g).mdt = s.mdt := rfl
@[simp] theorem putGraph_stale (s : State) (p k : Nat) (g : Graph) : (putGraph s p k g).stale = s.stale := rfl
@[simp] theorem putGraph_placed (s : State) (p k : Nat) (g : Graph) : (putGraph s p k g).placed = s.placed := rfl
@[simp] theorem putGraph_mdtBad (s : State) (p k : Nat) (g : Graph) : (putGraph s p k g).mdtBad = s.mdtBad := rfl
@[simp] theorem putGraph_mdtHeld (s : State) (p k : Nat) (g : Graph) : (putGraph s p k g).mdtHeld = s.mdtHeld := rfl
@[simp] theorem putGraph_lostMem (s : State) (p k : Nat) (g : Graph) : (putGraph s p k g).lostMem = s.lostMem := rfl
@[simp] theorem putGraph_tableBase (s : State) (p k : Nat) (g : Graph) : (putGraph s p k g).tableBase = s.tableBase := rfl
@[simp] theorem putGraph_fwd (s : State) (p k : Nat) (g : Graph) : (putGraph s p k g).fwd = s.fwd := rfl
@[simp] theorem putGraph_tokens (s : State) (p k : Nat) (g : Graph) : (putGraph s p k g).tokens = s.tokens := rfl
@[simp] theorem putGraph_reclaim (s : State) (p k : Nat) (g : Graph) : (putGraph s p k g).reclaim = s.reclaim := rfl
@[simp] theorem putGraph_tlb (s : State) (p k : Nat) (g : Graph) : (putGraph s p k g).tlb = s.tlb := rfl
@[simp] theorem putGraph_hide (s : State) (p k : Nat) (g : Graph) : (putGraph s p k g).hide = s.hide := rfl
@[simp] theorem putGraph_prefixes (s : State) (p k : Nat) (g : Graph) : (putGraph s p k g).prefixes = s.prefixes := rfl
@[simp] theorem putGraph_pommel (s : State) (p k : Nat) (g : Graph) : (putGraph s p k g).pommel = s.pommel := rfl
@[simp] theorem putGraph_allocs (s : State) (p k : Nat) (g : Graph) : (putGraph s p k g).allocs = s.allocs := rfl
@[simp] theorem putGraph_engines (s : State) (p k : Nat) (g : Graph) : (putGraph s p k g).engines = s.engines := rfl
@[simp] theorem putGraph_cmdSeq (s : State) (p k : Nat) (g : Graph) : (putGraph s p k g).cmdSeq = s.cmdSeq := rfl
@[simp] theorem putGraph_xfBuf (s : State) (p k : Nat) (g : Graph) : (putGraph s p k g).xfBuf = s.xfBuf := rfl
@[simp] theorem putGraph_stir (s : State) (p k : Nat) (g : Graph) : (putGraph s p k g).stir = s.stir := rfl
@[simp] theorem putGraph_cores (s : State) (p k : Nat) (g : Graph) : (putGraph s p k g).cores = s.cores := rfl
@[simp] theorem putGraph_cur (s : State) (p k : Nat) (g : Graph) : (putGraph s p k g).cur = s.cur := rfl
@[simp] theorem putGraph_urgent (s : State) (p k : Nat) (g : Graph) : (putGraph s p k g).urgent = s.urgent := rfl
@[simp] theorem putGraph_tasks (s : State) (p k : Nat) (g : Graph) : (putGraph s p k g).tasks = s.tasks := rfl
@[simp] theorem putGraph_inbox (s : State) (p k : Nat) (g : Graph) : (putGraph s p k g).inbox = s.inbox := rfl
@[simp] theorem putGraph_turn (s : State) (p k : Nat) (g : Graph) : (putGraph s p k g).turn = s.turn := rfl
@[simp] theorem putGraph_rr (s : State) (p k : Nat) (g : Graph) : (putGraph s p k g).rr = s.rr := rfl
@[simp] theorem putGraph_free (s : State) (p k : Nat) (g : Graph) : (putGraph s p k g).free = s.free := rfl
@[simp] theorem putGraph_freeLat (s : State) (p k : Nat) (g : Graph) : (putGraph s p k g).freeLat = s.freeLat := rfl
@[simp] theorem putGraph_freeGap (s : State) (p k : Nat) (g : Graph) : (putGraph s p k g).freeGap = s.freeGap := rfl
@[simp] theorem putGraph_out (s : State) (p k : Nat) (g : Graph) : (putGraph s p k g).out = s.out := rfl

/-! ### modGraph -/

@[simp] theorem modGraph_pwrGood (s : State) (p k : Nat) (f : Graph → Graph) : (modGraph s p k f).pwrGood = s.pwrGood := rfl
@[simp] theorem modGraph_sysRstN (s : State) (p k : Nat) (f : Graph → Graph) : (modGraph s p k f).sysRstN = s.sysRstN := rfl
@[simp] theorem modGraph_perstN (s : State) (p k : Nat) (f : Graph → Graph) : (modGraph s p k f).perstN = s.perstN := rfl
@[simp] theorem modGraph_boot (s : State) (p k : Nat) (f : Graph → Graph) : (modGraph s p k f).boot = s.boot := rfl
@[simp] theorem modGraph_status (s : State) (p k : Nat) (f : Graph → Graph) : (modGraph s p k f).status = s.status := rfl
@[simp] theorem modGraph_pll (s : State) (p k : Nat) (f : Graph → Graph) : (modGraph s p k f).pll = s.pll := rfl
@[simp] theorem modGraph_fc (s : State) (p k : Nat) (f : Graph → Graph) : (modGraph s p k f).fc = s.fc := rfl
@[simp] theorem modGraph_clk (s : State) (p k : Nat) (f : Graph → Graph) : (modGraph s p k f).clk = s.clk := rfl
@[simp] theorem modGraph_fwHash (s : State) (p k : Nat) (f : Graph → Graph) : (modGraph s p k f).fwHash = s.fwHash := rfl
@[simp] theorem modGraph_cfgNormal (s : State) (p k : Nat) (f : Graph → Graph) : (modGraph s p k f).cfgNormal = s.cfgNormal := rfl
@[simp] theorem modGraph_hostLink (s : State) (p k : Nat) (f : Graph → Graph) : (modGraph s p k f).hostLink = s.hostLink := rfl
@[simp] theorem modGraph_fdtCount (s : State) (p k : Nat) (f : Graph → Graph) : (modGraph s p k f).fdtCount = s.fdtCount := rfl
@[simp] theorem modGraph_thermTrip (s : State) (p k : Nat) (f : Graph → Graph) : (modGraph s p k f).thermTrip = s.thermTrip := rfl
@[simp] theorem modGraph_powerCap (s : State) (p k : Nat) (f : Graph → Graph) : (modGraph s p k f).powerCap = s.powerCap := rfl
@[simp] theorem modGraph_deviceId (s : State) (p k : Nat) (f : Graph → Graph) : (modGraph s p k f).deviceId = s.deviceId := rfl
@[simp] theorem modGraph_hitch (s : State) (p k : Nat) (f : Graph → Graph) : (modGraph s p k f).hitch = s.hitch := rfl
@[simp] theorem modGraph_hitchArm (s : State) (p k : Nat) (f : Graph → Graph) : (modGraph s p k f).hitchArm = s.hitchArm := rfl
@[simp] theorem modGraph_fuse (s : State) (p k : Nat) (f : Graph → Graph) : (modGraph s p k f).fuse = s.fuse := rfl
@[simp] theorem modGraph_unlocked (s : State) (p k : Nat) (f : Graph → Graph) : (modGraph s p k f).unlocked = s.unlocked := rfl
@[simp] theorem modGraph_caps (s : State) (p k : Nat) (f : Graph → Graph) : (modGraph s p k f).caps = s.caps := rfl
@[simp] theorem modGraph_arbs (s : State) (p k : Nat) (f : Graph → Graph) : (modGraph s p k f).arbs = s.arbs := rfl
@[simp] theorem modGraph_loads (s : State) (p k : Nat) (f : Graph → Graph) : (modGraph s p k f).loads = s.loads := rfl
@[simp] theorem modGraph_arbBusy (s : State) (p k : Nat) (f : Graph → Graph) : (modGraph s p k f).arbBusy = s.arbBusy := rfl
@[simp] theorem modGraph_vfs (s : State) (p k : Nat) (f : Graph → Graph) : (modGraph s p k f).vfs = s.vfs := rfl
@[simp] theorem modGraph_windows (s : State) (p k : Nat) (f : Graph → Graph) : (modGraph s p k f).windows = s.windows := rfl
@[simp] theorem modGraph_hostLines (s : State) (p k : Nat) (f : Graph → Graph) : (modGraph s p k f).hostLines = s.hostLines := rfl
@[simp] theorem modGraph_hostMem (s : State) (p k : Nat) (f : Graph → Graph) : (modGraph s p k f).hostMem = s.hostMem := rfl
@[simp] theorem modGraph_poolUp (s : State) (p k : Nat) (f : Graph → Graph) : (modGraph s p k f).poolUp = s.poolUp := rfl
@[simp] theorem modGraph_extents (s : State) (p k : Nat) (f : Graph → Graph) : (modGraph s p k f).extents = s.extents := rfl
@[simp] theorem modGraph_fetching (s : State) (p k : Nat) (f : Graph → Graph) : (modGraph s p k f).fetching = s.fetching := rfl
@[simp] theorem modGraph_ports (s : State) (p k : Nat) (f : Graph → Graph) : (modGraph s p k f).ports = s.ports := rfl
@[simp] theorem modGraph_groups (s : State) (p k : Nat) (f : Graph → Graph) : (modGraph s p k f).groups = s.groups := rfl
@[simp] theorem modGraph_opn (s : State) (p k : Nat) (f : Graph → Graph) : (modGraph s p k f).opn = s.opn := rfl
@[simp] theorem modGraph_collOps (s : State) (p k : Nat) (f : Graph → Graph) : (modGraph s p k f).collOps = s.collOps := rfl
@[simp] theorem modGraph_collTimeout (s : State) (p k : Nat) (f : Graph → Graph) : (modGraph s p k f).collTimeout = s.collTimeout := rfl
@[simp] theorem modGraph_mem (s : State) (p k : Nat) (f : Graph → Graph) : (modGraph s p k f).mem = s.mem := rfl
@[simp] theorem modGraph_pend (s : State) (p k : Nat) (f : Graph → Graph) : (modGraph s p k f).pend = s.pend := rfl
@[simp] theorem modGraph_frames (s : State) (p k : Nat) (f : Graph → Graph) : (modGraph s p k f).frames = s.frames := rfl
@[simp] theorem modGraph_l2 (s : State) (p k : Nat) (f : Graph → Graph) : (modGraph s p k f).l2 = s.l2 := rfl
@[simp] theorem modGraph_olim (s : State) (p k : Nat) (f : Graph → Graph) : (modGraph s p k f).olim = s.olim := rfl
@[simp] theorem modGraph_mdt (s : State) (p k : Nat) (f : Graph → Graph) : (modGraph s p k f).mdt = s.mdt := rfl
@[simp] theorem modGraph_stale (s : State) (p k : Nat) (f : Graph → Graph) : (modGraph s p k f).stale = s.stale := rfl
@[simp] theorem modGraph_placed (s : State) (p k : Nat) (f : Graph → Graph) : (modGraph s p k f).placed = s.placed := rfl
@[simp] theorem modGraph_mdtBad (s : State) (p k : Nat) (f : Graph → Graph) : (modGraph s p k f).mdtBad = s.mdtBad := rfl
@[simp] theorem modGraph_mdtHeld (s : State) (p k : Nat) (f : Graph → Graph) : (modGraph s p k f).mdtHeld = s.mdtHeld := rfl
@[simp] theorem modGraph_lostMem (s : State) (p k : Nat) (f : Graph → Graph) : (modGraph s p k f).lostMem = s.lostMem := rfl
@[simp] theorem modGraph_tableBase (s : State) (p k : Nat) (f : Graph → Graph) : (modGraph s p k f).tableBase = s.tableBase := rfl
@[simp] theorem modGraph_fwd (s : State) (p k : Nat) (f : Graph → Graph) : (modGraph s p k f).fwd = s.fwd := rfl
@[simp] theorem modGraph_tokens (s : State) (p k : Nat) (f : Graph → Graph) : (modGraph s p k f).tokens = s.tokens := rfl
@[simp] theorem modGraph_reclaim (s : State) (p k : Nat) (f : Graph → Graph) : (modGraph s p k f).reclaim = s.reclaim := rfl
@[simp] theorem modGraph_tlb (s : State) (p k : Nat) (f : Graph → Graph) : (modGraph s p k f).tlb = s.tlb := rfl
@[simp] theorem modGraph_hide (s : State) (p k : Nat) (f : Graph → Graph) : (modGraph s p k f).hide = s.hide := rfl
@[simp] theorem modGraph_prefixes (s : State) (p k : Nat) (f : Graph → Graph) : (modGraph s p k f).prefixes = s.prefixes := rfl
@[simp] theorem modGraph_pommel (s : State) (p k : Nat) (f : Graph → Graph) : (modGraph s p k f).pommel = s.pommel := rfl
@[simp] theorem modGraph_allocs (s : State) (p k : Nat) (f : Graph → Graph) : (modGraph s p k f).allocs = s.allocs := rfl
@[simp] theorem modGraph_engines (s : State) (p k : Nat) (f : Graph → Graph) : (modGraph s p k f).engines = s.engines := rfl
@[simp] theorem modGraph_cmdSeq (s : State) (p k : Nat) (f : Graph → Graph) : (modGraph s p k f).cmdSeq = s.cmdSeq := rfl
@[simp] theorem modGraph_xfBuf (s : State) (p k : Nat) (f : Graph → Graph) : (modGraph s p k f).xfBuf = s.xfBuf := rfl
@[simp] theorem modGraph_stir (s : State) (p k : Nat) (f : Graph → Graph) : (modGraph s p k f).stir = s.stir := rfl
@[simp] theorem modGraph_cores (s : State) (p k : Nat) (f : Graph → Graph) : (modGraph s p k f).cores = s.cores := rfl
@[simp] theorem modGraph_cur (s : State) (p k : Nat) (f : Graph → Graph) : (modGraph s p k f).cur = s.cur := rfl
@[simp] theorem modGraph_urgent (s : State) (p k : Nat) (f : Graph → Graph) : (modGraph s p k f).urgent = s.urgent := rfl
@[simp] theorem modGraph_tasks (s : State) (p k : Nat) (f : Graph → Graph) : (modGraph s p k f).tasks = s.tasks := rfl
@[simp] theorem modGraph_inbox (s : State) (p k : Nat) (f : Graph → Graph) : (modGraph s p k f).inbox = s.inbox := rfl
@[simp] theorem modGraph_turn (s : State) (p k : Nat) (f : Graph → Graph) : (modGraph s p k f).turn = s.turn := rfl
@[simp] theorem modGraph_rr (s : State) (p k : Nat) (f : Graph → Graph) : (modGraph s p k f).rr = s.rr := rfl
@[simp] theorem modGraph_free (s : State) (p k : Nat) (f : Graph → Graph) : (modGraph s p k f).free = s.free := rfl
@[simp] theorem modGraph_freeLat (s : State) (p k : Nat) (f : Graph → Graph) : (modGraph s p k f).freeLat = s.freeLat := rfl
@[simp] theorem modGraph_freeGap (s : State) (p k : Nat) (f : Graph → Graph) : (modGraph s p k f).freeGap = s.freeGap := rfl
@[simp] theorem modGraph_out (s : State) (p k : Nat) (f : Graph → Graph) : (modGraph s p k f).out = s.out := rfl

/-! ### modCurGraph -/

@[simp] theorem modCurGraph_pwrGood (s : State) (f : Graph → Graph) : (modCurGraph s f).pwrGood = s.pwrGood := rfl
@[simp] theorem modCurGraph_sysRstN (s : State) (f : Graph → Graph) : (modCurGraph s f).sysRstN = s.sysRstN := rfl
@[simp] theorem modCurGraph_perstN (s : State) (f : Graph → Graph) : (modCurGraph s f).perstN = s.perstN := rfl
@[simp] theorem modCurGraph_boot (s : State) (f : Graph → Graph) : (modCurGraph s f).boot = s.boot := rfl
@[simp] theorem modCurGraph_status (s : State) (f : Graph → Graph) : (modCurGraph s f).status = s.status := rfl
@[simp] theorem modCurGraph_pll (s : State) (f : Graph → Graph) : (modCurGraph s f).pll = s.pll := rfl
@[simp] theorem modCurGraph_fc (s : State) (f : Graph → Graph) : (modCurGraph s f).fc = s.fc := rfl
@[simp] theorem modCurGraph_clk (s : State) (f : Graph → Graph) : (modCurGraph s f).clk = s.clk := rfl
@[simp] theorem modCurGraph_fwHash (s : State) (f : Graph → Graph) : (modCurGraph s f).fwHash = s.fwHash := rfl
@[simp] theorem modCurGraph_cfgNormal (s : State) (f : Graph → Graph) : (modCurGraph s f).cfgNormal = s.cfgNormal := rfl
@[simp] theorem modCurGraph_hostLink (s : State) (f : Graph → Graph) : (modCurGraph s f).hostLink = s.hostLink := rfl
@[simp] theorem modCurGraph_fdtCount (s : State) (f : Graph → Graph) : (modCurGraph s f).fdtCount = s.fdtCount := rfl
@[simp] theorem modCurGraph_thermTrip (s : State) (f : Graph → Graph) : (modCurGraph s f).thermTrip = s.thermTrip := rfl
@[simp] theorem modCurGraph_powerCap (s : State) (f : Graph → Graph) : (modCurGraph s f).powerCap = s.powerCap := rfl
@[simp] theorem modCurGraph_deviceId (s : State) (f : Graph → Graph) : (modCurGraph s f).deviceId = s.deviceId := rfl
@[simp] theorem modCurGraph_hitch (s : State) (f : Graph → Graph) : (modCurGraph s f).hitch = s.hitch := rfl
@[simp] theorem modCurGraph_hitchArm (s : State) (f : Graph → Graph) : (modCurGraph s f).hitchArm = s.hitchArm := rfl
@[simp] theorem modCurGraph_fuse (s : State) (f : Graph → Graph) : (modCurGraph s f).fuse = s.fuse := rfl
@[simp] theorem modCurGraph_unlocked (s : State) (f : Graph → Graph) : (modCurGraph s f).unlocked = s.unlocked := rfl
@[simp] theorem modCurGraph_caps (s : State) (f : Graph → Graph) : (modCurGraph s f).caps = s.caps := rfl
@[simp] theorem modCurGraph_arbs (s : State) (f : Graph → Graph) : (modCurGraph s f).arbs = s.arbs := rfl
@[simp] theorem modCurGraph_loads (s : State) (f : Graph → Graph) : (modCurGraph s f).loads = s.loads := rfl
@[simp] theorem modCurGraph_arbBusy (s : State) (f : Graph → Graph) : (modCurGraph s f).arbBusy = s.arbBusy := rfl
@[simp] theorem modCurGraph_vfs (s : State) (f : Graph → Graph) : (modCurGraph s f).vfs = s.vfs := rfl
@[simp] theorem modCurGraph_windows (s : State) (f : Graph → Graph) : (modCurGraph s f).windows = s.windows := rfl
@[simp] theorem modCurGraph_hostLines (s : State) (f : Graph → Graph) : (modCurGraph s f).hostLines = s.hostLines := rfl
@[simp] theorem modCurGraph_hostMem (s : State) (f : Graph → Graph) : (modCurGraph s f).hostMem = s.hostMem := rfl
@[simp] theorem modCurGraph_poolUp (s : State) (f : Graph → Graph) : (modCurGraph s f).poolUp = s.poolUp := rfl
@[simp] theorem modCurGraph_extents (s : State) (f : Graph → Graph) : (modCurGraph s f).extents = s.extents := rfl
@[simp] theorem modCurGraph_fetching (s : State) (f : Graph → Graph) : (modCurGraph s f).fetching = s.fetching := rfl
@[simp] theorem modCurGraph_ports (s : State) (f : Graph → Graph) : (modCurGraph s f).ports = s.ports := rfl
@[simp] theorem modCurGraph_groups (s : State) (f : Graph → Graph) : (modCurGraph s f).groups = s.groups := rfl
@[simp] theorem modCurGraph_opn (s : State) (f : Graph → Graph) : (modCurGraph s f).opn = s.opn := rfl
@[simp] theorem modCurGraph_collOps (s : State) (f : Graph → Graph) : (modCurGraph s f).collOps = s.collOps := rfl
@[simp] theorem modCurGraph_collTimeout (s : State) (f : Graph → Graph) : (modCurGraph s f).collTimeout = s.collTimeout := rfl
@[simp] theorem modCurGraph_mem (s : State) (f : Graph → Graph) : (modCurGraph s f).mem = s.mem := rfl
@[simp] theorem modCurGraph_pend (s : State) (f : Graph → Graph) : (modCurGraph s f).pend = s.pend := rfl
@[simp] theorem modCurGraph_frames (s : State) (f : Graph → Graph) : (modCurGraph s f).frames = s.frames := rfl
@[simp] theorem modCurGraph_l2 (s : State) (f : Graph → Graph) : (modCurGraph s f).l2 = s.l2 := rfl
@[simp] theorem modCurGraph_olim (s : State) (f : Graph → Graph) : (modCurGraph s f).olim = s.olim := rfl
@[simp] theorem modCurGraph_mdt (s : State) (f : Graph → Graph) : (modCurGraph s f).mdt = s.mdt := rfl
@[simp] theorem modCurGraph_stale (s : State) (f : Graph → Graph) : (modCurGraph s f).stale = s.stale := rfl
@[simp] theorem modCurGraph_placed (s : State) (f : Graph → Graph) : (modCurGraph s f).placed = s.placed := rfl
@[simp] theorem modCurGraph_mdtBad (s : State) (f : Graph → Graph) : (modCurGraph s f).mdtBad = s.mdtBad := rfl
@[simp] theorem modCurGraph_mdtHeld (s : State) (f : Graph → Graph) : (modCurGraph s f).mdtHeld = s.mdtHeld := rfl
@[simp] theorem modCurGraph_lostMem (s : State) (f : Graph → Graph) : (modCurGraph s f).lostMem = s.lostMem := rfl
@[simp] theorem modCurGraph_tableBase (s : State) (f : Graph → Graph) : (modCurGraph s f).tableBase = s.tableBase := rfl
@[simp] theorem modCurGraph_fwd (s : State) (f : Graph → Graph) : (modCurGraph s f).fwd = s.fwd := rfl
@[simp] theorem modCurGraph_tokens (s : State) (f : Graph → Graph) : (modCurGraph s f).tokens = s.tokens := rfl
@[simp] theorem modCurGraph_reclaim (s : State) (f : Graph → Graph) : (modCurGraph s f).reclaim = s.reclaim := rfl
@[simp] theorem modCurGraph_tlb (s : State) (f : Graph → Graph) : (modCurGraph s f).tlb = s.tlb := rfl
@[simp] theorem modCurGraph_hide (s : State) (f : Graph → Graph) : (modCurGraph s f).hide = s.hide := rfl
@[simp] theorem modCurGraph_prefixes (s : State) (f : Graph → Graph) : (modCurGraph s f).prefixes = s.prefixes := rfl
@[simp] theorem modCurGraph_pommel (s : State) (f : Graph → Graph) : (modCurGraph s f).pommel = s.pommel := rfl
@[simp] theorem modCurGraph_allocs (s : State) (f : Graph → Graph) : (modCurGraph s f).allocs = s.allocs := rfl
@[simp] theorem modCurGraph_engines (s : State) (f : Graph → Graph) : (modCurGraph s f).engines = s.engines := rfl
@[simp] theorem modCurGraph_cmdSeq (s : State) (f : Graph → Graph) : (modCurGraph s f).cmdSeq = s.cmdSeq := rfl
@[simp] theorem modCurGraph_xfBuf (s : State) (f : Graph → Graph) : (modCurGraph s f).xfBuf = s.xfBuf := rfl
@[simp] theorem modCurGraph_stir (s : State) (f : Graph → Graph) : (modCurGraph s f).stir = s.stir := rfl
@[simp] theorem modCurGraph_cores (s : State) (f : Graph → Graph) : (modCurGraph s f).cores = s.cores := rfl
@[simp] theorem modCurGraph_cur (s : State) (f : Graph → Graph) : (modCurGraph s f).cur = s.cur := rfl
@[simp] theorem modCurGraph_urgent (s : State) (f : Graph → Graph) : (modCurGraph s f).urgent = s.urgent := rfl
@[simp] theorem modCurGraph_tasks (s : State) (f : Graph → Graph) : (modCurGraph s f).tasks = s.tasks := rfl
@[simp] theorem modCurGraph_inbox (s : State) (f : Graph → Graph) : (modCurGraph s f).inbox = s.inbox := rfl
@[simp] theorem modCurGraph_turn (s : State) (f : Graph → Graph) : (modCurGraph s f).turn = s.turn := rfl
@[simp] theorem modCurGraph_rr (s : State) (f : Graph → Graph) : (modCurGraph s f).rr = s.rr := rfl
@[simp] theorem modCurGraph_free (s : State) (f : Graph → Graph) : (modCurGraph s f).free = s.free := rfl
@[simp] theorem modCurGraph_freeLat (s : State) (f : Graph → Graph) : (modCurGraph s f).freeLat = s.freeLat := rfl
@[simp] theorem modCurGraph_freeGap (s : State) (f : Graph → Graph) : (modCurGraph s f).freeGap = s.freeGap := rfl
@[simp] theorem modCurGraph_out (s : State) (f : Graph → Graph) : (modCurGraph s f).out = s.out := rfl

/-! ### putVf -/

@[simp] theorem putVf_pwrGood (s : State) (v : Nat) (x : Vf) : (putVf s v x).pwrGood = s.pwrGood := rfl
@[simp] theorem putVf_sysRstN (s : State) (v : Nat) (x : Vf) : (putVf s v x).sysRstN = s.sysRstN := rfl
@[simp] theorem putVf_perstN (s : State) (v : Nat) (x : Vf) : (putVf s v x).perstN = s.perstN := rfl
@[simp] theorem putVf_boot (s : State) (v : Nat) (x : Vf) : (putVf s v x).boot = s.boot := rfl
@[simp] theorem putVf_status (s : State) (v : Nat) (x : Vf) : (putVf s v x).status = s.status := rfl
@[simp] theorem putVf_pll (s : State) (v : Nat) (x : Vf) : (putVf s v x).pll = s.pll := rfl
@[simp] theorem putVf_fc (s : State) (v : Nat) (x : Vf) : (putVf s v x).fc = s.fc := rfl
@[simp] theorem putVf_clk (s : State) (v : Nat) (x : Vf) : (putVf s v x).clk = s.clk := rfl
@[simp] theorem putVf_fwHash (s : State) (v : Nat) (x : Vf) : (putVf s v x).fwHash = s.fwHash := rfl
@[simp] theorem putVf_cfgNormal (s : State) (v : Nat) (x : Vf) : (putVf s v x).cfgNormal = s.cfgNormal := rfl
@[simp] theorem putVf_hostLink (s : State) (v : Nat) (x : Vf) : (putVf s v x).hostLink = s.hostLink := rfl
@[simp] theorem putVf_fdtCount (s : State) (v : Nat) (x : Vf) : (putVf s v x).fdtCount = s.fdtCount := rfl
@[simp] theorem putVf_thermTrip (s : State) (v : Nat) (x : Vf) : (putVf s v x).thermTrip = s.thermTrip := rfl
@[simp] theorem putVf_powerCap (s : State) (v : Nat) (x : Vf) : (putVf s v x).powerCap = s.powerCap := rfl
@[simp] theorem putVf_deviceId (s : State) (v : Nat) (x : Vf) : (putVf s v x).deviceId = s.deviceId := rfl
@[simp] theorem putVf_hitch (s : State) (v : Nat) (x : Vf) : (putVf s v x).hitch = s.hitch := rfl
@[simp] theorem putVf_hitchArm (s : State) (v : Nat) (x : Vf) : (putVf s v x).hitchArm = s.hitchArm := rfl
@[simp] theorem putVf_fuse (s : State) (v : Nat) (x : Vf) : (putVf s v x).fuse = s.fuse := rfl
@[simp] theorem putVf_unlocked (s : State) (v : Nat) (x : Vf) : (putVf s v x).unlocked = s.unlocked := rfl
@[simp] theorem putVf_caps (s : State) (v : Nat) (x : Vf) : (putVf s v x).caps = s.caps := rfl
@[simp] theorem putVf_arbs (s : State) (v : Nat) (x : Vf) : (putVf s v x).arbs = s.arbs := rfl
@[simp] theorem putVf_loads (s : State) (v : Nat) (x : Vf) : (putVf s v x).loads = s.loads := rfl
@[simp] theorem putVf_arbBusy (s : State) (v : Nat) (x : Vf) : (putVf s v x).arbBusy = s.arbBusy := rfl
@[simp] theorem putVf_vfs (s : State) (v : Nat) (x : Vf) : (putVf s v x).vfs = tput s.vfs v x := rfl
@[simp] theorem putVf_windows (s : State) (v : Nat) (x : Vf) : (putVf s v x).windows = s.windows := rfl
@[simp] theorem putVf_hostLines (s : State) (v : Nat) (x : Vf) : (putVf s v x).hostLines = s.hostLines := rfl
@[simp] theorem putVf_hostMem (s : State) (v : Nat) (x : Vf) : (putVf s v x).hostMem = s.hostMem := rfl
@[simp] theorem putVf_poolUp (s : State) (v : Nat) (x : Vf) : (putVf s v x).poolUp = s.poolUp := rfl
@[simp] theorem putVf_extents (s : State) (v : Nat) (x : Vf) : (putVf s v x).extents = s.extents := rfl
@[simp] theorem putVf_fetching (s : State) (v : Nat) (x : Vf) : (putVf s v x).fetching = s.fetching := rfl
@[simp] theorem putVf_ports (s : State) (v : Nat) (x : Vf) : (putVf s v x).ports = s.ports := rfl
@[simp] theorem putVf_groups (s : State) (v : Nat) (x : Vf) : (putVf s v x).groups = s.groups := rfl
@[simp] theorem putVf_opn (s : State) (v : Nat) (x : Vf) : (putVf s v x).opn = s.opn := rfl
@[simp] theorem putVf_collOps (s : State) (v : Nat) (x : Vf) : (putVf s v x).collOps = s.collOps := rfl
@[simp] theorem putVf_collTimeout (s : State) (v : Nat) (x : Vf) : (putVf s v x).collTimeout = s.collTimeout := rfl
@[simp] theorem putVf_mem (s : State) (v : Nat) (x : Vf) : (putVf s v x).mem = s.mem := rfl
@[simp] theorem putVf_pend (s : State) (v : Nat) (x : Vf) : (putVf s v x).pend = s.pend := rfl
@[simp] theorem putVf_frames (s : State) (v : Nat) (x : Vf) : (putVf s v x).frames = s.frames := rfl
@[simp] theorem putVf_l2 (s : State) (v : Nat) (x : Vf) : (putVf s v x).l2 = s.l2 := rfl
@[simp] theorem putVf_olim (s : State) (v : Nat) (x : Vf) : (putVf s v x).olim = s.olim := rfl
@[simp] theorem putVf_mdt (s : State) (v : Nat) (x : Vf) : (putVf s v x).mdt = s.mdt := rfl
@[simp] theorem putVf_stale (s : State) (v : Nat) (x : Vf) : (putVf s v x).stale = s.stale := rfl
@[simp] theorem putVf_placed (s : State) (v : Nat) (x : Vf) : (putVf s v x).placed = s.placed := rfl
@[simp] theorem putVf_mdtBad (s : State) (v : Nat) (x : Vf) : (putVf s v x).mdtBad = s.mdtBad := rfl
@[simp] theorem putVf_mdtHeld (s : State) (v : Nat) (x : Vf) : (putVf s v x).mdtHeld = s.mdtHeld := rfl
@[simp] theorem putVf_lostMem (s : State) (v : Nat) (x : Vf) : (putVf s v x).lostMem = s.lostMem := rfl
@[simp] theorem putVf_tableBase (s : State) (v : Nat) (x : Vf) : (putVf s v x).tableBase = s.tableBase := rfl
@[simp] theorem putVf_fwd (s : State) (v : Nat) (x : Vf) : (putVf s v x).fwd = s.fwd := rfl
@[simp] theorem putVf_tokens (s : State) (v : Nat) (x : Vf) : (putVf s v x).tokens = s.tokens := rfl
@[simp] theorem putVf_reclaim (s : State) (v : Nat) (x : Vf) : (putVf s v x).reclaim = s.reclaim := rfl
@[simp] theorem putVf_tlb (s : State) (v : Nat) (x : Vf) : (putVf s v x).tlb = s.tlb := rfl
@[simp] theorem putVf_hide (s : State) (v : Nat) (x : Vf) : (putVf s v x).hide = s.hide := rfl
@[simp] theorem putVf_prefixes (s : State) (v : Nat) (x : Vf) : (putVf s v x).prefixes = s.prefixes := rfl
@[simp] theorem putVf_pommel (s : State) (v : Nat) (x : Vf) : (putVf s v x).pommel = s.pommel := rfl
@[simp] theorem putVf_allocs (s : State) (v : Nat) (x : Vf) : (putVf s v x).allocs = s.allocs := rfl
@[simp] theorem putVf_engines (s : State) (v : Nat) (x : Vf) : (putVf s v x).engines = s.engines := rfl
@[simp] theorem putVf_cmdSeq (s : State) (v : Nat) (x : Vf) : (putVf s v x).cmdSeq = s.cmdSeq := rfl
@[simp] theorem putVf_xfBuf (s : State) (v : Nat) (x : Vf) : (putVf s v x).xfBuf = s.xfBuf := rfl
@[simp] theorem putVf_stir (s : State) (v : Nat) (x : Vf) : (putVf s v x).stir = s.stir := rfl
@[simp] theorem putVf_parts (s : State) (v : Nat) (x : Vf) : (putVf s v x).parts = s.parts := rfl
@[simp] theorem putVf_cores (s : State) (v : Nat) (x : Vf) : (putVf s v x).cores = s.cores := rfl
@[simp] theorem putVf_cur (s : State) (v : Nat) (x : Vf) : (putVf s v x).cur = s.cur := rfl
@[simp] theorem putVf_urgent (s : State) (v : Nat) (x : Vf) : (putVf s v x).urgent = s.urgent := rfl
@[simp] theorem putVf_tasks (s : State) (v : Nat) (x : Vf) : (putVf s v x).tasks = s.tasks := rfl
@[simp] theorem putVf_inbox (s : State) (v : Nat) (x : Vf) : (putVf s v x).inbox = s.inbox := rfl
@[simp] theorem putVf_turn (s : State) (v : Nat) (x : Vf) : (putVf s v x).turn = s.turn := rfl
@[simp] theorem putVf_rr (s : State) (v : Nat) (x : Vf) : (putVf s v x).rr = s.rr := rfl
@[simp] theorem putVf_free (s : State) (v : Nat) (x : Vf) : (putVf s v x).free = s.free := rfl
@[simp] theorem putVf_freeLat (s : State) (v : Nat) (x : Vf) : (putVf s v x).freeLat = s.freeLat := rfl
@[simp] theorem putVf_freeGap (s : State) (v : Nat) (x : Vf) : (putVf s v x).freeGap = s.freeGap := rfl
@[simp] theorem putVf_out (s : State) (v : Nat) (x : Vf) : (putVf s v x).out = s.out := rfl

/-! ### modVf -/

@[simp] theorem modVf_pwrGood (s : State) (v : Nat) (f : Vf → Vf) : (modVf s v f).pwrGood = s.pwrGood := rfl
@[simp] theorem modVf_sysRstN (s : State) (v : Nat) (f : Vf → Vf) : (modVf s v f).sysRstN = s.sysRstN := rfl
@[simp] theorem modVf_perstN (s : State) (v : Nat) (f : Vf → Vf) : (modVf s v f).perstN = s.perstN := rfl
@[simp] theorem modVf_boot (s : State) (v : Nat) (f : Vf → Vf) : (modVf s v f).boot = s.boot := rfl
@[simp] theorem modVf_status (s : State) (v : Nat) (f : Vf → Vf) : (modVf s v f).status = s.status := rfl
@[simp] theorem modVf_pll (s : State) (v : Nat) (f : Vf → Vf) : (modVf s v f).pll = s.pll := rfl
@[simp] theorem modVf_fc (s : State) (v : Nat) (f : Vf → Vf) : (modVf s v f).fc = s.fc := rfl
@[simp] theorem modVf_clk (s : State) (v : Nat) (f : Vf → Vf) : (modVf s v f).clk = s.clk := rfl
@[simp] theorem modVf_fwHash (s : State) (v : Nat) (f : Vf → Vf) : (modVf s v f).fwHash = s.fwHash := rfl
@[simp] theorem modVf_cfgNormal (s : State) (v : Nat) (f : Vf → Vf) : (modVf s v f).cfgNormal = s.cfgNormal := rfl
@[simp] theorem modVf_hostLink (s : State) (v : Nat) (f : Vf → Vf) : (modVf s v f).hostLink = s.hostLink := rfl
@[simp] theorem modVf_fdtCount (s : State) (v : Nat) (f : Vf → Vf) : (modVf s v f).fdtCount = s.fdtCount := rfl
@[simp] theorem modVf_thermTrip (s : State) (v : Nat) (f : Vf → Vf) : (modVf s v f).thermTrip = s.thermTrip := rfl
@[simp] theorem modVf_powerCap (s : State) (v : Nat) (f : Vf → Vf) : (modVf s v f).powerCap = s.powerCap := rfl
@[simp] theorem modVf_deviceId (s : State) (v : Nat) (f : Vf → Vf) : (modVf s v f).deviceId = s.deviceId := rfl
@[simp] theorem modVf_hitch (s : State) (v : Nat) (f : Vf → Vf) : (modVf s v f).hitch = s.hitch := rfl
@[simp] theorem modVf_hitchArm (s : State) (v : Nat) (f : Vf → Vf) : (modVf s v f).hitchArm = s.hitchArm := rfl
@[simp] theorem modVf_fuse (s : State) (v : Nat) (f : Vf → Vf) : (modVf s v f).fuse = s.fuse := rfl
@[simp] theorem modVf_unlocked (s : State) (v : Nat) (f : Vf → Vf) : (modVf s v f).unlocked = s.unlocked := rfl
@[simp] theorem modVf_caps (s : State) (v : Nat) (f : Vf → Vf) : (modVf s v f).caps = s.caps := rfl
@[simp] theorem modVf_arbs (s : State) (v : Nat) (f : Vf → Vf) : (modVf s v f).arbs = s.arbs := rfl
@[simp] theorem modVf_loads (s : State) (v : Nat) (f : Vf → Vf) : (modVf s v f).loads = s.loads := rfl
@[simp] theorem modVf_arbBusy (s : State) (v : Nat) (f : Vf → Vf) : (modVf s v f).arbBusy = s.arbBusy := rfl
@[simp] theorem modVf_vfs (s : State) (v : Nat) (f : Vf → Vf) : (modVf s v f).vfs = tput s.vfs v (f (vfOf s v)) := rfl
@[simp] theorem modVf_windows (s : State) (v : Nat) (f : Vf → Vf) : (modVf s v f).windows = s.windows := rfl
@[simp] theorem modVf_hostLines (s : State) (v : Nat) (f : Vf → Vf) : (modVf s v f).hostLines = s.hostLines := rfl
@[simp] theorem modVf_hostMem (s : State) (v : Nat) (f : Vf → Vf) : (modVf s v f).hostMem = s.hostMem := rfl
@[simp] theorem modVf_poolUp (s : State) (v : Nat) (f : Vf → Vf) : (modVf s v f).poolUp = s.poolUp := rfl
@[simp] theorem modVf_extents (s : State) (v : Nat) (f : Vf → Vf) : (modVf s v f).extents = s.extents := rfl
@[simp] theorem modVf_fetching (s : State) (v : Nat) (f : Vf → Vf) : (modVf s v f).fetching = s.fetching := rfl
@[simp] theorem modVf_ports (s : State) (v : Nat) (f : Vf → Vf) : (modVf s v f).ports = s.ports := rfl
@[simp] theorem modVf_groups (s : State) (v : Nat) (f : Vf → Vf) : (modVf s v f).groups = s.groups := rfl
@[simp] theorem modVf_opn (s : State) (v : Nat) (f : Vf → Vf) : (modVf s v f).opn = s.opn := rfl
@[simp] theorem modVf_collOps (s : State) (v : Nat) (f : Vf → Vf) : (modVf s v f).collOps = s.collOps := rfl
@[simp] theorem modVf_collTimeout (s : State) (v : Nat) (f : Vf → Vf) : (modVf s v f).collTimeout = s.collTimeout := rfl
@[simp] theorem modVf_mem (s : State) (v : Nat) (f : Vf → Vf) : (modVf s v f).mem = s.mem := rfl
@[simp] theorem modVf_pend (s : State) (v : Nat) (f : Vf → Vf) : (modVf s v f).pend = s.pend := rfl
@[simp] theorem modVf_frames (s : State) (v : Nat) (f : Vf → Vf) : (modVf s v f).frames = s.frames := rfl
@[simp] theorem modVf_l2 (s : State) (v : Nat) (f : Vf → Vf) : (modVf s v f).l2 = s.l2 := rfl
@[simp] theorem modVf_olim (s : State) (v : Nat) (f : Vf → Vf) : (modVf s v f).olim = s.olim := rfl
@[simp] theorem modVf_mdt (s : State) (v : Nat) (f : Vf → Vf) : (modVf s v f).mdt = s.mdt := rfl
@[simp] theorem modVf_stale (s : State) (v : Nat) (f : Vf → Vf) : (modVf s v f).stale = s.stale := rfl
@[simp] theorem modVf_placed (s : State) (v : Nat) (f : Vf → Vf) : (modVf s v f).placed = s.placed := rfl
@[simp] theorem modVf_mdtBad (s : State) (v : Nat) (f : Vf → Vf) : (modVf s v f).mdtBad = s.mdtBad := rfl
@[simp] theorem modVf_mdtHeld (s : State) (v : Nat) (f : Vf → Vf) : (modVf s v f).mdtHeld = s.mdtHeld := rfl
@[simp] theorem modVf_lostMem (s : State) (v : Nat) (f : Vf → Vf) : (modVf s v f).lostMem = s.lostMem := rfl
@[simp] theorem modVf_tableBase (s : State) (v : Nat) (f : Vf → Vf) : (modVf s v f).tableBase = s.tableBase := rfl
@[simp] theorem modVf_fwd (s : State) (v : Nat) (f : Vf → Vf) : (modVf s v f).fwd = s.fwd := rfl
@[simp] theorem modVf_tokens (s : State) (v : Nat) (f : Vf → Vf) : (modVf s v f).tokens = s.tokens := rfl
@[simp] theorem modVf_reclaim (s : State) (v : Nat) (f : Vf → Vf) : (modVf s v f).reclaim = s.reclaim := rfl
@[simp] theorem modVf_tlb (s : State) (v : Nat) (f : Vf → Vf) : (modVf s v f).tlb = s.tlb := rfl
@[simp] theorem modVf_hide (s : State) (v : Nat) (f : Vf → Vf) : (modVf s v f).hide = s.hide := rfl
@[simp] theorem modVf_prefixes (s : State) (v : Nat) (f : Vf → Vf) : (modVf s v f).prefixes = s.prefixes := rfl
@[simp] theorem modVf_pommel (s : State) (v : Nat) (f : Vf → Vf) : (modVf s v f).pommel = s.pommel := rfl
@[simp] theorem modVf_allocs (s : State) (v : Nat) (f : Vf → Vf) : (modVf s v f).allocs = s.allocs := rfl
@[simp] theorem modVf_engines (s : State) (v : Nat) (f : Vf → Vf) : (modVf s v f).engines = s.engines := rfl
@[simp] theorem modVf_cmdSeq (s : State) (v : Nat) (f : Vf → Vf) : (modVf s v f).cmdSeq = s.cmdSeq := rfl
@[simp] theorem modVf_xfBuf (s : State) (v : Nat) (f : Vf → Vf) : (modVf s v f).xfBuf = s.xfBuf := rfl
@[simp] theorem modVf_stir (s : State) (v : Nat) (f : Vf → Vf) : (modVf s v f).stir = s.stir := rfl
@[simp] theorem modVf_parts (s : State) (v : Nat) (f : Vf → Vf) : (modVf s v f).parts = s.parts := rfl
@[simp] theorem modVf_cores (s : State) (v : Nat) (f : Vf → Vf) : (modVf s v f).cores = s.cores := rfl
@[simp] theorem modVf_cur (s : State) (v : Nat) (f : Vf → Vf) : (modVf s v f).cur = s.cur := rfl
@[simp] theorem modVf_urgent (s : State) (v : Nat) (f : Vf → Vf) : (modVf s v f).urgent = s.urgent := rfl
@[simp] theorem modVf_tasks (s : State) (v : Nat) (f : Vf → Vf) : (modVf s v f).tasks = s.tasks := rfl
@[simp] theorem modVf_inbox (s : State) (v : Nat) (f : Vf → Vf) : (modVf s v f).inbox = s.inbox := rfl
@[simp] theorem modVf_turn (s : State) (v : Nat) (f : Vf → Vf) : (modVf s v f).turn = s.turn := rfl
@[simp] theorem modVf_rr (s : State) (v : Nat) (f : Vf → Vf) : (modVf s v f).rr = s.rr := rfl
@[simp] theorem modVf_free (s : State) (v : Nat) (f : Vf → Vf) : (modVf s v f).free = s.free := rfl
@[simp] theorem modVf_freeLat (s : State) (v : Nat) (f : Vf → Vf) : (modVf s v f).freeLat = s.freeLat := rfl
@[simp] theorem modVf_freeGap (s : State) (v : Nat) (f : Vf → Vf) : (modVf s v f).freeGap = s.freeGap := rfl
@[simp] theorem modVf_out (s : State) (v : Nat) (f : Vf → Vf) : (modVf s v f).out = s.out := rfl

/-! ### modStream -/

@[simp] theorem modStream_pwrGood (s : State) (v : Nat) (n : Fin 8) (f : Stream → Stream) : (modStream s v n f).pwrGood = s.pwrGood := rfl
@[simp] theorem modStream_sysRstN (s : State) (v : Nat) (n : Fin 8) (f : Stream → Stream) : (modStream s v n f).sysRstN = s.sysRstN := rfl
@[simp] theorem modStream_perstN (s : State) (v : Nat) (n : Fin 8) (f : Stream → Stream) : (modStream s v n f).perstN = s.perstN := rfl
@[simp] theorem modStream_boot (s : State) (v : Nat) (n : Fin 8) (f : Stream → Stream) : (modStream s v n f).boot = s.boot := rfl
@[simp] theorem modStream_status (s : State) (v : Nat) (n : Fin 8) (f : Stream → Stream) : (modStream s v n f).status = s.status := rfl
@[simp] theorem modStream_pll (s : State) (v : Nat) (n : Fin 8) (f : Stream → Stream) : (modStream s v n f).pll = s.pll := rfl
@[simp] theorem modStream_fc (s : State) (v : Nat) (n : Fin 8) (f : Stream → Stream) : (modStream s v n f).fc = s.fc := rfl
@[simp] theorem modStream_clk (s : State) (v : Nat) (n : Fin 8) (f : Stream → Stream) : (modStream s v n f).clk = s.clk := rfl
@[simp] theorem modStream_fwHash (s : State) (v : Nat) (n : Fin 8) (f : Stream → Stream) : (modStream s v n f).fwHash = s.fwHash := rfl
@[simp] theorem modStream_cfgNormal (s : State) (v : Nat) (n : Fin 8) (f : Stream → Stream) : (modStream s v n f).cfgNormal = s.cfgNormal := rfl
@[simp] theorem modStream_hostLink (s : State) (v : Nat) (n : Fin 8) (f : Stream → Stream) : (modStream s v n f).hostLink = s.hostLink := rfl
@[simp] theorem modStream_fdtCount (s : State) (v : Nat) (n : Fin 8) (f : Stream → Stream) : (modStream s v n f).fdtCount = s.fdtCount := rfl
@[simp] theorem modStream_thermTrip (s : State) (v : Nat) (n : Fin 8) (f : Stream → Stream) : (modStream s v n f).thermTrip = s.thermTrip := rfl
@[simp] theorem modStream_powerCap (s : State) (v : Nat) (n : Fin 8) (f : Stream → Stream) : (modStream s v n f).powerCap = s.powerCap := rfl
@[simp] theorem modStream_deviceId (s : State) (v : Nat) (n : Fin 8) (f : Stream → Stream) : (modStream s v n f).deviceId = s.deviceId := rfl
@[simp] theorem modStream_hitch (s : State) (v : Nat) (n : Fin 8) (f : Stream → Stream) : (modStream s v n f).hitch = s.hitch := rfl
@[simp] theorem modStream_hitchArm (s : State) (v : Nat) (n : Fin 8) (f : Stream → Stream) : (modStream s v n f).hitchArm = s.hitchArm := rfl
@[simp] theorem modStream_fuse (s : State) (v : Nat) (n : Fin 8) (f : Stream → Stream) : (modStream s v n f).fuse = s.fuse := rfl
@[simp] theorem modStream_unlocked (s : State) (v : Nat) (n : Fin 8) (f : Stream → Stream) : (modStream s v n f).unlocked = s.unlocked := rfl
@[simp] theorem modStream_caps (s : State) (v : Nat) (n : Fin 8) (f : Stream → Stream) : (modStream s v n f).caps = s.caps := rfl
@[simp] theorem modStream_arbs (s : State) (v : Nat) (n : Fin 8) (f : Stream → Stream) : (modStream s v n f).arbs = s.arbs := rfl
@[simp] theorem modStream_loads (s : State) (v : Nat) (n : Fin 8) (f : Stream → Stream) : (modStream s v n f).loads = s.loads := rfl
@[simp] theorem modStream_arbBusy (s : State) (v : Nat) (n : Fin 8) (f : Stream → Stream) : (modStream s v n f).arbBusy = s.arbBusy := rfl
@[simp] theorem modStream_windows (s : State) (v : Nat) (n : Fin 8) (f : Stream → Stream) : (modStream s v n f).windows = s.windows := rfl
@[simp] theorem modStream_hostLines (s : State) (v : Nat) (n : Fin 8) (f : Stream → Stream) : (modStream s v n f).hostLines = s.hostLines := rfl
@[simp] theorem modStream_hostMem (s : State) (v : Nat) (n : Fin 8) (f : Stream → Stream) : (modStream s v n f).hostMem = s.hostMem := rfl
@[simp] theorem modStream_poolUp (s : State) (v : Nat) (n : Fin 8) (f : Stream → Stream) : (modStream s v n f).poolUp = s.poolUp := rfl
@[simp] theorem modStream_extents (s : State) (v : Nat) (n : Fin 8) (f : Stream → Stream) : (modStream s v n f).extents = s.extents := rfl
@[simp] theorem modStream_fetching (s : State) (v : Nat) (n : Fin 8) (f : Stream → Stream) : (modStream s v n f).fetching = s.fetching := rfl
@[simp] theorem modStream_ports (s : State) (v : Nat) (n : Fin 8) (f : Stream → Stream) : (modStream s v n f).ports = s.ports := rfl
@[simp] theorem modStream_groups (s : State) (v : Nat) (n : Fin 8) (f : Stream → Stream) : (modStream s v n f).groups = s.groups := rfl
@[simp] theorem modStream_opn (s : State) (v : Nat) (n : Fin 8) (f : Stream → Stream) : (modStream s v n f).opn = s.opn := rfl
@[simp] theorem modStream_collOps (s : State) (v : Nat) (n : Fin 8) (f : Stream → Stream) : (modStream s v n f).collOps = s.collOps := rfl
@[simp] theorem modStream_collTimeout (s : State) (v : Nat) (n : Fin 8) (f : Stream → Stream) : (modStream s v n f).collTimeout = s.collTimeout := rfl
@[simp] theorem modStream_mem (s : State) (v : Nat) (n : Fin 8) (f : Stream → Stream) : (modStream s v n f).mem = s.mem := rfl
@[simp] theorem modStream_pend (s : State) (v : Nat) (n : Fin 8) (f : Stream → Stream) : (modStream s v n f).pend = s.pend := rfl
@[simp] theorem modStream_frames (s : State) (v : Nat) (n : Fin 8) (f : Stream → Stream) : (modStream s v n f).frames = s.frames := rfl
@[simp] theorem modStream_l2 (s : State) (v : Nat) (n : Fin 8) (f : Stream → Stream) : (modStream s v n f).l2 = s.l2 := rfl
@[simp] theorem modStream_olim (s : State) (v : Nat) (n : Fin 8) (f : Stream → Stream) : (modStream s v n f).olim = s.olim := rfl
@[simp] theorem modStream_mdt (s : State) (v : Nat) (n : Fin 8) (f : Stream → Stream) : (modStream s v n f).mdt = s.mdt := rfl
@[simp] theorem modStream_stale (s : State) (v : Nat) (n : Fin 8) (f : Stream → Stream) : (modStream s v n f).stale = s.stale := rfl
@[simp] theorem modStream_placed (s : State) (v : Nat) (n : Fin 8) (f : Stream → Stream) : (modStream s v n f).placed = s.placed := rfl
@[simp] theorem modStream_mdtBad (s : State) (v : Nat) (n : Fin 8) (f : Stream → Stream) : (modStream s v n f).mdtBad = s.mdtBad := rfl
@[simp] theorem modStream_mdtHeld (s : State) (v : Nat) (n : Fin 8) (f : Stream → Stream) : (modStream s v n f).mdtHeld = s.mdtHeld := rfl
@[simp] theorem modStream_lostMem (s : State) (v : Nat) (n : Fin 8) (f : Stream → Stream) : (modStream s v n f).lostMem = s.lostMem := rfl
@[simp] theorem modStream_tableBase (s : State) (v : Nat) (n : Fin 8) (f : Stream → Stream) : (modStream s v n f).tableBase = s.tableBase := rfl
@[simp] theorem modStream_fwd (s : State) (v : Nat) (n : Fin 8) (f : Stream → Stream) : (modStream s v n f).fwd = s.fwd := rfl
@[simp] theorem modStream_tokens (s : State) (v : Nat) (n : Fin 8) (f : Stream → Stream) : (modStream s v n f).tokens = s.tokens := rfl
@[simp] theorem modStream_reclaim (s : State) (v : Nat) (n : Fin 8) (f : Stream → Stream) : (modStream s v n f).reclaim = s.reclaim := rfl
@[simp] theorem modStream_tlb (s : State) (v : Nat) (n : Fin 8) (f : Stream → Stream) : (modStream s v n f).tlb = s.tlb := rfl
@[simp] theorem modStream_hide (s : State) (v : Nat) (n : Fin 8) (f : Stream → Stream) : (modStream s v n f).hide = s.hide := rfl
@[simp] theorem modStream_prefixes (s : State) (v : Nat) (n : Fin 8) (f : Stream → Stream) : (modStream s v n f).prefixes = s.prefixes := rfl
@[simp] theorem modStream_pommel (s : State) (v : Nat) (n : Fin 8) (f : Stream → Stream) : (modStream s v n f).pommel = s.pommel := rfl
@[simp] theorem modStream_allocs (s : State) (v : Nat) (n : Fin 8) (f : Stream → Stream) : (modStream s v n f).allocs = s.allocs := rfl
@[simp] theorem modStream_engines (s : State) (v : Nat) (n : Fin 8) (f : Stream → Stream) : (modStream s v n f).engines = s.engines := rfl
@[simp] theorem modStream_cmdSeq (s : State) (v : Nat) (n : Fin 8) (f : Stream → Stream) : (modStream s v n f).cmdSeq = s.cmdSeq := rfl
@[simp] theorem modStream_xfBuf (s : State) (v : Nat) (n : Fin 8) (f : Stream → Stream) : (modStream s v n f).xfBuf = s.xfBuf := rfl
@[simp] theorem modStream_stir (s : State) (v : Nat) (n : Fin 8) (f : Stream → Stream) : (modStream s v n f).stir = s.stir := rfl
@[simp] theorem modStream_parts (s : State) (v : Nat) (n : Fin 8) (f : Stream → Stream) : (modStream s v n f).parts = s.parts := rfl
@[simp] theorem modStream_cores (s : State) (v : Nat) (n : Fin 8) (f : Stream → Stream) : (modStream s v n f).cores = s.cores := rfl
@[simp] theorem modStream_cur (s : State) (v : Nat) (n : Fin 8) (f : Stream → Stream) : (modStream s v n f).cur = s.cur := rfl
@[simp] theorem modStream_urgent (s : State) (v : Nat) (n : Fin 8) (f : Stream → Stream) : (modStream s v n f).urgent = s.urgent := rfl
@[simp] theorem modStream_tasks (s : State) (v : Nat) (n : Fin 8) (f : Stream → Stream) : (modStream s v n f).tasks = s.tasks := rfl
@[simp] theorem modStream_inbox (s : State) (v : Nat) (n : Fin 8) (f : Stream → Stream) : (modStream s v n f).inbox = s.inbox := rfl
@[simp] theorem modStream_turn (s : State) (v : Nat) (n : Fin 8) (f : Stream → Stream) : (modStream s v n f).turn = s.turn := rfl
@[simp] theorem modStream_rr (s : State) (v : Nat) (n : Fin 8) (f : Stream → Stream) : (modStream s v n f).rr = s.rr := rfl
@[simp] theorem modStream_free (s : State) (v : Nat) (n : Fin 8) (f : Stream → Stream) : (modStream s v n f).free = s.free := rfl
@[simp] theorem modStream_freeLat (s : State) (v : Nat) (n : Fin 8) (f : Stream → Stream) : (modStream s v n f).freeLat = s.freeLat := rfl
@[simp] theorem modStream_freeGap (s : State) (v : Nat) (n : Fin 8) (f : Stream → Stream) : (modStream s v n f).freeGap = s.freeGap := rfl
@[simp] theorem modStream_out (s : State) (v : Nat) (n : Fin 8) (f : Stream → Stream) : (modStream s v n f).out = s.out := rfl

/-! ### postEvent -/

@[simp] theorem postEvent_pwrGood (s : State) (v : Nat) (e : Event) : (postEvent s v e).pwrGood = s.pwrGood := rfl
@[simp] theorem postEvent_sysRstN (s : State) (v : Nat) (e : Event) : (postEvent s v e).sysRstN = s.sysRstN := rfl
@[simp] theorem postEvent_perstN (s : State) (v : Nat) (e : Event) : (postEvent s v e).perstN = s.perstN := rfl
@[simp] theorem postEvent_boot (s : State) (v : Nat) (e : Event) : (postEvent s v e).boot = s.boot := rfl
@[simp] theorem postEvent_status (s : State) (v : Nat) (e : Event) : (postEvent s v e).status = s.status := rfl
@[simp] theorem postEvent_pll (s : State) (v : Nat) (e : Event) : (postEvent s v e).pll = s.pll := rfl
@[simp] theorem postEvent_fc (s : State) (v : Nat) (e : Event) : (postEvent s v e).fc = s.fc := rfl
@[simp] theorem postEvent_clk (s : State) (v : Nat) (e : Event) : (postEvent s v e).clk = s.clk := rfl
@[simp] theorem postEvent_fwHash (s : State) (v : Nat) (e : Event) : (postEvent s v e).fwHash = s.fwHash := rfl
@[simp] theorem postEvent_cfgNormal (s : State) (v : Nat) (e : Event) : (postEvent s v e).cfgNormal = s.cfgNormal := rfl
@[simp] theorem postEvent_hostLink (s : State) (v : Nat) (e : Event) : (postEvent s v e).hostLink = s.hostLink := rfl
@[simp] theorem postEvent_fdtCount (s : State) (v : Nat) (e : Event) : (postEvent s v e).fdtCount = s.fdtCount := rfl
@[simp] theorem postEvent_thermTrip (s : State) (v : Nat) (e : Event) : (postEvent s v e).thermTrip = s.thermTrip := rfl
@[simp] theorem postEvent_powerCap (s : State) (v : Nat) (e : Event) : (postEvent s v e).powerCap = s.powerCap := rfl
@[simp] theorem postEvent_deviceId (s : State) (v : Nat) (e : Event) : (postEvent s v e).deviceId = s.deviceId := rfl
@[simp] theorem postEvent_hitch (s : State) (v : Nat) (e : Event) : (postEvent s v e).hitch = s.hitch := rfl
@[simp] theorem postEvent_hitchArm (s : State) (v : Nat) (e : Event) : (postEvent s v e).hitchArm = s.hitchArm := rfl
@[simp] theorem postEvent_fuse (s : State) (v : Nat) (e : Event) : (postEvent s v e).fuse = s.fuse := rfl
@[simp] theorem postEvent_unlocked (s : State) (v : Nat) (e : Event) : (postEvent s v e).unlocked = s.unlocked := rfl
@[simp] theorem postEvent_caps (s : State) (v : Nat) (e : Event) : (postEvent s v e).caps = s.caps := rfl
@[simp] theorem postEvent_arbs (s : State) (v : Nat) (e : Event) : (postEvent s v e).arbs = s.arbs := rfl
@[simp] theorem postEvent_loads (s : State) (v : Nat) (e : Event) : (postEvent s v e).loads = s.loads := rfl
@[simp] theorem postEvent_arbBusy (s : State) (v : Nat) (e : Event) : (postEvent s v e).arbBusy = s.arbBusy := rfl
@[simp] theorem postEvent_windows (s : State) (v : Nat) (e : Event) : (postEvent s v e).windows = s.windows := rfl
@[simp] theorem postEvent_hostLines (s : State) (v : Nat) (e : Event) : (postEvent s v e).hostLines = s.hostLines := rfl
@[simp] theorem postEvent_hostMem (s : State) (v : Nat) (e : Event) : (postEvent s v e).hostMem = s.hostMem := rfl
@[simp] theorem postEvent_poolUp (s : State) (v : Nat) (e : Event) : (postEvent s v e).poolUp = s.poolUp := rfl
@[simp] theorem postEvent_extents (s : State) (v : Nat) (e : Event) : (postEvent s v e).extents = s.extents := rfl
@[simp] theorem postEvent_fetching (s : State) (v : Nat) (e : Event) : (postEvent s v e).fetching = s.fetching := rfl
@[simp] theorem postEvent_ports (s : State) (v : Nat) (e : Event) : (postEvent s v e).ports = s.ports := rfl
@[simp] theorem postEvent_groups (s : State) (v : Nat) (e : Event) : (postEvent s v e).groups = s.groups := rfl
@[simp] theorem postEvent_opn (s : State) (v : Nat) (e : Event) : (postEvent s v e).opn = s.opn := rfl
@[simp] theorem postEvent_collOps (s : State) (v : Nat) (e : Event) : (postEvent s v e).collOps = s.collOps := rfl
@[simp] theorem postEvent_collTimeout (s : State) (v : Nat) (e : Event) : (postEvent s v e).collTimeout = s.collTimeout := rfl
@[simp] theorem postEvent_mem (s : State) (v : Nat) (e : Event) : (postEvent s v e).mem = s.mem := rfl
@[simp] theorem postEvent_pend (s : State) (v : Nat) (e : Event) : (postEvent s v e).pend = s.pend := rfl
@[simp] theorem postEvent_frames (s : State) (v : Nat) (e : Event) : (postEvent s v e).frames = s.frames := rfl
@[simp] theorem postEvent_l2 (s : State) (v : Nat) (e : Event) : (postEvent s v e).l2 = s.l2 := rfl
@[simp] theorem postEvent_olim (s : State) (v : Nat) (e : Event) : (postEvent s v e).olim = s.olim := rfl
@[simp] theorem postEvent_mdt (s : State) (v : Nat) (e : Event) : (postEvent s v e).mdt = s.mdt := rfl
@[simp] theorem postEvent_stale (s : State) (v : Nat) (e : Event) : (postEvent s v e).stale = s.stale := rfl
@[simp] theorem postEvent_placed (s : State) (v : Nat) (e : Event) : (postEvent s v e).placed = s.placed := rfl
@[simp] theorem postEvent_mdtBad (s : State) (v : Nat) (e : Event) : (postEvent s v e).mdtBad = s.mdtBad := rfl
@[simp] theorem postEvent_mdtHeld (s : State) (v : Nat) (e : Event) : (postEvent s v e).mdtHeld = s.mdtHeld := rfl
@[simp] theorem postEvent_lostMem (s : State) (v : Nat) (e : Event) : (postEvent s v e).lostMem = s.lostMem := rfl
@[simp] theorem postEvent_tableBase (s : State) (v : Nat) (e : Event) : (postEvent s v e).tableBase = s.tableBase := rfl
@[simp] theorem postEvent_fwd (s : State) (v : Nat) (e : Event) : (postEvent s v e).fwd = s.fwd := rfl
@[simp] theorem postEvent_tokens (s : State) (v : Nat) (e : Event) : (postEvent s v e).tokens = s.tokens := rfl
@[simp] theorem postEvent_reclaim (s : State) (v : Nat) (e : Event) : (postEvent s v e).reclaim = s.reclaim := rfl
@[simp] theorem postEvent_tlb (s : State) (v : Nat) (e : Event) : (postEvent s v e).tlb = s.tlb := rfl
@[simp] theorem postEvent_hide (s : State) (v : Nat) (e : Event) : (postEvent s v e).hide = s.hide := rfl
@[simp] theorem postEvent_prefixes (s : State) (v : Nat) (e : Event) : (postEvent s v e).prefixes = s.prefixes := rfl
@[simp] theorem postEvent_pommel (s : State) (v : Nat) (e : Event) : (postEvent s v e).pommel = s.pommel := rfl
@[simp] theorem postEvent_allocs (s : State) (v : Nat) (e : Event) : (postEvent s v e).allocs = s.allocs := rfl
@[simp] theorem postEvent_engines (s : State) (v : Nat) (e : Event) : (postEvent s v e).engines = s.engines := rfl
@[simp] theorem postEvent_cmdSeq (s : State) (v : Nat) (e : Event) : (postEvent s v e).cmdSeq = s.cmdSeq := rfl
@[simp] theorem postEvent_xfBuf (s : State) (v : Nat) (e : Event) : (postEvent s v e).xfBuf = s.xfBuf := rfl
@[simp] theorem postEvent_stir (s : State) (v : Nat) (e : Event) : (postEvent s v e).stir = s.stir := rfl
@[simp] theorem postEvent_parts (s : State) (v : Nat) (e : Event) : (postEvent s v e).parts = s.parts := rfl
@[simp] theorem postEvent_cores (s : State) (v : Nat) (e : Event) : (postEvent s v e).cores = s.cores := rfl
@[simp] theorem postEvent_cur (s : State) (v : Nat) (e : Event) : (postEvent s v e).cur = s.cur := rfl
@[simp] theorem postEvent_urgent (s : State) (v : Nat) (e : Event) : (postEvent s v e).urgent = s.urgent := rfl
@[simp] theorem postEvent_tasks (s : State) (v : Nat) (e : Event) : (postEvent s v e).tasks = s.tasks := rfl
@[simp] theorem postEvent_inbox (s : State) (v : Nat) (e : Event) : (postEvent s v e).inbox = s.inbox := rfl
@[simp] theorem postEvent_turn (s : State) (v : Nat) (e : Event) : (postEvent s v e).turn = s.turn := rfl
@[simp] theorem postEvent_rr (s : State) (v : Nat) (e : Event) : (postEvent s v e).rr = s.rr := rfl
@[simp] theorem postEvent_free (s : State) (v : Nat) (e : Event) : (postEvent s v e).free = s.free := rfl
@[simp] theorem postEvent_freeLat (s : State) (v : Nat) (e : Event) : (postEvent s v e).freeLat = s.freeLat := rfl
@[simp] theorem postEvent_freeGap (s : State) (v : Nat) (e : Event) : (postEvent s v e).freeGap = s.freeGap := rfl
@[simp] theorem postEvent_out (s : State) (v : Nat) (e : Event) : (postEvent s v e).out = s.out := rfl

/-! ### addUrgent -/

@[simp] theorem addUrgent_pwrGood (s : State) (i : Instr) : (addUrgent s i).pwrGood = s.pwrGood := rfl
@[simp] theorem addUrgent_sysRstN (s : State) (i : Instr) : (addUrgent s i).sysRstN = s.sysRstN := rfl
@[simp] theorem addUrgent_perstN (s : State) (i : Instr) : (addUrgent s i).perstN = s.perstN := rfl
@[simp] theorem addUrgent_boot (s : State) (i : Instr) : (addUrgent s i).boot = s.boot := rfl
@[simp] theorem addUrgent_status (s : State) (i : Instr) : (addUrgent s i).status = s.status := rfl
@[simp] theorem addUrgent_pll (s : State) (i : Instr) : (addUrgent s i).pll = s.pll := rfl
@[simp] theorem addUrgent_fc (s : State) (i : Instr) : (addUrgent s i).fc = s.fc := rfl
@[simp] theorem addUrgent_clk (s : State) (i : Instr) : (addUrgent s i).clk = s.clk := rfl
@[simp] theorem addUrgent_fwHash (s : State) (i : Instr) : (addUrgent s i).fwHash = s.fwHash := rfl
@[simp] theorem addUrgent_cfgNormal (s : State) (i : Instr) : (addUrgent s i).cfgNormal = s.cfgNormal := rfl
@[simp] theorem addUrgent_hostLink (s : State) (i : Instr) : (addUrgent s i).hostLink = s.hostLink := rfl
@[simp] theorem addUrgent_fdtCount (s : State) (i : Instr) : (addUrgent s i).fdtCount = s.fdtCount := rfl
@[simp] theorem addUrgent_thermTrip (s : State) (i : Instr) : (addUrgent s i).thermTrip = s.thermTrip := rfl
@[simp] theorem addUrgent_powerCap (s : State) (i : Instr) : (addUrgent s i).powerCap = s.powerCap := rfl
@[simp] theorem addUrgent_deviceId (s : State) (i : Instr) : (addUrgent s i).deviceId = s.deviceId := rfl
@[simp] theorem addUrgent_hitch (s : State) (i : Instr) : (addUrgent s i).hitch = s.hitch := rfl
@[simp] theorem addUrgent_hitchArm (s : State) (i : Instr) : (addUrgent s i).hitchArm = s.hitchArm := rfl
@[simp] theorem addUrgent_fuse (s : State) (i : Instr) : (addUrgent s i).fuse = s.fuse := rfl
@[simp] theorem addUrgent_unlocked (s : State) (i : Instr) : (addUrgent s i).unlocked = s.unlocked := rfl
@[simp] theorem addUrgent_caps (s : State) (i : Instr) : (addUrgent s i).caps = s.caps := rfl
@[simp] theorem addUrgent_arbs (s : State) (i : Instr) : (addUrgent s i).arbs = s.arbs := rfl
@[simp] theorem addUrgent_loads (s : State) (i : Instr) : (addUrgent s i).loads = s.loads := rfl
@[simp] theorem addUrgent_arbBusy (s : State) (i : Instr) : (addUrgent s i).arbBusy = s.arbBusy := rfl
@[simp] theorem addUrgent_vfs (s : State) (i : Instr) : (addUrgent s i).vfs = s.vfs := rfl
@[simp] theorem addUrgent_windows (s : State) (i : Instr) : (addUrgent s i).windows = s.windows := rfl
@[simp] theorem addUrgent_hostLines (s : State) (i : Instr) : (addUrgent s i).hostLines = s.hostLines := rfl
@[simp] theorem addUrgent_hostMem (s : State) (i : Instr) : (addUrgent s i).hostMem = s.hostMem := rfl
@[simp] theorem addUrgent_poolUp (s : State) (i : Instr) : (addUrgent s i).poolUp = s.poolUp := rfl
@[simp] theorem addUrgent_extents (s : State) (i : Instr) : (addUrgent s i).extents = s.extents := rfl
@[simp] theorem addUrgent_fetching (s : State) (i : Instr) : (addUrgent s i).fetching = s.fetching := rfl
@[simp] theorem addUrgent_ports (s : State) (i : Instr) : (addUrgent s i).ports = s.ports := rfl
@[simp] theorem addUrgent_groups (s : State) (i : Instr) : (addUrgent s i).groups = s.groups := rfl
@[simp] theorem addUrgent_opn (s : State) (i : Instr) : (addUrgent s i).opn = s.opn := rfl
@[simp] theorem addUrgent_collOps (s : State) (i : Instr) : (addUrgent s i).collOps = s.collOps := rfl
@[simp] theorem addUrgent_collTimeout (s : State) (i : Instr) : (addUrgent s i).collTimeout = s.collTimeout := rfl
@[simp] theorem addUrgent_mem (s : State) (i : Instr) : (addUrgent s i).mem = s.mem := rfl
@[simp] theorem addUrgent_pend (s : State) (i : Instr) : (addUrgent s i).pend = s.pend := rfl
@[simp] theorem addUrgent_frames (s : State) (i : Instr) : (addUrgent s i).frames = s.frames := rfl
@[simp] theorem addUrgent_l2 (s : State) (i : Instr) : (addUrgent s i).l2 = s.l2 := rfl
@[simp] theorem addUrgent_olim (s : State) (i : Instr) : (addUrgent s i).olim = s.olim := rfl
@[simp] theorem addUrgent_mdt (s : State) (i : Instr) : (addUrgent s i).mdt = s.mdt := rfl
@[simp] theorem addUrgent_stale (s : State) (i : Instr) : (addUrgent s i).stale = s.stale := rfl
@[simp] theorem addUrgent_placed (s : State) (i : Instr) : (addUrgent s i).placed = s.placed := rfl
@[simp] theorem addUrgent_mdtBad (s : State) (i : Instr) : (addUrgent s i).mdtBad = s.mdtBad := rfl
@[simp] theorem addUrgent_mdtHeld (s : State) (i : Instr) : (addUrgent s i).mdtHeld = s.mdtHeld := rfl
@[simp] theorem addUrgent_lostMem (s : State) (i : Instr) : (addUrgent s i).lostMem = s.lostMem := rfl
@[simp] theorem addUrgent_tableBase (s : State) (i : Instr) : (addUrgent s i).tableBase = s.tableBase := rfl
@[simp] theorem addUrgent_fwd (s : State) (i : Instr) : (addUrgent s i).fwd = s.fwd := rfl
@[simp] theorem addUrgent_tokens (s : State) (i : Instr) : (addUrgent s i).tokens = s.tokens := rfl
@[simp] theorem addUrgent_reclaim (s : State) (i : Instr) : (addUrgent s i).reclaim = s.reclaim := rfl
@[simp] theorem addUrgent_tlb (s : State) (i : Instr) : (addUrgent s i).tlb = s.tlb := rfl
@[simp] theorem addUrgent_hide (s : State) (i : Instr) : (addUrgent s i).hide = s.hide := rfl
@[simp] theorem addUrgent_prefixes (s : State) (i : Instr) : (addUrgent s i).prefixes = s.prefixes := rfl
@[simp] theorem addUrgent_pommel (s : State) (i : Instr) : (addUrgent s i).pommel = s.pommel := rfl
@[simp] theorem addUrgent_allocs (s : State) (i : Instr) : (addUrgent s i).allocs = s.allocs := rfl
@[simp] theorem addUrgent_engines (s : State) (i : Instr) : (addUrgent s i).engines = s.engines := rfl
@[simp] theorem addUrgent_cmdSeq (s : State) (i : Instr) : (addUrgent s i).cmdSeq = s.cmdSeq := rfl
@[simp] theorem addUrgent_xfBuf (s : State) (i : Instr) : (addUrgent s i).xfBuf = s.xfBuf := rfl
@[simp] theorem addUrgent_stir (s : State) (i : Instr) : (addUrgent s i).stir = s.stir := rfl
@[simp] theorem addUrgent_parts (s : State) (i : Instr) : (addUrgent s i).parts = s.parts := rfl
@[simp] theorem addUrgent_cores (s : State) (i : Instr) : (addUrgent s i).cores = s.cores := rfl
@[simp] theorem addUrgent_cur (s : State) (i : Instr) : (addUrgent s i).cur = s.cur := rfl
@[simp] theorem addUrgent_urgent (s : State) (i : Instr) : (addUrgent s i).urgent = s.urgent ++ [i] := rfl
@[simp] theorem addUrgent_tasks (s : State) (i : Instr) : (addUrgent s i).tasks = s.tasks := rfl
@[simp] theorem addUrgent_inbox (s : State) (i : Instr) : (addUrgent s i).inbox = s.inbox := rfl
@[simp] theorem addUrgent_turn (s : State) (i : Instr) : (addUrgent s i).turn = s.turn := rfl
@[simp] theorem addUrgent_rr (s : State) (i : Instr) : (addUrgent s i).rr = s.rr := rfl
@[simp] theorem addUrgent_free (s : State) (i : Instr) : (addUrgent s i).free = s.free := rfl
@[simp] theorem addUrgent_freeLat (s : State) (i : Instr) : (addUrgent s i).freeLat = s.freeLat := rfl
@[simp] theorem addUrgent_freeGap (s : State) (i : Instr) : (addUrgent s i).freeGap = s.freeGap := rfl
@[simp] theorem addUrgent_out (s : State) (i : Instr) : (addUrgent s i).out = s.out := rfl

/-! ### addTask -/

@[simp] theorem addTask_pwrGood (s : State) (i : Instr) : (addTask s i).pwrGood = s.pwrGood := rfl
@[simp] theorem addTask_sysRstN (s : State) (i : Instr) : (addTask s i).sysRstN = s.sysRstN := rfl
@[simp] theorem addTask_perstN (s : State) (i : Instr) : (addTask s i).perstN = s.perstN := rfl
@[simp] theorem addTask_boot (s : State) (i : Instr) : (addTask s i).boot = s.boot := rfl
@[simp] theorem addTask_status (s : State) (i : Instr) : (addTask s i).status = s.status := rfl
@[simp] theorem addTask_pll (s : State) (i : Instr) : (addTask s i).pll = s.pll := rfl
@[simp] theorem addTask_fc (s : State) (i : Instr) : (addTask s i).fc = s.fc := rfl
@[simp] theorem addTask_clk (s : State) (i : Instr) : (addTask s i).clk = s.clk := rfl
@[simp] theorem addTask_fwHash (s : State) (i : Instr) : (addTask s i).fwHash = s.fwHash := rfl
@[simp] theorem addTask_cfgNormal (s : State) (i : Instr) : (addTask s i).cfgNormal = s.cfgNormal := rfl
@[simp] theorem addTask_hostLink (s : State) (i : Instr) : (addTask s i).hostLink = s.hostLink := rfl
@[simp] theorem addTask_fdtCount (s : State) (i : Instr) : (addTask s i).fdtCount = s.fdtCount := rfl
@[simp] theorem addTask_thermTrip (s : State) (i : Instr) : (addTask s i).thermTrip = s.thermTrip := rfl
@[simp] theorem addTask_powerCap (s : State) (i : Instr) : (addTask s i).powerCap = s.powerCap := rfl
@[simp] theorem addTask_deviceId (s : State) (i : Instr) : (addTask s i).deviceId = s.deviceId := rfl
@[simp] theorem addTask_hitch (s : State) (i : Instr) : (addTask s i).hitch = s.hitch := rfl
@[simp] theorem addTask_hitchArm (s : State) (i : Instr) : (addTask s i).hitchArm = s.hitchArm := rfl
@[simp] theorem addTask_fuse (s : State) (i : Instr) : (addTask s i).fuse = s.fuse := rfl
@[simp] theorem addTask_unlocked (s : State) (i : Instr) : (addTask s i).unlocked = s.unlocked := rfl
@[simp] theorem addTask_caps (s : State) (i : Instr) : (addTask s i).caps = s.caps := rfl
@[simp] theorem addTask_arbs (s : State) (i : Instr) : (addTask s i).arbs = s.arbs := rfl
@[simp] theorem addTask_loads (s : State) (i : Instr) : (addTask s i).loads = s.loads := rfl
@[simp] theorem addTask_arbBusy (s : State) (i : Instr) : (addTask s i).arbBusy = s.arbBusy := rfl
@[simp] theorem addTask_vfs (s : State) (i : Instr) : (addTask s i).vfs = s.vfs := rfl
@[simp] theorem addTask_windows (s : State) (i : Instr) : (addTask s i).windows = s.windows := rfl
@[simp] theorem addTask_hostLines (s : State) (i : Instr) : (addTask s i).hostLines = s.hostLines := rfl
@[simp] theorem addTask_hostMem (s : State) (i : Instr) : (addTask s i).hostMem = s.hostMem := rfl
@[simp] theorem addTask_poolUp (s : State) (i : Instr) : (addTask s i).poolUp = s.poolUp := rfl
@[simp] theorem addTask_extents (s : State) (i : Instr) : (addTask s i).extents = s.extents := rfl
@[simp] theorem addTask_fetching (s : State) (i : Instr) : (addTask s i).fetching = s.fetching := rfl
@[simp] theorem addTask_ports (s : State) (i : Instr) : (addTask s i).ports = s.ports := rfl
@[simp] theorem addTask_groups (s : State) (i : Instr) : (addTask s i).groups = s.groups := rfl
@[simp] theorem addTask_opn (s : State) (i : Instr) : (addTask s i).opn = s.opn := rfl
@[simp] theorem addTask_collOps (s : State) (i : Instr) : (addTask s i).collOps = s.collOps := rfl
@[simp] theorem addTask_collTimeout (s : State) (i : Instr) : (addTask s i).collTimeout = s.collTimeout := rfl
@[simp] theorem addTask_mem (s : State) (i : Instr) : (addTask s i).mem = s.mem := rfl
@[simp] theorem addTask_pend (s : State) (i : Instr) : (addTask s i).pend = s.pend := rfl
@[simp] theorem addTask_frames (s : State) (i : Instr) : (addTask s i).frames = s.frames := rfl
@[simp] theorem addTask_l2 (s : State) (i : Instr) : (addTask s i).l2 = s.l2 := rfl
@[simp] theorem addTask_olim (s : State) (i : Instr) : (addTask s i).olim = s.olim := rfl
@[simp] theorem addTask_mdt (s : State) (i : Instr) : (addTask s i).mdt = s.mdt := rfl
@[simp] theorem addTask_stale (s : State) (i : Instr) : (addTask s i).stale = s.stale := rfl
@[simp] theorem addTask_placed (s : State) (i : Instr) : (addTask s i).placed = s.placed := rfl
@[simp] theorem addTask_mdtBad (s : State) (i : Instr) : (addTask s i).mdtBad = s.mdtBad := rfl
@[simp] theorem addTask_mdtHeld (s : State) (i : Instr) : (addTask s i).mdtHeld = s.mdtHeld := rfl
@[simp] theorem addTask_lostMem (s : State) (i : Instr) : (addTask s i).lostMem = s.lostMem := rfl
@[simp] theorem addTask_tableBase (s : State) (i : Instr) : (addTask s i).tableBase = s.tableBase := rfl
@[simp] theorem addTask_fwd (s : State) (i : Instr) : (addTask s i).fwd = s.fwd := rfl
@[simp] theorem addTask_tokens (s : State) (i : Instr) : (addTask s i).tokens = s.tokens := rfl
@[simp] theorem addTask_reclaim (s : State) (i : Instr) : (addTask s i).reclaim = s.reclaim := rfl
@[simp] theorem addTask_tlb (s : State) (i : Instr) : (addTask s i).tlb = s.tlb := rfl
@[simp] theorem addTask_hide (s : State) (i : Instr) : (addTask s i).hide = s.hide := rfl
@[simp] theorem addTask_prefixes (s : State) (i : Instr) : (addTask s i).prefixes = s.prefixes := rfl
@[simp] theorem addTask_pommel (s : State) (i : Instr) : (addTask s i).pommel = s.pommel := rfl
@[simp] theorem addTask_allocs (s : State) (i : Instr) : (addTask s i).allocs = s.allocs := rfl
@[simp] theorem addTask_engines (s : State) (i : Instr) : (addTask s i).engines = s.engines := rfl
@[simp] theorem addTask_cmdSeq (s : State) (i : Instr) : (addTask s i).cmdSeq = s.cmdSeq := rfl
@[simp] theorem addTask_xfBuf (s : State) (i : Instr) : (addTask s i).xfBuf = s.xfBuf := rfl
@[simp] theorem addTask_stir (s : State) (i : Instr) : (addTask s i).stir = s.stir := rfl
@[simp] theorem addTask_parts (s : State) (i : Instr) : (addTask s i).parts = s.parts := rfl
@[simp] theorem addTask_cores (s : State) (i : Instr) : (addTask s i).cores = s.cores := rfl
@[simp] theorem addTask_cur (s : State) (i : Instr) : (addTask s i).cur = s.cur := rfl
@[simp] theorem addTask_urgent (s : State) (i : Instr) : (addTask s i).urgent = s.urgent := rfl
@[simp] theorem addTask_tasks (s : State) (i : Instr) : (addTask s i).tasks = s.tasks ++ [i] := rfl
@[simp] theorem addTask_inbox (s : State) (i : Instr) : (addTask s i).inbox = s.inbox := rfl
@[simp] theorem addTask_turn (s : State) (i : Instr) : (addTask s i).turn = s.turn := rfl
@[simp] theorem addTask_rr (s : State) (i : Instr) : (addTask s i).rr = s.rr := rfl
@[simp] theorem addTask_free (s : State) (i : Instr) : (addTask s i).free = s.free := rfl
@[simp] theorem addTask_freeLat (s : State) (i : Instr) : (addTask s i).freeLat = s.freeLat := rfl
@[simp] theorem addTask_freeGap (s : State) (i : Instr) : (addTask s i).freeGap = s.freeGap := rfl
@[simp] theorem addTask_out (s : State) (i : Instr) : (addTask s i).out = s.out := rfl

/-! ### emit -/

@[simp] theorem emit_pwrGood (s : State) (o : Output) : (emit s o).pwrGood = s.pwrGood := rfl
@[simp] theorem emit_sysRstN (s : State) (o : Output) : (emit s o).sysRstN = s.sysRstN := rfl
@[simp] theorem emit_perstN (s : State) (o : Output) : (emit s o).perstN = s.perstN := rfl
@[simp] theorem emit_boot (s : State) (o : Output) : (emit s o).boot = s.boot := rfl
@[simp] theorem emit_status (s : State) (o : Output) : (emit s o).status = s.status := rfl
@[simp] theorem emit_pll (s : State) (o : Output) : (emit s o).pll = s.pll := rfl
@[simp] theorem emit_fc (s : State) (o : Output) : (emit s o).fc = s.fc := rfl
@[simp] theorem emit_clk (s : State) (o : Output) : (emit s o).clk = s.clk := rfl
@[simp] theorem emit_fwHash (s : State) (o : Output) : (emit s o).fwHash = s.fwHash := rfl
@[simp] theorem emit_cfgNormal (s : State) (o : Output) : (emit s o).cfgNormal = s.cfgNormal := rfl
@[simp] theorem emit_hostLink (s : State) (o : Output) : (emit s o).hostLink = s.hostLink := rfl
@[simp] theorem emit_fdtCount (s : State) (o : Output) : (emit s o).fdtCount = s.fdtCount := rfl
@[simp] theorem emit_thermTrip (s : State) (o : Output) : (emit s o).thermTrip = s.thermTrip := rfl
@[simp] theorem emit_powerCap (s : State) (o : Output) : (emit s o).powerCap = s.powerCap := rfl
@[simp] theorem emit_deviceId (s : State) (o : Output) : (emit s o).deviceId = s.deviceId := rfl
@[simp] theorem emit_hitch (s : State) (o : Output) : (emit s o).hitch = s.hitch := rfl
@[simp] theorem emit_hitchArm (s : State) (o : Output) : (emit s o).hitchArm = s.hitchArm := rfl
@[simp] theorem emit_fuse (s : State) (o : Output) : (emit s o).fuse = s.fuse := rfl
@[simp] theorem emit_unlocked (s : State) (o : Output) : (emit s o).unlocked = s.unlocked := rfl
@[simp] theorem emit_caps (s : State) (o : Output) : (emit s o).caps = s.caps := rfl
@[simp] theorem emit_arbs (s : State) (o : Output) : (emit s o).arbs = s.arbs := rfl
@[simp] theorem emit_loads (s : State) (o : Output) : (emit s o).loads = s.loads := rfl
@[simp] theorem emit_arbBusy (s : State) (o : Output) : (emit s o).arbBusy = s.arbBusy := rfl
@[simp] theorem emit_vfs (s : State) (o : Output) : (emit s o).vfs = s.vfs := rfl
@[simp] theorem emit_windows (s : State) (o : Output) : (emit s o).windows = s.windows := rfl
@[simp] theorem emit_hostLines (s : State) (o : Output) : (emit s o).hostLines = s.hostLines := rfl
@[simp] theorem emit_hostMem (s : State) (o : Output) : (emit s o).hostMem = s.hostMem := rfl
@[simp] theorem emit_poolUp (s : State) (o : Output) : (emit s o).poolUp = s.poolUp := rfl
@[simp] theorem emit_extents (s : State) (o : Output) : (emit s o).extents = s.extents := rfl
@[simp] theorem emit_fetching (s : State) (o : Output) : (emit s o).fetching = s.fetching := rfl
@[simp] theorem emit_ports (s : State) (o : Output) : (emit s o).ports = s.ports := rfl
@[simp] theorem emit_groups (s : State) (o : Output) : (emit s o).groups = s.groups := rfl
@[simp] theorem emit_opn (s : State) (o : Output) : (emit s o).opn = s.opn := rfl
@[simp] theorem emit_collOps (s : State) (o : Output) : (emit s o).collOps = s.collOps := rfl
@[simp] theorem emit_collTimeout (s : State) (o : Output) : (emit s o).collTimeout = s.collTimeout := rfl
@[simp] theorem emit_mem (s : State) (o : Output) : (emit s o).mem = s.mem := rfl
@[simp] theorem emit_pend (s : State) (o : Output) : (emit s o).pend = s.pend := rfl
@[simp] theorem emit_frames (s : State) (o : Output) : (emit s o).frames = s.frames := rfl
@[simp] theorem emit_l2 (s : State) (o : Output) : (emit s o).l2 = s.l2 := rfl
@[simp] theorem emit_olim (s : State) (o : Output) : (emit s o).olim = s.olim := rfl
@[simp] theorem emit_mdt (s : State) (o : Output) : (emit s o).mdt = s.mdt := rfl
@[simp] theorem emit_stale (s : State) (o : Output) : (emit s o).stale = s.stale := rfl
@[simp] theorem emit_placed (s : State) (o : Output) : (emit s o).placed = s.placed := rfl
@[simp] theorem emit_mdtBad (s : State) (o : Output) : (emit s o).mdtBad = s.mdtBad := rfl
@[simp] theorem emit_mdtHeld (s : State) (o : Output) : (emit s o).mdtHeld = s.mdtHeld := rfl
@[simp] theorem emit_lostMem (s : State) (o : Output) : (emit s o).lostMem = s.lostMem := rfl
@[simp] theorem emit_tableBase (s : State) (o : Output) : (emit s o).tableBase = s.tableBase := rfl
@[simp] theorem emit_fwd (s : State) (o : Output) : (emit s o).fwd = s.fwd := rfl
@[simp] theorem emit_tokens (s : State) (o : Output) : (emit s o).tokens = s.tokens := rfl
@[simp] theorem emit_reclaim (s : State) (o : Output) : (emit s o).reclaim = s.reclaim := rfl
@[simp] theorem emit_tlb (s : State) (o : Output) : (emit s o).tlb = s.tlb := rfl
@[simp] theorem emit_hide (s : State) (o : Output) : (emit s o).hide = s.hide := rfl
@[simp] theorem emit_prefixes (s : State) (o : Output) : (emit s o).prefixes = s.prefixes := rfl
@[simp] theorem emit_pommel (s : State) (o : Output) : (emit s o).pommel = s.pommel := rfl
@[simp] theorem emit_allocs (s : State) (o : Output) : (emit s o).allocs = s.allocs := rfl
@[simp] theorem emit_engines (s : State) (o : Output) : (emit s o).engines = s.engines := rfl
@[simp] theorem emit_cmdSeq (s : State) (o : Output) : (emit s o).cmdSeq = s.cmdSeq := rfl
@[simp] theorem emit_xfBuf (s : State) (o : Output) : (emit s o).xfBuf = s.xfBuf := rfl
@[simp] theorem emit_stir (s : State) (o : Output) : (emit s o).stir = s.stir := rfl
@[simp] theorem emit_parts (s : State) (o : Output) : (emit s o).parts = s.parts := rfl
@[simp] theorem emit_cores (s : State) (o : Output) : (emit s o).cores = s.cores := rfl
@[simp] theorem emit_cur (s : State) (o : Output) : (emit s o).cur = s.cur := rfl
@[simp] theorem emit_urgent (s : State) (o : Output) : (emit s o).urgent = s.urgent := rfl
@[simp] theorem emit_tasks (s : State) (o : Output) : (emit s o).tasks = s.tasks := rfl
@[simp] theorem emit_inbox (s : State) (o : Output) : (emit s o).inbox = s.inbox := rfl
@[simp] theorem emit_turn (s : State) (o : Output) : (emit s o).turn = s.turn := rfl
@[simp] theorem emit_rr (s : State) (o : Output) : (emit s o).rr = s.rr := rfl
@[simp] theorem emit_free (s : State) (o : Output) : (emit s o).free = s.free := rfl
@[simp] theorem emit_freeLat (s : State) (o : Output) : (emit s o).freeLat = s.freeLat := rfl
@[simp] theorem emit_freeGap (s : State) (o : Output) : (emit s o).freeGap = s.freeGap := rfl
@[simp] theorem emit_out (s : State) (o : Output) : (emit s o).out = s.out ++ [o] := rfl

/-! ### putCap -/

@[simp] theorem putCap_pwrGood (s : State) (k : Nat) (c : Cap) : (putCap s k c).pwrGood = s.pwrGood := rfl
@[simp] theorem putCap_sysRstN (s : State) (k : Nat) (c : Cap) : (putCap s k c).sysRstN = s.sysRstN := rfl
@[simp] theorem putCap_perstN (s : State) (k : Nat) (c : Cap) : (putCap s k c).perstN = s.perstN := rfl
@[simp] theorem putCap_boot (s : State) (k : Nat) (c : Cap) : (putCap s k c).boot = s.boot := rfl
@[simp] theorem putCap_status (s : State) (k : Nat) (c : Cap) : (putCap s k c).status = s.status := rfl
@[simp] theorem putCap_pll (s : State) (k : Nat) (c : Cap) : (putCap s k c).pll = s.pll := rfl
@[simp] theorem putCap_fc (s : State) (k : Nat) (c : Cap) : (putCap s k c).fc = s.fc := rfl
@[simp] theorem putCap_clk (s : State) (k : Nat) (c : Cap) : (putCap s k c).clk = s.clk := rfl
@[simp] theorem putCap_fwHash (s : State) (k : Nat) (c : Cap) : (putCap s k c).fwHash = s.fwHash := rfl
@[simp] theorem putCap_cfgNormal (s : State) (k : Nat) (c : Cap) : (putCap s k c).cfgNormal = s.cfgNormal := rfl
@[simp] theorem putCap_hostLink (s : State) (k : Nat) (c : Cap) : (putCap s k c).hostLink = s.hostLink := rfl
@[simp] theorem putCap_fdtCount (s : State) (k : Nat) (c : Cap) : (putCap s k c).fdtCount = s.fdtCount := rfl
@[simp] theorem putCap_thermTrip (s : State) (k : Nat) (c : Cap) : (putCap s k c).thermTrip = s.thermTrip := rfl
@[simp] theorem putCap_powerCap (s : State) (k : Nat) (c : Cap) : (putCap s k c).powerCap = s.powerCap := rfl
@[simp] theorem putCap_deviceId (s : State) (k : Nat) (c : Cap) : (putCap s k c).deviceId = s.deviceId := rfl
@[simp] theorem putCap_hitch (s : State) (k : Nat) (c : Cap) : (putCap s k c).hitch = s.hitch := rfl
@[simp] theorem putCap_hitchArm (s : State) (k : Nat) (c : Cap) : (putCap s k c).hitchArm = s.hitchArm := rfl
@[simp] theorem putCap_fuse (s : State) (k : Nat) (c : Cap) : (putCap s k c).fuse = s.fuse := rfl
@[simp] theorem putCap_unlocked (s : State) (k : Nat) (c : Cap) : (putCap s k c).unlocked = s.unlocked := rfl
@[simp] theorem putCap_caps (s : State) (k : Nat) (c : Cap) : (putCap s k c).caps = tput s.caps k c := rfl
@[simp] theorem putCap_arbs (s : State) (k : Nat) (c : Cap) : (putCap s k c).arbs = s.arbs := rfl
@[simp] theorem putCap_loads (s : State) (k : Nat) (c : Cap) : (putCap s k c).loads = s.loads := rfl
@[simp] theorem putCap_arbBusy (s : State) (k : Nat) (c : Cap) : (putCap s k c).arbBusy = s.arbBusy := rfl
@[simp] theorem putCap_vfs (s : State) (k : Nat) (c : Cap) : (putCap s k c).vfs = s.vfs := rfl
@[simp] theorem putCap_windows (s : State) (k : Nat) (c : Cap) : (putCap s k c).windows = s.windows := rfl
@[simp] theorem putCap_hostLines (s : State) (k : Nat) (c : Cap) : (putCap s k c).hostLines = s.hostLines := rfl
@[simp] theorem putCap_hostMem (s : State) (k : Nat) (c : Cap) : (putCap s k c).hostMem = s.hostMem := rfl
@[simp] theorem putCap_poolUp (s : State) (k : Nat) (c : Cap) : (putCap s k c).poolUp = s.poolUp := rfl
@[simp] theorem putCap_extents (s : State) (k : Nat) (c : Cap) : (putCap s k c).extents = s.extents := rfl
@[simp] theorem putCap_fetching (s : State) (k : Nat) (c : Cap) : (putCap s k c).fetching = s.fetching := rfl
@[simp] theorem putCap_ports (s : State) (k : Nat) (c : Cap) : (putCap s k c).ports = s.ports := rfl
@[simp] theorem putCap_groups (s : State) (k : Nat) (c : Cap) : (putCap s k c).groups = s.groups := rfl
@[simp] theorem putCap_opn (s : State) (k : Nat) (c : Cap) : (putCap s k c).opn = s.opn := rfl
@[simp] theorem putCap_collOps (s : State) (k : Nat) (c : Cap) : (putCap s k c).collOps = s.collOps := rfl
@[simp] theorem putCap_collTimeout (s : State) (k : Nat) (c : Cap) : (putCap s k c).collTimeout = s.collTimeout := rfl
@[simp] theorem putCap_mem (s : State) (k : Nat) (c : Cap) : (putCap s k c).mem = s.mem := rfl
@[simp] theorem putCap_pend (s : State) (k : Nat) (c : Cap) : (putCap s k c).pend = s.pend := rfl
@[simp] theorem putCap_frames (s : State) (k : Nat) (c : Cap) : (putCap s k c).frames = s.frames := rfl
@[simp] theorem putCap_l2 (s : State) (k : Nat) (c : Cap) : (putCap s k c).l2 = s.l2 := rfl
@[simp] theorem putCap_olim (s : State) (k : Nat) (c : Cap) : (putCap s k c).olim = s.olim := rfl
@[simp] theorem putCap_mdt (s : State) (k : Nat) (c : Cap) : (putCap s k c).mdt = s.mdt := rfl
@[simp] theorem putCap_stale (s : State) (k : Nat) (c : Cap) : (putCap s k c).stale = s.stale := rfl
@[simp] theorem putCap_placed (s : State) (k : Nat) (c : Cap) : (putCap s k c).placed = s.placed := rfl
@[simp] theorem putCap_mdtBad (s : State) (k : Nat) (c : Cap) : (putCap s k c).mdtBad = s.mdtBad := rfl
@[simp] theorem putCap_mdtHeld (s : State) (k : Nat) (c : Cap) : (putCap s k c).mdtHeld = s.mdtHeld := rfl
@[simp] theorem putCap_lostMem (s : State) (k : Nat) (c : Cap) : (putCap s k c).lostMem = s.lostMem := rfl
@[simp] theorem putCap_tableBase (s : State) (k : Nat) (c : Cap) : (putCap s k c).tableBase = s.tableBase := rfl
@[simp] theorem putCap_fwd (s : State) (k : Nat) (c : Cap) : (putCap s k c).fwd = s.fwd := rfl
@[simp] theorem putCap_tokens (s : State) (k : Nat) (c : Cap) : (putCap s k c).tokens = s.tokens := rfl
@[simp] theorem putCap_reclaim (s : State) (k : Nat) (c : Cap) : (putCap s k c).reclaim = s.reclaim := rfl
@[simp] theorem putCap_tlb (s : State) (k : Nat) (c : Cap) : (putCap s k c).tlb = s.tlb := rfl
@[simp] theorem putCap_hide (s : State) (k : Nat) (c : Cap) : (putCap s k c).hide = s.hide := rfl
@[simp] theorem putCap_prefixes (s : State) (k : Nat) (c : Cap) : (putCap s k c).prefixes = s.prefixes := rfl
@[simp] theorem putCap_pommel (s : State) (k : Nat) (c : Cap) : (putCap s k c).pommel = s.pommel := rfl
@[simp] theorem putCap_allocs (s : State) (k : Nat) (c : Cap) : (putCap s k c).allocs = s.allocs := rfl
@[simp] theorem putCap_engines (s : State) (k : Nat) (c : Cap) : (putCap s k c).engines = s.engines := rfl
@[simp] theorem putCap_cmdSeq (s : State) (k : Nat) (c : Cap) : (putCap s k c).cmdSeq = s.cmdSeq := rfl
@[simp] theorem putCap_xfBuf (s : State) (k : Nat) (c : Cap) : (putCap s k c).xfBuf = s.xfBuf := rfl
@[simp] theorem putCap_stir (s : State) (k : Nat) (c : Cap) : (putCap s k c).stir = s.stir := rfl
@[simp] theorem putCap_parts (s : State) (k : Nat) (c : Cap) : (putCap s k c).parts = s.parts := rfl
@[simp] theorem putCap_cores (s : State) (k : Nat) (c : Cap) : (putCap s k c).cores = s.cores := rfl
@[simp] theorem putCap_cur (s : State) (k : Nat) (c : Cap) : (putCap s k c).cur = s.cur := rfl
@[simp] theorem putCap_urgent (s : State) (k : Nat) (c : Cap) : (putCap s k c).urgent = s.urgent := rfl
@[simp] theorem putCap_tasks (s : State) (k : Nat) (c : Cap) : (putCap s k c).tasks = s.tasks := rfl
@[simp] theorem putCap_inbox (s : State) (k : Nat) (c : Cap) : (putCap s k c).inbox = s.inbox := rfl
@[simp] theorem putCap_turn (s : State) (k : Nat) (c : Cap) : (putCap s k c).turn = s.turn := rfl
@[simp] theorem putCap_rr (s : State) (k : Nat) (c : Cap) : (putCap s k c).rr = s.rr := rfl
@[simp] theorem putCap_free (s : State) (k : Nat) (c : Cap) : (putCap s k c).free = s.free := rfl
@[simp] theorem putCap_freeLat (s : State) (k : Nat) (c : Cap) : (putCap s k c).freeLat = s.freeLat := rfl
@[simp] theorem putCap_freeGap (s : State) (k : Nat) (c : Cap) : (putCap s k c).freeGap = s.freeGap := rfl
@[simp] theorem putCap_out (s : State) (k : Nat) (c : Cap) : (putCap s k c).out = s.out := rfl

/-! ### modFrame -/

@[simp] theorem modFrame_pwrGood (s : State) (n : Nat) (f : Frame → Frame) : (modFrame s n f).pwrGood = s.pwrGood := by unfold modFrame; split <;> rfl
@[simp] theorem modFrame_sysRstN (s : State) (n : Nat) (f : Frame → Frame) : (modFrame s n f).sysRstN = s.sysRstN := by unfold modFrame; split <;> rfl
@[simp] theorem modFrame_perstN (s : State) (n : Nat) (f : Frame → Frame) : (modFrame s n f).perstN = s.perstN := by unfold modFrame; split <;> rfl
@[simp] theorem modFrame_boot (s : State) (n : Nat) (f : Frame → Frame) : (modFrame s n f).boot = s.boot := by unfold modFrame; split <;> rfl
@[simp] theorem modFrame_status (s : State) (n : Nat) (f : Frame → Frame) : (modFrame s n f).status = s.status := by unfold modFrame; split <;> rfl
@[simp] theorem modFrame_pll (s : State) (n : Nat) (f : Frame → Frame) : (modFrame s n f).pll = s.pll := by unfold modFrame; split <;> rfl
@[simp] theorem modFrame_fc (s : State) (n : Nat) (f : Frame → Frame) : (modFrame s n f).fc = s.fc := by unfold modFrame; split <;> rfl
@[simp] theorem modFrame_clk (s : State) (n : Nat) (f : Frame → Frame) : (modFrame s n f).clk = s.clk := by unfold modFrame; split <;> rfl
@[simp] theorem modFrame_fwHash (s : State) (n : Nat) (f : Frame → Frame) : (modFrame s n f).fwHash = s.fwHash := by unfold modFrame; split <;> rfl
@[simp] theorem modFrame_cfgNormal (s : State) (n : Nat) (f : Frame → Frame) : (modFrame s n f).cfgNormal = s.cfgNormal := by unfold modFrame; split <;> rfl
@[simp] theorem modFrame_hostLink (s : State) (n : Nat) (f : Frame → Frame) : (modFrame s n f).hostLink = s.hostLink := by unfold modFrame; split <;> rfl
@[simp] theorem modFrame_fdtCount (s : State) (n : Nat) (f : Frame → Frame) : (modFrame s n f).fdtCount = s.fdtCount := by unfold modFrame; split <;> rfl
@[simp] theorem modFrame_thermTrip (s : State) (n : Nat) (f : Frame → Frame) : (modFrame s n f).thermTrip = s.thermTrip := by unfold modFrame; split <;> rfl
@[simp] theorem modFrame_powerCap (s : State) (n : Nat) (f : Frame → Frame) : (modFrame s n f).powerCap = s.powerCap := by unfold modFrame; split <;> rfl
@[simp] theorem modFrame_deviceId (s : State) (n : Nat) (f : Frame → Frame) : (modFrame s n f).deviceId = s.deviceId := by unfold modFrame; split <;> rfl
@[simp] theorem modFrame_hitch (s : State) (n : Nat) (f : Frame → Frame) : (modFrame s n f).hitch = s.hitch := by unfold modFrame; split <;> rfl
@[simp] theorem modFrame_hitchArm (s : State) (n : Nat) (f : Frame → Frame) : (modFrame s n f).hitchArm = s.hitchArm := by unfold modFrame; split <;> rfl
@[simp] theorem modFrame_fuse (s : State) (n : Nat) (f : Frame → Frame) : (modFrame s n f).fuse = s.fuse := by unfold modFrame; split <;> rfl
@[simp] theorem modFrame_unlocked (s : State) (n : Nat) (f : Frame → Frame) : (modFrame s n f).unlocked = s.unlocked := by unfold modFrame; split <;> rfl
@[simp] theorem modFrame_caps (s : State) (n : Nat) (f : Frame → Frame) : (modFrame s n f).caps = s.caps := by unfold modFrame; split <;> rfl
@[simp] theorem modFrame_arbs (s : State) (n : Nat) (f : Frame → Frame) : (modFrame s n f).arbs = s.arbs := by unfold modFrame; split <;> rfl
@[simp] theorem modFrame_loads (s : State) (n : Nat) (f : Frame → Frame) : (modFrame s n f).loads = s.loads := by unfold modFrame; split <;> rfl
@[simp] theorem modFrame_arbBusy (s : State) (n : Nat) (f : Frame → Frame) : (modFrame s n f).arbBusy = s.arbBusy := by unfold modFrame; split <;> rfl
@[simp] theorem modFrame_vfs (s : State) (n : Nat) (f : Frame → Frame) : (modFrame s n f).vfs = s.vfs := by unfold modFrame; split <;> rfl
@[simp] theorem modFrame_windows (s : State) (n : Nat) (f : Frame → Frame) : (modFrame s n f).windows = s.windows := by unfold modFrame; split <;> rfl
@[simp] theorem modFrame_hostLines (s : State) (n : Nat) (f : Frame → Frame) : (modFrame s n f).hostLines = s.hostLines := by unfold modFrame; split <;> rfl
@[simp] theorem modFrame_hostMem (s : State) (n : Nat) (f : Frame → Frame) : (modFrame s n f).hostMem = s.hostMem := by unfold modFrame; split <;> rfl
@[simp] theorem modFrame_poolUp (s : State) (n : Nat) (f : Frame → Frame) : (modFrame s n f).poolUp = s.poolUp := by unfold modFrame; split <;> rfl
@[simp] theorem modFrame_extents (s : State) (n : Nat) (f : Frame → Frame) : (modFrame s n f).extents = s.extents := by unfold modFrame; split <;> rfl
@[simp] theorem modFrame_fetching (s : State) (n : Nat) (f : Frame → Frame) : (modFrame s n f).fetching = s.fetching := by unfold modFrame; split <;> rfl
@[simp] theorem modFrame_ports (s : State) (n : Nat) (f : Frame → Frame) : (modFrame s n f).ports = s.ports := by unfold modFrame; split <;> rfl
@[simp] theorem modFrame_groups (s : State) (n : Nat) (f : Frame → Frame) : (modFrame s n f).groups = s.groups := by unfold modFrame; split <;> rfl
@[simp] theorem modFrame_opn (s : State) (n : Nat) (f : Frame → Frame) : (modFrame s n f).opn = s.opn := by unfold modFrame; split <;> rfl
@[simp] theorem modFrame_collOps (s : State) (n : Nat) (f : Frame → Frame) : (modFrame s n f).collOps = s.collOps := by unfold modFrame; split <;> rfl
@[simp] theorem modFrame_collTimeout (s : State) (n : Nat) (f : Frame → Frame) : (modFrame s n f).collTimeout = s.collTimeout := by unfold modFrame; split <;> rfl
@[simp] theorem modFrame_mem (s : State) (n : Nat) (f : Frame → Frame) : (modFrame s n f).mem = s.mem := by unfold modFrame; split <;> rfl
@[simp] theorem modFrame_pend (s : State) (n : Nat) (f : Frame → Frame) : (modFrame s n f).pend = s.pend := by unfold modFrame; split <;> rfl
@[simp] theorem modFrame_l2 (s : State) (n : Nat) (f : Frame → Frame) : (modFrame s n f).l2 = s.l2 := by unfold modFrame; split <;> rfl
@[simp] theorem modFrame_olim (s : State) (n : Nat) (f : Frame → Frame) : (modFrame s n f).olim = s.olim := by unfold modFrame; split <;> rfl
@[simp] theorem modFrame_mdt (s : State) (n : Nat) (f : Frame → Frame) : (modFrame s n f).mdt = s.mdt := by unfold modFrame; split <;> rfl
@[simp] theorem modFrame_stale (s : State) (n : Nat) (f : Frame → Frame) : (modFrame s n f).stale = s.stale := by unfold modFrame; split <;> rfl
@[simp] theorem modFrame_placed (s : State) (n : Nat) (f : Frame → Frame) : (modFrame s n f).placed = s.placed := by unfold modFrame; split <;> rfl
@[simp] theorem modFrame_mdtBad (s : State) (n : Nat) (f : Frame → Frame) : (modFrame s n f).mdtBad = s.mdtBad := by unfold modFrame; split <;> rfl
@[simp] theorem modFrame_mdtHeld (s : State) (n : Nat) (f : Frame → Frame) : (modFrame s n f).mdtHeld = s.mdtHeld := by unfold modFrame; split <;> rfl
@[simp] theorem modFrame_lostMem (s : State) (n : Nat) (f : Frame → Frame) : (modFrame s n f).lostMem = s.lostMem := by unfold modFrame; split <;> rfl
@[simp] theorem modFrame_tableBase (s : State) (n : Nat) (f : Frame → Frame) : (modFrame s n f).tableBase = s.tableBase := by unfold modFrame; split <;> rfl
@[simp] theorem modFrame_fwd (s : State) (n : Nat) (f : Frame → Frame) : (modFrame s n f).fwd = s.fwd := by unfold modFrame; split <;> rfl
@[simp] theorem modFrame_tokens (s : State) (n : Nat) (f : Frame → Frame) : (modFrame s n f).tokens = s.tokens := by unfold modFrame; split <;> rfl
@[simp] theorem modFrame_reclaim (s : State) (n : Nat) (f : Frame → Frame) : (modFrame s n f).reclaim = s.reclaim := by unfold modFrame; split <;> rfl
@[simp] theorem modFrame_tlb (s : State) (n : Nat) (f : Frame → Frame) : (modFrame s n f).tlb = s.tlb := by unfold modFrame; split <;> rfl
@[simp] theorem modFrame_hide (s : State) (n : Nat) (f : Frame → Frame) : (modFrame s n f).hide = s.hide := by unfold modFrame; split <;> rfl
@[simp] theorem modFrame_prefixes (s : State) (n : Nat) (f : Frame → Frame) : (modFrame s n f).prefixes = s.prefixes := by unfold modFrame; split <;> rfl
@[simp] theorem modFrame_pommel (s : State) (n : Nat) (f : Frame → Frame) : (modFrame s n f).pommel = s.pommel := by unfold modFrame; split <;> rfl
@[simp] theorem modFrame_allocs (s : State) (n : Nat) (f : Frame → Frame) : (modFrame s n f).allocs = s.allocs := by unfold modFrame; split <;> rfl
@[simp] theorem modFrame_engines (s : State) (n : Nat) (f : Frame → Frame) : (modFrame s n f).engines = s.engines := by unfold modFrame; split <;> rfl
@[simp] theorem modFrame_cmdSeq (s : State) (n : Nat) (f : Frame → Frame) : (modFrame s n f).cmdSeq = s.cmdSeq := by unfold modFrame; split <;> rfl
@[simp] theorem modFrame_xfBuf (s : State) (n : Nat) (f : Frame → Frame) : (modFrame s n f).xfBuf = s.xfBuf := by unfold modFrame; split <;> rfl
@[simp] theorem modFrame_stir (s : State) (n : Nat) (f : Frame → Frame) : (modFrame s n f).stir = s.stir := by unfold modFrame; split <;> rfl
@[simp] theorem modFrame_parts (s : State) (n : Nat) (f : Frame → Frame) : (modFrame s n f).parts = s.parts := by unfold modFrame; split <;> rfl
@[simp] theorem modFrame_cores (s : State) (n : Nat) (f : Frame → Frame) : (modFrame s n f).cores = s.cores := by unfold modFrame; split <;> rfl
@[simp] theorem modFrame_cur (s : State) (n : Nat) (f : Frame → Frame) : (modFrame s n f).cur = s.cur := by unfold modFrame; split <;> rfl
@[simp] theorem modFrame_urgent (s : State) (n : Nat) (f : Frame → Frame) : (modFrame s n f).urgent = s.urgent := by unfold modFrame; split <;> rfl
@[simp] theorem modFrame_tasks (s : State) (n : Nat) (f : Frame → Frame) : (modFrame s n f).tasks = s.tasks := by unfold modFrame; split <;> rfl
@[simp] theorem modFrame_inbox (s : State) (n : Nat) (f : Frame → Frame) : (modFrame s n f).inbox = s.inbox := by unfold modFrame; split <;> rfl
@[simp] theorem modFrame_turn (s : State) (n : Nat) (f : Frame → Frame) : (modFrame s n f).turn = s.turn := by unfold modFrame; split <;> rfl
@[simp] theorem modFrame_rr (s : State) (n : Nat) (f : Frame → Frame) : (modFrame s n f).rr = s.rr := by unfold modFrame; split <;> rfl
@[simp] theorem modFrame_free (s : State) (n : Nat) (f : Frame → Frame) : (modFrame s n f).free = s.free := by unfold modFrame; split <;> rfl
@[simp] theorem modFrame_freeLat (s : State) (n : Nat) (f : Frame → Frame) : (modFrame s n f).freeLat = s.freeLat := by unfold modFrame; split <;> rfl
@[simp] theorem modFrame_freeGap (s : State) (n : Nat) (f : Frame → Frame) : (modFrame s n f).freeGap = s.freeGap := by unfold modFrame; split <;> rfl
@[simp] theorem modFrame_out (s : State) (n : Nat) (f : Frame → Frame) : (modFrame s n f).out = s.out := by unfold modFrame; split <;> rfl

/-! ### modFPort -/

@[simp] theorem modFPort_pwrGood (s : State) (n : Fin 18) (f : FPort → FPort) : (modFPort s n f).pwrGood = s.pwrGood := rfl
@[simp] theorem modFPort_sysRstN (s : State) (n : Fin 18) (f : FPort → FPort) : (modFPort s n f).sysRstN = s.sysRstN := rfl
@[simp] theorem modFPort_perstN (s : State) (n : Fin 18) (f : FPort → FPort) : (modFPort s n f).perstN = s.perstN := rfl
@[simp] theorem modFPort_boot (s : State) (n : Fin 18) (f : FPort → FPort) : (modFPort s n f).boot = s.boot := rfl
@[simp] theorem modFPort_status (s : State) (n : Fin 18) (f : FPort → FPort) : (modFPort s n f).status = s.status := rfl
@[simp] theorem modFPort_pll (s : State) (n : Fin 18) (f : FPort → FPort) : (modFPort s n f).pll = s.pll := rfl
@[simp] theorem modFPort_fc (s : State) (n : Fin 18) (f : FPort → FPort) : (modFPort s n f).fc = s.fc := rfl
@[simp] theorem modFPort_clk (s : State) (n : Fin 18) (f : FPort → FPort) : (modFPort s n f).clk = s.clk := rfl
@[simp] theorem modFPort_fwHash (s : State) (n : Fin 18) (f : FPort → FPort) : (modFPort s n f).fwHash = s.fwHash := rfl
@[simp] theorem modFPort_cfgNormal (s : State) (n : Fin 18) (f : FPort → FPort) : (modFPort s n f).cfgNormal = s.cfgNormal := rfl
@[simp] theorem modFPort_hostLink (s : State) (n : Fin 18) (f : FPort → FPort) : (modFPort s n f).hostLink = s.hostLink := rfl
@[simp] theorem modFPort_fdtCount (s : State) (n : Fin 18) (f : FPort → FPort) : (modFPort s n f).fdtCount = s.fdtCount := rfl
@[simp] theorem modFPort_thermTrip (s : State) (n : Fin 18) (f : FPort → FPort) : (modFPort s n f).thermTrip = s.thermTrip := rfl
@[simp] theorem modFPort_powerCap (s : State) (n : Fin 18) (f : FPort → FPort) : (modFPort s n f).powerCap = s.powerCap := rfl
@[simp] theorem modFPort_deviceId (s : State) (n : Fin 18) (f : FPort → FPort) : (modFPort s n f).deviceId = s.deviceId := rfl
@[simp] theorem modFPort_hitch (s : State) (n : Fin 18) (f : FPort → FPort) : (modFPort s n f).hitch = s.hitch := rfl
@[simp] theorem modFPort_hitchArm (s : State) (n : Fin 18) (f : FPort → FPort) : (modFPort s n f).hitchArm = s.hitchArm := rfl
@[simp] theorem modFPort_fuse (s : State) (n : Fin 18) (f : FPort → FPort) : (modFPort s n f).fuse = s.fuse := rfl
@[simp] theorem modFPort_unlocked (s : State) (n : Fin 18) (f : FPort → FPort) : (modFPort s n f).unlocked = s.unlocked := rfl
@[simp] theorem modFPort_caps (s : State) (n : Fin 18) (f : FPort → FPort) : (modFPort s n f).caps = s.caps := rfl
@[simp] theorem modFPort_arbs (s : State) (n : Fin 18) (f : FPort → FPort) : (modFPort s n f).arbs = s.arbs := rfl
@[simp] theorem modFPort_loads (s : State) (n : Fin 18) (f : FPort → FPort) : (modFPort s n f).loads = s.loads := rfl
@[simp] theorem modFPort_arbBusy (s : State) (n : Fin 18) (f : FPort → FPort) : (modFPort s n f).arbBusy = s.arbBusy := rfl
@[simp] theorem modFPort_vfs (s : State) (n : Fin 18) (f : FPort → FPort) : (modFPort s n f).vfs = s.vfs := rfl
@[simp] theorem modFPort_windows (s : State) (n : Fin 18) (f : FPort → FPort) : (modFPort s n f).windows = s.windows := rfl
@[simp] theorem modFPort_hostLines (s : State) (n : Fin 18) (f : FPort → FPort) : (modFPort s n f).hostLines = s.hostLines := rfl
@[simp] theorem modFPort_hostMem (s : State) (n : Fin 18) (f : FPort → FPort) : (modFPort s n f).hostMem = s.hostMem := rfl
@[simp] theorem modFPort_poolUp (s : State) (n : Fin 18) (f : FPort → FPort) : (modFPort s n f).poolUp = s.poolUp := rfl
@[simp] theorem modFPort_extents (s : State) (n : Fin 18) (f : FPort → FPort) : (modFPort s n f).extents = s.extents := rfl
@[simp] theorem modFPort_fetching (s : State) (n : Fin 18) (f : FPort → FPort) : (modFPort s n f).fetching = s.fetching := rfl
@[simp] theorem modFPort_groups (s : State) (n : Fin 18) (f : FPort → FPort) : (modFPort s n f).groups = s.groups := rfl
@[simp] theorem modFPort_opn (s : State) (n : Fin 18) (f : FPort → FPort) : (modFPort s n f).opn = s.opn := rfl
@[simp] theorem modFPort_collOps (s : State) (n : Fin 18) (f : FPort → FPort) : (modFPort s n f).collOps = s.collOps := rfl
@[simp] theorem modFPort_collTimeout (s : State) (n : Fin 18) (f : FPort → FPort) : (modFPort s n f).collTimeout = s.collTimeout := rfl
@[simp] theorem modFPort_mem (s : State) (n : Fin 18) (f : FPort → FPort) : (modFPort s n f).mem = s.mem := rfl
@[simp] theorem modFPort_pend (s : State) (n : Fin 18) (f : FPort → FPort) : (modFPort s n f).pend = s.pend := rfl
@[simp] theorem modFPort_frames (s : State) (n : Fin 18) (f : FPort → FPort) : (modFPort s n f).frames = s.frames := rfl
@[simp] theorem modFPort_l2 (s : State) (n : Fin 18) (f : FPort → FPort) : (modFPort s n f).l2 = s.l2 := rfl
@[simp] theorem modFPort_olim (s : State) (n : Fin 18) (f : FPort → FPort) : (modFPort s n f).olim = s.olim := rfl
@[simp] theorem modFPort_mdt (s : State) (n : Fin 18) (f : FPort → FPort) : (modFPort s n f).mdt = s.mdt := rfl
@[simp] theorem modFPort_stale (s : State) (n : Fin 18) (f : FPort → FPort) : (modFPort s n f).stale = s.stale := rfl
@[simp] theorem modFPort_placed (s : State) (n : Fin 18) (f : FPort → FPort) : (modFPort s n f).placed = s.placed := rfl
@[simp] theorem modFPort_mdtBad (s : State) (n : Fin 18) (f : FPort → FPort) : (modFPort s n f).mdtBad = s.mdtBad := rfl
@[simp] theorem modFPort_mdtHeld (s : State) (n : Fin 18) (f : FPort → FPort) : (modFPort s n f).mdtHeld = s.mdtHeld := rfl
@[simp] theorem modFPort_lostMem (s : State) (n : Fin 18) (f : FPort → FPort) : (modFPort s n f).lostMem = s.lostMem := rfl
@[simp] theorem modFPort_tableBase (s : State) (n : Fin 18) (f : FPort → FPort) : (modFPort s n f).tableBase = s.tableBase := rfl
@[simp] theorem modFPort_fwd (s : State) (n : Fin 18) (f : FPort → FPort) : (modFPort s n f).fwd = s.fwd := rfl
@[simp] theorem modFPort_tokens (s : State) (n : Fin 18) (f : FPort → FPort) : (modFPort s n f).tokens = s.tokens := rfl
@[simp] theorem modFPort_reclaim (s : State) (n : Fin 18) (f : FPort → FPort) : (modFPort s n f).reclaim = s.reclaim := rfl
@[simp] theorem modFPort_tlb (s : State) (n : Fin 18) (f : FPort → FPort) : (modFPort s n f).tlb = s.tlb := rfl
@[simp] theorem modFPort_hide (s : State) (n : Fin 18) (f : FPort → FPort) : (modFPort s n f).hide = s.hide := rfl
@[simp] theorem modFPort_prefixes (s : State) (n : Fin 18) (f : FPort → FPort) : (modFPort s n f).prefixes = s.prefixes := rfl
@[simp] theorem modFPort_pommel (s : State) (n : Fin 18) (f : FPort → FPort) : (modFPort s n f).pommel = s.pommel := rfl
@[simp] theorem modFPort_allocs (s : State) (n : Fin 18) (f : FPort → FPort) : (modFPort s n f).allocs = s.allocs := rfl
@[simp] theorem modFPort_engines (s : State) (n : Fin 18) (f : FPort → FPort) : (modFPort s n f).engines = s.engines := rfl
@[simp] theorem modFPort_cmdSeq (s : State) (n : Fin 18) (f : FPort → FPort) : (modFPort s n f).cmdSeq = s.cmdSeq := rfl
@[simp] theorem modFPort_xfBuf (s : State) (n : Fin 18) (f : FPort → FPort) : (modFPort s n f).xfBuf = s.xfBuf := rfl
@[simp] theorem modFPort_stir (s : State) (n : Fin 18) (f : FPort → FPort) : (modFPort s n f).stir = s.stir := rfl
@[simp] theorem modFPort_parts (s : State) (n : Fin 18) (f : FPort → FPort) : (modFPort s n f).parts = s.parts := rfl
@[simp] theorem modFPort_cores (s : State) (n : Fin 18) (f : FPort → FPort) : (modFPort s n f).cores = s.cores := rfl
@[simp] theorem modFPort_cur (s : State) (n : Fin 18) (f : FPort → FPort) : (modFPort s n f).cur = s.cur := rfl
@[simp] theorem modFPort_urgent (s : State) (n : Fin 18) (f : FPort → FPort) : (modFPort s n f).urgent = s.urgent := rfl
@[simp] theorem modFPort_tasks (s : State) (n : Fin 18) (f : FPort → FPort) : (modFPort s n f).tasks = s.tasks := rfl
@[simp] theorem modFPort_inbox (s : State) (n : Fin 18) (f : FPort → FPort) : (modFPort s n f).inbox = s.inbox := rfl
@[simp] theorem modFPort_turn (s : State) (n : Fin 18) (f : FPort → FPort) : (modFPort s n f).turn = s.turn := rfl
@[simp] theorem modFPort_rr (s : State) (n : Fin 18) (f : FPort → FPort) : (modFPort s n f).rr = s.rr := rfl
@[simp] theorem modFPort_free (s : State) (n : Fin 18) (f : FPort → FPort) : (modFPort s n f).free = s.free := rfl
@[simp] theorem modFPort_freeLat (s : State) (n : Fin 18) (f : FPort → FPort) : (modFPort s n f).freeLat = s.freeLat := rfl
@[simp] theorem modFPort_freeGap (s : State) (n : Fin 18) (f : FPort → FPort) : (modFPort s n f).freeGap = s.freeGap := rfl
@[simp] theorem modFPort_out (s : State) (n : Fin 18) (f : FPort → FPort) : (modFPort s n f).out = s.out := rfl

/-! ### modRunning -/

@[simp] theorem modRunning_pwrGood (s : State) (n : Nat) (f : Running → Running) : (modRunning s n f).pwrGood = s.pwrGood := rfl
@[simp] theorem modRunning_sysRstN (s : State) (n : Nat) (f : Running → Running) : (modRunning s n f).sysRstN = s.sysRstN := rfl
@[simp] theorem modRunning_perstN (s : State) (n : Nat) (f : Running → Running) : (modRunning s n f).perstN = s.perstN := rfl
@[simp] theorem modRunning_boot (s : State) (n : Nat) (f : Running → Running) : (modRunning s n f).boot = s.boot := rfl
@[simp] theorem modRunning_status (s : State) (n : Nat) (f : Running → Running) : (modRunning s n f).status = s.status := rfl
@[simp] theorem modRunning_pll (s : State) (n : Nat) (f : Running → Running) : (modRunning s n f).pll = s.pll := rfl
@[simp] theorem modRunning_fc (s : State) (n : Nat) (f : Running → Running) : (modRunning s n f).fc = s.fc := rfl
@[simp] theorem modRunning_clk (s : State) (n : Nat) (f : Running → Running) : (modRunning s n f).clk = s.clk := rfl
@[simp] theorem modRunning_fwHash (s : State) (n : Nat) (f : Running → Running) : (modRunning s n f).fwHash = s.fwHash := rfl
@[simp] theorem modRunning_cfgNormal (s : State) (n : Nat) (f : Running → Running) : (modRunning s n f).cfgNormal = s.cfgNormal := rfl
@[simp] theorem modRunning_hostLink (s : State) (n : Nat) (f : Running → Running) : (modRunning s n f).hostLink = s.hostLink := rfl
@[simp] theorem modRunning_fdtCount (s : State) (n : Nat) (f : Running → Running) : (modRunning s n f).fdtCount = s.fdtCount := rfl
@[simp] theorem modRunning_thermTrip (s : State) (n : Nat) (f : Running → Running) : (modRunning s n f).thermTrip = s.thermTrip := rfl
@[simp] theorem modRunning_powerCap (s : State) (n : Nat) (f : Running → Running) : (modRunning s n f).powerCap = s.powerCap := rfl
@[simp] theorem modRunning_deviceId (s : State) (n : Nat) (f : Running → Running) : (modRunning s n f).deviceId = s.deviceId := rfl
@[simp] theorem modRunning_hitch (s : State) (n : Nat) (f : Running → Running) : (modRunning s n f).hitch = s.hitch := rfl
@[simp] theorem modRunning_hitchArm (s : State) (n : Nat) (f : Running → Running) : (modRunning s n f).hitchArm = s.hitchArm := rfl
@[simp] theorem modRunning_fuse (s : State) (n : Nat) (f : Running → Running) : (modRunning s n f).fuse = s.fuse := rfl
@[simp] theorem modRunning_unlocked (s : State) (n : Nat) (f : Running → Running) : (modRunning s n f).unlocked = s.unlocked := rfl
@[simp] theorem modRunning_caps (s : State) (n : Nat) (f : Running → Running) : (modRunning s n f).caps = s.caps := rfl
@[simp] theorem modRunning_arbs (s : State) (n : Nat) (f : Running → Running) : (modRunning s n f).arbs = s.arbs := rfl
@[simp] theorem modRunning_loads (s : State) (n : Nat) (f : Running → Running) : (modRunning s n f).loads = s.loads := rfl
@[simp] theorem modRunning_arbBusy (s : State) (n : Nat) (f : Running → Running) : (modRunning s n f).arbBusy = s.arbBusy := rfl
@[simp] theorem modRunning_vfs (s : State) (n : Nat) (f : Running → Running) : (modRunning s n f).vfs = s.vfs := rfl
@[simp] theorem modRunning_windows (s : State) (n : Nat) (f : Running → Running) : (modRunning s n f).windows = s.windows := rfl
@[simp] theorem modRunning_hostLines (s : State) (n : Nat) (f : Running → Running) : (modRunning s n f).hostLines = s.hostLines := rfl
@[simp] theorem modRunning_hostMem (s : State) (n : Nat) (f : Running → Running) : (modRunning s n f).hostMem = s.hostMem := rfl
@[simp] theorem modRunning_poolUp (s : State) (n : Nat) (f : Running → Running) : (modRunning s n f).poolUp = s.poolUp := rfl
@[simp] theorem modRunning_extents (s : State) (n : Nat) (f : Running → Running) : (modRunning s n f).extents = s.extents := rfl
@[simp] theorem modRunning_fetching (s : State) (n : Nat) (f : Running → Running) : (modRunning s n f).fetching = s.fetching := rfl
@[simp] theorem modRunning_ports (s : State) (n : Nat) (f : Running → Running) : (modRunning s n f).ports = s.ports := rfl
@[simp] theorem modRunning_groups (s : State) (n : Nat) (f : Running → Running) : (modRunning s n f).groups = s.groups := rfl
@[simp] theorem modRunning_opn (s : State) (n : Nat) (f : Running → Running) : (modRunning s n f).opn = s.opn := rfl
@[simp] theorem modRunning_collOps (s : State) (n : Nat) (f : Running → Running) : (modRunning s n f).collOps = s.collOps := rfl
@[simp] theorem modRunning_collTimeout (s : State) (n : Nat) (f : Running → Running) : (modRunning s n f).collTimeout = s.collTimeout := rfl
@[simp] theorem modRunning_mem (s : State) (n : Nat) (f : Running → Running) : (modRunning s n f).mem = s.mem := rfl
@[simp] theorem modRunning_pend (s : State) (n : Nat) (f : Running → Running) : (modRunning s n f).pend = s.pend := rfl
@[simp] theorem modRunning_frames (s : State) (n : Nat) (f : Running → Running) : (modRunning s n f).frames = s.frames := rfl
@[simp] theorem modRunning_l2 (s : State) (n : Nat) (f : Running → Running) : (modRunning s n f).l2 = s.l2 := rfl
@[simp] theorem modRunning_olim (s : State) (n : Nat) (f : Running → Running) : (modRunning s n f).olim = s.olim := rfl
@[simp] theorem modRunning_mdt (s : State) (n : Nat) (f : Running → Running) : (modRunning s n f).mdt = s.mdt := rfl
@[simp] theorem modRunning_stale (s : State) (n : Nat) (f : Running → Running) : (modRunning s n f).stale = s.stale := rfl
@[simp] theorem modRunning_placed (s : State) (n : Nat) (f : Running → Running) : (modRunning s n f).placed = s.placed := rfl
@[simp] theorem modRunning_mdtBad (s : State) (n : Nat) (f : Running → Running) : (modRunning s n f).mdtBad = s.mdtBad := rfl
@[simp] theorem modRunning_mdtHeld (s : State) (n : Nat) (f : Running → Running) : (modRunning s n f).mdtHeld = s.mdtHeld := rfl
@[simp] theorem modRunning_lostMem (s : State) (n : Nat) (f : Running → Running) : (modRunning s n f).lostMem = s.lostMem := rfl
@[simp] theorem modRunning_tableBase (s : State) (n : Nat) (f : Running → Running) : (modRunning s n f).tableBase = s.tableBase := rfl
@[simp] theorem modRunning_fwd (s : State) (n : Nat) (f : Running → Running) : (modRunning s n f).fwd = s.fwd := rfl
@[simp] theorem modRunning_tokens (s : State) (n : Nat) (f : Running → Running) : (modRunning s n f).tokens = s.tokens := rfl
@[simp] theorem modRunning_reclaim (s : State) (n : Nat) (f : Running → Running) : (modRunning s n f).reclaim = s.reclaim := rfl
@[simp] theorem modRunning_tlb (s : State) (n : Nat) (f : Running → Running) : (modRunning s n f).tlb = s.tlb := rfl
@[simp] theorem modRunning_hide (s : State) (n : Nat) (f : Running → Running) : (modRunning s n f).hide = s.hide := rfl
@[simp] theorem modRunning_prefixes (s : State) (n : Nat) (f : Running → Running) : (modRunning s n f).prefixes = s.prefixes := rfl
@[simp] theorem modRunning_pommel (s : State) (n : Nat) (f : Running → Running) : (modRunning s n f).pommel = s.pommel := rfl
@[simp] theorem modRunning_allocs (s : State) (n : Nat) (f : Running → Running) : (modRunning s n f).allocs = s.allocs := rfl
@[simp] theorem modRunning_cmdSeq (s : State) (n : Nat) (f : Running → Running) : (modRunning s n f).cmdSeq = s.cmdSeq := rfl
@[simp] theorem modRunning_xfBuf (s : State) (n : Nat) (f : Running → Running) : (modRunning s n f).xfBuf = s.xfBuf := rfl
@[simp] theorem modRunning_stir (s : State) (n : Nat) (f : Running → Running) : (modRunning s n f).stir = s.stir := rfl
@[simp] theorem modRunning_parts (s : State) (n : Nat) (f : Running → Running) : (modRunning s n f).parts = s.parts := rfl
@[simp] theorem modRunning_cores (s : State) (n : Nat) (f : Running → Running) : (modRunning s n f).cores = s.cores := rfl
@[simp] theorem modRunning_cur (s : State) (n : Nat) (f : Running → Running) : (modRunning s n f).cur = s.cur := rfl
@[simp] theorem modRunning_urgent (s : State) (n : Nat) (f : Running → Running) : (modRunning s n f).urgent = s.urgent := rfl
@[simp] theorem modRunning_tasks (s : State) (n : Nat) (f : Running → Running) : (modRunning s n f).tasks = s.tasks := rfl
@[simp] theorem modRunning_inbox (s : State) (n : Nat) (f : Running → Running) : (modRunning s n f).inbox = s.inbox := rfl
@[simp] theorem modRunning_turn (s : State) (n : Nat) (f : Running → Running) : (modRunning s n f).turn = s.turn := rfl
@[simp] theorem modRunning_rr (s : State) (n : Nat) (f : Running → Running) : (modRunning s n f).rr = s.rr := rfl
@[simp] theorem modRunning_free (s : State) (n : Nat) (f : Running → Running) : (modRunning s n f).free = s.free := rfl
@[simp] theorem modRunning_freeLat (s : State) (n : Nat) (f : Running → Running) : (modRunning s n f).freeLat = s.freeLat := rfl
@[simp] theorem modRunning_freeGap (s : State) (n : Nat) (f : Running → Running) : (modRunning s n f).freeGap = s.freeGap := rfl
@[simp] theorem modRunning_out (s : State) (n : Nat) (f : Running → Running) : (modRunning s n f).out = s.out := rfl

/-! ### hideWrite, performHide, modCores -/

@[simp] theorem hideWrite_pwrGood (s : State) (p off : Nat) (w : DWord) : (hideWrite s p off w).pwrGood = s.pwrGood := by
  unfold hideWrite; dsimp only; split <;> rfl
@[simp] theorem hideWrite_sysRstN (s : State) (p off : Nat) (w : DWord) : (hideWrite s p off w).sysRstN = s.sysRstN := by
  unfold hideWrite; dsimp only; split <;> rfl
@[simp] theorem hideWrite_perstN (s : State) (p off : Nat) (w : DWord) : (hideWrite s p off w).perstN = s.perstN := by
  unfold hideWrite; dsimp only; split <;> rfl
@[simp] theorem hideWrite_boot (s : State) (p off : Nat) (w : DWord) : (hideWrite s p off w).boot = s.boot := by
  unfold hideWrite; dsimp only; split <;> rfl
@[simp] theorem hideWrite_status (s : State) (p off : Nat) (w : DWord) : (hideWrite s p off w).status = s.status := by
  unfold hideWrite; dsimp only; split <;> rfl
@[simp] theorem hideWrite_pll (s : State) (p off : Nat) (w : DWord) : (hideWrite s p off w).pll = s.pll := by
  unfold hideWrite; dsimp only; split <;> rfl
@[simp] theorem hideWrite_fc (s : State) (p off : Nat) (w : DWord) : (hideWrite s p off w).fc = s.fc := by
  unfold hideWrite; dsimp only; split <;> rfl
@[simp] theorem hideWrite_clk (s : State) (p off : Nat) (w : DWord) : (hideWrite s p off w).clk = s.clk := by
  unfold hideWrite; dsimp only; split <;> rfl
@[simp] theorem hideWrite_fwHash (s : State) (p off : Nat) (w : DWord) : (hideWrite s p off w).fwHash = s.fwHash := by
  unfold hideWrite; dsimp only; split <;> rfl
@[simp] theorem hideWrite_cfgNormal (s : State) (p off : Nat) (w : DWord) : (hideWrite s p off w).cfgNormal = s.cfgNormal := by
  unfold hideWrite; dsimp only; split <;> rfl
@[simp] theorem hideWrite_hostLink (s : State) (p off : Nat) (w : DWord) : (hideWrite s p off w).hostLink = s.hostLink := by
  unfold hideWrite; dsimp only; split <;> rfl
@[simp] theorem hideWrite_fdtCount (s : State) (p off : Nat) (w : DWord) : (hideWrite s p off w).fdtCount = s.fdtCount := by
  unfold hideWrite; dsimp only; split <;> rfl
@[simp] theorem hideWrite_thermTrip (s : State) (p off : Nat) (w : DWord) : (hideWrite s p off w).thermTrip = s.thermTrip := by
  unfold hideWrite; dsimp only; split <;> rfl
@[simp] theorem hideWrite_powerCap (s : State) (p off : Nat) (w : DWord) : (hideWrite s p off w).powerCap = s.powerCap := by
  unfold hideWrite; dsimp only; split <;> rfl
@[simp] theorem hideWrite_deviceId (s : State) (p off : Nat) (w : DWord) : (hideWrite s p off w).deviceId = s.deviceId := by
  unfold hideWrite; dsimp only; split <;> rfl
@[simp] theorem hideWrite_hitch (s : State) (p off : Nat) (w : DWord) : (hideWrite s p off w).hitch = s.hitch := by
  unfold hideWrite; dsimp only; split <;> rfl
@[simp] theorem hideWrite_hitchArm (s : State) (p off : Nat) (w : DWord) : (hideWrite s p off w).hitchArm = s.hitchArm := by
  unfold hideWrite; dsimp only; split <;> rfl
@[simp] theorem hideWrite_fuse (s : State) (p off : Nat) (w : DWord) : (hideWrite s p off w).fuse = s.fuse := by
  unfold hideWrite; dsimp only; split <;> rfl
@[simp] theorem hideWrite_unlocked (s : State) (p off : Nat) (w : DWord) : (hideWrite s p off w).unlocked = s.unlocked := by
  unfold hideWrite; dsimp only; split <;> rfl
@[simp] theorem hideWrite_caps (s : State) (p off : Nat) (w : DWord) : (hideWrite s p off w).caps = s.caps := by
  unfold hideWrite; dsimp only; split <;> rfl
@[simp] theorem hideWrite_arbs (s : State) (p off : Nat) (w : DWord) : (hideWrite s p off w).arbs = s.arbs := by
  unfold hideWrite; dsimp only; split <;> rfl
@[simp] theorem hideWrite_loads (s : State) (p off : Nat) (w : DWord) : (hideWrite s p off w).loads = s.loads := by
  unfold hideWrite; dsimp only; split <;> rfl
@[simp] theorem hideWrite_arbBusy (s : State) (p off : Nat) (w : DWord) : (hideWrite s p off w).arbBusy = s.arbBusy := by
  unfold hideWrite; dsimp only; split <;> rfl
@[simp] theorem hideWrite_vfs (s : State) (p off : Nat) (w : DWord) : (hideWrite s p off w).vfs = s.vfs := by
  unfold hideWrite; dsimp only; split <;> rfl
@[simp] theorem hideWrite_windows (s : State) (p off : Nat) (w : DWord) : (hideWrite s p off w).windows = s.windows := by
  unfold hideWrite; dsimp only; split <;> rfl
@[simp] theorem hideWrite_hostLines (s : State) (p off : Nat) (w : DWord) : (hideWrite s p off w).hostLines = s.hostLines := by
  unfold hideWrite; dsimp only; split <;> rfl
@[simp] theorem hideWrite_hostMem (s : State) (p off : Nat) (w : DWord) : (hideWrite s p off w).hostMem = s.hostMem := by
  unfold hideWrite; dsimp only; split <;> rfl
@[simp] theorem hideWrite_poolUp (s : State) (p off : Nat) (w : DWord) : (hideWrite s p off w).poolUp = s.poolUp := by
  unfold hideWrite; dsimp only; split <;> rfl
@[simp] theorem hideWrite_extents (s : State) (p off : Nat) (w : DWord) : (hideWrite s p off w).extents = s.extents := by
  unfold hideWrite; dsimp only; split <;> rfl
@[simp] theorem hideWrite_fetching (s : State) (p off : Nat) (w : DWord) : (hideWrite s p off w).fetching = s.fetching := by
  unfold hideWrite; dsimp only; split <;> rfl
@[simp] theorem hideWrite_ports (s : State) (p off : Nat) (w : DWord) : (hideWrite s p off w).ports = s.ports := by
  unfold hideWrite; dsimp only; split <;> rfl
@[simp] theorem hideWrite_groups (s : State) (p off : Nat) (w : DWord) : (hideWrite s p off w).groups = s.groups := by
  unfold hideWrite; dsimp only; split <;> rfl
@[simp] theorem hideWrite_opn (s : State) (p off : Nat) (w : DWord) : (hideWrite s p off w).opn = s.opn := by
  unfold hideWrite; dsimp only; split <;> rfl
@[simp] theorem hideWrite_collOps (s : State) (p off : Nat) (w : DWord) : (hideWrite s p off w).collOps = s.collOps := by
  unfold hideWrite; dsimp only; split <;> rfl
@[simp] theorem hideWrite_collTimeout (s : State) (p off : Nat) (w : DWord) : (hideWrite s p off w).collTimeout = s.collTimeout := by
  unfold hideWrite; dsimp only; split <;> rfl
@[simp] theorem hideWrite_mem (s : State) (p off : Nat) (w : DWord) : (hideWrite s p off w).mem = s.mem := by
  unfold hideWrite; dsimp only; split <;> rfl
@[simp] theorem hideWrite_pend (s : State) (p off : Nat) (w : DWord) : (hideWrite s p off w).pend = s.pend := by
  unfold hideWrite; dsimp only; split <;> rfl
@[simp] theorem hideWrite_frames (s : State) (p off : Nat) (w : DWord) : (hideWrite s p off w).frames = s.frames := by
  unfold hideWrite; dsimp only; split <;> rfl
@[simp] theorem hideWrite_l2 (s : State) (p off : Nat) (w : DWord) : (hideWrite s p off w).l2 = s.l2 := by
  unfold hideWrite; dsimp only; split <;> rfl
@[simp] theorem hideWrite_olim (s : State) (p off : Nat) (w : DWord) : (hideWrite s p off w).olim = s.olim := by
  unfold hideWrite; dsimp only; split <;> rfl
@[simp] theorem hideWrite_mdt (s : State) (p off : Nat) (w : DWord) : (hideWrite s p off w).mdt = s.mdt := by
  unfold hideWrite; dsimp only; split <;> rfl
@[simp] theorem hideWrite_stale (s : State) (p off : Nat) (w : DWord) : (hideWrite s p off w).stale = s.stale := by
  unfold hideWrite; dsimp only; split <;> rfl
@[simp] theorem hideWrite_placed (s : State) (p off : Nat) (w : DWord) : (hideWrite s p off w).placed = s.placed := by
  unfold hideWrite; dsimp only; split <;> rfl
@[simp] theorem hideWrite_mdtBad (s : State) (p off : Nat) (w : DWord) : (hideWrite s p off w).mdtBad = s.mdtBad := by
  unfold hideWrite; dsimp only; split <;> rfl
@[simp] theorem hideWrite_mdtHeld (s : State) (p off : Nat) (w : DWord) : (hideWrite s p off w).mdtHeld = s.mdtHeld := by
  unfold hideWrite; dsimp only; split <;> rfl
@[simp] theorem hideWrite_lostMem (s : State) (p off : Nat) (w : DWord) : (hideWrite s p off w).lostMem = s.lostMem := by
  unfold hideWrite; dsimp only; split <;> rfl
@[simp] theorem hideWrite_tableBase (s : State) (p off : Nat) (w : DWord) : (hideWrite s p off w).tableBase = s.tableBase := by
  unfold hideWrite; dsimp only; split <;> rfl
@[simp] theorem hideWrite_fwd (s : State) (p off : Nat) (w : DWord) : (hideWrite s p off w).fwd = s.fwd := by
  unfold hideWrite; dsimp only; split <;> rfl
@[simp] theorem hideWrite_tokens (s : State) (p off : Nat) (w : DWord) : (hideWrite s p off w).tokens = s.tokens := by
  unfold hideWrite; dsimp only; split <;> rfl
@[simp] theorem hideWrite_reclaim (s : State) (p off : Nat) (w : DWord) : (hideWrite s p off w).reclaim = s.reclaim := by
  unfold hideWrite; dsimp only; split <;> rfl
@[simp] theorem hideWrite_tlb (s : State) (p off : Nat) (w : DWord) : (hideWrite s p off w).tlb = s.tlb := by
  unfold hideWrite; dsimp only; split <;> rfl
@[simp] theorem hideWrite_prefixes (s : State) (p off : Nat) (w : DWord) : (hideWrite s p off w).prefixes = s.prefixes := by
  unfold hideWrite; dsimp only; split <;> rfl
@[simp] theorem hideWrite_pommel (s : State) (p off : Nat) (w : DWord) : (hideWrite s p off w).pommel = s.pommel := by
  unfold hideWrite; dsimp only; split <;> rfl
@[simp] theorem hideWrite_allocs (s : State) (p off : Nat) (w : DWord) : (hideWrite s p off w).allocs = s.allocs := by
  unfold hideWrite; dsimp only; split <;> rfl
@[simp] theorem hideWrite_engines (s : State) (p off : Nat) (w : DWord) : (hideWrite s p off w).engines = s.engines := by
  unfold hideWrite; dsimp only; split <;> rfl
@[simp] theorem hideWrite_cmdSeq (s : State) (p off : Nat) (w : DWord) : (hideWrite s p off w).cmdSeq = s.cmdSeq := by
  unfold hideWrite; dsimp only; split <;> rfl
@[simp] theorem hideWrite_xfBuf (s : State) (p off : Nat) (w : DWord) : (hideWrite s p off w).xfBuf = s.xfBuf := by
  unfold hideWrite; dsimp only; split <;> rfl
@[simp] theorem hideWrite_stir (s : State) (p off : Nat) (w : DWord) : (hideWrite s p off w).stir = s.stir := by
  unfold hideWrite; dsimp only; split <;> rfl
@[simp] theorem hideWrite_parts (s : State) (p off : Nat) (w : DWord) : (hideWrite s p off w).parts = s.parts := by
  unfold hideWrite; dsimp only; split <;> rfl
@[simp] theorem hideWrite_cores (s : State) (p off : Nat) (w : DWord) : (hideWrite s p off w).cores = s.cores := by
  unfold hideWrite; dsimp only; split <;> rfl
@[simp] theorem hideWrite_cur (s : State) (p off : Nat) (w : DWord) : (hideWrite s p off w).cur = s.cur := by
  unfold hideWrite; dsimp only; split <;> rfl
@[simp] theorem hideWrite_urgent (s : State) (p off : Nat) (w : DWord) : (hideWrite s p off w).urgent = s.urgent := by
  unfold hideWrite; dsimp only; split <;> rfl
@[simp] theorem hideWrite_tasks (s : State) (p off : Nat) (w : DWord) : (hideWrite s p off w).tasks = s.tasks := by
  unfold hideWrite; dsimp only; split <;> rfl
@[simp] theorem hideWrite_inbox (s : State) (p off : Nat) (w : DWord) : (hideWrite s p off w).inbox = s.inbox := by
  unfold hideWrite; dsimp only; split <;> rfl
@[simp] theorem hideWrite_turn (s : State) (p off : Nat) (w : DWord) : (hideWrite s p off w).turn = s.turn := by
  unfold hideWrite; dsimp only; split <;> rfl
@[simp] theorem hideWrite_rr (s : State) (p off : Nat) (w : DWord) : (hideWrite s p off w).rr = s.rr := by
  unfold hideWrite; dsimp only; split <;> rfl
@[simp] theorem hideWrite_free (s : State) (p off : Nat) (w : DWord) : (hideWrite s p off w).free = s.free := by
  unfold hideWrite; dsimp only; split <;> rfl
@[simp] theorem hideWrite_freeLat (s : State) (p off : Nat) (w : DWord) : (hideWrite s p off w).freeLat = s.freeLat := by
  unfold hideWrite; dsimp only; split <;> rfl
@[simp] theorem hideWrite_freeGap (s : State) (p off : Nat) (w : DWord) : (hideWrite s p off w).freeGap = s.freeGap := by
  unfold hideWrite; dsimp only; split <;> rfl
@[simp] theorem hideWrite_out (s : State) (p off : Nat) (w : DWord) : (hideWrite s p off w).out = s.out := by
  unfold hideWrite; dsimp only; split <;> rfl
@[simp] theorem performHide_pwrGood (s : State) (p off : Nat) (op : HOp) : (performHide s p off op).pwrGood = s.pwrGood := by simp [performHide]
@[simp] theorem performHide_sysRstN (s : State) (p off : Nat) (op : HOp) : (performHide s p off op).sysRstN = s.sysRstN := by simp [performHide]
@[simp] theorem performHide_perstN (s : State) (p off : Nat) (op : HOp) : (performHide s p off op).perstN = s.perstN := by simp [performHide]
@[simp] theorem performHide_boot (s : State) (p off : Nat) (op : HOp) : (performHide s p off op).boot = s.boot := by simp [performHide]
@[simp] theorem performHide_status (s : State) (p off : Nat) (op : HOp) : (performHide s p off op).status = s.status := by simp [performHide]
@[simp] theorem performHide_pll (s : State) (p off : Nat) (op : HOp) : (performHide s p off op).pll = s.pll := by simp [performHide]
@[simp] theorem performHide_fc (s : State) (p off : Nat) (op : HOp) : (performHide s p off op).fc = s.fc := by simp [performHide]
@[simp] theorem performHide_clk (s : State) (p off : Nat) (op : HOp) : (performHide s p off op).clk = s.clk := by simp [performHide]
@[simp] theorem performHide_fwHash (s : State) (p off : Nat) (op : HOp) : (performHide s p off op).fwHash = s.fwHash := by simp [performHide]
@[simp] theorem performHide_cfgNormal (s : State) (p off : Nat) (op : HOp) : (performHide s p off op).cfgNormal = s.cfgNormal := by simp [performHide]
@[simp] theorem performHide_hostLink (s : State) (p off : Nat) (op : HOp) : (performHide s p off op).hostLink = s.hostLink := by simp [performHide]
@[simp] theorem performHide_fdtCount (s : State) (p off : Nat) (op : HOp) : (performHide s p off op).fdtCount = s.fdtCount := by simp [performHide]
@[simp] theorem performHide_thermTrip (s : State) (p off : Nat) (op : HOp) : (performHide s p off op).thermTrip = s.thermTrip := by simp [performHide]
@[simp] theorem performHide_powerCap (s : State) (p off : Nat) (op : HOp) : (performHide s p off op).powerCap = s.powerCap := by simp [performHide]
@[simp] theorem performHide_deviceId (s : State) (p off : Nat) (op : HOp) : (performHide s p off op).deviceId = s.deviceId := by simp [performHide]
@[simp] theorem performHide_hitch (s : State) (p off : Nat) (op : HOp) : (performHide s p off op).hitch = s.hitch := by simp [performHide]
@[simp] theorem performHide_hitchArm (s : State) (p off : Nat) (op : HOp) : (performHide s p off op).hitchArm = s.hitchArm := by simp [performHide]
@[simp] theorem performHide_fuse (s : State) (p off : Nat) (op : HOp) : (performHide s p off op).fuse = s.fuse := by simp [performHide]
@[simp] theorem performHide_unlocked (s : State) (p off : Nat) (op : HOp) : (performHide s p off op).unlocked = s.unlocked := by simp [performHide]
@[simp] theorem performHide_caps (s : State) (p off : Nat) (op : HOp) : (performHide s p off op).caps = s.caps := by simp [performHide]
@[simp] theorem performHide_arbs (s : State) (p off : Nat) (op : HOp) : (performHide s p off op).arbs = s.arbs := by simp [performHide]
@[simp] theorem performHide_loads (s : State) (p off : Nat) (op : HOp) : (performHide s p off op).loads = s.loads := by simp [performHide]
@[simp] theorem performHide_arbBusy (s : State) (p off : Nat) (op : HOp) : (performHide s p off op).arbBusy = s.arbBusy := by simp [performHide]
@[simp] theorem performHide_vfs (s : State) (p off : Nat) (op : HOp) : (performHide s p off op).vfs = s.vfs := by simp [performHide]
@[simp] theorem performHide_windows (s : State) (p off : Nat) (op : HOp) : (performHide s p off op).windows = s.windows := by simp [performHide]
@[simp] theorem performHide_hostLines (s : State) (p off : Nat) (op : HOp) : (performHide s p off op).hostLines = s.hostLines := by simp [performHide]
@[simp] theorem performHide_hostMem (s : State) (p off : Nat) (op : HOp) : (performHide s p off op).hostMem = s.hostMem := by simp [performHide]
@[simp] theorem performHide_poolUp (s : State) (p off : Nat) (op : HOp) : (performHide s p off op).poolUp = s.poolUp := by simp [performHide]
@[simp] theorem performHide_extents (s : State) (p off : Nat) (op : HOp) : (performHide s p off op).extents = s.extents := by simp [performHide]
@[simp] theorem performHide_fetching (s : State) (p off : Nat) (op : HOp) : (performHide s p off op).fetching = s.fetching := by simp [performHide]
@[simp] theorem performHide_ports (s : State) (p off : Nat) (op : HOp) : (performHide s p off op).ports = s.ports := by simp [performHide]
@[simp] theorem performHide_groups (s : State) (p off : Nat) (op : HOp) : (performHide s p off op).groups = s.groups := by simp [performHide]
@[simp] theorem performHide_opn (s : State) (p off : Nat) (op : HOp) : (performHide s p off op).opn = s.opn := by simp [performHide]
@[simp] theorem performHide_collOps (s : State) (p off : Nat) (op : HOp) : (performHide s p off op).collOps = s.collOps := by simp [performHide]
@[simp] theorem performHide_collTimeout (s : State) (p off : Nat) (op : HOp) : (performHide s p off op).collTimeout = s.collTimeout := by simp [performHide]
@[simp] theorem performHide_mem (s : State) (p off : Nat) (op : HOp) : (performHide s p off op).mem = s.mem := by simp [performHide]
@[simp] theorem performHide_pend (s : State) (p off : Nat) (op : HOp) : (performHide s p off op).pend = s.pend := by simp [performHide]
@[simp] theorem performHide_frames (s : State) (p off : Nat) (op : HOp) : (performHide s p off op).frames = s.frames := by simp [performHide]
@[simp] theorem performHide_l2 (s : State) (p off : Nat) (op : HOp) : (performHide s p off op).l2 = s.l2 := by simp [performHide]
@[simp] theorem performHide_olim (s : State) (p off : Nat) (op : HOp) : (performHide s p off op).olim = s.olim := by simp [performHide]
@[simp] theorem performHide_mdt (s : State) (p off : Nat) (op : HOp) : (performHide s p off op).mdt = s.mdt := by simp [performHide]
@[simp] theorem performHide_stale (s : State) (p off : Nat) (op : HOp) : (performHide s p off op).stale = s.stale := by simp [performHide]
@[simp] theorem performHide_placed (s : State) (p off : Nat) (op : HOp) : (performHide s p off op).placed = s.placed := by simp [performHide]
@[simp] theorem performHide_mdtBad (s : State) (p off : Nat) (op : HOp) : (performHide s p off op).mdtBad = s.mdtBad := by simp [performHide]
@[simp] theorem performHide_mdtHeld (s : State) (p off : Nat) (op : HOp) : (performHide s p off op).mdtHeld = s.mdtHeld := by simp [performHide]
@[simp] theorem performHide_lostMem (s : State) (p off : Nat) (op : HOp) : (performHide s p off op).lostMem = s.lostMem := by simp [performHide]
@[simp] theorem performHide_tableBase (s : State) (p off : Nat) (op : HOp) : (performHide s p off op).tableBase = s.tableBase := by simp [performHide]
@[simp] theorem performHide_fwd (s : State) (p off : Nat) (op : HOp) : (performHide s p off op).fwd = s.fwd := by simp [performHide]
@[simp] theorem performHide_tokens (s : State) (p off : Nat) (op : HOp) : (performHide s p off op).tokens = s.tokens := by simp [performHide]
@[simp] theorem performHide_reclaim (s : State) (p off : Nat) (op : HOp) : (performHide s p off op).reclaim = s.reclaim := by simp [performHide]
@[simp] theorem performHide_tlb (s : State) (p off : Nat) (op : HOp) : (performHide s p off op).tlb = s.tlb := by simp [performHide]
@[simp] theorem performHide_prefixes (s : State) (p off : Nat) (op : HOp) : (performHide s p off op).prefixes = s.prefixes := by simp [performHide]
@[simp] theorem performHide_pommel (s : State) (p off : Nat) (op : HOp) : (performHide s p off op).pommel = s.pommel := by simp [performHide]
@[simp] theorem performHide_allocs (s : State) (p off : Nat) (op : HOp) : (performHide s p off op).allocs = s.allocs := by simp [performHide]
@[simp] theorem performHide_engines (s : State) (p off : Nat) (op : HOp) : (performHide s p off op).engines = s.engines := by simp [performHide]
@[simp] theorem performHide_cmdSeq (s : State) (p off : Nat) (op : HOp) : (performHide s p off op).cmdSeq = s.cmdSeq := by simp [performHide]
@[simp] theorem performHide_xfBuf (s : State) (p off : Nat) (op : HOp) : (performHide s p off op).xfBuf = s.xfBuf := by simp [performHide]
@[simp] theorem performHide_stir (s : State) (p off : Nat) (op : HOp) : (performHide s p off op).stir = s.stir := by simp [performHide]
@[simp] theorem performHide_parts (s : State) (p off : Nat) (op : HOp) : (performHide s p off op).parts = s.parts := by simp [performHide]
@[simp] theorem performHide_cores (s : State) (p off : Nat) (op : HOp) : (performHide s p off op).cores = s.cores := by simp [performHide]
@[simp] theorem performHide_cur (s : State) (p off : Nat) (op : HOp) : (performHide s p off op).cur = s.cur := by simp [performHide]
@[simp] theorem performHide_urgent (s : State) (p off : Nat) (op : HOp) : (performHide s p off op).urgent = s.urgent := by simp [performHide]
@[simp] theorem performHide_tasks (s : State) (p off : Nat) (op : HOp) : (performHide s p off op).tasks = s.tasks := by simp [performHide]
@[simp] theorem performHide_inbox (s : State) (p off : Nat) (op : HOp) : (performHide s p off op).inbox = s.inbox := by simp [performHide]
@[simp] theorem performHide_turn (s : State) (p off : Nat) (op : HOp) : (performHide s p off op).turn = s.turn := by simp [performHide]
@[simp] theorem performHide_rr (s : State) (p off : Nat) (op : HOp) : (performHide s p off op).rr = s.rr := by simp [performHide]
@[simp] theorem performHide_free (s : State) (p off : Nat) (op : HOp) : (performHide s p off op).free = s.free := by simp [performHide]
@[simp] theorem performHide_freeLat (s : State) (p off : Nat) (op : HOp) : (performHide s p off op).freeLat = s.freeLat := by simp [performHide]
@[simp] theorem performHide_freeGap (s : State) (p off : Nat) (op : HOp) : (performHide s p off op).freeGap = s.freeGap := by simp [performHide]
@[simp] theorem performHide_out (s : State) (p off : Nat) (op : HOp) : (performHide s p off op).out = s.out := by simp [performHide]
@[simp] theorem modCores_pwrGood (s : State) (l : List Nat) (f : Core → Core) : (modCores s l f).pwrGood = s.pwrGood := by
  unfold modCores; induction l generalizing s with
  | nil => rfl
  | cons c r ih => exact ih (modCore s (coreNo c) f)
@[simp] theorem modCores_sysRstN (s : State) (l : List Nat) (f : Core → Core) : (modCores s l f).sysRstN = s.sysRstN := by
  unfold modCores; induction l generalizing s with
  | nil => rfl
  | cons c r ih => exact ih (modCore s (coreNo c) f)
@[simp] theorem modCores_perstN (s : State) (l : List Nat) (f : Core → Core) : (modCores s l f).perstN = s.perstN := by
  unfold modCores; induction l generalizing s with
  | nil => rfl
  | cons c r ih => exact ih (modCore s (coreNo c) f)
@[simp] theorem modCores_boot (s : State) (l : List Nat) (f : Core → Core) : (modCores s l f).boot = s.boot := by
  unfold modCores; induction l generalizing s with
  | nil => rfl
  | cons c r ih => exact ih (modCore s (coreNo c) f)
@[simp] theorem modCores_status (s : State) (l : List Nat) (f : Core → Core) : (modCores s l f).status = s.status := by
  unfold modCores; induction l generalizing s with
  | nil => rfl
  | cons c r ih => exact ih (modCore s (coreNo c) f)
@[simp] theorem modCores_pll (s : State) (l : List Nat) (f : Core → Core) : (modCores s l f).pll = s.pll := by
  unfold modCores; induction l generalizing s with
  | nil => rfl
  | cons c r ih => exact ih (modCore s (coreNo c) f)
@[simp] theorem modCores_fc (s : State) (l : List Nat) (f : Core → Core) : (modCores s l f).fc = s.fc := by
  unfold modCores; induction l generalizing s with
  | nil => rfl
  | cons c r ih => exact ih (modCore s (coreNo c) f)
@[simp] theorem modCores_clk (s : State) (l : List Nat) (f : Core → Core) : (modCores s l f).clk = s.clk := by
  unfold modCores; induction l generalizing s with
  | nil => rfl
  | cons c r ih => exact ih (modCore s (coreNo c) f)
@[simp] theorem modCores_fwHash (s : State) (l : List Nat) (f : Core → Core) : (modCores s l f).fwHash = s.fwHash := by
  unfold modCores; induction l generalizing s with
  | nil => rfl
  | cons c r ih => exact ih (modCore s (coreNo c) f)
@[simp] theorem modCores_cfgNormal (s : State) (l : List Nat) (f : Core → Core) : (modCores s l f).cfgNormal = s.cfgNormal := by
  unfold modCores; induction l generalizing s with
  | nil => rfl
  | cons c r ih => exact ih (modCore s (coreNo c) f)
@[simp] theorem modCores_hostLink (s : State) (l : List Nat) (f : Core → Core) : (modCores s l f).hostLink = s.hostLink := by
  unfold modCores; induction l generalizing s with
  | nil => rfl
  | cons c r ih => exact ih (modCore s (coreNo c) f)
@[simp] theorem modCores_fdtCount (s : State) (l : List Nat) (f : Core → Core) : (modCores s l f).fdtCount = s.fdtCount := by
  unfold modCores; induction l generalizing s with
  | nil => rfl
  | cons c r ih => exact ih (modCore s (coreNo c) f)
@[simp] theorem modCores_thermTrip (s : State) (l : List Nat) (f : Core → Core) : (modCores s l f).thermTrip = s.thermTrip := by
  unfold modCores; induction l generalizing s with
  | nil => rfl
  | cons c r ih => exact ih (modCore s (coreNo c) f)
@[simp] theorem modCores_powerCap (s : State) (l : List Nat) (f : Core → Core) : (modCores s l f).powerCap = s.powerCap := by
  unfold modCores; induction l generalizing s with
  | nil => rfl
  | cons c r ih => exact ih (modCore s (coreNo c) f)
@[simp] theorem modCores_deviceId (s : State) (l : List Nat) (f : Core → Core) : (modCores s l f).deviceId = s.deviceId := by
  unfold modCores; induction l generalizing s with
  | nil => rfl
  | cons c r ih => exact ih (modCore s (coreNo c) f)
@[simp] theorem modCores_hitch (s : State) (l : List Nat) (f : Core → Core) : (modCores s l f).hitch = s.hitch := by
  unfold modCores; induction l generalizing s with
  | nil => rfl
  | cons c r ih => exact ih (modCore s (coreNo c) f)
@[simp] theorem modCores_hitchArm (s : State) (l : List Nat) (f : Core → Core) : (modCores s l f).hitchArm = s.hitchArm := by
  unfold modCores; induction l generalizing s with
  | nil => rfl
  | cons c r ih => exact ih (modCore s (coreNo c) f)
@[simp] theorem modCores_fuse (s : State) (l : List Nat) (f : Core → Core) : (modCores s l f).fuse = s.fuse := by
  unfold modCores; induction l generalizing s with
  | nil => rfl
  | cons c r ih => exact ih (modCore s (coreNo c) f)
@[simp] theorem modCores_unlocked (s : State) (l : List Nat) (f : Core → Core) : (modCores s l f).unlocked = s.unlocked := by
  unfold modCores; induction l generalizing s with
  | nil => rfl
  | cons c r ih => exact ih (modCore s (coreNo c) f)
@[simp] theorem modCores_caps (s : State) (l : List Nat) (f : Core → Core) : (modCores s l f).caps = s.caps := by
  unfold modCores; induction l generalizing s with
  | nil => rfl
  | cons c r ih => exact ih (modCore s (coreNo c) f)
@[simp] theorem modCores_arbs (s : State) (l : List Nat) (f : Core → Core) : (modCores s l f).arbs = s.arbs := by
  unfold modCores; induction l generalizing s with
  | nil => rfl
  | cons c r ih => exact ih (modCore s (coreNo c) f)
@[simp] theorem modCores_loads (s : State) (l : List Nat) (f : Core → Core) : (modCores s l f).loads = s.loads := by
  unfold modCores; induction l generalizing s with
  | nil => rfl
  | cons c r ih => exact ih (modCore s (coreNo c) f)
@[simp] theorem modCores_arbBusy (s : State) (l : List Nat) (f : Core → Core) : (modCores s l f).arbBusy = s.arbBusy := by
  unfold modCores; induction l generalizing s with
  | nil => rfl
  | cons c r ih => exact ih (modCore s (coreNo c) f)
@[simp] theorem modCores_vfs (s : State) (l : List Nat) (f : Core → Core) : (modCores s l f).vfs = s.vfs := by
  unfold modCores; induction l generalizing s with
  | nil => rfl
  | cons c r ih => exact ih (modCore s (coreNo c) f)
@[simp] theorem modCores_windows (s : State) (l : List Nat) (f : Core → Core) : (modCores s l f).windows = s.windows := by
  unfold modCores; induction l generalizing s with
  | nil => rfl
  | cons c r ih => exact ih (modCore s (coreNo c) f)
@[simp] theorem modCores_hostLines (s : State) (l : List Nat) (f : Core → Core) : (modCores s l f).hostLines = s.hostLines := by
  unfold modCores; induction l generalizing s with
  | nil => rfl
  | cons c r ih => exact ih (modCore s (coreNo c) f)
@[simp] theorem modCores_hostMem (s : State) (l : List Nat) (f : Core → Core) : (modCores s l f).hostMem = s.hostMem := by
  unfold modCores; induction l generalizing s with
  | nil => rfl
  | cons c r ih => exact ih (modCore s (coreNo c) f)
@[simp] theorem modCores_poolUp (s : State) (l : List Nat) (f : Core → Core) : (modCores s l f).poolUp = s.poolUp := by
  unfold modCores; induction l generalizing s with
  | nil => rfl
  | cons c r ih => exact ih (modCore s (coreNo c) f)
@[simp] theorem modCores_extents (s : State) (l : List Nat) (f : Core → Core) : (modCores s l f).extents = s.extents := by
  unfold modCores; induction l generalizing s with
  | nil => rfl
  | cons c r ih => exact ih (modCore s (coreNo c) f)
@[simp] theorem modCores_fetching (s : State) (l : List Nat) (f : Core → Core) : (modCores s l f).fetching = s.fetching := by
  unfold modCores; induction l generalizing s with
  | nil => rfl
  | cons c r ih => exact ih (modCore s (coreNo c) f)
@[simp] theorem modCores_ports (s : State) (l : List Nat) (f : Core → Core) : (modCores s l f).ports = s.ports := by
  unfold modCores; induction l generalizing s with
  | nil => rfl
  | cons c r ih => exact ih (modCore s (coreNo c) f)
@[simp] theorem modCores_groups (s : State) (l : List Nat) (f : Core → Core) : (modCores s l f).groups = s.groups := by
  unfold modCores; induction l generalizing s with
  | nil => rfl
  | cons c r ih => exact ih (modCore s (coreNo c) f)
@[simp] theorem modCores_opn (s : State) (l : List Nat) (f : Core → Core) : (modCores s l f).opn = s.opn := by
  unfold modCores; induction l generalizing s with
  | nil => rfl
  | cons c r ih => exact ih (modCore s (coreNo c) f)
@[simp] theorem modCores_collOps (s : State) (l : List Nat) (f : Core → Core) : (modCores s l f).collOps = s.collOps := by
  unfold modCores; induction l generalizing s with
  | nil => rfl
  | cons c r ih => exact ih (modCore s (coreNo c) f)
@[simp] theorem modCores_collTimeout (s : State) (l : List Nat) (f : Core → Core) : (modCores s l f).collTimeout = s.collTimeout := by
  unfold modCores; induction l generalizing s with
  | nil => rfl
  | cons c r ih => exact ih (modCore s (coreNo c) f)
@[simp] theorem modCores_mem (s : State) (l : List Nat) (f : Core → Core) : (modCores s l f).mem = s.mem := by
  unfold modCores; induction l generalizing s with
  | nil => rfl
  | cons c r ih => exact ih (modCore s (coreNo c) f)
@[simp] theorem modCores_pend (s : State) (l : List Nat) (f : Core → Core) : (modCores s l f).pend = s.pend := by
  unfold modCores; induction l generalizing s with
  | nil => rfl
  | cons c r ih => exact ih (modCore s (coreNo c) f)
@[simp] theorem modCores_frames (s : State) (l : List Nat) (f : Core → Core) : (modCores s l f).frames = s.frames := by
  unfold modCores; induction l generalizing s with
  | nil => rfl
  | cons c r ih => exact ih (modCore s (coreNo c) f)
@[simp] theorem modCores_l2 (s : State) (l : List Nat) (f : Core → Core) : (modCores s l f).l2 = s.l2 := by
  unfold modCores; induction l generalizing s with
  | nil => rfl
  | cons c r ih => exact ih (modCore s (coreNo c) f)
@[simp] theorem modCores_olim (s : State) (l : List Nat) (f : Core → Core) : (modCores s l f).olim = s.olim := by
  unfold modCores; induction l generalizing s with
  | nil => rfl
  | cons c r ih => exact ih (modCore s (coreNo c) f)
@[simp] theorem modCores_mdt (s : State) (l : List Nat) (f : Core → Core) : (modCores s l f).mdt = s.mdt := by
  unfold modCores; induction l generalizing s with
  | nil => rfl
  | cons c r ih => exact ih (modCore s (coreNo c) f)
@[simp] theorem modCores_stale (s : State) (l : List Nat) (f : Core → Core) : (modCores s l f).stale = s.stale := by
  unfold modCores; induction l generalizing s with
  | nil => rfl
  | cons c r ih => exact ih (modCore s (coreNo c) f)
@[simp] theorem modCores_placed (s : State) (l : List Nat) (f : Core → Core) : (modCores s l f).placed = s.placed := by
  unfold modCores; induction l generalizing s with
  | nil => rfl
  | cons c r ih => exact ih (modCore s (coreNo c) f)
@[simp] theorem modCores_mdtBad (s : State) (l : List Nat) (f : Core → Core) : (modCores s l f).mdtBad = s.mdtBad := by
  unfold modCores; induction l generalizing s with
  | nil => rfl
  | cons c r ih => exact ih (modCore s (coreNo c) f)
@[simp] theorem modCores_mdtHeld (s : State) (l : List Nat) (f : Core → Core) : (modCores s l f).mdtHeld = s.mdtHeld := by
  unfold modCores; induction l generalizing s with
  | nil => rfl
  | cons c r ih => exact ih (modCore s (coreNo c) f)
@[simp] theorem modCores_lostMem (s : State) (l : List Nat) (f : Core → Core) : (modCores s l f).lostMem = s.lostMem := by
  unfold modCores; induction l generalizing s with
  | nil => rfl
  | cons c r ih => exact ih (modCore s (coreNo c) f)
@[simp] theorem modCores_tableBase (s : State) (l : List Nat) (f : Core → Core) : (modCores s l f).tableBase = s.tableBase := by
  unfold modCores; induction l generalizing s with
  | nil => rfl
  | cons c r ih => exact ih (modCore s (coreNo c) f)
@[simp] theorem modCores_fwd (s : State) (l : List Nat) (f : Core → Core) : (modCores s l f).fwd = s.fwd := by
  unfold modCores; induction l generalizing s with
  | nil => rfl
  | cons c r ih => exact ih (modCore s (coreNo c) f)
@[simp] theorem modCores_tokens (s : State) (l : List Nat) (f : Core → Core) : (modCores s l f).tokens = s.tokens := by
  unfold modCores; induction l generalizing s with
  | nil => rfl
  | cons c r ih => exact ih (modCore s (coreNo c) f)
@[simp] theorem modCores_reclaim (s : State) (l : List Nat) (f : Core → Core) : (modCores s l f).reclaim = s.reclaim := by
  unfold modCores; induction l generalizing s with
  | nil => rfl
  | cons c r ih => exact ih (modCore s (coreNo c) f)
@[simp] theorem modCores_tlb (s : State) (l : List Nat) (f : Core → Core) : (modCores s l f).tlb = s.tlb := by
  unfold modCores; induction l generalizing s with
  | nil => rfl
  | cons c r ih => exact ih (modCore s (coreNo c) f)
@[simp] theorem modCores_hide (s : State) (l : List Nat) (f : Core → Core) : (modCores s l f).hide = s.hide := by
  unfold modCores; induction l generalizing s with
  | nil => rfl
  | cons c r ih => exact ih (modCore s (coreNo c) f)
@[simp] theorem modCores_prefixes (s : State) (l : List Nat) (f : Core → Core) : (modCores s l f).prefixes = s.prefixes := by
  unfold modCores; induction l generalizing s with
  | nil => rfl
  | cons c r ih => exact ih (modCore s (coreNo c) f)
@[simp] theorem modCores_pommel (s : State) (l : List Nat) (f : Core → Core) : (modCores s l f).pommel = s.pommel := by
  unfold modCores; induction l generalizing s with
  | nil => rfl
  | cons c r ih => exact ih (modCore s (coreNo c) f)
@[simp] theorem modCores_allocs (s : State) (l : List Nat) (f : Core → Core) : (modCores s l f).allocs = s.allocs := by
  unfold modCores; induction l generalizing s with
  | nil => rfl
  | cons c r ih => exact ih (modCore s (coreNo c) f)
@[simp] theorem modCores_engines (s : State) (l : List Nat) (f : Core → Core) : (modCores s l f).engines = s.engines := by
  unfold modCores; induction l generalizing s with
  | nil => rfl
  | cons c r ih => exact ih (modCore s (coreNo c) f)
@[simp] theorem modCores_cmdSeq (s : State) (l : List Nat) (f : Core → Core) : (modCores s l f).cmdSeq = s.cmdSeq := by
  unfold modCores; induction l generalizing s with
  | nil => rfl
  | cons c r ih => exact ih (modCore s (coreNo c) f)
@[simp] theorem modCores_xfBuf (s : State) (l : List Nat) (f : Core → Core) : (modCores s l f).xfBuf = s.xfBuf := by
  unfold modCores; induction l generalizing s with
  | nil => rfl
  | cons c r ih => exact ih (modCore s (coreNo c) f)
@[simp] theorem modCores_stir (s : State) (l : List Nat) (f : Core → Core) : (modCores s l f).stir = s.stir := by
  unfold modCores; induction l generalizing s with
  | nil => rfl
  | cons c r ih => exact ih (modCore s (coreNo c) f)
@[simp] theorem modCores_parts (s : State) (l : List Nat) (f : Core → Core) : (modCores s l f).parts = s.parts := by
  unfold modCores; induction l generalizing s with
  | nil => rfl
  | cons c r ih => exact ih (modCore s (coreNo c) f)
@[simp] theorem modCores_cur (s : State) (l : List Nat) (f : Core → Core) : (modCores s l f).cur = s.cur := by
  unfold modCores; induction l generalizing s with
  | nil => rfl
  | cons c r ih => exact ih (modCore s (coreNo c) f)
@[simp] theorem modCores_urgent (s : State) (l : List Nat) (f : Core → Core) : (modCores s l f).urgent = s.urgent := by
  unfold modCores; induction l generalizing s with
  | nil => rfl
  | cons c r ih => exact ih (modCore s (coreNo c) f)
@[simp] theorem modCores_tasks (s : State) (l : List Nat) (f : Core → Core) : (modCores s l f).tasks = s.tasks := by
  unfold modCores; induction l generalizing s with
  | nil => rfl
  | cons c r ih => exact ih (modCore s (coreNo c) f)
@[simp] theorem modCores_inbox (s : State) (l : List Nat) (f : Core → Core) : (modCores s l f).inbox = s.inbox := by
  unfold modCores; induction l generalizing s with
  | nil => rfl
  | cons c r ih => exact ih (modCore s (coreNo c) f)
@[simp] theorem modCores_turn (s : State) (l : List Nat) (f : Core → Core) : (modCores s l f).turn = s.turn := by
  unfold modCores; induction l generalizing s with
  | nil => rfl
  | cons c r ih => exact ih (modCore s (coreNo c) f)
@[simp] theorem modCores_rr (s : State) (l : List Nat) (f : Core → Core) : (modCores s l f).rr = s.rr := by
  unfold modCores; induction l generalizing s with
  | nil => rfl
  | cons c r ih => exact ih (modCore s (coreNo c) f)
@[simp] theorem modCores_free (s : State) (l : List Nat) (f : Core → Core) : (modCores s l f).free = s.free := by
  unfold modCores; induction l generalizing s with
  | nil => rfl
  | cons c r ih => exact ih (modCore s (coreNo c) f)
@[simp] theorem modCores_freeLat (s : State) (l : List Nat) (f : Core → Core) : (modCores s l f).freeLat = s.freeLat := by
  unfold modCores; induction l generalizing s with
  | nil => rfl
  | cons c r ih => exact ih (modCore s (coreNo c) f)
@[simp] theorem modCores_freeGap (s : State) (l : List Nat) (f : Core → Core) : (modCores s l f).freeGap = s.freeGap := by
  unfold modCores; induction l generalizing s with
  | nil => rfl
  | cons c r ih => exact ih (modCore s (coreNo c) f)
@[simp] theorem modCores_out (s : State) (l : List Nat) (f : Core → Core) : (modCores s l f).out = s.out := by
  unfold modCores; induction l generalizing s with
  | nil => rfl
  | cons c r ih => exact ih (modCore s (coreNo c) f)

end Sys2Proof.Laws
end

