-- ==== Sys2Proof/Laws/Table.lean ====
section
/-! SUPPORT. Laws of the sparse tables and byte memories: what a read after a write gives, and that every operation keeps the
canonical form; and the same of the named access to cores, elements, partitions, graphs and virtual functions. -/

namespace Sys2Proof.Laws

open Sys2Proof.Machine

variable {α : Type}

/-! ### Reads after writes -/

@[simp] theorem tfind_nil (n : Nat) : tfind ([] : Table α) n = none := rfl
@[simp] theorem tget_nil (d : α) (n : Nat) : tget d [] n = d := rfl

theorem tget_eq (d : α) (t : Table α) (n : Nat) : tget d t n = (tfind t n).getD d := by
  induction t with
  | nil => rfl
  | cons p r ih => simp only [tget, tfind]; split <;> simp_all

theorem tfind_terase (t : Table α) (n m : Nat) : tfind (terase t n) m = if m = n then none else tfind t m := by
  induction t with
  | nil => simp [terase]
  | cons p r ih =>
    obtain ⟨k, v⟩ := p
    simp only [terase, List.filter_cons, bne_iff_ne] at ih ⊢
    by_cases h : k = n
    · subst h
      simp only [ne_eq, not_true, if_false, ih, tfind]
      by_cases hm : m = k
      · simp [hm]
      · simp [hm, Ne.symm hm]
    · simp only [ne_eq, h, not_false_eq_true, if_true, tfind, ih]
      by_cases hm : m = n
      · subst hm; simp [h]
      · simp [hm]

theorem tfind_tinsert (t : Table α) (n m : Nat) (x : α) (h : tfind t n = none) :
    tfind (tinsert n x t) m = if m = n then some x else tfind t m := by
  induction t with
  | nil => simp [tinsert, tfind, eq_comm]
  | cons p r ih =>
    obtain ⟨k, v⟩ := p
    have hk : k ≠ n := by intro e; simp [tfind, e] at h
    have hr : tfind r n = none := by simpa [tfind, hk] using h
    simp only [tinsert]
    by_cases hn : n < k
    · rw [if_pos hn]
      simp only [tfind, eq_comm]
    · simp only [hn, if_false, tfind, ih hr]
      by_cases hm : m = n
      · subst hm; simp [hk]
      · simp [hm]

@[simp] theorem tfind_tput (t : Table α) (n m : Nat) (x : α) : tfind (tput t n x) m = if m = n then some x else tfind t m := by
  rw [tput, tfind_tinsert _ _ _ _ (by simp [tfind_terase]), tfind_terase]
  split <;> rfl

theorem tget_tput (d : α) (t : Table α) (n m : Nat) (x : α) : tget d (tput t n x) m = if m = n then x else tget d t m := by
  simp only [tget_eq, tfind_tput]; split <;> rfl

@[simp] theorem tget_tput_self (d : α) (t : Table α) (n : Nat) (x : α) : tget d (tput t n x) n = x := by simp [tget_tput]

theorem tget_terase (d : α) (t : Table α) (n m : Nat) : tget d (terase t n) m = if m = n then d else tget d t m := by
  simp only [tget_eq, tfind_terase]; split <;> rfl

@[simp] theorem tget_tset [DecidableEq α] (d : α) (t : Table α) (n m : Nat) (x : α) :
    tget d (tset d t n x) m = if m = n then x else tget d t m := by
  unfold tset; split
  · next h => rw [tget_terase, h]
  · exact tget_tput d t n m x

@[simp] theorem tfind_tmod (t : Table α) (n m : Nat) (f : α → α) :
    tfind (tmod t n f) m = if m = n then (tfind t m).map f else tfind t m := by
  induction t with
  | nil => simp [tmod, tfind]
  | cons p r ih =>
    obtain ⟨k, v⟩ := p
    simp only [tmod, List.map_cons] at ih ⊢
    by_cases hk : k = n
    · subst hk
      simp only [if_true, tfind, ih]
      by_cases hm : m = k
      · simp [hm]
      · simp [hm, Ne.symm hm]
    · simp only [hk, if_false, tfind, ih]
      by_cases hm : m = n
      · subst hm; simp [hk]
      · simp [hm]

/-! ### The canonical form -/

theorem keysRise_cons (p : Nat × α) (t : Table α) : keysRise (p :: t) = true ↔ (∀ q ∈ t, p.1 < q.1) ∧ keysRise t = true := by
  induction t generalizing p with
  | nil => simp [keysRise]
  | cons q r ih =>
    simp only [keysRise, Bool.and_eq_true, decide_eq_true_eq, List.mem_cons, forall_eq_or_imp]
    constructor
    · rintro ⟨h, hr⟩
      exact ⟨⟨h, fun x hx => lt_trans h (((ih q).1 hr).1 x hx)⟩, hr⟩
    · rintro ⟨⟨h, -⟩, hr⟩
      exact ⟨h, hr⟩

theorem keysRise_filter (t : Table α) (f : Nat × α → Bool) (h : keysRise t = true) : keysRise (t.filter f) = true := by
  induction t with
  | nil => rfl
  | cons p r ih =>
    rw [keysRise_cons] at h
    rw [List.filter_cons]
    split
    · rw [keysRise_cons]
      exact ⟨fun q hq => h.1 q (List.mem_filter.1 hq).1, ih h.2⟩
    · exact ih h.2

theorem mem_tinsert (t : Table α) (n : Nat) (x : α) (q : Nat × α) : q ∈ tinsert n x t ↔ q = (n, x) ∨ q ∈ t := by
  induction t with
  | nil => simp [tinsert]
  | cons p r ih =>
    obtain ⟨k, v⟩ := p
    simp only [tinsert]
    split
    · simp
    · simp only [List.mem_cons, ih]; tauto

theorem keysRise_tinsert (t : Table α) (n : Nat) (x : α) (h : keysRise t = true) (hn : ∀ q ∈ t, q.1 ≠ n) : keysRise (tinsert n x t) = true := by
  induction t with
  | nil => rfl
  | cons p r ih =>
    obtain ⟨k, v⟩ := p
    have hc := (keysRise_cons _ _).1 h
    simp only [tinsert]
    split
    · next hlt =>
      rw [keysRise_cons]
      refine ⟨?_, h⟩
      intro q hq
      rcases List.mem_cons.1 hq with rfl | hq
      · exact hlt
      · exact lt_trans hlt (hc.1 q hq)
    · next hle =>
      rw [keysRise_cons]
      refine ⟨?_, ih hc.2 (fun q hq => hn q (List.mem_cons_of_mem _ hq))⟩
      intro q hq
      rcases (mem_tinsert r n x q).1 hq with rfl | hq
      · have := hn (k, v) List.mem_cons_self
        simp only [ne_eq] at this ⊢
        omega
      · exact hc.1 q hq

theorem keysRise_tput (t : Table α) (n : Nat) (x : α) (h : keysRise t = true) : keysRise (tput t n x) = true :=
  keysRise_tinsert _ n x (keysRise_filter t _ h) (fun q hq => by simpa [terase] using (List.mem_filter.1 hq).2)

theorem wf_iff [DecidableEq α] (d : α) (t : Table α) : Table.wf d t = true ↔ keysRise t = true ∧ ∀ p ∈ t, p.2 ≠ d := by
  simp [Table.wf, List.all_eq_true]

theorem wf_filter [DecidableEq α] (d : α) (t : Table α) (f : Nat × α → Bool) (h : Table.wf d t = true) : Table.wf d (t.filter f) = true := by
  rw [wf_iff] at h ⊢
  exact ⟨keysRise_filter t f h.1, fun p hp => h.2 p (List.mem_filter.1 hp).1⟩

theorem wf_tset [DecidableEq α] (d : α) (t : Table α) (n : Nat) (x : α) (h : Table.wf d t = true) : Table.wf d (tset d t n x) = true := by
  unfold tset
  split
  · exact wf_filter d t _ h
  · next hx =>
    rw [wf_iff] at h ⊢
    refine ⟨keysRise_tput t n x h.1, ?_⟩
    intro p hp
    rcases (mem_tinsert _ n x p).1 hp with rfl | hp
    · exact hx
    · exact h.2 p (List.mem_filter.1 hp).1

/-- EVERY MEMORY OPERATION KEEPS THE CANONICAL FORM. -/
theorem memory_wf_nil : Memory.wf [] = true := rfl

theorem memory_wf_writeB (m : Memory) (a : Nat) (b : Byte) (h : Memory.wf m = true) : Memory.wf (writeB m a b) = true := wf_tset _ m a b h

theorem memory_wf_filter (m : Memory) (f : Host.Cell → Bool) (h : Memory.wf m = true) : Memory.wf (m.filter f) = true := wf_filter _ m f h

theorem memory_wf_writeBytes (l : List Byte) (m : Memory) (a : Nat) (h : Memory.wf m = true) : Memory.wf (writeBytes m a l) = true := by
  induction l generalizing m a with
  | nil => exact h
  | cons b r ih => exact ih _ _ (memory_wf_writeB m a b h)

theorem memory_wf_write64 (m : Memory) (a : Nat) (w : DWord) (h : Memory.wf m = true) : Memory.wf (write64 m a w) = true :=
  memory_wf_writeBytes _ m a h

theorem memory_wf_foldl {β : Type} (f : Memory → β → Memory) (l : List β) (m : Memory) (h : Memory.wf m = true)
    (hf : ∀ m x, Memory.wf m = true → Memory.wf (f m x) = true) : Memory.wf (l.foldl f m) = true := by
  induction l generalizing m with
  | nil => exact h
  | cons x r ih => exact ih _ (hf m x h)

/-! ### Reading back -/

@[simp] theorem readB_writeB (m : Memory) (a c : Nat) (b : Byte) : readB (writeB m a b) c = if c = a then b else readB m c :=
  tget_tset _ m a c b

theorem readB_writeBytes (l : List Byte) (m : Memory) (a c : Nat) :
    readB (writeBytes m a l) c = if a ≤ c ∧ c < a + l.length then l.getD (c - a) 0 else readB m c := by
  induction l generalizing m a with
  | nil => rw [writeBytes, if_neg (by simp)]
  | cons b r ih =>
    rw [writeBytes, ih, readB_writeB, List.length_cons]
    by_cases h1 : c = a
    · subst h1; simp
    · by_cases h2 : a + 1 ≤ c ∧ c < a + 1 + r.length
      · have : a ≤ c ∧ c < a + (r.length + 1) := by omega
        have e : c - a = (c - (a + 1)) + 1 := by omega
        simp [h2, this, e]
      · have : ¬ (a ≤ c ∧ c < a + (r.length + 1)) := by omega
        rw [if_neg h2, if_neg h1, if_neg this]

theorem readBytes_writeBytes (l : List Byte) (m : Memory) (a : Nat) : readBytes (writeBytes m a l) a l.length = l := by
  have key : ∀ (n : Nat) (m : Memory) (a : Nat) (l : List Byte), l.length = n → (∀ i, i < n → readB m (a + i) = l.getD i 0) → readBytes m a n = l := by
    intro n
    induction n with
    | zero => intro m a l h _; simp [readBytes, List.length_eq_zero_iff.1 h]
    | succ n ih =>
      intro m a l h hr
      match l, h with
      | b :: r, h =>
        simp only [readBytes]
        have h0 := hr 0 (by omega)
        simp only [Nat.add_zero, List.getD_cons_zero] at h0
        rw [h0, ih m (a + 1) r (by simpa using h) (fun i hi => by
          have := hr (i + 1) (by omega)
          simpa [Nat.add_assoc, Nat.add_comm 1 i] using this)]
  apply key _ _ _ _ rfl
  intro i hi
  rw [readB_writeBytes, if_pos (by omega)]
  congr 1; omega

@[simp] theorem leOf_length (n v : Nat) : (leOf n v).length = n := by
  induction n generalizing v with
  | zero => rfl
  | succ n ih => simp [leOf, ih]

theorem leVal_leOf (n v : Nat) : leVal (leOf n v) = v % 256 ^ n := by
  induction n generalizing v with
  | zero => simp [leOf, leVal, Nat.mod_one]
  | succ n ih =>
    simp only [leOf, leVal, ih, BitVec.toNat_ofNat]
    have : (256 : Nat) ^ (n + 1) = 256 * 256 ^ n := by rw [Nat.pow_succ, Nat.mul_comm]
    rw [this, Nat.mod_mul]

/-- A 64-bit word reads back as it was written. -/
@[simp] theorem read64_write64 (m : Memory) (a : Nat) (w : DWord) : read64 (write64 m a w) a = w := by
  unfold read64 write64
  have h := readBytes_writeBytes (leOf 8 w.toNat) m a
  rw [leOf_length] at h
  rw [h, leVal_leOf]
  apply BitVec.eq_of_toNat_eq
  have := w.isLt
  simp
  omega

/-- A word reads as before where its eight bytes lie outside those written. -/
theorem read64_writeBytes_ne (m : Memory) (a c : Nat) (l : List Byte) (h : c + 8 ≤ a ∨ a + l.length ≤ c) :
    read64 (writeBytes m a l) c = read64 m c := by
  have key : ∀ n c, (c + n ≤ a ∨ a + l.length ≤ c) → readBytes (writeBytes m a l) c n = readBytes m c n := by
    intro n
    induction n with
    | zero => intros; rfl
    | succ n ih =>
      intro c hc
      simp only [readBytes]
      rw [ih (c + 1) (by omega), readB_writeBytes, if_neg (by omega)]
  unfold read64
  rw [key 8 c h]

theorem read64_write64_ne (m : Memory) (a c : Nat) (w : DWord) (h : c + 8 ≤ a ∨ a + 8 ≤ c) : read64 (write64 m a w) c = read64 m c :=
  read64_writeBytes_ne m a c _ (by simpa using h)

/-! ### Named access -/

@[simp] theorem coreOf_putCore (s : State) (c d : Fin 64) (k : Core) : coreOf (putCore s c k) d = if d = c then k else coreOf s d := by
  simp only [coreOf, putCore, Fin.getElem_fin]
  rw [Vector.getElem_set]
  split <;> split <;> first | rfl | (exfalso; rename_i h1 h2; exact h2 (Fin.ext h1.symm)) | (exfalso; rename_i h1 h2; exact h1 (by rw [h2]))

@[simp] theorem coreOf_modCore (s : State) (c d : Fin 64) (f : Core → Core) :
    coreOf (modCore s c f) d = if d = c then f (coreOf s c) else coreOf s d := coreOf_putCore s c d _

@[simp] theorem elemOf_putElem (k : Core) (e a : Fin 96) (x : Element) : elemOf (putElem k e x) a = if a = e then x else elemOf k a := by
  simp only [elemOf, putElem, Fin.getElem_fin]
  rw [Vector.getElem_set]
  split <;> split <;> first | rfl | (exfalso; rename_i h1 h2; exact h2 (Fin.ext h1.symm)) | (exfalso; rename_i h1 h2; exact h1 (by rw [h2]))

@[simp] theorem elemOf_modElem (k : Core) (e a : Fin 96) (f : Element → Element) :
    elemOf (modElem k e f) a = if a = e then f (elemOf k e) else elemOf k a := elemOf_putElem k e a _

@[simp] theorem elemOf_allElems (k : Core) (f : Fin 96 → Element → Element) (a : Fin 96) : elemOf (allElems k f) a = f a (elemOf k a) := by
  simp [elemOf, allElems]

@[simp] theorem partOf_putPart (s : State) (p q : Nat) (x : Part) : partOf (putPart s p x) q = if q = p then x else partOf s q :=
  tget_tput _ s.parts p q x

@[simp] theorem partOf_modPart (s : State) (p q : Nat) (f : Part → Part) :
    partOf (modPart s p f) q = if q = p then f (partOf s p) else partOf s q := partOf_putPart s p q _

@[simp] theorem graphOf_putPart (s : State) (p q k : Nat) (x : Part) :
    graphOf (putPart s p x) q k = if q = p then tfind x.graphs k else graphOf s q k := by
  simp only [graphOf, partOf_putPart]; split <;> rfl

@[simp] theorem graphOf_modGraph (s : State) (p q j k : Nat) (f : Graph → Graph) :
    graphOf (modGraph s p j f) q k = if q = p ∧ k = j then (graphOf s p j).map f else graphOf s q k := by
  simp only [graphOf, modGraph, partOf_modPart]
  by_cases h : q = p
  · subst h
    by_cases hk : k = j
    · subst hk; simp
    · simp [hk]
  · simp [h]

@[simp] theorem vfOf_putVf (s : State) (v w : Nat) (x : Vf) : vfOf (putVf s v x) w = if w = v then x else vfOf s w := tget_tput _ s.vfs v w x

@[simp] theorem vfOf_modVf (s : State) (v w : Nat) (f : Vf → Vf) : vfOf (modVf s v f) w = if w = v then f (vfOf s v) else vfOf s w :=
  vfOf_putVf s v w _

@[simp] theorem streamOf_modStream (s : State) (v w : Nat) (n m : Fin 8) (f : Stream → Stream) :
    streamOf (modStream s v n f) w m = if w = v ∧ m = n then f (streamOf s v n) else streamOf s w m := by
  simp only [streamOf, modStream, vfOf_modVf]
  by_cases h : w = v
  · subst h
    simp only [if_true, Fin.getElem_fin, true_and]
    rw [Vector.getElem_set]
    by_cases hm : m = n
    · subst hm; simp
    · have : ¬ n.val = m.val := fun e => hm (Fin.ext e.symm)
      simp [hm, this]
  · simp [h]

@[simp] theorem streamOf_modVf_ne (s : State) (v w : Nat) (n : Fin 8) (f : Vf → Vf) (h : w ≠ v) : streamOf (modVf s v f) w n = streamOf s w n := by
  simp [streamOf, h]

end Sys2Proof.Laws
end

