-- ==== Sys2Proof/Laws/Seq.lean ====
section
/-! SUPPORT. What a sequencer entry does first: the place it is reached in decides between its own effect and ILLEGAL; and what a
register write, a round fault and a queued report leave as it is. -/

namespace Sys2Proof.Laws

open Sys2Proof.Machine Sys2Proof.Safety

theorem bndGo_of {s : State} {f : State → State} (h : inBoundary s) : bndGo s f = f s := by
  have h1 : ¬ s.cur.elem < 96 := by have := h.1; omega
  simp [bndGo, seqGo, h1, h.2]

theorem timedGo_of {s : State} {f : State → State} (h : inTimed s) : timedGo s f = f s := by
  have h1 : ¬ s.cur.elem < 96 := by have := h.1; omega
  simp [timedGo, seqGo, h1, h.2]

theorem seqGo_of {s : State} {f : State → State} (h : 96 ≤ s.cur.elem) : seqGo s f = f s := by
  have h1 : ¬ s.cur.elem < 96 := by omega
  simp [seqGo, h1]

theorem bndGo_timed {s : State} {f : State → State} (h : inTimed s) : bndGo s f = illegal s := by
  have h1 : ¬ s.cur.elem < 96 := by have := h.1; omega
  simp [bndGo, seqGo, h1, h.2]

theorem timedGo_boundary {s : State} {f : State → State} (h : inBoundary s) : timedGo s f = illegal s := by
  have h1 : ¬ s.cur.elem < 96 := by have := h.1; omega
  simp [timedGo, seqGo, h1, h.2]

theorem seqGo_elem {s : State} {f : State → State} {e : Fin 96} (h : s.cur.elem = e.val) : seqGo s f = illegal s := by
  simp [seqGo, h, e.isLt]

/-- A write of a sequencer register is `regGets`. -/
@[simp] theorem setCreg_eq (s : State) (d : CReg) (w : DWord) : setCreg s d w = regGets s d w := by cases d <;> rfl

@[simp] theorem takeFault_round_cores (s : State) (p k : Nat) (r : Report) : (takeFault .round s p k r).cores = s.cores := by
  simp only [takeFault]; split <;> rfl
@[simp] theorem takeFault_round_mem (s : State) (p k : Nat) (r : Report) : (takeFault .round s p k r).mem = s.mem := by
  simp only [takeFault]; split <;> rfl
@[simp] theorem takeFault_round_hostMem (s : State) (p k : Nat) (r : Report) : (takeFault .round s p k r).hostMem = s.hostMem := by
  simp only [takeFault]; split <;> rfl

end Sys2Proof.Laws
end

