-- ==== Sys2Proof/Tests/Slice0.lean ====
section
/-! SUPPORT. The model's own tests: words of every list entry and packet, written out from the manual's layouts, decode to their
steps; ill-formed steps and words are refused; for every statement a state and operands that meet its hypotheses; results of single
steps, from the manual's worked examples and tables or by hand from its rules. -/

namespace Sys2Proof.Tests

open Sys2Proof.Machine Sys2Proof.Safety

/-- The entry reads as this step. -/
def reads (seq : Bool) (w : DWord) (next : Option DWord) (i : Instr) : Bool :=
  match decodeEntry seq w next with
  | .ok j => decide (j = i)
  | .error _ => false

/-- The packet reads as this step. -/
def readsPacket (w0 w1 w2 w3 : DWord) (i : Instr) : Bool :=
  match decodePacket w0 w1 w2 w3 with
  | .ok j => decide (j = i)
  | .error _ => false

/-- An operand without modifier. -/
def o (s : Src) : Opnd := { src := s, cls := .plain, neg := false }
def v (n : Fin 32) : Opnd := o (.v n)

/-- Words from the layouts and opcodes of R257, R262 to R264, R284: floating-point entries. -/
theorem test_decodes_float_a :
    (reads false 0x0100006080004000 none (.faddF32 (.v 3) (v 1) (v 2))
    && reads false 0x010104708003E001 none (.faddHalf true (.s 3) (o (.s 1)) (v 31))
    && reads false 0x0100086080004000 none (.fsubF32 (.v 3) (v 1) (v 2))
    && reads false 0x01010C708003E001 none (.fsubHalf true (.s 3) (o (.s 1)) (v 31))
    && reads false 0x0100106080004000 none (.fmulF32 (.v 3) (v 1) (v 2))
    && reads false 0x010114708003E001 none (.fmulHalf true (.s 3) (o (.s 1)) (v 31))
    && reads false 0x0100186080004000 none (.fmadF32 (.v 3) (v 1) (v 2))
    && reads false 0x01011C708003E001 none (.fmadHalf true (.s 3) (o (.s 1)) (v 31))
    && reads false 0x0100206080004000 none (.fmsbF32 (.v 3) (v 1) (v 2))
    && reads false 0x010124708003E001 none (.fmsbHalf true (.s 3) (o (.s 1)) (v 31))
    && reads false 0x0100286080004000 none (.fnmaF32 (.v 3) (v 1) (v 2))
    && reads false 0x01012C708003E001 none (.fnmaHalf true (.s 3) (o (.s 1)) (v 31))) = true := by decide

/-- Words from the layouts and opcodes of R257, R262 to R264, R284: floating-point entries. -/
theorem test_decodes_float_b :
    (reads false 0x0100306080004000 none (.fminF32 (.v 3) (v 1) (v 2))
    && reads false 0x010134708003E001 none (.fminHalf true (.s 3) (o (.s 1)) (v 31))
    && reads false 0x0100386080004000 none (.fmaxF32 (.v 3) (v 1) (v 2))
    && reads false 0x01013C708003E001 none (.fmaxHalf true (.s 3) (o (.s 1)) (v 31))
    && reads false 0x01010714165DAEFC none (.faddHalf false .hl ⟨.nN, .rot 3 5, true⟩ ⟨.vl, .bcast 5 31, false⟩)
    && reads false 0x01001734A43573F8 none (.fmulF32 .vl ⟨.nE, .bfly 2 3, false⟩ ⟨.nW, .x4 15 7, false⟩)
    && reads false 0x010006F5435D8002 none (.faddF32 (.m 7) ⟨.nS, .x8 3 2, true⟩ ⟨.hl, .plain, true⟩)) = true := by decide

/-- Words from the layouts and opcodes of R285 to R288: comparisons, unary functions, selection. -/
theorem test_decodes_compare_a :
    (reads false 0x010045408005C000 none (.fcmpEq (.p 2) (v 1) (o .z))
    && reads false 0x01004D408005C000 none (.fcmpNe (.p 2) (v 1) (o .z))
    && reads false 0x010055408005C000 none (.fcmpLt (.p 2) (v 1) (o .z))
    && reads false 0x01005D408005C000 none (.fcmpLe (.p 2) (v 1) (o .z))
    && reads false 0x010065408005C000 none (.fcmpGt (.p 2) (v 1) (o .z))
    && reads false 0x01006D408005C000 none (.fcmpGe (.p 2) (v 1) (o .z))
    && reads false 0x010075408005C000 none (.fcmpUn (.p 2) (v 1) (o .z))
    && reads false 0x0100806080000000 none (.frcp (.v 3) (v 1))
    && reads false 0x0100886080000000 none (.fsqrt (.v 3) (v 1))
    && reads false 0x0100906080000000 none (.frsq (.v 3) (v 1))
    && reads false 0x0100986080000000 none (.fexp2 (.v 3) (v 1))
    && reads false 0x0100A06080000000 none (.flog2 (.v 3) (v 1))) = true := by decide

/-- Words from the layouts and opcodes of R285 to R288: comparisons, unary functions, selection. -/
theorem test_decodes_compare_b :
    (reads false 0x0108786080004000 (some 0x0107F8A000000000) (.fsel (.v 3) (v 1) (v 2) 5)
    && reads false 0x0100AD37800002AA none (.fclass (.p 1) (o .lid) 0x155)) = true := by decide

/-- Words from the layouts and opcodes of R289, R290: integer and logic entries. -/
theorem test_decodes_integer_a :
    (reads false 0x0102006080004001 none (.iadd true (.v 3) (v 1) (v 2))
    && reads false 0x0102086080004001 none (.isub true (.v 3) (v 1) (v 2))
    && reads false 0x0102106080004001 none (.imul true (.v 3) (v 1) (v 2))
    && reads false 0x0102186080004001 none (.imulh true (.v 3) (v 1) (v 2))
    && reads false 0x0102206080004001 none (.imad true (.v 3) (v 1) (v 2))
    && reads false 0x0102286080004001 none (.imin true (.v 3) (v 1) (v 2))
    && reads false 0x0102306080004001 none (.imax true (.v 3) (v 1) (v 2))
    && reads false 0x0102606080004001 none (.shr true (.v 3) (v 1) (v 2))
    && reads false 0x0102386080004000 none (.and (.v 3) (v 1) (v 2))
    && reads false 0x0102406080004000 none (.or (.v 3) (v 1) (v 2))
    && reads false 0x0102486080004000 none (.xor (.v 3) (v 1) (v 2))
    && reads false 0x0102506080004000 none (.andn (.v 3) (v 1) (v 2))) = true := by decide

/-- Words from the layouts and opcodes of R289, R290: integer and logic entries. -/
theorem test_decodes_integer_b :
    (reads false 0x0102586080004000 none (.shl (.v 3) (v 1) (v 2))
    && reads false 0x0102686080004000 none (.rol (.v 3) (v 1) (v 2))
    && reads false 0x0102706080000000 none (.popc (.v 3) (v 1))
    && reads false 0x0102786080000000 none (.clz (.v 3) (v 1))
    && reads false 0x0102850080066001 none (.icmpEq true (.p 0) (v 1) (o (.m 3)))
    && reads false 0x01028D0080066001 none (.icmpNe true (.p 0) (v 1) (o (.m 3)))
    && reads false 0x0102950080066001 none (.icmpLt true (.p 0) (v 1) (o (.m 3)))
    && reads false 0x01029D0080066001 none (.icmpLe true (.p 0) (v 1) (o (.m 3)))
    && reads false 0x0102A50080066001 none (.icmpGt true (.p 0) (v 1) (o (.m 3)))
    && reads false 0x0102AD0080066001 none (.icmpGe true (.p 0) (v 1) (o (.m 3)))) = true := by decide

/-- Words from the layouts and opcodes of R291 to R295, R300 to R302: conversions, lane operations, codebook. -/
theorem test_decodes_convert_a :
    (reads false 0x0101806080048000 none (.cvt .i32f32 (.v 3) (v 1))
    && reads false 0x0101806080060000 none (.cvt .n32f32 (.v 3) (v 1))
    && reads false 0x0101806080004800 none (.cvt .f32i32 (.v 3) (v 1))
    && reads false 0x0101806080006000 none (.cvt .f32n32 (.v 3) (v 1))
    && reads false 0x0101806080064800 none (.cvt .n32i32 (.v 3) (v 1))
    && reads false 0x010180608004E000 none (.cvt .i32n32 (.v 3) (v 1))
    && reads false 0x0109886080004000 (some 0x0107F80000608000) (.pack .e4m3 2 (.v 3) (v 1) (v 2))
    && reads false 0x0109886080004000 (some 0x0107F80001124000) (.pack .i16 1 (.v 3) (v 1) (v 2))
    && reads false 0x0109906080004000 (some 0x0107F800000BC000) (.unpk .e2m1s 7 (.v 3) (v 1) (v 2))
    && reads false 0x0103806080004000 none (.perm (.v 3) (v 1) (v 2))
    && reads false 0x010388A20000B800 none (.lrd .xor 5 true (.v 5) (v 4))
    && reads false 0x010390A200005000 none (.redAdd .f32 2 true (.v 5) (v 4))) = true := by decide

/-- Words from the layouts and opcodes of R291 to R295, R300 to R302: conversions, lane operations, codebook. -/
theorem test_decodes_convert_b :
    (reads false 0x010398A200012000 none (.redMax .i32 1 false (.v 5) (v 4))
    && reads false 0x0103A0A200028000 none (.redMin .n32 4 false (.v 5) (v 4))
    && reads false 0x0103A8A200010000 none (.scanAdd .i32 0 (.v 5) (v 4))
    && reads false 0x0103B060C9210000 none (.xpnd .f16 (.v 3) ⟨.v 1, .x4 9 1, false⟩)
    && reads false 0x0103B86080034000 none (.qidx .bf16 6 (.v 3) (v 1))
    && reads false 0x0103C06080004000 none (.blkh (.v 3) (v 1) (v 2))) = true := by decide

/-- Words from the layouts and opcodes of R260, R296 to R298: predicates and moves. -/
theorem test_decodes_predicate_a :
    (reads false 0x0102C5830000E000 none (.pand (.p 4) 6 7)
    && reads false 0x0102CD830000E000 none (.por (.p 4) 6 7)
    && reads false 0x0102D5830000E000 none (.pxor (.p 4) 6 7)
    && reads false 0x0102DD830000E000 none (.pandn (.p 4) 6 7)
    && reads false 0x0102E58300000000 none (.pnot (.p 4) 6)
    && reads false 0x0102ED8080000000 none (.ptst (.p 4) (v 1))
    && reads false 0x0102F06300000000 none (.pvec (.v 3) 6)
    && reads false 0x0102F86300000000 none (.pcnt (.v 3) 6)
    && reads false 0x0103074080000000 none (.mov .nul (v 1))
    && reads false 0x0103082000040002 none (.movi (.v 1) 0x20001)
    && reads false 0x0103082000017DDF none (.moviH (.v 1) 0xBEEF)
    && reads false 0x0103162300000000 none (.movm (.m 1) 6)) = true := by decide

/-- Words from the layouts and opcodes of R260, R296 to R298: predicates and moves. -/
theorem test_decodes_predicate_b :
    (reads false 0x0103153B00000001 none (.movmP (.p 1) (o (.m 6)))
    && reads false 0x01037A40A0000000 none (.pblk 2 2 5)) = true := by decide

/-- Words from the layouts and opcodes of R311: hide entries. -/
theorem test_decodes_hide :
    (reads false 0x0104000080004000 none (.hadd (v 1) (v 2))
    && reads false 0x0104080080004001 none (.hmax true (v 1) (v 2))
    && reads false 0x0104100080004000 none (.hmin false (v 1) (v 2))
    && reads false 0x010C180080004000 (some 0x0107F92000000000) (.hcas (v 1) (v 2) (v 9))
    && reads false 0x0104200080004000 none (.hxchg (v 1) (v 2))
    && reads false 0x0104280080004000 none (.hred (v 1) (v 2))
    && reads false 0x0104306080000001 none (.hldI true (.v 3) (v 1))
    && reads false 0x0104380080004001 none (.hstI true (v 1) (v 2))) = true := by decide

/-- Words from the layouts and opcodes of R337 to R343: block products, scans, keepers. -/
theorem test_decodes_matrix :
    (reads false 0x010C40C080004000 (some 0x0107F86000804E00) (.bdot .e2m1s 0 39 (.v 6) (v 1) (v 2) (.v 3))
    && reads false 0x010C40C080004000 (some 0x0107F800010E7E00) (.bdot .f16 7 63 (.v 6) (v 1) (v 2) (.v 0))
    && reads false 0x010C40C080000001 (some 0x0107F80000003E00) (.bdotSet 31 (.v 6) (v 1))
    && reads false 0x010C48E300008000 (some 0x0107F8A000000000) (.scacc (.v 7) (.v 6) (.v 4) (.v 5))
    && reads false 0x010C506080004000 (some 0x0107F8E000000008) (.scanAff 4 (.v 3) (v 1) (v 2) (v 7))
    && reads false 0x010C506080004001 (some 0x0107F8E000000000) (.scanAffG 0 (.v 3) (v 1) (v 2) (v 7))
    && reads false 0x010C586080004000 (some 0x0107F8000000003A) (.scanAffk 5 3 (.v 3) (v 1) (v 2))
    && reads false 0x0104606080004000 none (.kset 3 (v 1) (v 2))
    && reads false 0x0104686100000001 none (.kget true (.v 3) 2)
    && reads false 0x0104702000000000 none (.kclr 1)
    && reads false 0x0104784000000000 none (.khor 2)) = true := by decide

/-- Words from the layouts and opcodes of R308 to R324: streams, engines, KV, prefixes. -/
theorem test_decodes_streams_a :
    (reads true 0xFFF6800000160190 none (.sdef 11 200)
    && reads true 0xFFF688030006000A none (.sset 3 5 (.c 6))
    && reads true 0x0106900000000012 none (.sstep 9)
    && reads true 0xFFF698020A1E0000 none (.sarm 15 (.c 4) (.c 5))
    && reads true 0xFFF6A00000000000 none (.drainMt)
    && reads true 0xFFF6A00000000002 none (.drainLoft)
    && reads true 0xFFF6A00000000004 none (.drainHide)
    && reads true 0xFFF6A88280004000 none (.copy (.c 4) (.c 5) 8192)
    && reads true 0xFFFEB08280002000 (some 0xFFF7F8C000000080) (.gather (.c 4) (.c 5) 4096 (.c 6) 64)
    && reads true 0x010EB88281000400 (some 0x0107F8C000000000) (.xf 2 (.c 4) (.c 5) 512 (.c 6) 0 false)
    && reads true 0x010EB89000000401 (some 0x0107FC000068A000) (.xf 0 (.c 4) .z 512 .z 0x345000 true)
    && reads true 0x010EC4029C008000 (some 0x0107FC00000007FE) (.collMc .z (.c 5) 16384 3 2 1023)) = true := by decide

/-- Words from the layouts and opcodes of R308 to R324: streams, engines, KV, prefixes. -/
theorem test_decodes_streams_b :
    (reads true 0x0106CC10020007D0 none (.collBar 1 1000)
    && reads true 0x010ED082E4000018 (some 0x0107FC000000209A) (.collRed .rsm (.c 4) (.c 5) 12 0 2 77 4)
    && reads true 0x010ED882C7800060 (some 0x0107F8C000200400) (.stirQk .bf16 (.c 4) (.c 5) (.c 6) 48 15 0x100 0x200)
    && reads true 0x0106E0829F800000 none (.stirPv (.c 4) (.c 5) 0 63)
    && reads true 0x0106E80280800004 none (.stirGet (.c 5) 2 1)
    && reads true 0x0106F00200001FFE none (.kvApp (.c 4) 4095)
    && reads true 0x0106F8020A020000 none (.kvFork (.c 4) (.c 5) 65536)
    && reads true 0x010700020A000000 none (.kvPin (.c 4) (.c 5))
    && reads true 0x010708000A000000 none (.kvUnpin (.c 5))
    && reads true 0x0107100200000000 none (.kvFree (.c 4))
    && reads true 0xFFF7182106000000 none (.pxlk (.c 1) (.c 2) (.c 3))
    && reads true 0xFFFF202106000000 (some 0xFFF7F88000000000) (.pxin (.c 1) (.c 2) (.c 3) (.c 4))) = true := by decide

/-- Words from the layouts and opcodes of R308 to R324: streams, engines, KV, prefixes. -/
theorem test_decodes_streams_c :
    (reads true 0xFFF7282106000000 none (.pxev (.c 1) (.c 2) (.c 3))
    && reads true 0xFFF7302100000000 none (.flushFrame (.c 1) (.c 2))
    && reads true 0x0107800000000000 none (.seal)) = true := by decide

/-- Words from the layouts and opcodes of R326 to R336, R344: array and stamp banks. -/
theorem test_decodes_saddle :
    (reads true 0x010F380054801FFE (some 0x0107F80001000200) (.tstep 5 false 9 3 1023 0x8001)
    && reads true 0x010F380008000000 (some 0x0107F80000200000) (.tstep 0 true 0 0 0 0x1000)
    && reads true 0xFFF7400001D1D810 none (.smode 7 2 3 5 8 .dense .f16)
    && reads true 0xFFF7400000000060 none (.smode 0 0 0 0 0 .affine .e4m3)
    && reads true 0x010748000117FFE0 none (.sload 4 false 191 255)
    && reads true 0x0107480001200000 none (.sload 4 true 0 0)
    && reads true 0xFFF7500100000200 none (.sgain 0 (.c 2) true 0)
    && reads true 0x0107580001A00000 none (.sread 6 true)
    && reads true 0x0107600101A001FE none (.stw 13 (.c 2) 255)
    && reads true 0x0107680000600000 none (.stsw 3)
    && reads true 0x0107700000600A00 none (.stinv 3 5 0)
    && reads true 0x0107780000600200 none (.stsz 3 256)) = true := by decide

/-- Words from the layouts and opcodes of R352 to R354: scalars and branches. -/
theorem test_decodes_scalar_a :
    (reads true 0xFFF5002101FFFFFF none (.seqAdd (.c 1) (.c 2) (.imm 0xFFFFFF))
    && reads true 0xFFF5082101FFFFFF none (.seqSub (.c 1) (.c 2) (.imm 0xFFFFFF))
    && reads true 0xFFF5102101FFFFFF none (.seqMul (.c 1) (.c 2) (.imm 0xFFFFFF))
    && reads true 0xFFF5182101FFFFFF none (.seqAnd (.c 1) (.c 2) (.imm 0xFFFFFF))
    && reads true 0xFFF5202101FFFFFF none (.seqOr (.c 1) (.c 2) (.imm 0xFFFFFF))
    && reads true 0xFFF5282101FFFFFF none (.seqXor (.c 1) (.c 2) (.imm 0xFFFFFF))
    && reads true 0xFFF5302106000000 none (.seqShl (.c 1) (.c 2) (.reg (.c 3)))
    && reads true 0xFFF5382106000000 none (.seqShr (.c 1) (.c 2) (.reg (.c 3)))
    && reads true 0xFFF5402106000000 none (.sra (.c 1) (.c 2) (.reg (.c 3)))
    && reads true 0xFFF5484000000006 none (.li (.c 2) 3)
    && reads true 0xFFF550400007579A none (.ins (.c 2) 0xABCD 3)
    && reads true 0xFFF580211FFFFFFC none (.br .ltu (.c 1) (.c 2) 0x3FFFFFE)) = true := by decide

/-- Words from the layouts and opcodes of R352 to R354: scalars and branches. -/
theorem test_decodes_scalar_b :
    (reads true 0xFFF584100000000E none (.br .always .z .z 7)
    && reads true 0xFFF5882007FFFFFE none (.loop (.c 1) 0x3FFFFFF)) = true := by decide

/-- Words from the layouts and opcodes of R355 to R365: work and system entries. -/
theorem test_decodes_system_a :
    (reads true 0xFFF5C0210628C00F none (.seqDemand true (.c 1) (.c 2) (.c 3) 5 6 7)
    && reads true 0xFFF5C80188000000 none (.post (.c 3) (.c 4))
    && reads true 0x0105D00000000012 none (.early 9)
    && reads true 0xFFF5D80180000008 none (.seqCancel (.c 3) .job)
    && reads true 0xFFF5E02106000006 none (.waitc .hide (.c 1) (.c 2) (.c 3))
    && reads true 0xFFF5E020000000AC none (.waitc (.engines 0x15) (.c 1) (.c 0) (.c 0))
    && reads true 0xFFF5E80188000004 none (.sig .max (.c 3) (.c 4))
    && reads true 0x0105F00000000012 none (.fin 9)
    && reads true 0x0106000000000000 none (.seqNop)
    && reads true 0xFFF6080000000000 none (.yld)
    && reads true 0xFFF6100000000000 none (.halt)
    && reads true 0x010618018001FFDE none (.trap (.c 3) 0xFFEF)) = true := by decide

/-- Words from the layouts and opcodes of R355 to R365: work and system entries. -/
theorem test_decodes_system_b :
    (reads true 0x0106200000002468 none (.brk 0x1234)
    && reads true 0xFFF628200000BE04 none (.rdst (.c 1) 2 95)
    && reads true 0xFFF630008001FE04 none (.wrst (.c 1) 2 0xFF)
    && reads true 0x0106380001C1FFFE none (.cnt 7 0xFFFF)) = true := by decide

/-- Packets from the layouts of R57 to R64. -/
theorem test_decodes_packets :
    (readsPacket 0x0000000000010000 0x0 0x0 0x0 (.nop 1)
    && readsPacket 0x0000060500010001 0x12340000 0x1000 0x0 (.loadg 1 5 6 0x12340000 4096)
    && readsPacket 0x0001860500010002 0xA 0x14 0x3 (.demand 1 5 6 2 true 10 20 3)
    && readsPacket 0x00FA000100010003 0x123 0x7 0x0 (.waits 1 .eq 250 0x123 7)
    && readsPacket 0x0000000E00010004 0x123 0x7 0x0 (.signal 1 .max 3 0x123 7)
    && readsPacket 0x0000000800010005 0x0 0x0 0x0 (.phase 1 2)
    && readsPacket 0x0009000D00010006 0x100 0xF0F000001010 0xFFFFFFFE (.branch 1 .ges true 9 0x100 0x1010 0xF0F0 0xFFFFFFFE)
    && readsPacket 0x0005000100010007 0x9 0x0 0x0 (.cancel 1 .demand 0 5 9)
    && readsPacket 0x0000000100010008 0xFFFFFFFF 0x0 0x0 (.quota 1 true 0xFFFFFFFF)
    && readsPacket 0x0000000400010009 0x0 0x0 0x0 (.timestamp 1 1)
    && readsPacket 0x000000010004000A 0x0 0x0 0x0 (.fenceh 4 true)) = true := by decide

/-! ### States for the witnesses -/

/-- An entry of element 0 of core 0 executes in a round. -/
def sE : State := { placeEntry State.reset [] (.movi (.v 0) 0) with cur := { Ctx.none with elem := 0 } }
/-- An entry of the sequencer of core 0 executes in the timed part. -/
def sT : State := { placeEntry State.reset [] (.sstep 0) with cur := Ctx.none }
/-- An entry of the sequencer of core 0 executes in the boundary section. -/
def sB : State := { placeEntry State.reset [] .yld with cur := Ctx.none }
/-- The packet front end of stream 0 of VF 0 executes. -/
def sP : State := { placePacket State.reset [] with cur := Ctx.none }

/-- Other registers of element 0. -/
def withElem (s : State) (f : ElemRegs → ElemRegs) : State := modCore s 0 (fun k => modElem k 0 (fun x => { x with r := f x.r }))
/-- Sequencer registers 1 and 2. -/
def withC (s : State) (x y : DWord) : State := modCore s 0 (fun k => { k with c := (k.c.set 1 x).set 2 y })
/-- A bank sb0 with entry 1, valid in both halves. -/
def bank0 (zsub : Bool) : Bank :=
  { declared := true, kind := 0, zsub := zsub, act := false, swp := false, size := Vector.replicate 2 2
    ent := Vector.replicate 2 [(1, 0x40000000)], valid := Vector.replicate 2 2 }
def withBank (s : State) (zsub : Bool) : State := modCore s 0 (fun k => { k with banks := k.banks.set 0 (bank0 zsub) })

/-- The step goes on. -/
def goesOn (r : Host.Outcome State Fault Refusal) : Bool :=
  match r with
  | .next _ => true
  | _ => false

theorem sE_elem : sE.cur.elem = (0 : Fin 96).val := by decide
theorem sT_timed : inTimed sT := by unfold inTimed; decide
theorem sB_boundary : inBoundary sB := by unfold inBoundary; decide

/-! ### Witnesses: element entries -/

/-- `v1.rot(3,7)` and `-nW` have no fault; so do all three of a scan, and a source with any NEG. -/
theorem witness_LaneResults :
    sE.cur.elem = (0 : Fin 96).val ∧ firstBad [opnd sE 0 .int ⟨.v 1, .rot 3 7, false⟩, opnd sE 0 .int ⟨.nW, .plain, true⟩] = none
    ∧ firstBad [opnd sE 0 .keep ⟨.v 1, .rot 3 7, false⟩, opnd sE 0 .keep (o .z)] = none ∧ firstBad [opnd sE 0 .f32 ⟨.v 31, .bcast 5 31, true⟩] = none
    ∧ firstBad [opnd sE 0 .half (v 1), opnd sE 0 .half (o .lid)] = none ∧ firstBad [opndAll sE 0 .f32 (v 1), opndAll sE 0 .f32 (v 2), opndAll sE 0 .f32 (v 3)] = none
    ∧ firstBad [opndAll sE 0 .keep (v 1)] = none := by decide

/-- Entry 1 of sb0 takes part in a search. -/
theorem witness_ReductionAndCodebook : Bank.parts ((curCore (withBank sE false)).banks[(0 : Fin 16)]) .f32 ≠ [] := by decide

/-- Lanes 4 and 0 begin segments of 4 and of 32; XOR is associative and commutative. -/
theorem witness_ReductionTreeIsFold :
    (4 : Fin 32).val % 2 ^ (2 : Fin 6).val = 0 ∧ (0 : Fin 32).val % 2 ^ (5 : Fin 6).val = 0 ∧ (∀ a b c : Word, (a ^^^ b) ^^^ c = a ^^^ (b ^^^ c))
    ∧ ∀ a b : Word, a ^^^ b = b ^^^ a := ⟨by decide, by decide, BitVec.xor_assoc, BitVec.xor_comm⟩

/-- Offsets 0 to 31 are allowed, and readable; an offset at the size of the hide space is not allowed, in lane 3 first. -/
theorem witness_ElementHide :
    (∀ i : Fin 32, hideAllowed sE false ((opnd sE 0 .keep (o .lid)).val[i]).toNat = true)
    ∧ (∀ i : Fin 32, ((opnd sE 0 .keep (o .lid)).val[i]).toNat < (curPart sE).hideSize)
    ∧ (let s := withElem sE (fun r => { r with v := r.v.set 1 (Lanes.zero.set 3 262144) })
       let x := (opnd s 0 .keep (v 1)).val
       ((elemView s 0).en).getLsbD 3 = true ∧ hideAllowed s false (x[(3 : Fin 32)]).toNat = false
       ∧ ∀ j : Fin 32, j < 3 → hideAllowed s false (x[j]).toNat = true) := by decide

/-- A block count of 2 with no scales, a scale register of 2 blocks, and a source without a count. -/
theorem witness_BlockScanKeeper :
    (let s := withElem sE (fun r => { r with nbV := r.nbV.set 1 2, v := r.v.set 2 (Lanes.zero.set 0 0x27F) })
     tagOfSrc (elemView s 0) (.v 1) ≠ 0 ∧ scaleCount (srcVal (elemView s 0) (.v 2)) = tagOfSrc (elemView s 0) (.v 1))
    ∧ tagOfSrc (elemView sE 0) (.v 1) = 0 := by decide

/-- In lane 5, read and valid; not read; invalid under ZSUB; invalid without, in the lowest lane that is read. -/
theorem witness_Expands :
    (let good := fun (s : State) (i : Fin 32) =>
      let b := (elemView s 0).k.banks[(0 : Fin 16)]
      let h : Fin 2 := if b.act then 1 else 0
      let idx := (srcVal (elemView s 0) .lid)[i].toNat % 16
      decide (idx < b.size[h]) && (b.valid[h]).getLsbD idx
     (0x2 : Word).getLsbD 1 = true ∧ good (withBank sE false) 1 = true ∧ (0x2 : Word).getLsbD 0 = false
     ∧ ((elemView (withBank sE true) 0).k.banks[(0 : Fin 16)]).zsub = true ∧ good (withBank sE true) 0 = false
     ∧ ((elemView (withBank sE false) 0).k.banks[(0 : Fin 16)]).zsub = false ∧ good (withBank sE false) 2 = false
     ∧ ∀ j : Fin 32, j < 2 → (0x6 : Word).getLsbD j.val = true → good (withBank sE false) j = true) := by decide

/-- An expand from a bank with no entries is INDEX at lane 0. -/
theorem witness_FaultingSource :
    firstBad [opnd sE 0 .f32 ⟨.v 1, .x4 3 0, false⟩, opnd sE 0 .f32 (v 2)] = some { cls := 6, detail := 3, info := 0, lane := some 0 }
    ∧ firstBad [opnd sE 0 .int ⟨.v 1, .x4 3 0, false⟩, opnd sE 0 .int (v 2)] = some { cls := 6, detail := 3, info := 0, lane := some 0 } := by decide

theorem witness_ElementEntryFrame :
    (Instr.movi (.v 3) 1).isElem = true ∧ goesOn (exec (.movi (.v 3) 1) sE) = true ∧ (1 : Fin 96) ≠ 0 ∧ (1 : Fin 64) ≠ sE.cur.core := by decide

theorem witness_CompletedResultsLand :
    ({ fc := 9, dst := .v 31 0, val := Lanes.all 1, res := Lanes.all 1, mask := 1 } : Pend).dst = .v 31 0 ∧ (0 : Fin 32) ≠ 31
    ∧ ({ fc := 9, dst := .s 7 0, val := Lanes.all 1, res := Lanes.all 1, mask := 1 } : Pend).dst = .s 7 0
    ∧ ({ fc := 9, dst := .p 0, val := Lanes.all 1, res := Lanes.all 1, mask := 1 } : Pend).dst = .p 0
    ∧ ({ fc := 9, dst := .m 7, val := Lanes.all 1, res := Lanes.all 1, mask := 1 } : Pend).dst = .m 7 := by decide

/-! ### Witnesses: faults -/

/-- A report at an RC, an element and a lane. -/
def rep (rc : BitVec 12) (elem : BitVec 7) (lane : BitVec 5) : Report :=
  { cls := 6, detail := 0, info := 0, slot := 0, opx := 0, step := 0, round := 0, core := 0, elem := elem, li := 0, rc := rc, lane := lane
    lv := true, eng := 0, stream := 0 }
def withPart (s : State) (f : Part → Part) : State := modPart s 0 f
def withGraph (s : State) (f : Graph → Graph) : State := modGraph s 0 0 f

/-- A graph with a fault at RC 5, element 3, lane 4: earlier are a lower RC, the sequencer, a lower lane; not earlier the same. -/
theorem witness_FirstFaultIsKept :
    let s := withGraph sT (fun g => { g with fault := some (rep 5 3 4) })
    let eo := fun (x : Report) => if x.elem = 127 then 0 else x.elem.toNat + 1
    let before := fun (r q : Report) => r.rc < q.rc ∨ (r.rc = q.rc ∧ (r.core < q.core ∨ (r.core = q.core ∧ (eo r < eo q ∨ (eo r = eo q ∧ r.lane < q.lane)))))
    (graphOf s 0 0).map (·.fault) = some (some (rep 5 3 4)) ∧ before (rep 4 3 4) (rep 5 3 4) ∧ before (rep 5 127 0) (rep 5 3 4)
    ∧ before (rep 5 3 3) (rep 5 3 4) ∧ ¬ before (rep 5 3 4) (rep 5 3 4) := by decide

theorem witness_ReportsAreQueued : (graphOf sT 0 (rep 5 3 4).slot.toNat).isSome = true ∧ hitchSelects sT 0 (rep 5 3 4) = false := by decide

/-! ### Witnesses: sequencer entries -/

theorem witness_ScalarsBranchesStatusTraps :
    (Instr.seqShl (.c 1) (.c 2) (.imm 63)).wf = true ∧ (Instr.seqShr (.c 1) (.c 2) (.reg .z)).wf = true ∧ (Instr.sra (.c 1) .z (.imm 0)).wf = true
    ∧ inBoundary sB ∧ inTimed sT ∧ 96 ≤ sT.cur.elem ∧ (curCore sT).brken = false ∧ (95 : BitVec 8).toNat = (95 : Fin 96).val
    ∧ 96 ≤ (modCore sB 0 (fun k => { k with brken := true })).cur.elem ∧ inSection (modCore sB 0 (fun k => { k with brken := true })) = true
    ∧ (curCore (modCore sB 0 (fun k => { k with brken := true }))).brken = true ∧ inSection (modCore sT 0 (fun k => { k with brken := true })) = false
    ∧ (curCore (modCore sT 0 (fun k => { k with brken := true }))).brken = true :=
  ⟨by decide, by decide, by decide, sB_boundary, sT_timed, by decide⟩

/-- IMM24[23:18] 0 and not 0. -/
theorem witness_ConstantEntries :
    (0x3ABCD : BitVec 24).extractLsb' 18 6 = 0 ∧ (CReg.c 31) ≠ .z ∧ (0x40000 : BitVec 24).extractLsb' 18 6 ≠ 0 ∧ (32 : BitVec 6) = cregCode .z := by decide

/-- Operator 0 is armed and 1 is not; record 1 279; an offset inside; a post queue with and without the offset; a graph with a sink. -/
theorem witness_WorkEntries :
    let s := withC sB 1279 64
    let full := withPart s (fun x => { x with post := [{ off := 1279, val := 0 }] })
    let sink := withGraph s (fun g => { g with sinks := [0] })
    opArmed sT 0 = true ∧ opArmed sT 1 = false ∧ (cregVal s (.c 1)).toNat % 2048 < 1280 ∧ seqHideOk s ((cregVal s (.c 1)).toNat % 2 ^ 24) = true
    ∧ (∀ e ∈ (curPart s).post, e.off ≠ 1279) ∧ (curPart s).post.length < 256 ∧ (∃ e ∈ (curPart full).post, e.off = 1279)
    ∧ seqHideOk full 1279 = true ∧ askNames (curPart sink) 0 0 = true ∧ freeRecord (curPart sink) = some 1024 := by decide

/-- A record whose demand is done and has triggered. -/
def demandDone (done : Bool) : Demand :=
  { slot := 0, sink := 0, opx := 0, prog := { a := 0, b := 0, s := 1 }, prio := 3, acc := 0, vf := 0, stream := 0, dnum := 0, dep := 0, prev := none, phn := 0
    planned := true, cone := [], left := [], npos := 0, total := 0, lack := [], dpos := 0, done := done, trig := done, canc := false }
/-- A released copy of core 0. -/
def run0 (id : Nat) : Running :=
  { id := id, core := 0, part := 0, slot := 0, opc := 0xD5, cmd := .copy 0x2000000000000000 0x4000000000000000 1, seen := [], blocked := false, sent := false
    got := 0, fin := false }

theorem witness_WaitsSemaphoresDrains :
    let s := fun (d : Bool) => withPart (withC sB 1279 0) (fun x => { x with demands := [(1279, demandDone d)] })
    let h := fun (w : DWord) => { withC sB 100 7 with hide := [((partOf sB 0).hideKey 100, w)] }
    (cregVal (s true) (.c 1)).toNat % 2 ^ 11 < 1280 ∧ (workWord (curPart (s true)) (1025 + 2 * 1279)).getLsbD 63 = true
    ∧ (workWord (curPart (s false)) (1025 + 2 * 1279)).getLsbD 63 = false ∧ (workWord (curPart (s true)) (1025 + 2 * 1279)).getLsbD 62 = true
    ∧ (workWord (curPart (s false)) (1025 + 2 * 1279)).getLsbD 62 = false
    ∧ (∀ r ∈ ({ sB with engines := [run0 0] } : State).engines, r.core = sB.cur.core.val → (0x1E : BitVec 5).getLsbD r.cmd.cls = false)
    ∧ (∃ r ∈ ({ sB with engines := [run0 0] } : State).engines, r.core = sB.cur.core.val ∧ (0x01 : BitVec 5).getLsbD r.cmd.cls = true)
    ∧ (∃ r ∈ ({ sB with engines := [run0 0] } : State).engines, r.core = sB.cur.core.val ∧ r.cmd.cls ≤ 2
        ∧ ∃ x, r.cmd.dest = some x ∧ DrainKind.loft.fits (regionOf x.1) = true)
    ∧ 100 < (curPart (h 7)).hideSize ∧ (cregVal (h 7) (.c 2)).toNat ≤ (hideRead (h 7) 0 100).toNat ∧ (hideRead (h 6) 0 100).toNat < (cregVal (h 6) (.c 2)).toNat
    ∧ (curPart (withC sB 262144 0)).hideSize ≤ (cregVal (withC sB 262144 0) (.c 1)).toNat % 2 ^ 24
    ∧ seqHideOk (withC sB 100 7) 100 = true ∧ seqHideOk (withC sT 100 7) 100 = true
    ∧ (∀ r ∈ ({ sB with engines := [run0 0] } : State).engines, r.core = sB.cur.core.val → r.cmd.cls ≤ 2 →
        ∀ x, r.cmd.dest = some x → DrainKind.mt.fits (regionOf x.1) = false) := by
  refine ⟨by decide, by decide, by decide, by decide, by decide, by decide, by decide,
    ⟨run0 0, by decide, by decide, by decide, _, rfl, by decide⟩, by decide, by decide, by decide, by decide, by decide, by decide, ?_⟩
  intro r hr _ _ x hx
  simp only [List.mem_singleton] at hr
  subst hr
  simp only [run0, Cmd.dest, Option.some.injEq] at hx
  subst hx
  decide

/-- A STREAMS record of port 2. -/
def rec2 (nv : Nat) : StreamRec :=
  { port := 2, kind := 0, write := false, line := 0, nv := nv, tid := 0, mt := 0, coord := Vector.replicate 5 0, tdim := 0, tstr := 1, kdim := 0, kstr := 0
    edim := 0, estr := 0, itid := 0, opx := 0, qopx := 0, seq := 0, lg := 0 }

theorem witness_StreamEntries :
    let s := modCore sB 0 (fun k => { k with records := [rec2 2], ports := k.ports.set 2 { Port.reset with active := some (rec2 2) } })
    (curCore s).records[(0 : BitVec 8).toNat]? = some (rec2 2) ∧ nextRec ((curCore s).ports[(2 : Fin 16)]) = some (rec2 2)
    ∧ Port.reset.step + 1 < (rec2 2).nv ∧ ¬ Port.reset.step + 1 < (rec2 1).nv := by decide

/-- Rectangle 0 on the fast path whose groups have no more than four set bits; a loft with an open window on segment 191. -/
theorem witness_ArrayTimedEntries :
    let r : Rect := { row0 := 0, col0 := 0, nr := 1, nc := 1, form := .fast, fmt := .e4m3 }
    let s := modCore sT 0 (fun k => { k with rects := k.rects.set 0 r })
    let w := modCore sT 0 (fun k => { k with windows := [{ tile := 16, first := 191, last := 191, cmd := 0 }] })
    loftWindow (curCore s) 0 ((0 + r.nR * (r.cb + r.xb) - 1) / 65536) = none ∧ ((curCore s).rects[(0 : Fin 8)]).form = .fast
    ∧ fastBad r (loftCols (curCore s) r 0) = none ∧ (loftWindow (curCore w) 191 191).isSome = true ∧ r.form ≠ .off
    -- two columns at the edge of the grid, both with an accumulator that its residue fits
    ∧ (let r : Rect := { row0 := 7, col0 := 10, nr := 1, nc := 2, form := .fast, fmt := .e4m3 }
       let s := modCore sT 0 (fun k => { k with rects := k.rects.set 0 r })
       ((curCore s).rects[(0 : Fin 8)]) = r ∧ 1 ≤ r.nr ∧ r.row0 + r.nr ≤ 8 ∧ r.col0 + r.nc ≤ 12
       ∧ ∀ j : Nat, j < r.nc → ∀ h ∈ (elemOf (curCore s) (Fin.ofNat 96 (12 * (r.row0 + r.nr - 1) + r.col0 + j))).r.resid, h.1.place ≠ .acc) := by decide

theorem witness_EngineCommandsAreIssued :
    outstanding sB sB.cur.core.val < 64 ∧ inBoundary { sB with engines := List.replicate 63 (run0 0) }
    ∧ outstanding ({ sB with engines := List.replicate 63 (run0 0) } : State) 0 = 63 ∧ inBoundary { sB with engines := List.replicate 64 (run0 0) }
    ∧ 64 ≤ outstanding ({ sB with engines := List.replicate 64 (run0 0) } : State) 0
    -- a copy that is well formed and not empty, and one that is malformed; lanes 0 and 1 for two heads
    ∧ (∃ g, graphOf sB 0 0 = some g ∧ cmdBad sB 0 g (.copy 0x2000000000000000 0x4000000000000000 1) = [] ∧ cmdBad sB 0 g (.copy 0 0 1) ≠ []
        ∧ cmdBad sB 0 g (.qk .f16 0x2000000000000000 0 0 0 2 0 0) = [] ∧ (1 : Nat) < 2) :=
  ⟨by decide, by unfold inBoundary; decide, by decide, by unfold inBoundary; decide, by decide, _, rfl, by decide, by decide, by decide, by decide⟩

/-- Sequence 5, hot and empty, and a quota of 8: `kv.app` of 16 takes a unit, the rest none; with EN clear nothing is asked. -/
theorem witness_KvEntries :
    let w : DWord := 0x8000000000000005
    let s := { withPart (withC sT w 0x8000000000000000) (fun x => { x with quota := 8, pomAllot := 4096, seqs := [(5, { v := true, hot := true, f := 0, ctbase := 0, ctlen := 0, used := 0 })] }) with
      frames := [(0, { Frame.reset with v := true })], fdtCount := 16, tableBase := 14 }
    let vf := (curPart s).vf
    inTimed s ∧ (cregVal s (.c 1)).getLsbD 63 = true ∧ (cregVal s (.c 1)).toNat / 2 ^ 12 % 2 ^ 51 = 0 ∧ kvCheck s 0 vf (.app 5 16 0) = .ok 1
    ∧ kvCheck s 0 vf (.free 5) = .ok 0 ∧ kvCheck s 0 vf (.fork 6 5 0) = .ok 0 ∧ (0x8000000000000000 : DWord).toNat / 2 ^ 32 % 2 ^ 31 = 0
    ∧ kvCheck s 0 vf (.pin 5 0) = .ok 0 ∧ kvCheck s 0 vf (.unpin 0) = .ok 0 ∧ (cregVal (withC sT 5 0) (.c 1)).getLsbD 63 = false := by
  refine ⟨by unfold inTimed; decide, by decide, by decide, rfl, rfl, rfl, by decide, rfl, rfl, by decide⟩

theorem witness_PrefixAndFlush :
    let s := { withC sB 7 0x2000000000000000 with frames := [(7, { Frame.reset with v := true })], fdtCount := 16, tableBase := 14 }
    let q := { s with pend := [(7 * 1024, { part := 0, vf := 0, writers := [.core 0], bytes := [], own := [] })] }
    regionOf (cregVal s (.c 2)) = .tile 0 0 ∧ (pxTable s 0).isSome = false ∧ (frameDesc s 7).v = true ∧ (frameDesc s 7).owner = (curPart s).vf
    ∧ s.pend.any (fun e => e.1 / 1024 = 7) = false ∧ q.pend.any (fun e => e.1 / 1024 = 7) = true ∧ (frameDesc q 7).v = true := by decide

theorem witness_SequencerEntryFrame :
    (Instr.li (.c 2) 3).isSeq = true ∧ goesOn (exec (.li (.c 2) 3) sB) = true ∧ isPortStep (.li (.c 2) 3) = false ∧ plainAt sB 0x1000
    ∧ ¬ ((0 : Fin 64) = sB.cur.core ∧ seqDest (.li (.c 2) 3) = some (.c 3)) := by
  unfold plainAt
  refine ⟨by decide, by decide, by decide, ⟨by decide, by decide, fun l h => nomatch h⟩, by decide⟩

/-! ### Witnesses: power, the outside, registers -/

/-- A device at reset, one that is ready, a link that trains, a boot timeout; a firmware image without a trailer is not good. -/
theorem witness_PowerUpOrder :
    State.reset.boot ≠ .ready ∧ State.reset.boot ≠ .failed ∧ ({ State.reset with sysRstN := true } : State).sysRstN = true
    ∧ ({ State.reset with hostLink := true } : State).hostLink = true ∧ ({ State.reset with perstN := true } : State).perstN = true
    ∧ sP.boot = .ready ∧ (sigBad grenrovKeys []).isSome = true := by decide

/-- Partition 0 has core 0, on die 0 and not on die 1; the ends of the range of caps, and the caps next to them. -/
theorem witness_PowerAndHitchInputs :
    keysRise sE.parts = true ∧ (∃ x, tfind sE.parts 0 = some x ∧ x.v = true ∧ x.coreList.any (fun c => c / 16 = 0) = true
      ∧ x.coreList.any (fun c => c / 16 = 1) = false)
    ∧ 800 ≤ (800 : BitVec 16).toNat ∧ (2800 : BitVec 16).toNat ≤ 2800 ∧ (799 : BitVec 16).toNat < 800 ∧ 2800 < (2801 : BitVec 16).toNat
    ∧ sE.hitch = false ∧ ({ sE with hitch := true } : State).hitch = true := by
  refine ⟨by decide, ⟨partOf sE 0, ?_⟩, ?_⟩ <;> decide

/-- HITCH holds in a state that steps. -/
theorem witness_HitchFreezes : frozen { State.reset with hitch := true } ∧ goesOn (step { State.reset with hitch := true }) = true := by
  unfold frozen; decide

/-- VF 0 runs on partition 0 and has a window of 4 096 frames. -/
def sW : State := { sP with hostLink := true, fdtCount := 8192, tableBase := 8174, windows := [{ vf := 0, base := 16, frames := 4096, home := 0 }] }

/-- A byte at the last address of the window; a read at offset 0; the link down; a window that may open, and one of no frames. -/
theorem witness_HostWindow :
    windowAddr sW 0 (65536 * 4096 - 1) 1 = some (65536 * 16 + 65536 * 4096 - 1) ∧ partOfVf sW 0 = some 0 ∧ sW.hitch = false ∧ sW.hostLink = true
    ∧ versionFits sW 0 ((hostStores sW (65536 * 16 + 65536 * 4096 - 1) [0xAB]).map (·.addr)) = true ∧ (65536 * 16 + 65536 * 4096 - 1) / 256 ∉ sW.mdtBad ∧ windowAddr sW 0 0 8 = some (65536 * 16) ∧ sP.hostLink = false
    ∧ windowOk sW 0 0 0 0 = false := by decide

theorem witness_WindowOpens : windowOk { sW with windows := [] } 0 0 4096 0 = true := by decide +kernel

/-- An extent of one frame, and one that is not a whole number of frames; a frame that the drive reads, and one that it does not. -/
theorem witness_PoolPorts :
    let s := { sW with poolUp := sW.poolUp.set 0 true, fetching := [7] }
    (0x10000 : DWord).toNat % 65536 = 0 ∧ s.poolUp[(0 : Fin 2)] = true ∧ runFree s 5 (65536 / 65536) = true ∧ (0x10001 : DWord).toNat % 65536 ≠ 0
    ∧ s.fetching.contains 7 = true ∧ s.fetching.contains 8 = false := by decide

/-- A stream that is off, one with a partition and one without, one that is enabled and one that has halted. -/
def withStream (s : State) (f : Stream → Stream) : State := modStream s 0 0 f

theorem witness_StreamRegisters :
    (streamOf sP 0 0).en = true ∧ (streamOf sP 0 0).state = .run ∧ (streamOf (withStream sP (fun _ => Stream.reset)) 0 0).en = false
    ∧ partOfVf sP 0 ≠ none ∧ partOfVf State.reset 0 = none ∧ (streamOf State.reset 0 0).en = false ∧ (streamOf State.reset 0 0).state ≠ .halt
    ∧ (streamOf (withStream sP (fun q => { q with state := .halt })) 0 0).en = true
    ∧ (streamOf (withStream sP (fun q => { q with state := .halt })) 0 0).state = .halt := by decide

theorem witness_PlainRegisters :
    (streamOf sP 0 0).en = true ∧ (partOf sP 0).v = true ∧ (partOf State.reset 0).v = false ∧ resetPending State.reset 0 = false
    ∧ State.reset.windows = [] ∧ State.reset.l2 = [] ∧ State.reset.vfs = [] ∧ (∀ e ∈ State.reset.parts, e.1 ≠ 0 → e.2.cores &&& 1 = 0)
    ∧ State.reset.parts.all (fun e => !e.2.v) = true := by decide

/-- CAP_CTL of a probe and a window. -/
def capCtl (probe wlog : Nat) : DWord := BitVec.ofNat 64 (2 ^ 63 + probe * 2 ^ 46 + wlog * 2 ^ 40)

/-- The ends of both ranges, and the values next to them; a capture that runs; a VF that is busy. -/
theorem witness_CapturesAttestation :
    (let probe := fun (w : DWord) => w.toNat / 2 ^ 46 % 2 ^ 8
     let wlog := fun (w : DWord) => w.toNat / 2 ^ 40 % 2 ^ 6
     probe (capCtl 1 10) = 1 ∧ wlog (capCtl 1 10) = 10 ∧ probe (capCtl 9 40) = 9 ∧ wlog (capCtl 9 40) = 40 ∧ probe (capCtl 0 10) = 0
     ∧ probe (capCtl 10 10) = 10 ∧ wlog (capCtl 1 9) = 9 ∧ wlog (capCtl 1 41) = 41)
    ∧ (tget Cap.reset ({ sP with caps := [(0, { Cap.reset with ctl := capCtl 1 10 })] } : State).caps 0).ctl.getLsbD 63 = true
    ∧ ({ sP with status := 1 } : State).status = 1 ∧ (vfOf ({ sP with status := 1 } : State) 0).attBusy = false
    ∧ (vfOf (modVf sP 0 (fun v => { v with attBusy := true })) 0).attBusy = true := by decide

/-! ### Witnesses: packets and events -/

/-- WAITS and BRANCH with a timeout at RP of a stream that waits. -/
def waitsAt (w0 w1 w2 w3 : DWord) : State := modStream (placePacket State.reset [w0, w1, w2, w3]) 0 0 (fun q => { q with state := .wait })

/-- A ring that takes an event at once, one that does not; an event of the stream that still waits, and one of another stream. -/
theorem witness_PacketEnds :
    let v := { vfOf sP 0 with evEn := true, evTail := 64 }
    let e : Event := { code := 0, tag := 0, stream := 0, type := 0x03, w1 := 0, w2 := 0, w3 := 0, irq := true }
    ringFree v = true ∧ ringFree { v with evTail := 32 } = false ∧ ringFree { v with evWait := [e] } = false ∧ haltEventWaits { v with evWait := [e] } 0 = true
    ∧ haltEventWaits { v with evWait := [e] } 1 = false := by decide

theorem witness_PacketTimeouts :
    (streamOf (waitsAt 0 0 0 0) 0 0).stage < 4 ∧ (let s := waitsAt 0x00FA000100010003 0x123 7 0
     (streamOf s 0 0).en = true ∧ (streamOf s 0 0).state = .wait ∧ (250 : BitVec 16) ≠ 0 ∧ packetAt s 0 0 = .ok (.waits 1 .eq 250 0x123 7))
    ∧ (let s := waitsAt 0x0009000D00010006 0x100 0x0000F0F000001010 0xFFFFFFFE
       (streamOf s 0 0).en = true ∧ (streamOf s 0 0).state = .wait ∧ packetAt s 0 0 = .ok (.branch 1 .ges true 9 0x100 0x1010 0xF0F0 0xFFFFFFFE)) := by
  refine ⟨by decide, ⟨by decide, by decide, by decide, by rfl⟩, by decide, by decide, by rfl⟩

/-- The last word of the hide space and the first outside; a word that holds a value; a branch that goes back, and one not taken; a record
that names nothing; a quota at 0, and below 0. -/
theorem witness_SimplePackets :
    let s := { sP with hide := [((partOf sP 0).hideKey 100, 0x8000000000000005)] }
    runningPart s s.cur.vf = some 0 ∧ 262143 < (partOf s 0).hideSize ∧ ¬ 262144 < (partOf s 0).hideSize ∧ hideProtected s 0 100 = false
    ∧ (streamOf s 0 0).stage = 0 ∧ (0xFFFFFFFE : Word) ≠ 0 ∧ (0xFFFFFFFE : Word).toInt < 0 ∧ (hideRead s 0 100).getLsbD 63 = true
    ∧ (hideRead s 0 101).getLsbD 63 = false ∧ condHolds .ltu ((hideRead s 0 100).extractLsb' 0 32) 6 = true
    ∧ condHolds .ltu ((hideRead s 0 100).extractLsb' 0 32) 5 = false ∧ demandNamed (partOf s 0) 0 0 0 = none
    ∧ (0 : Int) ≤ (0 : Word).toNat ∧ ((partOf s 0).quota : Int) + (0x80000000 : Word).toInt < 0 := by decide

/-- A graph with one sink in slot 0 of a VF's partition; no record, and one that is live; a slot without a graph. -/
theorem witness_DemandPacket :
    let s := modPart sP 0 (fun x => { x with graphs := [(0, { oneGraph false [] with sinks := [0] })] })
    let t := modPart s 0 (fun x => { x with demands := [(0, demandDone false)] })
    runningPart s s.cur.vf = some 0 ∧ (graphOf s 0 0).isSome = true ∧ (∀ d, tfind (partOf s 0).demands 0 = some d → d.live = false)
    ∧ (graphOf s 0 0).map (·.sinks.length) = some 1 ∧ (∃ d, tfind (partOf t 0).demands 0 = some d ∧ d.live = true) ∧ graphOf s 0 1 = none
    -- the first sink number past those of the graph
    ∧ (∃ g, graphOf s 0 0 = some g ∧ g.sinks.length ≤ (1 : BitVec 6).toNat) := by
  exact ⟨by decide, by decide, (fun d h => nomatch h), by decide, ⟨demandDone false, by decide⟩, by decide, _, rfl, by decide⟩

/-- A stream at its packet, at its boundary, before it, and with its event written; an image of one frame that the VF owns. -/
theorem witness_PhasePackets :
    let at' := fun (g n : Nat) => withStream sP (fun q => { q with stage := g, target := n })
    let s := { sP with fdtCount := 16, frames := [(1, { Frame.reset with v := true, owner := 0 })], tableBase := 14 }
    runningPart sP sP.cur.vf = some 0 ∧ (streamOf sP 0 0).stage = 0 ∧ (streamLive sP 0).isEmpty = true
    ∧ (streamOf (at' 2 0) 0 0).target ≤ (partOf (at' 2 0) 0).phn.toNat ∧ (partOf (at' 2 1) 0).phn.toNat < (streamOf (at' 2 1) 0 0).target
    ∧ (streamOf (at' 3 0) 0 0).stage = 3 ∧ (vfOf (at' 3 0) 0).evWait = []
    ∧ (0x10000 : BitVec 48).toNat % 65536 = 0 ∧ imageOwned s 0 0x10000 65536 = true ∧ slotBusy s 0 0 = false ∧ (0x10008 : BitVec 48).toNat % 65536 ≠ 0
    -- a load that the stream waits for, and none
    ∧ (let l : Load := { slot := 0, origin := 0, image := [], addr := 0, stream := 0, phn := 1, recs := [] }
       let t := modPart (at' 1 1) 0 (fun x => { x with loading := [l] })
       (streamOf t 0 0).stage = 1 ∧ (∃ l ∈ (partOf t 0).loading, l.stream = t.cur.stream.val) ∧ (partOf (at' 1 1) 0).loading = []) := by
  decide

/-- An image without a trailer is refused. -/
theorem witness_ImageRefused : acceptImage sP 0 0 0 0 [] = .error (lerr 0xFFFF0003) := by decide

/-- A VF with an event, and a ring with room, one that is full, one that is off. -/
def withRing (tail : Nat) (en : Bool) : State :=
  modVf sP 0 (fun v => { v with evEn := en, evBase := 0x4000, evTail := tail
                                evWait := [{ code := 1, tag := 2, stream := 3, type := 4, w1 := 5, w2 := 6, w3 := 7, irq := true }] })

theorem witness_EventIsWritten :
    let full := fun (s : State) => decide (((vfOf s 0).evHead + 32) % 2 ^ (vfOf s 0).evLog2 = (vfOf s 0).evTail)
    (vfOf (withRing 0 true) 0).evWait ≠ [] ∧ sP.hitch = false ∧ (vfOf (withRing 0 true) 0).evEn = true ∧ full (withRing 0 true) = false
    ∧ full (withRing 32 true) = true ∧ (vfOf (withRing 0 false) 0).evEn = false ∧ suspended (withRing 0 true) 0 = false
    -- VF 1 is listed and VF 0 runs
    ∧ suspended (withPart sP (fun x => { x with ctl := 0x8000010000000500, slv := 0x100 })) 1 = true := by decide

/-! ### Witnesses: memory control -/

/-- Frame 3, valid with a state and a tier, of VF 0. -/
def withFrame (st tier : BitVec 2) : State :=
  { sW with windows := [], frames := [(3, { Frame.reset with v := true, owner := 0, state := st, tier := tier })] }

theorem witness_FrameControl :
    (tget Frame.reset (withFrame 0 0).frames 3).v = true ∧ (tget Frame.reset (withFrame 0 0).frames 4).v = false
    ∧ 1 ≤ (1 : BitVec 17).toNat ∧ (65536 : BitVec 17).toNat ≤ 65536 ∧ (frameDesc (withFrame 2 2) 3).v = true ∧ (withFrame 2 2).fetching.contains 3 = false
    ∧ (frameDesc (withFrame 0 0) 3).v = true ∧ pairOf (withFrame 0 0) 3 = none ∧ (withFrame 0 0).fwd.length < 8 ∧ inWindow (withFrame 0 0) 3 = false
    ∧ reclaimOf (withFrame 0 0) 3 = none ∧ countOf (withFrame 0 0) 3 = 0 ∧ (coreOf (withFrame 0 0) 1).owner = none
    ∧ inTables (withFrame 0 0) 3 = false ∧ inRecords (withFrame 0 0) 3 = false ∧ placeOk (withFrame 0 0) 3 0 1 = true
    -- a location that is taken, and one that does not exist; the first frame of the tables
    ∧ placeOk (withFrame 0 0) 3 0 0 = false ∧ placeOk (withFrame 0 0) 3 0 6291456 = false
    -- flash: namespace 0, and namespace 1
    ∧ placeOk (withFrame 0 0) 3 2 5 = false ∧ placeOk (withFrame 0 0) 3 2 0x100000005 = true ∧ 256 ≤ (rawFrame (withFrame 0 0) 8174).owner
    -- an entry whose sector has pending contents; a run of no frames
    ∧ (tfind ({ withFrame 0 0 with pend := [(0x40, { part := 0, vf := 0, writers := [.host], bytes := [], own := [] })] } : State).pend (0x1000 / 64)).isSome = true
    ∧ (0 : BitVec 17).toNat = 0 ∧ 65536 < (65537 : BitVec 17).toNat := by decide

/-- A port of core 0 with a stream over a tensor, and its latch for the tile. -/
def tens : Tensor :=
  { tid := 1, rank := 1, fmt := .fp32, layout := 0, dim := Vector.replicate 5 16, lt := Vector.replicate 5 0, ttbase := 0x1000 }
def latch1 : Latch := { tid := 1, tile := 0, frame := 3, w := true, own := true, cattr := 0, moving := false, tier := 0, home := 0, source := none }
def rec1 : StreamRec :=
  { port := 0, kind := 1, write := false, line := 0, nv := 1, tid := 1, mt := 0, coord := Vector.replicate 5 0, tdim := 0, tstr := 0, kdim := 0, kstr := 0
    edim := 0, estr := 0, itid := 0, opx := 0, qopx := 0, seq := 0, lg := 0 }
def withPort : State :=
  let s := withGraph sE (fun g => { g with tensors := [tens] })
  modCore s 0 (fun k => { k with ports := k.ports.set 0 { k.ports[(0 : Fin 16)] with active := some rec1, latch := some latch1 } })

theorem witness_Translation :
    (coreOf withPort 0).owner = some (0, 0) ∧ (graphOf withPort 0 0).isSome = true ∧ ((coreOf withPort 0).ports[(0 : Fin 16)]).active = some rec1
    ∧ (graphOf withPort 0 0).map (fun g => tensorOf g rec1.tid) = some (some tens) ∧ tens.inside [0] = true
    ∧ throughLatch withPort 0 { vf := (partOf withPort 0).vf, port := 0, cls := portClass (oneGraph false []) rec1 } tens (tens.tileNo [0]) (tens.elemOff [0] * fmtBits tens.fmt / 8) false
        ((coreOf withPort 0).ports[(0 : Fin 16)]).latch = .ok (withPort, latch1) := by
  refine ⟨by decide, by decide, by decide, by decide, by decide, rfl⟩

/-- A table entry of frame 3 with V set, and with V clear; a sequence that is swapped in. -/
theorem witness_AttributeSwap :
    (let s := fun (v : DWord) => { withFrame 0 0 with mem := write64 [] 0x1000 (v * 0x8000000000000000 + 0x30000) }
     (frameDesc (s 1) 3).v = true ∧ (read64 (s 1).mem 0x1000).toNat / 2 ^ 16 % 2 ^ 32 = 3 ∧ (read64 (s 1).mem 0x1000).getLsbD 63 = true
     ∧ (tget Frame.reset (s 1).frames 3).cattr ≠ 1 ∧ (read64 (s 0).mem 0x1000).toNat / 2 ^ 16 % 2 ^ 32 = 3
     ∧ (read64 (s 0).mem 0x1000).getLsbD 63 = false ∧ tokenOut (s 0) 3 = false ∧ runPending (s 0) 3 1 = false ∧ tfind (s 0).pend (0x1000 / 64) = none ∧ inTables (s 0) 3 = false)
    ∧ (swapIn (withPart sP (fun x => { x with pomAllot := 4096 })) 0 0).isSome = true := by decide

/-- The first and last word of a core's banks; the first offset outside. -/
theorem witness_HideOffsets :
    let x := partOf sE 0
    x.coreList[0 / 262144]? = some 0 ∧ x.coreList[262143 / 262144]? = some 0 ∧ 0 < x.hideSize ∧ 262143 < x.hideSize ∧ x.hideSize ≤ 262144
    ∧ x.hideKey 0 = x.hideKey 0 ∧ sE.cur.part = 0 := by decide

/-! ### Witnesses: rounds and boundaries -/

theorem witness_Rounds :
    let s := fun (r : RunState) (f : Option Report) => withGraph sE (fun g => { g with run := r, fault := f, lastVoid := true })
    (∃ g, graphOf (s .ready none) 0 0 = some g ∧ pulseFree (s .ready none) 0 g = true ∧ restoresDue g = [])
    ∧ (∃ g, graphOf sE 0 0 = some g ∧ pulseFree sE 0 g = false) ∧ (∃ g, graphOf sE 0 0 = some g ∧ (partOf (withPart sE (fun x => { x with gapLeft := 1 })) 0).gapLeft = 1 ∧ (partOf sE 0).gapLeft ≠ 1)
    ∧ (∃ g, graphOf (s .ended none) 0 0 = some g ∧ g.run = .ended ∧ g.fault = none ∧ engineHeld (s .ended none) 0 g = false
        ∧ allocHeld (s .ended none) 0 g = false ∧ versionHeld (s .ended none) 0 g = false ∧ commitClash (s .ended none) g = none ∧ recordCheck (s .ended none) 0 g = none)
    ∧ (∃ g, graphOf (s .ended (some (rep 5 3 4))) 0 0 = some g ∧ g.run = .ended ∧ g.fault = some (rep 5 3 4)
        ∧ hitchSelects (s .ended (some (rep 5 3 4))) 0 (rep 5 3 4) = false)
    ∧ (∃ g, graphOf (s .boundary none) 0 0 = some g ∧ g.run = .boundary ∧ g.lastVoid = true ∧ g.stopNext = false ∧ g.fault = none) := by
  refine ⟨⟨_, rfl, ?_⟩, ⟨_, rfl, ?_⟩, ⟨_, rfl, ?_⟩, ⟨_, rfl, ?_⟩, ⟨_, rfl, ?_⟩, ⟨_, rfl, ?_⟩⟩ <;> decide

/-- 64 passes, and a commit with 65 engine commands held on a core on which one is outstanding. -/
theorem witness_PromotionHeldCommit :
    (∃ g, graphOf (withGraph sE (fun g => modSt g 0 (fun o => { o with passed := 64 }))) 0 0 = some g ∧ 0 < g.ops.length ∧ 64 ≤ (stAt g 0).passed)
    ∧ (let s := { modCore sE 0 (fun k => { k with held := List.replicate 64 (0, .cmd 0xD5 (.copy 0x2000000000000000 0x4000000000000000 1)) }) with engines := [run0 1] }
       ∃ g, graphOf s 0 0 = some g ∧ engineHeld s 0 g = true)
    -- those of nothing, and malformed ones, take no room
    ∧ (let s := { modCore sE 0 (fun k => { k with held := List.replicate 64 (0, .cmd 0xD5 (.copy 0 0 0)) }) with engines := [run0 1] }
       ∃ g, graphOf s 0 0 = some g ∧ engineHeld s 0 g = false) := by
  refine ⟨⟨_, rfl, ?_⟩, ⟨_, rfl, ?_⟩, _, rfl, ?_⟩ <;> decide

/-- Commits that wait for frames when none is free, and for the version store of a die on which the partition has no core; a store that meets a line of another attribute. -/
theorem witness_CommitsHeld :
    (let s := modCore sE 0 (fun k => { k with held := [(0, .kv (.app 5 16 1))] })
     ∃ g, graphOf s 0 0 = some g ∧ engineHeld s 0 g = false ∧ allocHeld s 0 g = true)
    ∧ (let x : Store := { addr := 0x40000, byte := 1, mask := 0xFF, cattr := 0, cls := 0 }
       let s := { modCore sE 0 (fun k => { k with stores := [x] }) with
         l2 := [(0x400, { cattr := 1, valid := 1, dirty := 0, owner := 0, die := 0, used := 0, lost := 0, raw := [] })] }
       let t := { modCore sE 0 (fun k => { k with stores := [x] }) with
         frames := [(4, { Frame.reset with v := true, home := 16 })]
         l2 := [(0x400, { cattr := 0, valid := 1, dirty := 0, owner := 0, die := 1, used := 0, lost := 0, raw := [] })] }
       (∃ g, graphOf s 0 0 = some g ∧ commitClash s g = some (0, x))
       ∧ ∃ g, graphOf t 0 0 = some g ∧ commitClash t g = none ∧ engineHeld t 0 g = false ∧ allocHeld t 0 g = false ∧ versionHeld t 0 g = true) := by
  refine ⟨⟨_, rfl, by decide, by decide⟩, ⟨_, rfl, by decide⟩, _, rfl, by decide, by decide, by decide, by decide⟩

/-- A wait at its budget in the timed part and in a section; a third detection; an arbiter's request that starves behind one that has not waited. -/
theorem witness_Deadlines :
    (∃ g, graphOf (withGraph sE (fun g => { g with waitCnt := 65535 })) 0 0 = some g ∧ g.budget ≤ g.waitCnt ∧ g.run ≠ .sect)
    ∧ (∃ g, graphOf (withGraph sB (fun g => { g with waitCnt := 65535 })) 0 0 = some g ∧ g.budget ≤ g.waitCnt ∧ g.run = .sect)
    ∧ (coreOf sE 0).owner = some (0, 0) ∧ (graphOf sE 0 0).map (·.run) = some .round
    ∧ (8 : Word).toNat % 7 = (1 : BitVec 3).toNat ∧ (0xFFFFFFFF : Word).toNat % 7 ≠ (1 : BitVec 3).toNat
    ∧ (let ds := fun (old : List Nat) (n : Nat) => (old ++ [n]).drop ((old ++ [n]).length - 3)
       (ds [] 5).length < 3 ∧ ¬ ((ds [2, 3] 5).length < 3 ∨ (ds [2, 3] 5).headD 0 + 2 ^ 20 ≤ 5) ∧ (ds [1, 2, 3] (2 + 2 ^ 20)).headD 0 + 2 ^ 20 ≤ 2 + 2 ^ 20)
    ∧ (partOf sE 0).resetting = false := by
  refine ⟨⟨_, rfl, ?_⟩, ⟨_, rfl, ?_⟩, ?_⟩ <;> decide

theorem witness_Limits :
    (∃ g, graphOf (withGraph sE (fun g => { g with repeatCls := cDeadline, repeatCnt := 2 })) 0 0 = some g ∧ atReplayLimit g = true ∧ g.hold = none)
    ∧ (∃ g, graphOf (withGraph sE (fun g => { g with repeatCls := cUnderrun, repeatCnt := 2 })) 0 0 = some g ∧ atReplayLimit g = false)
    ∧ (let q : ArbReq := { arbiter := 1, cls := 3, port := 0, came := 0, units := 1, names := [], load := none, waited := 1024, granted := false }
       let y : ArbReq := { arbiter := 1, cls := 3, port := 0, came := 0, units := 1, names := [], load := none, waited := 1023, granted := false }
       let starved := fun (x : ArbReq) => x.arbiter = 1 ∧ x.cls ≠ 0 ∧ 1024 ≤ x.waited ∧ x.granted = false
       ({ sE with arbs := [y, q] } : State).arbs = [y] ++ q :: [] ∧ (∀ x ∈ [y], ¬ starved x) ∧ starved q) := by
  refine ⟨⟨_, rfl, ?_⟩, ⟨_, rfl, ?_⟩, ?_⟩ <;> decide

/-- A boundary that is ready, one that is not, none asked for; a pending byte of the partition, and a byte of no pending sector. -/
theorem witness_PhaseBoundary :
    let s := withPart sP (fun x => { x with bndReq := true })
    let busy := withPart sE (fun x => { x with bndStarted := true })
    let sec : PendSector := { part := 0, vf := 0, bytes := [(0x1000, 0xAB)], writers := [.host], own := [] }
    let t := { s with pend := [(0x40, sec)] }
    s.hitch = false ∧ (partOf s 0).resetting = false ∧ (partOf s 0).bndReq = true ∧ boundaryReady (putPart s 0 { partOf s 0 with bndStarted := true, bndReq := false }) 0 = true
    ∧ (partOf busy 0).bndStarted = true ∧ boundaryReady busy 0 = false ∧ (partOf sP 0).bndReq = false ∧ (partOf sP 0).bndStarted = false
    ∧ keysRise t.pend = true ∧ (∀ e ∈ t.pend, keysRise e.2.bytes = true ∧ ∀ b ∈ e.2.bytes, b.1 / 64 = e.1)
    ∧ (∀ q, tfind t.pend (0x1000 / 64) = some q → q.part = 0) ∧ (∀ q, tfind t.pend (0x2000 / 64) = some q → q.part ≠ 0) := by
  refine ⟨by decide, by decide, by decide, by decide, by decide, by decide, by decide, by decide, by decide, by decide, ?_, ?_⟩
  · intro q h; cases h; rfl
  · intro q h; cases h

theorem witness_SlicesReset :
    let s := withPart sP (fun x => { x with ctl := 0x8000010000000500, sliceRun := 2 ^ 20 })
    let g := withPart sP (fun x => { x with ctl := 0x8000000001000100, sliceExp := true, grace := 1024 })
    let r := withPart sP (fun x => { x with resetting := true })
    (partOf s 0).slices = true ∧ (partOf s 0).slice * 2 ^ 20 ≤ (partOf s 0).sliceRun ∧ (partOf s 0).sliceExp = false
    ∧ (partOf g 0).sliceExp = true ∧ (partOf g 0).graceLimit ≠ 0 ∧ (partOf g 0).graceLimit * 1024 ≤ (partOf g 0).grace ∧ (partOf sP 0).resetting = false
    ∧ (partOf r 0).resetting = true ∧ (partOf r 0).bound = true ∧ (streamOf r (partOf r 0).vf 0).en = true := by decide

/-! ### Witnesses: links and collectives -/

/-- A flit of a type on a VC with a SEQ and zeros in its payload. -/
def flit (type : BitVec 8) (vc : BitVec 4) (seq : BitVec 12) : Flit :=
  { ver := 1, vc := vc, type := type, seq := seq, ack := 0xFFF, dst := 0, src := 0, group := 3, opn := 1, cnt := 0, rop := 0, pfmt := 0, rsv := false, last := true
    frag := 0, payload := List.replicate 232 0 }
/-- Port 0 is up and has received SEQ 0xFFF; group 3 has parent port 1, child port 0, and the core complex. -/
def sF (w : DWord) : State := { sP with ports := sP.ports.set 0 { trainedPort with rxSeq := 0xFFF }, groups := [(3, w)] }

set_option maxRecDepth 4096 in
theorem witness_FlitsReceived :
    accepts (sF 0) 0 0x00 0 (flit 0x00 0 0) ∧ accepts (sF 0) 0 0x01 0 (flit 0x01 0 0) ∧ accepts (sF 0) 0 0x20 5 (flit 0x20 5 0)
    ∧ (flit 0x00 0 1).wf 0x00 0 = true ∧ (flit 0x00 0 1).seq.toNat ≠ ((portOf (sF 0) 0).rxSeq + 1) % 4096
    ∧ (let r : Flit := { flit 0x02 0 0 with ack := 4 }
       accepts (sF 0) 0 0x02 0 r ∧ (portOf (sF 0) 0).probe = none ∧ (portOf (sF 0) 0).retrySeq ≠ (r.ack.toNat + 1) % 4096) := by
  unfold accepts; decide

set_option maxRecDepth 4096 in
theorem witness_FlitsSentRetrain :
    let q := modFPort (sF 0) 0 (fun p => { p with queue := [{ f := { flit 0x20 5 0 with pfmt := 1 }, vals := [], cls := 3, waited := 0 }] })
    let full := modFPort (sF 0) 0 (fun p => { p with replay := List.replicate 256 (flit 0 0 0, flit 0 0 0) })
    let down := modFPort (sF 0) 0 (fun p => { p with retraining := true })
    (portOf q 0).up = true ∧ (portOf q 0).retraining = false ∧ (portOf q 0).replay.length < 256
    ∧ (nextFlit (portOf q 0)).map (·.1) = some 0 ∧ codedVc { flit 0x20 5 0 with pfmt := 1 } = none
    ∧ inMessage (flit 0x20 5 0) = false
    -- one that has retrained, at its first flit
    ∧ (portOf (modFPort (sF 0) 0 (fun p => { p with proof := true })) 0).proof = true ∧ (portOf (sF 0) 0).proof = false
    ∧ nextFlit (portOf (sF 0) 0) = none ∧ 256 ≤ (portOf full 0).replay.length ∧ (portOf down 0).retraining = true
    ∧ (portOf State.reset 0).up = false := by decide

theorem witness_ExponentCoding : (List.range 16).length ≤ 16 ∧ ([] : List Nat).length ≤ 16 := by decide

set_option maxRecDepth 4096 in
/-- A collective flit of group 3, operation 1, that passes; four open operations. -/
theorem witness_CollectiveFlits :
    let s := sF 0x8020000C00000000
    let ready := fun (type vc : Nat) (f : Flit) => !(opBad (returnCredit (accepted s 0 type vc f) 0 f.vc) f)
      && !(staleOp (returnCredit (accepted s 0 type vc f) 0 f.vc) 3 1)
    ready 0x10 1 (flit 0x10 1 0) = true ∧ ready 0x12 3 (flit 0x12 3 0) = true ∧ ready 0x13 4 (flit 0x13 4 0) = true ∧ ready 0x14 4 (flit 0x14 4 0) = true
    ∧ ready 0x15 4 (flit 0x15 4 0) = true ∧ ready 0x11 2 (flit 0x11 2 0) = true
    ∧ accepts s 0 0x10 1 (flit 0x10 1 0) ∧ accepts s 0 0x11 2 (flit 0x11 2 0) ∧ accepts s 0 0x12 3 (flit 0x12 3 0) ∧ accepts s 0 0x13 4 (flit 0x13 4 0)
    ∧ accepts s 0 0x14 4 (flit 0x14 4 0) ∧ accepts s 0 0x15 4 (flit 0x15 4 0)
    -- a group that is not valid; an operation that is over; a fifth operation
    ∧ opBad (sF 0) (flit 0x11 2 0) = true
    ∧ staleOp { s with opn := [(3, 2)] } 3 1 = true
    ∧ (let k : Contrib := { port := some 0, rop := 0, pfmt := 0, frags := [], vals := [] }
       let t := { s with collOps := [5, 6, 7, 8].map (fun n => { CollOp.new 3 n with kids := [k] }) }
       staleOp t 3 1 = false ∧ mayOpen t 3 1 = false) ∧ mayOpen s 3 1 = true ∧ (opOf s 3 1).aborted = false
    ∧ (opOf { s with collOps := [{ CollOp.new 3 1 with aborted := true }] } 3 1).aborted = true := by
  unfold accepts; decide

/-- Arrivals at a barrier of group 3 with a child port and the core complex: the last one, and the first. -/
theorem witness_Barriers :
    let s := sF 0x8020000C00000000
    let w := groupOf s 3
    let full := fun (l : List (Option Nat)) => decide (∀ i ∈ grpKids w, some i ∈ l) && (!grpLocal w || l.contains none)
    grpParent w < 18 ∧ (none : Option Nat) ∉ (opOf s 3 1).arrived ∧ 96 ≤ (127 : Nat) ∧ full ((opOf s 3 1).arrived ++ [none]) = false
    ∧ full ((grpKids w).map some ++ [none]) = true := by decide

/-- Nothing is outstanding in group 4; an engine command and none for an operation; a command that completes. -/
theorem witness_GroupsEngines :
    let s := { sE with engines := [{ run0 1 with cmd := .copy 0 8 1 }] }
    groupBusy { s with collOps := [CollOp.new 3 1] } 3 = true
    ∧ (∀ i : Fin 18, ∀ q ∈ (portOf s i).queue, ¬ (0x10 ≤ q.f.type.toNat ∧ q.f.type.toNat ≤ 0x15 ∧ q.f.group.toNat = 4)) ∧ (∀ o ∈ s.collOps, o.group ≠ 4) ∧ (∀ e ∈ s.engines, ∀ c, e.cmd.coll = some c → c.1 ≠ 4) ∧ localCmd s 4 0 = none
    ∧ s.engines.find? (fun r => r.id = 1) = some { run0 1 with cmd := .copy 0 8 1 } ∧ (graphOf s 0 0).isSome = true
    ∧ windowWaits s { run0 1 with cmd := .copy 0 8 1 } = false ∧ chainWaits s { run0 1 with cmd := .copy 0 8 1 } = false := by
  refine ⟨by decide, by decide, by decide, ?_, by decide, by decide, by decide, by decide, by decide⟩
  intro e h c hc
  simp only [List.mem_singleton] at h
  subst h
  cases hc

/-! ### Witnesses: encoding, the step, the memory -/

set_option maxRecDepth 4096 in
theorem witness_Encoding :
    (Instr.fmadF32 (.v 3) (v 1) (o .nW)).wf = true ∧ (Instr.fmadF32 (.v 3) (v 1) (o .nW)).isElem = true ∧ Instr.yld.wf = true ∧ Instr.yld.isSeq = true
    ∧ (Instr.phase 5 2).wf = true ∧ (encodePacket (.phase 5 2)).isSome = true ∧ (Instr.idle 0 (flit 0 0 0)).wf = true
    ∧ (encodeFlit (.idle 0 (flit 0 0 0))).isSome = true := by decide

/-- What has to happen at once; the entry of an agent; a section's; a packet; an input; a task. -/
theorem witness_StepRuns :
    let e := placeEntry State.reset [0x00C0186080056000] (.fmadF32 (.v 3) (v 1) (o .nW))
    let q := placeEntry State.reset [0xFFF6080000000000] .yld
    let p := placePacket State.reset [0x0000000000050000, 0, 0, 0]
    let i := { quiet State.reset with inbox := [.hitch] }
    let k := { quiet State.reset with tasks := [.hitch] }
    ({ e with urgent := [.hitch] } : State).urgent = .hitch :: [] ∧ e.hitch = false
    ∧ (e.urgent = [] ∧ (choose e).1 = .graph 0 0 ∧ (graphOf (choose e).2 0 0).map (fun g => (g.run, g.todo)) = some (.round, [{ core := 0, elem := 0 }])
      ∧ entryAt false (agentList (choose e).2 { core := 0, elem := 0 }).1 (agentList (choose e).2 { core := 0, elem := 0 }).2
          = .ok (.fmadF32 (.v 3) (v 1) (o .nW)))
    ∧ (q.urgent = [] ∧ (choose q).1 = .sect 0 0 0 ∧ (coreOf (choose q).2 0).secLi < (coreOf (choose q).2 0).seqList.length
      ∧ (coreOf (choose q).2 0).secCount + 1 < 65536 ∧ entryAt true (coreOf (choose q).2 0).seqList (coreOf (choose q).2 0).secLi = .ok .yld)
    ∧ (p.urgent = [] ∧ (choose p).1 = .stream 0 0 ∧ (streamOf (choose p).2 0 0).stage ≠ 4 ∧ packetAt (choose p).2 0 0 = .ok (.nop 5))
    ∧ (i.urgent = [] ∧ (choose i).1 = .inbox ∧ (choose i).2.inbox = [.hitch] ∧ inputActs (choose i).2 .hitch = true)
    -- a packet that has ended with an event to be written; an input of a device that has failed
    ∧ (streamOf (modStream p 0 0 (fun q => { q with stage := 4 })) 0 0).stage = 4 ∧ inputActs { i with boot := .failed } (.cxlMemWindowClose 0) = false
    ∧ (k.urgent = [] ∧ (choose k).1 = .task ∧ (choose k).2.tasks = [.hitch]) := by
  refine ⟨by decide, by decide, ⟨by decide, by decide, by decide, by rfl⟩, ⟨by decide, by decide, by decide, by decide, by rfl⟩,
    ⟨by decide, by decide, by decide, by rfl⟩, by decide, by decide⟩

theorem witness_MemoryCanonical : memCanon State.reset ∧ goesOn (step State.reset) = true := by
  unfold memCanon; decide

/-! ### Witnesses: further clauses -/

/-- An offset at the size of the hide space, in lane 3 first. -/
theorem witness_HideOutside :
    let s := withElem sE (fun r => { r with v := r.v.set 1 (Lanes.zero.set 3 262144) })
    let x := (opnd s 0 .keep (v 1)).val
    ((elemView s 0).en).getLsbD 3 = true ∧ (curPart s).hideSize ≤ (x[(3 : Fin 32)]).toNat ∧ ∀ j : Fin 32, j < 3 → (x[j]).toNat < (curPart s).hideSize := by decide

/-- Sources that an empty bank faults at lane 0, in every shape of entry; an 8-bit index that is valid. -/
theorem witness_FaultingSources :
    let b : Opnd := ⟨.v 1, .x4 3 0, false⟩
    let b8 : Opnd := ⟨.v 1, .x8 3 3, false⟩
    let f : FaultInfo := { cls := 6, detail := 3, info := 0, lane := some 0 }
    firstBad [opnd sE 0 .half b8, opnd sE 0 .half (v 2)] = some f ∧ firstBad [opnd sE 0 .keep b, opnd sE 0 .keep b8] = some f ∧ firstBad [opnd sE 0 .f32 b8] = some f
    ∧ firstBad [opnd sE 0 .keep b] = some f ∧ firstBad [opnd sE 0 (cvtNeg .i32f32) b] = some f ∧ firstBad [opnd sE 0 .int b, opnd sE 0 .keep (v 2)] = some f
    ∧ firstBad [opnd sE 0 (unpkNeg .i8) b, opnd sE 0 .keep (v 2)] = some f ∧ firstBad [opndAll sE 0 .keep b] = some f
    ∧ firstBad [opndAll sE 0 (rtyNeg .n32) b] = some f ∧ firstBad [opndAll sE 0 .f32 (v 1), opndAll sE 0 .f32 b] = some f
    ∧ firstBad [opndAll sE 0 .f32 (v 1), opndAll sE 0 .f32 (v 2), readOpnd (elemView sE 0) .f32 (firstLanes 5) b] = some f
    ∧ (srcVal (elemView sE 0) .lid)[(1 : Fin 32)].toNat / 2 ^ (8 * 0) % 256 = 1 := by decide

theorem witness_ResultPlaces :
    let q := fun (d : PDst) => ({ fc := 9, dst := d, val := Lanes.all 1, res := Lanes.all 1, mask := 1 } : Pend)
    (q (.line 19)).dst = .line 19 ∧ (q .res).dst = .res ∧ (q (.keep 3 (Lanes.all 0) true false)).dst = .keep 3 (Lanes.all 0) true false
    ∧ (q (.clearKeep 0)).dst = .clearKeep 0 ∧ (1 : Fin 4) ≠ 0 := by decide

/-- Entries of each list and each part. -/
theorem witness_Misplaced :
    (Instr.br .always .z .z 1).isSeq = true ∧ (sectionOf (.br .always .z .z 1)).1 = false ∧ inTimed sT ∧ (Instr.sstep 1).isSeq = true
    ∧ (sectionOf (.sstep 1)).2 = false ∧ inBoundary sB ∧ (Instr.movi (.v 3) 1).isElem = true ∧ sE.cur.elem = (0 : Fin 96).val := by
  exact ⟨by decide, by decide, sT_timed, by decide, by decide, sB_boundary, by decide, by decide⟩

theorem witness_OffRectangle :
    let r : Rect := { row0 := 0, col0 := 0, nr := 1, nc := 1, form := .off, fmt := .e4m3 }
    let s := modCore sT 0 (fun k => { k with rects := k.rects.set 7 r })
    ((curCore s).rects[(7 : Fin 8)]).form = .off ∧ ((curCore s).rects[(7 : Fin 8)]).nc = 1
    ∧ (∀ h ∈ (elemOf (curCore s) (r.bottom 0)).r.resid, h.1.place ≠ .acc) := by decide

/-- Sequence 5: cold; not V; an append past 1 048 576; a partial block to pin; no units; the VF's partition has a table frame for pommel. -/
theorem witness_KvRefused :
    let s := fun (q : Machine.Seq) => { withPart (withC sT 0x8000000000000005 0x8000000000000000) (fun x => { x with quota := 0, pomAllot := 4096, seqs := [(5, q)] }) with
      frames := [(0, { Frame.reset with v := true })], fdtCount := 16, tableBase := 14 }
    let q := fun (hot : Bool) (f : Nat) => ({ v := true, hot := hot, f := f, ctbase := 0x10000, ctlen := 1, used := 0 } : Machine.Seq)
    let vf := fun (s : State) => (curPart s).vf
    inTimed (s (q true 0)) ∧ (seqOf (s (q false 0)) 0 5).v = true ∧ (seqOf (s (q false 0)) 0 5).hot = false
    ∧ (seqOf (s { q true 0 with v := false }) 0 5).v = false
    ∧ heldKv (s (q true 0)) 0 = [] ∧ 1048576 < (seqOf (s (q true 1048560)) 0 5).f + 17
    ∧ (seqOf (s (q true 17)) 0 5).f % 16 ≠ 0
    ∧ pomFits (s (q true 0)) 0 (vf (s (q true 0))) 1 = true ∧ (partOf (s (q true 0)) 0).quota < (0 + 16 + 15) / 16 - 0 / 16
    ∧ (cregVal (withC sT 0x8000000000001005 0x8000000100000000) (.c 1)).toNat / 2 ^ 12 % 2 ^ 51 ≠ 0
    ∧ (cregVal (withC sT 0x8000000000001005 0x8000000100000000) (.c 2)).toNat / 2 ^ 32 % 2 ^ 31 ≠ 0 := by
  refine ⟨by unfold inTimed; decide, ?_⟩
  decide

/-- A device whose trip input has come. -/
theorem witness_Thermtrip : ({ sE with thermTrip := true } : State).thermTrip = true := by decide

/-- A host write whose context is being saved, with a full store, that reads unreadable metadata; a host read that reads lost data; HITCH. -/
theorem witness_HostStops :
    let a := 65536 * 16
    let save := { sW with parts := sW.parts.map (fun e => (e.1, { e.2 with switching := .save })) }
    let full := { sW with parts := sW.parts.map (fun e => (e.1, { e.2 with verUsed := [(0, 65536)] })) }
    let bad := { sW with frames := [(16, { Frame.reset with v := true, cattr := 1 })], mdtBad := [4096] }
    let lost := { sW with lostMem := [16384] }
    (partOf save 0).switching ≠ .none ∧ (hostStores sW a [0xAB]).length = 1
    ∧ (match fillFor (hostVia 0) (hostStores bad a [0xAB]) (storeSectors (hostStores bad a [0xAB]) []) bad with | .error f => decide (f.cls = 5) | .ok _ => false) = true
    ∧ (match fillFor (hostVia 0) (hostStores sW a [0xAB, 1]) (storeSectors (hostStores sW a [0xAB, 1]) []) sW with | .error _ => false | .ok _ => true) = true
    ∧ (match hostTouch 0 [16384] lost with | .error x => decide (x.1 = 16384) | .ok _ => false) = true
    ∧ (match hostTouch 0 [16384] sW with | .error _ => false | .ok _ => true) = true ∧ ({ sW with hitch := true } : State).hitch = true
    ∧ versionFits full 0 [a] = false := by decide

/-- A pool frame of port 0, one of HBM; a drive that reads frame 3, which has a place in HBM; a frame that the drive does not read. -/
theorem witness_PoolFrames :
    let s := withFrame 0 1
    let d := tget Frame.reset s.frames 3
    (d.v = true ∧ d.tier = 1 ∧ d.loc.toNat / 2 ^ 47 = (0 : Fin 2).val) ∧ inTables s 3 = false ∧ (tget Frame.reset s.frames 4).v = false
    ∧ (let t := { withFrame 2 2 with fetching := [3] }
       t.fetching.contains 3 = true ∧ inTables t 3 = false ∧ (freeLocIn t 0 (placeCores t 3)).isSome = true ∧ (tget Frame.reset t.frames 3).v = true) := by decide

/-- A frame of HBM that still moves off the pool, among those that a failed request was writing. -/
theorem witness_PoolFrameLost :
    let t := { withFrame 1 0 with fwd := [{ frame := 3, tier := 1, loc := 5, waits := none }] }
    (∃ w ∈ ([3] : List (BitVec 32)), w.toNat = 3) ∧ (tget Frame.reset t.frames 3).tier ≠ 1 ∧ memPlace t 3 = (1, 5)
    ∧ (5 : BitVec 48).toNat / 2 ^ 47 = (0 : Fin 2).val := ⟨⟨3, by decide, rfl⟩, by decide, by decide, rfl⟩

/-- A write of SQ_CTL with EN on a halted stream, on one that runs, on one that is off, and on one of a VF without a partition. -/
theorem witness_StreamControls :
    (1 : DWord).getLsbD 0 = true ∧ (0 : DWord).getLsbD 0 = false ∧ (streamOf (withStream sP (fun q => { q with state := .halt })) 0 0).state = .halt
    ∧ (streamOf sP 0 0).en = true ∧ (streamOf sP 0 0).state ≠ .halt ∧ (streamOf State.reset 0 0).en = false ∧ partOfVf State.reset 0 = none
    ∧ (streamOf (withStream sP (fun _ => Stream.reset)) 0 0).en = false ∧ partOfVf (withStream sP (fun _ => Stream.reset)) 0 ≠ none
    ∧ (streamOf (withStream sP (fun _ => Stream.reset)) 0 0).state ≠ .halt := by decide

/-- A partition that may be defined, and one without cores; a reset under way; a context being saved. -/
theorem witness_PartCtl :
    let def1 := { State.reset with parts := [(0, { Part.reset with cores := 1 })] }
    (partOf def1 0).switching = .none ∧ resetPending def1 0 = false ∧ def1.windows = [] ∧ (∀ e ∈ def1.parts, e.1 ≠ 0 → e.2.v = false ∧ e.2.cores &&& (partOf def1 0).cores = 0)
    ∧ (partOf def1 0).coreList ≠ [] ∧ (0x8000000000000000 : DWord).getLsbD 63 = true ∧ (partOf State.reset 0).coreList = []
    ∧ resetPending (withPart sP (fun x => { x with resetting := true })) 0 = true
    ∧ (partOf (withPart sP (fun x => { x with switching := .save })) 0).switching ≠ .none ∧ partOfVf State.reset 0 = none ∧ partOfVf sP 0 = some 0
    ∧ (0x200 : Nat) < 0x1000 := by decide

/-- A stream at its packet, after its demands, and past the boundary it waited for; a branch that goes ahead to a packet that waits. -/
theorem witness_PacketStages :
    let at' := fun (g n : Nat) => withStream sP (fun q => { q with stage := g, target := n, wp := 128 })
    let q := streamOf (at' 0 0) 0 0
    let ring := 2 ^ q.log2
    let target := (((q.rp : Int) + 32 * (2 : Word).toInt) % (ring : Int)).toNat
    (streamOf (at' 1 0) 0 0).stage < 2 ∧ (streamOf (at' 0 0) 0 0).stage = 0 ∧ (streamOf (at' 1 0) 0 0).stage = 1 ∧ (streamOf (at' 2 0) 0 0).stage = 2
    ∧ (streamOf (at' 2 0) 0 0).target ≤ (partOf (at' 2 0) 0).phn.toNat ∧ (partOf (at' 2 1) 0).phn.toNat < (streamOf (at' 2 1) 0 0).target
    ∧ 0 < (target + ring - q.rp) % ring ∧ (target + ring - q.rp) % ring < (q.wp + ring - q.rp) % ring
    ∧ ¬ (((4 : Nat) * 32 + ring - q.rp) % ring < (q.wp + ring - q.rp) % ring) := by decide

/-- A slot with a demand, one whose graph is in flight, one whose graph is idle, and the empty one. -/
theorem witness_SlotIsEmptied :
    let s := fun (r : RunState) => withPart sP (fun x => { x with graphs := [(0, { oneGraph false [] with run := r })] })
    let live := withPart sP (fun x => { x with demands := [(0, demandDone false)] })
    slotBusy live 0 0 = true ∧ slotBusy (s .round) 0 0 = false ∧ (∃ g, graphOf (s .round) 0 0 = some g ∧ g.run ≠ .idle)
    ∧ (∀ g, graphOf (s .idle) 0 0 = some g → g.run = .idle) ∧ (∀ r ∈ (s .idle).engines, ¬ (r.part = 0 ∧ r.slot = 0)) ∧ (partOf sP 0).loading = [] := by
  refine ⟨by decide, by decide, ⟨_, rfl, by decide⟩, ?_, by decide, by decide⟩
  intro g h
  cases h
  rfl

/-- A suspended VF with an event that waited when it was suspended, and one with none left. -/
theorem witness_SuspendedEvents :
    let s := fun (n : Nat) => modVf (withPart sP (fun x => { x with ctl := 0x8000010000000500, slv := 0x100 })) 1 (fun v => { v with evLeft := n, evEn := true })
    suspended (s 1) 1 = true ∧ (vfOf (s 1) 1).evLeft ≠ 0 ∧ (vfOf (s 0) 1).evLeft = 0 ∧ suspended (s 0) 1 = true ∧ (vfOf (s 1) 1).evEn = true
    ∧ suspended (withRing 0 true) 0 = false := by decide

/-- Frame 3 with a dirty and a clean sector in L2; a core no graph owns, and one whose graph has no round in flight, with a latch. -/
theorem witness_PoisonTokens :
    let ln := fun (d : BitVec 4) => ({ cattr := 0, valid := 15, dirty := d, owner := 0, die := 0, used := 0, lost := 0, raw := [] } : Line)
    let s := fun (d : BitVec 4) => { withFrame 0 0 with l2 := [(1024 * 3 / 4, ln d)] }
    let b := modCore sB 0 (fun k => { k with ports := k.ports.set 0 { k.ports[(0 : Fin 16)] with
      latch := some { tid := 1, tile := 0, frame := 3, w := true, own := true, cattr := 0, moving := false, tier := 0, home := 0, source := none } } })
    tfind (s 1).l2 ((1024 * 3 + 0) / 4) = some (ln 1) ∧ (ln 1).valid &&& 1 ≠ 0 ∧ (ln 1).dirty &&& 1 ≠ 0 ∧ (ln 0).dirty &&& 1 = 0
    ∧ inTables (s 1) 3 = false ∧ (tget Frame.reset (s 1).frames 3).v = true ∧ (frameDesc (withFrame 2 2) 3).v = true ∧ (rawFrame (withFrame 2 2) 3).state = 2
    ∧ (rawFrame (withFrame 2 2) 3).tier = 2 ∧ (rawFrame (withFrame 0 0) 3).owner < 256 ∧ (rawFrame (withFrame 0 0) 8174).owner = 256
    ∧ (∃ g, (coreOf b 0).owner = some (0, 0) ∧ graphOf b 0 0 = some g ∧ g.run ≠ .round ∧ g.run ≠ .ended ∧ g.run ≠ .heldCommit)
    ∧ (((coreOf b 0).ports[(0 : Fin 16)]).latch).isSome = true ∧ tfind (withFrame 0 0).pend (0x1000 / 64) = none := by
  refine ⟨by decide, by decide, by decide, by decide, by decide, by decide, by decide, by decide, by decide, by decide, by decide, ⟨_, by decide, rfl, by decide⟩,
    by decide, by decide⟩

/-- Operator 0 is armed in a round; port 0 of core 0 is at position 0 of its progression over tensor 1, and an sstep of it is to come or none. -/
def withSteps (kind : Nat) (more : Bool) : State :=
  let s := withGraph sE (fun g => { g with tensors := [tens] })
  let rec' := { rec1 with kind := kind }
  modCore s 0 (fun k => { k with
    seqList := if more then [0x0106900000000002] else [], seqLi := 0
    ports := k.ports.set 0 { k.ports[(0 : Fin 16)] with active := some rec', latch := some latch1, prog := { a := 0, b := 7, s := 1 } } })

/-- A tensor port that reads the first element at its next step, the same port with no step to come, and ports of KV page sets and of a queue. -/
theorem witness_Translates :
    let co : List Int := [0, 0, 0, 0, 0]
    let g := fun (s : State) => (graphOf s 0 0).getD (oneGraph false [])
    let k := fun (s : State) => coreOf s 0
    let r := { rec1 with kind := 0 }
    (k (withSteps 0 true)).owner = some (0, 0) ∧ ((k (withSteps 0 true)).ports[(0 : Fin 16)]).active = some r
    ∧ tensorOf (g (withSteps 0 true)) r.tid = some tens ∧ stillSteps (k (withSteps 0 true)) (g (withSteps 0 true)) r 0 = true ∧ tens.inside co = true
    ∧ reaches r (stepWidth ((k (withSteps 0 true)).skiv[(0 : Fin 16)]) r tens) co (stepsLeft (k (withSteps 0 true)) 0) (k (withSteps 0 true)).ports[(0 : Fin 16)] = true
    ∧ tens.inside [16, 0, 0, 0, 0] = false ∧ reaches r 32 [9, 0, 0, 0, 0] (stepsLeft (k (withSteps 0 true)) 0) (k (withSteps 0 true)).ports[(0 : Fin 16)] = false
    ∧ stillSteps (k (withSteps 0 false)) (g (withSteps 0 false)) r 0 = false
    ∧ stillSteps (k (withSteps 2 true)) (g (withSteps 2 true)) { rec1 with kind := 2 } 0 = true ∧ (graphOf (withSteps 2 true) 0 0).isSome = true := by decide

/-- The latch serves the access, and a port without one, whose table entry is not valid, does not. -/
theorem witness_Walks :
    let s := withSteps 0 true
    let v : Via := { vf := (partOf s 0).vf, port := 0, cls := 0 }
    let walk := throughLatch s 0 v tens (tens.tileNo [0, 0, 0, 0, 0]) (tens.elemOff [0, 0, 0, 0, 0] * fmtBits tens.fmt / 8) false
    walk (some latch1) = .ok (s, latch1) ∧ (match walk none with | .error _ => true | .ok _ => false) = true := ⟨rfl, by rfl⟩

/-- A round that has ended on a graph of one core; a commit that the version store holds. -/
theorem witness_CommitLeaves :
    ∃ g, graphOf sE 0 0 = some g ∧ g.cores.Nodup ∧ (∀ c ∈ g.cores, c < 64) ∧ (0 : Fin 64).val ∈ g.cores := ⟨_, rfl, by decide⟩

/-- A residue that agrees with the word and one that does not; a word read, and one in the ALU; a value of the round and a committed one. -/
theorem witness_Residues :
    let w : RWord := { place := .v 1, lane := 0 }
    let s := withElem sE (fun r => { r with v := r.v.set 1 (Lanes.zero.set 0 8), wrote := [(.v 1, 1)] })
    let value := fun (s : State) => wordIn s 0 0 w
    (value s).toNat % 7 = (1 : BitVec 3).toNat ∧ (value s).toNat % 7 ≠ (2 : BitVec 3).toNat ∧ isCommitted s 0 0 w = false
    ∧ isCommitted sE 0 0 w = true ∧ ({ place := .alu, lane := 0 } : RWord).place = .alu ∧ (value sE).toNat % 7 ≠ (1 : BitVec 3).toNat
    ∧ (coreOf sE 0).owner = some (0, 0) ∧ (coreOf sE 1).owner = none
    ∧ (∃ g, graphOf sE 0 0 = some g ∧ g.run = .round) := by
  exact ⟨by decide, by decide, by decide, by decide, by decide, by decide, by decide, by decide, _, rfl, by decide⟩

/-- A graph at its replay limit that is held by a report which has not been forwarded, and one whose report has; a graph in its section. -/
theorem witness_ReplayLimit :
    let s := fun (c : BitVec 5) => withGraph sE (fun g => { g with repeatCls := cUnderrun, repeatCnt := 1000, hold := some { rep 5 3 4 with cls := c } })
    (∃ g, graphOf (s 11) 0 0 = some g ∧ atReplayLimit g = true ∧ g.hold = some { rep 5 3 4 with cls := 11 })
    ∧ (∃ g, graphOf (s 4) 0 0 = some g ∧ atReplayLimit g = true ∧ g.hold = some { rep 5 3 4 with cls := 4 })
    ∧ (∃ g, graphOf sB 0 0 = some g ∧ g.run = .sect) := by
  exact ⟨⟨_, rfl, by decide⟩, ⟨_, rfl, by decide⟩, _, rfl, by decide⟩

/-- A boundary whose slice saves its context, and one that restores the next; a partition that a reset finds. -/
theorem witness_SwitchingReset :
    let s := fun (w : Switching) => withPart sP (fun x => { x with bndStarted := true, switching := w })
    (s .save).hitch = false ∧ (partOf (s .save) 0).resetting = false ∧ (partOf (s .save) 0).bndStarted = true ∧ (partOf (s .save) 0).switching = .save
    ∧ (partOf (s .restore) 0).switching = .restore ∧ (partOf sE 0).v = true ∧ (partOf sE 0).resetting = false ∧ sE.hitch = false
    ∧ (partOf sE 0).cores.getLsbD 0 = true := by decide

set_option maxRecDepth 8192 in
/-- Two flits that may go, the more urgent one behind; one that has waited for 1 024 others. -/
theorem witness_NextFlit :
    let q := fun (type vc cls n : Nat) => ({ f := { flit (BitVec.ofNat 8 type) (BitVec.ofNat 4 vc) 0 with pfmt := 1 }, vals := [], cls := BitVec.ofNat 2 cls, waited := n } : QFlit)
    let p := fun (l : List QFlit) => portOf (modFPort (sF 0) 0 (fun p => { p with queue := l })) 0
    (nextFlit (p [q 0x20 5 3 0, q 0x13 4 0 0])).map (·.1) = some 1 ∧ (nextFlit (p [q 0x20 5 3 1024, q 0x13 4 0 1023])).map (·.1) = some 0
    ∧ (p [q 0x20 5 3 0]).queue[0]? = some (q 0x20 5 3 0) ∧ 0 < (p []).credits[(5 : Fin 8)] ∧ (q 0x20 5 3 0).full (p []).txE = true := by decide

/-- Core 0 with one engine command; group 3 is the root alone, with the core complex. -/
def sG (c : Cmd) (sent fin : Bool) : State :=
  { withGraph sE (fun g => { g with tensors := [{ tens with rank := 2, dim := Vector.replicate 5 0 }] }) with
    engines := [{ run0 1 with cmd := c, sent := sent, fin := fin }], groups := [(3, 0x83E0000400000000)] }
def theRun (s : State) : Running := s.engines.headD (run0 0)
/-- The region reads without a stall. -/
def readsRegion (s : State) (w : DWord) (n : Nat) : Bool :=
  match readRegion s 0 (viaOf s (theRun s) (oneGraph false [])) 0 (oneGraph false []) [] (regionOf w) n with
  | .ok _ => true
  | .error _ => false

/-- A gather of one row, outside its tensor; transforms; stirrup commands on a lane of the graph, and on one that is not. -/
theorem witness_EnginesGoOn :
    let ga := sG (.gather 0x0000020000000000 0x6000000000000064 0x2000000000000000 1 4) false false
    let lane := { StirLane.reset with owner := some (0, 0) }
    let pv := { sG (.pv 0 0 0 1) false false with stir := [(0, lane)] }
    let r := theRun ga
    ga.engines.find? (fun r => r.id = 1) = some r ∧ (graphOf ga 0 0).isSome = true ∧ windowWaits ga r = false ∧ chainWaits ga r = false
    ∧ regionOf 0x0000020000000000 = .tensor 1 0 0 ∧ regionOf 0x2000000000000000 = .tile 0 0
    ∧ (tensorOf ((graphOf ga 0 0).getD (oneGraph false [])) 1).isSome = true
    ∧ (gatherRows 0 (viaOf ga r (oneGraph false [])) 0 { tens with rank := 2, dim := Vector.replicate 5 0 } [] 4 [0] ga).2.2.isNone = true
    ∧ readsRegion ga 0x2000000000000000 512 = true ∧ readsRegion ga 0x6000000000000000 8 = true
    ∧ (writeRegion ga 0 (viaOf ga r (oneGraph false [])) 0 1 (oneGraph false []) (regionOf 0x6000000000000064) 0 [1, 2]).stop.isNone = true
    ∧ strangeLane pv (theRun pv) 0 1 = none ∧ strangeLane pv (theRun pv) 0 2 = some 1
    ∧ (match stirLanes (viaOf pv r (oneGraph false [])) (theRun pv) 0 0 [0] pv with | .ok _ => true | .error _ => false) = true := by decide

/-- Collectives that end, that go on, that begin; one whose group has a port which is down; a reduction that an earlier one keeps waiting. -/
theorem witness_CollectivesGoOn :
    let w : DWord := 0x83E0000400000000
    let s := sG (.bar 3 1) false false
    let red := fun (n : Nat) => Cmd.red .sum 0x2000000000000000 0x2000000000000000 1 0 0 3 0 n
    let two := { sG (red 2) false false with engines := [{ run0 1 with cmd := red 2 }, { run0 2 with cmd := red 1 }] }
    (theRun (sG (.bar 3 1) true true)).fin = true ∧ (theRun s).fin = false ∧ (theRun s).sent = false ∧ (theRun (sG (.bar 3 1) true false)).sent = true
    ∧ (theRun s).cmd.coll = some (3, 1) ∧ (opOf s 3 1).aborted = false ∧ grpPorts (groupOf s 3) = [] ∧ grpIsRoot w = true
    ∧ grpIsRoot 0x8020000C00000000 = false ∧ grpPorts 0x8020000C00000000 = [1, 0] ∧ (portOf s 1).up = false
    ∧ openWaits (sG (red 2) false false) 3 2 = false ∧ openWaits two 3 2 = true
    ∧ (match collSource s (theRun s) (oneGraph false []) 0x2000000000000000 1 with | .ok _ => true | .error _ => false) = true := by decide

/-- An entry whose source has the residue of another word beside it, and one whose has not; an operation whose command has ended is over. -/
theorem witness_EntryChecks :
    let e := placeEntry State.reset [0x00C0186080056000] (.fmadF32 (.v 3) (v 1) (o .nW))
    let bad := modCore e 0 (fun k => modElem k 0 (fun x => { x with r := { x.r with resid := [({ place := .v 1, lane := 0 }, 3)] } }))
    let i : Dec Instr := .ok (.fmadF32 (.v 3) (v 1) (o .nW))
    entryCheck e { core := 0, elem := 0 } i = none ∧ (entryCheck bad { core := 0, elem := 0 } i).isSome = true := by decide

/-- A graph that has committed: its operator ends with the round, or has the budget of rounds `n` of which `k` have run; it may be about to stop. -/
def committed (n k qd : Nat) (stop : Bool) : State :=
  withGraph sE (fun g => modSt { g with run := .boundary, lastVoid := false, stopNext := stop
                                        ops := g.ops.map (fun d => { d with rounds := n, t := 4, limit := 15, qd := qd }) } 0
    (fun st => { st with arm := st.arm.map (fun u => { u with rcnt := k, last := 3 }) }))
/-- A demand that lacks positions 0 to 7 of operator 0, of whose cone 0 to 7 are left. -/
def lacks : Demand :=
  { demandDone false with prog := { a := 0, b := 7, s := 1 }, trig := false, cone := [(0, upTo 8)], left := [(0, upTo 8)], total := 8, lack := upTo 8 }

/-- A unit that ends with its only round, one that goes on, one at its last round that does not end, and a graph that stops. -/
theorem witness_BoundaryAfterCommit :
    let at' := fun (s : State) => (graphOf s 0 0).getD (oneGraph false [])
    let full := fun (s : State) => overRounds ((graphOf (recordStep s 0 0 (at' s)) 0 0).getD (oneGraph false []))
    (at' (committed 1 0 0 false)).run = .boundary ∧ (at' (committed 1 0 0 false)).lastVoid = false ∧ full (committed 1 0 0 false) = []
    ∧ full (committed 3 1 0 false) = [] ∧ full (committed 2 1 0 false) = [0]
    ∧ ((graphOf (recordStep (committed 1 0 0 true) 0 0 (at' (committed 1 0 0 true))) 0 0).map (·.stopNext)) = some true
    -- the recorded units: one of a queue, one of no queue that begins at F; a demand that it feeds
    ∧ (∃ u, (stAt (at' (committed 1 0 4 false)) 0).arm = some u ∧ (opAt (at' (committed 1 0 4 false)) 0).qd ≠ 0
        ∧ (opAt (at' (committed 1 0 4 false)) 0).rounds = 1)
    ∧ (∃ u, (stAt (at' (committed 1 0 0 false)) 0).arm = some u ∧ u.stride = 1 ∧ (stAt (at' (committed 1 0 0 false)) 0).f = 0 + u.step * 4 + u.first)
    ∧ portsDone (committed 3 1 0 false) (at' (committed 3 1 0 false)) 0 = false ∧ (opAt (at' (committed 3 1 0 false)) 0).rounds = 3
    ∧ lacks.done = false ∧ lacks.slot = 0 ∧ lacks.opx.toNat = 0 ∧ ({ lacks with opx := 1 } : Demand).opx.toNat ≠ 0
    -- a demand that is over, one that has not triggered, one whose last positions a triggered unit holds
    ∧ lacks.planned = true ∧ ({ lacks with left := [(0, [])], cone := [(0, [8])] } : Demand).left = [(0, [])]
    ∧ (∃ u, (stAt (at' (committed 3 1 0 false)) 0).arm = some u ∧ u.trig = false ∧ ∃ t ∈ u.pos (opAt (at' (committed 3 1 0 false)) 0), t ∈ coneAt lacks.cone 0) := by
  refine ⟨by decide, by decide, by decide, by decide, by decide, by decide, ⟨_, rfl, by decide⟩, ⟨_, rfl, by decide⟩, by decide, by decide, by decide,
    by decide, by decide, by decide, by decide, by decide, _, rfl, by decide⟩

/-- A graph whose operator is not armed and needs positions 0 to 7, which a live demand asks for. -/
def needs : State :=
  let s := withGraph (committed 2 0 0 false) (fun g => modSt g 0 (fun st => { st with arm := none, need := [{ a := 0, b := 7, s := 1 }] }))
  withPart s (fun x => { x with demands := [(0, lacks)] })

/-- An operator that needs nothing yet and a demand on it; two candidates, both armable, of which tile step 0 comes first; a unit that stays armed. -/
theorem witness_PlanningAndArming :
    let g := (graphOf needs 0 0).getD (oneGraph false [])
    let cs := candidates (partOf needs 0) 0 g 0
    lacks.done = false ∧ 1 ≤ lacks.prog.s ∧ (stAt (oneGraph false []) 0).need = [] ∧ (lacks.prog.clamp 0 15).mem 7 = true
    ∧ produced (opAt g 0) (stAt g 0) 7 = false ∧ (stAt g 0).arm = none ∧ cs.map (fun c => (c.step, c.u)) = [(0, [0, 1, 2, 3]), (1, [4, 5, 6, 7])]
    ∧ cs.all (fun c => inputsReady g (fun _ => 0) 0 (execution (opAt g 0) (stAt g 0) c).2 && (makeRoom g (fun _ => 0) 0).isSome
        && (freeSlot (partOf needs 0)).isSome) = true
    ∧ cs.map (fun c => (c.promoted, c.prio, c.age)) = [(false, 3, 0), (false, 3, 0)]
    ∧ (stAt (oneGraph false []) 0).arm ≠ none := by decide

/-- A round with a checkpoint to record, of a keeper beside which the residue of another word stands. -/
theorem witness_RecordIsChecked :
    let s := withGraph { sE with frames := [(3, { Frame.reset with v := true, owner := 0 })], fdtCount := 16, tableBase := 14 } (fun g =>
      { g with run := .ended, ckpts := [{ opx := 0, base := 0x30000, nslot := 0 }]
               ops := g.ops.map (fun d => { d with limit := 15, ins := [{ kind := 5, prod := 0, p1 := 1, p2 := 0 }] }) })
    let t := modCore s 0 (fun k => modElem k 0 (fun x => { x with opx := 0, r := { x.r with resid := [({ place := .kGain 0, lane := 5 }, 6)] } }))
    ∃ g, graphOf t 0 0 = some g ∧ g.run = .ended ∧ g.fault = none ∧ commitClash t g = none ∧ (recordCheck t 0 g).isSome = true :=
  ⟨_, rfl, by decide, by decide, by decide, by decide⟩

/-! ### Ill-formed steps are refused, one for each check -/

def rot84 : Opnd := { src := .v 1, cls := .rot 2 4, neg := false }
def negated : Opnd := { src := .v 1, cls := .plain, neg := true }
def permuted : Opnd := { src := .v 1, cls := .rot 2 1, neg := false }
def expanded : Opnd := { src := .v 1, cls := .x4 1 0, neg := false }

/-- R264, R279: DIST at or above the segment; NEG, a permute class or an expand where the instruction accepts none. -/
theorem test_wf_modifiers :
    rot84.wf .fp = false ∧ (Instr.faddF32 (.v 3) rot84 (v 2)).wf = false ∧ (Instr.and (.v 3) negated (v 2)).wf = false
    ∧ (Instr.iadd false (.v 3) expanded (v 2)).wf = false ∧ (Instr.and (.v 3) permuted (v 2)).wf = true ∧ permuted.wf .none = false := by decide

/-- R278, R283: the classes of destinations. -/
theorem test_wf_destinations :
    (Instr.faddF32 (.p 1) (v 1) (v 2)).wf = false ∧ (Instr.fcmpEq (.v 1) (v 1) (v 2)).wf = false ∧ (Instr.fmadF32 .nul (v 1) (v 2)).wf = false
    ∧ (Instr.fmadF32 (.m 1) (v 1) (v 2)).wf = false ∧ (Instr.pvec (.m 1) 0).wf = false ∧ (Instr.movm (.p 1) 0).wf = false ∧ (Instr.movmP (.m 1) (o (.m 0))).wf = false
    ∧ (Instr.hldI false (.m 1) (v 1)).wf = false := by decide

/-- R289, R291 to R295, R300: negation of an integer logic source, of an integer conversion's expand; positions; the unused source; G = 0. -/
theorem test_wf_lane_fields :
    (Instr.cvt .f32i32 (.v 3) expanded).wf = false ∧ (Instr.pack .e4m3 4 (.v 3) (v 1) (v 2)).wf = false ∧ (Instr.pack .i8 0 (.v 3) expanded (v 2)).wf = false
    ∧ (Instr.unpk .f16 2 (.v 3) (v 1) (v 0)).wf = false ∧ (Instr.unpk .f16 0 (.v 3) (v 1) (v 2)).wf = false ∧ (Instr.unpk .e2m1s 0 (.v 3) expanded (v 2)).wf = false
    ∧ (Instr.lrd .xor 0 true (.v 5) (v 4)).wf = false ∧ (Instr.redAdd .f32 0 true (.v 5) (v 4)).wf = false ∧ (Instr.redAdd .i32 1 true (.v 5) expanded).wf = false
    ∧ (Instr.scanAdd .i32 1 (.v 5) expanded).wf = false ∧ (Instr.pblk 2 0 2).wf = false ∧ (Instr.xpnd .f16 (.v 3) (v 1)).wf = false
    ∧ (Instr.qidx .bf16 6 (.v 3) expanded).wf = false := by decide

/-- R311, R337 to R341. -/
theorem test_wf_hide_matrix :
    (Instr.hadd negated (v 2)).wf = false ∧ (Instr.hmax true (v 1) negated).wf = false ∧ (Instr.hcas (v 1) (v 2) negated).wf = false
    ∧ (Instr.bdot .e4m3 0 128 (.v 6) (v 1) (v 2) (.v 0)).wf = false ∧ (Instr.bdot .e4m3 31 32 (.v 6) (v 1) (v 2) (.v 0)).wf = false
    ∧ (Instr.bdot .e4m3 0 31 (.v 6) (v 1) (v 2) (.v 3)).wf = false ∧ (Instr.bdot .e4m3 1 31 .hl (v 1) (v 2) (.v 0)).wf = false
    ∧ (Instr.bdotSet 0 (.m 6) (v 1)).wf = false ∧ (Instr.scacc .nul (.v 6) (.v 4) (.v 5)).wf = false
    ∧ (Instr.scanAff 4 (.p 3) (v 1) (v 2) (v 7)).wf = false := by decide

/-- R57 to R64, R31 to R33: packets and flits. -/
theorem test_wf_packets_flits :
    (Instr.demand 1 0 0 3 true 0 0 1).wf = false ∧ (Instr.demand 1 0 0 2 true 0 0 0).wf = false ∧ (Instr.branch 1 .always false 0 0 0 0 0).wf = false
    ∧ (Instr.idle 0 (flit 0x01 0 0)).wf = false ∧ (Instr.mcast 0 (flit 0x10 2 0)).wf = false ∧ (Instr.idle 0 { flit 0 0 0 with ver := 2 }).wf = false
    ∧ (Instr.idle 0 { flit 0 0 0 with rsv := true }).wf = false ∧ (Instr.idle 0 { flit 0 0 0 with payload := [] }).wf = false
    ∧ (Instr.keySlotLoad 0 0 0 []).wf = false := by decide

/-- R318 to R322, R326 to R332, R344: engine, KV, array and bank fields. -/
theorem test_wf_engines_array :
    (Instr.xf 0 (.c 4) (.c 5) 512 .z 0 true).wf = false ∧ (Instr.xf 1 (.c 4) (.c 5) 512 (.c 6) 0 false).wf = false
    ∧ (Instr.collRed .rsm (.c 4) (.c 5) 12 1 2 77 4).wf = false ∧ (Instr.collRed .sum (.c 4) (.c 5) 12 0 0 77 4).wf = false
    ∧ (Instr.kvApp (.c 4) 0).wf = false ∧ (Instr.kvApp (.c 4) 4096).wf = false ∧ (Instr.kvFork (.c 4) (.c 5) 65537).wf = false
    ∧ (Instr.tstep 0 true 0 1 0 0).wf = false ∧ (Instr.smode 0 7 0 1 0 .dense .e4m3).wf = false ∧ (Instr.smode 0 0 11 0 1 .dense .e4m3).wf = false
    ∧ (Instr.smode 0 0 0 0 0 .indexed .f16).wf = false ∧ (Instr.smode 0 0 0 0 0 .affine .e2m1s).wf = false ∧ (Instr.sload 0 true 1 0).wf = false
    ∧ (Instr.sgain 0 (.c 2) true 1).wf = false ∧ (Instr.stinv 0 255 1).wf = false ∧ (Instr.stsz 0 257).wf = false := by decide

/-- R352 to R365: shift counts, `ins` to z, strides, engine masks, trap codes, status registers. -/
theorem test_wf_scalar_system :
    (Instr.seqShl (.c 1) (.c 2) (.imm 64)).wf = false ∧ (Instr.ins .z 1 0).wf = false ∧ (Instr.seqDemand true (.c 1) (.c 2) (.c 3) 5 6 0).wf = false
    ∧ (Instr.waitc (.engines 0) (.c 1) (.c 0) (.c 0)).wf = false ∧ (Instr.trap (.c 1) 0xFFF0).wf = false ∧ (Instr.rdst (.c 1) 2 96).wf = false
    ∧ (Instr.rdst (.c 1) 6 0).wf = false ∧ (Instr.wrst (.c 1) 0 0).wf = false ∧ (Instr.wrst (.c 1) 1 0).wf = false := by decide

/-! ### The decoder refuses by name (R254, R256 to R264) -/

/-- The entry is refused with this code. -/
def refusesWith (seq : Bool) (w : DWord) (next : Option DWord) (code : DecErr) : Bool :=
  match decodeEntry seq w next with
  | .error e => decide (e = code)
  | .ok _ => false

def refusesPacket (w0 w1 w2 w3 : DWord) (code : DecErr) : Bool :=
  match decodePacket w0 w1 w2 w3 with
  | .error e => decide (e = code)
  | .ok _ => false

/-- Unassigned opcodes and a continuation as an entry; entries on the wrong list; a continuation of another stamp, missing, or not wanted;
a reserved source code; DIST at its segment; a reserved modifier class; a result class; a field of no meaning; a `xpnd` without an expand (the model's reading); an x8 group of 4; a
rectangle past row 7; an XIMM bit that a transform does not use. -/
theorem test_refuses_entries :
    (refusesWith false 0x0107F80000000000 none .contMismatch
    && refusesWith false 0x0100B00000000000 none .unassigned
    && refusesWith true 0x0107880000000000 none .unassigned
    && refusesWith false 0x0106900000000012 none .wrongList
    && refusesWith true 0x0100006080004000 none .wrongList
    && refusesWith false 0x0108786080004000 (some 0x0117F8A000000000) (.inX .contMismatch)
    && refusesWith false 0x0100786080004000 none .contMismatch
    && refusesWith false 0x0108006080004000 (some 0x0107F8A000000000) .contMismatch
    && refusesWith false 0x0100007F80004000 none .reservedOperand
    && refusesWith false 0x0100006094404000 none .reservedModifier
    && refusesWith false 0x01000060E0004000 none .reservedModifier
    && refusesWith false 0x0100052080004000 none .operandClass
    && refusesWith false 0x0100806080004000 none .reservedField
    && refusesWith false 0x0103B06080010000 none .operandClass
    && refusesWith false 0x01000060C3904000 none .expand
    && refusesWith true 0x0107400000381000 none .rectangle
    && refusesWith true 0x010EB88281000400 (some 0x0107F8C000000001) (.inX .reservedField)) = true := by decide

/-- A reserved bit; an unknown opcode; a stride of 0; DEP = 3. -/
theorem test_refuses_packets :
    (refusesPacket 0x0000000100010000 0x0 0x0 0x0 .packetReserved
    && refusesPacket 0x000000000001000B 0x0 0x0 0x0 .packetCode
    && refusesPacket 0x0001860500010002 0xA 0x14 0x0 .packetRange
    && refusesPacket 0x0001C60500010002 0xA 0x14 0x1 .packetCode) = true := by decide

/-! ### Results, from the worked examples and tables of the manual, or by hand from its rules -/

def lane0 (w : Word) : Lanes := Lanes.zero.set 0 w
/-- Element 0 with v1, v2 and v3 the same in every lane. -/
def sV (a b d : Word) : State := withElem sE (fun r => { r with v := ((r.v.set 1 (Lanes.all a)).set 2 (Lanes.all b)).set 3 (Lanes.all d) })
/-- Element 0 with v1 and v2 given by lane. -/
def sL (a b : List Word) : State :=
  withElem sE (fun r => { r with v := (r.v.set 1 (Vector.ofFn (fun i => a.getD i.val 0))).set 2 (Vector.ofFn (fun i => b.getD i.val 0)) })
/-- The result in flight after one entry, in lane 0; and in a lane. -/
def resAt (s : State) (i : Instr) (n : Fin 32) : Word :=
  match exec i s with
  | .next t => (((elemOf (curCore t) 0).r.pipe.head?).map (fun p => p.res[n])).getD 0xDEADBEEF
  | _ => 0xDEADBEEF
def res (s : State) (i : Instr) : Word := resAt s i 0
/-- The sticky flags after one entry. -/
def flagsOf (s : State) (i : Instr) : Flags :=
  match exec i s with
  | .next t => (elemOf (curCore t) 0).r.flags
  | _ => 0x1F

/-- R284, R236: 1 + 2^−24 is a tie; the least subnormal times 0.5 is a tie; −0 below +0. -/
theorem test_float_add_mul :
    res (sV 0x3F800000 0x33800000 0) (.faddF32 (.v 3) (v 1) (v 2)) = 0x3F800000 ∧ res (sV 0x3F800000 0x3F800000 0) (.fsubF32 (.v 3) (v 1) (v 2)) = 0
    ∧ res (sV 1 0x3F000000 0) (.fmulF32 (.v 3) (v 1) (v 2)) = 0 ∧ res (sV 0x80000000 0 0) (.fminF32 (.v 3) (v 1) (v 2)) = 0x80000000
    ∧ res (sV 0x80000000 0 0) (.fmaxF32 (.v 3) (v 1) (v 2)) = 0 := by decide

/-- R284: (1 + 2^−12)² = 1 + 2^−11 + 2^−24 is rounded once, after the addend. -/
theorem test_float_fused :
    res (sV 0x3F800800 0x3F800800 0xBF801000) (.fmadF32 (.v 3) (v 1) (v 2)) = 0x33800000
    ∧ res (sV 0x3F800800 0x3F800800 0x3F801000) (.fmsbF32 (.v 3) (v 1) (v 2)) = 0x33800000
    ∧ res (sV 0x3F800800 0x3F800800 0x3F801000) (.fnmaF32 (.v 3) (v 1) (v 2)) = 0xB3800000 := by decide

/-- R237, R279: the halves of a lane word: 65 504 + 65 504 overflows to +∞, 1 + 1 = 2; in BF16, 1 · 2 = 2. -/
theorem test_float_half :
    res (sV 0x7BFF3C00 0x7BFF3C00 0) (.faddHalf false (.v 3) (v 1) (v 2)) = 0x7C004000
    ∧ res (sV 0x3F803F80 0x40003F80 0) (.fmulHalf true (.v 3) (v 1) (v 2)) = 0x40003F80
    ∧ res (sV 0x3C003C00 0x3C004000 0x3C003C00) (.fmadHalf false (.v 3) (v 1) (v 2)) = 0x40004200
    ∧ res (sV 0x3C003C00 0x3C004000 0x3C003C00) (.fnmaHalf false (.v 3) (v 1) (v 2)) = 0x0000BC00
    ∧ res (sV 0x3C003C00 0x3C004000 0x3C003C00) (.fmsbHalf false (.v 3) (v 1) (v 2)) = 0x00003C00
    ∧ res (sV 0x3C003C00 0x3C004000 0) (.fsubHalf false (.v 3) (v 1) (v 2)) = 0x0000BC00
    ∧ res (sV 0x3C003C00 0x3C004000 0) (.fminHalf false (.v 3) (v 1) (v 2)) = 0x3C003C00
    ∧ res (sV 0x3C003C00 0x3C004000 0) (.fmaxHalf false (.v 3) (v 1) (v 2)) = 0x3C004000 := by decide

/-- R240, R285: flags of a tie, of a subnormal tie, of a division by zero, and of a signalling comparison with a NaN. -/
theorem test_float_flags :
    flagsOf (sV 0x3F800000 0x33800000 0) (.faddF32 (.v 3) (v 1) (v 2)) = flFX ∧ flagsOf (sV 3 0x3F000000 0) (.fmulF32 (.v 3) (v 1) (v 2)) = flFU ||| flFX
    ∧ flagsOf (sV 0 0 0) (.frcp (.v 3) (v 1)) = flFZ ∧ flagsOf (sV 0x7FC00001 0 0) (.fcmpLt (.p 0) (v 1) (v 2)) = flFI
    ∧ flagsOf (sV 0x7FC00001 0 0) (.fcmpEq (.p 0) (v 1) (v 2)) = 0 ∧ flagsOf (sV 0x7F7FFFFF 0x7F7FFFFF 0) (.faddF32 (.v 3) (v 1) (v 2)) = flFO ||| flFX := by decide

/-- R285: a NaN is below nothing and unequal to itself; +0 equals −0. -/
theorem test_compare :
    res (sV 0x7FC00001 0 0) (.fcmpLt (.p 0) (v 1) (v 2)) = 0 ∧ res (sV 0x7FC00001 0x7FC00001 0) (.fcmpNe (.p 0) (v 1) (v 2)) = 1
    ∧ res (sV 0x80000000 0 0) (.fcmpEq (.p 0) (v 1) (v 2)) = 1 ∧ res (sV 0x80000000 0 0) (.fcmpLe (.p 0) (v 1) (v 2)) = 1
    ∧ res (sV 0x40000000 0xFF800000 0) (.fcmpGt (.p 0) (v 1) (v 2)) = 1 ∧ res (sV 0x40000000 0x7F800000 0) (.fcmpGe (.p 0) (v 1) (v 2)) = 0
    ∧ res (sV 0 0x7F800001 0) (.fcmpUn (.p 0) (v 1) (v 2)) = 1 := by decide

set_option maxRecDepth 16384 in
set_option exponentiation.threshold 512 in
/-- R286, R241: 1/3, √2, 1/√4, 2^1, log₂ 8, 1/0. -/
theorem test_unary :
    res (sV 0x40400000 0 0) (.frcp (.v 3) (v 1)) = 0x3EAAAAAB ∧ res (sV 0x40000000 0 0) (.fsqrt (.v 3) (v 1)) = 0x3FB504F3
    ∧ res (sV 0x40800000 0 0) (.frsq (.v 3) (v 1)) = 0x3F000000 ∧ res (sV 0x3F800000 0 0) (.fexp2 (.v 3) (v 1)) = 0x40000000
    ∧ res (sV 0x41000000 0 0) (.flog2 (.v 3) (v 1)) = 0x40400000 ∧ res (sV 0 0 0) (.frcp (.v 3) (v 1)) = 0x7F800000 := by decide

/-- R287, R288: the class of a negative subnormal is 2; `fsel` takes A where the predicate's bit is 1. -/
theorem test_select_class :
    res (sV 0x80000001 0 0) (.fclass (.p 0) (v 1) 4) = 1 ∧ res (sV 0x80000001 0 0) (.fclass (.p 0) (v 1) 0x1FB) = 0
    ∧ res (withElem (sV 5 9 0) (fun r => { r with p := r.p.set 2 1 })) (.fsel (.v 3) (v 1) (v 2) 2) = 5
    ∧ resAt (withElem (sV 5 9 0) (fun r => { r with p := r.p.set 2 1 })) (.fsel (.v 3) (v 1) (v 2) 2) 1 = 9 := by decide

/-- R289: wraps, signed and unsigned products, orders and shifts. -/
theorem test_integer :
    let s := sV 0xFFFFFFFF 1 7
    let t := sV 0x80000001 33 7
    res s (.iadd false (.v 3) (v 1) (v 2)) = 0 ∧ res s (.isub false (.v 3) (v 2) (v 1)) = 2 ∧ res s (.imul false (.v 3) (v 1) (v 1)) = 1
    ∧ res s (.imulh false (.v 3) (v 1) (v 1)) = 0 ∧ res s (.imulh true (.v 3) (v 1) (v 1)) = 0xFFFFFFFE ∧ res s (.imad false (.v 3) (v 1) (v 1)) = 8
    ∧ res s (.imin false (.v 3) (v 1) (v 2)) = 0xFFFFFFFF ∧ res s (.imax true (.v 3) (v 1) (v 2)) = 0xFFFFFFFF ∧ res t (.shl (.v 3) (v 1) (v 2)) = 2
    ∧ res t (.shr false (.v 3) (v 1) (v 2)) = 0xC0000000 ∧ res t (.shr true (.v 3) (v 1) (v 2)) = 0x40000000 ∧ res t (.rol (.v 3) (v 1) (v 2)) = 3
    ∧ res t (.popc (.v 3) (v 1)) = 2 ∧ res (sV 0 0 0) (.clz (.v 3) (v 1)) = 32 := by decide

/-- R289, R290: logic, and the two orders of 0xFFFFFFFF and 1. -/
theorem test_logic_compare :
    let s := sV 0xFF00FF00 0x0FF00FF0 0
    let t := sV 0xFFFFFFFF 1 0
    res s (.and (.v 3) (v 1) (v 2)) = 0x0F000F00 ∧ res s (.or (.v 3) (v 1) (v 2)) = 0xFFF0FFF0 ∧ res s (.xor (.v 3) (v 1) (v 2)) = 0xF0F0F0F0
    ∧ res s (.andn (.v 3) (v 1) (v 2)) = 0xF000F000 ∧ res t (.icmpLt false (.p 0) (v 1) (v 2)) = 1 ∧ res t (.icmpLt true (.p 0) (v 1) (v 2)) = 0
    ∧ res t (.icmpLe false (.p 0) (v 1) (v 2)) = 1 ∧ res t (.icmpGt true (.p 0) (v 1) (v 2)) = 1 ∧ res t (.icmpGe false (.p 0) (v 1) (v 2)) = 0
    ∧ res t (.icmpEq true (.p 0) (v 1) (v 1)) = 1 ∧ res t (.icmpNe true (.p 0) (v 1) (v 1)) = 0 := by decide

/-- R291: 2.5 to even; out of range; −1 to n32; 16 777 217 to FP32; the narrowing pairs. -/
theorem test_convert :
    res (sV 0x40200000 0 0) (.cvt .i32f32 (.v 3) (v 1)) = 2 ∧ res (sV 0x50000000 0 0) (.cvt .i32f32 (.v 3) (v 1)) = 0x7FFFFFFF
    ∧ flagsOf (sV 0x50000000 0 0) (.cvt .i32f32 (.v 3) (v 1)) = flFI ∧ res (sV 0xBF800000 0 0) (.cvt .n32f32 (.v 3) (v 1)) = 0
    ∧ res (sV 0x01000001 0 0) (.cvt .f32i32 (.v 3) (v 1)) = 0x4B800000 ∧ res (sV 0xFFFFFFFF 0 0) (.cvt .f32n32 (.v 3) (v 1)) = 0x4F800000
    ∧ res (sV 0x80000000 0 0) (.cvt .n32i32 (.v 3) (v 1)) = 0 ∧ res (sV 0x80000000 0 0) (.cvt .i32n32 (.v 3) (v 1)) = 0x7FFFFFFF := by decide

/-- R292, R293: the manual's `pack` of 5.0; saturation to i8 and x4; the spare of code 8; a sign-extended i16. -/
theorem test_pack_unpk :
    res (sV 0x40A00000 0 0) (.pack .e4m3 2 (.v 3) (v 1) (v 2)) = 0x004A0000 ∧ res (sV 0xFFFFFF00 0 0) (.pack .i8 1 (.v 3) (v 1) (v 2)) = 0x8000
    ∧ res (sV 99 0 0) (.pack .x4 7 (.v 3) (v 1) (v 2)) = 0xF0000000 ∧ res (sV 0x00000080 0x38 0) (.unpk .e2m1s 1 (.v 3) (v 1) (v 2)) = 0x3F800000
    ∧ res (sV 0x8000FFFF 0 0) (.unpk .i16 1 (.v 3) (v 1) (v 0)) = 0xFFFF8000 ∧ res (sV 0x8000FFFF 0 0) (.unpk .n16 1 (.v 3) (v 1) (v 0)) = 0x8000 := by decide

/-- R264: rotation by 3 and broadcast of lane 5 in segments of 8, butterfly 1; R294: `perm` by 31 − i. -/
theorem test_permutes :
    resAt sE (.mov (.v 3) ⟨.lid, .rot 3 3, false⟩) 6 = 1 ∧ resAt sE (.mov (.v 3) ⟨.lid, .bcast 3 5, false⟩) 17 = 21
    ∧ resAt sE (.mov (.v 3) ⟨.lid, .bfly 3 1, false⟩) 6 = 7 ∧ resAt (sL [] [31, 30]) (.perm (.v 3) (o .lid) (v 2)) 1 = 30 := by decide

/-- R295, R247, R248: (2^24 + 1) + (−2^24 + 1) is 2 in the pairwise tree; the first lane takes a minimum; prefix sums; XOR. -/
theorem test_reductions :
    let s := sL [0x4B800000, 0x3F800000, 0xCB800000, 0x3F800000] []
    let t := sL [1, 0xFFFFFFFF, 3, 4] []
    resAt s (.redAdd .f32 2 true (.v 5) (v 1)) 3 = 0x40000000 ∧ flagsOf s (.redAdd .f32 2 true (.v 5) (v 1)) = 0
    ∧ resAt t (.redMin .i32 2 false (.v 5) (v 1)) 0 = 0xFFFFFFFF ∧ resAt t (.redMin .i32 2 false (.v 5) (v 1)) 1 = 0
    ∧ resAt t (.redMax .n32 2 true (.v 5) (v 1)) 2 = 0xFFFFFFFF ∧ resAt t (.scanAdd .i32 2 (.v 5) (v 1)) 3 = 7
    ∧ resAt t (.lrd .xor 1 true (.v 5) (v 1)) 3 = 7 := by decide

/-- R296, R297: predicates, the count of all 32 bits, marks, constants. -/
theorem test_predicates_moves :
    let s := withElem (sV 5 0 0) (fun r => { r with p := (r.p.set 1 0xF0000003).set 2 0x5, m := r.m.set 6 0x2 })
    res s (.pand (.p 0) 1 2) = 1 ∧ resAt s (.pand (.p 0) 1 2) 1 = 0 ∧ resAt s (.por (.p 0) 1 2) 2 = 1 ∧ resAt s (.pxor (.p 0) 1 2) 0 = 0
    ∧ resAt s (.pandn (.p 0) 1 2) 1 = 1 ∧ resAt s (.pnot (.p 0) 1) 2 = 1 ∧ res s (.ptst (.p 0) (v 1)) = 1 ∧ resAt s (.pvec (.v 3) 1) 31 = 1
    ∧ res s (.pcnt (.v 3) 1) = 6 ∧ res s (.movi (.v 3) 0x20001) = 0xFFFE0001 ∧ res s (.moviH (.v 3) 0x3F80) = 0x3F800000
    ∧ resAt s (.movmP (.p 0) (o (.m 6))) 1 = 1 ∧ res s (.movm (.m 0) 1) = 0xF0000003 := by decide

/-- R302: the manual's two blocks of tokens 1. -/
theorem test_blkh :
    res (sV 1 0 0) (.blkh (.v 2) (v 1) (o .z)) = 0x45F49100 ∧ resAt (sV 1 0x45F49100 0) (.blkh (.v 3) (v 1) (v 2)) 31 = 0x63A49C9E := by decide

/-- R301: the manual's bank of 0, 0.5, 1, 2. -/
def bankQ : Bank :=
  { declared := true, kind := 0, zsub := false, act := false, swp := false, size := Vector.replicate 2 4
    ent := Vector.replicate 2 [(1, 0x3F000000), (2, 0x3F800000), (3, 0x40000000)], valid := Vector.replicate 2 15 }
def sQ (x : Word) : State := modCore (sV x 0 0) 0 (fun k => { k with banks := k.banks.set 2 bankQ })

theorem test_qidx :
    res (sQ 0x3F400000) (.qidx .f32 2 (.v 7) (v 1)) = 1 ∧ res (sQ 0x3FCCCCCD) (.qidx .f32 2 (.v 7) (v 1)) = 3 ∧ res (sQ 0xC0400000) (.qidx .f32 2 (.v 7) (v 1)) = 0
    ∧ res (sQ 0x7FC00000) (.qidx .f32 2 (.v 7) (v 1)) = 0 ∧ flagsOf (sQ 0x7FC00000) (.qidx .f32 2 (.v 7) (v 1)) = flFI
    ∧ res (withBank (sV 0x10 0 0) false) (.xpnd .f32 (.v 3) ⟨.v 1, .x4 0 1, false⟩) = 0x40000000 := by decide

set_option maxRecDepth 16384 in
/-- R337, R340: the manual's block product of 40 positions and its scaled sum. -/
theorem test_block_product :
    let s := withElem sE (fun r => { r with v := ((r.v.set 1 ((lane0 0x5555).set 4 0xB8)).set 2 ((lane0 0x2222).set 4 0x22)).set 3 (Lanes.all 0x4A) })
    let t := withElem sE (fun r => { r with
      v := (((r.v.set 6 ((lane0 0x41400000).set 1 0x40600000)).set 4 ((lane0 0x27F).set 1 0x27E)).set 5 ((lane0 0x280).set 1 0x27F)).set 7 Lanes.zero
      nbV := r.nbV.set 6 2 })
    resAt s (.bdot .e2m1s 0 39 (.v 6) (v 1) (v 2) (.v 3)) 0 = 0x41400000 ∧ resAt s (.bdot .e2m1s 0 39 (.v 6) (v 1) (v 2) (.v 3)) 1 = 0x40600000
    ∧ resAt s (.bdot .e2m1s 0 39 (.v 6) (v 1) (v 2) (.v 3)) 2 = 0 ∧ resAt t (.scacc (.v 7) (.v 6) (.v 4) (.v 5)) 31 = 0x41CE0000 := by decide

/-- R220: the manual's scan of four lanes with a keeper of state 8. -/
theorem test_scan :
    let s := withElem (sL [0x3F000000, 0x3F000000, 0x40000000, 0x3F800000] [0x3F800000, 0x40000000, 0x40400000, 0x40800000]) (fun r =>
      { r with k := r.k.set 0 { state := Lanes.all 0x41000000, gain := Lanes.all 0x3F800000 }, v := r.v.set 3 (Lanes.all 0x41000000) })
    resAt s (.scanAffk 2 0 (.v 4) (v 1) (v 2)) 0 = 0x40A00000 ∧ resAt s (.scanAffk 2 0 (.v 4) (v 1) (v 2)) 1 = 0x40900000
    ∧ resAt s (.scanAffk 2 0 (.v 4) (v 1) (v 2)) 3 = 0x41800000 ∧ resAt s (.scanAff 2 (.v 4) (v 1) (v 2) (v 3)) 2 = 0x41400000
    ∧ resAt s (.scanAffG 2 (.v 4) (v 1) (v 2) (v 3)) 3 = 0x3F000000 ∧ res s (.kget false (.v 4) 0) = 0x41000000 ∧ res s (.kget true (.v 4) 0) = 0x3F800000 := by
  decide

/-- Sequencer register 3 after one entry. -/
def c3 (s : State) (i : Instr) : DWord :=
  match exec i s with
  | .next t => cregVal t (.c 3)
  | _ => 0xDEADBEEF
/-- Where the boundary section goes on: LI of the entry is 5. -/
def goesTo (x y : DWord) (i : Instr) : Nat :=
  match exec i (let s := withC sB x y; { s with cur := { s.cur with li := 5 } }) with
  | .next t => (coreOf t 0).secLi
  | _ => 999

/-- R352: 64-bit wraps; shift counts are taken modulo 64; `sra` keeps the sign. -/
theorem test_scalar :
    let s := withC sB 0xFFFFFFFFFFFFFFFF 65
    c3 s (.seqAdd (.c 3) (.c 1) (.imm 1)) = 0 ∧ c3 s (.seqSub (.c 3) (.c 2) (.reg (.c 1))) = 66 ∧ c3 s (.seqMul (.c 3) (.c 1) (.reg (.c 1))) = 1
    ∧ c3 s (.seqAnd (.c 3) (.c 1) (.reg (.c 2))) = 65 ∧ c3 s (.seqOr (.c 3) (.c 2) (.imm 2)) = 67 ∧ c3 s (.seqXor (.c 3) (.c 1) (.reg (.c 1))) = 0
    ∧ c3 s (.seqShl (.c 3) (.c 1) (.reg (.c 2))) = 0xFFFFFFFFFFFFFFFE ∧ c3 s (.seqShr (.c 3) (.c 1) (.reg (.c 2))) = 0x7FFFFFFFFFFFFFFF
    ∧ c3 s (.sra (.c 3) (.c 1) (.reg (.c 2))) = 0xFFFFFFFFFFFFFFFF ∧ c3 s (.li (.c 3) 0xFFFFFF) = 0xFFFFFFFFFFFFFFFF
    ∧ c3 s (.ins (.c 3) 0xBEEF 3) = 0xBEEF000000000000 ∧ c3 s (.seqAdd (.c 3) .z (.imm 0xFFFFFF)) = 0xFFFFFFFFFFFFFFFF := by decide

/-- R354, R348: a branch is relative to its own LI; unsigned and signed orders differ; `loop` ends at 0, and on z at once. -/
theorem test_branches :
    goesTo 1 1 (.br .eq (.c 1) (.c 2) 2) = 7 ∧ goesTo 0xFFFFFFFFFFFFFFFF 1 (.br .ltu (.c 1) (.c 2) 2) = 0 ∧ goesTo 0xFFFFFFFFFFFFFFFF 1 (.br .lts (.c 1) (.c 2) 0x3FFFFFE) = 3
    ∧ goesTo 2 0 (.loop (.c 1) 0x3FFFFFE) = 3 ∧ goesTo 1 0 (.loop (.c 1) 0x3FFFFFE) = 0
    -- z reads 0
    ∧ goesTo 1 0 (.loop .z 0x3FFFFFE) = 0 := by decide

/-- What holds after one step. -/
def after (r : Host.Outcome State Fault Refusal) (f : State → Bool) : Bool :=
  match r with
  | .next t => f t
  | _ => false

/-- R356, R359: a post waits in the queue of the partition; `sig` of `max` leaves the greater word. -/
theorem test_post_sig :
    after (exec (.post (.c 1) (.c 2)) (withC sB 100 7)) (fun t => (partOf t 0).post = [{ off := 100, val := 7 }]) = true
    ∧ after (exec (.sig .max (.c 1) (.c 2)) { withC sB 100 7 with hide := [((partOf sB 0).hideKey 100, 9)] }) (fun t => hideRead t 0 100 = 9) = true := by
  decide

/-- R311: an `hadd` of an offset inside the hide space is buffered for every lane; at the size of the space it is a fault. -/
theorem test_hide_ops :
    after (exec (.hadd (v 1) (v 2)) (sV 100 7 0)) (fun t => (curCore t).hideOps.length = 32) = true
    ∧ after (exec (.hadd (v 1) (v 2)) (sV 262144 7 0)) (fun t => ((graphOf t 0 0).bind (·.fault)).isSome && (curCore t).hideOps.isEmpty) = true := by decide

/-- The step after `withFetchWord` fires the entry, or reads the packet. -/
theorem test_fetch_entry :
    after (step (State.reset.withFetchWord 64 0x0003082000000002))
      (fun t => ((elemOf (coreOf t 0) 0).r.pipe.head?).map (fun p => (p.dst, p.res[(31 : Fin 32)])) = some (.v 1 0, 1)) = true := by decide
theorem test_fetch_packet : after (step (State.reset.withFetchWord 256 0x00050000)) (fun t => (streamOf t 0 0).rp = 32) = true := by decide

/-- R8: a range includes both its ends; one whose end is below its start is empty. -/
theorem test_progression_includes_both_ends :
    (upTo 8).filter (fun i => ({ a := 0, b := 5, s := 2 } : Prog).mem i) = [0, 2, 4, 5] ∧ ({ a := 3, b := 2, s := 1 } : Prog).mem 3 = false := by decide

/-- R10: traffic between Q0 and Q3, or between Q1 and Q2, crosses two edges; between neighbours one; within a die none. -/
theorem test_edges_between_dies :
    (dieEdges 0 3).length = 2 ∧ (dieEdges 1 2).length = 2 ∧ (dieEdges 0 1).length = 1 ∧ (dieEdges 2 0) = (dieEdges 0 2) ∧ dieEdges 3 3 = [] := by decide


end Sys2Proof.Tests
end

section
/-! SUPPORT. What leaves both byte memories as they were (R4, R185): every function of the state that writes to neither, in the order
of the files that define them. Part of the proof of O60. -/

namespace Sys2Proof.Laws

open Sys2Proof.Machine Sys2Proof.Safety

@[simp] theorem foldl_memories {α : Type} {f : State → α → State}
    (hf : ∀ s x, (f s x).mem = s.mem ∧ (f s x).hostMem = s.hostMem) (l : List α) (s : State) :
    (l.foldl f s).mem = s.mem ∧ (l.foldl f s).hostMem = s.hostMem := by
  induction l generalizing s with
  | nil => exact ⟨rfl, rfl⟩
  | cons x r ih => exact ⟨(ih _).1.trans (hf s x).1, (ih _).2.trans (hf s x).2⟩

@[simp] theorem regGets_memories (s : State) (d : CReg) (w : DWord) : (regGets s d w).mem = s.mem ∧ (regGets s d w).hostMem = s.hostMem := by
  cases d <;> exact ⟨rfl, rfl⟩

/-! ### Machine/Access -/

@[simp] theorem stopClocks_memories (s : State) :
    (stopClocks s).mem = s.mem ∧ (stopClocks s).hostMem = s.hostMem := ⟨rfl, rfl⟩

@[simp] theorem takeSample_memories (s : State) (k v : Nat) :
    (takeSample s k v).mem = s.mem ∧ (takeSample s k v).hostMem = s.hostMem := by
  simp only [takeSample]
  split <;> simp

@[simp] theorem sampleLatency_memories (s : State) (die probe p : Nat) :
    (sampleLatency s die probe p).mem = s.mem ∧ (sampleLatency s die probe p).hostMem = s.hostMem := by
  simp [sampleLatency]

@[simp] theorem sampleCount_memories (s : State) (die probe p v : Nat) :
    (sampleCount s die probe p v).mem = s.mem ∧ (sampleCount s die probe p v).hostMem = s.hostMem := by
  simp [sampleCount]

@[simp] theorem passTlbs_memories (t : Token) (now : List Nat) (s : State) :
    (passTlbs t now s).mem = s.mem ∧ (passTlbs t now s).hostMem = s.hostMem := ⟨rfl, rfl⟩

@[simp] theorem passToken_memories (s : State) (cs : List Nat) (t : Token) :
    (passToken s cs t).mem = s.mem ∧ (passToken s cs t).hostMem = s.hostMem := by
  simp [passToken]

@[simp] theorem passTokens_memories (s : State) (cs : List Nat) :
    (passTokens s cs).mem = s.mem ∧ (passTokens s cs).hostMem = s.hostMem := by
  simp [passTokens]

/-! ### Machine/Arb -/

@[simp] theorem arbPlace_memories (s : State) (arbiter : Nat) (cls : BitVec 2) (port : Nat) (name : List Nat) :
    (arbPlace s arbiter cls port name).mem = s.mem ∧ (arbPlace s arbiter cls port name).hostMem = s.hostMem := ⟨rfl, rfl⟩

@[simp] theorem arbAsk_memories (s : State) (arbiter : Nat) (cls : BitVec 2) (port name : Nat) :
    (arbAsk s arbiter cls port name).mem = s.mem ∧ (arbAsk s arbiter cls port name).hostMem = s.hostMem := by
  simp only [arbAsk]
  split <;> simp

@[simp] theorem baseAsk_memories (s : State) (cls : BitVec 2) (port die name : Nat) :
    (baseAsk s cls port die name).mem = s.mem ∧ (baseAsk s cls port die name).hostMem = s.hostMem := by
  simp [baseAsk]

@[simp] theorem edgeAsk_memories (s : State) (cls : BitVec 2) (port die name : Nat) :
    (edgeAsk s cls port die name).mem = s.mem ∧ (edgeAsk s cls port die name).hostMem = s.hostMem := by
  simp only [edgeAsk]
  split <;> simp

@[simp] theorem hideAsk_memories (s : State) (bank : Nat) (cls : BitVec 2) (port : Nat) :
    (hideAsk s bank cls port).mem = s.mem ∧ (hideAsk s bank cls port).hostMem = s.hostMem := by
  simp only [hideAsk]
  split <;> simp

@[simp] theorem storeAsk_memories (s : State) (bank core elem : Nat) :
    (storeAsk s bank core elem).mem = s.mem ∧ (storeAsk s bank core elem).hostMem = s.hostMem := ⟨rfl, rfl⟩

@[simp] theorem dropLoads_memories (s : State) (cores : List Nat) :
    (dropLoads s cores).mem = s.mem ∧ (dropLoads s cores).hostMem = s.hostMem := ⟨rfl, rfl⟩

@[simp] theorem placeLoads_memories (s : State) (n : Nat) :
    (placeLoads s n).mem = s.mem ∧ (placeLoads s n).hostMem = s.hostMem := ⟨rfl, rfl⟩

@[simp] theorem returnLoad_memories (s : State) (r : LoadReq) :
    (returnLoad s r).mem = s.mem ∧ (returnLoad s r).hostMem = s.hostMem := by
  simp only [returnLoad]
  split <;> simp

@[simp] theorem returnLoads_memories (s : State) :
    (returnLoads s).mem = s.mem ∧ (returnLoads s).hostMem = s.hostMem := by
  simp [returnLoads]

@[simp] theorem arbStep_memories (n : Nat) (s : State) (a : Nat) :
    (arbStep n s a).mem = s.mem ∧ (arbStep n s a).hostMem = s.hostMem := by
  simp only [arbStep]
  split <;> simp

@[simp] theorem arbTick_memories (s : State) :
    (arbTick s).mem = s.mem ∧ (arbTick s).hostMem = s.hostMem := by
  simp [arbTick, apply_ite State.mem, apply_ite State.hostMem]

/-! ### Machine/Ops -/

@[simp] theorem hideRequest_memories (s : State) (p off : Nat) (cls : BitVec 2) (port : Nat) :
    (hideRequest s p off cls port).mem = s.mem ∧ (hideRequest s p off cls port).hostMem = s.hostMem := by
  simp [hideRequest]

@[simp] theorem queueReport_memories (s : State) (p : Nat) (fwd : Bool) (r : Report) :
    (queueReport s p fwd r).mem = s.mem ∧ (queueReport s p fwd r).hostMem = s.hostMem := by
  simp [queueReport, apply_ite State.mem, apply_ite State.hostMem]

@[simp] theorem raisePromotions_memories (s : State) (p slot : Nat) :
    (raisePromotions s p slot).mem = s.mem ∧ (raisePromotions s p slot).hostMem = s.hostMem := by
  simp only [raisePromotions]
  split <;> simp

@[simp] theorem armOnce_memories (s : State) (p slot : Nat) (g : Graph) :
    (armOnce s p slot g).mem = s.mem ∧ (armOnce s p slot g).hostMem = s.hostMem := by
  simp [armOnce]

@[simp] theorem armIdle_memories (s : State) (p slot : Nat) :
    (armIdle s p slot).mem = s.mem ∧ (armIdle s p slot).hostMem = s.hostMem := by
  simp only [armIdle]
  (repeat' split) <;> simp

@[simp] theorem armReleased_memories (s : State) (p : Nat) (before : List Nat) :
    (armReleased s p before).mem = s.mem ∧ (armReleased s p before).hostMem = s.hostMem := by
  simp [armReleased]

@[simp] theorem cancelSlot_memories (s : State) (p slot : Nat) :
    (cancelSlot s p slot).mem = s.mem ∧ (cancelSlot s p slot).hostMem = s.hostMem := by
  simp only [cancelSlot]
  split <;> simp

@[simp] theorem stopGraph_memories (s : State) (p slot : Nat) :
    (stopGraph s p slot).mem = s.mem ∧ (stopGraph s p slot).hostMem = s.hostMem := by
  simp [stopGraph]

@[simp] theorem stopSection_memories (s : State) (p slot core : Nat) :
    (stopSection s p slot core).mem = s.mem ∧ (stopSection s p slot core).hostMem = s.hostMem := by
  simp [stopSection]

@[simp] theorem stopSoon_memories (s : State) (p slot : Nat) :
    (stopSoon s p slot).mem = s.mem ∧ (stopSoon s p slot).hostMem = s.hostMem := by
  simp only [stopSoon]
  (repeat' split) <;> simp

@[simp] theorem takeFault_memories (site : Site) (s : State) (p slot : Nat) (r : Report) :
    (takeFault site s p slot r).mem = s.mem ∧ (takeFault site s p slot r).hostMem = s.hostMem := by
  simp only [takeFault]
  (repeat' split) <;> simp

@[simp] theorem takeHit_memories (s : State) (p slot : Nat) (r : Report) (h : Option Hit) :
    (takeHit s p slot r h).mem = s.mem ∧ (takeHit s p slot r h).hostMem = s.hostMem := by
  simp [takeHit]

@[simp] theorem faultElem_memories (s : State) (f : FaultInfo) :
    (faultElem s f).mem = s.mem ∧ (faultElem s f).hostMem = s.hostMem := by
  simp [faultElem]

@[simp] theorem faultSeq_memories (s : State) (f : FaultInfo) :
    (faultSeq s f).mem = s.mem ∧ (faultSeq s f).hostMem = s.hostMem := by
  simp only [faultSeq]
  split <;> simp

@[simp] theorem illegal_memories (s : State) :
    (illegal s).mem = s.mem ∧ (illegal s).hostMem = s.hostMem := by
  simp only [illegal]
  split <;> simp

@[simp] theorem seqGo_memories {f : State → State} {s : State} (hf : (f s).mem = s.mem ∧ (f s).hostMem = s.hostMem) :
    (seqGo s f).mem = s.mem ∧ (seqGo s f).hostMem = s.hostMem := by
  unfold seqGo
  split <;> simp [hf]

@[simp] theorem bndGo_memories {f : State → State} {s : State} (hf : (f s).mem = s.mem ∧ (f s).hostMem = s.hostMem) :
    (bndGo s f).mem = s.mem ∧ (bndGo s f).hostMem = s.hostMem := by
  refine seqGo_memories ?_
  split <;> simp [hf]

@[simp] theorem timedGo_memories {f : State → State} {s : State} (hf : (f s).mem = s.mem ∧ (f s).hostMem = s.hostMem) :
    (timedGo s f).mem = s.mem ∧ (timedGo s f).hostMem = s.hostMem := by
  refine seqGo_memories ?_
  split <;> simp [hf]

@[simp] theorem voidRound_memories (s : State) (p slot : Nat) :
    (voidRound s p slot).mem = s.mem ∧ (voidRound s p slot).hostMem = s.hostMem := by
  simp only [voidRound]
  split <;> simp

@[simp] theorem releaseHold_memories (s : State) (p slot : Nat) :
    (releaseHold s p slot).mem = s.mem ∧ (releaseHold s p slot).hostMem = s.hostMem := ⟨rfl, rfl⟩

@[simp] theorem acceptDemand_memories (s : State) (p k : Nat) (q : Ask) :
    (acceptDemand s p k q).mem = s.mem ∧ (acceptDemand s p k q).hostMem = s.hostMem := by
  simp only [acceptDemand]
  (repeat' split) <;> simp

@[simp] theorem cancelOn_memories (s : State) (p : Nat) (c : CancelReq) (slot : Nat) :
    (cancelOn s p c slot).mem = s.mem ∧ (cancelOn s p c slot).hostMem = s.hostMem := by
  simp only [cancelOn]
  (repeat' split) <;> simp

@[simp] theorem postCancel_memories (s : State) (p : Nat) (c : CancelReq) :
    (postCancel s p c).mem = s.mem ∧ (postCancel s p c).hostMem = s.hostMem := by
  simp [postCancel]

@[simp] theorem bumpWait_memories (s : State) (p slot : Nat) :
    (bumpWait s p slot).mem = s.mem ∧ (bumpWait s p slot).hostMem = s.hostMem := by
  simp only [bumpWait]
  (repeat' split) <;> simp

/-! ### Machine/Flags -/

@[simp] theorem holdResid_memories (s : State) (c : Fin 64) (e : Fin 96) (w : RWord) (held : BitVec 3) :
    (holdResid s c e w held).mem = s.mem ∧ (holdResid s c e w held).hostMem = s.hostMem := ⟨rfl, rfl⟩

@[simp] theorem saddleRead_memories (s : State) (li : Nat) (es : List (Fin 96)) (f : Fin 96 → RWord → Option (Fin 32)) :
    (saddleRead s li es f).mem = s.mem ∧ (saddleRead s li es f).hostMem = s.hostMem := by
  simp only [saddleRead]
  split <;> simp

@[simp] theorem portReads_memories (s : State) (i : Fin 16) (line : Fin 20) :
    (portReads s i line).mem = s.mem ∧ (portReads s i line).hostMem = s.hostMem := by
  simp only [portReads]
  split <;> simp

/-! ### Machine/Operands -/

@[simp] theorem elemEnd_memories (v : EView) (o : EOut) : (elemEnd v o).mem = v.s.mem ∧ (elemEnd v o).hostMem = v.s.hostMem := by
  unfold elemEnd
  split <;> simp

@[simp] theorem elemGo_memories (s : State) (f : EView → EOut) : (elemGo s f).mem = s.mem ∧ (elemGo s f).hostMem = s.hostMem := by
  unfold elemGo
  split <;> simp [elemView_s]

@[simp] theorem lane1_memories (t : NegTy) (lat : Nat) (d : Dst) (a : Opnd) (f : Word → Word × Flags) (s : State) :
    (lane1 t lat d a f s).mem = s.mem ∧ (lane1 t lat d a f s).hostMem = s.hostMem := by
  simp [lane1]

@[simp] theorem lane2_memories (ta tb : NegTy) (lat : Nat) (d : Dst) (a b : Opnd) (f : Word → Word → Word × Flags) (s : State) :
    (lane2 ta tb lat d a b f s).mem = s.mem ∧ (lane2 ta tb lat d a b f s).hostMem = s.hostMem := by
  simp [lane2]

@[simp] theorem lane3_memories (t : NegTy) (lat : Nat) (d : Dst) (a b : Opnd) (f : Word → Word → Word → Word × Flags) (s : State) :
    (lane3 t lat d a b f s).mem = s.mem ∧ (lane3 t lat d a b f s).hostMem = s.hostMem := by
  simp [lane3]

@[simp] theorem laneP_memories (t : NegTy) (lat : Nat) (d : Dst) (a b : Opnd) (f : Word → Word → Bool × Flags) (s : State) :
    (laneP t lat d a b f s).mem = s.mem ∧ (laneP t lat d a b f s).hostMem = s.hostMem := by
  simp [laneP]

@[simp] theorem cross1_memories (t : NegTy) (lat : Nat) (d : Dst) (a : Opnd) (f : Lanes → Lanes × Flags) (s : State) :
    (cross1 t lat d a f s).mem = s.mem ∧ (cross1 t lat d a f s).hostMem = s.hostMem := by
  simp [cross1]

@[simp] theorem cross2_memories (lat : Nat) (d : Dst) (a b : Opnd) (f : Lanes → Lanes → Lanes) (s : State) :
    (cross2 lat d a b f s).mem = s.mem ∧ (cross2 lat d a b f s).hostMem = s.hostMem := by
  simp [cross2]

@[simp] theorem predGo_memories (d : Dst) (f : ElemRegs → Word) (s : State) :
    (predGo d f s).mem = s.mem ∧ (predGo d f s).hostMem = s.hostMem := by
  simp [predGo]

/-! ### Machine/ElemBlock -/

@[simp] theorem scanWith_memories (g : Fin 6) (d : Dst) (a b c : Opnd) (gain : Bool) (s : State) :
    (scanWith g d a b c gain s).mem = s.mem ∧ (scanWith g d a b c gain s).hostMem = s.hostMem := by
  simp [scanWith]

/-! ### Machine/Memory -/

@[simp] theorem pendWrite_memories (s : State) (p vf : Nat) (w : Writer) (a : Nat) (b : Byte) :
    (pendWrite s p vf w a b).mem = s.mem ∧ (pendWrite s p vf w a b).hostMem = s.hostMem := ⟨rfl, rfl⟩

@[simp] theorem versionTake_memories (s : State) (p : Nat) (addrs : List Nat) :
    (versionTake s p addrs).mem = s.mem ∧ (versionTake s p addrs).hostMem = s.hostMem := by
  simp [versionTake]

@[simp] theorem mdtTouch_memories (s : State) (line : Nat) :
    (mdtTouch s line).mem = s.mem ∧ (mdtTouch s line).hostMem = s.hostMem := ⟨rfl, rfl⟩

@[simp] theorem askMemory_memories (s : State) (k : Nat) (v : Via) :
    (askMemory s k v).mem = s.mem ∧ (askMemory s k v).hostMem = s.hostMem := by
  simp only [askMemory]
  split <;> simp

@[simp] theorem writeSector_memories (l : Line) (s : State) (k : Nat) :
    (writeSector l s k).mem = s.mem ∧ (writeSector l s k).hostMem = s.hostMem := by
  simp [writeSector, apply_ite State.mem, apply_ite State.hostMem]

@[simp] theorem writeBack_memories (s : State) (line : Nat) : (writeBack s line).mem = s.mem ∧ (writeBack s line).hostMem = s.hostMem := by
  have hw (l : Line) := fun (s : State) (i : Nat) => writeSector_memories l s i
  unfold writeBack
  split
  · exact ⟨rfl, rfl⟩
  · split
    · exact ⟨rfl, rfl⟩
    · simp only []
      split
      · simp [apply_ite State.mem, apply_ite State.hostMem]
      · split <;> simp [apply_ite State.mem, apply_ite State.hostMem]

@[simp] theorem evictLine_memories (s : State) (line : Nat) :
    (evictLine s line).mem = s.mem ∧ (evictLine s line).hostMem = s.hostMem := by
  simp [evictLine]

@[simp] theorem flushFrame_memories (s : State) (f : Nat) :
    (flushFrame s f).mem = s.mem ∧ (flushFrame s f).hostMem = s.hostMem := by
  simp [flushFrame]

@[simp] theorem l2Room_memories (s : State) (f die line : Nat) :
    (l2Room s f die line).mem = s.mem ∧ (l2Room s f die line).hostMem = s.hostMem := by
  simp only [l2Room]
  (repeat' split) <;> simp

@[simp] theorem sampleRead_memories (s : State) (vf die f : Nat) (miss : Bool) (u : Use) :
    (sampleRead s vf die f miss u).mem = s.mem ∧ (sampleRead s vf die f miss u).hostMem = s.hostMem := by
  simp [sampleRead, apply_ite State.mem, apply_ite State.hostMem]

@[simp] theorem capTick_memories (s : State) :
    (capTick s).mem = s.mem ∧ (capTick s).hostMem = s.hostMem := by
  simp [capTick, apply_ite State.mem, apply_ite State.hostMem]

@[simp] theorem tlbFill_memories (s : State) (die p : Nat) (l : Latch) :
    (tlbFill s die p l).mem = s.mem ∧ (tlbFill s die p l).hostMem = s.hostMem := ⟨rfl, rfl⟩

/-! ### Machine/Kv -/

@[simp] theorem putSeq_memories (s : State) (p n : Nat) (q : Seq) :
    (putSeq s p n q).mem = s.mem ∧ (putSeq s p n q).hostMem = s.hostMem := ⟨rfl, rfl⟩

@[simp] theorem modSeq_memories (s : State) (p n : Nat) (f : Seq → Seq) :
    (modSeq s p n f).mem = s.mem ∧ (modSeq s p n f).hostMem = s.hostMem := ⟨rfl, rfl⟩

@[simp] theorem pomPut_memories (s : State) (vf seq blk : Nat) (e : PomEnt) :
    (pomPut s vf seq blk e).mem = s.mem ∧ (pomPut s vf seq blk e).hostMem = s.hostMem := ⟨rfl, rfl⟩

@[simp] theorem pomErase_memories (s : State) (vf seq blk : Nat) :
    (pomErase s vf seq blk).mem = s.mem ∧ (pomErase s vf seq blk).hostMem = s.hostMem := ⟨rfl, rfl⟩

@[simp] theorem touchSeq_memories (s : State) (p n : Nat) :
    (touchSeq s p n).mem = s.mem ∧ (touchSeq s p n).hostMem = s.hostMem := ⟨rfl, rfl⟩

@[simp] theorem setCount_memories (s : State) (base n : Nat) :
    (setCount s base n).mem = s.mem ∧ (setCount s base n).hostMem = s.hostMem := by
  simp [setCount]

@[simp] theorem incCount_memories (s : State) (base : Nat) :
    (incCount s base).mem = s.mem ∧ (incCount s base).hostMem = s.hostMem := by
  simp only [incCount]
  split <;> simp

@[simp] theorem decCount_memories (s : State) (base : Nat) :
    (decCount s base).mem = s.mem ∧ (decCount s base).hostMem = s.hostMem := by
  simp [decCount, apply_ite State.mem, apply_ite State.hostMem]

@[simp] theorem takePin_memories (s : State) (p base : Nat) :
    (takePin s p base).mem = s.mem ∧ (takePin s p base).hostMem = s.hostMem := ⟨rfl, rfl⟩

@[simp] theorem dropPin_memories (s : State) (p base : Nat) :
    (dropPin s p base).mem = s.mem ∧ (dropPin s p base).hostMem = s.hostMem := ⟨rfl, rfl⟩

theorem allocFrames_memories {cores : List Nat} {d : Frame} {t : State} (n seed base : Nat) (s : State)
    (h : allocFrames cores seed base d n s = some t) : t.mem = s.mem ∧ t.hostMem = s.hostMem := by
  induction n generalizing seed base s with
  | zero => cases h; exact ⟨rfl, rfl⟩
  | succ n ih =>
    simp only [allocFrames] at h
    split at h
    · cases h
    · exact (ih _ _ _ h :)

theorem allocSet_memories {s : State} {p vf : Nat} {x : Nat × State} (h : allocSet s p vf = some x) :
    x.2.mem = s.mem ∧ x.2.hostMem = s.hostMem := by
  simp only [allocSet] at h
  split at h
  · obtain ⟨t, ht, rfl⟩ := Option.map_eq_some_iff.1 h
    simpa using allocFrames_memories _ _ _ _ ht
  · cases h

@[simp] theorem mapNew_memories (p vf seq n b : Nat) (s : State) :
    (mapNew p vf seq n b s).mem = s.mem ∧ (mapNew p vf seq n b s).hostMem = s.hostMem := by
  induction n generalizing b s with
  | zero => exact ⟨rfl, rfl⟩
  | succ n ih =>
    simp only [mapNew]
    split
    · next x hx => simp [ih, allocSet_memories hx]
    · exact ⟨rfl, rfl⟩

@[simp] theorem dropBlocks_memories (s : State) (p vf seq b : Nat) :
    (dropBlocks s p vf seq b).mem = s.mem ∧ (dropBlocks s p vf seq b).hostMem = s.hostMem := by
  have hb (t : State) (i : Nat) := decCount_memories
  unfold dropBlocks
  simp only [modSeq_memories]
  refine foldl_memories (fun s i => ?_) _ s
  split <;> simp

@[simp] theorem takeUnits_memories (s : State) (p n : Nat) :
    (takeUnits s p n).mem = s.mem ∧ (takeUnits s p n).hostMem = s.hostMem := ⟨rfl, rfl⟩

@[simp] theorem hold_memories (s : State) (h : Held) :
    (hold s h).mem = s.mem ∧ (hold s h).hostMem = s.hostMem := ⟨rfl, rfl⟩

@[simp] theorem kvGo_memories (s : State) (bad : Bool) (k : KvOp) (seq : Nat) :
    (kvGo s bad k seq).mem = s.mem ∧ (kvGo s bad k seq).hostMem = s.hostMem := by
  simp only [kvGo]
  (repeat' split) <;> simp

/-! ### Machine/Saddle -/

@[simp] theorem putWeights_memories (s : State) (slot : Fin 8) (w : Weights) :
    (putWeights s slot w).mem = s.mem ∧ (putWeights s slot w).hostMem = s.hostMem := ⟨rfl, rfl⟩

@[simp] theorem loadChecks_memories (s : State) (slot : Fin 8) (li : Nat) :
    (loadChecks s slot li).mem = s.mem ∧ (loadChecks s slot li).hostMem = s.hostMem := by
  simp [loadChecks]

@[simp] theorem passChecks_memories (s : State) (r : Rect) (acc : Bool) (li : Nat) :
    (passChecks s r acc li).mem = s.mem ∧ (passChecks s r acc li).hostMem = s.hostMem := by
  simp [passChecks, apply_ite State.mem, apply_ite State.hostMem]

@[simp] theorem tileCompute_memories (s : State) (slot : Fin 8) (acc : Bool) (bank : Fin 16) (li : Nat) :
    (tileCompute s slot acc bank li).mem = s.mem ∧ (tileCompute s slot acc bank li).hostMem = s.hostMem := by
  simp only [tileCompute]
  (repeat' split) <;> simp

@[simp] theorem readChecks_memories (s : State) (slot : Fin 8) :
    (readChecks s slot).mem = s.mem ∧ (readChecks s slot).hostMem = s.hostMem := by
  simp only [readChecks]
  split <;> simp

@[simp] theorem bankOp_memories (s : State) (o : BankOp) :
    (bankOp s o).mem = s.mem ∧ (bankOp s o).hostMem = s.hostMem := ⟨rfl, rfl⟩

/-! ### Machine/Regions -/

@[simp] theorem askHide_memories (s : State) (p : Nat) (v : Via) (off n : Nat) :
    (askHide s p v off n).mem = s.mem ∧ (askHide s p v off n).hostMem = s.hostMem := by
  simp [askHide]

@[simp] theorem engineFault_memories (s : State) (p slot core : Nat) (opc : BitVec 8) (info : Nat) :
    (engineFault s p slot core opc info).mem = s.mem ∧ (engineFault s p slot core opc info).hostMem = s.hostMem := by
  simp [engineFault]

@[simp] theorem endCommand_memories (s : State) (r : Running) :
    (endCommand s r).mem = s.mem ∧ (endCommand s r).hostMem = s.hostMem := ⟨rfl, rfl⟩

@[simp] theorem failCommand_memories (s : State) (r : Running) (info : Nat) :
    (failCommand s r info).mem = s.mem ∧ (failCommand s r info).hostMem = s.hostMem := by
  simp [failCommand]

@[simp] theorem askTask_memories (s : State) (i : Instr) :
    (askTask s i).mem = s.mem ∧ (askTask s i).hostMem = s.hostMem := by
  simp only [askTask]
  split <;> simp

@[simp] theorem onStall_memories (s : State) (r : Running) (e : Stall) :
    (onStall s r e).mem = s.mem ∧ (onStall s r e).hostMem = s.hostMem := by
  cases e <;> simp [onStall]

/-! ### Machine/Links -/

@[simp] theorem putOp_memories (s : State) (o : CollOp) :
    (putOp s o).mem = s.mem ∧ (putOp s o).hostMem = s.hostMem := by
  simp only [putOp]
  split <;> simp

@[simp] theorem dropOp_memories (s : State) (group opn : Nat) :
    (dropOp s group opn).mem = s.mem ∧ (dropOp s group opn).hostMem = s.hostMem := ⟨rfl, rfl⟩

@[simp] theorem portDown_memories (s : State) (port : Fin 18) :
    (portDown s port).mem = s.mem ∧ (portDown s port).hostMem = s.hostMem := by
  simp [portDown]

@[simp] theorem queueFlit_memories (s : State) (i : Fin 18) (cls : BitVec 2) (f : Flit) (vals : List Word) :
    (queueFlit s i cls f vals).mem = s.mem ∧ (queueFlit s i cls f vals).hostMem = s.hostMem := ⟨rfl, rfl⟩

@[simp] theorem dropParts_memories (s : State) (group opn : Nat) :
    (dropParts s group opn).mem = s.mem ∧ (dropParts s group opn).hostMem = s.hostMem := by
  simp [dropParts]

@[simp] theorem queueLink_memories (s : State) (i : Fin 18) (f : Flit) :
    (queueLink s i f).mem = s.mem ∧ (queueLink s i f).hostMem = s.hostMem := ⟨rfl, rfl⟩

@[simp] theorem sendFlit_memories (s : State) (i : Fin 18) (f : Flit) :
    (sendFlit s i f).mem = s.mem ∧ (sendFlit s i f).hostMem = s.hostMem := by
  simp only [sendFlit]
  (repeat' split) <;> simp

@[simp] theorem badFlit_memories (s : State) (port : Fin 18) :
    (badFlit s port).mem = s.mem ∧ (badFlit s port).hostMem = s.hostMem := by
  simp only [badFlit]
  split <;> simp

@[simp] theorem returnCredit_memories (s : State) (port : Fin 18) (vc : BitVec 4) :
    (returnCredit s port vc).mem = s.mem ∧ (returnCredit s port vc).hostMem = s.hostMem := by
  simp only [returnCredit]
  split <;> simp

@[simp] theorem recvFlit_memories {go : State → Flit → List Word → State}
    (hgo : ∀ s f vals, (go s f vals).mem = s.mem ∧ (go s f vals).hostMem = s.hostMem) (s : State) (port : Fin 18) (type vc : Nat) (f : Flit) :
    (recvFlit s port type vc f go).mem = s.mem ∧ (recvFlit s port type vc f go).hostMem = s.hostMem := by
  simp only [recvFlit]
  (repeat' split) <;> simp [hgo]

@[simp] theorem sendValues_memories (s : State) (port : Nat) (vc type : Nat) (dst : BitVec 12) (group opn : Nat) (rop : BitVec 4) (last : Bool)
    (vals : List Word) :
    (sendValues s port vc type dst group opn rop last vals).mem = s.mem
      ∧ (sendValues s port vc type dst group opn rop last vals).hostMem = s.hostMem := by
  simp only [sendValues]
  split <;> simp

@[simp] theorem sendFrag_memories (s : State) (port vc type : Nat) (dst : BitVec 12) (group opn cnt : Nat) (rop pfmt : BitVec 4) (last : Bool)
    (payload : List Byte) :
    (sendFrag s port vc type dst group opn cnt rop pfmt last payload).mem = s.mem
      ∧ (sendFrag s port vc type dst group opn cnt rop pfmt last payload).hostMem = s.hostMem := by
  simp only [sendFrag]
  split <;> simp

@[simp] theorem sendBytes_memories (s : State) (port : Nat) (vc type : Nat) (dst : BitVec 12) (group opn : Nat) (l : List Byte) :
    (sendBytes s port vc type dst group opn l).mem = s.mem ∧ (sendBytes s port vc type dst group opn l).hostMem = s.hostMem := by
  simp [sendBytes]

@[simp] theorem sendSignal_memories (s : State) (port type : Nat) (dst : BitVec 12) (group opn : Nat) :
    (sendSignal s port type dst group opn).mem = s.mem ∧ (sendSignal s port type dst group opn).hostMem = s.hostMem := by
  simp [sendSignal]

@[simp] theorem copyDown_memories (s : State) (w : DWord) (f : Flit) (vals : List Word) :
    (copyDown s w f vals).mem = s.mem ∧ (copyDown s w f vals).hostMem = s.hostMem := by
  simp [copyDown]

@[simp] theorem endOp_memories (s : State) (group opn : Nat) :
    (endOp s group opn).mem = s.mem ∧ (endOp s group opn).hostMem = s.hostMem := by
  simp only [endOp]
  split <;> simp

@[simp] theorem abortOp_memories (s : State) (group opn : Nat) (origin : Option Nat) :
    (abortOp s group opn origin).mem = s.mem ∧ (abortOp s group opn origin).hostMem = s.hostMem := by
  simp only [abortOp]
  split <;> simp

@[simp] theorem collStall_memories (s : State) (r : Running) (e : Stall) (group opn : Nat) :
    (collStall s r e group opn).mem = s.mem ∧ (collStall s r e group opn).hostMem = s.hostMem := by
  simp only [collStall]
  split <;> simp

@[simp] theorem recvOp_memories {go : State → DWord → List Word → Bool → State}
    (hgo : ∀ s w vals b, (go s w vals b).mem = s.mem ∧ (go s w vals b).hostMem = s.hostMem) (s : State) (port : Fin 18)
    (type vc : Nat) (f : Flit) :
    (recvOp s port type vc f go).mem = s.mem ∧ (recvOp s port type vc f go).hostMem = s.hostMem := by
  refine recvFlit_memories (fun s f vals => ?_) s port type vc f
  simp [hgo, apply_ite State.mem, apply_ite State.hostMem]

@[simp] theorem waitGroupWrite_memories (s : State) (group : BitVec 10) (word : DWord) :
    (waitGroupWrite s group word).mem = s.mem ∧ (waitGroupWrite s group word).hostMem = s.hostMem := ⟨rfl, rfl⟩

/-! ### Machine/Engines -/

@[simp] theorem withOpn_memories (s : State) (c : Cmd) : (withOpn s c).2.mem = s.mem ∧ (withOpn s c).2.hostMem = s.hostMem := by
  cases c <;> exact ⟨rfl, rfl⟩

@[simp] theorem putStir_memories (s : State) (core lane : Nat) (x : StirLane) :
    (putStir s core lane x).mem = s.mem ∧ (putStir s core lane x).hostMem = s.hostMem := ⟨rfl, rfl⟩

@[simp] theorem claimLanes_memories (s : State) (r : Running) :
    (claimLanes s r).mem = s.mem ∧ (claimLanes s r).hostMem = s.hostMem := by
  simp only [claimLanes]
  split <;> simp

@[simp] theorem release_memories (s : State) (p slot core : Nat) (opc : BitVec 8) (c : Cmd) :
    (release s p slot core opc c).mem = s.mem ∧ (release s p slot core opc c).hostMem = s.hostMem := by
  simp only [release]
  (repeat' split) <;> simp

@[simp] theorem waitEntry_memories (s : State) :
    (waitEntry s).mem = s.mem ∧ (waitEntry s).hostMem = s.hostMem := ⟨rfl, rfl⟩

@[simp] theorem issue_memories (s : State) (opc : Nat) (c : Cmd) :
    (issue s opc c).mem = s.mem ∧ (issue s opc c).hostMem = s.hostMem := by
  simp [issue, apply_ite State.mem, apply_ite State.hostMem]

/-! ### Machine/Seq -/

@[simp] theorem alu_memories (d a : CReg) (b : SArg) (f : DWord → DWord → DWord) (s : State) :
    (Machine.alu d a b f s).mem = s.mem ∧ (Machine.alu d a b f s).hostMem = s.hostMem :=
  bndGo_memories (by simp)

@[simp] theorem jump_memories (s : State) (disp : BitVec 26) :
    (jump s disp).mem = s.mem ∧ (jump s disp).hostMem = s.hostMem := ⟨rfl, rfl⟩

@[simp] theorem sectAsk_memories (s : State) (p off : Nat) :
    (sectAsk s p off).mem = s.mem ∧ (sectAsk s p off).hostMem = s.hostMem := by
  simp [sectAsk]

@[simp] theorem doCancel_memories (s : State) (p : Nat) (level : CLevel) (w : DWord) :
    (doCancel s p level w).mem = s.mem ∧ (doCancel s p level w).hostMem = s.hostMem := by
  simp only [doCancel]
  split <;> simp

@[simp] theorem seqHide_memories (s : State) (off : Nat) (op : HOp) :
    (seqHide s off op).mem = s.mem ∧ (seqHide s off op).hostMem = s.hostMem := by
  simp only [seqHide]
  split <;> simp

@[simp] theorem drain_memories (d : DrainKind) (s : State) : (drain d s).mem = s.mem ∧ (drain d s).hostMem = s.hostMem := by
  refine bndGo_memories ?_
  split <;> simp

/-! ### Machine/Prefix -/

theorem systemFrames_memories {s : State} {p n : Nat} {x : Nat × State} (h : systemFrames s p n = some x) :
    x.2.mem = s.mem ∧ x.2.hostMem = s.hostMem := by
  simp only [systemFrames] at h
  split at h
  · cases h
  · obtain ⟨t, ht, rfl⟩ := Option.map_eq_some_iff.1 h
    simpa using allocFrames_memories _ _ _ _ ht

@[simp] theorem pxAsk_memories (s : State) (d : PxDesc) (k : PxKey) :
    (pxAsk s d k).mem = s.mem ∧ (pxAsk s d k).hostMem = s.hostMem := by
  simp [pxAsk]

@[simp] theorem pxLookup_memories (s : State) (vf : Nat) (k : PxKey) :
    (pxLookup s vf k).2.mem = s.mem ∧ (pxLookup s vf k).2.hostMem = s.hostMem := by
  simp only [pxLookup]
  (repeat' split) <;> simp

@[simp] theorem pxPut1_memories (s : State) (d : PxDesc) (h : Word) (w : Nat) (v : Bool) (base : Nat) :
    (pxPut1 s d h w v base).mem = s.mem ∧ (pxPut1 s d h w v base).hostMem = s.hostMem := by
  simp [pxPut1]

@[simp] theorem pxInsert_memories (s : State) (p vf : Nat) (k : PxKey) (q b : Nat) :
    (pxInsert s p vf k q b).2.mem = s.mem ∧ (pxInsert s p vf k q b).2.hostMem = s.hostMem := by
  simp only [pxInsert]
  (repeat' split) <;> simp

@[simp] theorem pxDrop_memories (s : State) (d : PxDesc) (h : Word) (w : Nat) :
    (pxDrop s d h w).mem = s.mem ∧ (pxDrop s d h w).hostMem = s.hostMem := by
  simp [pxDrop]

@[simp] theorem pxEvict_memories (s : State) (vf : Nat) (k : PxKey) :
    (pxEvict s vf k).2.mem = s.mem ∧ (pxEvict s vf k).2.hostMem = s.hostMem := by
  simp only [pxEvict]
  (repeat' split) <;> simp

@[simp] theorem pxWalk_memories (s : State) (dom base : Nat) : (pxWalk s dom base).mem = s.mem ∧ (pxWalk s dom base).hostMem = s.hostMem := by
  unfold pxWalk
  split
  · exact ⟨rfl, rfl⟩
  · simp [apply_ite State.mem, apply_ite State.hostMem]

@[simp] theorem pxGo_memories {f : State → PxKey → DWord × State} {s : State}
    (hf : ∀ k, (f s k).2.mem = s.mem ∧ (f s k).2.hostMem = s.hostMem) (d a b : CReg) :
    (pxGo d a b f s).mem = s.mem ∧ (pxGo d a b f s).hostMem = s.hostMem := by
  refine bndGo_memories ?_
  split <;> simp [hf]

/-! ### Machine/Rounds -/

@[simp] theorem gapTick_memories (s : State) (p : Nat) :
    (gapTick s p).mem = s.mem ∧ (gapTick s p).hostMem = s.hostMem := by
  simp [gapTick, apply_ite State.mem, apply_ite State.hostMem]

@[simp] theorem sliceTick_memories (s : State) (p : Nat) :
    (sliceTick s p).mem = s.mem ∧ (sliceTick s p).hostMem = s.hostMem := by
  simp [sliceTick, apply_ite State.mem, apply_ite State.hostMem]

@[simp] theorem partTick_memories (s : State) (p : Nat) :
    (partTick s p).mem = s.mem ∧ (partTick s p).hostMem = s.hostMem := by
  simp [partTick]

@[simp] theorem readRecord_memories (s : State) (g : Graph) (o j : Nat) :
    (readRecord s g o j).mem = s.mem ∧ (readRecord s g o j).hostMem = s.hostMem := by
  simp [readRecord]

@[simp] theorem clearKeepers_memories (s : State) (g : Graph) (o : Nat) :
    (clearKeepers s g o).mem = s.mem ∧ (clearKeepers s g o).hostMem = s.hostMem := by
  simp [clearKeepers]

@[simp] theorem chooseAgain_memories (s : State) (p slot o j : Nat) :
    (chooseAgain s p slot o j).mem = s.mem ∧ (chooseAgain s p slot o j).hostMem = s.hostMem := by
  simp [chooseAgain]

@[simp] theorem recFault_memories (s : State) (p slot : Nat) (g : Graph) (o addr : Nat) :
    (recFault s p slot g o addr).mem = s.mem ∧ (recFault s p slot g o addr).hostMem = s.hostMem := by
  simp [recFault]

@[simp] theorem beginRound_memories (s : State) (p slot : Nat) (g : Graph) :
    (beginRound s p slot g).mem = s.mem ∧ (beginRound s p slot g).hostMem = s.hostMem := by
  simp [beginRound, apply_ite State.mem, apply_ite State.hostMem]

@[simp] theorem commitHide_memories (s : State) (p c : Nat) (g : Graph) (h : HideReq) :
    (commitHide s p c g h).mem = s.mem ∧ (commitHide s p c g h).hostMem = s.hostMem := by
  unfold commitHide
  cases h.op <;> simp only [performHide_mem, performHide_hostMem, storeAsk_memories, hideRequest_memories, and_self]

@[simp] theorem evictSome_memories (s : State) (p : Nat) :
    (evictSome s p).mem = s.mem ∧ (evictSome s p).hostMem = s.hostMem := by
  simp only [evictSome]
  (repeat' split) <;> simp

@[simp] theorem releaseQuota_memories (s : State) (p : Nat) :
    (releaseQuota s p).mem = s.mem ∧ (releaseQuota s p).hostMem = s.hostMem := by
  simp only [releaseQuota]
  split <;> simp

@[simp] theorem dropMoving_memories (s : State) (p : Nat) (g : Graph) (f : Nat) :
    (dropMoving s p g f).mem = s.mem ∧ (dropMoving s p g f).hostMem = s.hostMem := by
  simp [dropMoving]

@[simp] theorem askAbsent_memories (s : State) (p : Nat) (g : Graph) (r : Report) :
    (askAbsent s p g r).mem = s.mem ∧ (askAbsent s p g r).hostMem = s.hostMem := by
  simp only [askAbsent]
  split <;> simp

@[simp] theorem startGap_memories (s : State) (p : Nat) :
    (startGap s p).mem = s.mem ∧ (startGap s p).hostMem = s.hostMem := ⟨rfl, rfl⟩

@[simp] theorem toPulse_memories (s : State) (p slot : Nat) :
    (toPulse s p slot).mem = s.mem ∧ (toPulse s p slot).hostMem = s.hostMem := ⟨rfl, rfl⟩

@[simp] theorem planAndCancel_memories (s : State) (p slot : Nat) :
    (planAndCancel s p slot).mem = s.mem ∧ (planAndCancel s p slot).hostMem = s.hostMem := by
  simp only [planAndCancel]
  split <;> simp

@[simp] theorem admitLate_memories (s : State) (p slot : Nat) :
    (admitLate s p slot).mem = s.mem ∧ (admitLate s p slot).hostMem = s.hostMem := ⟨rfl, rfl⟩

@[simp] theorem armStep_memories (s : State) (p slot : Nat) :
    (armStep s p slot).mem = s.mem ∧ (armStep s p slot).hostMem = s.hostMem := by
  simp only [armStep]
  split <;> simp

@[simp] theorem toIdle_memories (s : State) (p slot : Nat) (before : List Nat) :
    (toIdle s p slot before).mem = s.mem ∧ (toIdle s p slot before).hostMem = s.hostMem := by
  simp [toIdle]

@[simp] theorem closeSection_memories (s : State) (p slot : Nat) :
    (closeSection s p slot).mem = s.mem ∧ (closeSection s p slot).hostMem = s.hostMem := by
  simp only [closeSection]
  (repeat' split) <;> simp

@[simp] theorem openSection_memories (s : State) (p slot : Nat) :
    (openSection s p slot).mem = s.mem ∧ (openSection s p slot).hostMem = s.hostMem := by
  simp only [openSection]
  split <;> simp

@[simp] theorem recordStep_memories (s : State) (p slot : Nat) (g : Graph) :
    (recordStep s p slot g).mem = s.mem ∧ (recordStep s p slot g).hostMem = s.hostMem := by
  simp [recordStep]

@[simp] theorem deadlineRounds_memories (s : State) (p slot : Nat) (g : Graph) (os : List Nat) :
    (deadlineRounds s p slot g os).mem = s.mem ∧ (deadlineRounds s p slot g os).hostMem = s.hostMem := by
  simp [deadlineRounds]

@[simp] theorem recoverPoison_memories (s : State) (p slot seq blk : Nat) (g : Graph) :
    (recoverPoison s p slot seq blk g).mem = s.mem ∧ (recoverPoison s p slot seq blk g).hostMem = s.hostMem := by
  simp [recoverPoison]

@[simp] theorem hardFault_memories (s : State) (p : Nat) (r : Report) :
    (hardFault s p r).mem = s.mem ∧ (hardFault s p r).hostMem = s.hostMem := by
  simp only [hardFault]
  split <;> simp

/-! ### Machine/Loader -/

@[simp] theorem emptySlot_memories (s : State) (p slot : Nat) :
    (emptySlot s p slot).mem = s.mem ∧ (emptySlot s p slot).hostMem = s.hostMem := by
  simp only [emptySlot]
  split <;> simp

@[simp] theorem installLoad_memories (s : State) (p : Nat) (l : Load) :
    (installLoad s p l).mem = s.mem ∧ (installLoad s p l).hostMem = s.hostMem := by
  unfold installLoad
  generalize parseImg _ = g
  simp

/-! ### Machine/Context -/

@[simp] theorem zeroHide_memories (s : State) (p : Nat) :
    (zeroHide s p).mem = s.mem ∧ (zeroHide s p).hostMem = s.hostMem := ⟨rfl, rfl⟩

@[simp] theorem restoreLane_memories (s : State) (e : Nat × StirLane) :
    (restoreLane s e).mem = s.mem ∧ (restoreLane s e).hostMem = s.hostMem := by
  simp only [restoreLane]
  split <;> simp

@[simp] theorem rebindSlice_memories (s : State) (p : Nat) (c : Context) :
    (rebindSlice s p c).mem = s.mem ∧ (rebindSlice s p c).hostMem = s.hostMem := by
  simp [rebindSlice]

theorem roomFor_memories {s t : State} {p : Nat} (h : roomFor s p = some t) : t.mem = s.mem ∧ t.hostMem = s.hostMem := by
  simp only [roomFor] at h
  split at h
  · cases h
  · cases h; simp

/-! ### Machine/Boundary -/

@[simp] theorem askBoundary_memories (s : State) (p : Nat) :
    (askBoundary s p).mem = s.mem ∧ (askBoundary s p).hostMem = s.hostMem := ⟨rfl, rfl⟩

@[simp] theorem performPost_memories (s : State) (p : Nat) (e : PostEnt) :
    (performPost s p e).mem = s.mem ∧ (performPost s p e).hostMem = s.hostMem := by
  simp [performPost]

@[simp] theorem dropLanes_memories (s : State) (p slot : Nat) :
    (dropLanes s p slot).mem = s.mem ∧ (dropLanes s p slot).hostMem = s.hostMem := ⟨rfl, rfl⟩

@[simp] theorem replaceGraph_memories (s : State) (p : Nat) (l : Load) :
    (replaceGraph s p l).mem = s.mem ∧ (replaceGraph s p l).hostMem = s.hostMem := by
  unfold replaceGraph
  dsimp only
  split <;> simp

@[simp] theorem installLoads_memories (s : State) (p : Nat) :
    (installLoads s p).mem = s.mem ∧ (installLoads s p).hostMem = s.hostMem := by
  simp [installLoads, apply_ite State.mem, apply_ite State.hostMem]

@[simp] theorem endSlice_memories (s : State) (p : Nat) :
    (endSlice s p).mem = s.mem ∧ (endSlice s p).hostMem = s.hostMem := by
  simp [endSlice, apply_ite State.mem, apply_ite State.hostMem]

@[simp] theorem unElide_memories (s : State) (k : Nat) :
    (unElide s k).mem = s.mem ∧ (unElide s k).hostMem = s.hostMem := by
  simp only [unElide]
  split <;> simp

@[simp] theorem rollBack_memories (s : State) (p : Nat) :
    (rollBack s p).mem = s.mem ∧ (rollBack s p).hostMem = s.hostMem := by
  simp [rollBack]

@[simp] theorem decCounts_memories (base n : Nat) (s : State) : (decCounts base n s).mem = s.mem ∧ (decCounts base n s).hostMem = s.hostMem := by
  induction n generalizing s with
  | zero => exact ⟨rfl, rfl⟩
  | succ n ih => simp [decCounts, ih]

@[simp] theorem zeroPart_memories (s : State) (p : Nat) :
    (zeroPart s p).mem = s.mem ∧ (zeroPart s p).hostMem = s.hostMem := by
  simp [zeroPart]

@[simp] theorem haltStreams_memories (s : State) (vf : Nat) :
    (haltStreams s vf).mem = s.mem ∧ (haltStreams s vf).hostMem = s.hostMem := ⟨rfl, rfl⟩

/-! ### Machine/Packets -/

@[simp] theorem modCurStream_memories (s : State) (f : Stream → Stream) :
    (modCurStream s f).mem = s.mem ∧ (modCurStream s f).hostMem = s.hostMem := ⟨rfl, rfl⟩

@[simp] theorem packetDone_memories (s : State) :
    (packetDone s).mem = s.mem ∧ (packetDone s).hostMem = s.hostMem := by
  simp only [packetDone]
  split <;> simp

@[simp] theorem finishPacket_memories (s : State) :
    (finishPacket s).mem = s.mem ∧ (finishPacket s).hostMem = s.hostMem := by
  simp [finishPacket]

@[simp] theorem waitPacket_memories (s : State) :
    (waitPacket s).mem = s.mem ∧ (waitPacket s).hostMem = s.hostMem := ⟨rfl, rfl⟩

@[simp] theorem packetEvent_memories (s : State) (type : BitVec 8) (tag : BitVec 16) (code : Word) (w1 w2 w3 : DWord) (irq : Bool) :
    (packetEvent s type tag code w1 w2 w3 irq).mem = s.mem ∧ (packetEvent s type tag code w1 w2 w3 irq).hostMem = s.hostMem := ⟨rfl, rfl⟩

@[simp] theorem haltStream_memories (s : State) :
    (haltStream s).mem = s.mem ∧ (haltStream s).hostMem = s.hostMem := ⟨rfl, rfl⟩

@[simp] theorem haltWith_memories {post : State → State} {s : State} (hp : (post s).mem = s.mem ∧ (post s).hostMem = s.hostMem) :
    (haltWith s post).mem = s.mem ∧ (haltWith s post).hostMem = s.hostMem := by
  unfold haltWith
  split <;> simp [hp]

@[simp] theorem haltWritten_memories (s : State) :
    (haltWritten s).mem = s.mem ∧ (haltWritten s).hostMem = s.hostMem := by
  simp only [haltWritten]
  split <;> simp

@[simp] theorem rejectPacket_memories (reason : Nat) (tag : BitVec 16) (s : State) :
    (rejectPacket reason tag s).mem = s.mem ∧ (rejectPacket reason tag s).hostMem = s.hostMem := by
  simp [rejectPacket]

@[simp] theorem pktGo_memories {f : Nat → State → State} {s : State} (hf : ∀ p, (f p s).mem = s.mem ∧ (f p s).hostMem = s.hostMem) :
    (pktGo s f).mem = s.mem ∧ (pktGo s f).hostMem = s.hostMem := by
  unfold pktGo
  split
  · exact hf _
  · exact ⟨rfl, rfl⟩

@[simp] theorem toBoundary_memories (s : State) (p stage : Nat) :
    (toBoundary s p stage).mem = s.mem ∧ (toBoundary s p stage).hostMem = s.hostMem := ⟨rfl, rfl⟩

@[simp] theorem pollBoundary_memories (s : State) (p : Nat) :
    (pollBoundary s p).mem = s.mem ∧ (pollBoundary s p).hostMem = s.hostMem := by
  simp only [pollBoundary]
  split <;> simp

@[simp] theorem whenGate_memories (wh : BitVec 2) (p : Nat) (s : State) :
    (whenGate wh p s).2.mem = s.mem ∧ (whenGate wh p s).2.hostMem = s.hostMem := by
  simp only [whenGate]
  (repeat' split) <;> simp

@[simp] theorem whenGo_memories {f : State → State} {s : State} (hf : (f s).mem = s.mem ∧ (f s).hostMem = s.hostMem) (wh : BitVec 2) (p : Nat) :
    (whenGo wh p s f).mem = s.mem ∧ (whenGo wh p s f).hostMem = s.hostMem := by
  simp only [whenGo]
  split <;> simp [hf]

@[simp] theorem thenBoundary_memories {f : State → State} {s : State} (hf : (f s).mem = s.mem ∧ (f s).hostMem = s.hostMem) (p : Nat) :
    (thenBoundary p s f).mem = s.mem ∧ (thenBoundary p s f).hostMem = s.hostMem := by
  unfold thenBoundary
  (repeat' split) <;> simp [hf]

@[simp] theorem thenEvent_memories {post : State → State} {s : State} (hp : (post s).mem = s.mem ∧ (post s).hostMem = s.hostMem)
    (type : BitVec 8) :
    (thenEvent type s post).mem = s.mem ∧ (thenEvent type s post).hostMem = s.hostMem := by
  unfold thenEvent
  (repeat' split) <;> simp [hp]

@[simp] theorem acceptLoad_memories (s : State) (p : Nat) (slot origin image : Nat) (bytes : List Byte) (g : Img) :
    (acceptLoad s p slot origin image bytes g).mem = s.mem ∧ (acceptLoad s p slot origin image bytes g).hostMem = s.hostMem := by
  simp [acceptLoad]

@[simp] theorem refuseLoad_memories (s : State) (tag : BitVec 16) (image : Nat) (e : LErr) :
    (refuseLoad s tag image e).mem = s.mem ∧ (refuseLoad s tag image e).hostMem = s.hostMem := by
  simp [refuseLoad]

@[simp] theorem emptyGo_memories (s : State) (p slot : Nat) :
    (emptyGo s p slot).mem = s.mem ∧ (emptyGo s p slot).hostMem = s.hostMem := by
  simp only [emptyGo]
  split <;> simp

@[simp] theorem loadGo_memories (s : State) (tag : BitVec 16) (p slot origin image len : Nat) :
    (loadGo s tag p slot origin image len).mem = s.mem ∧ (loadGo s tag p slot origin image len).hostMem = s.hostMem := by
  simp only [loadGo]
  (repeat' split) <;> simp

@[simp] theorem frontAsk_memories (s : State) (p off : Nat) :
    (frontAsk s p off).mem = s.mem ∧ (frontAsk s p off).hostMem = s.hostMem := ⟨rfl, rfl⟩

@[simp] theorem branchGo_memories {eat : State → State} {s : State} (he : (eat s).mem = s.mem ∧ (eat s).hostMem = s.hostMem) (tag : BitVec 16)
    (taken : Bool) (disp : Word) :
    (branchGo tag taken disp eat s).mem = s.mem ∧ (branchGo tag taken disp eat s).hostMem = s.hostMem := by
  simp only [branchGo]
  (repeat' split) <;> simp [he]

@[simp] theorem timeOut_memories (s : State) (vf : Nat) (n : Fin 8) (op : Nat) (tag : BitVec 16) :
    (timeOut s vf n op tag).mem = s.mem ∧ (timeOut s vf n op tag).hostMem = s.hostMem := by
  simp [timeOut]

/-! ### Machine/Regs -/

@[simp] theorem enableStream_memories (s : State) (v : Nat) (n : Fin 8) (val : DWord) :
    (enableStream s v n val).mem = s.mem ∧ (enableStream s v n val).hostMem = s.hostMem := ⟨rfl, rfl⟩

@[simp] theorem modSaved_memories (s : State) (v : Nat) (f : Context → Context) :
    (modSaved s v f).mem = s.mem ∧ (modSaved s v f).hostMem = s.hostMem := ⟨rfl, rfl⟩

@[simp] theorem disableStream_memories (s : State) (v : Nat) (n : Fin 8) :
    (disableStream s v n).mem = s.mem ∧ (disableStream s v n).hostMem = s.hostMem := by
  cases h : runningPart s v <;> simp [disableStream, h]

@[simp] theorem stopStream_memories (s : State) (v : Nat) (n : Fin 8) (val : DWord) :
    (stopStream s v n val).mem = s.mem ∧ (stopStream s v n val).hostMem = s.hostMem := by
  simp [stopStream]

@[simp] theorem leaveHalt_memories (vf : BitVec 8) (w : SqCtlWrite) (go : Stream → Stream) (s : State) :
    (leaveHalt vf w go s).mem = s.mem ∧ (leaveHalt vf w go s).hostMem = s.hostMem := by
  simp only [leaveHalt]
  split <;> simp

@[simp] theorem issueToken_memories (s : State) (all : Bool) (base count : Nat) :
    (issueToken s all base count).mem = s.mem ∧ (issueToken s all base count).hostMem = s.hostMem := by
  simp [issueToken]

@[simp] theorem writeDomains_memories (s : State) (vf : Nat) (val : DWord) :
    (writeDomains s vf val).mem = s.mem ∧ (writeDomains s vf val).hostMem = s.hostMem := by
  simp [writeDomains, apply_ite State.mem, apply_ite State.hostMem]

@[simp] theorem writeKvCfg_memories (s : State) (vf : Nat) (val : DWord) :
    (writeKvCfg s vf val).mem = s.mem ∧ (writeKvCfg s vf val).hostMem = s.hostMem := by
  simp only [writeKvCfg]
  split <;> simp

@[simp] theorem writeReg_memories (s : State) (r : Reg) (val : DWord) :
    (writeReg s r val).mem = s.mem ∧ (writeReg s r val).hostMem = s.hostMem := by
  simp only [writeReg]
  (repeat' split) <;> simp

@[simp] theorem rehome_memories (s t : State) :
    (rehome s t).mem = s.mem ∧ (rehome s t).hostMem = s.hostMem := by
  simp [rehome]

@[simp] theorem dropLoading_memories (s t : State) (v : Nat) :
    (dropLoading s t v).mem = t.mem ∧ (dropLoading s t v).hostMem = t.hostMem := by
  simp only [dropLoading]
  (repeat' split) <;> simp

@[simp] theorem dropUnbound_memories (s t : State) :
    (dropUnbound s t).mem = t.mem ∧ (dropUnbound s t).hostMem = t.hostMem := by
  simp [dropUnbound, apply_ite State.mem, apply_ite State.hostMem]

@[simp] theorem noteSuspended_memories (s t : State) :
    (noteSuspended s t).mem = t.mem ∧ (noteSuspended s t).hostMem = t.hostMem := ⟨rfl, rfl⟩

@[simp] theorem freePins_memories (s : State) (vf : Nat) :
    (freePins s vf).mem = s.mem ∧ (freePins s vf).hostMem = s.hostMem := by
  simp [freePins, apply_ite State.mem, apply_ite State.hostMem]

@[simp] theorem cancelJobs_memories (s : State) (vf : Nat) : (cancelJobs s vf).mem = s.mem ∧ (cancelJobs s vf).hostMem = s.hostMem := by
  cases h : runningPart s vf <;> simp [cancelJobs, h]

/-! ### Machine/Control -/

@[simp] theorem releaseFrame_memories (s : State) (f : Nat) :
    (releaseFrame s f).mem = s.mem ∧ (releaseFrame s f).hostMem = s.hostMem := ⟨rfl, rfl⟩

@[simp] theorem poisonFrame_memories (s : State) (f : Nat) :
    (poisonFrame s f).mem = s.mem ∧ (poisonFrame s f).hostMem = s.hostMem := by
  simp [poisonFrame, apply_ite State.mem, apply_ite State.hostMem]

@[simp] theorem loseFrame_memories (s : State) (f : Nat) :
    (loseFrame s f).mem = s.mem ∧ (loseFrame s f).hostMem = s.hostMem := by
  simp [loseFrame]

@[simp] theorem sectorError_memories (s : State) (f k : Nat) :
    (sectorError s f k).mem = s.mem ∧ (sectorError s f k).hostMem = s.hostMem := by
  simp only [sectorError]
  (repeat' split) <;> simp

@[simp] theorem makeResident_memories (s : State) (f : Nat) (g : Frame → Frame) :
    (makeResident s f g).mem = s.mem ∧ (makeResident s f g).hostMem = s.hostMem := by
  simp [makeResident]

@[simp] theorem moveStart_memories (s : State) (f : Nat) (tier : BitVec 2) (loc : BitVec 48) :
    (moveStart s f tier loc).mem = s.mem ∧ (moveStart s f tier loc).hostMem = s.hostMem := by
  simp only [moveStart]
  split <;> simp

@[simp] theorem moveWaits_memories (s : State) (f : Nat) :
    (moveWaits s f).mem = s.mem ∧ (moveWaits s f).hostMem = s.hostMem := ⟨rfl, rfl⟩

@[simp] theorem writeBackFrame_memories (s : State) (f : Nat) :
    (writeBackFrame s f).mem = s.mem ∧ (writeBackFrame s f).hostMem = s.hostMem := by
  simp [writeBackFrame]

@[simp] theorem dropPair_memories (s : State) (f : Nat) :
    (dropPair s f).mem = s.mem ∧ (dropPair s f).hostMem = s.hostMem := ⟨rfl, rfl⟩

@[simp] theorem moveLand_memories (s : State) (f : Nat) (flash : Bool) (src : Fwd) :
    (moveLand s f flash src).mem = s.mem ∧ (moveLand s f flash src).hostMem = s.hostMem := by
  simp [moveLand, apply_ite State.mem, apply_ite State.hostMem]

@[simp] theorem moveStep_memories (s : State) (f : Nat) (flash : Bool) (tier : BitVec 2) (loc : BitVec 48) (again : Instr) :
    (moveStep s f flash tier loc again).mem = s.mem ∧ (moveStep s f flash tier loc again).hostMem = s.hostMem := by
  simp only [moveStep]
  (repeat' split) <;> simp

@[simp] theorem reclaimStart_memories (s : State) (base n : Nat) :
    (reclaimStart s base n).mem = s.mem ∧ (reclaimStart s base n).hostMem = s.hostMem := by
  simp [reclaimStart]

@[simp] theorem reclaimWaits_memories (s : State) (base n : Nat) :
    (reclaimWaits s base n).mem = s.mem ∧ (reclaimWaits s base n).hostMem = s.hostMem := ⟨rfl, rfl⟩

@[simp] theorem returnQuota_memories (s : State) (vf : Nat) :
    (returnQuota s vf).mem = s.mem ∧ (returnQuota s vf).hostMem = s.hostMem := by
  simp only [returnQuota]
  split <;> simp

/-! ### Machine/Board -/

@[simp] theorem withTables_memories (s : State) (n : Nat) :
    (withTables s n).mem = s.mem ∧ (withTables s n).hostMem = s.hostMem := ⟨rfl, rfl⟩

@[simp] theorem paceWith_memories (f : Nat → Nat → Nat) (s : State) (p : Nat) :
    (paceWith f s p).mem = s.mem ∧ (paceWith f s p).hostMem = s.hostMem := ⟨rfl, rfl⟩

@[simp] theorem addWindowFrame_memories (vf : Nat) (home : Fin 64) (s : State) (f : Nat) :
    (addWindowFrame vf home s f).mem = s.mem ∧ (addWindowFrame vf home s f).hostMem = s.hostMem := ⟨rfl, rfl⟩

@[simp] theorem hostLost_memories (s : State) (vf k : Nat) :
    (hostLost s vf k).mem = s.mem ∧ (hostLost s vf k).hostMem = s.hostMem := by
  simp only [hostLost]
  split <;> simp

@[simp] theorem holdLine_memories (s : State) (a : Nat) :
    (holdLine s a).mem = s.mem ∧ (holdLine s a).hostMem = s.hostMem := ⟨rfl, rfl⟩

/-! ### Machine/ElemHide -/

@[simp] theorem hideGo_memories (t : NegTy) (a b : Opnd) (op : Word → HOp) (s : State) :
    (hideGo t a b op s).mem = s.mem ∧ (hideGo t a b op s).hostMem = s.hostMem := by
  simp [hideGo]

/-! ### Machine/Fetch -/

@[simp] theorem passEntry_memories (s : State) (a : Agent) (li : Nat) :
    (passEntry s a li).mem = s.mem ∧ (passEntry s a li).hostMem = s.hostMem := ⟨rfl, rfl⟩

@[simp] theorem agentState_memories (s : State) (p slot : Nat) (a : Agent) (rest : List Agent) :
    (agentState s p slot a rest).mem = s.mem ∧ (agentState s p slot a rest).hostMem = s.hostMem := ⟨rfl, rfl⟩

@[simp] theorem sectionState_memories (s : State) (p slot core : Nat) :
    (sectionState s p slot core).mem = s.mem ∧ (sectionState s p slot core).hostMem = s.hostMem := ⟨rfl, rfl⟩

@[simp] theorem packetState_memories (s : State) (vf : Nat) (n : Fin 8) :
    (packetState s vf n).mem = s.mem ∧ (packetState s vf n).hostMem = s.hostMem := ⟨rfl, rfl⟩

@[simp] theorem choose_memories (s : State) : (choose s).2.mem = s.mem ∧ (choose s).2.hostMem = s.hostMem := by
  simp only [choose]
  split <;> exact ⟨rfl, rfl⟩

end Sys2Proof.Laws
end

section
/-! SUPPORT. The functions of the state that write to a byte memory keep it in canonical form (R4, R185). Part of the proof of O60. -/

namespace Sys2Proof.Laws

open Sys2Proof.Machine Sys2Proof.Safety

/-! ### Caches, translation and regions -/

/-- The canonical form speaks of the two byte memories only. -/
theorem canon_same {s t : State} (e : t.mem = s.mem ∧ t.hostMem = s.hostMem) (h : memCanon s) : memCanon t := by
  unfold memCanon
  rw [e.1, e.2]
  exact h

theorem canon_ite {c : Prop} [Decidable c] {s t : State} (hs : memCanon s) (ht : memCanon t) : memCanon (if c then s else t) := by
  split
  · exact hs
  · exact ht

theorem canon_foldl {α : Type} {f : State → α → State} (hf : ∀ s x, memCanon s → memCanon (f s x)) (l : List α) {s : State}
    (h : memCanon s) : memCanon (l.foldl f s) := by
  induction l generalizing s with
  | nil => exact h
  | cons x r ih => exact ih (hf s x h)

theorem setView_canon {s : State} (k : Nat) (l : List Byte) (h : memCanon s) : memCanon (setView s k l) := by
  unfold setView
  split
  · exact canon_same ⟨rfl, rfl⟩ h
  · exact ⟨memory_wf_writeBytes _ _ _ h.1, h.2⟩

theorem fillSector_canon {s : State} (cattr : BitVec 2) (k : Nat) (h : memCanon s) : memCanon (fillSector s cattr k) := by
  simp only [fillSector]
  split
  · split
    · exact h
    · exact canon_same ⟨rfl, rfl⟩ (setView_canon k _ h)
  · split
    · exact canon_same ⟨rfl, rfl⟩ (setView_canon k _ h)
    · exact h

theorem l2Touch_canon {s t : State} {v : Via} {cattr : BitVec 2} {a : Nat} {u : Use} (e : l2Touch s v cattr a u = .ok t)
    (h : memCanon s) : memCanon t := by
  simp only [l2Touch] at e
  split at e
  · cases e
  split at e
  · cases e
  split at e
  · cases e
  cases e
  simp only [memCanon, sampleRead_memories]
  split
  · exact fillSector_canon _ _ (canon_same (by simp [apply_ite State.mem, apply_ite State.hostMem]) h)
  · exact canon_same (by simp [apply_ite State.mem, apply_ite State.hostMem]) h

theorem fillFor_canon {v : Via} {l : List Store} {as : List Nat} {s t : State} (e : fillFor v l as s = .ok t) (h : memCanon s) :
    memCanon t := by
  induction as generalizing s with
  | nil => cases e; exact h
  | cons a r ih =>
    simp only [fillFor] at e
    split at e
    · split at e
      · cases e
      · exact ih e h
    · split at e
      · cases e
      · next u hu => exact ih e (l2Touch_canon hu h)

theorem performStore_canon {s : State} (p vf port : Nat) (w : Writer) (x : Store) (h : memCanon s) :
    memCanon (performStore s p vf port w x) := by
  simp only [performStore]
  split
  · exact h
  · next u hu => exact canon_same (by simp) (l2Touch_canon hu h)

theorem performStores_canon {s : State} (p vf port : Nat) (w : Writer) (l : List Store) (h : memCanon s) :
    memCanon (performStores s p vf port w l) :=
  canon_foldl (fun _ x => performStore_canon p vf port w x) l (canon_same (by simp) h)

theorem hostTouch_canon_ok {vf : Nat} {ks : List Nat} {s t : State} (e : hostTouch vf ks s = .ok t) (h : memCanon s) : memCanon t := by
  induction ks generalizing s with
  | nil => cases e; exact h
  | cons k r ih =>
    simp only [hostTouch] at e
    split at e
    · next u hu => exact ih e (l2Touch_canon hu h)
    · cases e

theorem hostTouch_canon_error {vf : Nat} {ks : List Nat} {s : State} {x : Nat × State} (e : hostTouch vf ks s = .error x) (h : memCanon s) :
    memCanon x.2 := by
  induction ks generalizing s with
  | nil => cases e
  | cons k r ih =>
    simp only [hostTouch] at e
    split at e
    · next u hu => exact ih e (l2Touch_canon hu h)
    · cases e; exact h

theorem touchDesc_canon {s : State} (v : Via) (f : Nat) (h : memCanon s) : memCanon (touchDesc s v f) := by
  unfold touchDesc
  split
  · exact h
  · split
    · next u hu => exact l2Touch_canon hu h
    · exact h

theorem translate_canon {s : State} {p : Nat} {v : Via} {t : Tensor} {n off : Nat} {write : Bool} {x : State × Latch}
    (e : Machine.translate s p v t n off write = .ok x) (h : memCanon s) : memCanon x.1 := by
  simp only [Machine.translate] at e
  split at e
  · cases e
  split at e
  · cases e
  next u hu =>
  have hu := l2Touch_canon hu (touchDesc_canon _ _ h)
  split at e
  · cases e
  split at e
  · cases e
  split at e
  · cases e
  cases e
  exact touchDesc_canon _ _ hu

theorem throughLatch_canon {s : State} {p : Nat} {v : Via} {t : Tensor} {n off : Nat} {write : Bool} {l : Option Latch} {x : State × Latch}
    (e : throughLatch s p v t n off write l = .ok x) (h : memCanon s) : memCanon x.1 := by
  cases l with
  | none => exact translate_canon e h
  | some l =>
    simp only [throughLatch] at e
    split at e
    · split at e
      · exact translate_canon e h
      · split at e
        · cases e
        · cases e; exact h
    · exact translate_canon e h

theorem throughTlb_canon {s : State} {die p : Nat} {v : Via} {t : Tensor} {n off : Nat} {write : Bool} {x : State × Latch}
    (e : throughTlb s die p v t n off write = .ok x) (h : memCanon s) : memCanon x.1 := by
  simp only [throughTlb] at e
  split at e
  · cases e
  · next u l hu =>
    cases e
    exact canon_same (by simp) (throughLatch_canon hu h)

theorem engAddr_canon {s : State} {p : Nat} {v : Via} {g : Graph} {tid : BitVec 20} {tile off : Nat} {write : Bool} {x : State × Nat × BitVec 2}
    (e : engAddr s p v g tid tile off write = .ok x) (h : memCanon s) : memCanon x.1 := by
  simp only [engAddr] at e
  split at e
  · cases e
  split at e
  · cases e
  next u l hu =>
  cases e
  exact translate_canon (x := (u, l)) hu h

theorem touchSectors_canon {v : Via} {ca : BitVec 2} {u : Use} {as : List Nat} {s t : State} (e : touchSectors v ca u as s = .ok t)
    (h : memCanon s) : memCanon t := by
  induction as generalizing s with
  | nil => cases e; exact h
  | cons a r ih =>
    simp only [touchSectors] at e
    split at e
    · cases e
    · next w hw => exact ih e (l2Touch_canon hw h)

theorem readRegion_canon {s : State} {p : Nat} {v : Via} {c : Nat} {g : Graph} {seen : Table Byte} {r : Region} {n : Nat}
    {x : State × List Byte} (e : readRegion s p v c g seen r n = .ok x) (h : memCanon s) : memCanon x.1 := by
  cases r with
  | tensor tid tile off =>
    simp only [readRegion] at e
    split at e
    · cases e
    split at e
    · cases e
    next ha _ _ ht =>
    cases e
    exact touchSectors_canon ht (engAddr_canon ha h)
  | tile mt line => cases e; exact h
  | hide off => cases e; exact canon_same (by simp) h
  | loft _ => cases e
  | bad => cases e

@[simp] theorem putHide_memories (p : Nat) (l : List Byte) (i : Nat) (s : State) :
    (putHide p l i s).s.mem = s.mem ∧ (putHide p l i s).s.hostMem = s.hostMem := by
  induction l generalizing i s with
  | nil => exact ⟨rfl, rfl⟩
  | cons b r ih =>
    simp only [putHide]
    split
    · exact ⟨rfl, rfl⟩
    · simp [ih]

theorem writeRegion_canon {s : State} (p : Nat) (v : Via) (c id : Nat) (g : Graph) (r : Region) (shift : Nat) (l : List Byte) (h : memCanon s) :
    memCanon (writeRegion s p v c id g r shift l).s := by
  cases r with
  | tensor tid tile off =>
    simp only [writeRegion]
    split
    · exact h
    next u a ca ha =>
    have hu := engAddr_canon ha h
    split
    · exact hu
    split
    · exact hu
    · next w hw => exact performStores_canon _ _ _ _ _ (fillFor_canon hw hu)
  | tile mt line => exact canon_same (by simp [writeRegion]) h
  | loft off => exact canon_same (by simp [writeRegion]) h
  | hide off => exact canon_same (by simp [writeRegion]) h
  | bad => exact h

/-! ### Collectives and engines -/

theorem canon_put_ite {c : Prop} [Decidable c] {s : State} {x : Put} (hs : memCanon s) (hx : memCanon x.s) :
    memCanon (if c then { s := s, stop := none } else x : Put).s := by
  split
  · exact hs
  · exact hx

theorem deliver_canon {s : State} (group opn : Nat) (h : memCanon s) : memCanon (deliver s group opn) := by
  unfold deliver
  split
  · exact canon_same (by simp [apply_ite State.mem, apply_ite State.hostMem]) h
  dsimp only
  split
  · exact h
  split
  · exact canon_same (by simp [apply_ite State.mem, apply_ite State.hostMem]) h
  split
  · exact h
  split
  · exact canon_same (collStall_memories _ _ _ _ _) (canon_put_ite h (writeRegion_canon _ _ _ _ _ _ _ _ h))
  · exact canon_same ⟨rfl, rfl⟩ (canon_put_ite h (writeRegion_canon _ _ _ _ _ _ _ _ h))

theorem cameDown_canon {s : State} (group opn : Nat) (l : List Word) (last : Bool) (h : memCanon s) : memCanon (cameDown s group opn l last) := by
  simp only [cameDown]
  split
  · exact canon_same (by simp [apply_ite State.mem, apply_ite State.hostMem]) h
  · exact deliver_canon _ _ (canon_same (by simp) h)

theorem passDown_canon {s : State} (w : DWord) (f : Flit) (vals : List Word) (ended : Bool) (h : memCanon s) :
    memCanon (passDown s w f vals ended) := by
  have hc := canon_same (copyDown_memories s w f vals) h
  exact canon_ite hc (cameDown_canon _ _ _ _ hc)

theorem passUp_canon {s : State} (w : DWord) (group opn : Nat) (rop pfmt : BitVec 4) (cnt : Nat) (last : Bool) (vals : List Word)
    (h : memCanon s) : memCanon (passUp s w group opn rop pfmt cnt last vals) := by
  simp only [passUp]
  split
  · exact cameDown_canon _ _ _ _ (canon_same (by simp [apply_ite State.mem, apply_ite State.hostMem]) h)
  · exact canon_same (by simp [apply_ite State.mem, apply_ite State.hostMem]) h

theorem reduceAlone_canon {s : State} (w : DWord) (group opn : Nat) (c : Contrib) (h : memCanon s) : memCanon (reduceAlone s w group opn c) := by
  simp only [reduceAlone]
  split
  · exact cameDown_canon _ _ _ _ h
  split
  · exact canon_same (by simp) h
  · exact canon_foldl (fun _ x => passUp_canon _ _ _ _ _ _ _ _) _ h

theorem combineReady_canon (n group opn : Nat) {s : State} (h : memCanon s) : memCanon (combineReady n group opn s) := by
  induction n generalizing s with
  | zero => exact h
  | succ n ih =>
    simp only [combineReady]
    refine canon_ite (canon_same (by simp) h) ?_
    split
    · exact h
    split
    · exact h
    · exact ih (passUp_canon _ _ _ _ _ _ _ _ (canon_same (by simp) h))

theorem reduceGo_canon {s : State} (group opn : Nat) (h : memCanon s) : memCanon (reduceGo s group opn) := by
  simp only [reduceGo]
  split
  · exact reduceAlone_canon _ _ _ _ h
  · exact h
  · exact combineReady_canon _ _ _ h

theorem redupArrives_canon {s : State} (port : Nat) (f : Flit) (vals : List Word) (h : memCanon s) :
    memCanon (redupArrives s port f vals) := by
  simp only [redupArrives]
  split
  · exact h
  split
  · exact canon_same (by simp) h
  split
  · exact h
  · exact reduceGo_canon _ _ (canon_same (by simp) h)

theorem drainFrom_canon (n : Nat) {s : State} (h : memCanon s) : memCanon (drainFrom n s) := by
  induction n generalizing s with
  | zero => exact h
  | succ n ih =>
    simp only [drainFrom]
    split
    · exact h
    · next x _ =>
      have hb : memCanon (modFPort s x.1 (fun p => { p with vcBuf := p.vcBuf.erase x.2 })) := canon_same (by simp) h
      exact ih (canon_same (returnCredit_memories _ _ _) (canon_ite hb (redupArrives_canon _ _ _ hb)))

theorem drainBuffers_canon {s : State} (h : memCanon s) : memCanon (drainBuffers s) := drainFrom_canon _ h

theorem barDown_canon {s : State} (w : DWord) (group opn : Nat) (ended : Bool) (h : memCanon s) : memCanon (barDown s w group opn ended) := by
  simp only [barDown]
  split
  · exact canon_same (by simp) h
  · exact cameDown_canon _ _ _ _ (canon_same (by simp) h)

theorem barArrive_canon {s : State} (group opn : Nat) (who : Option Nat) (h : memCanon s) : memCanon (barArrive s group opn who) := by
  simp only [barArrive]
  split
  · exact h
  split
  · split
    · exact barDown_canon _ _ _ _ (canon_same (by simp) h)
    · exact canon_same (by simp) h
  · exact canon_same (by simp) h

theorem recvFlit_canon {s : State} {go : State → Flit → List Word → State}
    (hgo : ∀ s f vals, memCanon s → memCanon (go s f vals)) (port : Fin 18) (type vc : Nat) (f : Flit) (h : memCanon s) :
    memCanon (recvFlit s port type vc f go) := by
  simp only [recvFlit]
  split
  · exact h
  split
  · exact canon_same (by simp) h
  split
  · exact canon_same (by simp) h
  exact hgo _ _ _ (canon_same (by (repeat' split) <;> simp) h)

theorem recvOp_canon {s : State} {go : State → DWord → List Word → Bool → State}
    (hgo : ∀ s w vals b, memCanon s → memCanon (go s w vals b)) (port : Fin 18) (type vc : Nat) (f : Flit) (h : memCanon s) :
    memCanon (recvOp s port type vc f go) := by
  refine recvFlit_canon (fun s f vals hs => ?_) port type vc f h
  have hr := canon_same (returnCredit_memories s port f.vc) hs
  exact canon_ite (canon_same (by simp) hr) (hgo _ _ _ _ hr)

theorem finishCommand_canon {s : State} (r : Running) (h : memCanon s) : memCanon (finishCommand s r) := by
  simp only [finishCommand]
  split
  · exact drainBuffers_canon (canon_same (by simp) h)
  · exact canon_same (by simp) h

theorem finishWith_canon {x : Put} (r : Running) (h : memCanon x.s) : memCanon (finishWith x r) := by
  unfold finishWith
  split
  · exact finishCommand_canon r h
  · exact canon_same (by simp) h

theorem moveRegion_canon {s : State} (r : Running) (g : Graph) (a b : DWord) (n : Nat) (f : List Byte → List Byte) (h : memCanon s) :
    memCanon (moveRegion s r g a b n f) := by
  simp only [moveRegion]
  split
  · exact canon_same (by simp) h
  · next hr => exact finishWith_canon r (writeRegion_canon _ _ _ _ _ _ _ _ (readRegion_canon hr h))

theorem gatherElem_canon {p : Nat} {v : Via} {c : Nat} {t : Tensor} {seen : Table Byte} {i j : Nat} {s : State} {x : State × Nat}
    (e : gatherElem p v c t seen i j s = .ok x) (h : memCanon s) : memCanon x.1 := by
  simp only [gatherElem] at e
  split at e
  · cases e; exact h
  split at e
  · cases e
  next ht =>
  split at e
  · cases e
  · next hu => cases e; exact l2Touch_canon hu (throughTlb_canon ht h)

theorem gatherElems_canon {p : Nat} {v : Via} {c : Nat} {t : Tensor} {seen : Table Byte} {j n i : Nat} {s : State} {x : State × List Nat}
    (e : gatherElems p v c t seen j n i s = .ok x) (h : memCanon s) : memCanon x.1 := by
  induction n generalizing i s x with
  | zero => cases e; exact h
  | succ n ih =>
    simp only [gatherElems] at e
    split at e
    · cases e
    next hy =>
    split at e
    · cases e
    next hl =>
    cases e
    exact (ih hl (gatherElem_canon hy h) :)

theorem gatherRows_canon (p : Nat) (v : Via) (c : Nat) (t : Tensor) (seen : Table Byte) (rb : Nat) (l : List Nat) {s : State} (h : memCanon s) :
    memCanon (gatherRows p v c t seen rb l s).1 := by
  induction l generalizing s with
  | nil => exact h
  | cons x r ih =>
    simp only [gatherRows]
    split
    · exact h
    · next hl => exact ih (gatherElems_canon hl h)

theorem runGather_canon {s : State} (r : Running) (g : Graph) (a b c : DWord) (n rb : Nat) (h : memCanon s) :
    memCanon (runGather s r g a b c n rb) := by
  simp only [runGather]
  split
  · split
    · exact canon_same (by simp) h
    split
    · exact finishWith_canon r (writeRegion_canon _ _ _ _ _ _ _ _ (gatherRows_canon _ _ _ _ _ _ _ h))
    split
    · exact canon_same (by simp) h
    · exact canon_same (onStall_memories _ _ _) (writeRegion_canon _ _ _ _ _ _ _ _ (gatherRows_canon _ _ _ _ _ _ _ h))
  · exact canon_same (by simp) h

theorem runXf_canon {s : State} (r : Running) (g : Graph) (sel : BitVec 8) (a b : Option DWord) (n : Nat) (c : DWord) (x : BitVec 24)
    (h : memCanon s) : memCanon (runXf s r g sel a b n c x) := by
  simp only [runXf]
  split
  · exact canon_same (by simp) h
  split
  · exact canon_same (by simp) h
  next s' l hy =>
  have hs : memCanon s' := by
    cases a with
    | some a => exact readRegion_canon hy h
    | none =>
      cases hy
      exact canon_same ⟨rfl, rfl⟩ h
  split
  · exact finishCommand_canon r (canon_same ⟨rfl, rfl⟩ hs)
  have hz := fun b y => writeRegion_canon r.part (viaOf s r g) r.core r.id g b 0 y hs
  split
  · split
    · exact canon_same (onStall_memories _ _ _) (hz _ _)
    · exact canon_same (by simp) h
  · exact finishCommand_canon r (hz _ _)

theorem collSource_canon {s : State} {r : Running} {g : Graph} {a : DWord} {n : Nat} {x : State × List Word}
    (e : collSource s r g a n = .ok x) (h : memCanon s) : memCanon x.1 := by
  simp only [collSource] at e
  split at e
  · cases e
  · next hr => cases e; exact readRegion_canon hr h

theorem collStart_canon {s : State} (r : Running) (g : Graph) (h : memCanon s) : memCanon (collStart s r g) := by
  unfold collStart
  cases r.cmd with
  | mc a b n pfmt cl group opn =>
    dsimp only
    split
    · exact deliver_canon _ _ (canon_same (by simp) h)
    split
    · exact drainBuffers_canon (canon_same (by simp) h)
    · next hs => exact cameDown_canon _ _ _ _ (canon_same (by simp [apply_ite State.mem, apply_ite State.hostMem]) (collSource_canon hs h))
  | bar group opn => exact deliver_canon _ _ (barArrive_canon _ _ _ (canon_same (by simp) h))
  | red rop a b n pfmt cl group d opn =>
    dsimp only
    split
    · exact h
    split
    · exact drainBuffers_canon (canon_same (by simp) h)
    · next hs =>
      exact drainBuffers_canon (deliver_canon _ _ (reduceGo_canon _ _ (canon_same (by simp) (collSource_canon hs h))))
  | _ => exact h

theorem runColl_canon {s : State} (r : Running) (g : Graph) (group opn : Nat) (h : memCanon s) : memCanon (runColl s r g group opn) := by
  unfold runColl
  split
  · exact finishCommand_canon r h
  split
  · exact drainBuffers_canon (canon_same (by simp) h)
  split
  · exact drainBuffers_canon (deliver_canon _ _ h)
  · exact collStart_canon r g h

theorem runQk_canon {s : State} (r : Running) (g : Graph) (kf : KF) (a b c : DWord) (l0 nl ko vo : Nat) (h : memCanon s) :
    memCanon (runQk s r g kf a b c l0 nl ko vo) := by
  simp only [runQk]
  split
  · exact canon_same (by simp) h
  · next hr => exact finishCommand_canon r (canon_same (by simp) (readRegion_canon hr h))

theorem stirVec_canon {s : State} {v : Via} {r : Running} {y : StirLane} {lg off pos : Nat} {x : State × List FV}
    (e : stirVec s v r y lg off pos = .ok x) (h : memCanon s) : memCanon x.1 := by
  simp only [stirVec] at e
  split at e
  · cases e
  · cases e; exact h
  split at e
  · cases e
  · next ht => cases e; exact touchSectors_canon ht (touchDesc_canon _ _ h)

theorem stirScores_canon {v : Via} {r : Running} {y : StirLane} {l : List Nat} {s : State} {x : State × List (Word × List Word)}
    (e : stirScores v r y l s = .ok x) (h : memCanon s) : memCanon x.1 := by
  induction l generalizing s x with
  | nil => cases e; exact h
  | cons p rest ih =>
    simp only [stirScores] at e
    split at e
    · cases e
    next hk =>
    split at e
    · cases e
    next hv =>
    split at e
    · cases e
    next hl =>
    cases e
    exact (ih hl (stirVec_canon hv (stirVec_canon hk h)) :)

theorem stirLaneRun_canon {v : Via} {r : Running} {bs : List (List Nat)} {y : StirLane} {s : State} {x : State × StirLane}
    (e : stirLaneRun v r bs y s = .ok x) (h : memCanon s) : memCanon x.1 := by
  induction bs generalizing s y with
  | nil => cases e; exact h
  | cons b rest ih =>
    simp only [stirLaneRun] at e
    split at e
    · cases e
    · next hl => exact ih e (stirScores_canon hl h)

theorem stirLanes_canon {v : Via} {r : Running} {a b : Nat} {ls : List Nat} {s t : State} (e : stirLanes v r a b ls s = .ok t)
    (h : memCanon s) : memCanon t := by
  induction ls generalizing s with
  | nil => cases e; exact h
  | cons l rest ih =>
    simp only [stirLanes] at e
    split at e
    · cases e
    split at e
    · cases e
    · next hl => exact ih e (canon_same (by simp) (stirLaneRun_canon hl h))

theorem runPv_canon {s : State} (r : Running) (g : Graph) (a b : DWord) (l0 nl : Nat) (h : memCanon s) : memCanon (runPv s r g a b l0 nl) := by
  unfold runPv
  split
  · exact canon_same (by simp) h
  split
  · exact canon_same (by simp) h
  · next hl => exact finishCommand_canon r (stirLanes_canon hl h)

theorem runGet_canon {s : State} (r : Running) (g : Graph) (b : DWord) (l0 nl : Nat) (h : memCanon s) : memCanon (runGet s r g b l0 nl) := by
  simp only [runGet]
  split
  · exact canon_same (by simp) h
  · exact finishWith_canon r (writeRegion_canon _ _ _ _ _ _ _ _ h)

theorem stopEngines_canon {s : State} (p : Nat) (h : memCanon s) : memCanon (stopEngines s p) :=
  drainBuffers_canon (canon_same (by simp) h)

/-! ### Rounds, sequences, saved slices and resets -/

theorem canon_getD {o : Option State} {s : State} (ho : ∀ t, o = some t → memCanon t) (h : memCanon s) : memCanon (o.getD s) := by
  cases o with
  | none => exact h
  | some t => exact ho t rfl

theorem canon_write64 {s : State} (a : Nat) (w : DWord) (h : memCanon s) : memCanon { s with mem := write64 s.mem a w } :=
  ⟨memory_wf_write64 _ _ _ h.1, h.2⟩

theorem publish_canon {s : State} (p : Nat) (h : memCanon s) : memCanon (publish s p) :=
  ⟨memory_wf_foldl _ _ _ h.1 (fun _ _ hm => memory_wf_foldl _ _ _ hm (fun _ _ hm => memory_wf_writeB _ _ _ hm)), h.2⟩

theorem readSectors_canon {s : State} (v : Via) (cattr : BitVec 2) (a n : Nat) (h : memCanon s) : memCanon (readSectors s v cattr a n) := by
  refine canon_foldl (fun s i hs => ?_) _ h
  split
  · next hu => exact l2Touch_canon hu hs
  · exact hs

theorem copySet_canon {s : State} (p vf core : Nat) (cls : BitVec 2) (f old new : Nat) (h : memCanon s) :
    memCanon (copySet s p vf core cls f old new) :=
  canon_foldl (fun _ _ hs => performStores_canon _ _ _ _ _ (readSectors_canon _ _ _ _ hs)) _ h

theorem kvCommit_canon {s : State} (p vf core : Nat) (cls : BitVec 2) (k : KvOp) (h : memCanon s) : memCanon (kvCommit s p vf core cls k) := by
  cases k with
  | fork seq par n =>
    refine canon_same (touchSeq_memories _ _ _) (canon_same (modSeq_memories _ _ _ _) (canon_foldl (fun s b hs => ?_) _ h))
    split
    · exact hs
    · exact canon_same (by simp) hs
  | app seq n u =>
    simp only [kvCommit]
    refine canon_same (touchSeq_memories _ _ _) (canon_same (modSeq_memories _ _ _ _) (canon_same (mapNew_memories _ _ _ _ _ _) ?_))
    split
    · split
      · next hx =>
        exact canon_same (decCount_memories _ _) (canon_same (pomPut_memories _ _ _ _ _)
          (copySet_canon _ _ _ _ _ _ _ (canon_same (allocSet_memories hx) h)))
      · exact h
    · exact h
  | pin seq base => exact canon_same (by simp [kvCommit]) h
  | unpin base => exact canon_same (by simp [kvCommit]) h
  | free seq =>
    refine canon_same (modSeq_memories _ _ _ _) (canon_foldl (fun s b hs => ?_) _ h)
    split
    · exact hs
    · exact canon_same (by simp) hs

theorem releaseHeld_canon {s : State} (p slot c : Nat) (cls : BitVec 2) (x : Held) (h : memCanon s) : memCanon (releaseHeld s p slot c cls x) := by
  cases x with
  | cmd opc x => exact canon_same (release_memories _ _ _ _ _ _) h
  | kv k => exact kvCommit_canon _ _ _ _ _ h
  | cancel level w => exact canon_same (doCancel_memories _ _ _ _) h

theorem performRound_canon {s : State} (p : Nat) (l : List (Nat × List Store)) (h : memCanon s) : memCanon (performRound s p l) :=
  canon_foldl (fun _ _ hs => performStores_canon _ _ _ _ _ hs) l h

theorem commitRound_canon {s : State} (p slot : Nat) (h : memCanon s) : memCanon (commitRound s p slot) := by
  unfold commitRound
  split
  · exact h
  · next g _ =>
    dsimp only
    refine canon_same (s := List.foldl _ _ _) ⟨rfl, rfl⟩ ?_
    refine canon_same (foldl_memories (fun _ _ => by simp) _ _) ?_
    refine canon_same (passTokens_memories _ _) ?_
    refine canon_foldl (fun _ _ hs => releaseHeld_canon _ _ _ _ _ hs) _ ?_
    refine canon_same ⟨modCores_mem _ _ _, modCores_hostMem _ _ _⟩ ?_
    exact canon_same (foldl_memories (fun _ _ => by simp) _ _) (performRound_canon p _ h)

theorem commitOrClash_canon {s : State} (p slot : Nat) (g : Graph) (h : memCanon s) : memCanon (commitOrClash s p slot g) := by
  unfold commitOrClash
  split
  · exact canon_same (by simp) h
  · exact commitRound_canon p slot h

theorem freeFrames_canon {s : State} (base n : Nat) (h : memCanon s) : memCanon (freeFrames s base n) := ⟨memory_wf_filter _ _ h.1, h.2⟩

theorem coldTable_canon {s : State} {p : Nat} {q : Seq} {x : Seq × State} (e : coldTable s p q = some x) (h : memCanon s) : memCanon x.2 := by
  simp only [coldTable] at e
  split at e
  · cases e; exact h
  split at e
  · cases e
  next hy =>
  cases e
  have hs := canon_same (systemFrames_memories hy) h
  exact canon_ite hs (freeFrames_canon _ _ hs)

theorem swapOut_canon {s t : State} {p vf q : Nat} (e : swapOut s p vf q = some t) (h : memCanon s) : memCanon t := by
  obtain ⟨y, hy, rfl⟩ := Option.map_eq_some_iff.1 e
  refine canon_same (putSeq_memories _ _ _ _) (canon_foldl (fun s b hs => ?_) _ (coldTable_canon hy h))
  split
  · exact ⟨memory_wf_write64 _ _ _ hs.1, hs.2⟩
  · exact canon_write64 _ _ hs

theorem makeSwapRoom_canon {p vf keep need n : Nat} {s t : State} (e : makeSwapRoom p vf keep need n s = some t) (h : memCanon s) :
    memCanon t := by
  induction n generalizing s with
  | zero =>
    simp only [makeSwapRoom] at e
    split at e
    · cases e; exact h
    · cases e
  | succ n ih =>
    simp only [makeSwapRoom] at e
    split at e
    · cases e; exact h
    split at e
    · cases e
    split at e
    · cases e
    · next hu => exact ih e (swapOut_canon hu h)

theorem swapIn_canon {s t : State} {p q : Nat} (e : swapIn s p q = some t) (h : memCanon s) : memCanon t := by
  simp only [swapIn] at e
  split at e
  · cases e
  next hu =>
  have hu := makeSwapRoom_canon hu h
  split at e
  · cases e
    exact canon_same (by simp [apply_ite State.mem, apply_ite State.hostMem]) hu
  · cases e; exact hu

theorem swapOutAll_canon {s : State} (p : Nat) (h : memCanon s) : memCanon (swapOutAll s p) :=
  canon_foldl (fun _ _ hs => canon_getD (fun _ e => swapOut_canon e hs) hs) _ h

theorem writeArea_canon {s : State} {p : Nat} {c : Context} {x : State × Context} (e : writeArea s p c = some x) (h : memCanon s) :
    memCanon x.1 := by
  obtain ⟨y, hy, rfl⟩ := Option.map_eq_some_iff.1 e
  have hs := canon_same (systemFrames_memories hy) h
  exact ⟨memory_wf_foldl _ _ _
    (memory_wf_foldl _ _ _ hs.1 (fun _ _ hm => memory_wf_write64 _ _ _ hm))
    (fun _ _ hm => memory_wf_foldl _ _ _ hm (fun _ _ hm => memory_wf_writeBytes _ _ _ hm)), hs.2⟩

theorem saveSlice_canon {s : State} (p : Nat) (h : memCanon s) : memCanon (saveSlice s p) := by
  have hs := swapOutAll_canon p h
  unfold saveSlice
  dsimp only
  split
  · next x hx =>
    refine canon_same (rebindSlice_memories _ _ _) ?_
    split at hx
    · exact writeArea_canon hx hs
    · cases hx
  · exact canon_getD (fun t e => canon_same (roomFor_memories e) hs) (canon_same (rebindSlice_memories _ _ _) hs)

theorem dropArea_canon {s : State} (c : Context) (h : memCanon s) : memCanon (dropArea s c) := canon_ite h (freeFrames_canon _ _ h)

theorem relatchPort_canon {s : State} (p : Nat) (g : Graph) (c : Nat) (i : Fin 16) (h : memCanon s) : memCanon (relatchPort p g c s i) := by
  simp only [relatchPort]
  split
  · exact h
  split
  · exact h
  split
  · exact h
  split
  · next hl => exact canon_same (by simp) (translate_canon hl h)
  · exact h

theorem relatchAll_canon {s : State} (p : Nat) (h : memCanon s) : memCanon (relatchAll s p) :=
  canon_foldl (fun _ _ hs => canon_foldl (fun _ _ hs => canon_foldl (fun _ i hs => relatchPort_canon _ _ _ i hs) _ hs) _ hs) _ h

theorem restoreContext_canon {s : State} (p : Nat) (c : Context) (h : memCanon s) : memCanon (restoreContext s p c) := by
  have hold (s : State) (g : Graph) : (g.hold.elim s (fun r => askAbsent s p g r)).mem = s.mem
      ∧ (g.hold.elim s (fun r => askAbsent s p g r)).hostMem = s.hostMem := by
    cases g.hold <;> simp
  simp only [restoreContext]
  refine canon_same (foldl_memories (fun s e => ?_) _ _) (canon_same (foldl_memories (fun s e => hold s e.2) _ _)
    (dropArea_canon c (relatchAll_canon p (canon_same ?_ h))))
  · split <;> simp
  · simp

theorem restoreSlice_canon {s : State} (p : Nat) (h : memCanon s) : memCanon (restoreSlice s p) := by
  unfold restoreSlice
  cases ownSaved s p with
  | none => exact canon_same ⟨rfl, rfl⟩ h
  | some c => exact canon_same ⟨rfl, rfl⟩ (restoreContext_canon p c h)

theorem afterWrites_canon {s : State} (p : Nat) (g : Graph) (h : memCanon s) : memCanon (afterWrites s p g) := by
  refine canon_foldl (fun s x hs => ?_) _ (performRound_canon _ _ h)
  split
  · exact kvCommit_canon _ _ _ _ _ hs
  · exact hs
  · exact hs

theorem performHeld_canon {s : State} (p : Nat) (h : memCanon s) : memCanon (performHeld s p) :=
  canon_same ⟨rfl, rfl⟩ (canon_foldl (fun _ e hs => commitOrClash_canon p e.1 e.2 hs) _ h)

theorem publishPhase_canon {s : State} (p : Nat) (h : memCanon s) : memCanon (publishPhase s p) :=
  canon_same (foldl_memories (fun s e => performPost_memories s p e) _ _) (publish_canon p h)

theorem unmapBlock_canon {s : State} (vf q : Nat) (x : Seq) (b : Nat) (h : memCanon s) : memCanon (unmapBlock s vf q x b) := by
  simp only [unmapBlock]
  split
  · split
    · exact canon_same (by simp) h
    · exact h
  · exact canon_ite (canon_same (decCount_memories _ _) (canon_write64 _ _ h)) h

theorem releaseAll_canon {s : State} (p : Nat) (h : memCanon s) : memCanon (releaseAll s p) := by
  refine canon_same (foldl_memories (fun s e => decCounts_memories _ _ _) _ _) (canon_foldl (fun t e ht => ?_) _ h)
  have hu := canon_ite (c := e.2.v = true)
    (canon_foldl (fun _ b hs => unmapBlock_canon (partOf s p).vf e.1 e.2 b hs) (upTo (blocksOf e.2.f)) ht) ht
  exact canon_ite hu (freeFrames_canon _ _ hu)

theorem discardSaved_canon {s : State} (p : Nat) (h : memCanon s) : memCanon (discardSaved s p) := by
  unfold discardSaved
  split
  · exact h
  split
  · exact canon_same ⟨rfl, rfl⟩ (dropArea_canon _ h)
  · exact h

theorem resetPart_canon {s : State} (p : Nat) (h : memCanon s) : memCanon (resetPart s p) := by
  have hd := discardSaved_canon p (canon_same (dropLoads_memories s (partOf s p).coreList) h)
  have hr := releaseAll_canon p (canon_same (rollBack_memories _ p) (stopEngines_canon p hd))
  have hz := canon_same (passTokens_memories _ (partOf s p).coreList) (canon_same (zeroPart_memories _ p) hr)
  exact canon_same ⟨rfl, rfl⟩ (canon_ite (canon_same (by simp) hz) hz)

theorem ctlWrite_canon {s : State} (a : Nat) (w : DWord) (h : memCanon s) : memCanon (ctlWrite s a w) := by
  have hs := canon_same (evictLine_memories s (a / 256)) h
  exact ⟨memory_wf_write64 _ _ _ hs.1, hs.2⟩

theorem narrow_canon {s : State} (base n : Nat) (x : Narrowing) (h : memCanon s) : memCanon (narrow s base n x) := by
  cases x with
  | none => exact h
  | ttEntry a w => exact ctlWrite_canon _ _ h
  | owner o => exact canon_same (by simp [narrow]) h
  | sdom d => exact canon_same (by simp [narrow]) h

theorem clearFrame_canon {s : State} (f : Nat) (h : memCanon s) : memCanon (clearFrame s f) := by
  have hs := canon_same (flushFrame_memories s f) h
  exact ⟨memory_wf_filter _ _ hs.1, hs.2⟩

theorem reclaimStep_canon {s : State} (base n : Nat) (h : memCanon s) : memCanon (reclaimStep s base n).2 := by
  unfold reclaimStep
  split
  · exact canon_same (by simp) h
  split
  · exact h
  split
  · exact canon_same (by simp) h
  split
  · exact canon_foldl (fun _ f hs => clearFrame_canon f hs) _ h
  · exact h

theorem afterReset_canon {s : State} (h : memCanon s) : memCanon (afterReset s) := ⟨memory_wf_nil, h.2⟩

/-! ### Stream ports and the clock -/

/-! stream ports -/
theorem reach_canon {s t : State} {v : Via} {l : Latch} {off : Nat} (e : reach s v l off = .ok t) (h : memCanon s) : memCanon t := by
  unfold reach at e
  cases hu : l2Touch s v l.cattr (l.frame.toNat * 65536 + off) .read with
  | error c => simp [hu, Except.mapError] at e
  | ok u =>
    simp only [hu, Except.mapError, Except.ok.injEq] at e
    exact e ▸ l2Touch_canon hu h

/-- Every access that an element makes through a port keeps the canonical form. -/
def accCanon {α : Type} (f : Nat → Acc1 → Except AccFault (Acc1 × α)) : Prop :=
  ∀ i x y, f i x = .ok y → memCanon x.s → memCanon y.1.s

theorem elemAccess_canon {c p : Nat} {v : Via} {t : Tensor} {co : List Int} {gather : Bool} {wr : Option Nat} {x : Acc1} {y : Acc1 × Nat}
    (e : elemAccess c p v t co gather wr x = .ok y) (h : memCanon x.s) : memCanon y.1.s := by
  simp only [elemAccess] at e
  split at e
  · cases e; exact h
  split at e
  · cases e
  next hl =>
  have hs : ∀ z, (if gather then throughTlb x.s (dieOf c) p v t (t.tileNo co) (t.elemOff co * fmtBits t.fmt / 8) wr.isSome
      else throughLatch x.s p v t (t.tileNo co) (t.elemOff co * fmtBits t.fmt / 8) wr.isSome x.latch) = .ok z → memCanon z.1 := by
    intro z hz
    split at hz
    · exact throughTlb_canon hz h
    · exact throughLatch_canon hz h
  have hu := hs _ hl
  split at e
  · cases e; exact hu
  split at e
  · cases e
  · next hr => cases e; exact reach_canon hr hu

theorem elemAccesses_canon {f : Nat → Acc1 → Except AccFault (Acc1 × Nat)} (hf : accCanon f) {n i : Nat} {x : Acc1} {y : Acc1 × List Nat}
    (e : elemAccesses f n i x = .ok y) (h : memCanon x.s) : memCanon y.1.s := by
  induction n generalizing i x y with
  | zero => cases e; exact h
  | succ n ih =>
    simp only [elemAccesses] at e
    split at e
    · cases e
    next hx =>
    split at e
    · cases e
    · next hl => cases e; exact (ih hl (hf _ _ _ hx h) :)

theorem elemWrites_canon {f : Nat → Acc1 → Except AccFault (Acc1 × Nat)} (hf : accCanon f) (n i : Nat) {x : Acc1} (h : memCanon x.s) :
    memCanon (elemWrites f n i x).1.s := by
  induction n generalizing i x with
  | zero => exact h
  | succ n ih =>
    simp only [elemWrites]
    split
    · exact h
    · next hx => exact ih _ (hf _ _ _ hx h)

theorem storesOf_canon {v : Via} {f : Nat → Acc1 → Except AccFault (Acc1 × Nat)} (hf : accCanon f) {n : Nat} {x y : Acc1}
    (e : storesOf v f n x = .ok y) (h : memCanon x.s) : memCanon y.s := by
  simp only [storesOf] at e
  split at e
  · cases e
  next hs =>
  split at e
  · cases e
  · cases e; exact fillFor_canon hs (elemWrites_canon hf _ _ h)

theorem gatherIndex_canon {c p : Nat} {v : Via} {g : Graph} {r : StreamRec} {t k : Nat} {x : Acc1} {y : Acc1 × Nat}
    (e : gatherIndex c p v g r t k x = .ok y) (h : memCanon x.s) : memCanon y.1.s := by
  unfold gatherIndex at e
  split at e
  · cases e; exact h
  · exact elemAccess_canon e h

theorem readVector_canon {s : State} {c : Fin 64} {p vf : Nat} {g : Graph} {r : StreamRec} {latch : Option Latch} {t k : Nat}
    {x : State × Option Latch × Lanes} (e : readVector s c p vf g r latch t k = .ok x) (h : memCanon s) : memCanon x.1 := by
  simp only [readVector] at e
  split at e
  · split at e
    · cases e; exact h
    split at e
    · cases e; exact h
    split at e
    · cases e; exact h
    split at e
    · cases e; exact h
    · cases e
    · cases e
  · split at e
    · cases e
    · cases e; exact h
    split at e
    · cases e
    · next hu => cases e; exact canon_same (touchSeq_memories _ _ _) (l2Touch_canon hu (touchDesc_canon _ _ h))
  · split at e
    · cases e; exact h
    split at e
    · cases e
    next hgo =>
    cases e
    split at hgo
    · split at hgo
      · cases hgo
      · next hi => exact elemAccesses_canon (fun _ _ _ ha hx => elemAccess_canon ha hx) hgo (gatherIndex_canon hi h)
    · exact elemAccesses_canon (fun _ _ _ ha hx => elemAccess_canon ha hx) hgo h

theorem writeVector_canon {s : State} {c : Fin 64} {p vf : Nat} {g : Graph} {r : StreamRec} {latch : Option Latch} {t k : Nat} {v : Lanes}
    {x : State × Option Latch × List Store} (e : writeVector s c p vf g r latch t k v = .ok x) (h : memCanon s) : memCanon x.1 := by
  simp only [writeVector] at e
  split at e
  · split at e
    · cases e; exact h
    split at e
    · cases e; exact h
    split at e
    · cases e
    · cases e; exact canon_same ⟨rfl, rfl⟩ h
  · split at e
    · cases e
    · cases e; exact h
    split at e
    · cases e
    · next hu => cases e; exact canon_same (touchSeq_memories _ _ _) (fillFor_canon hu (touchDesc_canon _ _ h))
  · split at e
    · cases e; exact h
    split at e
    · cases e
    next hgo =>
    cases e
    split at hgo
    · split at hgo
      · cases hgo
      · next hi => exact storesOf_canon (fun _ _ _ ha hx => elemAccess_canon ha hx) hgo (gatherIndex_canon hi h)
    · exact storesOf_canon (fun _ _ _ ha hx => elemAccess_canon ha hx) hgo h

theorem stepPort_canon {s : State} (i : Fin 16) (reads : Bool) (h : memCanon s) : memCanon (stepPort s i reads) := by
  simp only [stepPort]
  split
  · split
    · exact h
    split
    · exact canon_same (by simp [apply_ite State.mem, apply_ite State.hostMem]) h
    split
    · exact canon_same (by simp) h
    split
    · split
      · exact canon_same (by simp) h
      · next hw => exact canon_same ⟨rfl, rfl⟩ (writeVector_canon hw (canon_same (portReads_memories _ _ _) h))
    · split
      · exact canon_same (by simp) h
      · next hr => exact canon_same ⟨rfl, rfl⟩ (readVector_canon hr h)
  · exact h

theorem stepPorts_canon {s : State} (mask : BitVec 16) (h : memCanon s) : memCanon (stepPorts s mask) :=
  canon_foldl (fun _ i hs => stepPort_canon i false hs) _ (canon_foldl (fun _ i hs => stepPort_canon i true hs) _ h)

theorem tileReplay_canon {s : State} (slot : Fin 8) (acc : Bool) (bank : Fin 16) (mask : BitVec 16) (li : Nat) (h : memCanon s) :
    memCanon (tileReplay s slot acc bank mask li) :=
  canon_same ⟨rfl, rfl⟩ (stepPorts_canon mask h)

theorem sadAct_canon {s : State} (a : SadAct) (h : memCanon s) : memCanon (sadAct s a) := by
  cases a with
  | replay slot acc bank mask li => exact tileReplay_canon _ _ _ _ _ h
  | compute slot acc bank li => exact canon_same (tileCompute_memories _ _ _ _ _) h
  | drive line val => exact canon_same ⟨rfl, rfl⟩ h
  | accWrite e val => exact canon_same ⟨rfl, rfl⟩ h
  | loadLine slot u ready li => exact canon_same (by simp [sadAct]) h

/-! the clock -/
theorem sadDue_canon {s : State} (p slot c rc : Nat) (pass : Bool) (h : memCanon s) : memCanon (sadDue s p slot c rc pass) := by
  unfold sadDue
  refine canon_foldl (fun t a ht => ?_) _ (canon_same ⟨rfl, rfl⟩ h)
  exact sadAct_canon a.2 (canon_same (s := t) ⟨rfl, rfl⟩ ht)

theorem passesDue_canon {s : State} (p slot : Nat) (h : memCanon s) : memCanon (passesDue s p slot) := by
  unfold passesDue
  split
  · exact h
  · exact canon_foldl (fun _ _ hs => sadDue_canon _ _ _ _ _ hs) _ h

theorem tick_canon {s : State} (p slot : Nat) (h : memCanon s) : memCanon (tick s p slot) := by
  have hp := passesDue_canon p slot h
  unfold tick
  dsimp only
  split
  · exact hp
  split
  · exact canon_same (by simp) hp
  · exact canon_same (s := List.foldl _ _ _) ⟨rfl, rfl⟩ (canon_foldl (fun _ _ hs => sadDue_canon _ _ _ _ _ hs) _ (canon_same (by simp) hp))

theorem graphTick_canon {s : State} (p slot : Nat) (h : memCanon s) : memCanon (graphTick s p slot) := by
  unfold graphTick
  split
  · exact h
  split
  · exact tick_canon p slot h
  · exact canon_same (by simp) h
  · exact canon_same (by simp) h
  · exact h
  · exact h
  · exact h
  · exact h

theorem partClock_canon (s : State) {t : State} (p : Nat) (h : memCanon t) : memCanon (partClock s t p) :=
  canon_same (partTick_memories _ p) (canon_foldl (fun _ g hs => graphTick_canon p g.1 hs) _ (canon_same (by simp) h))

theorem clockTick_canon {s : State} (h : memCanon s) : memCanon (clockTick s) := by
  unfold clockTick
  split
  · exact h
  · refine canon_same (capTick_memories _) (canon_same (arbTick_memories _) ?_)
    exact canon_foldl (fun _ e hs => partClock_canon s e.1 hs) _ (canon_same ⟨rfl, rfl⟩ h)

end Sys2Proof.Laws
end

section
/-! SUPPORT. What every instruction, and so every step, does to the canonical form (R4, R185), and O60. -/

namespace Sys2Proof.Laws

open Sys2Proof.Machine Sys2Proof.Safety

/-! ### The instructions that can write to a byte memory -/

/-- Where the outcome is a next state, its byte memories are in canonical form. -/
def nextCanon : Host.Outcome State Fault Refusal → Prop
  | .next t => memCanon t
  | .fault _ | .refused _ => True

theorem nextCanon_next {t : State} (h : memCanon t) : nextCanon (.next t) := h

theorem nextCanon_same {s t : State} (e : t.mem = s.mem ∧ t.hostMem = s.hostMem) (h : memCanon s) : nextCanon (.next t) :=
  nextCanon_next (canon_same e h)

theorem modPart_memories (s : State) (p : Nat) (f : Part → Part) :
    (modPart s p f).mem = s.mem ∧ (modPart s p f).hostMem = s.hostMem := ⟨rfl, rfl⟩

section
variable {s : State} (h : memCanon s)
include h

theorem seqGo_canon {f : State → State} (hf : memCanon s → memCanon (f s)) : memCanon (seqGo s f) :=
  canon_ite (canon_same (illegal_memories s) h) (hf h)

theorem timedGo_canon {f : State → State} (hf : memCanon s → memCanon (f s)) : memCanon (timedGo s f) :=
  seqGo_canon h (fun h => canon_ite (canon_same (illegal_memories s) h) (hf h))

theorem execCxlMemWrite_canon (vf : BitVec 8) (addr : BitVec 48) (bytes : List Byte) : nextCanon (execCxlMemWrite vf addr bytes s) := by
  refine nextCanon_next ?_
  split
  · refine canon_ite h ?_
    refine canon_ite (canon_same (by simp) h) ?_
    refine canon_ite (canon_same (by simp [apply_ite State.mem, apply_ite State.hostMem]) h) ?_
    split
    · next hu => exact performStores_canon _ _ _ _ _ (fillFor_canon hu h)
    · exact canon_ite (canon_same (by simp) h) h
  · exact h

theorem execCxlMemRead_canon (vf : BitVec 8) (addr : BitVec 48) (len : Nat) : nextCanon (execCxlMemRead vf addr len s) := by
  refine nextCanon_next ?_
  split
  · refine canon_ite h ?_
    split
    · next hu => exact canon_same (hostLost_memories _ _ _) (hostTouch_canon_error hu h)
    · next hu => exact canon_same ⟨emit_mem _ _, emit_hostMem _ _⟩ (hostTouch_canon_ok hu h)
  · exact h

theorem execMcast_canon (port : Fin 18) (f : Flit) : nextCanon (execMcast port f s) :=
  nextCanon_next (recvOp_canon (fun _ _ _ _ hs => passDown_canon _ _ _ _ hs) _ _ _ _ h)

theorem execRedup_canon (port : Fin 18) (f : Flit) : nextCanon (execRedup port f s) := by
  refine nextCanon_next (recvFlit_canon (fun t f vals ht => ?_) _ _ _ _ h)
  refine canon_ite (canon_same (by simp) ht) (canon_ite (canon_same (by simp) ht) (canon_ite (canon_same (by simp) ht) ?_))
  exact drainBuffers_canon (redupArrives_canon _ _ _ (canon_same (by simp) ht))

theorem execReddn_canon (port : Fin 18) (f : Flit) : nextCanon (execReddn port f s) :=
  nextCanon_next (recvOp_canon (fun _ _ _ _ hs => drainBuffers_canon (passDown_canon _ _ _ _ hs)) _ _ _ _ h)

theorem execBarup_canon (port : Fin 18) (f : Flit) : nextCanon (execBarup port f s) :=
  nextCanon_next (recvOp_canon (fun _ _ _ _ hs => canon_ite hs (barArrive_canon _ _ _ hs)) _ _ _ _ h)

theorem execBardn_canon (port : Fin 18) (f : Flit) : nextCanon (execBardn port f s) :=
  nextCanon_next (recvOp_canon (fun _ _ _ _ hs => barDown_canon _ _ _ _ hs) _ _ _ _ h)

theorem execAbort_canon (port : Fin 18) (f : Flit) : nextCanon (execAbort port f s) :=
  nextCanon_next (recvOp_canon (fun _ _ _ _ hs => drainBuffers_canon (canon_same (by simp) hs)) _ _ _ _ h)

theorem execCollectiveTimeout_canon (group : BitVec 10) (opn : BitVec 16) : nextCanon (execCollectiveTimeout group opn s) :=
  nextCanon_next (drainBuffers_canon (canon_same (by simp) h))

theorem execAttestGo_canon (vf : BitVec 8) : nextCanon (execAttestGo vf s) := by
  refine nextCanon_next ?_
  dsimp only
  generalize reportBody s vf.toNat ++ _ ++ _ = r
  exact canon_ite h ⟨h.1, memory_wf_writeBytes r _ _ h.2⟩

theorem execEventWrite_canon (vf : BitVec 8) : nextCanon (execEventWrite vf s) := by
  have hw (a : Nat) (l : List (Nat × DWord)) : Memory.wf (l.foldl (fun h w => write64 h (a + 8 * w.1) w.2) s.hostMem) = true :=
    memory_wf_foldl _ _ _ h.2 (fun _ _ hm => memory_wf_write64 _ _ _ hm)
  refine nextCanon_next ?_
  dsimp only
  split
  · exact h
  · refine canon_ite h (canon_ite ?_ ?_)
    · exact ⟨h.1, hw _ _⟩
    · exact ⟨h.1, hw _ _⟩

theorem execRoundCommit_canon (part slot : BitVec 6) : nextCanon (execRoundCommit part slot s) := by
  refine nextCanon_next ?_
  dsimp only
  split
  · exact h
  refine canon_ite h (canon_ite (commitOrClash_canon _ _ _ h) ?_)
  split
  · exact canon_same (by simp) h
  refine canon_ite (canon_same (by simp) h) (canon_ite (canon_same (by simp) h) (canon_ite (canon_same (by simp) h) ?_))
  exact commitOrClash_canon _ _ _ h

/-- The boundary work of a phase (R183), once the partition is ready for it. -/
theorem boundaryWork_canon (p : Nat) (f : Part → Part) :
    memCanon (if !boundaryReady s p then s else modPart (endSlice (installLoads (performHeld (publishPhase s p) p) p) p) p f) := by
  refine canon_ite h (canon_same (modPart_memories _ _ _) ?_)
  exact canon_same (endSlice_memories _ _) (canon_same (installLoads_memories _ _) (performHeld_canon _ (publishPhase_canon _ h)))

theorem execPhaseBoundary_canon (part : BitVec 6) : nextCanon (execPhaseBoundary part s) := by
  refine nextCanon_next ?_
  dsimp only
  refine canon_ite h (canon_ite (saveSlice_canon _ h) (canon_ite (canon_same ⟨rfl, rfl⟩ (restoreSlice_canon _ h)) ?_))
  refine boundaryWork_canon ?_ _ _
  exact canon_ite h (canon_same ⟨rfl, rfl⟩ h)

theorem execPartitionReset_canon (o : ResetOrder) : nextCanon (execPartitionReset o s) := by
  refine nextCanon_next ?_
  dsimp only
  split
  · exact canon_ite (resetPart_canon _ h) h
  · exact canon_ite h (canon_same (by simp) h)

theorem execEngineCommandComplete_canon (id : Nat) : nextCanon (execEngineCommandComplete id s) := by
  refine nextCanon_next ?_
  split
  · exact h
  split
  · exact canon_same ⟨rfl, rfl⟩ h
  refine canon_ite h ?_
  next r _ _ _ _ =>
  have hr : memCanon (modRunning s r.id (fun r => { r with blocked := false })) := canon_same ⟨rfl, rfl⟩ h
  dsimp only
  split
  · exact moveRegion_canon _ _ _ _ _ _ hr
  · exact runGather_canon _ _ _ _ _ _ _ hr
  · exact runXf_canon _ _ _ _ _ _ _ _ hr
  · exact runColl_canon _ _ _ _ hr
  · exact runColl_canon _ _ _ _ hr
  · exact runColl_canon _ _ _ _ hr
  · exact runQk_canon _ _ _ _ _ _ _ _ _ _ hr
  · exact runPv_canon _ _ _ _ _ _ hr
  · exact runGet_canon _ _ _ _ _ hr

theorem execRelatchToken_canon (all : Bool) (base : BitVec 32) (run : TokenRange) : nextCanon (execRelatchToken all base run s) := by
  have hn := narrow_canon base.toNat run.count.toNat run.change h
  have ht (all : Bool) (b n : Nat) := canon_same (issueToken_memories _ all b n) hn
  refine nextCanon_next (canon_ite h ?_)
  split
  · exact canon_ite (canon_same ⟨rfl, rfl⟩ h) (canon_ite (ht _ _ _) (ht _ _ _))
  · exact ht _ _ _
  · exact ht _ _ _
  · exact ht _ _ _

theorem execFrameReclaim_canon (frame : BitVec 32) : nextCanon (execFrameReclaim frame s) := by
  have hr := reclaimStep_canon frame.toNat 1 h
  exact nextCanon_next (canon_ite h (canon_ite hr (canon_same ⟨rfl, rfl⟩ hr)))

theorem execPageSetReclaim_canon (base : BitVec 32) : nextCanon (execPageSetReclaim base s) := by
  have hr := reclaimStep_canon base.toNat (setLen s base.toNat) h
  exact nextCanon_next (canon_ite h (canon_ite (canon_same (returnQuota_memories _ _) hr) (canon_same ⟨rfl, rfl⟩ hr)))

theorem execCattrChange_canon (frame : BitVec 32) (attr : BitVec 2) (ttEntry : BitVec 48) : nextCanon (execCattrChange frame attr ttEntry s) := by
  have hagain (i : Instr) : memCanon (addTask s i) := canon_same ⟨rfl, rfl⟩ h
  refine nextCanon_next (canon_ite h (canon_ite (hagain _) (canon_ite (canon_ite h ?_) (canon_ite (hagain _) ?_))))
  · exact canon_same ⟨rfl, rfl⟩ (canon_same (issueToken_memories _ _ _ _) (ctlWrite_canon _ _ h))
  · exact ctlWrite_canon _ _ (canon_same (by simp) h)

theorem execTranslation_canon (core : Fin 64) (port : Fin 16) (use : PortUse) (coord : List Int) :
    nextCanon (execTranslation core port use coord s) := by
  refine nextCanon_next ?_
  split
  · exact h
  dsimp only
  split
  · refine canon_ite h (canon_ite (canon_same ⟨rfl, rfl⟩ h) ?_)
    split
    · exact h
    refine canon_ite h ?_
    split
    · exact h
    · next hl => exact canon_same ⟨rfl, rfl⟩ (throughLatch_canon hl h)
  · exact h

theorem execSequenceSwapIn_canon (part : BitVec 6) (seq : BitVec 12) : nextCanon (execSequenceSwapIn part seq s) := by
  refine nextCanon_next ?_
  dsimp only
  split
  · next hu => exact canon_same (by simp) (swapIn_canon hu h)
  · refine canon_foldl (fun t k ht => ?_) _ h
    split
    · exact ht
    · split <;> exact canon_same (by simp) ht

theorem execTstep_canon (slot : Fin 8) (acc : Bool) (bank : Fin 16) (repm1 : BitVec 12) (intm1 : BitVec 10) (mask : BitVec 16) :
    nextCanon (execTstep slot acc bank repm1 intm1 mask s) :=
  nextCanon_next (timedGo_canon h (fun h => tileReplay_canon _ _ _ _ _ (canon_same ⟨rfl, rfl⟩ h)))

theorem execSstep_canon (mask : BitVec 16) : nextCanon (execSstep mask s) :=
  nextCanon_next (timedGo_canon h (stepPorts_canon mask))
end

/-! ### The instructions that write to neither, and all of them -/

theorem limit_memories (p sl : Nat) (s : State) :
    (execRoundVoid.limit p sl s).mem = s.mem ∧ (execRoundVoid.limit p sl s).hostMem = s.hostMem := by
  unfold execRoundVoid.limit
  (repeat' split) <;> simp

section
variable {s : State} (h : memCanon s)
include h

theorem execNvmeReadCompletion_canon (frame : BitVec 32) (ok : Bool) : nextCanon (execNvmeReadCompletion frame ok s) := by
  refine nextCanon_same ?_ h
  dsimp only
  (repeat' split) <;> simp

theorem execFlitSend_canon (port : Fin 18) : nextCanon (execFlitSend port s) := by
  refine nextCanon_same ?_ h
  dsimp only
  (repeat' split) <;> simp

theorem execPartCtlWrite_canon (r : PartReg) (part : BitVec 6) (val : DWord) : nextCanon (execPartCtlWrite r part val s) := by
  refine nextCanon_same ?_ h
  dsimp only
  (repeat' split) <;> simp

theorem execCancel_canon (tag : BitVec 16) (level : CLevel) (slot : BitVec 6) (stream : Fin 8) (dnum : Word) :
    nextCanon (execCancel tag level slot stream dnum s) := by
  refine nextCanon_same (pktGo_memories (fun p => ?_)) h
  simp only [finishPacket_memories]
  split <;> simp

theorem execFenceh_canon (tag : BitVec 16) (irq : Bool) : nextCanon (execFenceh tag irq s) := by
  refine nextCanon_same (pktGo_memories (fun p => whenGo_memories (thenBoundary_memories (thenEvent_memories ?_ _) _) _ _)) h
  exact packetEvent_memories ..

theorem execStartPulse_canon (part slot : BitVec 6) : nextCanon (execStartPulse part slot s) := by
  refine nextCanon_same ?_ h
  split
  · exact ⟨rfl, rfl⟩
  next g _ =>
  dsimp only
  split
  · exact ⟨rfl, rfl⟩
  split
  · split <;> simp
  · cases g.sectEnd <;> simp only [beginRound_memories, Option.elim, sampleCount_memories, and_self]

theorem execRoundVoid_canon (part slot : BitVec 6) : nextCanon (execRoundVoid part slot s) := by
  refine nextCanon_same ?_ h
  dsimp only
  split
  · exact ⟨rfl, rfl⟩
  split
  · split <;> simp [limit_memories, apply_ite State.mem, apply_ite State.hostMem]
  · exact ⟨rfl, rfl⟩

theorem execRoundBoundary_canon (part slot : BitVec 6) : nextCanon (execRoundBoundary part slot s) := by
  refine nextCanon_same ?_ h
  dsimp only
  (repeat' split) <;> simp

theorem execWaitBudgetExpiry_canon (part slot : BitVec 6) : nextCanon (execWaitBudgetExpiry part slot s) := by
  refine nextCanon_same ?_ h
  dsimp only
  (repeat' split) <;> simp

theorem execHldILate_canon (core : Fin 64) (elem : Fin 96) (li : BitVec 12) (lane : BitVec 5) (late : Lateness) :
    nextCanon (execHldILate core elem li lane late s) := by
  refine nextCanon_same ?_ h
  (repeat' split) <;> simp

theorem execResidueLimit_canon (core : Fin 64) (check : ResidueCheck) : nextCanon (execResidueLimit core check s) := by
  refine nextCanon_same ?_ h
  dsimp only
  (repeat' split) <;> simp

theorem execReplayLimit_canon (part slot : BitVec 6) : nextCanon (execReplayLimit part slot s) := by
  refine nextCanon_same ?_ h
  dsimp only
  (repeat' split) <;> simp

theorem execBoundaryStepLimit_canon (part slot : BitVec 6) : nextCanon (execBoundaryStepLimit part slot s) := by
  refine nextCanon_same ?_ h
  (repeat' split) <;> simp

theorem execFramePoison_canon (loss : Loss) : nextCanon (execFramePoison loss s) := by
  refine nextCanon_same ?_ h
  dsimp only
  (repeat' split) <;> simp

theorem execHldI_canon (hi : Bool) (d : Dst) (a : Opnd) : nextCanon (execHldI hi d a s) := by
  refine nextCanon_same ?_ h
  dsimp only
  (repeat' split) <;> simp

theorem execSdef_canon (port : Fin 16) (n : BitVec 8) : nextCanon (execSdef port n s) := by
  refine nextCanon_same (bndGo_memories ?_) h
  split <;> simp

theorem execSload_canon (slot : Fin 8) (lines : Bool) (seg off : BitVec 8) : nextCanon (execSload slot lines seg off s) := by
  refine nextCanon_same (timedGo_memories ?_) h
  dsimp only
  split
  · simp
  split
  · simp
  split <;> simp

theorem execSeqDemand_canon (rel : Bool) (d a b : CReg) (slot sink : BitVec 6) (stride : BitVec 12) :
    nextCanon (execSeqDemand rel d a b slot sink stride s) := by
  refine nextCanon_same (bndGo_memories ?_) h
  (repeat' split) <;> simp

theorem execWaitc_canon (kind : WaitKind) (d a b : CReg) : nextCanon (execWaitc kind d a b s) := by
  refine nextCanon_same (bndGo_memories ?_) h
  (repeat' split) <;> simp

theorem execPxin_canon (d a b c : CReg) : nextCanon (execPxin d a b c s) := by
  refine nextCanon_same (bndGo_memories ?_) h
  split
  · simp
  · simp [apply_ite State.mem, apply_ite State.hostMem]

theorem execFunctionLevelReset_canon (vf : BitVec 8) : nextCanon (execFunctionLevelReset vf s) := by
  refine nextCanon_same ?_ h
  simp

theorem execWaitsTimeout_canon (vf : BitVec 8) (n : Fin 8) : nextCanon (execWaitsTimeout vf n s) := by
  refine nextCanon_same ?_ h
  (repeat' split) <;> simp

theorem execBranchTimeout_canon (vf : BitVec 8) (n : Fin 8) : nextCanon (execBranchTimeout vf n s) := by
  refine nextCanon_same ?_ h
  (repeat' split) <;> simp
end

/-- The arms are grouped by what they do to the memories: elements, no write at all, one guard of a placed entry, a reset, and last the
instructions with a lemma of their own. -/
theorem exec_canon (i : Instr) {s : State} (h : memCanon s) : nextCanon (exec i s) := by
  cases i
  case faddF32 | fsubF32 | fmulF32 | fmadF32 | fmsbF32 | fnmaF32 | fminF32 | fmaxF32 | faddHalf | fsubHalf | fmulHalf | fmadHalf |
    fmsbHalf | fnmaHalf | fminHalf | fmaxHalf | fcmpEq | fcmpNe | fcmpLt | fcmpLe | fcmpGt | fcmpGe | fcmpUn | frcp | fsqrt | frsq | fexp2
    | flog2 | fsel | fclass | iadd | isub | imul | imulh | imad | imin | imax | and | or | xor | andn | shl | shr | rol | popc | clz |
    icmpEq | icmpNe | icmpLt | icmpLe | icmpGt | icmpGe | cvt | pack | unpk | perm | lrd | redAdd | redMax | redMin | scanAdd | pand | por
    | pxor | pandn | pnot | ptst | pvec | pcnt | mov | movi | moviH | movm | movmP | pblk | xpnd | qidx | blkh | hadd | hmax | hmin | hcas
    | hxchg | hred | hstI | bdot | bdotSet | scacc | scanAff | scanAffG | scanAffk | kset | kget | kclr | khor =>
    exact nextCanon_same (elemGo_memories _ _) h
  case thermtrip | cxlCacheSnoop | exponentCountHalve | sqWpWrite | sqEnable | evTailWrite | paceCtlWrite | promotion | pacingGapEnd |
    sliceExpiry | starvationGrant | cxlMemWindowClose | keySlotLoad | hitch | hitchArmSw =>
    exact nextCanon_same ⟨rfl, rfl⟩ h
  case temperature100C | poolLinkDown | idle | credit | flitCopy | sqDisable | sqSkip | sqResume | registerWrite | nop | frameEvict | pxev
    | drainMt | drainLoft | drainHide =>
    exact nextCanon_same (by simp) h
  case powerUp | jtagReadout | dcdExtentOffer | retry | retryLimit | retrainTimeout | groupTableWrite | captureWindowStart |
    captureWindowEnd | loadg | demand | waits | signal | branch | quota | graceExpiry | frameFetch | frameMove | kvApp | kvFork | kvPin |
    kvUnpin | kvFree | pxlk | flushFrame | sgain | br | loop | fin | post | early | seqCancel | sig | brk | cnt | malformedFlit |
    linkRetrainSuccess | cxlMemWindowOpen | powerCap | hostLinkTraining | configurationRequest | bootTimeout =>
    exact nextCanon_same (by simp [apply_ite State.mem, apply_ite State.hostMem]) h
  case sset | sarm | smode | seqAdd | seqSub | seqMul | seqAnd | seqOr | seqXor | seqShl | seqShr | sra | li | ins | rdst | wrst | yld |
    halt =>
    exact nextCanon_same (bndGo_memories (by simp)) h
  case sread | stw | stsw | stinv | stsz =>
    exact nextCanon_same (timedGo_memories (by simp)) h
  case copy | gather | xf | collMc | collBar | collRed | stirQk | stirPv | stirGet | trap | seqNop =>
    exact nextCanon_same (by simp) h
  case phase | timestamp =>
    exact nextCanon_same (pktGo_memories (fun p => by simp)) h
  case pwrGoodLow | sysRstN | perstN | powerRemoved =>
    exact nextCanon_next ⟨memory_wf_nil, h.2⟩
  case cxlMemWrite vf addr bytes => exact execCxlMemWrite_canon h vf addr bytes
  case cxlMemRead vf addr len => exact execCxlMemRead_canon h vf addr len
  case nvmeReadCompletion frame ok => exact execNvmeReadCompletion_canon h frame ok
  case flitSend port => exact execFlitSend_canon h port
  case mcast port f => exact execMcast_canon h port f
  case redup port f => exact execRedup_canon h port f
  case reddn port f => exact execReddn_canon h port f
  case barup port f => exact execBarup_canon h port f
  case bardn port f => exact execBardn_canon h port f
  case abort port f => exact execAbort_canon h port f
  case collectiveTimeout group opn => exact execCollectiveTimeout_canon h group opn
  case partCtlWrite r part val => exact execPartCtlWrite_canon h r part val
  case attestGo vf => exact execAttestGo_canon h vf
  case functionLevelReset vf => exact execFunctionLevelReset_canon h vf
  case waitsTimeout vf n => exact execWaitsTimeout_canon h vf n
  case branchTimeout vf n => exact execBranchTimeout_canon h vf n
  case cancel tag level slot stream dnum => exact execCancel_canon h tag level slot stream dnum
  case fenceh tag irq => exact execFenceh_canon h tag irq
  case eventWrite vf => exact execEventWrite_canon h vf
  case startPulse part slot => exact execStartPulse_canon h part slot
  case roundCommit part slot => exact execRoundCommit_canon h part slot
  case roundVoid part slot => exact execRoundVoid_canon h part slot
  case roundBoundary part slot => exact execRoundBoundary_canon h part slot
  case waitBudgetExpiry part slot => exact execWaitBudgetExpiry_canon h part slot
  case phaseBoundary part => exact execPhaseBoundary_canon h part
  case partitionReset o => exact execPartitionReset_canon h o
  case hldILate core elem li lane late => exact execHldILate_canon h core elem li lane late
  case residueLimit core check => exact execResidueLimit_canon h core check
  case replayLimit part slot => exact execReplayLimit_canon h part slot
  case boundaryStepLimit part slot => exact execBoundaryStepLimit_canon h part slot
  case engineCommandComplete id => exact execEngineCommandComplete_canon h id
  case relatchToken all base run => exact execRelatchToken_canon h all base run
  case framePoison loss => exact execFramePoison_canon h loss
  case frameReclaim frame => exact execFrameReclaim_canon h frame
  case cattrChange frame attr ttEntry => exact execCattrChange_canon h frame attr ttEntry
  case translation core port use coord => exact execTranslation_canon h core port use coord
  case sequenceSwapIn part seq => exact execSequenceSwapIn_canon h part seq
  case pageSetReclaim base => exact execPageSetReclaim_canon h base
  case hldI hi d a => exact execHldI_canon h hi d a
  case sdef port n => exact execSdef_canon h port n
  case sstep mask => exact execSstep_canon h mask
  case pxin d a b c => exact execPxin_canon h d a b c
  case tstep slot acc bank repm1 intm1 mask => exact execTstep_canon h slot acc bank repm1 intm1 mask
  case sload slot lines seg off => exact execSload_canon h slot lines seg off
  case seqDemand rel d a b slot sink stride => exact execSeqDemand_canon h rel d a b slot sink stride
  case waitc kind d a b => exact execWaitc_canon h kind d a b
  -- What is left is the entry of a seal point (R192, R193), whose constructor's name Lean reserves.
  · exact nextCanon_same (by simp [apply_ite State.mem, apply_ite State.hostMem]) h

/-! ### One step -/

theorem withCheck_canon (c : Option Instr) {o : Host.Outcome State Fault Refusal} (ho : nextCanon o) : nextCanon (withCheck c o) := by
  cases o with
  | next s =>
    cases c with
    | none => exact ho
    | some i => exact canon_same ⟨rfl, rfl⟩ ho
  | fault r => trivial
  | refused r => trivial

theorem afterSection_canon (p slot : Nat) {o : Host.Outcome State Fault Refusal} (ho : nextCanon o) : nextCanon (afterSection p slot o) := by
  cases o with
  | next s => exact nextCanon_same (closeSection_memories s p slot) ho
  | fault r => trivial
  | refused r => trivial

theorem runEntry_canon {s : State} (i : Dec Instr) (h : memCanon s) : nextCanon (runEntry s i) := by
  cases i with
  | ok i => exact exec_canon i h
  | error e => exact nextCanon_same (illegal_memories s) h

theorem fireAgent_canon {s : State} (p slot : Nat) (a : Agent) (rest : List Agent) (h : memCanon s) : nextCanon (fireAgent s p slot a rest) :=
  withCheck_canon _ (runEntry_canon _ (canon_same (agentState_memories s p slot a rest) h))

theorem fireGraph_canon {s : State} (p slot : Nat) (h : memCanon s) : nextCanon (fireGraph s p slot) := by
  unfold fireGraph
  split
  · exact h
  dsimp only
  split
  · split
    · exact fireAgent_canon _ _ _ _ h
    · exact h
  · split <;> exact exec_canon _ h
  · exact exec_canon _ h
  · exact exec_canon _ h
  · split
    · exact nextCanon_same (releaseHold_memories _ _ _) h
    · exact exec_canon _ h
  · exact nextCanon_same (closeSection_memories _ _ _) h
  · exact h

theorem fireSection_canon {s : State} (p slot core : Nat) (h : memCanon s) : nextCanon (fireSection s p slot core) := by
  unfold fireSection
  dsimp only
  split
  · exact nextCanon_same (by simp) h
  split
  · exact afterSection_canon _ _ (exec_canon _ (canon_same ⟨rfl, rfl⟩ h))
  · exact afterSection_canon _ _ (runEntry_canon _ (canon_same (sectionState_memories _ _ _ _) h))

theorem firePacket_canon {s : State} (vf : Nat) (n : Fin 8) (h : memCanon s) : nextCanon (firePacket s vf n) := by
  have ht := canon_same (packetState_memories s vf n) h
  unfold firePacket
  dsimp only
  split
  · exact nextCanon_same (haltWritten_memories _) ht
  split
  · exact exec_canon _ ht
  · exact nextCanon_same (rejectPacket_memories _ _ _) ht

theorem fire_canon {s : State} (m : Move) (h : memCanon s) : nextCanon (fire s m) := by
  cases m with simp only [fire]
  | inbox =>
    split
    · split
      · exact exec_canon _ (canon_same ⟨rfl, rfl⟩ h)
      · exact nextCanon_same ⟨rfl, rfl⟩ h
    · exact h
  | task =>
    split
    · exact exec_canon _ (canon_same ⟨rfl, rfl⟩ h)
    · exact h
  | stream vf n => exact firePacket_canon vf n h
  | graph p slot => exact fireGraph_canon p slot h
  | sect p slot core => exact fireSection_canon p slot core h
  | engine id => exact exec_canon _ h
  | boundary p => exact exec_canon _ h
  | event vf => exact exec_canon _ h
  | flit port => exact exec_canon _ h
  | clock => exact nextCanon_next (clockTick_canon h)

theorem stepOnce_canon {s : State} (h : memCanon s) : nextCanon (stepOnce s) := by
  unfold stepOnce
  split
  · next i rest _ =>
    split
    · exact nextCanon_same ⟨rfl, rfl⟩ h
    · exact exec_canon i (canon_same ⟨rfl, rfl⟩ h)
  · exact fire_canon _ (canon_same (choose_memories s) h)

/-- Settles O60, by cases on the move of the step and on its instruction: a function that writes to a byte memory does it by
`writeBytes`, `write64`, a filter or the empty memory, each of which keeps the form, and every other leaves both memories alone. -/
theorem memoryStaysCanonical : Obligations.MemoryStaysCanonical := by
  unfold Obligations.MemoryStaysCanonical
  intro s t h e
  have hn : nextCanon (step s) := stepOnce_canon h
  rwa [e] at hn

end Sys2Proof.Laws
end

section
/-! SUPPORT. Bits and fields of a register: `bit`, `bitsN` and `page4k` in the terms in which statements read a field. -/

namespace Sys2Proof.Laws

open Sys2Proof.Machine Sys2Proof.Safety

theorem bit_eq_getLsbD (w : DWord) (k : Nat) : bit w k = w.getLsbD k := by
  simp [bit, BitVec.getLsbD, Nat.testBit_eq_decide_div_mod_eq]

theorem bitsN_zero_one (w : DWord) (k : Nat) : bitsN w k 1 = if w.getLsbD k then 1 else 0 := by
  rw [← bit_eq_getLsbD]
  simp only [bitsN, bit, decide_eq_true_eq]
  split <;> omega

theorem page4k_toNat (w : DWord) : (page4k w).toNat = w.toNat / 4096 * 4096 := by
  have := w.isLt
  simp only [page4k, setBits, bitsN, BitVec.toNat_ofNat]
  omega

theorem not_fff_getLsbD {i : Nat} (h : i < 64) : (~~~(0xFFF : DWord)).getLsbD i = decide (12 ≤ i) := by
  have key : ∀ j : Fin 64, (~~~(0xFFF : DWord)).getLsbD j.val = decide (12 ≤ j.val) := by decide
  exact key ⟨i, h⟩

/-- An address of 4 KiB alignment is the value written without its low twelve bits. -/
theorem page4k_eq_and (w : DWord) : page4k w = w &&& ~~~(0xFFF : DWord) := by
  have hshift : page4k w = w >>> 12 <<< 12 := by
    have := w.isLt
    apply BitVec.eq_of_toNat_eq
    rw [page4k_toNat]
    simp [Nat.shiftRight_eq_div_pow, Nat.shiftLeft_eq]
    omega
  rw [hshift]
  apply BitVec.eq_of_getLsbD_eq
  intro i hi
  rw [BitVec.getLsbD_and, not_fff_getLsbD hi]
  by_cases h : 12 ≤ i
  · simp [h, hi, Nat.not_lt.2 h]
  · simp [h, Nat.lt_of_not_le h]

/-! ### PART_CTL -/

theorem ctlWord_toNat (w : DWord) : (ctlWord w).toNat
    = bitsN w 63 1 * 2 ^ 63 + bitsN w 24 33 * 2 ^ 24 + min (bitsN w 9 4) 8 * 2 ^ 9 + bitsN w 0 9 := by
  have h1 : bitsN w 63 1 < 2 := Nat.mod_lt _ (by decide)
  have h2 : bitsN w 24 33 < 2 ^ 33 := Nat.mod_lt _ (by decide)
  have h3 : bitsN w 0 9 < 2 ^ 9 := Nat.mod_lt _ (by decide)
  rw [ctlWord, BitVec.toNat_ofNat, Nat.mod_eq_of_lt]
  omega

/-- The fields of PART_CTL as they read back: NSLV above 8 as 8, the reserved bits as 0, and the others as written. -/
theorem ctlWord_fields (w : DWord) :
    bitsN (ctlWord w) 63 1 = bitsN w 63 1 ∧ bitsN (ctlWord w) 57 6 = 0 ∧ bitsN (ctlWord w) 56 1 = bitsN w 56 1
    ∧ bitsN (ctlWord w) 40 16 = bitsN w 40 16 ∧ bitsN (ctlWord w) 24 16 = bitsN w 24 16 ∧ bitsN (ctlWord w) 13 11 = 0
    ∧ bitsN (ctlWord w) 9 4 = min (bitsN w 9 4) 8 ∧ bitsN (ctlWord w) 8 1 = bitsN w 8 1 ∧ bitsN (ctlWord w) 0 8 = bitsN w 0 8 := by
  have hw := ctlWord_toNat w
  simp only [bitsN] at hw ⊢
  rw [hw]
  refine ⟨?_, ?_, ?_, ?_, ?_, ?_, ?_, ?_, ?_⟩ <;> omega

theorem bit_eq_of_bitsN {a b : DWord} {k : Nat} (h : bitsN a k 1 = bitsN b k 1) : bit a k = bit b k := by
  simpa [bit, bitsN] using congrArg (fun n => decide (n = 1)) h

end Sys2Proof.Laws
end

section
/-! SUPPORT. What a write to PART_CTL leaves as it was: the cores, the hide spaces, and the settings of every partition but the one
written (R51, R76, R144). -/

namespace Sys2Proof.Laws

open Sys2Proof.Machine Sys2Proof.Safety

/-! ### Cores and hide spaces -/

@[simp] theorem foldl_cores_hide {α : Type} {f : State → α → State}
    (hf : ∀ s x, (f s x).cores = s.cores ∧ (f s x).hide = s.hide) (l : List α) (s : State) :
    (l.foldl f s).cores = s.cores ∧ (l.foldl f s).hide = s.hide :=
  List.foldlRecOn (motive := fun t => t.cores = s.cores ∧ t.hide = s.hide) l f ⟨rfl, rfl⟩
    (fun t ht x _ => ⟨(hf t x).1.trans ht.1, (hf t x).2.trans ht.2⟩)

@[simp] theorem arbAsk_cores_hide (s : State) (arbiter : Nat) (cls : BitVec 2) (port name : Nat) :
    (arbAsk s arbiter cls port name).cores = s.cores ∧ (arbAsk s arbiter cls port name).hide = s.hide := by
  unfold arbAsk
  split <;> exact ⟨rfl, rfl⟩

@[simp] theorem askMemory_cores_hide (s : State) (k : Nat) (v : Via) :
    (askMemory s k v).cores = s.cores ∧ (askMemory s k v).hide = s.hide := by
  simp only [askMemory, baseAsk]
  split <;> simp

@[simp] theorem writeSector_cores_hide (l : Line) (s : State) (k : Nat) :
    (writeSector l s k).cores = s.cores ∧ (writeSector l s k).hide = s.hide := by
  simp only [writeSector]
  (repeat' split) <;> exact ⟨rfl, rfl⟩

@[simp] theorem mdtTouch_cores_hide (s : State) (line : Nat) : (mdtTouch s line).cores = s.cores ∧ (mdtTouch s line).hide = s.hide :=
  ⟨rfl, rfl⟩

@[simp] theorem writeBack_cores_hide (s : State) (line : Nat) : (writeBack s line).cores = s.cores ∧ (writeBack s line).hide = s.hide := by
  unfold writeBack
  split
  · exact ⟨rfl, rfl⟩
  split
  · exact ⟨rfl, rfl⟩
  · simp [apply_ite State.cores, apply_ite State.hide]

@[simp] theorem evictLine_cores_hide (s : State) (line : Nat) : (evictLine s line).cores = s.cores ∧ (evictLine s line).hide = s.hide :=
  writeBack_cores_hide s line

@[simp] theorem rehome_cores_hide (s t : State) : (rehome s t).cores = s.cores ∧ (rehome s t).hide = s.hide := by
  simp [rehome]

@[simp] theorem disableStream_cores_hide (s : State) (v : Nat) (n : Fin 8) :
    (disableStream s v n).cores = s.cores ∧ (disableStream s v n).hide = s.hide := by
  unfold disableStream
  cases runningPart s v <;> exact ⟨rfl, rfl⟩

@[simp] theorem dropLoading_cores_hide (s t : State) (v : Nat) :
    (dropLoading s t v).cores = t.cores ∧ (dropLoading s t v).hide = t.hide := by
  unfold dropLoading
  (repeat' split) <;> exact ⟨rfl, rfl⟩

@[simp] theorem dropUnbound_cores_hide (s t : State) : (dropUnbound s t).cores = t.cores ∧ (dropUnbound s t).hide = t.hide := by
  refine foldl_cores_hide (fun t v => ?_) _ _
  dsimp only
  split <;> simp

/-! ### Settings of partitions -/

/-- What the control complex has set of a partition: PART_CTL, PART_CORES and PART_SLV (R76, R81). -/
def settings (x : Part) : DWord × DWord × DWord := (x.ctl, x.cores, x.slv)

theorem settings_modPart {s : State} {q : Nat} {f : Part → Part} (hf : settings (f (partOf s q)) = settings (partOf s q)) (p : Nat) :
    settings (partOf (modPart s q f) p) = settings (partOf s p) := by
  rw [partOf_modPart]
  split
  · next h => rw [hf, h]
  · rfl

theorem settings_modSaved (s : State) (v : Nat) (f : Context → Context) (p : Nat) :
    settings (partOf (modSaved s v f) p) = settings (partOf s p) := by
  simp only [partOf, modSaved]
  induction s.parts with
  | nil => rfl
  | cons e r ih =>
    simp only [List.map_cons, tget]
    split
    · rfl
    · exact ih

@[simp] theorem partOf_modStream (s : State) (v : Nat) (n : Fin 8) (f : Stream → Stream) (p : Nat) :
    partOf (modStream s v n f) p = partOf s p := rfl

@[simp] theorem settings_disableStream (s : State) (v : Nat) (n : Fin 8) (p : Nat) :
    settings (partOf (disableStream s v n) p) = settings (partOf s p) := by
  unfold disableStream
  refine (settings_modSaved _ v _ p).trans ?_
  cases runningPart s v with
  | none => rfl
  | some q =>
    rw [Option.elim_some, settings_modPart]
    rfl

@[simp] theorem settings_dropLoading (s t : State) (v p : Nat) :
    settings (partOf (dropLoading s t v) p) = settings (partOf t p) := by
  unfold dropLoading
  split
  · rfl
  · split
    · rfl
    · refine settings_modPart ?_ p
      rfl

theorem settings_foldl {α : Type} {f : State → α → State} {p : Nat}
    (hf : ∀ s x, settings (partOf (f s x) p) = settings (partOf s p)) (l : List α) (s : State) :
    settings (partOf (l.foldl f s) p) = settings (partOf s p) :=
  List.foldlRecOn (motive := fun t => settings (partOf t p) = settings (partOf s p)) l f rfl (fun t ht x _ => (hf t x).trans ht)

theorem settings_dropUnbound (s t : State) (p : Nat) : settings (partOf (dropUnbound s t) p) = settings (partOf t p) := by
  refine settings_foldl (fun t v => ?_) _ _
  dsimp only
  split
  · rw [settings_foldl (fun t n => by rw [partOf_modStream, settings_disableStream]), settings_dropLoading]
  · exact settings_dropLoading s t v p

end Sys2Proof.Laws
end

section
/-! SUPPORT. A write to PART_CTL, PART_CORES or PART_SLV, by what becomes of it: ignored, waiting, or stored (R51, R73, R76, R79, R81). -/

namespace Sys2Proof.Laws

open Sys2Proof.Machine Sys2Proof.Safety

/-! ### What the partition would be -/

theorem partWrite_defined {x : Part} {r : PartReg} (val : DWord) (hr : r ≠ .ctl) (hv : x.v = true) : partWrite x r val = none := by
  cases r with
  | cores => simp [partWrite, hv]
  | slv => simp [partWrite, hv]
  | ctl => exact absurd rfl hr

theorem partWrite_cores {x : Part} (val : DWord) (hv : x.v = false) :
    partWrite x .cores val = some { x with cores := val, pomAllot := { x with cores := val }.allotment } := by
  simp [partWrite, hv]

/-- PART_CTL as it is stored, before the slice counters of a new binding are cleared. -/
def ctlStored (x : Part) (val : DWord) : Part :=
  let y := { x with ctl := ctlWord val }
  if y.slices then y else { y with sliceExp := false, sliceAt := 0, grace := 0 }

theorem settings_eq_iff {x : Part} {a b c : DWord} : settings x = (a, b, c) ↔ x.ctl = a ∧ x.cores = b ∧ x.slv = c := by
  simp [settings]

theorem ctlStored_settings (x : Part) (val : DWord) : settings (ctlStored x val) = (ctlWord val, x.cores, x.slv) := by
  simp only [ctlStored]
  split <;> rfl

theorem ctlStored_v (x : Part) (val : DWord) : (ctlStored x val).v = val.getLsbD 63 := by
  have hctl : (ctlStored x val).ctl = ctlWord val := (settings_eq_iff.1 (ctlStored_settings x val)).1
  rw [Part.v, hctl, bit_eq_of_bitsN (ctlWord_fields val).1, bit_eq_getLsbD]

theorem ctlStored_coreList (x : Part) (val : DWord) : (ctlStored x val).coreList = x.coreList := by
  have hcores : (ctlStored x val).cores = x.cores := (settings_eq_iff.1 (ctlStored_settings x val)).2.1
  rw [Part.coreList, hcores, Part.coreList]

theorem partWrite_ctl (x : Part) (val : DWord) : partWrite x .ctl val =
    if (ctlStored x val).v && (ctlStored x val).coreList.isEmpty then none
    else some (if (ctlStored x val).bound && (!x.bound || (ctlStored x val).vf ≠ x.vf || !x.v)
      then { ctlStored x val with phn := 0, sliceRun := 0, sliceExp := false, sliceAt := 0, grace := 0 } else ctlStored x val) := by
  unfold partWrite
  dsimp only
  rw [← ctlStored]

/-- A partition has at least one core (R73). -/
theorem partWrite_ctl_none {x : Part} {val : DWord} (hv : val.getLsbD 63 = true) (hc : x.coreList = []) : partWrite x .ctl val = none := by
  simp [partWrite_ctl, ctlStored_v, ctlStored_coreList, hv, hc]

theorem settings_cleared (c : Prop) [Decidable c] (y : Part) :
    settings (if c then { y with phn := 0, sliceRun := 0, sliceExp := false, sliceAt := 0, grace := 0 } else y) = settings y := by
  split
  · rfl
  · rfl

theorem partWrite_ctl_some {x : Part} {val : DWord} (h : val.getLsbD 63 = true → x.coreList ≠ []) :
    ∃ y, partWrite x .ctl val = some y ∧ settings y = (ctlWord val, x.cores, x.slv) := by
  have hc : ¬ ((ctlStored x val).v && (ctlStored x val).coreList.isEmpty) = true := by
    simpa [ctlStored_v, ctlStored_coreList] using h
  exact ⟨_, (partWrite_ctl x val).trans (if_neg hc), (settings_cleared _ _).trans (ctlStored_settings x val)⟩

/-- The fields of a partition whose PART_CTL has been written. -/
theorem fields_of_settings {x y : Part} {val : DWord} (h : settings y = (ctlWord val, x.cores, x.slv)) :
    y.v = val.getLsbD 63 ∧ y.l2sh = val.getLsbD 56 ∧ y.slice = val.toNat / 2 ^ 40 % 2 ^ 16 ∧ y.graceLimit = val.toNat / 2 ^ 24 % 2 ^ 16
    ∧ y.nslv = min (val.toNat / 2 ^ 9 % 16) 8 ∧ y.bound = val.getLsbD 8 ∧ y.vf = val.toNat % 256
    ∧ y.ctl.toNat / 2 ^ 57 % 64 = 0 ∧ y.ctl.toNat / 2 ^ 13 % 2048 = 0 ∧ y.cores = x.cores ∧ y.slv = x.slv := by
  obtain ⟨hctl, hcores, hslv⟩ := settings_eq_iff.1 h
  obtain ⟨hv, hhigh, hl2sh, hslice, hgrace, hmid, hnslv, hbound, hvf⟩ := ctlWord_fields val
  refine ⟨?_, ?_, ?_, ?_, ?_, ?_, ?_, ?_, ?_, hcores, hslv⟩
  · rw [Part.v, hctl, bit_eq_of_bitsN hv, bit_eq_getLsbD]
  · rw [Part.l2sh, hctl, bit_eq_of_bitsN hl2sh, bit_eq_getLsbD]
  · rw [Part.slice, hctl, hslice, bitsN]
  · rw [Part.graceLimit, hctl, hgrace, bitsN]
  · rw [Part.nslv, hctl, hnslv]
    rfl
  · rw [Part.bound, hctl, bit_eq_of_bitsN hbound, bit_eq_getLsbD]
  · rw [Part.vf, hctl, hvf]
    simp [bitsN]
  · rw [hctl]
    exact hhigh
  · rw [hctl]
    exact hmid

/-! ### Whether the write is accepted -/

theorem coresClash_eq_false {s : State} {p : Nat} {y : Part} (h : ∀ e ∈ s.parts, e.1 ≠ p → e.2.cores &&& y.cores = 0) :
    coresClash s p y = false := by
  simpa [coresClash] using h

theorem binds_eq_false {x : Part} (hv : x.v = false) (vf : Nat) : x.binds vf = false := by
  simp [Part.binds, hv]

/-- The partitions after a write: the one written, and the others as they were. -/
theorem parts_putPart {s : State} {p : Nat} {y : Part} {e : Nat × Part} (h : e ∈ (putPart s p y).parts) :
    e.1 = p ∨ (e ∈ s.parts ∧ e.1 ≠ p) := by
  rcases (mem_tinsert _ p y e).1 h with rfl | he
  · exact .inl rfl
  · have hf := List.mem_filter.1 he
    exact .inr ⟨hf.1, by simpa using hf.2⟩

/-- With no open window, and no other partition defined, a change binds no VF twice. -/
theorem bindsOk_putPart {s : State} {p : Nat} (y : Part) (hw : s.windows = []) (h : ∀ e ∈ s.parts, e.1 ≠ p → e.2.v = false) :
    bindsOk s (putPart s p y) = true := by
  have hfree : ∀ e ∈ (putPart s p y).parts, e.1 ≠ p → ∀ vf, e.2.binds vf = false := by
    intro e he hne
    rcases parts_putPart he with hp | ⟨hs, -⟩
    · exact absurd hp hne
    · exact binds_eq_false (h e hs hne)
  simp only [bindsOk, hw, List.all_nil, Bool.true_and, List.all_eq_true, Bool.or_eq_true, decide_eq_true_eq, Bool.not_eq_true',
    List.any_eq_false, Bool.and_eq_true, not_and]
  intro e he f hf
  by_cases hef : e.1 = f.1
  · exact .inl hef
  refine .inr (fun vf _ hb => ?_)
  by_cases hp : e.1 = p
  · simp [hfree f hf (fun hfp => hef (hp.trans hfp.symm)) vf]
  · simp [hfree e he hp vf] at hb

/-! ### What becomes of the write -/

section
variable {s : State} {r : PartReg} {part : BitVec 6} {val : DWord}

theorem partCtlWrite_ignored (h : partWrite (partOf s part.toNat) r val = none) : exec (.partCtlWrite r part val) s = .next s := by
  show execPartCtlWrite r part val s = .next s
  simp only [execPartCtlWrite, h]

/-- A write that comes while the RESET event of the partition has still to be written changes nothing (R79). -/
theorem partCtlWrite_pending (hs : (partOf s part.toNat).switching = .none) (hr : r ≠ .slv) (hp : resetPending s part.toNat = true) :
    exec (.partCtlWrite r part val) s = .next s := by
  show execPartCtlWrite r part val s = _
  cases h : partWrite (partOf s part.toNat) r val with
  | none => simp only [execPartCtlWrite, h]
  | some y => simp [execPartCtlWrite, h, hs, hr, hp]

variable {y : Part} (h : partWrite (partOf s part.toNat) r val = some y)
include h

theorem partCtlWrite_waits (hs : (partOf s part.toNat).switching ≠ .none) :
    exec (.partCtlWrite r part val) s = .next (addTask s (.partCtlWrite r part val)) := by
  show execPartCtlWrite r part val s = _
  simp only [execPartCtlWrite, h, if_pos hs]

theorem partCtlWrite_stored (hs : (partOf s part.toNat).switching = .none) (hp : resetPending s part.toNat = false)
    (hc : coresClash s part.toNat y = false) (hb : bindsOk s (putPart s part.toNat y) = true) :
    exec (.partCtlWrite r part val) s
      = .next (noteSuspended s (dropUnbound s (putPart (rehome s (putPart s part.toNat y)) part.toNat y))) := by
  show execPartCtlWrite r part val s = _
  simp [execPartCtlWrite, h, hs, hp, hc, hb]

end

/-- The state after a write that is stored. -/
theorem stored_frame (s : State) (p : Nat) (y : Part) :
    let t := noteSuspended s (dropUnbound s (putPart (rehome s (putPart s p y)) p y))
    t.cores = s.cores ∧ t.mem = s.mem ∧ t.hide = s.hide ∧ settings (partOf t p) = settings y := by
  obtain ⟨hcores, hhide⟩ := dropUnbound_cores_hide s (putPart (rehome s (putPart s p y)) p y)
  obtain ⟨hrcores, hrhide⟩ := rehome_cores_hide s (putPart s p y)
  refine ⟨hcores.trans hrcores, ?_, hhide.trans hrhide, ?_⟩
  · simp
  · refine (settings_dropUnbound s _ p).trans ?_
    rw [partOf_putPart, if_pos rfl]

/-- With no lines in L2 and no VFs nothing follows the change. -/
theorem stored_alone {s : State} (p : Nat) (y : Part) (hl : s.l2 = []) (hv : s.vfs = []) :
    noteSuspended s (dropUnbound s (putPart (rehome s (putPart s p y)) p y)) = putPart s p y := by
  have hr : rehome s (putPart s p y) = s := by simp [rehome, hl]
  have hd : dropUnbound s (putPart s p y) = putPart s p y := by simp [dropUnbound, hv]
  rw [hr, hd]
  cases s
  cases hv
  rfl

end Sys2Proof.Laws
end

section
/-! SUPPORT. Reads of a VF's BAR (R52, R53, R54, R69, R70), writes of registers without behaviour of their own (R6), and O35. -/

namespace Sys2Proof.Laws

open Sys2Proof.Machine Sys2Proof.Safety

/-! ### Reads -/

theorem barRead_stream (s : State) (vf : Nat) (n : Fin 8) {off : Nat} (h : off < 0x40) :
    barRead s vf (0x40 * n.val + off) = sqRead (streamOf s vf n) off := by
  have hn := n.isLt
  have hlt : 0x40 * n.val + off < 0x200 := by omega
  have hdiv : (0x40 * n.val + off) / 0x40 = n.val := by omega
  have hmod : (0x40 * n.val + off) % 0x40 = off := by omega
  rw [barRead, if_pos hlt, hdiv, hmod, Fin.ofNat_val_eq_self]

theorem barRead_unlisted (s : State) (vf : Nat) {off : Nat} (hlo : 0x200 ≤ off) (hhi : off < 0x1000) : barRead s vf off = 0 := by
  rw [barRead, if_neg (Nat.not_lt.2 hlo), if_pos hhi]

/-- SQ_CTL shows EN and PRIO (R53). -/
theorem sqCtl_fields (q : Stream) :
    (sqRead q 0x20).toNat % 2 = (if q.en then 1 else 0) ∧ (sqRead q 0x20).toNat / 64 = q.prio.toNat := by
  have hp := q.prio.isLt
  simp only [sqRead, BitVec.toNat_ofNat]
  cases q.en <;> simp <;> omega

/-- SQ_STAT shows DNUM, REASON and STATE (R53). -/
theorem sqStat_fields (q : Stream) :
    (sqRead q 0x28).toNat / 2 ^ 32 = q.dnum.toNat ∧ (sqRead q 0x28).toNat / 2 ^ 8 % 2 ^ 24 = q.reason.toNat
    ∧ ((sqRead q 0x28).toNat % 2 ^ 8 = 4 ↔ q.state = .halt) := by
  have hd := q.dnum.isLt
  have hr := q.reason.isLt
  simp only [sqRead, BitVec.toNat_ofNat]
  cases q.state <;> simp <;> omega

/-- BOUND and PART of VF_INFO stay below its MINPRIO (R54). -/
theorem vfInfo_place_lt (o : Option Nat) : o.elim 0 (fun p => 64 + p % 64) < 128 := by
  cases o with
  | none => decide
  | some p =>
    rw [Option.elim_some]
    omega

/-- VF_INFO shows QCEIL, MINPRIO and where the VF is bound (R54). -/
theorem vfInfo_fields (s : State) (vf : Nat) :
    (barRead s vf 0x2000).toNat / 2 ^ 32 = (vfOf s vf).qceil.toNat ∧ (barRead s vf 0x2000).toNat / 2 ^ 30 % 4 = (vfOf s vf).minprio.toNat
    ∧ (barRead s vf 0x2000).toNat % 2 ^ 30 = (partOfVf s vf).elim 0 (fun p => 64 + p % 64) := by
  have hq := (vfOf s vf).qceil.isLt
  have hm := (vfOf s vf).minprio.isLt
  have hp := vfInfo_place_lt (partOfVf s vf)
  have hread : barRead s vf 0x2000 = vfInfoRead s vf := rfl
  rw [hread, vfInfoRead, BitVec.toNat_ofNat]
  omega

theorem barRead_capability_header (s : State) (vf : Nat) :
    barRead s vf 0x8000 = (if s.status = 1 then 0x8010001000010001 else 0x0000001000010001) := by
  have h : barRead s vf 0x8000 = ((capWords 0x8000 (capRecords s vf)).drop 0).headD 0 := rfl
  rw [h]
  by_cases hs : s.status = 1#8
  · simp [capRecords, capWords, hs]
  · simp [capRecords, capWords, hs]

theorem barRead_capability_device (s : State) (vf : Nat) : barRead s vf 0x8008 = Config.partCode ++ s.status.zeroExtend 32 := rfl

/-! ### Writes -/

section
variable (s : State) (vf : BitVec 8) (n : Fin 8) (val : DWord)

theorem registerWrite_evBase : ∃ t, exec (.registerWrite (.evBase vf) val) s = .next t
    ∧ (vfOf t vf.toNat).evBase = val &&& ~~~(0xFFF : DWord) ∧ t.cores = s.cores := by
  refine ⟨_, rfl, ?_, rfl⟩
  simp [writeReg, page4k_eq_and]

theorem registerWrite_evCtl : ∃ t, exec (.registerWrite (.evCtl vf) val) s = .next t
    ∧ (vfOf t vf.toNat).evEn = val.getLsbD 0 ∧ (vfOf t vf.toNat).evIrq = val.getLsbD 1 := by
  refine ⟨_, rfl, ?_⟩
  simp [writeReg, bit_eq_getLsbD]

/-- The base of a ring that is enabled stays (R53). -/
theorem registerWrite_sqBase (h : (streamOf s vf.toNat n).en = true) : ∃ t, exec (.registerWrite (.sqBase vf n) val) s = .next t
    ∧ streamOf t vf.toNat n = streamOf s vf.toNat n := by
  refine ⟨_, rfl, ?_⟩
  simp [writeReg, h]

theorem registerWrite_brken (c : Fin 64) : ∃ t, exec (.registerWrite (.brken c) val) s = .next t
    ∧ (coreOf t c).brken = val.getLsbD 0 ∧ t.mem = s.mem := by
  refine ⟨_, rfl, ?_, rfl⟩
  simp [writeReg, bit_eq_getLsbD]

/-- PACE_CTL waits for the partition's next round boundary (R18). -/
theorem paceCtlWrite_fields (part : BitVec 6) : ∃ t, exec (.paceCtlWrite part val) s = .next t
    ∧ bitsN (partOf t part.toNat).paceNext 16 12 = val.toNat / 65536 % 4096 ∧ (partOf t part.toNat).pace = (partOf s part.toNat).pace := by
  refine ⟨_, rfl, ?_, ?_⟩
  · simp only [partOf_modPart, if_true, bitsN, BitVec.toNat_ofNat]
    omega
  · simp
end

/-- PART_CTL of a partition that no other partition, reset or window stands in the way of (R51, R73, R76). -/
theorem partCtlWrite_ctl {s : State} {part : BitVec 6} {val : DWord} (hs : (partOf s part.toNat).switching = .none)
    (hp : resetPending s part.toNat = false) (hw : s.windows = [])
    (hfree : ∀ e ∈ s.parts, e.1 ≠ part.toNat → e.2.v = false ∧ e.2.cores &&& (partOf s part.toNat).cores = 0)
    (hc : val.getLsbD 63 = true → (partOf s part.toNat).coreList ≠ []) :
    ∃ t, exec (.partCtlWrite .ctl part val) s = .next t ∧ t.cores = s.cores ∧ t.mem = s.mem ∧ t.hide = s.hide
      ∧ settings (partOf t part.toNat) = (ctlWord val, (partOf s part.toNat).cores, (partOf s part.toNat).slv) := by
  obtain ⟨y, hy, hset⟩ := partWrite_ctl_some hc
  have hclash : coresClash s part.toNat y = false := by
    refine coresClash_eq_false (fun e he hne => ?_)
    rw [(settings_eq_iff.1 hset).2.1]
    exact (hfree e he hne).2
  have hbind := bindsOk_putPart y hw (fun e he hne => (hfree e he hne).1)
  obtain ⟨hcores, hmem, hhide, hsame⟩ := stored_frame s part.toNat y
  exact ⟨_, partCtlWrite_stored hy hs hp hclash hbind, hcores, hmem, hhide, hsame.trans hset⟩

/-- PART_CORES of a partition that is not defined, while none is (R73, R76; log entry 78). -/
theorem partCtlWrite_cores {s : State} {part : BitVec 6} {val : DWord} (hs : (partOf s part.toNat).switching = .none)
    (hv : (partOf s part.toNat).v = false) (hp : resetPending s part.toNat = false) (hw : s.windows = []) (hl : s.l2 = []) (hvfs : s.vfs = [])
    (hfree : ∀ e ∈ s.parts, e.1 ≠ part.toNat → e.2.cores &&& val = 0) (hnone : ∀ e ∈ s.parts, e.2.v = false) :
    exec (.partCtlWrite .cores part val) s = .next (putPart s part.toNat
      { partOf s part.toNat with cores := val, pomAllot := { partOf s part.toNat with cores := val }.allotment }) := by
  have hbind := fun y => bindsOk_putPart (p := part.toNat) y hw (fun e he _ => hnone e he)
  rw [partCtlWrite_stored (partWrite_cores val hv) hs hp (coresClash_eq_false hfree) (hbind _), stored_alone _ _ hl hvfs]

/-- Settles O35, register by register: PART_CTL by what becomes of the write, and the reads by the word that the BAR shows. -/
theorem plainRegisters : Obligations.PlainRegisters := by
  unfold Obligations.PlainRegisters
  intro s vf n val part c
  obtain ⟨hceil, hmin, hplace⟩ := vfInfo_fields s vf.toNat
  refine ⟨registerWrite_evBase s vf val, registerWrite_evCtl s vf val, registerWrite_sqBase s vf n val, rfl, rfl, rfl,
    registerWrite_brken s val c, paceCtlWrite_fields s val part, fun hv => ⟨?_, ?_⟩, fun hs hv hp hw hl hvfs hfree hnone => ?_,
    ⟨fun hs hp hw hfree hc => ?_, fun hv hc => ?_, fun hs hp => ?_, fun hs hc => ?_⟩, rfl, ?_, ⟨hceil, hmin, fun hn => ?_, fun p hp => ?_⟩,
    barRead_capability_header s vf.toNat, barRead_capability_device s vf.toNat, fun off hlo hhi => barRead_unlisted s vf.toNat hlo hhi⟩
  · exact partCtlWrite_ignored (partWrite_defined val (by decide) hv)
  · exact partCtlWrite_ignored (partWrite_defined val (by decide) hv)
  · exact partCtlWrite_cores hs hv hp hw hl hvfs hfree (by simpa using hnone)
  · obtain ⟨t, ht, hcores, hmem, hhide, hset⟩ := partCtlWrite_ctl hs hp hw hfree hc
    exact ⟨t, ht, hcores, hmem, hhide, fields_of_settings hset⟩
  · exact partCtlWrite_ignored (partWrite_ctl_none hv hc)
  · exact partCtlWrite_pending hs (by decide) hp
  · obtain ⟨y, hy, -⟩ := partWrite_ctl_some (x := partOf s part.toNat) (val := val) (fun hv => hc.resolve_left (by simp [hv]))
    exact partCtlWrite_waits hy hs
  · rw [barRead_stream s vf.toNat n (by decide), barRead_stream s vf.toNat n (by decide)]
    obtain ⟨hen, hprio⟩ := sqCtl_fields (streamOf s vf.toNat n)
    exact ⟨hen, hprio, sqStat_fields _⟩
  · rw [hplace, hn, Option.elim_none]
  · rw [hplace, hp, Option.elim_some]

end Sys2Proof.Laws
end

section
/-! SUPPORT. The reset inputs, and the power-up order by what becomes of it (R21 to R24, R71), with O29 and O30. -/

namespace Sys2Proof.Laws

open Sys2Proof.Machine Sys2Proof.Safety

/-! ### Reset -/

theorem reset_core (c : Fin 64) : State.reset.cores[c] = Core.reset := by
  simp [State.reset]

theorem reset_keeper (j : Fin 4) : ElemRegs.reset.k[j] = Keeper.cleared := by
  simp [ElemRegs.reset]

/-- Both byte memories are empty after reset (R23 step 5). -/
theorem reset_memCanon : memCanon State.reset := ⟨memory_wf_nil, memory_wf_nil⟩

/-- Settles O29: a reset input leaves `afterReset` but for its own line, and the rest are fields of the reset states. -/
theorem resetInputsAndState : Obligations.ResetInputsAndState := by
  unfold Obligations.ResetInputsAndState
  refine ⟨fun s => ⟨rfl, rfl, rfl, rfl⟩, rfl, rfl, rfl, rfl, rfl, rfl, rfl, rfl, fun c => ?_, reset_keeper, rfl, rfl, rfl, rfl, rfl,
    reset_memCanon⟩
  rw [reset_core]
  exact ⟨rfl, rfl⟩

/-! ### The power-up order -/

/-- FDT_COUNT holds the HBM-tier frames at least, and no more than R143 allows. -/
theorem fdtRange_bounds (n : Nat) : 6291456 ≤ fdtRange n ∧ fdtRange n ≤ 2 ^ 32 := by
  have hlimit : fdtLimit ≤ 2 ^ 32 := by decide
  simp only [fdtRange, Config.hbmFrames]
  omega

/-- What the order has done before the firmware is checked (R23). -/
def poweredUp (s : State) : State := { s with pwrGood := true, sysRstN := true, pll := true, fc := 0 }

section
variable {s : State} {fw : List Byte} (frames : BitVec 33) (up : BitVec 2)

theorem powerUp_ended (last : Bool) (h : s.boot = .ready ∨ s.boot = .failed) : exec (.powerUp fw frames ⟨up, last⟩) s = .next s := by
  simp [exec, execPowerUp, h]

theorem powerUp_bad_firmware (last : Bool) {e : Word} (hr : s.boot ≠ .ready) (hf : s.boot ≠ .failed) (he : sigBad grenrovKeys fw = some e) :
    exec (.powerUp fw frames ⟨up, last⟩) s = .next { poweredUp s with boot := .failed, status := 2 } := by
  simp [exec, execPowerUp, poweredUp, hr, hf, he]

theorem powerUp_booting (hr : s.boot ≠ .ready) (hf : s.boot ≠ .failed) (he : sigBad grenrovKeys fw = none) :
    exec (.powerUp fw frames ⟨up, false⟩) s = .next { poweredUp s with boot := .booting, fwHash := Config.sha384 fw } := by
  simp [exec, execPowerUp, poweredUp, hr, hf, he]

theorem powerUp_ready (hr : s.boot ≠ .ready) (hf : s.boot ≠ .failed) (he : sigBad grenrovKeys fw = none) :
    exec (.powerUp fw frames ⟨up, true⟩) s = .next { withTables (poweredUp s) (fdtRange frames.toNat) with
      boot := .ready, status := 1, cfgNormal := true, fwHash := Config.sha384 fw
      poolUp := Vector.ofFn (fun i => up.getLsbD i.val), ports := Vector.replicate 18 trainedPort } := by
  simp [exec, execPowerUp, poweredUp, hr, hf, he]
end

/-- Settles O30, by what the firmware check finds and by whether the order has come to its last step. -/
theorem powerUpOrder : Obligations.PowerUpOrder := by
  unfold Obligations.PowerUpOrder
  intro s fw frames up last
  refine ⟨fun hr hf => ?_, powerUp_ended frames up last, fun h => ?_, fun h => ?_, fun hr hp => ?_, fun h => ?_⟩
  · cases he : sigBad grenrovKeys fw with
    | some e => exact ⟨_, powerUp_bad_firmware frames up last hr hf he, rfl, rfl, rfl, rfl, rfl, rfl, rfl, rfl, rfl⟩
    | none =>
      cases last with
      | false => exact ⟨_, powerUp_booting frames up hr hf he, rfl, rfl, rfl, rfl, rfl, rfl, rfl, rfl, rfl, rfl, rfl⟩
      | true =>
        obtain ⟨hlo, hhi⟩ := fdtRange_bounds frames.toNat
        refine ⟨_, powerUp_ready frames up hr hf he, rfl, rfl, rfl, rfl, rfl, rfl, rfl, rfl, rfl, rfl, rfl, hlo, hhi, fun i => ?_, fun i => ?_⟩
        · simp [trainedPort]
        · simp
  · simp [exec, execHostLinkTraining, h]
  · simp [exec, execConfigurationRequest, h, emit]
  · simp [exec, execBootTimeout, hr, hp]
  · simp [exec, execBootTimeout, h]

end Sys2Proof.Laws
end

section
/-! SUPPORT. Pacing by the firmware (R18, R20): which partitions a pass over the table meets, and what it makes of each; the thermal trip,
HITCH and the debug port (R89 to R91), and O31. -/

namespace Sys2Proof.Laws

open Sys2Proof.Machine Sys2Proof.Safety

/-! ### Entries of a table whose keys rise -/

theorem mem_iff_tfind {α : Type} {t : Table α} (h : keysRise t = true) {n : Nat} {x : α} : (n, x) ∈ t ↔ tfind t n = some x := by
  induction t with
  | nil => simp
  | cons e r ih =>
    obtain ⟨k, v⟩ := e
    obtain ⟨hrise, hr⟩ := (keysRise_cons _ _).1 h
    rw [List.mem_cons, ih hr, tfind]
    by_cases hk : k = n
    · have hnone : tfind r n ≠ some x := fun hx => by
        have := hrise _ ((ih hr).2 hx)
        simp [hk] at this
      simp [hk, hnone, eq_comm]
    · simp [hk, Ne.symm hk]

theorem nodup_keys {α : Type} {t : Table α} (h : keysRise t = true) : (t.map (·.1)).Nodup := by
  induction t with
  | nil => exact List.nodup_nil
  | cons e r ih =>
    obtain ⟨hrise, hr⟩ := (keysRise_cons _ _).1 h
    rw [List.map_cons, List.nodup_cons]
    refine ⟨fun hmem => ?_, ih hr⟩
    obtain ⟨q, hq, hkey⟩ := List.mem_map.1 hmem
    exact absurd hkey.symm (hrise q hq).ne

theorem nodup_partsWhere {s : State} (h : keysRise s.parts = true) (f : Part → Bool) : (partsWhere s f).Nodup :=
  nodup_keys (keysRise_filter s.parts _ h)

theorem mem_partsWhere {s : State} (h : keysRise s.parts = true) {p : Nat} {x : Part} (hx : tfind s.parts p = some x) (f : Part → Bool) :
    p ∈ partsWhere s f ↔ x.v = true ∧ f x = true := by
  simp only [partsWhere, List.mem_map, List.mem_filter, Bool.and_eq_true]
  constructor
  · rintro ⟨⟨q, y⟩, ⟨hy, hf⟩, rfl⟩
    rw [mem_iff_tfind h, hx] at hy
    cases hy
    exact hf
  · exact fun hf => ⟨(p, x), ⟨(mem_iff_tfind h).2 hx, hf⟩, rfl⟩

/-! ### A pass of pacing -/

/-- The GAP of PACE_CTL as the firmware last wrote it, 0 while pacing is off (R18). -/
def gapAsked (x : Part) : Nat := if bit x.paceNext 0 then bitsN x.paceNext 16 12 else 0

/-- A partition after the firmware has chosen a GAP for it, `g` being the free value (log entry 17). -/
def paced (f : Nat → Nat → Nat) (g : Nat) (x : Part) : Part :=
  { x with paceNext := setBits (setBits x.paceNext 16 12 (f (gapAsked x) g)) 0 1 1 }

theorem paced_enabled (f : Nat → Nat → Nat) (g : Nat) (x : Part) : bit (paced f g x).paceNext 0 = true := by
  simp only [paced, bit, setBits, bitsN, BitVec.toNat_ofNat, decide_eq_true_eq]
  omega

theorem paced_gap (f : Nat → Nat → Nat) (g : Nat) (x : Part) : bitsN (paced f g x).paceNext 16 12 = f (gapAsked x) g % 4096 := by
  have := x.paceNext.isLt
  simp only [paced, setBits, bitsN, BitVec.toNat_ofNat]
  omega

theorem partOf_paceWith (f : Nat → Nat → Nat) (s : State) (p q : Nat) :
    partOf (paceWith f s p) q = if q = p then paced f (Config.firmwareGap s.freeGap).toNat (partOf s p) else partOf s q :=
  partOf_modPart { s with freeGap := s.freeGap + 1 } p q (paced f (Config.firmwareGap s.freeGap).toNat)

theorem foldl_paceWith_frame (f : Nat → Nat → Nat) (l : List Nat) (s : State) :
    let t := l.foldl (paceWith f) s
    t.cores = s.cores ∧ t.mem = s.mem ∧ t.powerCap = s.powerCap :=
  List.foldlRecOn (motive := fun t => t.cores = s.cores ∧ t.mem = s.mem ∧ t.powerCap = s.powerCap) l (paceWith f) ⟨rfl, rfl, rfl⟩
    (fun t ht _ _ => show t.cores = _ ∧ t.mem = _ ∧ t.powerCap = _ from ht)

theorem partOf_foldl_paceWith_not_mem {f : Nat → Nat → Nat} {l : List Nat} {p : Nat} (h : p ∉ l) (s : State) :
    partOf (l.foldl (paceWith f) s) p = partOf s p :=
  List.foldlRecOn (motive := fun t => partOf t p = partOf s p) l (paceWith f) rfl
    (fun t ht q hq => by rw [partOf_paceWith, if_neg (fun (e : p = q) => h (e ▸ hq)), ht])

theorem partOf_foldl_paceWith_mem {f : Nat → Nat → Nat} {l : List Nat} {p : Nat} (hp : p ∈ l) (hl : l.Nodup) (s : State) :
    ∃ g, partOf (l.foldl (paceWith f) s) p = paced f g (partOf s p) := by
  induction l generalizing s with
  | nil => exact absurd hp List.not_mem_nil
  | cons q r ih =>
    obtain ⟨hq, hr⟩ := List.nodup_cons.1 hl
    rw [List.foldl_cons]
    by_cases h : p = q
    · subst h
      exact ⟨_, by rw [partOf_foldl_paceWith_not_mem hq, partOf_paceWith, if_pos rfl]⟩
    · obtain ⟨g, hg⟩ := ih ((List.mem_cons.1 hp).resolve_left h) hr (paceWith f s q)
      exact ⟨g, by rw [hg, partOf_paceWith, if_neg h]⟩

/-! ### Temperature and the power cap -/

/-- Has the partition a core on the die (R20)? -/
def onDie (die : Fin 4) (x : Part) : Bool := x.coreList.any (fun c => dieOf c = die.val)

theorem raisedGap_bounds (old g : Nat) : min 4095 (old + 1) ≤ raisedGap old g ∧ raisedGap old g < 4096 := by
  simp only [raisedGap]
  omega

theorem paced_raised (g : Nat) (x : Part) :
    bit (paced raisedGap g x).paceNext 0 = true ∧ min 4095 (gapAsked x + 1) ≤ bitsN (paced raisedGap g x).paceNext 16 12 := by
  obtain ⟨hraised, hfits⟩ := raisedGap_bounds (gapAsked x) g
  rw [paced_gap, Nat.mod_eq_of_lt hfits]
  exact ⟨paced_enabled _ _ _, hraised⟩

theorem temperature100C_passes (die : Fin 4) (s : State) :
    exec (.temperature100C die) s = .next ((partsWhere s (onDie die)).foldl (paceWith raisedGap) s) := rfl

theorem powerCap_in_range {watts : BitVec 16} (hlo : 800 ≤ watts.toNat) (hhi : watts.toNat ≤ 2800) (s : State) :
    exec (.powerCap watts) s
      = .next ((partsWhere s (fun _ => true)).foldl (paceWith (fun _ g => g)) { s with powerCap := watts.toNat }) := by
  simp only [exec, execPowerCap, hlo, hhi, decide_true, Bool.and_self, if_true]

section
variable {s : State} {p : Nat} {x : Part}

theorem temperature100C_raises_gap (die : Fin 4) (hkeys : keysRise s.parts = true) (hx : tfind s.parts p = some x) (hv : x.v = true) :
    ∃ t, exec (.temperature100C die) s = .next t ∧ t.cores = s.cores ∧ t.mem = s.mem
      ∧ (onDie die x = true → bit (partOf t p).paceNext 0 = true ∧ min 4095 (gapAsked x + 1) ≤ bitsN (partOf t p).paceNext 16 12)
      ∧ (onDie die x = false → partOf t p = x) := by
  have hpart : partOf s p = x := by rw [partOf, tget_eq, hx, Option.getD_some]
  have hmem : p ∈ partsWhere s (onDie die) ↔ x.v = true ∧ onDie die x = true := mem_partsWhere hkeys hx _
  obtain ⟨hcores, hbytes, -⟩ := foldl_paceWith_frame raisedGap (partsWhere s (onDie die)) s
  refine ⟨_, temperature100C_passes die s, hcores, hbytes, fun hon => ?_, fun hoff => ?_⟩
  · obtain ⟨g, hg⟩ := partOf_foldl_paceWith_mem (f := raisedGap) (hmem.2 ⟨hv, hon⟩) (nodup_partsWhere hkeys _) s
    rw [hg, hpart]
    exact paced_raised g x
  · exact (partOf_foldl_paceWith_not_mem (fun h => Bool.eq_false_iff.1 hoff (hmem.1 h).2) s).trans hpart

theorem powerCap_paces {watts : BitVec 16} (hlo : 800 ≤ watts.toNat) (hhi : watts.toNat ≤ 2800) (hkeys : keysRise s.parts = true)
    (hx : tfind s.parts p = some x) (hv : x.v = true) :
    ∃ t, exec (.powerCap watts) s = .next t ∧ t.powerCap = watts.toNat ∧ bit (partOf t p).paceNext 0 = true ∧ t.cores = s.cores := by
  have hmem : p ∈ partsWhere s (fun _ => true) := (mem_partsWhere hkeys hx _).2 ⟨hv, rfl⟩
  obtain ⟨hcores, -, hcap⟩ := foldl_paceWith_frame (fun _ g => g) (partsWhere s (fun _ => true)) { s with powerCap := watts.toNat }
  obtain ⟨g, hg⟩ := partOf_foldl_paceWith_mem (f := fun _ g => g) hmem (nodup_partsWhere hkeys _) { s with powerCap := watts.toNat }
  refine ⟨_, powerCap_in_range hlo hhi s, hcap, ?_, hcores⟩
  rw [hg]
  exact paced_enabled _ _ _
end

theorem powerCap_ignored {watts : BitVec 16} (h : watts.toNat < 800 ∨ 2800 < watts.toNat) (s : State) : exec (.powerCap watts) s = .next s := by
  have hout : ¬ (800 ≤ watts.toNat ∧ watts.toNat ≤ 2800) := by omega
  simp [exec, execPowerCap, hout]

/-! ### The thermal trip -/

theorem pulseFree_thermTrip {s : State} (h : s.thermTrip = true) (p : Nat) (g : Graph) : pulseFree s p g = false := by
  simp [pulseFree, h]

theorem startPulse_thermTrip {s : State} (h : s.thermTrip = true) (part slot : BitVec 6) : exec (.startPulse part slot) s = .next s := by
  simp only [exec, execStartPulse, pulseFree_thermTrip h, Bool.not_false, if_true]
  split <;> rfl

/-! ### HITCH and the debug port -/

theorem stopClocks_poolUp (s : State) (i : Fin 2) : (stopClocks s).poolUp[i] = false := by
  simp [stopClocks]

theorem stopClocks_port (s : State) (i : Fin 18) : (stopClocks s).ports[i] = { s.ports[i] with up := false, retraining := false } := by
  simp [stopClocks]

theorem jtagReadout_running {s : State} (h : s.hitch = false) (unlock : Bool) : exec (.jtagReadout unlock) s = .next s := by
  simp [exec, execJtagReadout, h]

theorem jtagReadout_hitch {s : State} (h : s.hitch = true) (unlock : Bool) : exec (.jtagReadout unlock) s =
    .next { s with unlocked := unlock || s.unlocked, out := s.out ++ [.jtag (!s.fuse || (unlock || s.unlocked))] } := by
  cases unlock <;> simp [exec, execJtagReadout, emit, h]

/-- Settles O31: the pass of pacing meets every partition once, since the keys of the table rise; the rest is read off each input. -/
theorem powerAndHitchInputs : Obligations.PowerAndHitchInputs := by
  unfold Obligations.PowerAndHitchInputs
  refine ⟨fun s die watts p x hkeys hx hv => ?_, fun s unlock => ?_⟩
  · exact ⟨temperature100C_raises_gap die hkeys hx hv, rfl, fun q g => pulseFree_thermTrip rfl q g,
      fun part slot h => startPulse_thermTrip h part slot, fun hlo hhi => powerCap_paces hlo hhi hkeys hx hv, fun h => powerCap_ignored h s⟩
  · refine ⟨⟨stopClocks s, rfl, rfl, rfl, rfl, stopClocks_poolUp s, fun i => ?_, rfl⟩, fun h => jtagReadout_running h unlock,
      fun h => jtagReadout_hitch h unlock⟩
    rw [stopClocks_port]
    exact ⟨rfl, rfl⟩

end Sys2Proof.Laws
end

section
/-! SUPPORT. A command stream: where the front end goes on (R55), what the writes of SQ_CTL make of the stream written (R53, R55, R65, R79),
and O34. -/

namespace Sys2Proof.Laws

open Sys2Proof.Machine Sys2Proof.Safety

/-! ### Where the front end goes on -/

@[simp] theorem goTo_rp (q : Stream) (rp : Nat) : (q.goTo rp).rp = rp % 2 ^ q.log2 := rfl
@[simp] theorem goTo_en (q : Stream) (rp : Nat) : (q.goTo rp).en = q.en := rfl
@[simp] theorem goTo_prio (q : Stream) (rp : Nat) : (q.goTo rp).prio = q.prio := rfl

/-- A front end that goes on is IDLE where no packet is written, else in RUN. -/
theorem goTo_state (q : Stream) (rp : Nat) :
    ((q.goTo rp).state = .idle ↔ rp % 2 ^ q.log2 = q.wp) ∧ ((q.goTo rp).state = .run ↔ rp % 2 ^ q.log2 ≠ q.wp) := by
  have h : (q.goTo rp).state = if rp % 2 ^ q.log2 = q.wp then .idle else .run := rfl
  rw [h]
  split <;> simp [*]

/-! ### PRIO -/

theorem prioOf_eq (v : Vf) (val : DWord) : prioOf v val = BitVec.ofNat 2 (max (val.toNat / 64 % 4) v.minprio.toNat) := by
  have h : (if val.toNat / 64 % 4 < v.minprio.toNat then v.minprio.toNat else val.toNat / 64 % 4)
      = max (val.toNat / 64 % 4) v.minprio.toNat := by
    split <;> omega
  exact congrArg (BitVec.ofNat 2) h

/-- PRIO reads back as written, but never below MINPRIO (R53). -/
theorem prioOf_toNat (v : Vf) (val : DWord) : (prioOf v val).toNat = max (val.toNat / 64 % 4) v.minprio.toNat := by
  have := v.minprio.isLt
  rw [prioOf_eq, BitVec.toNat_ofNat, Nat.mod_eq_of_lt]
  omega

/-! ### The stream after a write of SQ_CTL -/

section
variable (s : State) (v : Nat) (n : Fin 8) (val : DWord)

theorem streamOf_enableStream : streamOf (enableStream s v n val) v n =
    let q := { streamOf s v n with prio := prioOf (vfOf s v) val }
    if q.en || (partOfVf s v).isNone then q
    else { q with en := true, state := if q.state = .halt then .halt else if q.rp = q.wp then .idle else .run, stage := 0 } := by
  simp only [enableStream, streamOf_modStream, and_self, if_true]

/-- A stream that is enabled already, or whose VF is not bound, takes PRIO alone (R51, R53). -/
theorem enableStream_prio (h : (streamOf s v n).en = true ∨ partOfVf s v = none) :
    streamOf (enableStream s v n val) v n = { streamOf s v n with prio := prioOf (vfOf s v) val } := by
  simp only [streamOf_enableStream]
  exact if_pos (by simpa using h)

theorem enableStream_starts (he : (streamOf s v n).en = false) (hp : partOfVf s v ≠ none) :
    streamOf (enableStream s v n val) v n = { streamOf s v n with
      prio := prioOf (vfOf s v) val, en := true, stage := 0
      state := if (streamOf s v n).state = .halt then .halt else if (streamOf s v n).rp = (streamOf s v n).wp then .idle else .run } := by
  simp only [streamOf_enableStream]
  exact if_neg (by simpa [he, Option.isSome_iff_ne_none] using hp)

/-- A stream in HALT that is enabled, or becomes so, stays in HALT at its packet (R79). -/
theorem enableStream_halted (h : (streamOf s v n).en = true ∨ partOfVf s v ≠ none) (hq : (streamOf s v n).state = .halt) :
    let t := streamOf (enableStream s v n val) v n
    t.en = true ∧ t.state = .halt ∧ t.rp = (streamOf s v n).rp ∧ t.wp = (streamOf s v n).wp ∧ t.log2 = (streamOf s v n).log2
      ∧ t.prio = prioOf (vfOf s v) val := by
  cases he : (streamOf s v n).en with
  | true =>
    rw [enableStream_prio s v n val (.inl he)]
    exact ⟨he, hq, rfl, rfl, rfl, rfl⟩
  | false =>
    rw [enableStream_starts s v n val he (h.resolve_left (by simp [he]))]
    exact ⟨rfl, if_pos hq, rfl, rfl, rfl, rfl⟩

/-- A stream that was off, and not in HALT, waits in IDLE or goes on at RP (R55). -/
theorem enableStream_fresh (he : (streamOf s v n).en = false) (hp : partOfVf s v ≠ none) (hq : (streamOf s v n).state ≠ .halt) :
    let t := streamOf (enableStream s v n val) v n
    t.en = true ∧ t.rp = (streamOf s v n).rp ∧ (t.state = .idle ↔ (streamOf s v n).rp = (streamOf s v n).wp) ∧ t.state ≠ .halt := by
  rw [enableStream_starts s v n val he hp, if_neg hq]
  by_cases h : (streamOf s v n).rp = (streamOf s v n).wp <;> simp [h]

theorem enableStream_prio_toNat :
    (streamOf (enableStream s v n val) v n).prio.toNat = max (val.toNat / 64 % 4) (vfOf s v).minprio.toNat := by
  rw [← prioOf_toNat, streamOf_enableStream]
  dsimp only
  split <;> rfl

theorem streamOf_disableStream : streamOf (disableStream s v n) v n =
    let q := streamOf s v n
    let q := if q.state = .halt then q else { q with rp := 0, dnum := 0 }
    { q with en := false, state := .off, stage := 0, target := 0 } := by
  have hsaved : ∀ (t : State) f, streamOf (modSaved t v f) v n = streamOf t v n := fun _ _ => rfl
  have hjobs : ∀ f, streamOf ((runningPart s v).elim s (fun p => modPart s p f)) v n = streamOf s v n := by
    intro f
    cases runningPart s v <;> rfl
  simp only [disableStream, streamOf_modStream, and_self, if_true, hsaved, hjobs]

theorem streamOf_stopStream : streamOf (stopStream s v n val) v n =
    { streamOf (disableStream s v n) v n with prio := prioOf (vfOf s v) val } := by
  simp only [stopStream, streamOf_modStream, and_self, if_true]

/-- EN = 0: the stream is off, and keeps RP and DNUM only where it was in HALT (R53, R65). -/
theorem stopStream_fields : let t := streamOf (stopStream s v n val) v n
    t.en = false ∧ t.state = .off ∧ t.prio = prioOf (vfOf s v) val
    ∧ ((streamOf s v n).state ≠ .halt → t.rp = 0 ∧ t.dnum = 0)
    ∧ ((streamOf s v n).state = .halt → t.rp = (streamOf s v n).rp ∧ t.dnum = (streamOf s v n).dnum) := by
  simp only [streamOf_stopStream, streamOf_disableStream]
  refine ⟨trivial, trivial, trivial, fun h => ?_, fun h => ?_⟩
  · simp only [if_neg h, and_self]
  · simp only [if_pos h, and_self]
end

/-! ### SKIP and RESUME -/

section
variable {s : State} {vf : BitVec 8} {n : Fin 8} {val : DWord} (go : Stream → Stream)

theorem leaveHalt_stops (h : val.getLsbD 0 = false) : leaveHalt vf ⟨n, val⟩ go s = stopStream s vf.toNat n val := by
  rw [leaveHalt, bit_eq_getLsbD, h, if_neg Bool.false_ne_true]

variable (h : val.getLsbD 0 = true)
include h

theorem streamOf_leaveHalt : streamOf (leaveHalt vf ⟨n, val⟩ go s) vf.toNat n =
    let q := streamOf (enableStream s vf.toNat n val) vf.toNat n
    if q.en && q.state = .halt then go q else q := by
  rw [leaveHalt, bit_eq_getLsbD, if_pos h, streamOf_modStream, if_pos ⟨rfl, rfl⟩]

/-- A stream in HALT that is enabled, or becomes so, goes on from the packet at RP, or from a later one. -/
theorem leaveHalt_goTo (d : Nat) (hen : (streamOf s vf.toNat n).en = true ∨ partOfVf s vf.toNat ≠ none)
    (hq : (streamOf s vf.toNat n).state = .halt) :
    let q := streamOf s vf.toNat n
    let t := streamOf (leaveHalt vf ⟨n, val⟩ (fun q => q.goTo (q.rp + d)) s) vf.toNat n
    t.rp = (q.rp + d) % 2 ^ q.log2 ∧ t.en = true ∧ (t.state = .idle ↔ (q.rp + d) % 2 ^ q.log2 = q.wp)
      ∧ (t.state = .run ↔ (q.rp + d) % 2 ^ q.log2 ≠ q.wp) ∧ t.prio.toNat = max (val.toNat / 64 % 4) (vfOf s vf.toNat).minprio.toNat := by
  obtain ⟨hen', hhalt, hrp, hwp, hlog, hprio⟩ := enableStream_halted s vf.toNat n val hen hq
  have hgo : ∀ go, streamOf (leaveHalt vf ⟨n, val⟩ go s) vf.toNat n = go (streamOf (enableStream s vf.toNat n val) vf.toNat n) := by
    intro go
    simp only [streamOf_leaveHalt go h, hen', hhalt, decide_true, Bool.and_self, if_true]
  simp only [hgo, goTo_rp, goTo_en, goTo_prio, goTo_state, hen', hrp, hwp, hlog, hprio, prioOf_toNat, and_self]

/-- A stream that is enabled and not in HALT, or that cannot be enabled, takes PRIO alone. -/
theorem leaveHalt_stays (hq : ((streamOf s vf.toNat n).en = true ∧ (streamOf s vf.toNat n).state ≠ .halt)
      ∨ ((streamOf s vf.toNat n).en = false ∧ partOfVf s vf.toNat = none)) :
    streamOf (leaveHalt vf ⟨n, val⟩ go s) vf.toNat n = { streamOf s vf.toNat n with prio := prioOf (vfOf s vf.toNat) val } := by
  rw [streamOf_leaveHalt go h, enableStream_prio s _ n val (hq.imp And.left And.right)]
  rcases hq with ⟨-, hs⟩ | ⟨he, -⟩
  · simp [hs]
  · simp [he]

/-- A stream that was off, and not in HALT, is enabled and nothing else. -/
theorem leaveHalt_starts (he : (streamOf s vf.toNat n).en = false) (hp : partOfVf s vf.toNat ≠ none)
    (hq : (streamOf s vf.toNat n).state ≠ .halt) :
    streamOf (leaveHalt vf ⟨n, val⟩ go s) vf.toNat n = streamOf (enableStream s vf.toNat n val) vf.toNat n := by
  obtain ⟨-, -, -, hhalt⟩ := enableStream_fresh s vf.toNat n val he hp hq
  simp [streamOf_leaveHalt go h, hhalt]
end

/-! ### Each register -/

section
variable (s : State) (vf : BitVec 8) (n : Fin 8) (val : DWord)

theorem sqWpWrite_stream : ∃ t, exec (.sqWpWrite vf n val) s = .next t
    ∧ (streamOf t vf.toNat n).wp = val.toNat / 32 % 2 ^ 19 * 32 % 2 ^ (streamOf s vf.toNat n).log2
    ∧ (streamOf t vf.toNat n).rp = (streamOf s vf.toNat n).rp ∧ (streamOf t vf.toNat n).en = (streamOf s vf.toNat n).en
    ∧ ((streamOf s vf.toNat n).en = true → (streamOf s vf.toNat n).state = .idle ∨ (streamOf s vf.toNat n).state = .run →
        ((streamOf t vf.toNat n).state = .idle ↔ (streamOf s vf.toNat n).rp = (streamOf t vf.toNat n).wp)) := by
  refine ⟨_, rfl, ?_⟩
  simp only [streamOf_modStream, and_self, if_true]
  split
  · refine ⟨rfl, rfl, rfl, fun _ _ => ?_⟩
    split <;> simp [*]
  · next h => exact ⟨rfl, rfl, rfl, fun he hs => absurd (by simp [he, hs]) h⟩

theorem sqEnable_stream : ∃ t, exec (.sqEnable vf n val) s = .next t ∧
    let q := streamOf s vf.toNat n
    let r := streamOf t vf.toNat n
    (q.en = false → partOfVf s vf.toNat ≠ none → r.en = true ∧ r.stage = 0 ∧ (q.state ≠ .halt → (r.state = .idle ↔ q.rp = q.wp))
      ∧ (q.state = .halt → r.state = .halt))
    ∧ (q.en = false → partOfVf s vf.toNat = none → r.en = false)
    ∧ r.prio.toNat = max (val.toNat / 64 % 4) (vfOf s vf.toNat).minprio.toNat := by
  refine ⟨enableStream s vf.toNat n val, rfl, fun he hp => ⟨?_, ?_, fun hs => ?_, fun hs => ?_⟩, fun he hp => ?_, enableStream_prio_toNat s _ n val⟩
  · rw [enableStream_starts s _ n val he hp]
  · rw [enableStream_starts s _ n val he hp]
  · obtain ⟨-, -, hidle, -⟩ := enableStream_fresh s _ n val he hp hs
    exact hidle
  · obtain ⟨-, hhalt, -⟩ := enableStream_halted s _ n val (.inr hp) hs
    exact hhalt
  · rw [enableStream_prio s _ n val (.inr hp)]
    exact he
end

/-- Settles O34, write by write: SKIP and RESUME with EN = 1 by whether the stream is in HALT, enabled, and bound. -/
theorem streamRegisters : Obligations.StreamRegisters := by
  unfold Obligations.StreamRegisters
  intro s vf n val
  obtain ⟨hen, hstate, hprio, hrun, hhalt⟩ := stopStream_fields s vf.toNat n val
  have hp := prioOf_toNat (vfOf s vf.toNat) val
  refine ⟨sqWpWrite_stream s vf n val, sqEnable_stream s vf n val,
    ⟨_, rfl, hen, hstate, hprio ▸ hp, hrun, hhalt⟩, fun h0 hb hq => ?_, fun h0 hq => ?_, fun h0 he hb hq => ?_, fun h0 => ⟨?_, ?_⟩, ?_⟩
  · exact ⟨⟨_, rfl, leaveHalt_goTo h0 32 hb hq⟩, ⟨_, rfl, leaveHalt_goTo h0 0 hb hq⟩⟩
  · have hstay := fun go => leaveHalt_stays go h0 hq
    rw [prioOf_eq] at hstay
    exact ⟨⟨_, rfl, hstay _⟩, ⟨_, rfl, hstay _⟩⟩
  · have hstart : ∀ go, let t := streamOf (leaveHalt vf ⟨n, val⟩ go s) vf.toNat n
        t.en = true ∧ t.rp = (streamOf s vf.toNat n).rp ∧ (t.state = .idle ↔ (streamOf s vf.toNat n).rp = (streamOf s vf.toNat n).wp)
        ∧ t.state ≠ .halt ∧ t.prio.toNat = max (val.toNat / 64 % 4) (vfOf s vf.toNat).minprio.toNat := by
      intro go
      obtain ⟨hen, hrp, hidle, hhalt⟩ := enableStream_fresh s vf.toNat n val he hb hq
      rw [leaveHalt_starts go h0 he hb hq]
      exact ⟨hen, hrp, hidle, hhalt, enableStream_prio_toNat s _ n val⟩
    exact ⟨⟨_, rfl, hstart _⟩, ⟨_, rfl, hstart _⟩⟩
  · exact congrArg Host.Outcome.next (leaveHalt_stops _ h0)
  · exact congrArg Host.Outcome.next (leaveHalt_stops _ h0)
  · exact ⟨_, rfl, by simp [bitsN]⟩

end Sys2Proof.Laws
end

section
/-! SUPPORT. How a packet ends (R55, R57, R65, R68): it completes, it halts its stream with an event, or it runs into its timeout; and O37. -/

namespace Sys2Proof.Laws

open Sys2Proof.Machine Sys2Proof.Safety

/-! ### The streams of a VF under updates of the rest -/

theorem vfOf_of_vfs {s t : State} (h : t.vfs = s.vfs) (v : Nat) : vfOf t v = vfOf s v := congrArg (fun l => tget Vf.reset l v) h

@[simp] theorem takeSample_vfs (s : State) (k v : Nat) : (takeSample s k v).vfs = s.vfs := by
  simp only [takeSample]
  split <;> rfl

@[simp] theorem sampleLatency_vfs (s : State) (die probe p : Nat) : (sampleLatency s die probe p).vfs = s.vfs :=
  List.foldlRecOn (motive := fun t : State => t.vfs = s.vfs) _ _ rfl (fun _ ht _ _ => (takeSample_vfs _ _ _).trans ht)

/-- The latency of a packet is no part of a VF. -/
@[simp] theorem packetDone_vfs (s : State) : (packetDone s).vfs = s.vfs := by
  unfold packetDone
  split
  · exact sampleLatency_vfs _ _ _ _
  · rfl

@[simp] theorem streamOf_packetDone (s : State) (v : Nat) (n : Fin 8) : streamOf (packetDone s) v n = streamOf s v n :=
  congrArg (fun x : Vf => x.streams[n]) (vfOf_of_vfs (packetDone_vfs s) v)

@[simp] theorem streamOf_modCurStream (s : State) (f : Stream → Stream) :
    streamOf (modCurStream s f) s.cur.vf s.cur.stream = f (streamOf s s.cur.vf s.cur.stream) := by
  rw [modCurStream, streamOf_modStream, if_pos ⟨rfl, rfl⟩]

@[simp] theorem evWait_modStream (s : State) (v w : Nat) (n : Fin 8) (f : Stream → Stream) :
    (vfOf (modStream s v n f) w).evWait = (vfOf s w).evWait := by
  rw [modStream, vfOf_modVf]
  split
  · next h => rw [h]
  · rfl

@[simp] theorem streamOf_postEvent (s : State) (v w : Nat) (n : Fin 8) (e : Event) : streamOf (postEvent s v e) w n = streamOf s w n := by
  simp only [postEvent, streamOf, vfOf_modVf]
  split
  · next h => subst h; rfl
  · rfl

theorem evWait_postEvent (s : State) (v : Nat) (e : Event) : (vfOf (postEvent s v e) v).evWait = (vfOf s v).evWait ++ [e] := by
  rw [postEvent, vfOf_modVf, if_pos rfl]

/-! ### Completion -/

theorem streamOf_finishPacket (s : State) : streamOf (finishPacket s) s.cur.vf s.cur.stream
    = (streamOf s s.cur.vf s.cur.stream).goTo ((streamOf s s.cur.vf s.cur.stream).rp + 32) := by
  rw [finishPacket, streamOf_packetDone, streamOf_modCurStream]

/-! ### Halting with an event -/

/-- The stream of a packet that has posted an event: in HALT where the event can be written at once, else waiting for that (R68). -/
def endedWith (free : Bool) (q : Stream) : Stream :=
  if free then { q with state := .halt, stage := 0, target := 0 } else { q with stage := 4, state := .wait }

theorem endedWith_fields (free : Bool) (q : Stream) :
    (free = true → (endedWith free q).state = .halt) ∧ (free = false → (endedWith free q).state = .wait ∧ (endedWith free q).stage = 4)
    ∧ (endedWith free q).rp = q.rp := by
  cases free <;> simp [endedWith]

/-- What `haltWith` makes of the stream and of the VF's waiting events, for an event that a packet posts. -/
theorem haltWith_postEvent (s : State) (e : Event) (post : State → State) (hp : post s = postEvent s s.cur.vf e) :
    streamOf (haltWith s post) s.cur.vf s.cur.stream = endedWith (ringFree (vfOf s s.cur.vf)) (streamOf s s.cur.vf s.cur.stream)
    ∧ (vfOf (haltWith s post) s.cur.vf).evWait = (vfOf s s.cur.vf).evWait ++ [e] ∧ (haltWith s post).cur = s.cur := by
  unfold haltWith
  rw [hp]
  split
  · next h => simp [h, endedWith, haltStream, modCurStream, evWait_postEvent]
  · next h => simp [h, endedWith, waitPacket, modCurStream, evWait_postEvent]

/-- The REJECT event of the packet at RP (R65, R67). -/
def rejectEvent (reason : Nat) (tag : BitVec 16) (s : State) : Event :=
  { code := BitVec.ofNat 32 reason, tag := tag, stream := BitVec.ofNat 3 s.cur.stream.val, type := 0x03
    w1 := BitVec.ofNat 64 (streamOf s s.cur.vf s.cur.stream).rp, w2 := 0, w3 := 0, irq := true }

theorem rejectPacket_stream (reason : Nat) (tag : BitVec 16) (s : State) :
    streamOf (rejectPacket reason tag s) s.cur.vf s.cur.stream
      = { endedWith (ringFree (vfOf s s.cur.vf)) (streamOf s s.cur.vf s.cur.stream) with reason := BitVec.ofNat 8 reason }
    ∧ (vfOf (rejectPacket reason tag s) s.cur.vf).evWait = (vfOf s s.cur.vf).evWait ++ [rejectEvent reason tag s] := by
  obtain ⟨hstream, hwait, hcur⟩ := haltWith_postEvent s (rejectEvent reason tag s)
    (fun s => packetEvent s 0x03 tag (BitVec.ofNat 32 reason) (rpWord s) 0 0 true) rfl
  simp only [rejectPacket, modCurStream, hcur, streamOf_modStream, evWait_modStream, hwait, and_self, if_true, hstream]

/-- A stream at stage 4 halts once its event has been written, and stays at the packet either way. -/
theorem haltWritten_stream (s : State) :
    streamOf (haltWritten s) s.cur.vf s.cur.stream = if haltEventWaits (vfOf s s.cur.vf) s.cur.stream
      then { streamOf s s.cur.vf s.cur.stream with state := .wait }
      else { streamOf s s.cur.vf s.cur.stream with state := .halt, stage := 0, target := 0 } := by
  unfold haltWritten
  split
  · exact streamOf_modCurStream s _
  · exact streamOf_modCurStream s _

/-! ### Timeouts -/

/-- The TIMEOUT event of the packet at RP of a stream (R61, R67). -/
def timeoutEvent (s : State) (vf : Nat) (n : Fin 8) (op : Nat) (tag : BitVec 16) : Event :=
  { code := BitVec.ofNat 32 op, tag := tag, stream := BitVec.ofNat 3 n.val, type := 0x05, w1 := BitVec.ofNat 64 (streamOf s vf n).rp
    w2 := 0, w3 := 0, irq := true }

theorem timeOut_stream (s : State) (vf : Nat) (n : Fin 8) (op : Nat) (tag : BitVec 16) :
    streamOf (timeOut s vf n op tag) vf n = endedWith (ringFree (vfOf s vf)) (streamOf s vf n)
    ∧ (vfOf (timeOut s vf n op tag) vf).evWait = (vfOf s vf).evWait ++ [timeoutEvent s vf n op tag] := by
  obtain ⟨hstream, hwait, -⟩ := haltWith_postEvent { s with cur := { s.cur with vf := vf, stream := n } } (timeoutEvent s vf n op tag)
    (fun s => packetEvent s 0x05 tag (BitVec.ofNat 32 op) (rpWord s) 0 0 true) rfl
  exact ⟨hstream, hwait⟩

section
variable {s : State} {vf : BitVec 8} {n : Fin 8} {tag t : BitVec 16}
  (hw : streamWaits s vf.toNat n = true) (ht : t ≠ 0)
include hw ht

theorem waitsTimeout_halts {c : WCond} {off : BitVec 24} {val : DWord} (hp : packetAt s vf.toNat n = .ok (.waits tag c t off val)) :
    exec (.waitsTimeout vf n) s = .next (timeOut s vf.toNat n 0x03 tag) := by
  show execWaitsTimeout vf n s = _
  simp only [execWaitsTimeout, hp]
  rw [if_pos (by rw [hw, decide_eq_true ht, Bool.and_self])]

theorem branchTimeout_halts {bc : Cond} {eat : Bool} {off : BitVec 24} {v m disp : Word}
    (hp : packetAt s vf.toNat n = .ok (.branch tag bc eat t off v m disp)) :
    exec (.branchTimeout vf n) s = .next (timeOut s vf.toNat n 0x06 tag) := by
  show execBranchTimeout vf n s = _
  simp only [execBranchTimeout, hp]
  rw [if_pos (by rw [hw, decide_eq_true ht, Bool.and_self])]
end

/-- Settles O37: the stream after a completion, a rejection, a written event and a timeout, each by its own lemma. -/
theorem packetsEndOrHalt : Obligations.PacketsEndOrHalt := by
  unfold Obligations.PacketsEndOrHalt
  refine ⟨fun s reason tag => ?_, fun s vf n tag t c off val bc eat v m disp => ?_⟩
  · obtain ⟨hidle, hrun⟩ := goTo_state (streamOf s s.cur.vf s.cur.stream) ((streamOf s s.cur.vf s.cur.stream).rp + 32)
    obtain ⟨hhalt, hwait, hrp⟩ := endedWith_fields (ringFree (vfOf s s.cur.vf)) (streamOf s s.cur.vf s.cur.stream)
    obtain ⟨hreject, hevents⟩ := rejectPacket_stream reason tag s
    simp only [streamOf_finishPacket, hreject, haltWritten_stream]
    refine ⟨rfl, hidle, hrun, rfl, rfl, rfl, hhalt, hwait, fun h => ?_, fun h => ?_, ?_, hrp, trivial, hevents⟩
    · simp [h]
    · simp [h]
    · split <;> rfl
  · intro q ends hen hstate hstage ht
    have hw : streamWaits s vf.toNat n = true := by
      simp only [streamWaits, Bool.and_eq_true, decide_eq_true_eq]
      exact ⟨⟨hen, hstate⟩, hstage⟩
    have hends : ∀ op : Nat, ends (BitVec.ofNat 32 op) (.next (timeOut s vf.toNat n op tag)) := by
      intro op
      obtain ⟨hstream, hevents⟩ := timeOut_stream s vf.toNat n op tag
      obtain ⟨hhalt, hwait, hrp⟩ := endedWith_fields (ringFree (vfOf s vf.toNat)) (streamOf s vf.toNat n)
      rw [← hstream] at hhalt hwait hrp
      exact ⟨_, rfl, hhalt, hwait, hrp, _, hevents, rfl, rfl, rfl, rfl⟩
    exact ⟨fun hp => waitsTimeout_halts hw ht hp ▸ hends 3, fun hp => branchTimeout_halts hw ht hp ▸ hends 6⟩

end Sys2Proof.Laws
end

section
/-! SUPPORT. What a packet waits for (R58, R62): a running VF, its WHEN, a boundary, an event. -/

namespace Sys2Proof.Laws

open Sys2Proof.Machine Sys2Proof.Safety

theorem pktGo_running {s : State} {p : Nat} (h : runningPart s s.cur.vf = some p) (f : Nat → State → State) : pktGo s f = f p s := by
  simp only [pktGo, h]

/-! ### WHEN -/

section
variable {s : State} (wh : BitVec 2) (p : Nat) (f : State → State)

/-- From stage 2 on the WHEN condition has held. -/
theorem whenGo_past (h : 2 ≤ (curStream s).stage) : whenGo wh p s f = f s := by
  simp [whenGo, whenGate, h]

theorem whenGo_at_once : whenGo 0 p s f = f s := by
  simp [whenGo, whenGate]

theorem whenGo_triggered (h : (curStream s).stage < 2) :
    whenGo 1 p s f = if (streamLive s p).all (·.trig) then f s else waitPacket s := by
  simp [whenGo, whenGate, Nat.not_le.2 h]

theorem whenGo_none_live (h : (curStream s).stage < 2) :
    whenGo 2 p s f = if (streamLive s p).isEmpty then f s else waitPacket s := by
  simp [whenGo, whenGate, Nat.not_le.2 h]

theorem whenGo_asks_boundary (h : (curStream s).stage = 0) :
    whenGo 3 p s f = if (streamLive s p).isEmpty then toBoundary s p 1 else waitPacket s := by
  simp [whenGo, whenGate, h]

theorem whenGo_at_boundary (h : (curStream s).stage = 1) :
    whenGo 3 p s f = if (curStream s).target ≤ (partOf s p).phn.toNat then f s else pollBoundary s p := by
  simp [whenGo, whenGate, h, boundaryPassed]

/-! ### Boundaries and events that must follow -/

theorem thenBoundary_asks (h : (curStream s).stage < 2) : thenBoundary p s f = toBoundary s p 2 := if_pos h

theorem thenBoundary_passed (h : (curStream s).stage = 2) (ht : (curStream s).target ≤ (partOf s p).phn.toNat) : thenBoundary p s f = f s := by
  simp [thenBoundary, h, boundaryPassed, ht]

theorem thenBoundary_waits (h : (curStream s).stage = 2) (ht : (partOf s p).phn.toNat < (curStream s).target) :
    thenBoundary p s f = pollBoundary s p := by
  simp [thenBoundary, h, boundaryPassed, ht]

theorem thenBoundary_past (h : (curStream s).stage = 3) : thenBoundary p s f = f s := by
  simp [thenBoundary, h]

variable (type : BitVec 8)

theorem thenEvent_posts (h : (curStream s).stage < 3) : thenEvent type s f = waitPacket (modCurStream (f s) (fun q => { q with stage := 3 })) :=
  if_pos h

/-- The packet completes with its event: once none of its kind, from its stream, waits any more (R57, R68). -/
theorem thenEvent_written (h : (curStream s).stage = 3)
    (he : ∀ e ∈ (vfOf s s.cur.vf).evWait, ¬ (e.type = type ∧ e.stream.toNat = s.cur.stream.val ∧ e.att = false)) :
    thenEvent type s f = finishPacket s := by
  have hnone : (vfOf s s.cur.vf).evWait.any (fun e => e.type = type && e.stream.toNat = s.cur.stream.val && !e.att) = false := by
    simpa [and_assoc] using he
  simp only [thenEvent, h, hnone, Nat.lt_irrefl, if_false, Bool.false_eq_true]
end

end Sys2Proof.Laws
end

section
/-! SUPPORT. BRANCH that is always taken (R63), and why O38 fails: with RP outside the ring, "strictly between RP and WP in ring order" comes
out one way over the integers, as the statement computes it, and another way over the naturals, as the front end does. -/

namespace Sys2Proof.Laws

open Sys2Proof.Machine Sys2Proof.Safety

theorem exec_branch_always {s : State} {p : Nat} (hr : runningPart s s.cur.vf = some p) {off : BitVec 24}
    (ho : off.toNat < (partOf s p).hideSize) {disp : Word} (hd : disp ≠ 0) (tag tmo : BitVec 16) (eat : Bool) (v m : Word) :
    exec (.branch tag .always eat tmo off v m disp) s = .next (branchGo tag true disp (fun s => s) s) := by
  show execBranch tag .always eat tmo off v m disp s = _
  simp only [execBranch, pktGo_running hr, if_neg hd, if_neg (Nat.not_le.2 ho), if_true]

/-- A branch forward whose target is not ahead of RP is rejected with code 5. -/
theorem branchGo_not_ahead {s : State} {disp : Word} (hpos : 0 < disp.toInt)
    (ha : aheadInRing (curStream s) (branchTarget (curStream s) disp) = false) (tag : BitVec 16) (eat : State → State) :
    branchGo tag true disp eat s = rejectPacket 5 tag s := by
  simp [branchGo, hpos, ha]

/-- VF 0 runs on partition 0, of one core. Its stream 0 has a ring of 4096 bytes, RP = 8192 and WP = 64: no write of a register and no packet
leaves RP outside the ring, but a statement over all states speaks of such a one too. -/
def outOfRing : State :=
  { State.reset with
    parts := [(0, { Part.reset with ctl := 0x8000000000000100, cores := 1 })]
    vfs := [(0, { Vf.reset with streams := Vector.replicate 8 { Stream.reset with rp := 8192, wp := 64 } })] }

/-- The target of DISP = 1 is 32, and (32 + 4096 − 8192) mod 4096 is 32 over the integers, but 0 where the subtraction stops at 0. -/
theorem outOfRing_branch : exec (.branch 0 .always false 0 0 0 0 1) outOfRing = .next (rejectPacket 5 0 outOfRing) := by
  rw [exec_branch_always (p := 0) rfl (by decide) (by decide)]
  exact congrArg _ (branchGo_not_ahead (by decide) (by decide) _ _)

/-- Refutes O38: for a stream with RP outside its ring the statement has BRANCH go on to 32, where the model rejects it, with an event. -/
theorem not_simplePackets : ¬ Obligations.SimplePackets := by
  unfold Obligations.SimplePackets
  intro h
  obtain ⟨-, -, -, hbranch, -⟩ := h outOfRing 0 0 0 0 0 .add .ge .always false 0 0 1 0 0 0 false rfl
  obtain ⟨hgo, -, -⟩ := hbranch (by decide) (by decide) (.inl rfl)
  have hstate := hgo (.inl rfl) (.inr (by decide))
  rw [outOfRing_branch] at hstate
  have hrejected := (rejectPacket_stream 5 0 outOfRing).2
  rw [Host.Outcome.next.inj hstate, vfOf_of_vfs (packetDone_vfs _), evWait_modStream] at hrejected
  simp at hrejected

end Sys2Proof.Laws
end

section
/-! SUPPORT. DEMAND, by the checks of the packet in their order (R60, R94), and O39. -/

namespace Sys2Proof.Laws

open Sys2Proof.Machine Sys2Proof.Safety

section
variable {s : State} {p : Nat} (hr : runningPart s s.cur.vf = some p) (tag : BitVec 16) (slot sink : BitVec 6) {dep : BitVec 2} (rel : Bool)
  (a b : BitVec 48) {stride : Word}
include hr

theorem exec_demand_bad_dep : exec (.demand tag slot sink 3 rel a b stride) s = .next (rejectPacket 1 tag s) := by
  show execDemand tag slot sink 3 rel a b stride s = _
  simp only [execDemand, pktGo_running hr, if_true]

variable (hd : dep ≠ 3)
include hd

/-- A demand without a stride, or for a sink that no loaded graph has, is rejected with code 3. -/
theorem exec_demand_names_nothing (h : stride = 0 ∨ askNames (partOf s p) slot.toNat sink.toNat = false) :
    exec (.demand tag slot sink dep rel a b stride) s = .next (rejectPacket 3 tag s) := by
  show execDemand tag slot sink dep rel a b stride s = _
  have hc : (decide (stride = 0) || !askNames (partOf s p) slot.toNat sink.toNat) = true := by simpa using h
  simp only [execDemand, pktGo_running hr, if_neg hd, hc, if_true]

variable (hs : stride ≠ 0) (ha : askNames (partOf s p) slot.toNat sink.toNat = true)
include hs ha

/-- A demand that names a sink is accepted in its record, or waits while that holds a live one (R94). -/
theorem exec_demand_names :
    let q := streamOf s s.cur.vf s.cur.stream
    let k := 128 * s.cur.stream.val + q.dnum.toNat % 128
    let ask : Ask := { slot := slot.toNat, sink := sink.toNat, rel := rel, a := a.toNat, b := b.toNat, stride := stride.toNat
                       prio := q.prio, vf := s.cur.vf, stream := s.cur.stream.val, dnum := q.dnum, dep := dep, prev := q.lastDemand }
    let live := (streamLive s p).map (·.acc)
    exec (.demand tag slot sink dep rel a b stride) s = .next (if (tfind (partOf s p).demands k).elim false (·.live) then waitPacket s
      else finishPacket (modCurStream (acceptDemand s p k ask) (fun q =>
        { q with dnum := q.dnum + 1, lastDemand := some (partOf s p).nextAcc, sent := live ++ [(partOf s p).nextAcc] }))) := by
  show execDemand tag slot sink dep rel a b stride s = _
  have hc : (decide (stride = 0) || !askNames (partOf s p) slot.toNat sink.toNat) = false := by
    rw [decide_eq_false hs, ha, Bool.not_true, Bool.or_self]
  simp only [execDemand, pktGo_running hr, if_neg hd, hc, Bool.false_eq_true, if_false]
  rfl
end

theorem askNames_eq (s : State) (p slot sink : Nat) :
    askNames (partOf s p) slot sink = (graphOf s p slot).elim false (fun g => decide (sink < g.sinks.length)) := rfl

/-- Settles O39, by the packet's checks in their order. -/
theorem demandPacket : Obligations.DemandPacket := by
  unfold Obligations.DemandPacket
  intro s p tag slot sink dep rel a b stride g hr
  refine ⟨fun hd hs hg hk => ?_, fun hd => ?_, fun hd hs => ?_, fun hd hg => ?_, fun hd hg hk => ?_⟩
  · have hnames : askNames (partOf s p) slot.toNat sink.toNat = true := by simp [askNames_eq, hg, hk]
    rw [exec_demand_names hr tag slot sink rel a b hd hs hnames]
    refine ⟨fun hfree => congrArg _ (if_neg ?_), fun ⟨d, hfind, hlive⟩ => congrArg _ (if_pos ?_)⟩
    · cases hfind : tfind (partOf s p).demands (128 * s.cur.stream.val + (streamOf s s.cur.vf s.cur.stream).dnum.toNat % 128) with
      | none => simp
      | some d => simp [hfree d hfind]
    · rw [hfind]
      exact hlive
  · rw [hd]
    exact exec_demand_bad_dep hr tag slot sink rel a b
  · exact exec_demand_names_nothing hr tag slot sink rel a b hd (.inl hs)
  · exact exec_demand_names_nothing hr tag slot sink rel a b hd (.inr (by rw [askNames_eq, hg, Option.elim_none]))
  · exact exec_demand_names_nothing hr tag slot sink rel a b hd (.inr (by simpa [askNames_eq, hg] using hk))

end Sys2Proof.Laws
end

section
/-! SUPPORT. PHASE, FENCEH, TIMESTAMP and LOADG by the stage of their stream (R58, R59, R62, R183), and O40. -/

namespace Sys2Proof.Laws

open Sys2Proof.Machine Sys2Proof.Safety

/-! ### PHASE, FENCEH, TIMESTAMP -/

section
variable {s : State} {p : Nat} (hr : runningPart s s.cur.vf = some p) (tag : BitVec 16)
include hr

theorem exec_phase (wh : BitVec 2) : exec (.phase tag wh) s = .next (whenGo wh p s (fun s => thenBoundary p s finishPacket)) := by
  show execPhase tag wh s = _
  rw [execPhase, pktGo_running hr]

/-- The idle cycles that pass before a TIMESTAMP reads the count (R2; log entry 5). -/
def idled (s : State) : State := { s with fc := s.fc + Config.idleCycles s.free, free := s.free + 1 }

/-- The TIMESTAMP event with a count (R62, R67). -/
def timestampEvent (s : State) (tag : BitVec 16) (fc : Nat) : Event :=
  { code := 0, tag := tag, stream := BitVec.ofNat 3 s.cur.stream.val, type := 0x02, w1 := BitVec.ofNat 64 fc, w2 := 0, w3 := 0, irq := false }

theorem exec_timestamp (wh : BitVec 2) : exec (.timestamp tag wh) s = .next (whenGo wh p s (fun s =>
    thenEvent 0x02 s (fun s => postEvent (idled s) s.cur.vf (timestampEvent s tag (idled s).fc)))) := by
  show execTimestamp tag wh s = _
  rw [execTimestamp, pktGo_running hr]
  rfl

theorem exec_fenceh (irq : Bool) : exec (.fenceh tag irq) s = .next (whenGo 3 p s (fun s =>
    thenBoundary p s (fun s => thenEvent 0x01 s (fun s => packetEvent s 0x01 tag 0 0 0 0 irq)))) := by
  show execFenceh tag irq s = _
  rw [execFenceh, pktGo_running hr]

/-- At stage 0 a TIMESTAMP without WHEN posts its event with the count it has read, and waits for it. -/
theorem timestamp_posts (h : (streamOf s s.cur.vf s.cur.stream).stage = 0) :
    ∃ t, exec (.timestamp tag 0) s = .next t ∧ (streamOf t s.cur.vf s.cur.stream).state = .wait ∧ s.fc ≤ t.fc
      ∧ (∃ e, (vfOf t s.cur.vf).evWait = (vfOf s s.cur.vf).evWait ++ [e] ∧ e.type = 0x02 ∧ e.tag = tag ∧ e.w1 = BitVec.ofNat 64 t.fc) := by
  have hstage : (curStream s).stage < 3 := by
    have : (curStream s).stage = 0 := h
    omega
  rw [exec_timestamp hr, whenGo_at_once, thenEvent_posts _ _ hstage]
  refine ⟨_, rfl, ?_, Nat.le_add_right _ _, timestampEvent s tag (idled s).fc, ?_, rfl, rfl, rfl⟩
  · exact congrArg Stream.state (streamOf_modCurStream (modCurStream (postEvent (idled s) s.cur.vf _) _) _)
  · simp only [waitPacket, modCurStream, evWait_modStream]
    exact evWait_postEvent _ _ _

/-! ### LOADG -/

variable (slot origin : BitVec 6) (image : BitVec 48) {length : Word}

/-- An accepted image waits for its reconfiguration, and with it the LOADG completes (R59). -/
theorem exec_loadg_accepted (h : (curStream s).stage = 1) : exec (.loadg tag slot origin image length) s =
    .next (if (partOf s p).loading.any (fun l => l.stream = s.cur.stream.val) then pollBoundary s p else finishPacket s) := by
  show execLoadg tag slot origin image length s = _
  simp only [execLoadg, pktGo_running hr, h, if_true]

variable (h : (curStream s).stage = 0)
include h

theorem exec_loadg_unaligned (hl : length ≠ 0) (hi : image.toNat % 65536 ≠ 0) :
    exec (.loadg tag slot origin image length) s = .next (rejectPacket 4 tag s) := by
  show execLoadg tag slot origin image length s = _
  have hl' : length.toNat ≠ 0 := fun e => hl (BitVec.eq_of_toNat_eq e)
  simp [execLoadg, pktGo_running hr, h, hl', hi]

theorem exec_loadg_busy (hb : slotBusy s p slot.toNat = true) : exec (.loadg tag slot origin image 0) s = .next (waitPacket s) := by
  show execLoadg tag slot origin image 0 s = _
  simp [execLoadg, pktGo_running hr, h, hb]

theorem exec_loadg_empties (hb : slotBusy s p slot.toNat = false) :
    exec (.loadg tag slot origin image 0) s = .next (emptyGo s p slot.toNat) := by
  show execLoadg tag slot origin image 0 s = _
  simp [execLoadg, pktGo_running hr, h, hb]

/-- An image of the VF's frames is read and checked once no demand on the slot is live. -/
theorem exec_loadg_reads (hl : length ≠ 0) (hi : image.toNat % 65536 = 0) (ho : imageOwned s s.cur.vf image.toNat length.toNat = true)
    (hb : slotBusy s p slot.toNat = false) :
    exec (.loadg tag slot origin image length) s = .next (loadGo s tag p slot.toNat origin.toNat image.toNat length.toNat) := by
  show execLoadg tag slot origin image length s = _
  have hl' : length.toNat ≠ 0 := fun e => hl (BitVec.eq_of_toNat_eq e)
  simp [execLoadg, pktGo_running hr, h, hl', hi, ho, hb]
end

section
variable {s : State} {tag : BitVec 16} {p slot origin image len : Nat}

theorem loadGo_accepts {c : List Nat} (h : acceptImage s p s.cur.vf slot origin (readBytes s.mem image len) = .ok c) :
    loadGo s tag p slot origin image len =
      let bytes := readBytes s.mem image len
      let img := parseImg (bytes.take (bytes.length - 3392))
      if recMoves s img then waitPacket s else acceptLoad s p slot origin image bytes img := by
  simp only [loadGo, h]
  rfl

theorem loadGo_refuses {e : LErr} (h : acceptImage s p s.cur.vf slot origin (readBytes s.mem image len) = .error e) :
    loadGo s tag p slot origin image len = refuseLoad s tag image e := by
  simp only [loadGo, h]
end

/-! ### A slot that is emptied -/

section
variable (s : State) (p slot : Nat)

/-- Is the slot idle and are its commands done (R59, R196)? -/
def slotIdle : Prop := (∀ g, graphOf s p slot = some g → g.run = .idle) ∧ ∀ r ∈ s.engines, ¬ (r.part = p ∧ r.slot = slot)

theorem slotIdle_iff : slotIdle s p slot ↔
    ((graphOf s p slot).elim true (fun g => g.run = .idle) && s.engines.all (fun r => !(r.part = p && r.slot = slot))) = true := by
  rw [slotIdle, Bool.and_eq_true]
  refine and_congr ?_ (by simp [imp_iff_not_or])
  cases graphOf s p slot <;> simp

theorem emptyGo_idle (h : slotIdle s p slot) : emptyGo s p slot = finishPacket (emptySlot (dropLanes s p slot) p slot) :=
  if_pos ((slotIdle_iff s p slot).1 h)

theorem emptyGo_waits (h : ¬ slotIdle s p slot) : emptyGo s p slot = waitPacket s :=
  if_neg (fun e => h ((slotIdle_iff s p slot).2 e))

/-- An emptied slot holds no graph; bytes and the LOADG count stay (R59, R95). -/
theorem emptySlot_fields : graphOf (emptySlot s p slot) p slot = none ∧ (emptySlot s p slot).mem = s.mem
    ∧ (partOf (emptySlot s p slot) p).loads = (partOf s p).loads := by
  refine ⟨?_, (emptySlot_memories s p slot).1, ?_⟩
  · unfold emptySlot
    split
    · assumption
    · rw [graphOf, partOf_modPart, if_pos rfl]
      simp [tfind_terase]
  · unfold emptySlot
    split
    · rfl
    · rw [partOf_modPart, if_pos rfl]
      simp [partOf]
end

/-- Settles O40, packet by packet and stage by stage. -/
theorem phasePackets : Obligations.PhasePackets := by
  unfold Obligations.PhasePackets
  intro s p tag irq slot origin image length hr x q bytes img
  refine ⟨fun h => ⟨?_, ?_, ?_⟩, fun h => ?_, fun h => ?_, fun h ht wh => ?_, fun h ht wh => ?_, fun h he wh => ?_, timestamp_posts hr tag,
    fun h hl => ?_, fun h he => ?_, fun h hl hi ho hb => ⟨fun c hc => ?_, fun e he => ?_⟩, exec_loadg_unaligned hr tag slot origin image,
    fun h hn => ?_, fun h hl => ?_, fun h => ⟨exec_loadg_busy hr tag slot origin image h, fun hb hi => ?_, fun hb hi => ⟨?_, ?_⟩⟩⟩
  · rw [exec_phase hr, whenGo_at_once, thenBoundary_asks _ _ h]
  · rw [exec_phase hr, whenGo_triggered _ _ h, thenBoundary_asks _ _ h]
  · rw [exec_phase hr, whenGo_none_live _ _ h, thenBoundary_asks _ _ h]
  · rw [exec_phase hr, whenGo_asks_boundary _ _ h]
  · have h2 : (curStream s).stage < 2 := by
      have : (curStream s).stage = 1 := h
      omega
    rw [exec_phase hr, whenGo_at_boundary _ _ h, thenBoundary_asks _ _ h2]
    rfl
  · rw [exec_phase hr, whenGo_past _ _ _ (Nat.le_of_eq h.symm), thenBoundary_passed _ _ h ht]
  · rw [exec_phase hr, whenGo_past _ _ _ (Nat.le_of_eq h.symm), thenBoundary_waits _ _ h ht]
  · have h2 : 2 ≤ (curStream s).stage := by
      have : (curStream s).stage = 3 := h
      omega
    rw [exec_timestamp hr, whenGo_past _ _ _ h2, thenEvent_written _ _ h (fun e hm hc => he e hm ⟨hc.1, hc.2.1⟩)]
  · rw [exec_fenceh hr, whenGo_asks_boundary _ _ h, if_pos hl]
  · have h2 : 2 ≤ (curStream s).stage := by
      have : (curStream s).stage = 3 := h
      omega
    rw [exec_fenceh hr, whenGo_past _ _ _ h2, thenBoundary_past _ _ h, thenEvent_written _ _ h he]
  · rw [exec_loadg_reads hr tag slot origin image h hl hi ho hb, loadGo_accepts hc]
  · rw [exec_loadg_reads hr tag slot origin image h hl hi ho hb, loadGo_refuses he]
  · rw [exec_loadg_accepted hr tag slot origin image h]
    exact congrArg _ (if_neg (by simpa using hn))
  · rw [exec_loadg_accepted hr tag slot origin image h]
    exact congrArg _ (if_pos (by simpa using hl))
  · rw [exec_loadg_empties hr tag slot origin image h hb, emptyGo_waits s p _ hi]
  · rw [exec_loadg_empties hr tag slot origin image h hb, emptyGo_idle s p _ hi]
    rfl
  · exact emptySlot_fields _ p slot.toNat

end Sys2Proof.Laws
end

section
/-! SUPPORT. The event ring (R66 to R68): the layout of W0, the four words of an entry in host memory, and when the oldest waiting event is
written; and O41. -/

namespace Sys2Proof.Laws

open Sys2Proof.Machine Sys2Proof.Safety

/-! ### The entry -/

/-- W0 of an event holds its fields where R67 puts them. -/
theorem eventW0_fields (e : Event) (ph : Bool) :
    (eventW0 e ph).extractLsb' 0 8 = e.type ∧ (eventW0 e ph).getLsbD 8 = ph ∧ (eventW0 e ph).extractLsb' 9 3 = e.stream
    ∧ (eventW0 e ph).extractLsb' 16 16 = e.tag ∧ (eventW0 e ph).extractLsb' 32 32 = e.code := by
  simp only [eventW0]
  refine ⟨BitVec.extractLsb'_append_eq_right, ?_, ?_, ?_, ?_⟩
  · rw [BitVec.getLsbD_append, BitVec.getLsbD_append]
    simp
  · simp (disch := decide) only [BitVec.extractLsb'_append_eq_of_le]
    exact BitVec.extractLsb'_append_eq_right
  · simp (disch := decide) only [BitVec.extractLsb'_append_eq_of_le]
    exact BitVec.extractLsb'_append_eq_right
  · simp (disch := decide) only [BitVec.extractLsb'_append_eq_of_le]
    exact BitVec.extractLsb'_eq_self

/-- Host memory with the four words of an entry at an address. -/
def entryAt (m : Memory) (a : Nat) (w0 w1 w2 w3 : DWord) : Memory :=
  write64 (write64 (write64 (write64 m a w0) (a + 8) w1) (a + 16) w2) (a + 24) w3

theorem entryAt_reads (m : Memory) (a : Nat) (w0 w1 w2 w3 : DWord) :
    read64 (entryAt m a w0 w1 w2 w3) a = w0 ∧ read64 (entryAt m a w0 w1 w2 w3) (a + 8) = w1
    ∧ read64 (entryAt m a w0 w1 w2 w3) (a + 16) = w2 ∧ read64 (entryAt m a w0 w1 w2 w3) (a + 24) = w3 := by
  unfold entryAt
  refine ⟨?_, ?_, ?_, read64_write64 _ _ _⟩
  · rw [read64_write64_ne _ _ _ _ (by omega), read64_write64_ne _ _ _ _ (by omega), read64_write64_ne _ _ _ _ (by omega), read64_write64]
  · rw [read64_write64_ne _ _ _ _ (by omega), read64_write64_ne _ _ _ _ (by omega), read64_write64]
  · rw [read64_write64_ne _ _ _ _ (by omega), read64_write64]

/-! ### The write -/

/-- The VF once its oldest waiting event has been written (R66, R68, R72, R81). -/
def eventTaken (v : Vf) (e : Event) (rest : List Event) : Vf :=
  { v with evWait := rest, evLeft := v.evLeft - 1, evHead := (v.evHead + 32) % 2 ^ v.evLog2
           evPh := if (v.evHead + 32) % 2 ^ v.evLog2 = 0 then !v.evPh else v.evPh, attBusy := v.attBusy && !e.att }

/-- The device once it has: the entry in host memory, the VF, and a message where both the ring and the event ask for one. -/
def eventWritten (s : State) (vf : Nat) (e : Event) (rest : List Event) : State :=
  let v := vfOf s vf
  { s with
    hostMem := entryAt s.hostMem (v.evBase.toNat + v.evHead) (eventW0 e v.evPh) e.w1 e.w2 e.w3
    vfs := tput s.vfs vf (eventTaken v e rest)
    out := s.out ++ (if v.evIrq = true ∧ e.irq = true then [.msix vf] else []) }

theorem vfOf_eventWritten (s : State) (vf : Nat) (e : Event) (rest : List Event) :
    vfOf (eventWritten s vf e rest) vf = eventTaken (vfOf s vf) e rest := tget_tput_self _ _ _ _

section
variable {s : State} {vf : BitVec 8} {e : Event} {rest : List Event} (hw : (vfOf s vf.toNat).evWait = e :: rest)
include hw

theorem eventReady_iff : eventReady s vf.toNat = true ↔
    (vfOf s vf.toNat).evEn = true ∧ ((vfOf s vf.toNat).evHead + 32) % 2 ^ (vfOf s vf.toNat).evLog2 ≠ (vfOf s vf.toNat).evTail
    ∧ (suspended s vf.toNat = false ∨ (vfOf s vf.toNat).evLeft ≠ 0) := by
  simp [eventReady, ringRoom, hw, and_assoc]

theorem eventWrite_held (h : eventReady s vf.toNat = false) : exec (.eventWrite vf) s = .next s := by
  show execEventWrite vf s = _
  simp [execEventWrite, hw, h]

theorem eventWrite_written (hh : s.hitch = false) (h : eventReady s vf.toNat = true) :
    exec (.eventWrite vf) s = .next (eventWritten s vf.toNat e rest) := by
  have hgo : ¬ (!eventReady s vf.toNat || s.hitch) = true := by simp [h, hh]
  show execEventWrite vf s = _
  simp only [execEventWrite, hw]
  rw [if_neg hgo]
  by_cases hi : (vfOf s vf.toNat).evIrq = true ∧ e.irq = true
  · rw [if_pos (by simpa using hi), eventWritten, if_pos hi]
    rfl
  · rw [if_neg (by simpa using hi), eventWritten, if_neg hi, List.append_nil]
    rfl
end

/-- Settles O41, by whether the oldest event may be written. -/
theorem eventIsWritten : Obligations.EventIsWritten := by
  unfold Obligations.EventIsWritten
  intro s vf e rest v head hw hh
  have hready := eventReady_iff hw
  refine ⟨fun hen hroom hs => ?_, fun h => ?_⟩
  · obtain ⟨hw0, hw1, hw2, hw3⟩ := entryAt_reads s.hostMem (v.evBase.toNat + v.evHead) (eventW0 e v.evPh) e.w1 e.w2 e.w3
    refine ⟨_, eventWrite_written hw hh (hready.2 ⟨hen, hroom, hs⟩), ?_⟩
    rw [vfOf_eventWritten]
    refine ⟨rfl, rfl, rfl, rfl, rfl, rfl, rfl, rfl, ?_, hw1, hw2, hw3⟩
    have hread : read64 (eventWritten s vf.toNat e rest).hostMem (v.evBase.toNat + v.evHead) = eventW0 e v.evPh := hw0
    rw [hread]
    exact eventW0_fields e v.evPh
  · refine eventWrite_held hw (Bool.eq_false_iff.2 (fun hr => ?_))
    obtain ⟨hen, hroom, hs⟩ := hready.1 hr
    rcases h with h | h | ⟨h, h'⟩
    · exact absurd hen (Bool.eq_false_iff.1 h)
    · exact hroom h
    · exact hs.elim (fun hf => Bool.eq_false_iff.1 hf h) (fun hl => hl h')

end Sys2Proof.Laws
end

section
/-! SUPPORT. What arbiters, caches, count words and frames leave alone (R82, R156, R166): the partitions, the engine commands, the VFs and the pending
sectors. -/

namespace Sys2Proof.Laws

open Sys2Proof.Machine Sys2Proof.Safety

/-- The tables of the device that name partitions: the partitions themselves, the engine commands and the VFs. -/
def tablesOf (s : State) : Table Part × List Running × Table Vf := (s.parts, s.engines, s.vfs)

/-- They and the pending sectors. -/
def serviceOf (s : State) : (Table Part × List Running × Table Vf) × Table PendSector := (tablesOf s, s.pend)

theorem tables_of_service {s t : State} (h : serviceOf t = serviceOf s) : tablesOf t = tablesOf s := congrArg Prod.fst h

theorem parts_of_service {s t : State} (h : serviceOf t = serviceOf s) : t.parts = s.parts := congrArg (fun x => x.1.1) h
theorem engines_of_service {s t : State} (h : serviceOf t = serviceOf s) : t.engines = s.engines := congrArg (fun x => x.1.2.1) h
theorem vfs_of_service {s t : State} (h : serviceOf t = serviceOf s) : t.vfs = s.vfs := congrArg (fun x => x.1.2.2) h
theorem pend_of_service {s t : State} (h : serviceOf t = serviceOf s) : t.pend = s.pend := congrArg (fun x => x.2) h

theorem partOf_of_parts {s t : State} (h : t.parts = s.parts) (p : Nat) : partOf t p = partOf s p :=
  congrArg (fun l => tget Part.reset l p) h

theorem coreOf_of_cores {s t : State} (h : t.cores = s.cores) (c : Fin 64) : coreOf t c = coreOf s c :=
  congrArg (fun v : Vector Core 64 => v[c]) h

/-- What no element of a list changes, the whole list leaves alone. -/
theorem foldl_keeps {α β : Type} (out : State → β) {f : State → α → State} (hf : ∀ s x, out (f s x) = out s) (l : List α) (s : State) :
    out (l.foldl f s) = out s :=
  List.foldlRecOn (motive := fun t : State => out t = out s) l f rfl (fun t ht x _ => (hf t x).trans ht)

/-! ### Arbiters -/

@[simp] theorem arbAsk_service (s : State) (arbiter : Nat) (cls : BitVec 2) (port name : Nat) :
    serviceOf (arbAsk s arbiter cls port name) = serviceOf s := by
  unfold arbAsk
  split <;> rfl

@[simp] theorem baseAsk_service (s : State) (cls : BitVec 2) (port die name : Nat) : serviceOf (baseAsk s cls port die name) = serviceOf s := by
  simp [baseAsk]

@[simp] theorem edgeAsk_service (s : State) (cls : BitVec 2) (port die name : Nat) : serviceOf (edgeAsk s cls port die name) = serviceOf s := by
  unfold edgeAsk
  split
  · exact foldl_keeps _ (fun _ _ => arbAsk_service _ _ _ _ _) _ _
  · exact baseAsk_service _ _ _ _ _

@[simp] theorem hideRequest_service (s : State) (p off : Nat) (cls : BitVec 2) (port : Nat) :
    serviceOf (hideRequest s p off cls port) = serviceOf s := by
  simp only [hideRequest, hideAsk]
  split <;> rfl

@[simp] theorem askHide_service (s : State) (p : Nat) (v : Via) (off n : Nat) : serviceOf (askHide s p v off n) = serviceOf s :=
  foldl_keeps _ (fun _ _ => hideRequest_service _ _ _ _ _) _ _

@[simp] theorem askMemory_service (s : State) (k : Nat) (v : Via) : serviceOf (askMemory s k v) = serviceOf s := by
  unfold askMemory
  dsimp only
  split <;> simp

/-! ### Lines of L2 -/

@[simp] theorem writeSector_service (l : Line) (s : State) (k : Nat) : serviceOf (writeSector l s k) = serviceOf s := by
  unfold writeSector
  dsimp only
  (repeat' split) <;> rfl

/-- One sector of a line is written back (R156). -/
def writtenBack (l : Line) (line : Nat) (s : State) (i : Nat) : State :=
  let k := 4 * line + i
  let s := if l.cattr = 1 && (sectorView s k).all (· = 0) then s else askMemory s k { vf := l.owner, port := hostPort, cls := 3 }
  writeSector l { s with lostMem := lostAfter s l k } k

theorem writtenBack_service (l : Line) (line : Nat) (s : State) (i : Nat) : serviceOf (writtenBack l line s i) = serviceOf s := by
  simp only [writtenBack, writeSector_service]
  split
  · rfl
  · exact askMemory_service _ _ _

@[simp] theorem writeBack_service (s : State) (line : Nat) : serviceOf (writeBack s line) = serviceOf s := by
  unfold writeBack
  split
  · rfl
  next l _ =>
  have hlines : serviceOf (((upTo 4).filter (fun k => l.dirty.getLsbD k)).foldl (writtenBack l line) s) = serviceOf s :=
    foldl_keeps _ (writtenBack_service l line) _ _
  dsimp only
  (repeat' split)
  · rfl
  all_goals exact hlines

@[simp] theorem evictLine_service (s : State) (line : Nat) : serviceOf (evictLine s line) = serviceOf s := writeBack_service s line

@[simp] theorem l2Room_service (s : State) (f die line : Nat) : serviceOf (l2Room s f die line) = serviceOf s := by
  unfold l2Room
  dsimp only
  (repeat' split) <;> simp

@[simp] theorem takeSample_service (s : State) (k v : Nat) : serviceOf (takeSample s k v) = serviceOf s := by
  simp only [takeSample]
  split <;> rfl

@[simp] theorem sampleLatency_service (s : State) (die probe p : Nat) : serviceOf (sampleLatency s die probe p) = serviceOf s := by
  refine foldl_keeps _ (fun s k => ?_) _ _
  exact takeSample_service { s with freeLat := s.freeLat + 1 } _ _

@[simp] theorem sampleRead_service (s : State) (vf die f : Nat) (miss : Bool) (u : Use) : serviceOf (sampleRead s vf die f miss u) = serviceOf s := by
  unfold sampleRead
  dsimp only
  (repeat' split) <;> simp

/-! ### Count words and frames -/

@[simp] theorem hideWrite_service (s : State) (p off : Nat) (w : DWord) : serviceOf (hideWrite s p off w) = serviceOf s := by
  unfold hideWrite
  dsimp only
  split <;> rfl

@[simp] theorem setCount_service (s : State) (base n : Nat) : serviceOf (setCount s base n) = serviceOf s := by
  simp [setCount]

@[simp] theorem decCount_service (s : State) (base : Nat) : serviceOf (decCount s base) = serviceOf s := by
  unfold decCount
  dsimp only
  (repeat' split)
  · rfl
  · exact setCount_service s _ _
  · exact setCount_service s _ _

@[simp] theorem decCounts_service (base n : Nat) (s : State) : serviceOf (decCounts base n s) = serviceOf s := by
  induction n generalizing s with
  | zero => rfl
  | succ n ih => rw [decCounts, ih, decCount_service]

@[simp] theorem unmapBlock_service (s : State) (vf q : Nat) (x : Seq) (b : Nat) : serviceOf (unmapBlock s vf q x b) = serviceOf s := by
  unfold unmapBlock
  dsimp only
  (repeat' split)
  · exact decCount_service _ _
  · rfl
  · exact decCount_service _ _
  · rfl

@[simp] theorem dropArea_service (s : State) (c : Context) : serviceOf (dropArea s c) = serviceOf s := by
  unfold dropArea
  split <;> rfl

@[simp] theorem modCores_service (s : State) (cs : List Nat) (f : Core → Core) : serviceOf (modCores s cs f) = serviceOf s :=
  foldl_keeps _ (fun s c => (rfl : serviceOf (modCore s (coreNo c) f) = serviceOf s)) _ _

end Sys2Proof.Laws
end

section
/-! SUPPORT. The machine under HITCH (R89, R91): only inputs and the clock move, the clock stands, and no input acts; with O32. -/

namespace Sys2Proof.Laws

open Sys2Proof.Machine Sys2Proof.Safety

/-- What a step may take while HITCH holds: the next piece of urgent work, the next input, and the schedule that picks the move. -/
def onlyQueues (s t : State) : Prop :=
  t = { s with urgent := t.urgent, inbox := t.inbox, turn := t.turn, rr := t.rr }
  ∧ (t.urgent = s.urgent ∨ t.urgent = s.urgent.tail) ∧ (t.inbox = s.inbox ∨ t.inbox = s.inbox.tail)

theorem headD_drop_mem {α : Type} (l : List α) (n : Nat) (d : α) : (l.drop n).headD d = d ∨ (l.drop n).headD d ∈ l := by
  cases h : l.drop n with
  | nil => exact .inl rfl
  | cons a r => exact .inr (List.mem_of_mem_drop (h ▸ List.mem_cons_self))

theorem movesOf_hitch {s : State} (h : s.hitch = true) {m : Move} (hm : m ∈ movesOf s) : m = .inbox ∨ m = .clock := by
  simp only [movesOf, h, if_true, List.mem_append, List.mem_singleton] at hm
  refine hm.imp_left (fun hi => ?_)
  split at hi
  · exact absurd hi List.not_mem_nil
  · exact List.mem_singleton.1 hi

theorem choose_hitch {s : State} (h : s.hitch = true) : (choose s).1 = .inbox ∨ (choose s).1 = .clock := by
  have key : ∀ n, let m := ((movesOf s).drop n).headD .clock; m = .inbox ∨ m = .clock := fun n =>
    (headD_drop_mem (movesOf s) n .clock).elim .inr (movesOf_hitch h)
  unfold choose
  split <;> exact key _

theorem choose_state (s : State) : ∃ turn rr, (choose s).2 = { s with turn := turn, rr := rr } := by
  unfold choose
  split <;> exact ⟨_, _, rfl⟩

theorem fire_clock_hitch {s : State} (h : s.hitch = true) : fire s .clock = .next s := by
  simp [fire, clockTick, h]

/-- An input that HITCH lets through is none of those that wait, so the next one is dropped. -/
theorem fire_inbox_hitch {s : State} (h : s.hitch = true) (hi : s.inbox.all (fun i => !hitchInput i) = true) :
    fire s .inbox = .next { s with inbox := s.inbox.tail } := by
  cases hs : s.inbox with
  | nil =>
    simp only [fire, hs, List.tail_nil]
    rw [← hs]
  | cons i rest =>
    have hn : inputActs s i = false := by
      rw [hs] at hi
      simpa [inputActs, h] using (List.all_eq_true.1 hi) i List.mem_cons_self
    simp [fire, hs, hn]

theorem stepOnce_hitch {s t : State} (h : frozen s) (e : stepOnce s = .next t) : onlyQueues s t := by
  obtain ⟨hh, hu, hi⟩ := h
  unfold stepOnce at e
  split at e
  · next i rest hs =>
    have hn : hitchInput i = false := by
      rw [hs] at hu
      simpa using (List.all_eq_true.1 hu) i List.mem_cons_self
    rw [if_pos (by simp [hh, hn])] at e
    cases e
    exact ⟨rfl, .inr (by simp [hs]), .inl rfl⟩
  · obtain ⟨turn, rr, hc⟩ := choose_state s
    simp only [hc] at e
    rcases choose_hitch hh with hm | hm
    · rw [hm, fire_inbox_hitch (s := { s with turn := turn, rr := rr }) hh hi] at e
      cases e
      exact ⟨rfl, .inl rfl, .inr rfl⟩
    · rw [hm, fire_clock_hitch (s := { s with turn := turn, rr := rr }) hh] at e
      cases e
      exact ⟨rfl, .inl rfl, .inl rfl⟩

theorem all_of_self_or_tail {α : Type} {f : α → Bool} {l r : List α} (h : l.all f = true) (hr : r = l ∨ r = l.tail) : r.all f = true := by
  rcases hr with rfl | rfl
  · exact h
  · exact List.all_eq_true.2 (fun x hx => List.all_eq_true.1 h x (List.mem_of_mem_tail hx))

theorem frozen_of_onlyQueues {s t : State} (h : frozen s) (ht : onlyQueues s t) : frozen t := by
  obtain ⟨hh, hu, hi⟩ := h
  obtain ⟨he, hur, hin⟩ := ht
  exact ⟨by rw [he]; exact hh, all_of_self_or_tail hu hur, all_of_self_or_tail hi hin⟩

/-- Settles O32: of the moves under HITCH, the clock stands and an input that may not act is dropped. -/
theorem hitchFreezesTheMachine : Obligations.HitchFreezesTheMachine := by
  unfold Obligations.HitchFreezesTheMachine
  intro s t h e
  have hq := stepOnce_hitch h e
  refine ⟨frozen_of_onlyQueues h hq, ?_⟩
  rw [hq.1]
  exact ⟨rfl, rfl, rfl, rfl, rfl, rfl, rfl, rfl, rfl, rfl, rfl, rfl⟩

end Sys2Proof.Laws
end

section
/-! SUPPORT. The hide space of a partition (R74): its cores in rising order, and the bank and word of an offset; with O44. -/

namespace Sys2Proof.Laws

open Sys2Proof.Machine Sys2Proof.Safety

theorem upFrom_eq_range' (n k : Nat) : upFrom n k = List.range' k n := by
  induction n generalizing k with
  | zero => rfl
  | succ n ih => rw [upFrom, ih, List.range'_succ]

theorem upTo_eq_range (n : Nat) : upTo n = List.range n := by
  rw [upTo, upFrom_eq_range', List.range_eq_range']

theorem pairwise_coreList (x : Part) : x.coreList.Pairwise (· < ·) := by
  rw [Part.coreList, upTo_eq_range]
  exact List.pairwise_lt_range.filter _

theorem mem_coreList (x : Part) (c : Nat) : c ∈ x.coreList ↔ c < 64 ∧ x.cores.getLsbD c = true := by
  rw [Part.coreList, upTo_eq_range, List.mem_filter, List.mem_range, bit_eq_getLsbD]

theorem hideSize_eq (x : Part) : x.hideSize = 262144 * x.coreList.length := rfl

theorem lt_hideSize_iff (x : Part) (off : Nat) : off < x.hideSize ↔ off / 262144 < x.coreList.length := by
  rw [hideSize_eq]
  omega

/-- The place of an offset in the four banks of one core: four banks of 65 536 words. -/
theorem corePlace_eq (off c : Nat) : (4 * c + off / 65536 % 4) * 65536 + off % 65536 = 262144 * c + off % 262144 := by
  omega

theorem hideKey_of_core {x : Part} {off c : Nat} (h : x.coreList[off / 262144]? = some c) : x.hideKey off = 262144 * c + off % 262144 := by
  rw [← corePlace_eq]
  simp [Part.hideKey, List.head?_drop, h, List.headD_eq_head?_getD]

theorem hideKey_injective {x : Part} {a b : Nat} (ha : a < x.hideSize) (hb : b < x.hideSize) (h : x.hideKey a = x.hideKey b) : a = b := by
  rw [lt_hideSize_iff] at ha hb
  rw [hideKey_of_core (List.getElem?_eq_getElem ha), hideKey_of_core (List.getElem?_eq_getElem hb)] at h
  have hcore : x.coreList[a / 262144] = x.coreList[b / 262144] := by omega
  have hidx : a / 262144 = b / 262144 :=
    (List.Nodup.getElem_inj_iff ((pairwise_coreList x).imp (fun h => Nat.ne_of_lt h))).1 hcore
  omega

theorem hideWrite_inside {s : State} {p off : Nat} (h : off < (partOf s p).hideSize) (w : DWord) :
    hideWrite s p off w = { s with hide := tset 0 s.hide ((partOf s p).hideKey off) w } := if_pos h

theorem hideWrite_outside {s : State} {p off : Nat} (h : (partOf s p).hideSize ≤ off) (w : DWord) : hideWrite s p off w = s :=
  if_neg (Nat.not_lt.2 h)

theorem seqHideOk_outside {s : State} {off : Nat} (h : (curPart s).hideSize ≤ off) : seqHideOk s off = false := by
  simp [seqHideOk, Nat.not_lt.2 h]

/-- Settles O44, by the core that holds the offset, if one does. -/
theorem hideOffsetsAddressBanks : Obligations.HideOffsetsAddressBanks := by
  unfold Obligations.HideOffsetsAddressBanks
  intro s p off other w x cs place
  refine ⟨pairwise_coreList x, mem_coreList x, rfl, fun c hc => ?_, hideKey_injective, fun h => ?_⟩
  · have hin : off < x.hideSize := (lt_hideSize_iff x off).2 (List.getElem?_eq_some_iff.1 hc).1
    have hkey : x.hideKey off = place off c := (hideKey_of_core hc).trans (corePlace_eq off c).symm
    exact ⟨hin, hkey, hkey ▸ hideWrite_inside hin w⟩
  · refine ⟨List.getElem?_eq_none ?_, hideWrite_outside h w, ?_⟩
    · exact Nat.not_lt.1 (fun hl => Nat.not_lt.2 h ((lt_hideSize_iff x off).2 hl))
    · rintro rfl
      exact seqHideOk_outside h

end Sys2Proof.Laws
end

section
/-! SUPPORT. Capture windows (R88), the attestation report (R72) and the function-level reset of a VF (R65, R172), with O36. -/

namespace Sys2Proof.Laws

open Sys2Proof.Machine Sys2Proof.Safety

/-! ### Capture windows -/

section
variable {s : State} {die : Fin 4} {unit : Fin 32} {val : DWord}

@[simp] theorem tget_putCap (s : State) (k : Nat) (c : Cap) : tget Cap.reset (putCap s k c).caps k = c := tget_tput_self _ _ _ _

/-- Of the control word of a unit, the fields that a start keeps: bits 31 to 60. -/
def captureFields (val : DWord) : Nat := bitsN val 31 30 * 2 ^ 31

theorem captureFields_lt (val : DWord) : captureFields val < 2 ^ 61 := by
  simp only [captureFields, bitsN]
  omega

/-- A control word of a flag over the fields holds that flag and no other of the three. -/
theorem captureFlag_bits (val : DWord) :
    (BitVec.ofNat 64 (2 ^ 63 + captureFields val) : DWord).getLsbD 63 = true
    ∧ (BitVec.ofNat 64 (2 ^ 63 + captureFields val) : DWord).getLsbD 61 = false
    ∧ (BitVec.ofNat 64 (2 ^ 61 + captureFields val) : DWord).getLsbD 61 = true
    ∧ (BitVec.ofNat 64 (2 ^ 61 + captureFields val) : DWord).getLsbD 63 = false := by
  have := captureFields_lt val
  simp only [← bit_eq_getLsbD, bit, BitVec.toNat_ofNat, decide_eq_true_eq, decide_eq_false_iff_not]
  refine ⟨?_, ?_, ?_, ?_⟩ <;> omega

/-- DONE set and EN cleared in a control word. -/
theorem captureDone_bits (w : DWord) :
    (setBits (setBits w 63 1 0) 62 1 1).getLsbD 62 = true ∧ (setBits (setBits w 63 1 0) 62 1 1).getLsbD 63 = false := by
  have := w.isLt
  simp only [← bit_eq_getLsbD, bit, setBits, bitsN, BitVec.toNat_ofNat, decide_eq_true_eq, decide_eq_false_iff_not]
  refine ⟨?_, ?_⟩ <;> omega

theorem captureWindowStart_taken (h1 : 1 ≤ bitsN val 46 8) (h2 : bitsN val 46 8 ≤ 9) (h3 : 10 ≤ bitsN val 40 6) (h4 : bitsN val 40 6 ≤ 40) :
    exec (.captureWindowStart die unit val) s = .next (putCap s (capKey die.val unit.val)
      { ctl := BitVec.ofNat 64 (2 ^ 63 + captureFields val), min := 0xFFFFFFFFFFFFFFFF, max := 0, cnt := 0
        hist := Vector.replicate 32 0, left := 2 ^ bitsN val 40 6 }) := by
  refine congrArg Host.Outcome.next (if_neg ?_)
  simp only [Bool.or_eq_true, decide_eq_true_eq]
  omega

theorem captureWindowStart_refused (h : bitsN val 46 8 = 0 ∨ 10 ≤ bitsN val 46 8 ∨ bitsN val 40 6 < 10 ∨ 40 < bitsN val 40 6) :
    exec (.captureWindowStart die unit val) s = .next (putCap s (capKey die.val unit.val)
      { capOf s (capKey die.val unit.val) with ctl := BitVec.ofNat 64 (2 ^ 61 + captureFields val), left := 0 }) := by
  refine congrArg Host.Outcome.next (if_pos ?_)
  simpa only [Bool.or_eq_true, decide_eq_true_eq, or_assoc] using h

theorem captureWindowEnd_running (h : (capOf s (capKey die.val unit.val)).ctl.getLsbD 63 = true) :
    exec (.captureWindowEnd die unit) s = .next (putCap s (capKey die.val unit.val)
      { capOf s (capKey die.val unit.val) with
        ctl := setBits (setBits (capOf s (capKey die.val unit.val)).ctl 63 1 0) 62 1 1, left := 0 }) :=
  congrArg Host.Outcome.next (if_pos (by rw [Cap.runs, bit_eq_getLsbD]; exact h))

end

/-! ### Attestation -/

theorem fitBytes_length (n : Nat) (l : List Byte) : (fitBytes n l).length = n := by
  simp [fitBytes]

theorem readBytes_length (m : Memory) (a n : Nat) : (readBytes m a n).length = n := by
  induction n generalizing a with
  | zero => rfl
  | succ n ih => simp [readBytes, ih]

/-- The signed part of a report has 144 bytes (R72). -/
theorem reportBody_length (s : State) (vf : Nat) : (reportBody s vf).length = 144 := by
  simp [reportBody, hostBytes, digestBytes, readBytes_length]

/-- The report: the signed part and the two signatures (R72). -/
def attestation (s : State) (vf : Nat) : List Byte :=
  reportBody s vf ++ fitBytes 64 (Config.signEd25519 (reportBody s vf)) ++ fitBytes 3309 (Config.signMldsa (reportBody s vf))

theorem attestation_length (s : State) (vf : Nat) : (attestation s vf).length = 144 + 64 + 3309 := by
  simp [attestation, reportBody_length, fitBytes_length]

/-- The event that follows a report (R72). -/
def attestEvent : Event := { code := 0, tag := 0xFFFF, stream := 0, type := 0x01, w1 := 0, w2 := 0, w3 := 0, irq := false, att := true }

section
variable {s : State} {vf : BitVec 8}

theorem attestGo_reports (hs : s.status = 1) (hb : (vfOf s vf.toNat).attBusy = false) :
    exec (.attestGo vf) s = .next (postEvent
      (modVf { s with hostMem := writeBytes s.hostMem (vfOf s vf.toNat).reportAddr.toNat (attestation s vf.toNat) } vf.toNat
        (fun v => { v with attBusy := true })) vf.toNat attestEvent) :=
  congrArg Host.Outcome.next (if_neg (by simp [hs, hb]))

theorem attestGo_busy (hb : (vfOf s vf.toNat).attBusy = true) : exec (.attestGo vf) s = .next s :=
  congrArg Host.Outcome.next (if_pos (by simp [hb]))

end

/-! ### Function-level reset -/

/-! What cancels the jobs of a VF works on partitions, and what gives up its pins on frames: neither is a part of a VF. -/

@[simp] theorem raisePromotions_vfs (s : State) (p slot : Nat) : (raisePromotions s p slot).vfs = s.vfs := by
  unfold raisePromotions
  split
  · rfl
  · exact foldl_keeps State.vfs (fun s o => addUrgent_vfs s _) _ _

@[simp] theorem armOnce_vfs (s : State) (p slot : Nat) (g : Graph) : (armOnce s p slot g).vfs = s.vfs :=
  raisePromotions_vfs _ _ _

@[simp] theorem armIdle_vfs (s : State) (p slot : Nat) : (armIdle s p slot).vfs = s.vfs := by
  unfold armIdle
  dsimp only
  (repeat' split) <;> simp

@[simp] theorem armReleased_vfs (s : State) (p : Nat) (before : List Nat) : (armReleased s p before).vfs = s.vfs :=
  foldl_keeps State.vfs (fun _ _ => armIdle_vfs _ _ _) _ _

@[simp] theorem cancelOn_vfs (s : State) (p : Nat) (c : CancelReq) (slot : Nat) : (cancelOn s p c slot).vfs = s.vfs := by
  unfold cancelOn
  (repeat' split) <;> simp

@[simp] theorem postCancel_vfs (s : State) (p : Nat) (c : CancelReq) : (postCancel s p c).vfs = s.vfs :=
  (armReleased_vfs _ _ _).trans (foldl_keeps State.vfs (fun _ _ => cancelOn_vfs _ _ _ _) _ _)

@[simp] theorem modSaved_vfs (s : State) (v : Nat) (f : Context → Context) : (modSaved s v f).vfs = s.vfs := rfl

@[simp] theorem cancelJobs_vfs (s : State) (vf : Nat) : (cancelJobs s vf).vfs = s.vfs := by
  unfold cancelJobs
  dsimp only
  rw [modSaved_vfs]
  cases runningPart s vf with
  | none => rfl
  | some p =>
    rw [Option.elim_some]
    exact foldl_keeps State.vfs (fun _ _ => postCancel_vfs _ _ _) _ _

@[simp] theorem setCount_vfs (s : State) (base n : Nat) : (setCount s base n).vfs = s.vfs := vfs_of_service (setCount_service s base n)

@[simp] theorem freePins_vfs (s : State) (vf : Nat) : (freePins s vf).vfs = s.vfs := by
  refine foldl_keeps State.vfs (fun s base => ?_) _ _
  dsimp only
  (repeat' split) <;> simp

/-- A VF's registers at their reset values; it keeps its waiting events, keys, share domains and chain of images, and which demands came from each
stream (R58, R65; log entry 53). -/
def resetVf (x : Vf) : Vf :=
  { Vf.reset with
    streams := Vector.ofFn (fun i => { Stream.reset with lastDemand := x.streams[i].lastDemand, sent := x.streams[i].sent })
    evWait := x.evWait, evLeft := x.evLeft, sdoms := x.sdoms, keys := x.keys, attBusy := x.attBusy, chain := x.chain }

/-- A stream that has been disabled (R53). -/
def disabled (q : Stream) : Stream :=
  let q := if q.state = .halt then q else { q with rp := 0, dnum := 0 }
  { q with en := false, state := .off, stage := 0, target := 0 }

theorem disabled_keeps (q : Stream) : (disabled q).lastDemand = q.lastDemand ∧ (disabled q).sent = q.sent := by
  simp only [disabled]
  split <;> exact ⟨rfl, rfl⟩

theorem vfOf_disableStream (s : State) (v : Nat) (n : Fin 8) :
    vfOf (disableStream s v n) v = { vfOf s v with streams := (vfOf s v).streams.set n (disabled (vfOf s v).streams[n]) } := by
  have hvfs : ∀ f g, (modSaved ((runningPart s v).elim s (fun p => modPart s p f)) v g).vfs = s.vfs := by
    intro f g
    cases runningPart s v <;> rfl
  unfold disableStream
  dsimp only
  rw [modStream, vfOf_modVf, if_pos rfl, vfOf_of_vfs (hvfs _ _)]
  rfl

/-- What a reset makes of a VF is the same before and after its streams have been disabled. -/
theorem resetVf_disableStreams (s : State) (v : Nat) (l : List (Fin 8)) :
    resetVf (vfOf (l.foldl (fun s n => disableStream s v n) s) v) = resetVf (vfOf s v) := by
  induction l generalizing s with
  | nil => rfl
  | cons n r ih =>
    rw [List.foldl_cons, ih, vfOf_disableStream]
    simp only [resetVf, Vf.mk.injEq, and_true]
    congr 1
    funext i
    by_cases h : n = i
    · subst h
      simp [disabled_keeps]
    · simp [Fin.val_ne_of_ne h]

theorem functionLevelReset_resets (vf : BitVec 8) (s : State) :
    ∃ t, exec (.functionLevelReset vf) s = .next t ∧ vfOf t vf.toNat = resetVf (vfOf s vf.toNat) := by
  refine ⟨_, rfl, ?_⟩
  rw [vfOf_of_vfs (freePins_vfs _ _), vfOf_modVf, if_pos rfl, ← vfOf_of_vfs (cancelJobs_vfs s vf.toNat)]
  exact resetVf_disableStreams _ _ _

/-! ### O36 -/

/-- Settles O36, by clause: a start that is taken, one that is refused, the end of a window; a report, and none while busy; the reset. -/
theorem capturesAttestationReset : Obligations.CapturesAttestationReset := by
  unfold Obligations.CapturesAttestationReset
  constructor <;> intro s
  · intro die unit val k probe wlog
    have hk : capKey die.val unit.val = k := rfl
    obtain ⟨hstarted, hfine, herr, hstopped⟩ := captureFlag_bits val
    refine ⟨fun h1 h2 h3 h4 => ?_, fun h => ?_, fun h => ?_⟩
    · refine ⟨_, captureWindowStart_taken h1 h2 h3 h4, ?_⟩
      rw [hk, tget_putCap]
      exact ⟨hstarted, hfine, rfl, rfl, rfl, rfl, rfl⟩
    · refine ⟨_, captureWindowStart_refused h, ?_⟩
      rw [hk, tget_putCap]
      exact ⟨herr, hstopped, rfl⟩
    · obtain ⟨hdone, hended⟩ := captureDone_bits (capOf s k).ctl
      refine ⟨_, captureWindowEnd_running h, ?_⟩
      rw [hk, tget_putCap]
      exact ⟨hdone, hended, rfl⟩
  · intro vf n v
    refine ⟨fun hs hb => ?_, attestGo_busy, ?_⟩
    · refine ⟨_, attestGo_reports hs hb, ?_, rfl, rfl, ⟨attestEvent, ?_, rfl, rfl, rfl⟩, attestation s v, attestation_length s v, ?_⟩
      · simp [postEvent, v]
      · rw [evWait_postEvent, vfOf_modVf, if_pos rfl]
        rfl
      · rw [postEvent_hostMem, modVf_hostMem]
    · obtain ⟨t, ht, hv⟩ := functionLevelReset_resets vf s
      refine ⟨t, ht, ?_⟩
      rw [streamOf, hv]
      exact ⟨by simp [resetVf, streamOf, v], rfl, rfl, rfl, rfl, rfl, rfl, rfl⟩

end Sys2Proof.Laws
end

section
/-! SUPPORT. Deadlines of waits and of results, the step limit of a section, residues, the replay limit and starved requests (R83, R85, R113,
R130, R131, R134, R205), with O50. -/

namespace Sys2Proof.Laws

open Sys2Proof.Machine Sys2Proof.Safety

/-! ### Queued reports and HARD faults -/

theorem partOf_queueReport (s : State) (p : Nat) (fwd : Bool) (r : Report) :
    partOf (queueReport s p fwd r) p = { partOf s p with faultQ := (partOf s p).faultQ ++ [r] } := by
  have hq : partOf (modPart s p (fun x => { x with faultQ := x.faultQ ++ [r] })) p
      = { partOf s p with faultQ := (partOf s p).faultQ ++ [r] } := by
    rw [partOf_modPart, if_pos rfl]
  rw [← hq]
  unfold queueReport
  dsimp only
  (repeat' split) <;> rfl

/-- A report is queued, and may stop the clocks: no core and nothing urgent changes. -/
theorem queueReport_frame (s : State) (p : Nat) (fwd : Bool) (r : Report) :
    (queueReport s p fwd r).cores = s.cores ∧ (queueReport s p fwd r).urgent = s.urgent := by
  unfold queueReport
  dsimp only
  (repeat' split) <;> exact ⟨rfl, rfl⟩

theorem hardFault_absorbed {s : State} {p : Nat} (h : (partOf s p).resetting = true) (r : Report) : hardFault s p r = s := if_pos h

theorem hardFault_resets {s : State} {p : Nat} (h : (partOf s p).resetting = false) (r : Report) :
    hardFault s p r = addUrgent (modPart (queueReport s p true r) p (fun x => { x with resetting := true }))
      (.partitionReset ⟨BitVec.ofNat 6 p, none⟩) := if_neg (by simp [h])

theorem hardFault_fields {s : State} {p : Nat} (h : (partOf s p).resetting = false) (r : Report) :
    let t := hardFault s p r
    (partOf t p).resetting = true ∧ t.urgent = s.urgent ++ [.partitionReset ⟨BitVec.ofNat 6 p, none⟩]
    ∧ (partOf t p).faultQ = (partOf s p).faultQ ++ [r] ∧ t.cores = s.cores := by
  obtain ⟨hcores, hurgent⟩ := queueReport_frame s p true r
  have hpart : partOf (hardFault s p r) p = { partOf s p with faultQ := (partOf s p).faultQ ++ [r], resetting := true } := by
    rw [hardFault_resets h, partOf_of_parts (addUrgent_parts _ _), partOf_modPart, if_pos rfl, partOf_queueReport]
  refine ⟨by rw [hpart], ?_, by rw [hpart], ?_⟩
  · simp [hardFault_resets h, hurgent]
  · simp [hardFault_resets h, hcores]

/-! ### Waits, section steps and late results -/

/-- What DEADLINE 1 reports (R131). -/
def budgetFault (g : Graph) : FaultInfo := { cls := cDeadline, detail := 1, info := BitVec.ofNat 64 g.budget, lane := none }

/-- The report of a graph whose wait is over outside a section: it names the operator and step that the graph waits for, if there are any (R113). -/
def budgetReport (x : Part) (slot : Nat) (g : Graph) : Report :=
  let r := plainReport x slot (budgetFault g) ((coresUp g).headD 0) 0 0 6
  match waitNames x slot g with
  | some (o, n, ps) => { r with opx := BitVec.ofNat 8 o, step := BitVec.ofNat 40 n, stream := streamOfPos x slot o ps }
  | none => r

theorem budgetReport_fields (x : Part) (slot : Nat) (g : Graph) :
    (budgetReport x slot g).cls = 10 ∧ (budgetReport x slot g).detail = 1 ∧ (budgetReport x slot g).info = BitVec.ofNat 64 g.budget
    ∧ (budgetReport x slot g).eng = 6 := by
  unfold budgetReport
  dsimp only
  split <;> exact ⟨rfl, rfl, rfl, rfl⟩

/-- The core whose section has reached the limit of R350. -/
def stepLimitCore (s : State) (g : Graph) : Nat :=
  ((coresUp g).find? (fun c => (coreOf s (coreNo c)).secOn && 65536 ≤ (coreOf s (coreNo c)).secCount)).getD (waitingCore s g)

section
variable {s : State} {part slot : BitVec 6} {g : Graph} (hg : graphOf s part.toNat slot.toNat = some g)
include hg

theorem waitBudgetExpiry_outside (hb : g.budget ≤ g.waitCnt) (hr : g.run ≠ .sect) :
    exec (.waitBudgetExpiry part slot) s = .next (takeFault .outside (modPart s part.toNat (fun x => { x with bndReq := true }))
      part.toNat slot.toNat (budgetReport (partOf s part.toNat) slot.toNat g)) := by
  show execWaitBudgetExpiry part slot s = _
  simp only [execWaitBudgetExpiry, hg, if_neg (Nat.not_lt.2 hb), if_neg hr]
  rfl

theorem waitBudgetExpiry_section (hb : g.budget ≤ g.waitCnt) (hr : g.run = .sect) :
    let t := modPart s part.toNat (fun x => { x with bndReq := true })
    let c := waitingCore t g
    exec (.waitBudgetExpiry part slot) s = .next (takeFault .boundary t part.toNat slot.toNat
      (plainReport (partOf s part.toNat) slot.toNat (budgetFault g) c (coreOf t (coreNo c)).secLi 0xFFF 0)) := by
  show execWaitBudgetExpiry part slot s = _
  simp only [execWaitBudgetExpiry, hg, if_neg (Nat.not_lt.2 hb), if_pos hr]
  rfl

theorem boundaryStepLimit_traps (hr : g.run = .sect) :
    exec (.boundaryStepLimit part slot) s = .next (takeFault .boundary s part.toNat slot.toNat
      (plainReport (partOf s part.toNat) slot.toNat (trapInfo 0xFFFD 0) (stepLimitCore s g)
        (coreOf s (coreNo (stepLimitCore s g))).secLi 0xFFF 0)) := by
  show execBoundaryStepLimit part slot s = _
  simp only [execBoundaryStepLimit, hg, hr, ne_eq, not_true, if_false]
  rfl
end

theorem hldILate_voids {s : State} {core : Fin 64} {p sl : Nat} {g : Graph} (ho : (coreOf s core).owner = some (p, sl))
    (hg : graphOf s p sl = some g) (hr : g.run = .round) (elem : Fin 96) (li : BitVec 12) (lane : BitVec 5) (late : Lateness) :
    exec (.hldILate core elem li lane late) s = .next (takeFault .round s p sl
      (unitReport (partOf s p) sl g (elemOf (coreOf s core) elem).opx.toNat
        { cls := cDeadline, detail := 3, info := late.fc.zeroExtend 64, lane := some lane.toNat } core.val elem.val li.toNat late.rc.toNat 0)) := by
  show execHldILate core elem li lane late s = _
  simp only [execHldILate, ho, hg, hr]
  rfl

/-! ### Residues -/

theorem residue_eq_iff (w : Word) (h : BitVec 3) : residue w = h ↔ w.toNat % 7 = h.toNat := by
  have hlt : w.toNat % 7 < 2 ^ 3 := by omega
  rw [residue, ← BitVec.toNat_inj, BitVec.toNat_ofNat, Nat.mod_eq_of_lt hlt]

/-- What is held beside words once a residue has come to one: it stands there exactly where it does not fit its word, and the others stay. -/
theorem putResid_holds (l : List (RWord × BitVec 3)) (w : RWord) (word : Word) (held : BitVec 3) :
    (residue word = held → ∀ h ∈ putResid l w word held, h.1 ≠ w) ∧ (residue word ≠ held → (w, held) ∈ putResid l w word held)
    ∧ ∀ h ∈ l, h.1 ≠ w → h ∈ putResid l w word held := by
  unfold putResid
  refine ⟨fun e h hm => ?_, fun e => ?_, fun h hm hn => ?_⟩
  · rw [if_pos e, List.append_nil, List.mem_filter] at hm
    exact of_decide_eq_true hm.2
  · simp [if_neg e]
  · exact List.mem_append_left _ (List.mem_filter.2 ⟨hm, decide_eq_true hn⟩)

theorem resid_holdResid (s : State) (c : Fin 64) (e : Fin 96) (w : RWord) (held : BitVec 3) :
    (elemOf (coreOf (holdResid s c e w held) c) (resHolder w e)).r.resid
      = putResid (elemOf (coreOf s c) (resHolder w e)).r.resid w (wordIn s c e w) held := by
  simp [holdResid]

theorem unitReport_place (x : Part) (slot : Nat) (g : Graph) (o : Nat) (f : FaultInfo) (core : Fin 64) (elem : Fin 96) (li : BitVec 12) (rc : Nat) :
    let r := unitReport x slot g o f core.val elem.val li.toNat rc 0
    r.cls = f.cls ∧ r.li = li ∧ r.elem.toNat = elem.val := by
  refine ⟨rfl, ?_, ?_⟩
  · simp [unitReport]
  · simp only [unitReport, BitVec.toNat_ofNat]
    omega

/-- A report names the class of its fault and the lane, if there is one, whoever is named as its place. -/
theorem portReport_class (s : State) (r : StreamRec) (f : FaultInfo) : (portReport s r f).cls = f.cls ∧ (portReport s r f).lv = f.lane.isSome := by
  unfold portReport seqReport
  dsimp only
  (repeat' split) <;> exact ⟨rfl, rfl⟩

theorem residueReport_class (s : State) (p slot : Nat) (g : Graph) (core : Fin 64) (c : ResidueCheck) (f : FaultInfo) :
    (residueReport s p slot g core c f).cls = f.cls ∧ (residueReport s p slot g core c f).lv = f.lane.isSome := by
  unfold residueReport
  dsimp only
  split
  · exact portReport_class _ _ _
  · exact ⟨rfl, rfl⟩

section
variable {s : State} {core : Fin 64} {c : ResidueCheck}

/-- The device once the residue stands beside its word. -/
def residueBeside (s : State) (core : Fin 64) (c : ResidueCheck) : State := holdResid s core c.elem c.word c.held

/-- The report of a mismatch that voids the round, and of one that is HARD. -/
def softReport (s : State) (p slot : Nat) (g : Graph) (core : Fin 64) (c : ResidueCheck) : Report :=
  residueReport (residueBeside s core c) p slot g core c (residueInfo c)
def hardReport (s : State) (p slot : Nat) (g : Graph) (core : Fin 64) (c : ResidueCheck) (d : Nat) : Report :=
  residueReport (residueBeside s core c) p slot g core c { cls := cHard, detail := d, info := BitVec.ofNat 64 c.elem.val, lane := none }

/-- The last three detections of an element, the new one among them (R134). -/
def detections (s : State) (core : Fin 64) (e : Fin 96) : List Nat := detected (elemOf (coreOf s core) e).detections (coreOf s core).roundsStarted

/-- Fewer than three of them lie within 2^20 rounds (R134). -/
def fewDetections (s : State) (core : Fin 64) (e : Fin 96) : Bool :=
  (detections s core e).length < 3 || (detections s core e).headD 0 + 1048576 ≤ (coreOf s core).roundsStarted

/-- The device once the element has counted the detection. -/
def residueCounted (s : State) (core : Fin 64) (c : ResidueCheck) : State :=
  modCore (residueBeside s core c) core (fun k => modElem k c.elem (fun e => { e with detections := detections s core c.elem }))

/-- The device once the element has failed. -/
def residueFailed (s : State) (core : Fin 64) (c : ResidueCheck) : State :=
  modCore (residueCounted s core c) core (fun k => modElem k c.elem (fun e => { e with failed := true }))

theorem residueLimit_unowned (h : (coreOf s core).owner = none) : exec (.residueLimit core c) s = .next (residueBeside s core c) := by
  show execResidueLimit core c s = _
  simp only [execResidueLimit, h]
  rfl

section
variable {p sl : Nat} {g : Graph} (ho : (coreOf s core).owner = some (p, sl)) (hg : graphOf s p sl = some g) (hr : g.run = .round)
include ho hg hr

/-- What a residue beside a word of a round in flight does, by the checks in their order (R205). -/
theorem residueLimit_eq : exec (.residueLimit core c) s = .next (
    if !checksNow c || residue (wordIn s core c.elem c.word) = c.held then residueBeside s core c
    else if isCommitted s core c.elem c.word then hardFault (residueBeside s core c) p (hardReport s p sl g core c 2)
    else if c.port.isSome then takeFault .round (residueBeside s core c) p sl (softReport s p sl g core c)
    else if fewDetections s core c.elem then takeFault .round (residueCounted s core c) p sl (softReport s p sl g core c)
    else hardFault (residueFailed s core c) p (hardReport s p sl g core c 1)) := by
  have hg' : graphOf (holdResid s core c.elem c.word c.held) p sl = some g := hg
  show execResidueLimit core c s = _
  simp only [execResidueLimit, ho, hg', hr, decide_true, Bool.true_or, Bool.not_true, Bool.or_false]
  rfl

theorem residueLimit_quiet (h : checksNow c = false ∨ residue (wordIn s core c.elem c.word) = c.held) :
    exec (.residueLimit core c) s = .next (residueBeside s core c) := by
  rw [residueLimit_eq ho hg hr, if_pos (by simpa using h)]

section
variable (hc : checksNow c = true) (hn : residue (wordIn s core c.elem c.word) ≠ c.held)
include hc hn

/-- A mismatch on a value that an earlier round has committed. -/
theorem residueLimit_committed (hold : isCommitted s core c.elem c.word = true) :
    exec (.residueLimit core c) s = .next (hardFault (residueBeside s core c) p (hardReport s p sl g core c 2)) := by
  rw [residueLimit_eq ho hg hr, if_neg (by simp [hc, hn]), if_pos hold]

/-! A mismatch on a value of the round in flight, by who reads the word and how many detections its element has. -/

variable (hold : isCommitted s core c.elem c.word = false)
include hold

theorem residueLimit_port (hp : c.port.isSome = true) :
    exec (.residueLimit core c) s = .next (takeFault .round (residueBeside s core c) p sl (softReport s p sl g core c)) := by
  rw [residueLimit_eq ho hg hr, if_neg (by simp [hc, hn]), if_neg (by simp [hold]), if_pos hp]

theorem residueLimit_few (hp : c.port = none) (hf : fewDetections s core c.elem = true) :
    exec (.residueLimit core c) s = .next (takeFault .round (residueCounted s core c) p sl (softReport s p sl g core c)) := by
  rw [residueLimit_eq ho hg hr, if_neg (by simp [hc, hn]), if_neg (by simp [hold]), if_neg (by simp [hp]), if_pos hf]

theorem residueLimit_third (hp : c.port = none) (hf : fewDetections s core c.elem ≠ true) :
    exec (.residueLimit core c) s = .next (hardFault (residueFailed s core c) p (hardReport s p sl g core c 1)) := by
  rw [residueLimit_eq ho hg hr, if_neg (by simp [hc, hn]), if_neg (by simp [hold]), if_neg (by simp [hp]), if_neg hf]

end
end

/-- A check that no stream port makes reports its element (R282). -/
theorem residueReport_element (u : State) (p sl : Nat) (g : Graph) (core : Fin 64) (f : FaultInfo) (hp : c.port = none) :
    residueReport u p sl g core c f = unitReport (partOf u p) sl g (elemOf (coreOf u core) c.elem).opx.toNat f
      core.val c.elem.val c.li.toNat g.rc 0 := by
  simp only [residueReport, hp]
  rfl

theorem softReport_names (p sl : Nat) (g : Graph) (hp : c.port = none) :
    let r := softReport s p sl g core c
    r.cls = 9 ∧ r.li = c.li ∧ r.elem.toNat = c.elem.val ∧ r.lv = true
    ∧ r.lane.toNat = (if c.read then c.lane.toNat else c.word.lane.val) := by
  have hlane : (residueInfo c).lane = some (if c.read then c.lane.toNat else c.word.lane.val) := by simp [residueInfo, hp]
  have hlt : (if c.read then c.lane.toNat else c.word.lane.val) < 2 ^ 5 := by
    split
    · exact c.lane.isLt
    · exact c.word.lane.isLt
  rw [softReport, residueReport_element _ _ _ _ _ _ hp]
  obtain ⟨hcls, hli, helem⟩ := unitReport_place (partOf (residueBeside s core c) p) sl g
    (elemOf (coreOf (residueBeside s core c) core) c.elem).opx.toNat (residueInfo c) core c.elem c.li g.rc
  refine ⟨hcls, hli, helem, by simp [unitReport, hlane], ?_⟩
  simp only [unitReport, hlane, Option.getD_some, BitVec.toNat_ofNat, Nat.mod_eq_of_lt hlt]

theorem hardReport_names (p sl : Nat) (g : Graph) (d : Nat) (hd : d < 2 ^ 16) (hp : c.port = none) :
    let r := hardReport s p sl g core c d
    r.cls = 16 ∧ r.detail.toNat = d ∧ r.li = c.li ∧ r.elem.toNat = c.elem.val := by
  rw [hardReport, residueReport_element _ _ _ _ _ _ hp]
  obtain ⟨hcls, hli, helem⟩ := unitReport_place (partOf (residueBeside s core c) p) sl g
    (elemOf (coreOf (residueBeside s core c) core) c.elem).opx.toNat
    { cls := cHard, detail := d, info := BitVec.ofNat 64 c.elem.val, lane := none } core c.elem c.li g.rc
  refine ⟨hcls, ?_, hli, helem⟩
  simp only [unitReport, BitVec.toNat_ofNat, Nat.mod_eq_of_lt hd]

/-- The element that has failed, and its detections. -/
theorem residueFailed_element (s : State) (core : Fin 64) (c : ResidueCheck) :
    (elemOf (coreOf (residueFailed s core c) core) c.elem).failed = true
    ∧ (elemOf (coreOf (residueFailed s core c) core) c.elem).detections = detections s core c.elem := by
  simp [residueFailed, residueCounted]
end

/-! ### The replay limit and starved requests -/

theorem forwards_eq (c : BitVec 5) : forwards c = !decide (c = 1 ∨ c = 9 ∨ c = 11 ∨ c = 12) := by
  simp only [forwards, cAbsent, cResidue, cUnderrun, cOverrun, Bool.decide_or, Bool.or_assoc]
  rfl

section
variable {s : State} {part slot : BitVec 6} {g : Graph} (hg : graphOf s part.toNat slot.toNat = some g)
include hg

theorem replayLimit_below (hl : atReplayLimit g = false) : exec (.replayLimit part slot) s = .next s := by
  show execReplayLimit part slot s = _
  simp only [execReplayLimit, hg, hl, Bool.not_false, if_true]

/-- What the device has reported when the limit stops the graph: a report that has been forwarded is not sent again. -/
def limitReported (s : State) (g : Graph) : State :=
  match g.hold with
  | some r => if forwards r.cls then s else postEvent s g.vf (reportEvent r)
  | none => s

theorem replayLimit_stops (hl : atReplayLimit g = true) : exec (.replayLimit part slot) s = .next
    (stopGraph (modGraph (limitReported s g) part.toNat slot.toNat (fun g => { g with repeatCnt := 0 })) part.toNat slot.toNat) := by
  show execReplayLimit part slot s = _
  simp only [execReplayLimit, hg, hl, Bool.not_true]
  rfl
end

/-- Has a request starved at an arbiter: of a lower class, and waiting for 1 024 units (R83)? -/
def starved (arb : Nat) (q : ArbReq) : Prop := q.arbiter = arb ∧ q.cls ≠ 0 ∧ 1024 ≤ q.waited ∧ q.granted = false

theorem grantStarved_first {arb : Nat} {q : ArbReq} (hq : starved arb q) (post pre : List ArbReq) (hpre : ∀ x ∈ pre, ¬ starved arb x) :
    grantStarved arb (pre ++ q :: post) = pre ++ { q with granted := true } :: post := by
  induction pre with
  | nil =>
    obtain ⟨ha, hc, hw, hn⟩ := hq
    exact if_pos (by simpa [ha, hw, hn] using hc)
  | cons x r ih =>
    have hx : ¬ starved arb x := hpre x List.mem_cons_self
    rw [List.cons_append, grantStarved, if_neg (by simpa [starved, and_assoc] using hx), ih (fun y hy => hpre y (List.mem_cons_of_mem _ hy))]
    rfl

/-! ### O50 -/

/-- Settles O50: each limit by the state in which it is found, and a residue by the checks in their order. -/
theorem deadlinesAndLimits : Obligations.DeadlinesAndLimits := by
  unfold Obligations.DeadlinesAndLimits
  constructor
  · intro s part slot g core elem li rc lane late p' sl' word held read port p sl n seen ds few check value old beside agrees checked hard
    let c : ResidueCheck := ⟨elem, li, word, held, read, lane, none⟩
    have hagrees : ∀ h : BitVec 3, residue value = h ↔ value.toNat % 7 = h.toNat := residue_eq_iff value
    have hchecked : checksNow ⟨elem, li, word, held, read, lane, none⟩ = true ↔ checked := by simp [checksNow, checked]
    have hfew : fewDetections s core elem = true ↔ few := by
      simp only [fewDetections, Bool.or_eq_true, decide_eq_true_eq]
      exact Iff.rfl
    refine ⟨fun hg hb hr => ⟨_, waitBudgetExpiry_outside hg hb hr, budgetReport_fields _ _ _⟩,
      fun hg hb hr => ⟨_, waitBudgetExpiry_section hg hb hr, rfl, rfl, rfl, rfl⟩,
      fun hg hr => ⟨_, boundaryStepLimit_traps hg hr, rfl, rfl, rfl⟩, fun ho hg hr => ⟨?_, ?_, ?_, ?_, ?_⟩, fun ho hg hr hn hold => ?_,
      residueLimit_unowned, ?_⟩
    · refine ⟨_, hldILate_voids ho hg hr elem li lane ⟨rc, late⟩, rfl, rfl, rfl, ?_, rfl, ?_, ?_⟩ <;> simp [unitReport]
    · intro h
      refine residueLimit_quiet ho hg hr (h.imp (fun hc => ?_) (hagrees held).2)
      exact Bool.eq_false_iff.2 (fun hc' => hc (hchecked.1 hc'))
    · intro hc hn hold hf
      obtain ⟨hcls, hli, helem, hlv, hlane⟩ := softReport_names (s := s) (core := core) (c := c) p' sl' g rfl
      exact ⟨residueCounted s core c, softReport s p' sl' g core c,
        residueLimit_few ho hg hr (hchecked.2 hc) (mt (hagrees held).1 hn) hold rfl (hfew.2 hf), hcls, hli, helem, hlv, hlane, rfl⟩
    · intro hc hn hold hf hres
      obtain ⟨hreset, hurgent, hq, hcores⟩ := hardFault_fields (s := residueFailed s core c) hres (hardReport s p' sl' g core c 1)
      obtain ⟨hfail, hds⟩ := residueFailed_element s core c
      refine ⟨_, residueLimit_third ho hg hr (hchecked.2 hc) (mt (hagrees held).1 hn) hold rfl (mt hfew.1 hf), ?_, ?_, hreset, hurgent, _, hq,
        hardReport_names p' sl' g 1 (by decide) rfl⟩
      · rw [coreOf_of_cores hcores]
        exact hfail
      · rw [coreOf_of_cores hcores]
        exact hds
    · intro hc hn hold hres
      obtain ⟨hreset, hurgent, hq, hcores⟩ := hardFault_fields (s := beside) hres (hardReport s p' sl' g core c 2)
      exact ⟨_, residueLimit_committed ho hg hr (hchecked.2 hc) (mt (hagrees held).1 hn) hold, hcores, hreset, hurgent, _, hq,
        hardReport_names p' sl' g 2 (by decide) rfl⟩
    · exact ⟨softReport s p' sl' g core ⟨elem, li, word, held, true, lane, some port⟩,
        residueLimit_port ho hg hr rfl (mt (hagrees held).1 hn) hold rfl, residueReport_class _ _ _ _ _ _ _⟩
    · intro l
      have hl : l = putResid (elemOf (coreOf s core) (resHolder word elem)).r.resid word value held := resid_holdResid s core elem word held
      rw [hl]
      obtain ⟨hfits, hheld, hothers⟩ := putResid_holds (elemOf (coreOf s core) (resHolder word elem)).r.resid word value held
      exact ⟨fun h => hfits ((hagrees held).2 h), fun h => hheld (mt (hagrees held).1 h), hothers⟩
  · intro s part slot g arb q pre post p sl
    refine ⟨fun hg hl hh => ?_, fun r hg hl hh => ?_, replayLimit_below, ?_⟩
    · rw [replayLimit_stops hg hl, limitReported, hh]
    · rw [replayLimit_stops hg hl, limitReported, hh]
      simp only [forwards_eq, Bool.not_eq_true', decide_eq_false_iff_not, ite_not]
      rfl
    · intro starved hs hpre hq
      show execStarvationGrant arb s = _
      rw [execStarvationGrant, hs, grantStarved_first hq post pre hpre]

end Sys2Proof.Laws
end

section
/-! SUPPORT. What the engine commands of other partitions do leaves a partition as it is (R79, R196): accesses to memory, faults of a command, and
the operations of a collective. -/

namespace Sys2Proof.Laws

open Sys2Proof.Machine Sys2Proof.Safety

/-- A partition is as it was, and no engine command is its own. -/
def apart (p : Nat) (x : Part) (s : State) : Prop := partOf s p = x ∧ ∀ e ∈ s.engines, e.part ≠ p

section
variable {p : Nat} {x : Part}

theorem apart_same {s t : State} (h : tablesOf t = tablesOf s) (hs : apart p x s) : apart p x t := by
  have hp : t.parts = s.parts := congrArg (fun y => y.1) h
  have he : t.engines = s.engines := congrArg (fun y => y.2.1) h
  exact ⟨(partOf_of_parts hp p).trans hs.1, he ▸ hs.2⟩

theorem apart_ite {c : Prop} [Decidable c] {s t : State} (hs : apart p x s) (ht : apart p x t) : apart p x (if c then s else t) := by
  split
  · exact hs
  · exact ht

theorem apart_foldl {α : Type} {f : State → α → State} (hf : ∀ s a, apart p x s → apart p x (f s a)) (l : List α) {s : State}
    (hs : apart p x s) : apart p x (l.foldl f s) :=
  List.foldlRecOn (motive := apart p x) l f hs (fun t ht a _ => hf t a ht)

/-! ### Updates of another partition -/

section
variable {q : Nat} (hq : q ≠ p)
include hq

theorem putPart_apart {s : State} (y : Part) (hs : apart p x s) : apart p x (putPart s q y) :=
  ⟨by rw [partOf_putPart, if_neg hq.symm]; exact hs.1, hs.2⟩

theorem modPart_apart {s : State} (f : Part → Part) (hs : apart p x s) : apart p x (modPart s q f) := putPart_apart hq _ hs

theorem modGraph_apart {s : State} (k : Nat) (f : Graph → Graph) (hs : apart p x s) : apart p x (modGraph s q k f) := putPart_apart hq _ hs

theorem queueReport_apart {s : State} (fwd : Bool) (r : Report) (hs : apart p x s) : apart p x (queueReport s q fwd r) := by
  have ht : apart p x (modPart s q (fun y => { y with faultQ := y.faultQ ++ [r] })) := modPart_apart hq _ hs
  unfold queueReport
  dsimp only
  (repeat' split) <;> exact ht

theorem armOnce_apart {s : State} (k : Nat) (g : Graph) (hs : apart p x s) : apart p x (armOnce s q k g) := by
  have ht : apart p x (modGraph (putPart s q (armGraph (histFrontier s q g) (partOf s q) k)) q k settle) :=
    modGraph_apart hq _ _ (putPart_apart hq _ hs)
  simp only [armOnce, raisePromotions]
  split
  · exact ht
  · refine apart_foldl (fun s o h => ?_) _ ht
    exact h

theorem armIdle_apart {s : State} (k : Nat) (hs : apart p x s) : apart p x (armIdle s q k) := by
  unfold armIdle
  split
  · exact hs
  next g _ =>
  split
  · exact hs
  have h1 : apart p x (armOnce s q k g) := armOnce_apart hq k g hs
  dsimp only
  split
  · exact h1
  split
  · exact h1
  · exact armOnce_apart hq _ _ (putPart_apart hq _ h1)

theorem armReleased_apart {s : State} (before : List Nat) (hs : apart p x s) : apart p x (armReleased s q before) :=
  apart_foldl (fun _ _ h => armIdle_apart hq _ h) _ hs

theorem cancelSlot_apart {s : State} (k : Nat) (hs : apart p x s) : apart p x (cancelSlot s q k) := by
  unfold cancelSlot
  split
  · exact hs
  · exact armReleased_apart hq _ (putPart_apart hq _ hs)

theorem stopGraph_apart {s : State} (k : Nat) (hs : apart p x s) : apart p x (stopGraph s q k) :=
  modGraph_apart hq _ _ (cancelSlot_apart hq _ hs)

theorem stopSoon_apart {s : State} (k : Nat) (hs : apart p x s) : apart p x (stopSoon s q k) := by
  unfold stopSoon
  (repeat' split)
  · exact hs
  · exact modGraph_apart hq _ _ hs
  · exact stopGraph_apart hq _ hs

theorem takeFault_outside_apart {s : State} (k : Nat) (r : Report) (hs : apart p x s) : apart p x (takeFault .outside s q k r) := by
  simp only [takeFault]
  exact stopSoon_apart hq _ (queueReport_apart hq _ _ (apart_ite hs hs))

end

/-! ### Memory -/

theorem setView_tables (s : State) (k : Nat) (l : List Byte) : tablesOf (setView s k l) = tablesOf s := by
  unfold setView
  split <;> rfl

theorem fillSector_tables (s : State) (cattr : BitVec 2) (k : Nat) : tablesOf (fillSector s cattr k) = tablesOf s := by
  simp only [fillSector]
  (repeat' split)
  · rfl
  · exact setView_tables _ _ _
  · exact setView_tables _ _ _
  · rfl

theorem mdtTouch_tables (s : State) (line : Nat) : tablesOf (mdtTouch s line) = tablesOf s := rfl

theorem l2Touch_tables {s t : State} {v : Via} {cattr : BitVec 2} {a : Nat} {u : Use} (e : l2Touch s v cattr a u = .ok t) :
    tablesOf t = tablesOf s := by
  simp only [l2Touch] at e
  split at e
  · cases e
  split at e
  · cases e
  split at e
  · cases e
  cases e
  refine (tables_of_service (sampleRead_service _ _ _ _ _ _)).trans ?_
  simp only [apply_ite tablesOf, fillSector_tables, tables_of_service (askMemory_service _ _ _), tables_of_service (l2Room_service _ _ _ _),
    tables_of_service (edgeAsk_service _ _ _ _ _), tables_of_service (arbAsk_service _ _ _ _ _), mdtTouch_tables, ite_self]

theorem touchDesc_tables (s : State) (v : Via) (f : Nat) : tablesOf (touchDesc s v f) = tablesOf s := by
  unfold touchDesc
  split
  · rfl
  · split
    · next u hu => exact l2Touch_tables hu
    · rfl

theorem translate_tables {s : State} {q : Nat} {v : Via} {t : Tensor} {n off : Nat} {write : Bool} {y : State × Latch}
    (e : Machine.translate s q v t n off write = .ok y) : tablesOf y.1 = tablesOf s := by
  simp only [Machine.translate] at e
  split at e
  · cases e
  split at e
  · cases e
  next u hu =>
  have hu := (l2Touch_tables hu).trans (touchDesc_tables _ _ _)
  split at e
  · cases e
  split at e
  · cases e
  split at e
  · cases e
  cases e
  exact (touchDesc_tables _ _ _).trans hu

theorem engAddr_tables {s : State} {q : Nat} {v : Via} {g : Graph} {tid : BitVec 20} {tile off : Nat} {write : Bool}
    {y : State × Nat × BitVec 2} (e : engAddr s q v g tid tile off write = .ok y) : tablesOf y.1 = tablesOf s := by
  simp only [engAddr] at e
  split at e
  · cases e
  split at e
  · cases e
  next u l hu =>
  cases e
  exact translate_tables (y := (u, l)) hu

theorem fillFor_tables {v : Via} {l : List Store} {as : List Nat} {s t : State} (e : fillFor v l as s = .ok t) : tablesOf t = tablesOf s := by
  induction as generalizing s with
  | nil => cases e; rfl
  | cons a r ih =>
    simp only [fillFor] at e
    split at e
    · split at e
      · cases e
      · exact ih e
    · split at e
      · cases e
      · next u hu => exact (ih e).trans (l2Touch_tables hu)

theorem performStore_tables (s : State) (q vf port : Nat) (w : Writer) (y : Store) : tablesOf (performStore s q vf port w y) = tablesOf s := by
  simp only [performStore]
  split
  · rfl
  · next u hu => exact (l2Touch_tables hu :)

theorem putHide_tables (q : Nat) (l : List Byte) (i : Nat) (s : State) : tablesOf (putHide q l i s).s = tablesOf s := by
  induction l generalizing i s with
  | nil => rfl
  | cons b r ih =>
    simp only [putHide]
    split
    · rfl
    · exact (ih _ _).trans (tables_of_service (hideWrite_service _ _ _ _))

section
variable {q : Nat} (hq : q ≠ p)
include hq

theorem performStores_apart {s : State} (vf port : Nat) (w : Writer) (l : List Store) (hs : apart p x s) :
    apart p x (performStores s q vf port w l) := by
  refine apart_foldl (fun u y h => apart_same (performStore_tables u q vf port w y) h) _ ?_
  exact apart_foldl (fun u k h => modPart_apart hq _ h) _ hs

theorem writeRegion_apart {s : State} (v : Via) (c id : Nat) (g : Graph) (r : Region) (shift : Nat) (l : List Byte) (hs : apart p x s) :
    apart p x (writeRegion s q v c id g r shift l).s := by
  cases r with
  | tensor tid tile off =>
    simp only [writeRegion]
    split
    · exact hs
    next u a ca ha =>
    have hu : apart p x u := apart_same (engAddr_tables ha) hs
    split
    · exact hu
    split
    · exact hu
    · next w hw => exact performStores_apart hq _ _ _ _ (apart_same (fillFor_tables hw) hu)
  | tile mt line => exact hs
  | loft off => exact hs
  | hide off => exact apart_same ((putHide_tables _ _ _ _).trans (tables_of_service (askHide_service _ _ _ _ _))) hs
  | bad => exact hs

end

/-! ### Engine commands of other partitions -/

theorem modRunning_apart {s : State} (id : Nat) {f : Running → Running} (hf : ∀ r, (f r).part = r.part) (hs : apart p x s) :
    apart p x (modRunning s id f) := by
  refine ⟨hs.1, fun e he => ?_⟩
  obtain ⟨r, hr, rfl⟩ := List.mem_map.1 he
  split
  · rw [hf]
    exact hs.2 r hr
  · exact hs.2 r hr

theorem endCommand_apart {s : State} (r : Running) (hs : apart p x s) : apart p x (endCommand s r) :=
  ⟨hs.1, fun e he => hs.2 e (List.mem_of_mem_filter he)⟩

theorem failCommand_apart {s : State} {r : Running} (hr : r.part ≠ p) (info : Nat) (hs : apart p x s) : apart p x (failCommand s r info) :=
  endCommand_apart r (takeFault_outside_apart hr _ _ hs)

theorem askTask_apart {s : State} (i : Instr) (hs : apart p x s) : apart p x (askTask s i) := apart_ite hs hs

theorem onStall_apart {s : State} {r : Running} (hr : r.part ≠ p) (e : Stall) (hs : apart p x s) : apart p x (onStall s r e) := by
  cases e with
  | fetch f => exact askTask_apart _ hs
  | room => exact modRunning_apart _ (fun _ => rfl) (modPart_apart hr _ hs)
  | swap q => exact askTask_apart _ hs
  | bad info => exact failCommand_apart hr _ hs
  | lost a => exact failCommand_apart hr _ hs

theorem localCmd_apart {s : State} {group opn : Nat} {r : Running} (h : localCmd s group opn = some r) (hs : apart p x s) : r.part ≠ p :=
  hs.2 r (List.mem_of_find?_eq_some h)

/-! ### Collective operations -/

@[simp] theorem dropOp_tables (s : State) (group opn : Nat) : tablesOf (dropOp s group opn) = tablesOf s := rfl

@[simp] theorem putOp_tables (s : State) (o : CollOp) : tablesOf (putOp s o) = tablesOf s := by
  unfold putOp
  split <;> rfl

@[simp] theorem dropParts_tables (s : State) (group opn : Nat) : tablesOf (dropParts s group opn) = tablesOf s := by
  refine foldl_keeps tablesOf (fun s i => ?_) _ _
  rfl

@[simp] theorem sendValues_tables (s : State) (port vc type : Nat) (dst : BitVec 12) (group opn : Nat) (rop : BitVec 4) (last : Bool)
    (vals : List Word) : tablesOf (sendValues s port vc type dst group opn rop last vals) = tablesOf s := by
  unfold sendValues
  split <;> rfl

@[simp] theorem sendFrag_tables (s : State) (port vc type : Nat) (dst : BitVec 12) (group opn cnt : Nat) (rop pfmt : BitVec 4) (last : Bool)
    (payload : List Byte) : tablesOf (sendFrag s port vc type dst group opn cnt rop pfmt last payload) = tablesOf s := by
  unfold sendFrag
  split <;> rfl

@[simp] theorem returnCredit_tables (s : State) (port : Fin 18) (vc : BitVec 4) : tablesOf (returnCredit s port vc) = tablesOf s := by
  unfold returnCredit
  split <;> rfl

theorem endOp_apart {s : State} (group opn : Nat) (hs : apart p x s) : apart p x (endOp s group opn) := by
  simp only [endOp]
  refine apart_same ((dropOp_tables _ _ _).trans (dropParts_tables _ _ _)) ?_
  split
  · next r hr => exact failCommand_apart (localCmd_apart hr hs) _ hs
  · exact hs

theorem abortOp_apart {s : State} (group opn : Nat) (origin : Option Nat) (hs : apart p x s) : apart p x (abortOp s group opn origin) := by
  have hsent : ∀ w : DWord, apart p x (((grpPorts w).filter (fun i => some i ≠ origin)).foldl
      (fun s i => sendSignal s i 0x15 (grpRoot w) group opn) s) := fun w =>
    apart_foldl (fun u i h => apart_same (sendFrag_tables u i 4 0x15 _ group opn 0 0 3 true (padPayload [])) h) _ hs
  simp only [abortOp]
  split
  · exact apart_same ((putOp_tables _ _).trans (dropParts_tables _ _ _)) (hsent _)
  · exact endOp_apart _ _ (hsent _)

theorem collStall_apart {s : State} {r : Running} (hr : r.part ≠ p) (e : Stall) (group opn : Nat) (hs : apart p x s) :
    apart p x (collStall s r e group opn) :=
  apart_ite (apart_same (dropOp_tables _ _ _) (onStall_apart hr e hs)) (onStall_apart hr e hs)

theorem apart_put_ite {c : Prop} [Decidable c] {s : State} {y : Put} (hs : apart p x s) (hy : apart p x y.s) :
    apart p x (if c then { s := s, stop := none } else y : Put).s := by
  split
  · exact hs
  · exact hy

theorem deliver_apart {s : State} (group opn : Nat) (hs : apart p x s) : apart p x (deliver s group opn) := by
  unfold deliver
  split
  · exact apart_ite hs hs
  next r hr =>
  have hne : r.part ≠ p := localCmd_apart hr hs
  dsimp only
  split
  · exact hs
  split
  · exact apart_ite (modRunning_apart _ (fun _ => rfl) hs) hs
  split
  · exact hs
  split
  · exact collStall_apart hne _ _ _ (apart_put_ite hs (writeRegion_apart hne _ _ _ _ _ _ _ hs))
  · exact modRunning_apart _ (fun _ => rfl) (apart_put_ite hs (writeRegion_apart hne _ _ _ _ _ _ _ hs))

theorem cameDown_apart {s : State} (group opn : Nat) (l : List Word) (last : Bool) (hs : apart p x s) :
    apart p x (cameDown s group opn l last) := by
  simp only [cameDown]
  split
  · exact apart_ite hs (apart_same (putOp_tables _ _) hs)
  · exact deliver_apart _ _ (apart_same (putOp_tables _ _) hs)

theorem passUp_apart {s : State} (w : DWord) (group opn : Nat) (rop pfmt : BitVec 4) (cnt : Nat) (last : Bool) (vals : List Word)
    (hs : apart p x s) : apart p x (passUp s w group opn rop pfmt cnt last vals) := by
  have hsend : ∀ {u : State} (i vc type : Nat) (pay : List Byte), apart p x u →
      apart p x (if pfmt = 0 then sendValues u i vc type (grpRoot w) group opn rop last vals
        else sendFrag u i vc type (grpRoot w) group opn cnt rop pfmt last pay) := fun i vc type pay hu =>
    apart_ite (apart_same (sendValues_tables _ _ _ _ _ _ _ _ _ _) hu) (apart_same (sendFrag_tables _ _ _ _ _ _ _ _ _ _ _ _) hu)
  simp only [passUp]
  split
  · exact cameDown_apart _ _ _ _ (apart_foldl (fun _ _ h => hsend _ _ _ _ h) _ hs)
  · exact hsend _ _ _ _ hs

theorem reduceAlone_apart {s : State} (w : DWord) (group opn : Nat) (c : Contrib) (hs : apart p x s) :
    apart p x (reduceAlone s w group opn c) := by
  simp only [reduceAlone]
  split
  · exact cameDown_apart _ _ _ _ hs
  split
  · exact apart_same (sendValues_tables _ _ _ _ _ _ _ _ _ _) hs
  · exact apart_foldl (fun _ y h => passUp_apart _ _ _ _ _ _ _ _ h) _ hs

theorem combineReady_apart (n group opn : Nat) {s : State} (hs : apart p x s) : apart p x (combineReady n group opn s) := by
  induction n generalizing s with
  | zero => exact hs
  | succ n ih =>
    simp only [combineReady]
    refine apart_ite (abortOp_apart _ _ _ hs) ?_
    split
    · exact hs
    split
    · exact hs
    · exact ih (passUp_apart _ _ _ _ _ _ _ _ (apart_same (putOp_tables _ _) hs))

theorem reduceGo_apart {s : State} (group opn : Nat) (hs : apart p x s) : apart p x (reduceGo s group opn) := by
  simp only [reduceGo]
  split
  · exact reduceAlone_apart _ _ _ _ hs
  · exact hs
  · exact combineReady_apart _ _ _ hs

theorem redupArrives_apart {s : State} (port : Nat) (f : Flit) (vals : List Word) (hs : apart p x s) :
    apart p x (redupArrives s port f vals) := by
  simp only [redupArrives]
  split
  · exact hs
  split
  · exact abortOp_apart _ _ _ hs
  split
  · exact hs
  · exact reduceGo_apart _ _ (apart_same (putOp_tables _ _) hs)

theorem drainFrom_apart (n : Nat) {s : State} (hs : apart p x s) : apart p x (drainFrom n s) := by
  induction n generalizing s with
  | zero => exact hs
  | succ n ih =>
    simp only [drainFrom]
    split
    · exact hs
    · exact ih (apart_same (returnCredit_tables _ _ _) (apart_ite hs (redupArrives_apart _ _ _ hs)))

/-- Once the engines of a partition have stopped, no command is its own, and the partition is as it was (R79). -/
theorem stopEngines_apart (s : State) : apart p (partOf s p) (stopEngines s p) := by
  have h0 : apart p (partOf s p) { s with engines := s.engines.filter (fun r => r.part ≠ p) } :=
    ⟨rfl, fun e he => of_decide_eq_true (List.mem_filter.1 he).2⟩
  have h1 := apart_foldl (fun u c h => abortOp_apart c.1 c.2 none h)
    ((s.engines.filter (fun r => r.part = p)).filterMap (fun r => if r.fin then none else r.cmd.coll)) h0
  refine drainFrom_apart _ (apart_foldl (fun u c h => ?_) _ h1)
  exact apart_same (dropOp_tables u c.1 c.2) h

end
end Sys2Proof.Laws
end

section
/-! SUPPORT. Slices that have run their length (R80, R131), the reset of a partition step by step (R79), and an uncorrectable error in a structure
(R135), with O52. -/

namespace Sys2Proof.Laws

open Sys2Proof.Machine Sys2Proof.Safety

/-! ### Slices -/

theorem sliceExpiry_expires {s : State} {part : BitVec 6} (h1 : (partOf s part.toNat).slices = true)
    (h2 : (partOf s part.toNat).slice * 2 ^ 20 ≤ (partOf s part.toNat).sliceRun) (h3 : (partOf s part.toNat).sliceExp = false) :
    exec (.sliceExpiry part) s = .next (putPart s part.toNat
      { partOf s part.toNat with sliceExp := true, sliceAt := nextPhn (partOf s part.toNat), grace := 0, bndReq := true }) := by
  refine congrArg Host.Outcome.next (congrArg (putPart s part.toNat) (if_pos ?_))
  simpa [h1, h3] using h2

/-- DEADLINE 4 (R131). -/
def graceReport (x : Part) : Report :=
  { plainReport x 0 { cls := cDeadline, detail := 4, info := BitVec.ofNat 64 (x.graceLimit * 1024), lane := none } 0 0 0 6 with stream := 0 }

theorem graceExpiry_reports {s : State} {part : BitVec 6} (h1 : (partOf s part.toNat).sliceExp = true)
    (h2 : (partOf s part.toNat).graceLimit ≠ 0) (h3 : (partOf s part.toNat).graceLimit * 1024 ≤ (partOf s part.toNat).grace) :
    exec (.graceExpiry part) s
      = .next (askBoundary (queueReport s part.toNat true (graceReport (partOf s part.toNat))) part.toNat) := by
  refine congrArg Host.Outcome.next (if_neg ?_)
  simpa [h1, h2] using h3

/-! ### The stages of a reset -/

section
variable (s : State) (p : Nat)

/-- A context that is still to be restored is given up. -/
theorem discardSaved_part : ∃ l, partOf (discardSaved s p) p = { partOf s p with saved := l } := by
  unfold discardSaved
  (repeat' split)
  · exact ⟨_, rfl⟩
  · next c _ =>
    rw [partOf_modPart, if_pos rfl, partOf_of_parts (parts_of_service (dropArea_service s c))]
    exact ⟨_, rfl⟩
  · exact ⟨_, rfl⟩

theorem unElide_service (k : Nat) : serviceOf (unElide s k) = serviceOf s := by
  unfold unElide
  split <;> rfl

/-- Step 3: nothing of the partition is pending, and its version store is empty. -/
theorem rollBack_frame : partOf (rollBack s p) p = { partOf s p with verUsed := [] } ∧ (rollBack s p).engines = s.engines
    ∧ ∀ e ∈ (rollBack s p).pend, e.2.part ≠ p := by
  have hu : serviceOf ((s.pend.filter (fun e => e.2.part = p)).foldl (fun s e => unElide s e.1) s) = serviceOf s :=
    foldl_keeps _ (fun u (e : Nat × PendSector) => unElide_service u e.1) _ s
  have hw : ∀ (u : State) (l : List Nat), serviceOf (l.foldl writeBack u) = serviceOf u := fun u l => foldl_keeps _ writeBack_service l u
  unfold rollBack
  dsimp only
  refine ⟨?_, ?_, ?_⟩
  · rw [partOf_of_parts (parts_of_service (hw _ _)), partOf_modPart, if_pos rfl]
    exact congrArg (fun x : Part => { x with verUsed := [] }) (partOf_of_parts (parts_of_service hu) p)
  · exact (engines_of_service (hw _ _)).trans (engines_of_service hu :)
  · intro e he
    rw [pend_of_service (hw _ _)] at he
    exact of_decide_eq_true (List.mem_filter.1 he).2

/-- Step 4 works on count words, tables and frames. -/
theorem releaseAll_service : serviceOf (releaseAll s p) = serviceOf s := by
  unfold releaseAll
  dsimp only
  refine (foldl_keeps serviceOf (fun u (e : Nat × Nat) => decCounts_service e.1 e.2 u) _ _).trans (foldl_keeps serviceOf (fun u e => ?_) _ _)
  have hunmap := foldl_keeps serviceOf (fun v b => unmapBlock_service v (partOf s p).vf e.1 e.2 b) (upTo (blocksOf e.2.f)) u
  (repeat' split)
  · exact hunmap
  · rfl
  · exact hunmap
  · rfl

/-- A partition whose slots are empty and which has nothing to do at a boundary (R79). -/
def emptied (x : Part) : Part := { bareSlots x with loading := [], bndReq := false, bndStarted := false }

/-- Step 5: the cores are zero, and the slots empty. -/
theorem zeroPart_frame : partOf (zeroPart s p) p = emptied (partOf s p) ∧ (zeroPart s p).engines = s.engines
    ∧ (zeroPart s p).pend = s.pend ∧ (zeroPart s p).cores = (modCores s (partOf s p).coreList zeroCore).cores := by
  have hm := modCores_service s (partOf s p).coreList zeroCore
  refine ⟨?_, (engines_of_service hm :), (pend_of_service hm :), rfl⟩
  unfold zeroPart
  dsimp only
  rw [partOf_modPart, if_pos rfl]
  exact congrArg emptied (partOf_of_parts (parts_of_service hm) p)

theorem passTokens_service (cs : List Nat) : serviceOf (passTokens s cs) = serviceOf s := by
  have ht : ∀ (u : State) (t : Token), serviceOf (passToken u cs t) = serviceOf u := fun u t => (modCores_service u _ (passNodes t) :)
  exact (foldl_keeps serviceOf ht s.tokens s :)

end

/-! ### Zero cores -/

theorem coreOf_modCores_not_mem {c : Fin 64} (l : List Nat) (s : State) (f : Core → Core) (h : c ∉ l.map coreNo) :
    coreOf (modCores s l f) c = coreOf s c := by
  induction l generalizing s with
  | nil => rfl
  | cons a r ih =>
    rw [List.map_cons, List.mem_cons, not_or] at h
    refine (ih (modCore s (coreNo a) f) h.2).trans ?_
    rw [coreOf_modCore, if_neg h.1]

/-- A core that has been made zero stands as `zeroCore` makes it of some core. -/
theorem coreOf_zeroed {c : Fin 64} (l : List Nat) (s : State) (h : c ∈ l.map coreNo) :
    ∃ k, coreOf (modCores s l zeroCore) c = zeroCore k := by
  induction l generalizing s with
  | nil => exact absurd h List.not_mem_nil
  | cons a r ih =>
    by_cases hr : c ∈ r.map coreNo
    · exact ih (modCore s (coreNo a) zeroCore) hr
    · have hc : c = coreNo a := (List.mem_cons.1 h).resolve_right hr
      refine ⟨coreOf s c, (coreOf_modCores_not_mem r (modCore s (coreNo a) zeroCore) zeroCore hr).trans ?_⟩
      rw [coreOf_modCore, if_pos hc, hc]

theorem coreNo_val (c : Fin 64) : coreNo c.val = c := Fin.ext (Nat.mod_eq_of_lt c.isLt)

/-- Tokens that pass a core change nothing of it but what its ports have latched. -/
def onlyPorts (k k' : Core) : Prop := k' = { k with ports := k'.ports }

theorem onlyPorts_trans {a b c : Core} (h : onlyPorts a b) (h' : onlyPorts b c) : onlyPorts a c := by
  unfold onlyPorts at *
  rw [h', h]

theorem passTokens_onlyPorts (s : State) (cs : List Nat) (c : Fin 64) : onlyPorts (coreOf s c) (coreOf (passTokens s cs) c) := by
  have hnodes : ∀ (t : Token) (l : List Nat) (u : State), onlyPorts (coreOf u c) (coreOf (modCores u l (passNodes t)) c) := fun t l u =>
    List.foldlRecOn (motive := fun v : State => onlyPorts (coreOf u c) (coreOf v c)) l _ rfl (fun v hv a _ => by
      refine onlyPorts_trans hv ?_
      rw [coreOf_modCore]
      split
      · next h => rw [h]; rfl
      · rfl)
  exact List.foldlRecOn (motive := fun v : State => onlyPorts (coreOf s c) (coreOf v c)) s.tokens _ rfl
    (fun v hv t _ => onlyPorts_trans hv (hnodes t _ v))

/-- A core with nothing in it (R79). -/
def isZero (k : Core) : Prop :=
  k.c = Vector.replicate 32 0 ∧ k.tiles = [] ∧ k.loft = [] ∧ k.banks = Vector.replicate 16 Bank.reset ∧ k.owner = none
  ∧ k.stores = [] ∧ k.hideOps = [] ∧ k.held = [] ∧ ∀ e : Fin 96, (elemOf k e).r = ElemRegs.zero

theorem isZero_zeroCore (k : Core) : isZero (zeroCore k) := by
  refine ⟨rfl, rfl, rfl, rfl, rfl, rfl, rfl, rfl, fun e => ?_⟩
  simp [elemOf, zeroCore]

theorem isZero_onlyPorts {k k' : Core} (h : onlyPorts k k') (hk : isZero k) : isZero k' := by
  rw [h]
  exact hk

/-! ### The reset -/

theorem haltStreams_halt (s : State) (v : Nat) (n : Fin 8) : (streamOf (haltStreams s v) v n).state = .halt := by
  simp [haltStreams, streamOf]

/-- Step 6, when the partition is bound: its VF's streams halt, and the event is posted. -/
def resetAnnounced (s : State) (x : Part) (p : Nat) : State :=
  if x.bound then postEvent (haltStreams s x.vf) x.vf (resetEvent p) else s

theorem resetAnnounced_frame (s : State) (x : Part) (p : Nat) : (resetAnnounced s x p).parts = s.parts
    ∧ (resetAnnounced s x p).engines = s.engines ∧ (resetAnnounced s x p).pend = s.pend ∧ (resetAnnounced s x p).cores = s.cores := by
  unfold resetAnnounced
  split <;> exact ⟨rfl, rfl, rfl, rfl⟩

/-- The device after the steps 1 to 5 of a reset, and with the tokens that its cores held passed. -/
def resetWork (s : State) (p : Nat) : State :=
  let x := partOf s p
  passTokens (zeroPart (releaseAll (rollBack (stopEngines (discardSaved (dropLoads s x.coreList) p) p) p) p) p) x.coreList

theorem resetPart_eq (s : State) (p : Nat) : resetPart s p =
    modPart (resetAnnounced (resetWork s p) (partOf s p) p) p (fun x => { x with resetting := false }) := rfl

theorem resetWork_frame (s : State) (p : Nat) :
    (∃ l, partOf (resetWork s p) p = emptied { partOf s p with saved := l, verUsed := [] })
    ∧ (∀ e ∈ (resetWork s p).engines, e.part ≠ p) ∧ (∀ e ∈ (resetWork s p).pend, e.2.part ≠ p)
    ∧ ∀ c : Fin 64, (partOf s p).cores.getLsbD c.val = true → isZero (coreOf (resetWork s p) c) := by
  obtain ⟨l, hsaved⟩ := discardSaved_part (dropLoads s (partOf s p).coreList) p
  generalize hs1 : discardSaved (dropLoads s (partOf s p).coreList) p = s1 at hsaved
  obtain ⟨hpart2, hengines2⟩ := stopEngines_apart (p := p) s1
  generalize hs2 : stopEngines s1 p = s2 at hpart2 hengines2
  obtain ⟨hpart3, hengines3, hpend3⟩ := rollBack_frame s2 p
  generalize hs3 : rollBack s2 p = s3 at hpart3 hengines3 hpend3
  have hservice4 := releaseAll_service s3 p
  generalize hs4 : releaseAll s3 p = s4 at hservice4
  obtain ⟨hpart5, hengines5, hpend5, hcores5⟩ := zeroPart_frame s4 p
  generalize hs5 : zeroPart s4 p = s5 at hpart5 hengines5 hpend5 hcores5
  have hservice6 := passTokens_service s5 (partOf s p).coreList
  have hports6 := passTokens_onlyPorts s5 (partOf s p).coreList
  have hw : resetWork s p = passTokens s5 (partOf s p).coreList := by rw [← hs5, ← hs4, ← hs3, ← hs2, ← hs1]; rfl
  rw [hw]
  have hpart4 : partOf s4 p = { partOf s p with saved := l, verUsed := [] } := by
    rw [partOf_of_parts (parts_of_service hservice4), hpart3, hpart2, hsaved]
    rfl
  refine ⟨⟨l, ?_⟩, ?_, ?_, fun c hc => ?_⟩
  · rw [partOf_of_parts (parts_of_service hservice6), hpart5, hpart4]
  · rw [engines_of_service hservice6, hengines5, engines_of_service hservice4, hengines3]
    exact hengines2
  · rw [pend_of_service hservice6, hpend5, pend_of_service hservice4]
    exact hpend3
  · have hmem : c ∈ (partOf s4 p).coreList.map coreNo := by
      refine List.mem_map.2 ⟨c.val, (mem_coreList _ _).2 ⟨c.isLt, ?_⟩, coreNo_val c⟩
      rw [hpart4]
      exact hc
    obtain ⟨k, hk⟩ := coreOf_zeroed (partOf s4 p).coreList s4 hmem
    refine isZero_onlyPorts (hports6 c) ?_
    rw [coreOf_of_cores hcores5, hk]
    exact isZero_zeroCore k

/-- What the reset of a partition leaves (R79). -/
theorem resetPart_frame (s : State) (p : Nat) :
    (∃ l, partOf (resetPart s p) p = { emptied { partOf s p with saved := l, verUsed := [] } with resetting := false })
    ∧ (∀ e ∈ (resetPart s p).engines, e.part ≠ p) ∧ (∀ e ∈ (resetPart s p).pend, e.2.part ≠ p)
    ∧ (∀ c : Fin 64, (partOf s p).cores.getLsbD c.val = true → isZero (coreOf (resetPart s p) c))
    ∧ ∀ n : Fin 8, (partOf s p).bound = true → (streamOf (resetPart s p) (partOf s p).vf n).state = .halt := by
  obtain ⟨⟨l, hpart⟩, hengines, hpend, hcores⟩ := resetWork_frame s p
  obtain ⟨aparts, aengines, apend, acores⟩ := resetAnnounced_frame (resetWork s p) (partOf s p) p
  rw [resetPart_eq]
  refine ⟨⟨l, ?_⟩, ?_, ?_, fun c hc => ?_, fun n hb => ?_⟩
  · rw [partOf_modPart, if_pos rfl, partOf_of_parts aparts, hpart]
  · rw [modPart_engines, aengines]
    exact hengines
  · rw [modPart_pend, apend]
    exact hpend
  · rw [coreOf_of_cores (modPart_cores _ _ _), coreOf_of_cores acores]
    exact hcores c hc
  · have hst : streamOf (modPart (resetAnnounced (resetWork s p) (partOf s p) p) p (fun x => { x with resetting := false })) (partOf s p).vf n
        = streamOf (haltStreams (resetWork s p) (partOf s p).vf) (partOf s p).vf n := by
      rw [resetAnnounced, if_pos hb]
      exact streamOf_postEvent _ _ _ _ _
    rw [hst]
    exact haltStreams_halt _ _ _

/-! ### Orders of a reset -/

section
variable {s : State} {part : BitVec 6}

theorem partitionReset_none_ignored (h : (partOf s part.toNat).resetting = false) : exec (.partitionReset ⟨part, none⟩) s = .next s :=
  congrArg Host.Outcome.next (if_neg (by simp [h]))

theorem partitionReset_none_resets (h : (partOf s part.toNat).resetting = true) :
    exec (.partitionReset ⟨part, none⟩) s = .next (resetPart s part.toNat) := congrArg Host.Outcome.next (if_pos h)

/-- An error in a structure of a partition that is defined, while the clocks run, is a HARD fault (R130, R135). -/
theorem partitionReset_some (hh : s.hitch = false) (hv : (partOf s part.toNat).v = true) (w : DWord) :
    exec (.partitionReset ⟨part, some w⟩) s = .next (hardFault s part.toNat (structureReport (partOf s part.toNat) w)) :=
  congrArg Host.Outcome.next (if_neg (by simp [hh, hv]))

/-- While the partition is reset, an error in a structure is absorbed (R79). -/
theorem partitionReset_some_absorbed (h : (partOf s part.toNat).resetting = true) (w : DWord) :
    exec (.partitionReset ⟨part, some w⟩) s = .next s := by
  refine congrArg Host.Outcome.next ?_
  dsimp only
  split
  · rfl
  · exact hardFault_absorbed h _
end

/-- Settles O52, by the input: a slice that expires, a grace that ends, and a reset that is ordered or found. -/
theorem slicesAndPartitionReset : Obligations.SlicesAndPartitionReset := by
  unfold Obligations.SlicesAndPartitionReset
  intro s part n w p x
  refine ⟨sliceExpiry_expires, fun h1 h2 h3 => ?_, partitionReset_none_ignored, fun hh hv hr => ?_,
    fun _ h => partitionReset_some_absorbed h w, fun h => ?_⟩
  · have hpart : partOf (askBoundary (queueReport s p true (graceReport x)) p) p
        = { x with faultQ := x.faultQ ++ [graceReport x], bndReq := true } := by
      rw [askBoundary, partOf_modPart, if_pos rfl, partOf_queueReport]
    refine ⟨_, graceReport x, graceExpiry_reports h1 h2 h3, ?_, rfl, rfl, ?_, ?_, (queueReport_memories _ _ _ _).1⟩ <;> rw [hpart]
  · refine ⟨structureReport x w, ?_, rfl, rfl, rfl⟩
    rw [partitionReset_some hh hv, hardFault_resets hr, show BitVec.ofNat 6 part.toNat = part by simp]
  · obtain ⟨⟨l, hpart⟩, hengines, hpend, hcores, hstreams⟩ := resetPart_frame s p
    refine ⟨_, partitionReset_none_resets h, ?_, ?_, ?_, ?_, hengines, hpend, hcores, hstreams n⟩ <;> rw [hpart] <;> rfl

end Sys2Proof.Laws
end

section
/-! SUPPORT. Progressions and need sets (R8, R105, R108): the positions that a progression lists are its members, and what planning enters into a
need set stays covered by it. -/

namespace Sys2Proof.Laws

open Sys2Proof.Machine

/-! ### Sets of positions -/

@[simp] theorem mem_upTo (n k : Nat) : k ∈ upTo n ↔ k < n := by
  rw [upTo_eq_range, List.mem_range]

@[simp] theorem mem_insertPos (x y : Nat) (l : List Nat) : y ∈ insertPos x l ↔ y = x ∨ y ∈ l := by
  induction l with
  | nil => simp [insertPos]
  | cons z r ih =>
    simp only [insertPos]
    split
    · simp
    · split
      · next h => simp [h]
      · simp only [List.mem_cons, ih]; tauto

@[simp] theorem mem_unionPos (xs ys : List Nat) (t : Nat) : t ∈ unionPos xs ys ↔ t ∈ xs ∨ t ∈ ys := by
  simp only [unionPos]
  induction xs generalizing ys with
  | nil => simp
  | cons x r ih => simp only [List.foldl_cons, ih, mem_insertPos, List.mem_cons]; tauto

@[simp] theorem inSet_nil (t : Nat) : inSet [] t = false := rfl

theorem inSet_iff (l : List Prog) (t : Nat) : inSet l t = true ↔ ∃ p ∈ l, p.mem t = true := by
  simp [inSet]

theorem inSet_append (l m : List Prog) (t : Nat) : inSet (l ++ m) t = (inSet l t || inSet m t) := List.any_append

/-! ### The members of a progression -/

theorem mem_iff (p : Prog) (x : Int) : p.mem x = true ↔ p.a ≤ x ∧ x ≤ p.b ∧ ((p.s : Int) ∣ x - p.a ∨ x = p.b) := by
  simp only [Prog.mem, Bool.and_eq_true, Bool.or_eq_true, decide_eq_true_eq, and_assoc, Int.dvd_iff_emod_eq_zero]

theorem norm_of_lt {p : Prog} (h : p.b < p.a) : p.norm = p := if_pos h

theorem norm_of_le {p : Prog} (h : p.a ≤ p.b) : p.norm = { p with b := p.a + (p.b - p.a) / (p.s : Int) * p.s } := if_neg (by omega)

/-- The last a + k·s lies in the range. -/
theorem norm_b_bounds {p : Prog} (h : p.a ≤ p.b) : p.a ≤ p.norm.b ∧ p.norm.b ≤ p.b := by
  rw [norm_of_le h]
  have h0 : 0 ≤ (p.b - p.a) / (p.s : Int) := Int.ediv_nonneg (by omega) (by omega)
  have h1 : (p.b - p.a) / (p.s : Int) * p.s ≤ p.b - p.a := by
    rcases Nat.eq_zero_or_pos p.s with hs | hs
    · simp [hs, h]
    · exact Int.ediv_mul_le _ (by omega)
  have h2 : 0 ≤ (p.b - p.a) / (p.s : Int) * p.s := Int.mul_nonneg h0 (by omega)
  exact ⟨by simp only; omega, by simp only; omega⟩

theorem norm_norm (p : Prog) : p.norm.norm = p.norm := by
  rcases Int.lt_or_le p.b p.a with h | h
  · rw [norm_of_lt h, norm_of_lt h]
  · rw [norm_of_le (by simpa [norm_of_le h] using (norm_b_bounds h).1), norm_of_le h]
    rcases Nat.eq_zero_or_pos p.s with hs | hs
    · simp [hs]
    · simp [Int.mul_ediv_cancel _ (show (p.s : Int) ≠ 0 by omega)]

theorem norm_not_ragged (p : Prog) : p.norm.ragged = false := by
  simp [Prog.ragged, norm_norm]

theorem count_norm {p : Prog} (h : p.a ≤ p.b) : p.norm.count = ((p.b - p.a) / (p.s : Int)).toNat + 1 := by
  have hn := (norm_b_bounds h).1
  have ha : p.norm.a = p.a := by rw [norm_of_le h]
  rw [Prog.count, if_neg (by omega), norm_not_ragged, norm_of_le h]
  rcases Nat.eq_zero_or_pos p.s with hs | hs
  · simp [hs]
  · simp [Int.mul_ediv_cancel _ (show (p.s : Int) ≠ 0 by omega)]

theorem list_eq (p : Prog) : p.list = (((upTo p.norm.count).map (fun k : Nat => p.a + (k : Int) * p.s)) ++ (if p.ragged then [p.b] else [])).filterMap
    (fun x => if x < 0 then none else some x.toNat) := by
  simp only [Prog.list, List.bind_eq_flatMap, List.pure_def, ← List.map_eq_flatMap, List.map_map]
  rfl

/-- A position is listed when it is one of the a + k·s up to the last, or an end that is off the stride. -/
theorem mem_list_cases (p : Prog) (t : Nat) :
    t ∈ p.list ↔ (∃ k < p.norm.count, p.a + k * p.s = (t : Int)) ∨ (p.ragged = true ∧ (t : Int) = p.b) := by
  have hx : ∀ x : Int, (if x < 0 then none else some x.toNat) = some t ↔ x = (t : Int) := fun x => by
    split <;> simp <;> omega
  simp only [list_eq, List.mem_filterMap, hx, List.mem_append, List.mem_map, mem_upTo]
  cases p.ragged <;> simp [eq_comm]

/-- The positions listed are the members (R8). -/
@[simp] theorem mem_list (p : Prog) (t : Nat) : t ∈ p.list ↔ p.mem t = true := by
  rw [mem_list_cases, mem_iff]
  rcases Int.lt_or_le p.b p.a with h | h
  · have hr : p.ragged = false := by simp [Prog.ragged, norm_of_lt h]
    have hc : p.norm.count = 0 := by rw [norm_of_lt h, Prog.count, if_pos h]
    simp only [hr, hc]
    constructor
    · rintro (⟨k, hk, -⟩ | ⟨hf, -⟩)
      · omega
      · simp at hf
    · rintro ⟨h1, h2, -⟩
      omega
  · rw [count_norm h]
    have h0 : 0 ≤ (p.b - p.a) / (p.s : Int) := Int.ediv_nonneg (by omega) (by omega)
    have hb := norm_b_bounds h
    have hnb : p.norm.b = p.a + (p.b - p.a) / (p.s : Int) * p.s := by rw [norm_of_le h]
    constructor
    · rintro (⟨k, hk, e⟩ | ⟨-, e⟩)
      · have hks : (k : Int) * p.s ≤ (p.b - p.a) / (p.s : Int) * p.s := Int.mul_le_mul_of_nonneg_right (by omega) (by omega)
        have hk0 : (0 : Int) ≤ k * p.s := Int.mul_nonneg (by omega) (by omega)
        exact ⟨by omega, by omega, .inl ⟨k, by rw [← e, Int.mul_comm (p.s : Int)]; omega⟩⟩
      · exact ⟨by omega, by omega, .inr e⟩
    · rintro ⟨h1, h2, ⟨j, hj⟩ | e⟩
      · rcases Nat.eq_zero_or_pos p.s with hs | hs
        · exact .inl ⟨0, by omega, by simp [hs] at hj ⊢; omega⟩
        · have hj0 : 0 ≤ j := by
            by_contra hn
            have : (p.s : Int) * j < 0 := Int.mul_neg_of_pos_of_neg (by omega) (by omega)
            omega
          have hle : j ≤ (p.b - p.a) / (p.s : Int) := (Int.le_ediv_iff_mul_le (by omega)).2 (by rw [Int.mul_comm]; omega)
          refine .inl ⟨j.toNat, by omega, ?_⟩
          rw [Int.toNat_of_nonneg hj0, Int.mul_comm]
          omega
      · rcases Decidable.em (p.norm.b = p.b) with hn | hn
        · refine .inl ⟨((p.b - p.a) / (p.s : Int)).toNat, by omega, ?_⟩
          rw [Int.toNat_of_nonneg h0]
          omega
        · exact .inr ⟨by simp [Prog.ragged, hn], e⟩

/-! ### Progressions whose end is on the stride -/

/-- Both ends are a + k·s, and s is no 0. -/
def regular (p : Prog) : Prop := 1 ≤ p.s ∧ (p.s : Int) ∣ p.b - p.a

theorem regular_mem_iff {p : Prog} (h : regular p) (x : Int) : p.mem x = true ↔ p.a ≤ x ∧ x ≤ p.b ∧ (p.s : Int) ∣ x - p.a := by
  rw [mem_iff]
  constructor
  · rintro ⟨h1, h2, h3 | rfl⟩
    · exact ⟨h1, h2, h3⟩
    · exact ⟨h1, h2, h.2⟩
  · rintro ⟨h1, h2, h3⟩
    exact ⟨h1, h2, .inl h3⟩

theorem regular_stride_one (a b : Int) : regular { a := a, b := b, s := 1 } := ⟨by simp, by simp⟩

theorem regular_norm {p : Prog} (hs : 1 ≤ p.s) (h : p.a ≤ p.b) : regular p.norm := by
  rw [norm_of_le h]
  exact ⟨hs, ⟨(p.b - p.a) / (p.s : Int), by simp [Int.mul_comm]⟩⟩

/-- The parts of a range that is not empty are regular, and hold its members (log entry 75). -/
theorem parts_cover {p : Prog} (hs : 1 ≤ p.s) (h : p.a ≤ p.b) :
    (∀ q ∈ p.parts, regular q) ∧ ∀ x, p.mem x = true → ∃ q ∈ p.parts, q.mem x = true := by
  have hn := regular_norm hs h
  unfold Prog.parts
  split
  · refine ⟨by simp [hn, regular_stride_one], fun x hx => ?_⟩
    obtain ⟨h1, h2, h3 | h3⟩ := (mem_iff _ _).1 hx
    · refine ⟨p.norm, by simp, (regular_mem_iff hn x).2 ?_⟩
      rw [norm_of_le h]
      refine ⟨h1, ?_, h3⟩
      obtain ⟨j, hj⟩ := h3
      have hle : j ≤ (p.b - p.a) / (p.s : Int) := (Int.le_ediv_iff_mul_le (by omega)).2 (by rw [Int.mul_comm]; omega)
      have := Int.mul_le_mul_of_nonneg_right hle (show (0 : Int) ≤ p.s by omega)
      rw [Int.mul_comm (p.s : Int)] at hj
      simp only
      omega
    · exact ⟨{ a := p.b, b := p.b, s := 1 }, by simp, by simp [mem_iff, h3]⟩
  · next hr =>
    have hb : p.norm.b = p.b := by simpa [Prog.ragged] using hr
    have e : p.norm = p := by
      rw [norm_of_le h] at hb ⊢
      exact congrArg (fun b => ({ p with b := b } : Prog)) hb
    rw [e] at hn
    exact ⟨by simp [hn], fun x hx => ⟨p, by simp, hx⟩⟩

@[simp] theorem clamp_s (lo hi : Int) (p : Prog) : (p.clamp lo hi).s = p.s := by
  have hn : ∀ q : Prog, q.norm.s = q.s := fun q => by unfold Prog.norm; split <;> rfl
  simp only [Prog.clamp]
  split <;> split <;> simp [hn]

/-! ### Need sets -/

theorem takeFirst_perm {α : Type} {f : α → Bool} {l r : List α} {y : α} (h : takeFirst f l = some (y, r)) :
    l.Perm (y :: r) ∧ f y = true := by
  induction l generalizing r with
  | nil => simp [takeFirst] at h
  | cons x m ih =>
    simp only [takeFirst] at h
    split at h
    · next hx =>
      obtain ⟨rfl, rfl⟩ := Prod.mk.inj (Option.some.inj h)
      exact ⟨.refl _, hx⟩
    · split at h
      · simp at h
      · next z m' hm =>
        obtain ⟨rfl, rfl⟩ := Prod.mk.inj (Option.some.inj h)
        obtain ⟨hp, hf⟩ := ih hm
        exact ⟨(hp.cons x).trans (.swap z x m'), hf⟩

theorem insertByA_perm (q : Prog) (l : List Prog) : (insertByA q l).Perm (q :: l) := by
  induction l with
  | nil => exact .refl _
  | cons p r ih =>
    simp only [insertByA]
    split
    · exact .refl _
    · exact (ih.cons p).trans (.swap q p r)

theorem hullAt_perm {l r : List Prog} {n : Nat} {h : Prog} (e : hullAt l n = some (h, r)) :
    ∃ p q : Prog, l.Perm (p :: q :: r) ∧ h = p.hull q := by
  induction l generalizing n r with
  | nil => simp [hullAt] at e
  | cons p m ih =>
    cases n with
    | zero =>
      cases m with
      | nil => simp [hullAt] at e
      | cons q m =>
        obtain ⟨rfl, rfl⟩ := Prod.mk.inj (Option.some.inj e)
        exact ⟨p, q, .refl _, rfl⟩
    | succ n =>
      obtain ⟨⟨h', r'⟩, hm, e'⟩ := Option.map_eq_some_iff.1 (show (hullAt m n).map _ = some (h, r) by cases m <;> exact e)
      obtain ⟨rfl, rfl⟩ := Prod.mk.inj e'
      obtain ⟨u, v, hp, rfl⟩ := ih hm
      exact ⟨u, v, ((hp.cons p).trans (.swap u p _)).trans ((List.Perm.swap v p _).cons u), rfl⟩

/-- A progression that is regular and holds all that two others hold. -/
def holdsBoth (h p q : Prog) : Prop := regular h ∧ ∀ x, p.mem x = true ∨ q.mem x = true → h.mem x = true

theorem hull_holdsBoth {p q : Prog} (hp : regular p) (hq : regular q) : holdsBoth (p.hull q) p q := by
  have dp : ((p.hull q).s : Int) ∣ p.s := by
    exact_mod_cast (Nat.gcd_dvd_left _ _).trans (Nat.gcd_dvd_left _ _)
  have dq : ((p.hull q).s : Int) ∣ q.s := by
    exact_mod_cast (Nat.gcd_dvd_left _ _).trans (Nat.gcd_dvd_right _ _)
  have dd : ((p.hull q).s : Int) ∣ p.a - q.a := Int.natCast_dvd.2 (Nat.gcd_dvd_right _ _)
  have hpos : 1 ≤ (p.hull q).s := Nat.gcd_pos_of_pos_left _ (Nat.gcd_pos_of_pos_left _ hp.1)
  have da : ((p.hull q).s : Int) ∣ p.a - min p.a q.a ∧ ((p.hull q).s : Int) ∣ q.a - min p.a q.a := by
    rcases Int.le_total p.a q.a with h | h
    · rw [Int.min_eq_left h]; exact ⟨by simp, by rw [← Int.dvd_neg]; simpa using dd⟩
    · rw [Int.min_eq_right h]; exact ⟨dd, by simp⟩
  have up : ∀ {r : Prog} {x : Int}, ((p.hull q).s : Int) ∣ r.s → ((p.hull q).s : Int) ∣ r.a - min p.a q.a → (r.s : Int) ∣ x - r.a →
      ((p.hull q).s : Int) ∣ x - min p.a q.a := fun {r x} h1 h2 h3 => by
    have := Int.dvd_add (h1.trans h3) h2
    rwa [sub_add_sub_cancel] at this
  have hreg : regular (p.hull q) := by
    refine ⟨hpos, ?_⟩
    change ((p.hull q).s : Int) ∣ max p.b q.b - min p.a q.a
    rcases Int.le_total p.b q.b with h | h
    · rw [Int.max_eq_right h]; exact up dq da.2 hq.2
    · rw [Int.max_eq_left h]; exact up dp da.1 hp.2
  refine ⟨hreg, fun x hx => (regular_mem_iff hreg x).2 ?_⟩
  change min p.a q.a ≤ x ∧ x ≤ max p.b q.b ∧ ((p.hull q).s : Int) ∣ x - min p.a q.a
  rcases hx with hx | hx
  · obtain ⟨h1, h2, h3⟩ := (regular_mem_iff hp x).1 hx
    exact ⟨by omega, by omega, up dp da.1 h3⟩
  · obtain ⟨h1, h2, h3⟩ := (regular_mem_iff hq x).1 hx
    exact ⟨by omega, by omega, up dq da.2 h3⟩

/-- Of two progressions of one stride and phase, the joined one is their hull. -/
theorem join_holdsBoth {p q : Prog} (hp : regular p) (hq : regular q) (h : p.joins q = true) :
    holdsBoth { p with a := min p.a q.a, b := max p.b q.b } p q := by
  simp only [Prog.joins, Bool.and_eq_true, decide_eq_true_eq] at h
  obtain ⟨⟨⟨hs, hm⟩, -⟩, -⟩ := h
  have hd : (p.s : Int) ∣ (p.a - q.a).natAbs := Int.dvd_natAbs.2 (Int.dvd_of_emod_eq_zero hm)
  have he : p.hull q = { p with a := min p.a q.a, b := max p.b q.b } := by
    simp only [Prog.hull, ← hs, Nat.gcd_self]
    exact congrArg (fun s => (⟨min p.a q.a, max p.b q.b, s⟩ : Prog)) (Nat.gcd_eq_left (by exact_mod_cast hd))
  exact he ▸ hull_holdsBoth hp hq

/-- A set of regular progressions that holds what another set and a further progression hold. -/
def setCovers (set' set : List Prog) (q : Prog) : Prop :=
  (∀ p ∈ set', regular p) ∧ ∀ t, inSet set t = true ∨ q.mem t = true → inSet set' t = true

theorem inSet_perm {l m : List Prog} (h : l.Perm m) (t : Nat) : inSet l t = inSet m t := h.any_eq

theorem setCovers_of_perm {set set' : List Prog} {q : Prog} (h : set'.Perm (q :: set)) (hset : ∀ p ∈ set, regular p) (hq : regular q) :
    setCovers set' set q := by
  refine ⟨fun p hp => ?_, fun t ht => ?_⟩
  · rcases List.mem_cons.1 (h.mem_iff.1 hp) with rfl | hp
    · exact hq
    · exact hset p hp
  · rw [inSet_perm h]
    simpa [inSet, or_comm] using ht

/-- A progression that stands for two others, entered in their place, covers what they held. -/
theorem setCovers_merged {set rest set' : List Prog} {p q h : Prog} (hperm : set.Perm (p :: rest)) (hh : holdsBoth h p q)
    (hc : setCovers set' rest h) : setCovers set' set q := by
  refine ⟨hc.1, fun t ht => hc.2 t ?_⟩
  rw [inSet_perm hperm] at ht
  simp only [inSet, List.any_cons, Bool.or_eq_true] at ht ⊢
  rcases ht with (ht | ht) | ht
  · exact .inr (hh.2 _ (.inl ht))
  · exact .inl ht
  · exact .inr (hh.2 _ (.inr ht))

theorem insertProg_setCovers (fuel : Nat) (set : List Prog) (q : Prog) (hset : ∀ p ∈ set, regular p) (hq : regular q) :
    setCovers (insertProg fuel set q) set q := by
  induction fuel generalizing set q with
  | zero => exact setCovers_of_perm (insertByA_perm q set) hset hq
  | succ fuel ih =>
    simp only [insertProg]
    split
    · next p rest he =>
      obtain ⟨hperm, hj⟩ := takeFirst_perm he
      have hr := fun x hx => hset x (hperm.mem_iff.2 hx)
      have hh := join_holdsBoth (hr p (by simp)) hq hj
      exact setCovers_merged hperm hh (ih _ _ (fun x hx => hr x (.tail _ hx)) hh.1)
    · split
      · next p rest he =>
        obtain ⟨hperm, -⟩ := takeFirst_perm he
        have hr := fun x hx => hset x (hperm.mem_iff.2 hx)
        have hh := hull_holdsBoth (hr p (by simp)) hq
        exact setCovers_merged hperm hh (ih _ _ (fun x hx => hr x (.tail _ hx)) hh.1)
      · have hc := setCovers_of_perm (insertByA_perm q set) hset hq
        split
        · exact hc
        · split
          · exact hc
          · next h rest he =>
            obtain ⟨i, -, hi⟩ := Option.bind_eq_some_iff.1 he
            obtain ⟨u, v, hperm, rfl⟩ := hullAt_perm hi
            have hr := fun x hx => hc.1 x (hperm.mem_iff.2 hx)
            have hh := hull_holdsBoth (hr u (by simp)) (hr v (by simp))
            have hi := ih rest (u.hull v) (fun x hx => hr x (.tail _ (.tail _ hx))) hh.1
            refine ⟨hi.1, fun t ht => hi.2 t ?_⟩
            have hin := hc.2 t ht
            rw [inSet_perm hperm] at hin
            simp only [inSet, List.any_cons, Bool.or_eq_true] at hin ⊢
            rcases hin with h | h | h
            · exact .inr (hh.2 _ (.inl h))
            · exact .inr (hh.2 _ (.inr h))
            · exact .inl h

/-- Progressions entered one after another into a need set are covered by it (R105). -/
theorem foldl_needInsert_covers (new set : List Prog) (hset : ∀ p ∈ set, regular p) (hnew : ∀ p ∈ new, regular p) {t : Nat}
    (ht : inSet set t = true ∨ inSet new t = true) : inSet (new.foldl needInsert set) t = true := by
  induction new generalizing set with
  | nil => simpa using ht
  | cons q r ih =>
    have hc := insertProg_setCovers 24 set q hset (hnew q (by simp))
    refine ih _ hc.1 (fun p hp => hnew p (.tail _ hp)) ?_
    simp only [inSet, List.any_cons, Bool.or_eq_true] at ht
    rcases ht with ht | ht | ht
    · exact .inl (hc.2 t (.inl ht))
    · exact .inl (hc.2 t (.inr ht))
    · exact .inr ht

/-! ### Runs -/

/-- The run that is being built, as a progression. -/
def openRun (s : Nat) (cur : Option (Nat × Nat)) : List Prog := cur.elim [] (fun r => [{ a := r.1, b := r.2, s := s }])

/-- Each position is the stride above the one before it. -/
def strided (s : Nat) (l : List Nat) : Prop := l.IsChain (fun x y => y = x + s)

/-- The run that is being built with a further position. -/
def grown (cur : Option (Nat × Nat)) (x : Nat) : Nat × Nat := cur.elim (x, x) (fun r => (r.1, x))

theorem runsFrom_keep {keep : Nat → Bool} {x : Nat} (h : keep x = true) (s : Nat) (r : List Nat) (cur : Option (Nat × Nat)) :
    runsFrom s keep (x :: r) cur = runsFrom s keep r (some (grown cur x)) := by
  cases cur <;> simp [runsFrom, grown, h]

theorem runsFrom_skip {keep : Nat → Bool} {x : Nat} (h : keep x ≠ true) (s : Nat) (r : List Nat) (cur : Option (Nat × Nat)) :
    runsFrom s keep (x :: r) cur = openRun s cur ++ runsFrom s keep r none := by
  cases cur <;> simp [runsFrom, openRun, h]

/-- The run that is being built is regular, and the positions still to come go on with it. -/
def goesOn (s : Nat) (cur : Option (Nat × Nat)) (l : List Nat) : Prop :=
  ∀ a b, cur = some (a, b) → a ≤ b ∧ regular { a := a, b := b, s := s } ∧ ∀ x ∈ l.head?, x = b + s

theorem goesOn_none (s : Nat) (l : List Nat) : goesOn s none l := fun _ _ h => by simp at h

theorem regular_of_goesOn {s : Nat} {cur : Option (Nat × Nat)} {l : List Nat} (h : goesOn s cur l) : ∀ p ∈ openRun s cur, regular p := by
  match cur with
  | none => simp [openRun]
  | some (a, b) => simpa [openRun] using (h a b rfl).2.1

theorem goesOn_grown {s x : Nat} {r : List Nat} {cur : Option (Nat × Nat)} (hs : 1 ≤ s) (hl : strided s (x :: r)) (hcur : goesOn s cur (x :: r)) :
    goesOn s (some (grown cur x)) r ∧ ∀ t, inSet (openRun s cur) t = true ∨ t = x → inSet (openRun s (some (grown cur x))) t = true := by
  obtain ⟨hnext, -⟩ := List.isChain_cons.1 hl
  match cur with
  | none =>
    refine ⟨fun a b h => ?_, fun t ht => ?_⟩
    · obtain ⟨rfl, rfl⟩ := Prod.mk.inj (Option.some.inj h)
      exact ⟨le_refl _, ⟨hs, by simp⟩, hnext⟩
    · obtain rfl : t = x := by simpa [openRun] using ht
      simp [openRun, grown, inSet, mem_iff]
  | some (a, b) =>
    obtain ⟨hab, hreg, hhead⟩ := hcur a b rfl
    have hx : x = b + s := hhead x rfl
    have hreg' : regular { a := a, b := x, s := s } := by
      refine ⟨hs, ?_⟩
      have h := Int.dvd_add hreg.2 (Int.dvd_refl (s : Int))
      change (s : Int) ∣ (x : Int) - a
      rwa [show ((b : Int) - a) + s = (x : Int) - a by omega] at h
    refine ⟨fun a' b' h => ?_, fun t ht => ?_⟩
    · obtain ⟨rfl, rfl⟩ := Prod.mk.inj (Option.some.inj h)
      exact ⟨by omega, hreg', hnext⟩
    · simp only [openRun, grown, Option.elim, inSet, List.any_cons, List.any_nil, Bool.or_false, regular_mem_iff hreg, regular_mem_iff hreg'] at ht ⊢
      rcases ht with ⟨h1, h2, h3⟩ | rfl
      · exact ⟨h1, by omega, h3⟩
      · exact ⟨by omega, le_refl _, hreg'.2⟩

/-- The runs of a strided list hold the run that is being built and every position of the list that is kept. -/
theorem runsFrom_covers {s : Nat} (hs : 1 ≤ s) (keep : Nat → Bool) (l : List Nat) (cur : Option (Nat × Nat)) (hl : strided s l)
    (hcur : goesOn s cur l) : (∀ p ∈ runsFrom s keep l cur, regular p)
    ∧ ∀ t, inSet (openRun s cur) t = true ∨ (t ∈ l ∧ keep t = true) → inSet (runsFrom s keep l cur) t = true := by
  induction l generalizing cur with
  | nil =>
    have hend : runsFrom s keep [] cur = openRun s cur := by cases cur <;> rfl
    rw [hend]
    exact ⟨regular_of_goesOn hcur, by simp⟩
  | cons x r ih =>
    have hr := (List.isChain_cons.1 hl).2
    by_cases hk : keep x = true
    · obtain ⟨hon, hgrow⟩ := goesOn_grown hs hl hcur
      obtain ⟨h1, h2⟩ := ih _ hr hon
      rw [runsFrom_keep hk]
      refine ⟨h1, fun t ht => h2 t ?_⟩
      rcases ht with ht | ⟨ht, hkt⟩
      · exact .inl (hgrow t (.inl ht))
      · exact (List.mem_cons.1 ht).imp (fun e => hgrow t (.inr e)) (fun h => ⟨h, hkt⟩)
    · obtain ⟨h1, h2⟩ := ih none hr (goesOn_none s r)
      rw [runsFrom_skip hk]
      refine ⟨fun p hp => (List.mem_append.1 hp).elim (regular_of_goesOn hcur p) (h1 p), fun t ht => ?_⟩
      rw [inSet_append, Bool.or_eq_true]
      refine ht.imp_right (fun ⟨ht, hkt⟩ => h2 t (.inr ⟨(List.mem_cons.1 ht).resolve_left ?_, hkt⟩))
      rintro rfl
      exact hk hkt

theorem strided_list {p : Prog} (h : p.ragged = false) : strided p.s p.list := by
  have key : ∀ n k : Nat, strided p.s (((upFrom n k).map (fun k : Nat => p.a + k * p.s)).filterMap
        (fun x => if x < 0 then none else some x.toNat)) := by
    intro n
    induction n with
    | zero => intro k; exact .nil
    | succ n ih =>
      intro k
      simp only [upFrom, List.map_cons, List.filterMap_cons]
      split
      · exact ih (k + 1)
      · next t ht =>
        refine List.isChain_cons.2 ⟨fun y hy => ?_, ih (k + 1)⟩
        cases n with
        | zero => simp [upFrom] at hy
        | succ n =>
          have hmul : ((k + 1 : Nat) : Int) * p.s = k * p.s + p.s := by push_cast; rw [Int.add_mul, Int.one_mul]
          simp only [upFrom, List.map_cons, List.filterMap_cons, hmul] at hy
          split at ht
          · simp at ht
          · next h0 =>
            rw [if_neg (by omega)] at hy
            simp only [List.head?_cons, Option.mem_def, Option.some.injEq] at hy ht
            omega
  have hl : p.list = ((upFrom p.norm.count 0).map (fun k : Nat => p.a + k * p.s)).filterMap (fun x => if x < 0 then none else some x.toNat) := by
    simp [list_eq, h, upTo]
  rw [hl]
  exact key _ _

theorem regular_not_ragged {p : Prog} (h : regular p) : p.ragged = false := by
  rcases Int.lt_or_le p.b p.a with hlt | hle
  · simp [Prog.ragged, norm_of_lt hlt]
  · simp only [Prog.ragged, norm_of_le hle, Int.ediv_mul_cancel h.2]
    simp

/-- The runs of some regular progressions hold every kept position of each (R108). -/
theorem runs_cover (ps : List Prog) (keep : Nat → Bool) (hps : ∀ p ∈ ps, regular p) :
    (∀ q ∈ runs ps keep, regular q) ∧ ∀ t, inSet ps t = true → keep t = true → inSet (runs ps keep) t = true := by
  have key : ∀ (ps acc : List Prog), (∀ p ∈ ps, regular p) → (∀ q ∈ acc, regular q) →
      let r := ps.foldl (fun acc p => acc ++ runsFrom p.s (fun x => keep x && !inSet acc x) p.list none) acc
      (∀ q ∈ r, regular q) ∧ ∀ t, (inSet acc t = true ∨ (inSet ps t = true ∧ keep t = true)) → inSet r t = true := by
    intro ps
    induction ps with
    | nil => intro acc _ hacc; exact ⟨hacc, by simp⟩
    | cons p ps ih =>
      intro acc hps hacc
      have hp := hps p (by simp)
      obtain ⟨h1, h2⟩ := runsFrom_covers hp.1 (fun x => keep x && !inSet acc x) p.list none (strided_list (regular_not_ragged hp)) (goesOn_none _ _)
      obtain ⟨h3, h4⟩ := ih _ (fun q hq => hps q (.tail _ hq)) (fun q hq => (List.mem_append.1 hq).elim (hacc q) (h1 q))
      refine ⟨h3, fun t ht => h4 t ?_⟩
      rw [inSet_append, Bool.or_eq_true]
      by_cases ha : inSet acc t = true
      · exact .inl (.inl ha)
      · rcases ht with ht | ⟨ht, hk⟩
        · exact absurd ht ha
        · simp only [inSet, List.any_cons, Bool.or_eq_true] at ht
          rcases ht with ht | ht
          · exact .inl (.inr (h2 t (.inr ⟨(mem_list p t).2 ht, by simp [hk, ha]⟩)))
          · exact .inr ⟨ht, hk⟩
  obtain ⟨h1, h2⟩ := key ps [] hps (by simp)
  exact ⟨h1, fun t ht hk => h2 t (.inr ⟨ht, hk⟩)⟩

end Sys2Proof.Laws
end

section
/-! SUPPORT. Operators of a graph and the planning of a demand (R106, R108): a position that the demand asks for and that is not produced comes into
the need set of its sink and into the demand's cone. -/

namespace Sys2Proof.Laws

open Sys2Proof.Machine

/-! ### Operators of a graph -/

@[simp] theorem stAt_putSt (g : Graph) (o o' : Nat) (st : OpState) : stAt (putSt g o st) o' = if o' = o then st else stAt g o' :=
  tget_tput _ g.st o o' st

@[simp] theorem stAt_modSt (g : Graph) (o o' : Nat) (f : OpState → OpState) :
    stAt (modSt g o f) o' = if o' = o then f (stAt g o) else stAt g o' := stAt_putSt g o o' _

@[simp] theorem opAt_putSt (g : Graph) (o o' : Nat) (st : OpState) : opAt (putSt g o st) o' = opAt g o' := rfl

@[simp] theorem ops_putSt (g : Graph) (o : Nat) (st : OpState) : (putSt g o st).ops = g.ops := rfl

@[simp] theorem mem_opxs (g : Graph) (o : Nat) : o ∈ opxs g ↔ o < g.ops.length := mem_upTo _ _

/-! ### Cones -/

theorem coneAt_cons (e : BitVec 8 × List Nat) (c : List (BitVec 8 × List Nat)) (o : Nat) :
    coneAt (e :: c) o = if e.1.toNat = o then e.2 else coneAt c o := by
  by_cases h : e.1.toNat = o <;> simp [coneAt, h]

/-- One operator's positions joined to a cone. -/
def joinCone (acc : List (BitVec 8 × List Nat)) (c : BitVec 8 × List Nat) : List (BitVec 8 × List Nat) :=
  match takeFirst (fun e => e.1 = c.1) acc with
  | none => acc ++ [c]
  | some (e, rest) => (e.1, unionPos c.2 e.2) :: rest

theorem coneUnion_eq (a b : List (BitVec 8 × List Nat)) : coneUnion a b = b.foldl joinCone a := rfl

/-- Taking out the first entry of an operator leaves the first entries of the others, and none is taken when there is none. -/
theorem coneAt_takeFirst (c : BitVec 8) (acc : List (BitVec 8 × List Nat)) :
    (∀ e rest, takeFirst (fun e => e.1 = c) acc = some (e, rest) →
      e.1 = c ∧ coneAt acc c.toNat = e.2 ∧ ∀ o, o ≠ c.toNat → coneAt rest o = coneAt acc o)
    ∧ (takeFirst (fun e => e.1 = c) acc = none → ∀ e ∈ acc, e.1 ≠ c) := by
  induction acc with
  | nil => simp [takeFirst]
  | cons x m ih =>
    obtain ⟨ihs, ihn⟩ := ih
    by_cases hx : x.1 = c
    · refine ⟨fun e rest h => ?_, fun h => ?_⟩
      · simp only [takeFirst, hx, decide_true, if_true] at h
        obtain ⟨rfl, rfl⟩ := Prod.mk.inj (Option.some.inj h)
        exact ⟨hx, by simp [coneAt_cons, hx], fun o ho => by simp [coneAt_cons, hx, Ne.symm ho]⟩
      · simp [takeFirst, hx] at h
    · have hne : x.1.toNat ≠ c.toNat := fun e => hx (BitVec.eq_of_toNat_eq e)
      cases ht : takeFirst (fun e => decide (e.1 = c)) m with
      | none =>
        refine ⟨fun e rest h => by simp [takeFirst, hx, ht] at h, fun _ e he => ?_⟩
        rcases List.mem_cons.1 he with rfl | he
        · exact hx
        · exact ihn ht e he
      | some r =>
        refine ⟨fun e rest h => ?_, fun h => by simp [takeFirst, hx, ht] at h⟩
        simp only [takeFirst, hx, decide_false, Bool.false_eq_true, if_false, ht] at h
        obtain ⟨rfl, rfl⟩ := Prod.mk.inj (Option.some.inj h)
        obtain ⟨h1, h2, h3⟩ := ihs _ _ ht
        exact ⟨h1, by rw [coneAt_cons, if_neg hne, h2], fun o ho => by rw [coneAt_cons, coneAt_cons, h3 o ho]⟩

theorem coneAt_append_of_none {acc : List (BitVec 8 × List Nat)} {c : BitVec 8 × List Nat} (h : ∀ e ∈ acc, e.1 ≠ c.1) (o : Nat) :
    coneAt (acc ++ [c]) o = if c.1.toNat = o then c.2 else coneAt acc o := by
  induction acc with
  | nil => rw [List.nil_append, coneAt_cons]
  | cons x m ih =>
    rw [List.cons_append, coneAt_cons, coneAt_cons, ih (fun e he => h e (.tail _ he))]
    split
    · next hx =>
      rw [if_neg (fun hc => h x (by simp) (BitVec.eq_of_toNat_eq (hx.trans hc.symm)))]
    · rfl

/-- A joined cone keeps what it held and takes what is joined to it. -/
theorem mem_coneAt_joinCone (acc : List (BitVec 8 × List Nat)) (c : BitVec 8 × List Nat) {o t : Nat}
    (h : t ∈ coneAt acc o ∨ (c.1.toNat = o ∧ t ∈ c.2)) : t ∈ coneAt (joinCone acc c) o := by
  obtain ⟨hsome, hnone⟩ := coneAt_takeFirst c.1 acc
  unfold joinCone
  split
  · next hn =>
    have hno := hnone hn
    rw [coneAt_append_of_none hno]
    split
    · next hc =>
      rcases h with h | h
      · have : coneAt acc o = [] := by
          rw [coneAt, List.find?_eq_none.2 (fun e he => by
            simp only [decide_eq_true_eq]
            exact fun he' => hno e he (BitVec.eq_of_toNat_eq (he'.trans hc.symm)))]
          rfl
        simp [this] at h
      · exact h.2
    · next hc => exact h.elim id (fun h => absurd h.1 hc)
  · next e rest hs =>
    obtain ⟨he, hat, hrest⟩ := hsome _ _ hs
    rw [coneAt_cons, he]
    split
    · next hc =>
      rw [mem_unionPos, ← hat, hc]
      exact h.symm.imp_left (·.2)
    · next hc =>
      rw [hrest o (Ne.symm hc)]
      exact h.elim id (fun h => absurd h.1 hc)

theorem mem_coneAt_coneUnion (a b : List (BitVec 8 × List Nat)) {o t : Nat} (h : t ∈ coneAt a o ∨ t ∈ coneAt b o) :
    t ∈ coneAt (coneUnion a b) o := by
  rw [coneUnion_eq]
  induction b generalizing a with
  | nil => exact h.elim id (fun h => by simp [coneAt] at h)
  | cons c r ih =>
    refine ih (joinCone a c) ?_
    rw [coneAt_cons] at h
    split at h
    · next hc => exact .inl (mem_coneAt_joinCone a c (h.imp_right (fun h => ⟨hc, h⟩)))
    · exact h.imp_left (fun h => mem_coneAt_joinCone a c (.inl h))

/-! ### One operator of a plan -/

/-- The requests that stand for an operator. -/
def reqAt (r : List (List Prog)) (x : Nat) : List Prog := (r.drop x).headD []

theorem setAt_length {α : Type} (l : List α) (n : Nat) (x : α) : (setAt l n x).length = l.length := by
  induction l generalizing n with
  | nil => rfl
  | cons y r ih => cases n <;> simp [setAt, ih]

theorem reqAt_setAt (l : List (List Prog)) (n x : Nat) (q : List Prog) :
    reqAt (setAt l n q) x = if x = n ∧ n < l.length then q else reqAt l x := by
  induction l generalizing n x with
  | nil => simp [setAt]
  | cons y r ih =>
    cases n with
    | zero => cases x <;> simp [setAt, reqAt]
    | succ n =>
      cases x with
      | zero => simp [setAt, reqAt]
      | succ x => simpa [setAt, reqAt] using ih n x

theorem reqAt_replicate (n x : Nat) : reqAt (List.replicate n []) x = [] := by
  rw [reqAt, List.drop_replicate]
  cases n - x <;> rfl

/-- An entry put back in its place changes nothing. -/
theorem setAt_same (l : List (List Prog)) (n : Nat) : setAt l n ((l.drop n).headD []) = l := by
  induction l generalizing n with
  | nil => rfl
  | cons y r ih =>
    cases n with
    | zero => rfl
    | succ n => simpa [setAt] using ih n

/-- What planning keeps of the requests of an operator: positions that are neither produced nor needed already. -/
def planKeep (g : Graph) (x t : Nat) : Bool :=
  !produced (opAt g x) (stAt g x) t && !(inSet (stAt g x).need t && !(stAt g x).had.contains t)

/-- The progressions that planning enters into the need set of an operator. -/
def planNew (g : Graph) (x : Nat) (req : List Prog) : List Prog :=
  let new0 := runs req (planKeep g x)
  if (opAt g x).ins.any (fun i => i.kind = 5 || i.kind = 7) then runs (new0.map (extend g x)) (planKeep g x) else new0

/-- What planning makes of the state of an operator. -/
def planState (g : Graph) (x : Nat) (req : List Prog) : OpState :=
  { stAt g x with need := (planNew g x req).foldl needInsert (stAt g x).need
                  had := (stAt g x).had.filter (fun t => !inSet (planNew g x req) t) }

/-- The positions of an operator that planning enters into the cone. -/
def planCone (g : Graph) (x : Nat) (req : List Prog) : List Nat :=
  unionPos ((req ++ planNew g x req).flatMap (fun q => q.list.filter (fun t => !produced (opAt g x) (stAt g x) t))) []

theorem planOp_g (hf : Nat → Nat) (acc : PlanAcc) (x : Nat) : (planOp hf acc x).g = putSt acc.g x (planState acc.g x (reqAt acc.req x)) := rfl

theorem planOp_cone (hf : Nat → Nat) (acc : PlanAcc) (x : Nat) : (planOp hf acc x).cone =
    if (planCone acc.g x (reqAt acc.req x)).isEmpty then acc.cone else (BitVec.ofNat 8 x, planCone acc.g x (reqAt acc.req x)) :: acc.cone := rfl

theorem extend_covers (g : Graph) (x : Nat) (q : Prog) : regular (extend g x q) ∧ ∀ t, q.mem t = true → (extend g x q).mem t = true := by
  have hmin : ∀ (l : List Int) (c : Int), l.foldl min c ≤ c := by
    intro l
    induction l with
    | nil => exact fun c => le_refl c
    | cons y r ih => exact fun c => (ih (min c y)).trans (Int.min_le_left _ _)
  refine ⟨regular_stride_one _ _, fun t ht => ?_⟩
  obtain ⟨h1, h2, -⟩ := (mem_iff _ _).1 ht
  refine (regular_mem_iff (regular_stride_one _ _) t).2 ⟨?_, h2, by simp⟩
  simp only
  split
  · exact (Int.min_le_right _ _).trans h1
  · exact (hmin _ _).trans h1

/-- Planning enters every kept position of a request (R108). -/
theorem planNew_covers (g : Graph) (x : Nat) {req : List Prog} (hreq : ∀ q ∈ req, regular q) :
    (∀ q ∈ planNew g x req, regular q) ∧ ∀ t, inSet req t = true → planKeep g x t = true → inSet (planNew g x req) t = true := by
  obtain ⟨h1, h2⟩ := runs_cover req (planKeep g x) hreq
  simp only [planNew]
  split
  · obtain ⟨h3, h4⟩ := runs_cover ((runs req (planKeep g x)).map (extend g x)) (planKeep g x)
      (fun q hq => by obtain ⟨q', -, rfl⟩ := List.mem_map.1 hq; exact (extend_covers g x q').1)
    refine ⟨h3, fun t ht hk => h4 t ?_ hk⟩
    obtain ⟨q, hq, hm⟩ := (inSet_iff _ _).1 (h2 t ht hk)
    exact (inSet_iff _ _).2 ⟨_, List.mem_map_of_mem hq, (extend_covers g x q).2 t hm⟩
  · exact ⟨h1, h2⟩

/-- With an empty need set, every position that is asked of an operator and not produced comes into its need set and into the cone. -/
theorem planOp_sink {acc : PlanAcc} {x t : Nat} (hf : Nat → Nat) (hx : x < 256) (hreq : ∀ q ∈ reqAt acc.req x, regular q)
    (hneed : (stAt acc.g x).need = []) (ht : inSet (reqAt acc.req x) t = true) (hp : produced (opAt acc.g x) (stAt acc.g x) t = false) :
    inSet (stAt (planOp hf acc x).g x).need t = true ∧ t ∈ coneAt (planOp hf acc x).cone x := by
  obtain ⟨hreg, hcov⟩ := planNew_covers acc.g x hreq
  have hnew := hcov t ht (by simp [planKeep, hp, hneed])
  have hcone : t ∈ planCone acc.g x (reqAt acc.req x) := by
    obtain ⟨q, hq, hm⟩ := (inSet_iff _ _).1 ht
    simp only [planCone, mem_unionPos, List.mem_flatMap, List.mem_append, List.mem_filter, mem_list]
    exact .inl ⟨q, .inl hq, hm, by simp [hp]⟩
  constructor
  · rw [planOp_g, stAt_putSt, if_pos rfl]
    exact foldl_needInsert_covers _ _ (by simp [hneed]) hreg (.inr hnew)
  · rw [planOp_cone, if_neg (by simp [List.ne_nil_of_mem hcone]), coneAt_cons, if_pos (by simpa using hx)]
    exact hcone

/-- Planning one operator leaves the others. -/
theorem planOp_other {acc : PlanAcc} {x o : Nat} (hf : Nat → Nat) (hx : x < 256) (ho : o ≠ x) :
    stAt (planOp hf acc x).g o = stAt acc.g o ∧ coneAt (planOp hf acc x).cone o = coneAt acc.cone o := by
  refine ⟨by rw [planOp_g, stAt_putSt, if_neg ho], ?_⟩
  rw [planOp_cone]
  split
  · rfl
  · have : x ≠ o := ho.symm
    rw [coneAt_cons, if_neg (by simpa [Nat.mod_eq_of_lt hx] using this)]

/-- An operator of which nothing is asked asks nothing of its producers. -/
theorem planOp_unasked {acc : PlanAcc} {x : Nat} (hf : Nat → Nat) (h : reqAt acc.req x = []) : (planOp hf acc x).req = acc.req := by
  have hnew : planNew acc.g x (reqAt acc.req x) = [] := by
    rw [h]
    simp [planNew, runs]
  change (opAt acc.g x).ins.foldl (fun r i => if i.needs then setAt r i.prod.toNat ((r.drop i.prod.toNat).headD []
    ++ ((planNew acc.g x (reqAt acc.req x)).map (fun q => inputRange acc.g hf x i q)).filter (fun q => !q.isEmpty)) else r) acc.req = acc.req
  rw [hnew]
  induction (opAt acc.g x).ins with
  | nil => rfl
  | cons i r ih =>
    rw [List.foldl_cons]
    simp only [List.map_nil, List.filter_nil, List.append_nil, setAt_same, ite_self] at ih ⊢
    exact ih

/-! ### A plan -/

/-- Operators below 256 of which nothing is asked leave the requests and another operator as they are. -/
theorem foldl_planOp_unasked (hf : Nat → Nat) (o : Nat) (l : List Nat) (acc : PlanAcc) (hl : ∀ x ∈ l, x < 256 ∧ x ≠ o ∧ reqAt acc.req x = []) :
    (l.foldl (planOp hf) acc).req = acc.req ∧ stAt (l.foldl (planOp hf) acc).g o = stAt acc.g o
    ∧ (l.foldl (planOp hf) acc).g.ops = acc.g.ops := by
  induction l generalizing acc with
  | nil => exact ⟨rfl, rfl, rfl⟩
  | cons x r ih =>
    obtain ⟨hx, hne, hreq⟩ := hl x (by simp)
    have hr := planOp_unasked hf hreq
    obtain ⟨h1, h2, h3⟩ := ih (planOp hf acc x) (fun y hy => hr ▸ hl y (.tail _ hy))
    exact ⟨h1.trans hr, h2.trans (planOp_other hf hx (Ne.symm hne)).1, h3⟩

theorem foldl_planOp_other (hf : Nat → Nat) (o : Nat) (l : List Nat) (acc : PlanAcc) (hl : ∀ x ∈ l, x < 256 ∧ x ≠ o) :
    stAt (l.foldl (planOp hf) acc).g o = stAt acc.g o ∧ coneAt (l.foldl (planOp hf) acc).cone o = coneAt acc.cone o := by
  induction l generalizing acc with
  | nil => exact ⟨rfl, rfl⟩
  | cons x r ih =>
    obtain ⟨hx, hne⟩ := hl x (by simp)
    obtain ⟨h1, h2⟩ := ih (planOp hf acc x) (fun y hy => hl y (.tail _ hy))
    obtain ⟨h3, h4⟩ := planOp_other (acc := acc) hf hx (Ne.symm hne)
    exact ⟨h1.trans h3, h2.trans h4⟩

theorem foldl_planOp_ops (hf : Nat → Nat) (l : List Nat) (acc : PlanAcc) : (l.foldl (planOp hf) acc).g.ops = acc.g.ops := by
  induction l generalizing acc with
  | nil => rfl
  | cons x r ih => exact (ih _).trans rfl

/-- What a plan begins with: a range asked of its sink, in parts (R108; log entry 75). -/
def planStart (g : Graph) (o : Nat) (c : Prog) : PlanAcc :=
  { g := g, req := setAt (List.replicate g.ops.length []) o (if c.isEmpty then [] else c.parts), cone := [] }

theorem plan_eq (g : Graph) (hf : Nat → Nat) (o : Nat) (rg : Prog) :
    let r := (upTo g.ops.length).reverse.foldl (planOp hf) (planStart g o (rg.clamp (opAt g o).origin (opAt g o).limit))
    plan g hf o rg = (r.g, r.cone) := rfl

theorem reqAt_planStart {g : Graph} {o : Nat} {c : Prog} (ho : o < g.ops.length) (hc : c.a ≤ c.b) (x : Nat) :
    reqAt (planStart g o c).req x = if x = o then c.parts else [] := by
  have hempty : c.isEmpty = false := by simp [Prog.isEmpty, hc]
  simp [planStart, hempty, reqAt_setAt, reqAt_replicate, ho]

/-- An operator's place in the order in which a plan takes the operators. -/
theorem reverse_upTo_split {n o : Nat} (ho : o < n) : ∃ l1 l2, (upTo n).reverse = l1 ++ o :: l2 ∧ ∀ x ∈ l1 ++ l2, x < n ∧ x ≠ o := by
  obtain ⟨l1, l2, hl⟩ := List.append_of_mem (show o ∈ (upTo n).reverse by simpa using ho)
  have hnd : (l1 ++ o :: l2).Nodup := by rw [← hl, upTo_eq_range]; exact List.nodup_reverse.2 List.nodup_range
  have hnot : o ∉ l1 ++ l2 := (List.nodup_cons.1 (List.nodup_middle.1 hnd)).1
  refine ⟨l1, l2, hl, fun x hx => ⟨?_, fun e => hnot (e ▸ hx)⟩⟩
  have hmem : x ∈ (upTo n).reverse := by
    rw [hl]
    simp only [List.mem_append, List.mem_cons] at hx ⊢
    tauto
  simpa using hmem

/-- PLAN of a range at a sink with an empty need set: each position of the range that is not produced comes into the need set and into the cone. -/
theorem plan_covers {g : Graph} {o t : Nat} {rg : Prog} (hf : Nat → Nat) (ho : o < g.ops.length) (hn : g.ops.length ≤ 256) (hs : 1 ≤ rg.s)
    (hneed : (stAt g o).need = []) (ht : (rg.clamp (opAt g o).origin (opAt g o).limit).mem t = true)
    (hp : produced (opAt g o) (stAt g o) t = false) :
    inSet (stAt (plan g hf o rg).1 o).need t = true ∧ t ∈ coneAt (plan g hf o rg).2 o := by
  rw [plan_eq]
  generalize hclamp : rg.clamp (opAt g o).origin (opAt g o).limit = c at ht
  have hcs : 1 ≤ c.s := by rw [← hclamp, clamp_s]; exact hs
  have hc : c.a ≤ c.b := by obtain ⟨h1, h2, -⟩ := (mem_iff _ _).1 ht; exact h1.trans h2
  obtain ⟨hreg, hcov⟩ := parts_cover hcs hc
  have hreq := reqAt_planStart ho hc
  obtain ⟨l1, l2, hl, hothers⟩ := reverse_upTo_split ho
  have hlt : ∀ x ∈ l1 ++ l2, x < 256 ∧ x ≠ o := fun x hx => ⟨(hothers x hx).1.trans_le hn, (hothers x hx).2⟩
  -- those ahead of the sink ask for nothing, and those after it leave it as it is
  obtain ⟨h1, h2, h3⟩ := foldl_planOp_unasked hf o l1 (planStart g o c) (fun x hx => by
    obtain ⟨hx256, hne⟩ := hlt x (by simp [hx])
    exact ⟨hx256, hne, by rw [hreq, if_neg hne]⟩)
  have hop : opAt (l1.foldl (planOp hf) (planStart g o c)).g o = opAt g o := by rw [opAt, h3]; rfl
  have hst : stAt (l1.foldl (planOp hf) (planStart g o c)).g o = stAt g o := h2
  have hreq1 : reqAt (l1.foldl (planOp hf) (planStart g o c)).req o = c.parts := by rw [h1, hreq, if_pos rfl]
  obtain ⟨h4, h5⟩ := planOp_sink (acc := l1.foldl (planOp hf) (planStart g o c)) (x := o) (t := t) hf (ho.trans_le hn)
    (by rw [hreq1]; exact hreg) (by rw [hst]; exact hneed) (by rw [hreq1]; exact (inSet_iff _ _).2 (hcov t ht)) (by rw [hop, hst]; exact hp)
  obtain ⟨h6, h7⟩ := foldl_planOp_other hf o l2 (planOp hf (l1.foldl (planOp hf) (planStart g o c)) o) (fun x hx => hlt x (by simp [hx]))
  rw [hl, List.foldl_append, List.foldl_cons]
  exact ⟨h6 ▸ h4, h7 ▸ h5⟩

theorem plan_ops (g : Graph) (hf : Nat → Nat) (o : Nat) (rg : Prog) : (plan g hf o rg).1.ops = g.ops := foldl_planOp_ops _ _ _

/-- A demand that is planned: its graph with the need sets, and its cone with what is left of it. -/
theorem planOne_plans {x : Part} {slot k : Nat} {g : Graph} {d : Demand} (hf : Nat → Nat) (hg : tfind x.graphs slot = some g)
    (hd : tfind x.demands k = some d) (hdone : d.done = false) :
    tfind (planOne hf x slot k).graphs slot = some (plan g hf d.opx.toNat d.prog).1
    ∧ tfind (planOne hf x slot k).demands k = some { d with planned := true, cone := coneUnion d.cone (plan g hf d.opx.toNat d.prog).2
                                                            left := coneUnion d.left (plan g hf d.opx.toNat d.prog).2 } := by
  simp [planOne, hg, hd, hdone, modDemand]

end Sys2Proof.Laws
end

section
/-! SUPPORT. Candidates, their order, and the unit that is armed (R96, R109, R110, R122), with O49. -/

namespace Sys2Proof.Laws

open Sys2Proof.Machine

/-! ### The most urgent demand -/

/-- Of a better class, or of the same class and no younger (R119). -/
def atLeastAsUrgent (b d : Demand) : Prop := b.prio < d.prio ∨ (b.prio = d.prio ∧ b.acc ≤ d.acc)

theorem atLeastAsUrgent_trans {a b c : Demand} (h1 : atLeastAsUrgent a b) (h2 : atLeastAsUrgent b c) : atLeastAsUrgent a c := by
  simp only [atLeastAsUrgent, BitVec.lt_def, ← BitVec.toNat_inj] at *
  omega

/-- The more urgent of two demands, the first where neither is. -/
def moreUrgent (b d : Demand) : Demand := if d.prio.toNat < b.prio.toNat || (d.prio = b.prio && d.acc < b.acc) then d else b

theorem moreUrgent_spec (b d : Demand) :
    (moreUrgent b d = b ∨ moreUrgent b d = d) ∧ atLeastAsUrgent (moreUrgent b d) b ∧ atLeastAsUrgent (moreUrgent b d) d := by
  unfold moreUrgent
  split
  · next h =>
    refine ⟨.inr rfl, ?_, .inr ⟨rfl, le_refl _⟩⟩
    simp only [Bool.or_eq_true, Bool.and_eq_true, decide_eq_true_eq, ← BitVec.toNat_inj] at h
    simp only [atLeastAsUrgent, BitVec.lt_def, ← BitVec.toNat_inj]
    omega
  · next h =>
    refine ⟨.inl rfl, .inr ⟨rfl, le_refl _⟩, ?_⟩
    simp only [Bool.or_eq_true, Bool.and_eq_true, decide_eq_true_eq, ← BitVec.toNat_inj] at h
    simp only [atLeastAsUrgent, BitVec.lt_def, ← BitVec.toNat_inj]
    omega

theorem mostUrgent_cons (d : Demand) (l : List Demand) : mostUrgent (d :: l) = some (l.foldl moreUrgent d) := by
  simp only [mostUrgent, List.foldl_cons]
  induction l generalizing d with
  | nil => rfl
  | cons e r ih =>
    rw [List.foldl_cons, List.foldl_cons, ← ih]
    congr 1
    simp only [moreUrgent]
    split <;> rfl

theorem mostUrgent_spec {l : List Demand} {b : Demand} (h : mostUrgent l = some b) : b ∈ l ∧ ∀ d ∈ l, atLeastAsUrgent b d := by
  have key : ∀ (l : List Demand) (d : Demand),
      l.foldl moreUrgent d ∈ d :: l ∧ ∀ e ∈ d :: l, atLeastAsUrgent (l.foldl moreUrgent d) e := by
    intro l
    induction l with
    | nil => exact fun d => ⟨by simp, by simp [atLeastAsUrgent]⟩
    | cons e r ih =>
      intro d
      obtain ⟨hm, hu⟩ := ih (moreUrgent d e)
      obtain ⟨heq, h1, h2⟩ := moreUrgent_spec d e
      have hfirst := hu _ List.mem_cons_self
      refine ⟨?_, ?_⟩
      · rcases List.mem_cons.1 hm with hm | hm
        · rw [List.foldl_cons, hm]
          rcases heq with heq | heq <;> simp [heq]
        · exact .tail _ (.tail _ hm)
      · simp only [List.mem_cons, forall_eq_or_imp]
        exact ⟨atLeastAsUrgent_trans hfirst h1, atLeastAsUrgent_trans hfirst h2, fun x hx => hu x (.tail _ hx)⟩
  cases l with
  | nil => simp [mostUrgent] at h
  | cons d r =>
    rw [mostUrgent_cons, Option.some.injEq] at h
    exact h ▸ key r d

/-! ### Candidates -/

@[simp] theorem mem_unproducedNeed (d : OpDesc) (st : OpState) (t : Nat) :
    t ∈ unproducedNeed d st ↔ inSet st.need t = true ∧ produced d st t = false ∧ t ∉ st.had := by
  simp only [unproducedNeed, mem_unionPos, List.mem_flatMap, List.mem_filter, mem_list, inSet_iff, List.not_mem_nil, or_false,
    Bool.and_eq_true, Bool.not_eq_true', List.contains_eq_mem, decide_eq_false_iff_not]
  constructor
  · rintro ⟨p, hp, hm, h1, h2⟩
    exact ⟨⟨p, hp, hm⟩, h1, h2⟩
  · rintro ⟨⟨p, hp, hm⟩, h1, h2⟩
    exact ⟨p, hp, hm, h1, h2⟩

@[simp] theorem meets_iff (a b : List Nat) : meets a b = true ↔ ∃ t ∈ a, t ∈ b := by simp [meets]

theorem mem_liveOn (x : Part) (slot : Nat) (e : Nat × Demand) : e ∈ liveOn x slot ↔ e ∈ x.demands ∧ e.2.slot = slot ∧ e.2.done = false := by
  simp [liveOn, Demand.live, and_comm]

/-- A released live demand of the slot asks for one of some positions. -/
def asksFor (x : Part) (slot o : Nat) (u : List Nat) (q : Nat × Demand) : Prop :=
  q ∈ x.demands ∧ q.2.slot = slot ∧ q.2.done = false ∧ released x q.2 = true ∧ ∃ t ∈ u, t ∈ coneAt q.2.cone o

/-- The demands that ask for some positions. -/
def askers (x : Part) (slot o : Nat) (u : List Nat) : List Demand :=
  ((liveOn x slot).filter (fun e => released x e.2 && meets u (coneAt e.2.cone o))).map (·.2)

theorem mem_askers (x : Part) (slot o : Nat) (u : List Nat) (d : Demand) : d ∈ askers x slot o u ↔ ∃ q, asksFor x slot o u q ∧ q.2 = d := by
  simp [askers, asksFor, mem_liveOn, and_assoc]

/-- What a candidate is: the needed positions of one tile step, for which a demand asks (R109). -/
theorem candidate_spec {x : Part} {slot o : Nat} {g : Graph} {c : Cand} (h : c ∈ candidates x slot g o) :
    (2 ≤ (opAt g o).scls.toNat → (stAt g o).arm = none)
    ∧ c.u = (unproducedNeed (opAt g o) (stAt g o)).filter (fun t => (t - (opAt g o).origin) / (opAt g o).t = c.step)
    ∧ ∃ b, mostUrgent (askers x slot o c.u) = some b ∧ c.prio = b.prio ∧ c.age = b.acc := by
  simp only [candidates, List.mem_filterMap] at h
  obtain ⟨nu, hnu, hc⟩ := h
  change (match mostUrgent (askers x slot o nu.2) with | none => none | some b => some _) = some c at hc
  split at hc
  · simp at hc
  next b hb =>
  obtain rfl := Option.some.inj hc
  have hall : (2 ≤ (opAt g o).scls.toNat → (stAt g o).arm = none)
      ∧ nu.2 = (unproducedNeed (opAt g o) (stAt g o)).filter (fun t => (t - (opAt g o).origin) / (opAt g o).t = nu.1) := by
    split at hnu
    · next hs =>
      split at hnu
      · simp at hnu
      · next harm =>
        obtain ⟨n, -, rfl⟩ := List.mem_map.1 (List.mem_of_mem_take hnu)
        exact ⟨fun _ => by simpa using harm, rfl⟩
    · next hs =>
      obtain ⟨n, -, rfl⟩ := List.mem_map.1 hnu
      exact ⟨fun h => absurd h hs, rfl⟩
  exact ⟨hall.1, hall.2, b, hb, rfl, rfl⟩

/-- The positions of a candidate are needed, not produced, and of its step. -/
theorem candidate_positions {x : Part} {slot o : Nat} {g : Graph} {c : Cand} (h : c ∈ candidates x slot g o) {t : Nat} (ht : t ∈ c.u) :
    inSet (stAt g o).need t = true ∧ produced (opAt g o) (stAt g o) t = false ∧ (t - (opAt g o).origin) / (opAt g o).t = c.step := by
  obtain ⟨-, hu, -⟩ := candidate_spec h
  rw [hu, List.mem_filter, mem_unproducedNeed, decide_eq_true_eq] at ht
  obtain ⟨⟨hn, hp, -⟩, hs⟩ := ht
  exact ⟨hn, hp, hs⟩

/-- The class and the age of a candidate are those of the most urgent demand that asks for one of its positions (R110). -/
theorem candidate_urgency {x : Part} {slot o : Nat} {g : Graph} {c : Cand} (h : c ∈ candidates x slot g o) :
    (∃ q, asksFor x slot o c.u q ∧ q.2.prio = c.prio ∧ q.2.acc = c.age)
    ∧ ∀ q, asksFor x slot o c.u q → c.prio < q.2.prio ∨ (c.prio = q.2.prio ∧ c.age ≤ q.2.acc) := by
  obtain ⟨-, -, b, hb, hprio, hage⟩ := candidate_spec h
  obtain ⟨hmem, hmin⟩ := mostUrgent_spec hb
  obtain ⟨q, hq, rfl⟩ := (mem_askers x slot o c.u b).1 hmem
  refine ⟨⟨q, hq, hprio.symm, hage.symm⟩, fun q' hq' => ?_⟩
  rw [hprio, hage]
  exact hmin q'.2 ((mem_askers x slot o c.u _).2 ⟨q', hq', rfl⟩)

/-! ### The order of candidates -/

/-- The order of R110: promoted ones before others, then by class, age and step. -/
theorem before_iff (a b : Cand) : a.before b = true ↔ (a.promoted = true ∧ b.promoted = false) ∨ (a.promoted = b.promoted
    ∧ (a.prio < b.prio ∨ (a.prio = b.prio ∧ (a.age < b.age ∨ (a.age = b.age ∧ a.step < b.step))))) := by
  by_cases hp : a.promoted = b.promoted
  · by_cases hc : a.prio = b.prio
    · by_cases ha : a.age = b.age <;> simp [Cand.before, hp, hc, ha]
    · simp [Cand.before, hp, hc, BitVec.lt_def]
  · cases ha : a.promoted <;> cases hb : b.promoted <;> simp_all [Cand.before]

/-- The same order as one of numbers. -/
theorem before_iff_toNat (a b : Cand) : a.before b = true ↔ b.promoted.toNat < a.promoted.toNat ∨ (a.promoted.toNat = b.promoted.toNat
    ∧ (a.prio.toNat < b.prio.toNat ∨ (a.prio.toNat = b.prio.toNat ∧ (a.age < b.age ∨ (a.age = b.age ∧ a.step < b.step))))) := by
  rw [before_iff, BitVec.lt_def, BitVec.toNat_inj]
  cases a.promoted <;> cases b.promoted <;> simp

theorem before_trans {a b c : Cand} (h1 : a.before b = true) (h2 : b.before c = true) : a.before c = true := by
  rw [before_iff_toNat] at *
  omega

theorem before_asymm {a b : Cand} (h : a.before b = true) : b.before a = false := by
  rw [← Bool.not_eq_true, before_iff_toNat]
  rw [before_iff_toNat] at h
  omega

/-- None comes before one that stands ahead of it. -/
def inOrder (l : List Cand) : Prop := l.Pairwise (fun a b => b.before a = false)

theorem mem_insertCand (c x : Cand) (l : List Cand) : x ∈ insertCand c l ↔ x = c ∨ x ∈ l := by
  induction l with
  | nil => simp [insertCand]
  | cons e r ih =>
    simp only [insertCand]
    split
    · simp
    · simp only [List.mem_cons, ih]; tauto

theorem inOrder_insertCand (c : Cand) {l : List Cand} (h : inOrder l) : inOrder (insertCand c l) := by
  induction l with
  | nil => exact List.pairwise_singleton _ _
  | cons e r ih =>
    obtain ⟨he, hr⟩ := List.pairwise_cons.1 h
    simp only [insertCand]
    split
    · next hc =>
      refine List.pairwise_cons.2 ⟨fun x hx => ?_, h⟩
      rcases List.mem_cons.1 hx with rfl | hx
      · exact before_asymm hc
      · rw [← Bool.not_eq_true]
        exact fun hxc => by simpa [he x hx] using before_trans hxc hc
    · next hc =>
      refine List.pairwise_cons.2 ⟨fun x hx => ?_, ih hr⟩
      rcases (mem_insertCand c x r).1 hx with rfl | hx
      · simpa using hc
      · exact he x hx

theorem sortCands_spec (l : List Cand) : inOrder (sortCands l) ∧ ∀ c, c ∈ sortCands l ↔ c ∈ l := by
  have key : ∀ l acc : List Cand, inOrder acc → inOrder (l.foldl (fun acc c => insertCand c acc) acc)
      ∧ ∀ c, c ∈ l.foldl (fun acc c => insertCand c acc) acc ↔ c ∈ l ∨ c ∈ acc := by
    intro l
    induction l with
    | nil => exact fun acc h => ⟨h, by simp⟩
    | cons e r ih =>
      intro acc h
      obtain ⟨h1, h2⟩ := ih _ (inOrder_insertCand e h)
      refine ⟨h1, fun c => ?_⟩
      rw [List.foldl_cons, h2, mem_insertCand, List.mem_cons]
      tauto
  obtain ⟨h1, h2⟩ := key l [] .nil
  exact ⟨h1, fun c => by simp [sortCands, h2]⟩

/-- The one that comes before all others heads a list in order. -/
theorem head_of_inOrder {l : List Cand} {c : Cand} (h : inOrder l) (hc : c ∈ l) (hfirst : ∀ b ∈ l, b = c ∨ c.before b = true) :
    ∃ r, l = c :: r := by
  cases l with
  | nil => simp at hc
  | cons e r =>
    obtain ⟨he, -⟩ := List.pairwise_cons.1 h
    rcases hfirst e (by simp) with rfl | hb
    · exact ⟨r, rfl⟩
    · rcases List.mem_cons.1 hc with rfl | hc
      · exact ⟨r, rfl⟩
      · rw [he c hc] at hb
        simp at hb

/-! ### What a candidate executes -/

/-- A progression that begins and ends at positions of a list and holds all of it. -/
def spans (p : Prog) (l : List Nat) : Prop :=
  (∃ x ∈ l, p.a = (x : Int)) ∧ (∃ x ∈ l, p.b = (x : Int)) ∧ ∀ x ∈ l, p.a ≤ (x : Int) ∧ (x : Int) ≤ p.b ∧ (p.s : Int) ∣ (x : Int) - p.a

theorem spans_hull {p : Prog} {l : List Nat} (h : spans p l) (y : Nat) : spans (p.hull { a := y, b := y, s := 0 }) (y :: l) := by
  obtain ⟨⟨u, hu, hpa⟩, ⟨v, hv, hpb⟩, hall⟩ := h
  have hs : (p.hull { a := y, b := y, s := 0 }).s = Nat.gcd p.s (p.a - y).natAbs := by simp [Prog.hull]
  have ds : ((p.hull { a := y, b := y, s := 0 }).s : Int) ∣ p.s := by rw [hs]; exact_mod_cast Nat.gcd_dvd_left _ _
  have dy : ((p.hull { a := y, b := y, s := 0 }).s : Int) ∣ p.a - y := by rw [hs]; exact Int.natCast_dvd.2 (Nat.gcd_dvd_right _ _)
  simp only [spans, List.mem_cons, forall_eq_or_imp]
  change (∃ x, (x = y ∨ x ∈ l) ∧ min p.a (y : Int) = x) ∧ (∃ x, (x = y ∨ x ∈ l) ∧ max p.b (y : Int) = x)
    ∧ (min p.a (y : Int) ≤ y ∧ (y : Int) ≤ max p.b (y : Int) ∧ ((p.hull { a := y, b := y, s := 0 }).s : Int) ∣ (y : Int) - min p.a (y : Int))
    ∧ ∀ x ∈ l, min p.a (y : Int) ≤ x ∧ (x : Int) ≤ max p.b (y : Int) ∧ ((p.hull { a := y, b := y, s := 0 }).s : Int) ∣ (x : Int) - min p.a (y : Int)
  refine ⟨?_, ?_, ⟨by omega, by omega, ?_⟩, fun x hx => ?_⟩
  · rcases Int.le_total p.a y with h | h
    · exact ⟨u, .inr hu, by omega⟩
    · exact ⟨y, .inl rfl, by omega⟩
  · rcases Int.le_total p.b y with h | h
    · exact ⟨y, .inl rfl, by omega⟩
    · exact ⟨v, .inr hv, by omega⟩
  · rcases Int.le_total p.a y with h | h
    · rw [Int.min_eq_left h, ← Int.dvd_neg, Int.neg_sub]; exact dy
    · rw [Int.min_eq_right h]; simp
  · obtain ⟨h1, h2, h3⟩ := hall x hx
    refine ⟨by omega, by omega, ?_⟩
    rcases Int.le_total p.a y with h | h
    · rw [Int.min_eq_left h]; exact ds.trans h3
    · rw [Int.min_eq_right h, ← sub_add_sub_cancel (x : Int) p.a]
      exact Int.dvd_add (ds.trans h3) dy

theorem spans_of_dvd {p : Prog} {l : List Nat} (h : spans p l) {s : Nat} (hs : (s : Int) ∣ p.s) : spans { p with s := s } l :=
  ⟨h.1, h.2.1, fun x hx => ⟨(h.2.2 x hx).1, (h.2.2 x hx).2.1, hs.trans (h.2.2 x hx).2.2⟩⟩

theorem regular_of_spans {p : Prog} {l : List Nat} (h : spans p l) (hs : 1 ≤ p.s) : regular p := by
  obtain ⟨-, ⟨v, hv, hpb⟩, hall⟩ := h
  exact ⟨hs, hpb ▸ (hall v hv).2.2⟩

/-- The hull of a position and of those that follow it. -/
def positionsHull (x : Nat) (r : List Nat) : Prog := r.foldl (fun p (y : Nat) => p.hull { a := y, b := y, s := 0 }) { a := x, b := x, s := 0 }

theorem hullOf_cons (one : Bool) (x : Nat) (r : List Nat) : hullOf one (x :: r) =
    some { positionsHull x r with s := if one then 1 else if (positionsHull x r).s = 0 then 1 else (positionsHull x r).s } := by
  simp only [hullOf, positionsHull, List.bind_eq_flatMap, List.pure_def, ← List.map_eq_flatMap, List.foldl_map]
  rfl

theorem positionsHull_spans (x : Nat) (r : List Nat) : spans (positionsHull x r) (x :: r) := by
  have key : ∀ (r m : List Nat) (p : Prog), spans p m →
      spans (r.foldl (fun p (y : Nat) => p.hull { a := y, b := y, s := 0 }) p) (r.reverse ++ m) := by
    intro r
    induction r with
    | nil => exact fun m p h => h
    | cons y r ih => exact fun m p h => by simpa using ih (y :: m) _ (spans_hull h y)
  have h := key r [x] { a := x, b := x, s := 0 } ⟨⟨x, by simp, rfl⟩, ⟨x, by simp, rfl⟩, by simp⟩
  have hsame : ∀ t, t ∈ r.reverse ++ [x] ↔ t ∈ x :: r := fun t => by simp [or_comm]
  simpa only [spans, hsame, positionsHull] using h

/-- The hull of some positions spans them, with stride 1 where that is asked for (R109). -/
theorem hullOf_spans (one : Bool) {l : List Nat} (hl : l ≠ []) :
    ∃ e, hullOf one l = some e ∧ spans e l ∧ 1 ≤ e.s ∧ (one = true → e.s = 1) := by
  obtain ⟨x, r, rfl⟩ := List.exists_cons_of_ne_nil hl
  refine ⟨_, hullOf_cons one x r, ?_⟩
  have hspan := positionsHull_spans x r
  cases one
  · by_cases hp : (positionsHull x r).s = 0
    · exact ⟨spans_of_dvd hspan (by simp [hp]), by simp [hp], by simp⟩
    · exact ⟨spans_of_dvd hspan (by simp [hp]), by simp [hp]; omega, by simp⟩
  · exact ⟨spans_of_dvd hspan (by simp), by simp, by simp⟩

/-- A record at or before a position has its TIME there. -/
theorem latestRecord_le {o : OpState} {a : Int} {t : Nat} (h : latestRecord o a = some t) : (t : Int) ≤ a := by
  have key : ∀ (l : List CkEntry) (best : Option Nat), (∀ b, best = some b → (b : Int) ≤ a) → ∀ t,
      l.foldl (fun best e => if e.v && (e.time : Int) ≤ a then
        (match best with | none => some e.time | some b => if b < e.time then some e.time else some b) else best) best = some t → (t : Int) ≤ a := by
    intro l
    induction l with
    | nil => exact fun best hb t ht => hb t ht
    | cons e r ih =>
      intro best hb
      refine ih _ (fun b hb' => ?_)
      dsimp only at hb'
      split at hb'
      · next he =>
        simp only [Bool.and_eq_true, decide_eq_true_eq] at he
        split at hb'
        · exact Option.some.inj hb' ▸ he.2
        · split at hb'
          · exact Option.some.inj hb' ▸ he.2
          · next b0 _ => exact Option.some.inj hb' ▸ hb b0 rfl
      · exact hb b hb'
  exact key _ none (by simp) t h

/-- A restart point lies at or before the first position that is asked for, and not before ORIGIN unless it is KPOS (R122). -/
theorem restartPoint_le {d : OpDesc} {o : OpState} {f : Nat} (h : d.origin ≤ f) : restartPoint d o f ≤ f := by
  have hq : (latestRecord o f).elim d.origin (fun t => max d.origin t) ≤ f := by
    cases hr : latestRecord o f with
    | none => exact h
    | some t =>
      have := latestRecord_le hr
      simp only [Option.elim]
      omega
  simp only [restartPoint]
  (repeat' split) <;> omega

/-- The unit that a candidate becomes (R110). -/
def armedUnit (d : OpDesc) (st : OpState) (c : Cand) (slots : List QSlot) (cell : Nat) : ArmUnit :=
  let e := (execution d st c).2
  let tb := d.origin + (execution d st c).1 * d.t
  { step := (execution d st c).1, first := e.a.toNat - tb, last := e.norm.b.toNat - tb, stride := if e.count ≤ 1 then 1 else e.s
    prio := c.prio, rcnt := 0, trig := false, cell := cell, fresh := true, took := st.slots.find? (fun q => !slots.contains q) }

@[simp] theorem mem_pos (u : ArmUnit) (d : OpDesc) (t : Nat) : t ∈ u.pos d ↔ (unitProg d u).mem t = true := mem_list _ _

/-- A regular progression with its first and last position counted from a base at or before its last holds what lies at or after the base. -/
theorem mem_from_base {e : Prog} {tb t : Nat} (he : regular e) (h : e.mem t = true) (htb : tb ≤ t) (ha : (tb : Int) ≤ e.a ∨ e.s = 1) :
    ({ a := (tb + (e.a.toNat - tb) : Nat), b := (tb + (e.norm.b.toNat - tb) : Nat), s := if e.count ≤ 1 then 1 else e.s } : Prog).mem t = true := by
  obtain ⟨h1, h2, h3⟩ := (regular_mem_iff he t).1 h
  have hb : e.norm.b = e.b := by simpa [Prog.ragged] using regular_not_ragged he
  have hstride : ((if e.count ≤ 1 then 1 else e.s : Nat) : Int) ∣ e.s := by split <;> simp
  rw [mem_iff, hb]
  refine ⟨by simp only; omega, by simp only; omega, .inl ?_⟩
  rcases ha with ha | ha
  · rw [show ((tb + (e.a.toNat - tb) : Nat) : Int) = e.a by omega]
    exact hstride.trans h3
  · exact hstride.trans (by simp [ha])

/-- What a candidate executes holds its positions, where it executes in their tile step (R109, R122). -/
theorem execution_holds {d : OpDesc} {st : OpState} {c : Cand} (hstep : ∀ t ∈ c.u, (t - d.origin) / d.t = c.step)
    (horigin : ∀ t ∈ c.u, d.origin ≤ t) (hex : (execution d st c).1 = c.step) {t : Nat} (ht : t ∈ c.u) :
    let e := (execution d st c).2
    regular e ∧ e.mem t = true ∧ ((d.origin + c.step * d.t : Nat) ≤ e.a ∨ e.s = 1) := by
  obtain ⟨e, he, hspan, hs, hone⟩ := hullOf_spans (decide (2 ≤ d.scls.toNat)) (List.ne_nil_of_mem ht)
  have hreg := regular_of_spans hspan hs
  obtain ⟨⟨f, hf, hea⟩, -, hall⟩ := hspan
  obtain ⟨h1, h2, h3⟩ := hall t ht
  have hbase : d.origin + c.step * d.t ≤ f := by
    have := horigin f hf
    have := Nat.div_mul_le_self (f - d.origin) d.t
    rw [← hstep f hf]
    omega
  simp only [execution, he] at hex ⊢
  split
  · next hscls =>
    rw [if_pos hscls] at hex
    have hs1 : e.s = 1 := hone (by
      simp only [Bool.or_eq_true, decide_eq_true_eq] at hscls
      rcases hscls with h | h <;> simp [h])
    have hq : restartPoint d st e.a.toNat ≤ f := by
      rw [hea, Int.toNat_natCast]
      exact restartPoint_le (horigin f hf)
    split at hex
    · next hn =>
      rw [if_pos hn]
      refine ⟨regular_stride_one _ _, (regular_mem_iff (regular_stride_one _ _) t).2 ⟨?_, h2, by simp⟩, .inr rfl⟩
      simp only
      omega
    · next hn => exact absurd hex hn
  · exact ⟨hreg, (regular_mem_iff hreg t).2 ⟨h1, h2, h3⟩, .inl (by simp only; omega)⟩

theorem armedUnit_holds {d : OpDesc} {st : OpState} {c : Cand} (slots : List QSlot) (cell : Nat) (hstep : ∀ t ∈ c.u, (t - d.origin) / d.t = c.step)
    (horigin : ∀ t ∈ c.u, d.origin ≤ t) (hex : (execution d st c).1 = c.step) {t : Nat} (ht : t ∈ c.u) :
    t ∈ (armedUnit d st c slots cell).pos d := by
  obtain ⟨hreg, hmem, ha⟩ := execution_holds hstep horigin hex ht
  have htb : d.origin + c.step * d.t ≤ t := by
    have := horigin t ht
    have := Nat.div_mul_le_self (t - d.origin) d.t
    rw [← hstep t ht]
    omega
  rw [mem_pos]
  simp only [unitProg, armedUnit, hex]
  exact mem_from_base hreg hmem htb ha

/-! ### Slot words -/

/-- The fields of a slot word (R96). -/
theorem armWordOf_fields (slot o : Nat) (u : ArmUnit) :
    let w := armWordOf slot o u
    w.getLsbD 63 = true ∧ w.getLsbD 62 = u.trig ∧ w.toNat / 2 ^ 54 % 256 = u.rcnt % 256 ∧ w.toNat / 2 ^ 48 % 64 = slot % 64
    ∧ w.toNat / 2 ^ 40 % 256 = o % 256 ∧ w.toNat % 2 ^ 40 = u.step % 2 ^ 40 := by
  have h1 : u.rcnt % 256 < 256 := Nat.mod_lt _ (by omega)
  have h2 : slot % 64 < 64 := Nat.mod_lt _ (by omega)
  have h3 : o % 256 < 256 := Nat.mod_lt _ (by omega)
  have h4 : u.step % 2 ^ 40 < 2 ^ 40 := Nat.mod_lt _ (by omega)
  simp only [armWordOf, ← bit_eq_getLsbD, bit, BitVec.toNat_ofNat]
  generalize u.rcnt % 256 = a at *
  generalize slot % 64 = b at *
  generalize o % 256 = c at *
  generalize u.step % 2 ^ 40 = n at *
  cases u.trig <;> simp only [Bool.false_eq_true, if_true, if_false, decide_eq_true_eq, decide_eq_false_iff_not] <;>
    refine ⟨?_, ?_, ?_, ?_, ?_, ?_⟩ <;> omega

/-! ### Arming an operator -/

section
variable {hf : Nat → Nat} {x : Part} {slot o : Nat} {g : Graph}

/-- May a candidate be armed: are its inputs ready, its queue and the arm table not full? -/
def canArm (hf : Nat → Nat) (x : Part) (g : Graph) (o : Nat) (c : Cand) : Bool :=
  inputsReady g hf o (execution (opAt g o) (stAt g o) c).2 && (makeRoom g hf o).isSome && (freeSlot x).isSome

/-- The armable candidates in their order. -/
def armable (hf : Nat → Nat) (x : Part) (slot : Nat) (g : Graph) (o : Nat) : List Cand :=
  (sortCands (candidates x slot g o)).filter (canArm hf x g o)

theorem mem_armable (c : Cand) : c ∈ armable hf x slot g o ↔ c ∈ candidates x slot g o
    ∧ inputsReady g hf o (execution (opAt g o) (stAt g o) c).2 = true ∧ (makeRoom g hf o).isSome = true ∧ (freeSlot x).isSome = true := by
  rw [armable, List.mem_filter, (sortCands_spec _).2, canArm, Bool.and_eq_true, Bool.and_eq_true, and_assoc]

theorem armOp_armed (hg : tfind x.graphs slot = some g) (h : (stAt g o).arm ≠ none) : armOp hf slot x o = x := by
  obtain ⟨u, hu⟩ := Option.ne_none_iff_exists'.1 h
  simp only [armOp, hg, hu]

/-- The state of an operator of which a candidate is armed, with the count of those it passes over (R110, R111). -/
def armedState (d : OpDesc) (st : OpState) (cs : List Cand) (c : Cand) (slots : List QSlot) (cell : Nat) : OpState :=
  let skipped := cs.filter (fun k => c.prio.toNat < k.prio.toNat)
  let oldest := skipped.foldl (fun (b : Option Cand) k => match b with
    | none => some k
    | some j => if k.age < j.age then some k else some j) none
  let passed := if skipped.isEmpty then 0 else st.passed + 1
  { st with slots := slots, arm := some (armedUnit d st c slots cell), passed := passed, passedBy := oldest.map (·.step)
            promoted := st.promoted.filter (· ≠ c.step) }

/-- The restore that an arming asks for joins those of other operators (R122). -/
def askRestore (g : Graph) (o : Nat) : Option Nat → Graph
  | none => { g with restore := g.restore.filter (fun r => r.1.toNat ≠ o) }
  | some j => { g with restore := g.restore.filter (fun r => r.1.toNat ≠ o) ++ [(BitVec.ofNat 8 o, j)] }

@[simp] theorem stAt_askRestore (g : Graph) (o : Nat) (r : Option Nat) (o' : Nat) : stAt (askRestore g o r) o' = stAt g o' := by cases r <;> rfl

@[simp] theorem ops_askRestore (g : Graph) (o : Nat) (r : Option Nat) : (askRestore g o r).ops = g.ops := by cases r <;> rfl

theorem armOp_eq (hg : tfind x.graphs slot = some g) (h : (stAt g o).arm = none) : armOp hf slot x o =
    match armable hf x slot g o, makeRoom g hf o, freeSlot x with
    | c :: _, some slots, some cell =>
      { x with
        graphs := tput x.graphs slot (askRestore (putSt g o (armedState (opAt g o) (stAt g o) (armable hf x slot g o) c slots cell)) o
          (restoreOf (opAt g o) (stAt g o) (execution (opAt g o) (stAt g o) c).2.a.toNat))
        armSlots := tset 0 x.armSlots cell (armWordOf slot o (armedUnit (opAt g o) (stAt g o) c slots cell)) }
    | _, _, _ => x := by
  simp only [armOp, hg, h]
  rfl

theorem armOp_unarmable (hg : tfind x.graphs slot = some g) (h : (stAt g o).arm = none) (hnone : armable hf x slot g o = []) :
    armOp hf slot x o = x := by
  rw [armOp_eq hg h, hnone]

/-- The first armable candidate is armed (R110). -/
theorem armOp_arms {c : Cand} {r : List Cand} {slots : List QSlot} {cell : Nat} (hg : tfind x.graphs slot = some g)
    (h : (stAt g o).arm = none) (hc : armable hf x slot g o = c :: r) (hroom : makeRoom g hf o = some slots) (hcell : freeSlot x = some cell) :
    ∃ g', tfind (armOp hf slot x o).graphs slot = some g' ∧ g'.ops = g.ops
      ∧ (stAt g' o).arm = some (armedUnit (opAt g o) (stAt g o) c slots cell) ∧ (stAt g' o).slots = slots
      ∧ (∀ o' : Nat, o' ≠ o → stAt g' o' = stAt g o')
      ∧ (armOp hf slot x o).armSlots = tset 0 x.armSlots cell (armWordOf slot o (armedUnit (opAt g o) (stAt g o) c slots cell))
      ∧ (armOp hf slot x o).demands = x.demands := by
  rw [armOp_eq hg h]
  simp only [hc, hroom, hcell]
  refine ⟨_, (tfind_tput _ _ _ _).trans (if_pos rfl), ?_⟩
  simp only [stAt_askRestore, ops_askRestore, stAt_putSt, if_true]
  exact ⟨rfl, rfl, rfl, fun o' ho => if_neg ho, trivial, trivial⟩
end

/-- Settles O49: planning by what the need set of the sink comes to hold, arming by the order of the candidates. -/
theorem planningAndArming : Obligations.PlanningAndArming := by
  unfold Obligations.PlanningAndArming
  refine ⟨fun hf x slot k g d hg hd hdone => ?_, fun hf x slot o g hg => ?_⟩
  · intro o od y ho hn hs hneed
    obtain ⟨hg', hd'⟩ := planOne_plans hf hg hd hdone
    refine ⟨_, _, hg', hd', plan_ops _ _ _ _, rfl, rfl, hdone, fun t ht hp => ?_⟩
    obtain ⟨h1, h2⟩ := plan_covers hf ho hn hs hneed ht hp
    exact ⟨h1, mem_coneAt_coneUnion _ _ (.inr h2), mem_coneAt_coneUnion _ _ (.inr h2)⟩
  · intro d st y can asks first
    refine ⟨fun c hc => ⟨fun t ht => candidate_positions hc ht, (candidate_urgency hc).1, (candidate_urgency hc).2, (candidate_spec hc).1⟩,
      armOp_armed hg, fun harm hnone => armOp_unarmable hg harm (List.eq_nil_iff_forall_not_mem.2 fun c hc => hnone c ((mem_armable c).1 hc)),
      fun c harm hcan hfirst => ?_⟩
    obtain ⟨r, hr⟩ := head_of_inOrder ((sortCands_spec (candidates x slot g o)).1.filter (canArm hf x g o)) ((mem_armable c).2 hcan)
      (fun b hb => (hfirst b ((mem_armable b).1 hb)).imp_right (before_iff c b).2)
    obtain ⟨hc, -, hroom, hcell⟩ := hcan
    obtain ⟨slots, hslots⟩ := Option.isSome_iff_exists.1 hroom
    obtain ⟨cell, hfree⟩ := Option.isSome_iff_exists.1 hcell
    obtain ⟨g', hg', hops, hu, hsl, hothers, hwords, hdemands⟩ := armOp_arms hg harm hr hslots hfree
    obtain ⟨hv, -, -, -, -, hstep⟩ := armWordOf_fields slot o (armedUnit d st c slots cell)
    have hword : tget 0 y.armSlots cell = armWordOf slot o (armedUnit d st c slots cell) := by rw [hwords, tget_tset, if_pos rfl]
    exact ⟨g', _, cell, hg', hops, hu, rfl, rfl, rfl, rfl, rfl, hfree, by rw [hsl, hslots],
      fun hex horigin t ht => armedUnit_holds slots cell (fun t ht => (candidate_positions hc ht).2.2) horigin hex ht,
      by rw [hword]; exact hv, by rw [hword]; exact hstep, hothers, hdemands⟩

end Sys2Proof.Laws
end

section
/-! SUPPORT. What the Rein unit records of a committed round (R93, R96, R104, R115, R121): an armed unit that stays or completes, the positions
it has produced, and the demands that trigger and complete. -/

namespace Sys2Proof.Laws

open Sys2Proof.Machine

/-! ### Positions that are entered into a production record -/

theorem le_advanceF (n : Nat) (win : List Nat) (f : Nat) : f ≤ advanceF n win f := by
  induction n generalizing f with
  | zero => exact le_refl _
  | succ n ih =>
    simp only [advanceF]
    split
    · exact (Nat.le_succ f).trans (ih _)
    · exact le_refl _

/-- Entering a position touches the frontier and the window alone. -/
theorem enterPos_keeps (o : OpState) (t : Nat) : (enterPos o t).slots = o.slots ∧ (enterPos o t).kpos = o.kpos := by
  simp only [enterPos]
  (repeat' split) <;> exact ⟨rfl, rfl⟩

/-- The frontier never falls, and passes a position that is entered at or before it. -/
theorem enterPos_frontier (o : OpState) (t : Nat) : o.f ≤ (enterPos o t).f ∧ (t ≤ o.f → t < (enterPos o t).f) := by
  unfold enterPos
  split
  · next h => exact ⟨le_refl _, fun _ => h⟩
  · dsimp only
    generalize o.win.filter _ = win
    split
    · next he =>
      have := le_advanceF 1025 win (t + 1)
      exact ⟨by simp only; omega, fun _ => by simp only; omega⟩
    · exact ⟨le_refl _, fun h => absurd h (by omega)⟩

theorem foldl_enterPos_keeps (l : List Nat) (o : OpState) :
    (l.foldl enterPos o).slots = o.slots ∧ (l.foldl enterPos o).kpos = o.kpos ∧ o.f ≤ (l.foldl enterPos o).f := by
  induction l generalizing o with
  | nil => exact ⟨rfl, rfl, le_refl _⟩
  | cons t r ih =>
    obtain ⟨h1, h2, h3⟩ := ih (enterPos o t)
    obtain ⟨h4, h5⟩ := enterPos_keeps o t
    exact ⟨h1.trans h4, h2.trans h5, (enterPos_frontier o t).1.trans h3⟩

/-- Successive positions that begin at or before the frontier all come to lie before it. -/
theorem foldl_enterPos_passes (l : List Nat) (o : OpState) (hl : strided 1 l) (hhead : ∀ x ∈ l.head?, x ≤ o.f) :
    ∀ t ∈ l, t < (l.foldl enterPos o).f := by
  induction l generalizing o with
  | nil => simp
  | cons x r ih =>
    obtain ⟨hx, hr⟩ := List.isChain_cons.1 hl
    have hpass := (enterPos_frontier o x).2 (hhead x rfl)
    intro t ht
    rcases List.mem_cons.1 ht with rfl | ht
    · exact hpass.trans_le (foldl_enterPos_keeps r _).2.2
    · exact ih (enterPos o x) hr (fun y hy => by rw [hx y hy]; exact hpass) t ht

theorem strided_head_le {s x : Nat} {r : List Nat} (h : strided s (x :: r)) : ∀ t ∈ x :: r, x ≤ t := by
  induction r generalizing x with
  | nil => simp
  | cons y r ih =>
    obtain ⟨hx, hr⟩ := List.isChain_cons.1 h
    have hy : y = x + s := hx y rfl
    intro t ht
    rcases List.mem_cons.1 ht with rfl | ht
    · exact le_refl _
    · exact (by omega : x ≤ y).trans (ih hr t ht)

/-! ### A unit that completes -/

/-- What is left of an operator's state when its unit completes (R93, R104, R105). -/
def completedState (d : OpDesc) (st : OpState) (u : ArmUnit) : OpState :=
  let ps := u.pos d
  let st := if d.qd ≠ 0 then { st with slots := st.slots ++ [{ step := u.step, pos := ps }] } else ps.foldl enterPos st
  let need := st.need.filter (stillNeeded d st ps)
  { st with need := need, had := (unionPos ps st.had).filter (inSet need), arm := none }

theorem completedState_keeps (d : OpDesc) (st : OpState) (u : ArmUnit) :
    (completedState d st u).arm = none ∧ (completedState d st u).kpos = st.kpos := by
  refine ⟨rfl, ?_⟩
  simp only [completedState]
  split
  · rfl
  · exact (foldl_enterPos_keeps _ st).2.1

/-- With a queue, the outputs of the unit take a slot of it. -/
theorem completedState_queued {d : OpDesc} (h : d.qd ≠ 0) (st : OpState) (u : ArmUnit) :
    (completedState d st u).slots = st.slots ++ [{ step := u.step, pos := u.pos d }]
    ∧ ∀ t ∈ u.pos d, produced d (completedState d st u) t = true := by
  have hslots : (completedState d st u).slots = st.slots ++ [{ step := u.step, pos := u.pos d }] := by
    simp only [completedState, if_pos h]
  refine ⟨hslots, fun t ht => ?_⟩
  rw [produced, if_pos h, hslots]
  simp only [List.any_append, List.any_cons, List.contains_eq_mem, ht, decide_true, Bool.true_or, Bool.or_true]

/-- Without a queue, a unit that begins at the frontier with stride 1 moves it past its positions. -/
theorem completedState_unqueued {d : OpDesc} (h : d.qd = 0) (st : OpState) (u : ArmUnit) :
    (completedState d st u).slots = st.slots
    ∧ (u.stride = 1 → st.f = d.origin + u.step * d.t + u.first → ∀ t ∈ u.pos d, produced d (completedState d st u) t = true) := by
  have hq : ¬ d.qd ≠ 0 := not_not.2 h
  have hst : (completedState d st u).slots = ((u.pos d).foldl enterPos st).slots ∧ (completedState d st u).f = ((u.pos d).foldl enterPos st).f := by
    simp only [completedState, if_neg hq, and_self]
  refine ⟨hst.1.trans (foldl_enterPos_keeps _ _).1, fun hs hf t ht => ?_⟩
  have hreg : regular (unitProg d u) := by simp only [unitProg, hs]; exact regular_stride_one _ _
  have hstrided : strided 1 (u.pos d) := hs ▸ strided_list (regular_not_ragged hreg)
  obtain ⟨ha, hb, -⟩ := (mem_iff _ _).1 ((mem_pos u d t).1 ht)
  simp only [unitProg] at ha hb
  have hfirst : st.f ∈ u.pos d := by
    rw [mem_pos, hf, regular_mem_iff hreg]
    exact ⟨le_refl _, by simp only [unitProg]; omega, by simp [unitProg]⟩
  have hhead : ∀ x ∈ (u.pos d).head?, x ≤ st.f := fun x hx => by
    obtain ⟨r, hr⟩ := List.head?_eq_some_iff.1 hx
    rw [hr] at hstrided hfirst
    exact strided_head_le hstrided _ hfirst
  have hlt := foldl_enterPos_passes (u.pos d) st hstrided hhead t ht
  rw [produced, if_neg hq, hst.2]
  simp only [Bool.or_eq_true, Bool.and_eq_true, decide_eq_true_eq]
  exact .inl ⟨by omega, hlt⟩

theorem completeUnit_eq {x : Part} {slot o : Nat} {g : Graph} {u : ArmUnit} (hg : tfind x.graphs slot = some g) (hu : (stAt g o).arm = some u) :
    completeUnit x slot o = recordPositions (leaveSlot
      { x with graphs := tput x.graphs slot (putSt g o (completedState (opAt g o) (stAt g o) u)) } u.cell) slot o (u.pos (opAt g o)) := by
  simp only [completeUnit, hg]
  split
  · next hnone => rw [hnone] at hu; simp at hu
  · next u' hsome =>
    obtain rfl := Option.some.inj (hsome.symm.trans hu)
    rfl

/-! ### Demands of which positions are recorded -/

/-- A demand of the slot once positions of an operator have been produced (R115). -/
def recordedDemand (slot o : Nat) (ps : List Nat) (d : Demand) : Demand :=
  if d.slot = slot && d.live then
    let left := d.left.map (fun c => if c.1.toNat = o then (c.1, c.2.filter (fun t => !ps.contains t)) else c)
    let d := { d with left := left }
    if d.opx.toNat = o then d.got ps else d
  else d

theorem tfind_map {α β : Type} (f : α → β) (t : Table α) (k : Nat) : tfind (t.map (fun e => (e.1, f e.2))) k = (tfind t k).map f := by
  induction t with
  | nil => rfl
  | cons e r ih => simp only [List.map_cons, tfind, ih]; split <;> rfl

theorem tfind_recordPositions (x : Part) (slot o : Nat) (ps : List Nat) (k : Nat) :
    tfind (recordPositions x slot o ps).demands k = (tfind x.demands k).map (recordedDemand slot o ps) := by
  rw [← tfind_map]
  refine congrArg (fun t => tfind t k) (List.map_congr_left fun e _ => ?_)
  simp only [recordedDemand]
  split <;> rfl

theorem sat32_toNat (n : Nat) : (sat32 n).toNat = min n (2 ^ 32 - 1) := by
  unfold sat32
  split
  · rw [BitVec.toNat_ofNat, Nat.mod_eq_of_lt (by omega)]
    omega
  · rw [show (0xFFFFFFFF : Word).toNat = 2 ^ 32 - 1 from rfl]
    omega

theorem recordedDemand_spec {slot o : Nat} {d : Demand} (ps : List Nat) (hs : d.slot = slot) (hd : d.done = false) :
    let d' := recordedDemand slot o ps d
    d'.done = false ∧ (∀ c ∈ d'.left, c.1.toNat = o → ∀ t ∈ c.2, t ∉ ps)
    ∧ (d.opx.toNat = o → d'.lack = d.lack.filter (fun t => !ps.contains t) ∧ d'.dpos.toNat = min (d.total - d'.lack.length) (2 ^ 32 - 1))
    ∧ (d.opx.toNat ≠ o → d'.lack = d.lack ∧ d'.dpos = d.dpos) := by
  have hleft : ∀ c ∈ d.left.map (fun c => if c.1.toNat = o then (c.1, c.2.filter (fun t => !ps.contains t)) else c),
      c.1.toNat = o → ∀ t ∈ c.2, t ∉ ps := by
    intro c hc ho t ht
    obtain ⟨c', -, rfl⟩ := List.mem_map.1 hc
    by_cases hc : c'.1.toNat = o
    · rw [if_pos hc] at ht
      simpa using (List.mem_filter.1 ht).2
    · rw [if_neg hc] at ho
      exact absurd ho hc
  have hcond : (decide (d.slot = slot) && d.live) = true := by simp [hs, Demand.live, hd]
  simp only [recordedDemand, if_pos hcond]
  by_cases ho : d.opx.toNat = o
  · rw [if_pos ho]
    exact ⟨hd, hleft, fun _ => ⟨rfl, sat32_toNat _⟩, fun h => absurd ho h⟩
  · rw [if_neg ho]
    exact ⟨hd, hleft, fun h => absurd h ho, fun _ => ⟨rfl, rfl⟩⟩

/-! ### The recording step of a unit -/

/-- A word with bit 63 cleared (R96). -/
theorem setBits_clear_v (w : DWord) : setBits w 63 1 0 = w &&& 0x7FFFFFFFFFFFFFFF := by
  apply BitVec.eq_of_toNat_eq
  have := w.isLt
  rw [BitVec.toNat_and, show (0x7FFFFFFFFFFFFFFF : DWord).toNat = 2 ^ 63 - 1 from rfl, Nat.and_two_pow_sub_one_eq_mod]
  simp only [setBits, bitsN, BitVec.toNat_ofNat]
  omega

section
variable {fins earlies : List (BitVec 8)} {done : Nat → Bool} {slot o : Nat} {x : Part} {g : Graph} {u : ArmUnit}

/-- A unit that has run one more committed round (R115, R121). -/
def countedUnit (earlies : List (BitVec 8)) (o : Nat) (u : ArmUnit) : ArmUnit :=
  { u with rcnt := u.rcnt + 1, fresh := false, trig := u.trig || earlies.contains (BitVec.ofNat 8 o) }

/-- Its operator's state: KPOS follows the unit where the class carries state (R121). -/
def countedState (earlies : List (BitVec 8)) (o : Nat) (d : OpDesc) (st : OpState) (u : ArmUnit) : OpState :=
  { st with arm := some (countedUnit earlies o u)
            kpos := if d.scls = 2 || d.scls = 4 then d.origin + u.step * d.t + u.last + 1 else st.kpos }

/-- The graph with one more committed round counted for a unit. -/
def countedGraph (earlies : List (BitVec 8)) (o : Nat) (g : Graph) (u : ArmUnit) : Graph :=
  putSt g o (countedState earlies o (opAt g o) (stAt g o) u)

theorem recordUnit_eq (hg : tfind x.graphs slot = some g) (hu : (stAt g o).arm = some u) :
    recordUnit fins earlies done slot x o =
      if (opAt g o).rounds = 1 || fins.contains (BitVec.ofNat 8 o) || done o then
        completeUnit { x with graphs := tput x.graphs slot (countedGraph earlies o g u) } slot o
      else { x with graphs := tput x.graphs slot (countedGraph earlies o g u)
                    armSlots := tset 0 x.armSlots u.cell (armWordOf slot o (countedUnit earlies o u)) } := by
  simp only [recordUnit, hg, hu]
  rfl

/-- The graph after its unit has completed with that round. -/
def completedGraph (earlies : List (BitVec 8)) (o : Nat) (g : Graph) (u : ArmUnit) : Graph :=
  putSt (countedGraph earlies o g u) o
    (completedState (opAt g o) (countedState earlies o (opAt g o) (stAt g o) u) (countedUnit earlies o u))

/-- What the recording step makes of a partition of which a unit completes. -/
def completedPart (earlies : List (BitVec 8)) (slot o : Nat) (x : Part) (g : Graph) (u : ArmUnit) : Part :=
  recordPositions (leaveSlot { x with
    graphs := tput (tput x.graphs slot (countedGraph earlies o g u)) slot (completedGraph earlies o g u) } u.cell) slot o (u.pos (opAt g o))

theorem recordUnit_completes (hg : tfind x.graphs slot = some g) (hu : (stAt g o).arm = some u)
    (h : (opAt g o).rounds = 1 ∨ BitVec.ofNat 8 o ∈ fins ∨ done o = true) :
    recordUnit fins earlies done slot x o = completedPart earlies slot o x g u := by
  have harm : (stAt (countedGraph earlies o g u) o).arm = some (countedUnit earlies o u) := by rw [countedGraph, stAt_putSt, if_pos rfl]; rfl
  have hst : stAt (countedGraph earlies o g u) o = countedState earlies o (opAt g o) (stAt g o) u := by rw [countedGraph, stAt_putSt, if_pos rfl]
  rw [recordUnit_eq hg hu, if_pos (by simpa [or_assoc] using h),
    completeUnit_eq (g := countedGraph earlies o g u) ((tfind_tput _ _ _ _).trans (if_pos rfl)) harm, hst]
  rfl

theorem recordUnit_stays (hg : tfind x.graphs slot = some g) (hu : (stAt g o).arm = some u)
    (h : ¬ ((opAt g o).rounds = 1 ∨ BitVec.ofNat 8 o ∈ fins ∨ done o = true)) :
    recordUnit fins earlies done slot x o = { x with graphs := tput x.graphs slot (countedGraph earlies o g u)
                                                     armSlots := tset 0 x.armSlots u.cell (armWordOf slot o (countedUnit earlies o u)) } := by
  rw [recordUnit_eq hg hu, if_neg (by simpa [or_assoc] using h)]

/-- All that the recording step can make of a partition for one operator. -/
theorem recordUnit_cases (fins earlies : List (BitVec 8)) (done : Nat → Bool) (slot : Nat) (x : Part) (o : Nat) :
    recordUnit fins earlies done slot x o = x ∨ ∃ g u, tfind x.graphs slot = some g ∧ (stAt g o).arm = some u
      ∧ (recordUnit fins earlies done slot x o = { x with graphs := tput x.graphs slot (countedGraph earlies o g u)
                                                          armSlots := tset 0 x.armSlots u.cell (armWordOf slot o (countedUnit earlies o u)) }
        ∨ recordUnit fins earlies done slot x o = completedPart earlies slot o x g u) := by
  cases hg : tfind x.graphs slot with
  | none => exact .inl (by simp only [recordUnit, hg])
  | some g =>
    cases hu : (stAt g o).arm with
    | none => exact .inl (by simp only [recordUnit, hg, hu])
    | some u =>
      by_cases h : (opAt g o).rounds = 1 ∨ BitVec.ofNat 8 o ∈ fins ∨ done o = true
      · exact .inr ⟨g, u, rfl, hu, .inr (recordUnit_completes hg hu h)⟩
      · exact .inr ⟨g, u, rfl, hu, .inl (recordUnit_stays hg hu h)⟩

theorem stAt_countedGraph (o' : Nat) : stAt (countedGraph earlies o g u) o'
    = if o' = o then countedState earlies o (opAt g o) (stAt g o) u else stAt g o' := stAt_putSt _ _ _ _

theorem stAt_completedGraph (o' : Nat) : stAt (completedGraph earlies o g u) o' = if o' = o then
    completedState (opAt g o) (countedState earlies o (opAt g o) (stAt g o) u) (countedUnit earlies o u) else stAt g o' := by
  rw [completedGraph, stAt_putSt, stAt_countedGraph]
  split <;> rfl

theorem completedPart_graph : tfind (completedPart earlies slot o x g u).graphs slot = some (completedGraph earlies o g u) :=
  (tfind_tput _ _ _ _).trans (if_pos rfl)

theorem completedPart_slots (cell : Nat) : tget 0 (completedPart earlies slot o x g u).armSlots cell =
    if cell = u.cell then tget 0 x.armSlots u.cell &&& 0x7FFFFFFFFFFFFFFF else tget 0 x.armSlots cell := by
  rw [← setBits_clear_v]
  exact tget_tset _ _ _ _ _

theorem completedPart_demands (k : Nat) : tfind (completedPart earlies slot o x g u).demands k
    = (tfind x.demands k).map (recordedDemand slot o (u.pos (opAt g o))) := tfind_recordPositions _ _ _ _ _

end

end Sys2Proof.Laws
end

section
/-! SUPPORT. The trigger and the completion of a demand (R95, R115), and what the Rein unit leaves alone in a partition and in a graph. -/

namespace Sys2Proof.Laws

open Sys2Proof.Machine

/-! ### The trigger and the completion of a demand -/

/-- The armed units with their operators and positions. -/
def armedUnits (g : Graph) : List (Nat × ArmUnit × List Nat) := (opxs g).filterMap (fun o => (stAt g o).arm.map (fun u => (o, u, u.pos (opAt g o))))

theorem mem_armedUnits (g : Graph) (o : Nat) (u : ArmUnit) (ps : List Nat) :
    (o, u, ps) ∈ armedUnits g ↔ o < g.ops.length ∧ (stAt g o).arm = some u ∧ ps = u.pos (opAt g o) := by
  simp only [armedUnits, List.mem_filterMap, mem_opxs, Option.map_eq_some_iff, Prod.mk.injEq]
  constructor
  · rintro ⟨o', ho, u', hu, rfl, rfl, rfl⟩
    exact ⟨ho, hu, rfl⟩
  · rintro ⟨ho, hu, rfl⟩
    exact ⟨o, ho, u, hu, rfl, rfl, rfl⟩

/-- The armed unit of an operator holds a position of the demand's cone. -/
def holdsCone (g : Graph) (d : Demand) (o : Nat) (u : ArmUnit) : Prop :=
  o < g.ops.length ∧ (stAt g o).arm = some u ∧ ∃ t ∈ u.pos (opAt g o), t ∈ coneAt d.cone o

/-- The armed units that hold a position of the demand's cone. -/
def coneUnits (g : Graph) (d : Demand) : List (Nat × ArmUnit × List Nat) := (armedUnits g).filter (fun u => meets u.2.2 (coneAt d.cone u.1))

theorem mem_coneUnits (g : Graph) (d : Demand) (o : Nat) (u : ArmUnit) (ps : List Nat) :
    (o, u, ps) ∈ coneUnits g d ↔ holdsCone g d o u ∧ ps = u.pos (opAt g o) := by
  simp only [coneUnits, List.mem_filter, mem_armedUnits, meets_iff, holdsCone]
  constructor
  · rintro ⟨⟨ho, hu, rfl⟩, h⟩
    exact ⟨⟨ho, hu, h⟩, rfl⟩
  · rintro ⟨⟨ho, hu, h⟩, rfl⟩
    exact ⟨⟨ho, hu, rfl⟩, h⟩

/-- Does the demand trigger now? -/
def triggersNow (g : Graph) (d : Demand) : Bool := (coneUnits g d).all (fun u => u.2.1.trig)
  && d.left.all (fun c => c.2.all (fun t => (armedUnits g).any (fun u => u.1 = c.1.toNat && u.2.2.contains t)))

/-- Does it complete now? -/
def completesNow (g : Graph) (d : Demand) : Bool := d.left.all (fun c => c.2.isEmpty) && (coneUnits g d).isEmpty

theorem triggersNow_iff (g : Graph) (d : Demand) : triggersNow g d = true ↔ (∀ o u, holdsCone g d o u → u.trig = true)
    ∧ ∀ c ∈ d.left, ∀ t ∈ c.2, ∃ u, c.1.toNat < g.ops.length ∧ (stAt g c.1.toNat).arm = some u ∧ t ∈ u.pos (opAt g c.1.toNat) := by
  have hcone : (coneUnits g d).all (fun u => u.2.1.trig) = true ↔ ∀ o u, holdsCone g d o u → u.trig = true := by
    simp only [List.all_eq_true, Prod.forall, mem_coneUnits]
    exact ⟨fun h o u hu => h o u _ ⟨hu, rfl⟩, fun h o u ps hu => h o u hu.1⟩
  have harmed : ∀ o t, (armedUnits g).any (fun u => u.1 = o && u.2.2.contains t) = true
      ↔ ∃ u, o < g.ops.length ∧ (stAt g o).arm = some u ∧ t ∈ u.pos (opAt g o) := by
    intro o t
    simp only [List.any_eq_true, Prod.exists, mem_armedUnits, Bool.and_eq_true, decide_eq_true_eq, List.contains_eq_mem]
    constructor
    · rintro ⟨o', u, ps, ⟨ho, hu, rfl⟩, rfl, ht⟩
      exact ⟨u, ho, hu, ht⟩
    · rintro ⟨u, ho, hu, ht⟩
      exact ⟨o, u, _, ⟨ho, hu, rfl⟩, rfl, ht⟩
  simp only [triggersNow, Bool.and_eq_true, hcone, List.all_eq_true, harmed]

theorem completesNow_iff (g : Graph) (d : Demand) : completesNow g d = true ↔ (∀ c ∈ d.left, c.2 = []) ∧ ∀ o u, ¬ holdsCone g d o u := by
  have hcone : coneUnits g d = [] ↔ ∀ o u, ¬ holdsCone g d o u := by
    simp only [List.eq_nil_iff_forall_not_mem, Prod.forall, mem_coneUnits]
    exact ⟨fun h o u hu => h o u _ ⟨hu, rfl⟩, fun h o u ps hu => h o u hu.1⟩
  simp only [completesNow, Bool.and_eq_true, List.all_eq_true, List.isEmpty_iff, hcone]

/-- A demand that completes has triggered. -/
theorem triggersNow_of_completesNow {g : Graph} {d : Demand} (h : completesNow g d = true) : triggersNow g d = true := by
  obtain ⟨hleft, hnone⟩ := (completesNow_iff g d).1 h
  exact (triggersNow_iff g d).2 ⟨fun o u hu => absurd hu (hnone o u), fun c hc t ht => by simp [hleft c hc] at ht⟩

theorem checkDemand_eq {d : Demand} (g : Graph) (x : Part) (k : Nat) (hp : d.planned = true) (hd : d.done = false) :
    checkDemand g x (k, d) =
      let y := if triggersNow g d then modDemand x k (fun d => { d with trig := true }) else x
      if completesNow g d then finishDemand y k false else y := by
  rw [checkDemand, if_neg (by simp [hp, hd])]
  rfl

theorem checkDemand_over {d : Demand} (g : Graph) (x : Part) (k : Nat) (h : ¬ (d.planned = true ∧ d.done = false)) : checkDemand g x (k, d) = x := by
  rw [checkDemand, if_pos (by simpa [or_iff_not_imp_left] using h)]

theorem finishDemand_eq {x : Part} {k : Nat} {d : Demand} (c : Bool) (hd : tfind x.demands k = some d) (hn : d.done = false) :
    finishDemand x k c = countDone (modDemand x k (fun d => { d with done := true, trig := d.trig || !c, canc := c })) d c := by
  simp [finishDemand, hd, hn]

/-- A demand that completes is counted in its graph's record (R95). -/
theorem finishDemand_completes {x : Part} {k : Nat} {d : Demand} (hd : tfind x.demands k = some d) (hn : d.done = false) :
    tfind (finishDemand x k false).demands k = some { d with done := true, trig := true, canc := false }
    ∧ (finishDemand x k false).graphs = tmod x.graphs d.slot (fun g => { g with cmpl := inc32 g.cmpl }) := by
  rw [finishDemand_eq false hd hn]
  exact ⟨by simp [countDone, modDemand, hd], rfl⟩

/-- What the check of a demand makes of it and of its graph's count (R115). -/
theorem checkDemand_spec {g : Graph} {x : Part} {k : Nat} {d : Demand} (hd : tfind x.demands k = some d) (hp : d.planned = true)
    (hn : d.done = false) : ∃ d', tfind (checkDemand g x (k, d)).demands k = some d' ∧ d'.done = completesNow g d
      ∧ d'.trig = (d.trig || triggersNow g d) ∧ (completesNow g d = true → d'.canc = false)
      ∧ ∀ h, tfind x.graphs d.slot = some h → ∃ h', tfind (checkDemand g x (k, d)).graphs d.slot = some h'
          ∧ h'.cmpl = if completesNow g d then h.cmpl + 1 else h.cmpl := by
  rw [checkDemand_eq g x k hp hn]
  cases hc : completesNow g d
  · cases ht : triggersNow g d
    · exact ⟨d, by simpa using hd, hn, by simp, by simp, fun h hh => ⟨h, by simpa using hh, rfl⟩⟩
    · exact ⟨{ d with trig := true }, by simp [modDemand, hd], hn, by simp, by simp, fun h hh => ⟨h, by simpa [modDemand] using hh, rfl⟩⟩
  · have ht := triggersNow_of_completesNow hc
    have hd' : tfind (modDemand x k (fun d => { d with trig := true })).demands k = some { d with trig := true } := by simp [modDemand, hd]
    obtain ⟨h1, h2⟩ := finishDemand_completes hd' hn
    simp only [ht, if_true]
    refine ⟨_, h1, rfl, by simp, fun _ => rfl, fun h hh => ⟨{ h with cmpl := inc32 h.cmpl }, ?_, rfl⟩⟩
    rw [h2, tfind_tmod, if_pos rfl]
    exact congrArg (Option.map _) hh

/-! ### What the Rein unit leaves alone in a partition -/

/-- A partition without what the Rein unit works on: its graphs, demands and arm slots, and the counts of its jobs and phase. -/
def reinKept (x : Part) : Part := { x with graphs := [], demands := [], armSlots := [], jobs := [], phCmpl := 0 }

theorem reinKept_foldl {α : Type} {f : Part → α → Part} (hf : ∀ x a, reinKept (f x a) = reinKept x) (l : List α) (x : Part) :
    reinKept (l.foldl f x) = reinKept x := by
  induction l generalizing x with
  | nil => rfl
  | cons a r ih => exact (ih _).trans (hf x a)

theorem finishDemand_kept (x : Part) (k : Nat) (c : Bool) : reinKept (finishDemand x k c) = reinKept x := by
  unfold finishDemand
  (repeat' split) <;> rfl

theorem checkDemand_kept (g : Graph) (x : Part) (e : Nat × Demand) : reinKept (checkDemand g x e) = reinKept x := by
  obtain ⟨k, d⟩ := e
  by_cases h : d.planned = true ∧ d.done = false
  · rw [checkDemand_eq g x k h.1 h.2]
    dsimp only
    (repeat' split)
    · exact finishDemand_kept _ _ _
    · exact finishDemand_kept _ _ _
    · rfl
    · rfl
  · rw [checkDemand_over g x k h]

theorem checkSlot_kept (x : Part) (slot : Nat) : reinKept (checkSlot x slot) = reinKept x := by
  unfold checkSlot
  split
  · rfl
  · exact reinKept_foldl (checkDemand_kept _) _ _

theorem planOne_kept (hf : Nat → Nat) (x : Part) (slot k : Nat) : reinKept (planOne hf x slot k) = reinKept x := by
  unfold planOne
  (repeat' split) <;> rfl

theorem planWaiting_kept (hf : Nat → Nat) (x : Part) (slot : Nat) : reinKept (planWaiting hf x slot) = reinKept x := by
  unfold planWaiting
  split
  · rfl
  · exact (reinKept_foldl (f := fun x k => planOne hf x slot k) (fun x k => planOne_kept hf x slot k) _ x)

theorem replan_kept (hf : Nat → Nat) (x : Part) (slot : Nat) : reinKept (replan hf x slot) = reinKept x := by
  unfold replan
  split
  · rfl
  · next g _ =>
    dsimp only
    have hplan : ∀ (l : List (Nat × Demand)) (y : Part), reinKept y = reinKept x →
        reinKept (l.foldl (fun x e => planOne hf x slot e.1) y) = reinKept x :=
      fun l y hy => (reinKept_foldl (fun x e => planOne_kept hf x slot e.1) l y).trans hy
    split
    · exact hplan _ _ rfl
    · refine (reinKept_foldl ?_ _ _).trans (hplan _ _ rfl)
      exact fun _ _ => rfl

theorem abandon_kept (x : Part) (slot : Nat) : reinKept (abandon x slot) = reinKept x := by
  unfold abandon
  split
  · rfl
  · refine reinKept_foldl (fun x o => ?_) _ _
    dsimp only
    (repeat' split) <;> rfl

theorem applyCancels_kept (hf : Nat → Nat) (x : Part) (slot : Nat) (cs : List CancelReq) : reinKept (applyCancels hf x slot cs) = reinKept x := by
  simp only [applyCancels]
  split
  · rfl
  · rw [abandon_kept, replan_kept]
    exact reinKept_foldl (f := fun x (e : Nat × Demand) => finishDemand x e.1 true) (fun x e => finishDemand_kept x e.1 true) _ _

theorem armOp_kept (hf : Nat → Nat) (slot : Nat) (x : Part) (o : Nat) : reinKept (armOp hf slot x o) = reinKept x := by
  cases hg : tfind x.graphs slot with
  | none => simp only [armOp, hg]
  | some g =>
    by_cases h : (stAt g o).arm = none
    · rw [armOp_eq hg h]
      split <;> rfl
    · rw [armOp_armed hg h]

theorem armGraph_kept (hf : Nat → Nat) (x : Part) (slot : Nat) : reinKept (armGraph hf x slot) = reinKept x := by
  unfold armGraph
  split
  · rfl
  · exact reinKept_foldl (armOp_kept hf slot) _ _

theorem recordUnit_kept (fins earlies : List (BitVec 8)) (done : Nat → Bool) (slot : Nat) (x : Part) (o : Nat) :
    reinKept (recordUnit fins earlies done slot x o) = reinKept x := by
  rcases recordUnit_cases fins earlies done slot x o with h | ⟨g, u, -, -, h | h⟩ <;> rw [h] <;> rfl

/-! ### The same in the state -/

/-- The partition is as it was but for what the Rein unit works on. -/
def reinOnly (p : Nat) (s t : State) : Prop := reinKept (partOf t p) = reinKept (partOf s p)

theorem reinOnly_putPart {s : State} {p : Nat} {x : Part} (h : reinKept x = reinKept (partOf s p)) : reinOnly p s (putPart s p x) := by
  rw [reinOnly, partOf_putPart, if_pos rfl]
  exact h

theorem reinOnly_modGraph (s : State) (p slot : Nat) (f : Graph → Graph) : reinOnly p s (modGraph s p slot f) := reinOnly_putPart rfl

theorem raisePromotions_parts (s : State) (p slot : Nat) : (raisePromotions s p slot).parts = s.parts := by
  unfold raisePromotions
  split
  · rfl
  · refine foldl_keeps (·.parts) ?_ _ _
    exact fun _ _ => rfl

theorem reinOnly_armOnce (s : State) (p slot : Nat) (g : Graph) : reinOnly p s (armOnce s p slot g) := by
  rw [reinOnly, armOnce, partOf_of_parts (raisePromotions_parts _ _ _)]
  exact (reinOnly_modGraph _ p slot settle).trans (reinOnly_putPart (armGraph_kept _ _ _))

theorem reinOnly_armIdle (s : State) (p slot : Nat) : reinOnly p s (armIdle s p slot) := by
  unfold armIdle
  split
  · rfl
  · next g _ =>
    split
    · rfl
    · dsimp only
      have harm := reinOnly_armOnce s p slot g
      split
      · exact harm
      · split
        · exact harm
        · exact ((reinOnly_armOnce _ p slot _).trans (reinOnly_putPart ((checkSlot_kept _ _).trans (planWaiting_kept _ _ _)))).trans harm

theorem reinOnly_armReleased (s : State) (p : Nat) (before : List Nat) : reinOnly p s (armReleased s p before) :=
  foldl_keeps (fun s => reinKept (partOf s p)) (fun s slot => reinOnly_armIdle s p slot) _ s

theorem reinOnly_cancelSlot (s : State) (p slot : Nat) : reinOnly p s (cancelSlot s p slot) := by
  unfold cancelSlot
  split
  · rfl
  · refine (reinOnly_armReleased _ p _).trans (reinOnly_putPart ?_)
    exact (abandon_kept _ _).trans (applyCancels_kept _ _ _ _)

theorem reinOnly_stopGraph (s : State) (p slot : Nat) : reinOnly p s (stopGraph s p slot) :=
  (reinOnly_modGraph _ p slot _).trans (reinOnly_cancelSlot s p slot)

/-- What a partition holds of queued reports and of the boundary that is asked for is none of the Rein unit's work. -/
theorem reinOnly_reports {s t : State} {p : Nat} (h : reinOnly p s t) :
    (partOf t p).faultQ = (partOf s p).faultQ ∧ (partOf t p).bndReq = (partOf s p).bndReq := by
  have hq := congrArg Part.faultQ (show reinKept _ = reinKept _ from h)
  have hb := congrArg Part.bndReq (show reinKept _ = reinKept _ from h)
  exact ⟨hq, hb⟩

end Sys2Proof.Laws
end

section
/-! SUPPORT. The boundary of a committed round: the recording step, and what follows it (R93, R107, R114, R132), with O48. -/

namespace Sys2Proof.Laws

open Sys2Proof.Machine

/-! ### The graph at the recording step -/

/-- Recording a unit changes nothing of a graph but the state of its operators. -/
theorem recordUnit_graph {slot : Nat} {x : Part} {g : Graph} (fins earlies : List (BitVec 8)) (done : Nat → Bool) (o : Nat)
    (hg : tfind x.graphs slot = some g) : ∃ t, tfind (recordUnit fins earlies done slot x o).graphs slot = some { g with st := t } := by
  rcases recordUnit_cases fins earlies done slot x o with h | ⟨g', u, hg', -, h | h⟩
  · exact ⟨g.st, by rw [h]; exact hg⟩
  · obtain rfl := Option.some.inj (hg.symm.trans hg')
    exact ⟨_, by rw [h]; exact (tfind_tput _ _ _ _).trans (if_pos rfl)⟩
  · obtain rfl := Option.some.inj (hg.symm.trans hg')
    exact ⟨_, by rw [h]; exact completedPart_graph⟩

theorem foldl_recordUnit_graph {slot : Nat} (fins earlies : List (BitVec 8)) (done : Nat → Bool) (l : List Nat) {x : Part} {g : Graph}
    (hg : tfind x.graphs slot = some g) :
    ∃ t, tfind (l.foldl (fun x o => recordUnit fins earlies done slot x o) x).graphs slot = some { g with st := t } := by
  induction l generalizing x g with
  | nil => exact ⟨g.st, hg⟩
  | cons o r ih =>
    obtain ⟨t, ht⟩ := recordUnit_graph fins earlies done o hg
    obtain ⟨t', ht'⟩ := ih ht
    exact ⟨t', ht'⟩

/-- A record of a checkpoint or of a horizon is noted in the table of its operator (R125). -/
def noteRecord (g : Graph) (r : Nat × Nat × Nat) : Graph :=
  modSt g r.1 (fun st => if r.2.1 < st.ck.length then { st with ck := setAt st.ck r.2.1 { v := true, time := r.2.2 } }
    else { st with hz := { v := true, time := r.2.2 } })

/-- An operator's state without its table of records. -/
def withoutRecords (st : OpState) : OpState := { st with ck := [], hz := { v := false, time := 0 } }

theorem fields_of_withoutRecords {a b : OpState} (h : withoutRecords a = withoutRecords b) : a.arm = b.arm ∧ a.need = b.need ∧ a.had = b.had
    ∧ a.f = b.f ∧ a.win = b.win ∧ a.slots = b.slots ∧ a.kpos = b.kpos :=
  ⟨(congrArg OpState.arm h :), (congrArg OpState.need h :), (congrArg OpState.had h :), (congrArg OpState.f h :), (congrArg OpState.win h :),
    (congrArg OpState.slots h :), (congrArg OpState.kpos h :)⟩

theorem withoutRecords_noteRecord (g : Graph) (r : Nat × Nat × Nat) (o : Nat) :
    withoutRecords (stAt (noteRecord g r) o) = withoutRecords (stAt g o) := by
  rw [noteRecord, stAt_modSt]
  split
  · next h =>
    subst h
    split <;> rfl
  · rfl

theorem foldl_noteRecord (l : List (Nat × Nat × Nat)) (g : Graph) : (∃ t, l.foldl noteRecord g = { g with st := t })
    ∧ ∀ o, withoutRecords (stAt (l.foldl noteRecord g) o) = withoutRecords (stAt g o) := by
  induction l generalizing g with
  | nil => exact ⟨⟨g.st, rfl⟩, fun _ => rfl⟩
  | cons r l ih =>
    obtain ⟨⟨t, ht⟩, hst⟩ := ih (noteRecord g r)
    exact ⟨⟨t, ht⟩, fun o => (hst o).trans (withoutRecords_noteRecord g r o)⟩

/-- A graph for which a committed round is counted, with its records. -/
def roundCounted (l : List (Nat × Nat × Nat)) (g : Graph) : Graph := { l.foldl noteRecord g with rcom := inc32 (l.foldl noteRecord g).rcom }

theorem roundCounted_spec (l : List (Nat × Nat × Nat)) (g : Graph) : (roundCounted l g).rcom = g.rcom + 1 ∧ (roundCounted l g).ops = g.ops
    ∧ ∀ o, withoutRecords (stAt (roundCounted l g) o) = withoutRecords (stAt g o) := by
  obtain ⟨⟨t, ht⟩, hst⟩ := foldl_noteRecord l g
  exact ⟨by rw [roundCounted, ht]; rfl, by rw [roundCounted, ht], hst⟩

/-! ### The check of demands in a graph -/

/-- The arm slots are as they were, and of a graph only the count of completed demands may differ. -/
def onlyCounts (x y : Part) : Prop :=
  y.armSlots = x.armSlots ∧ ∀ sl g, tfind x.graphs sl = some g → ∃ w, tfind y.graphs sl = some { g with cmpl := w }

theorem onlyCounts_same {x y : Part} (ha : y.armSlots = x.armSlots) (hg : y.graphs = x.graphs) : onlyCounts x y :=
  ⟨ha, fun _ g h => ⟨g.cmpl, by rw [hg]; exact h⟩⟩

theorem onlyCounts_trans {x y z : Part} (h1 : onlyCounts x y) (h2 : onlyCounts y z) : onlyCounts x z :=
  ⟨h2.1.trans h1.1, fun sl g hg => by
    obtain ⟨w, hw⟩ := h1.2 sl g hg
    obtain ⟨w', hw'⟩ := h2.2 sl _ hw
    exact ⟨w', hw'⟩⟩

theorem finishDemand_onlyCounts (x : Part) (k : Nat) (c : Bool) : onlyCounts x (finishDemand x k c) := by
  cases hd : tfind x.demands k with
  | none => simp only [finishDemand, hd]; exact onlyCounts_same rfl rfl
  | some d =>
    by_cases hn : d.done = true
    · simp only [finishDemand, hd, if_pos hn]; exact onlyCounts_same rfl rfl
    · rw [finishDemand_eq c hd (by simpa using hn)]
      refine ⟨rfl, fun sl g hg => ?_⟩
      change ∃ w, tfind (tmod x.graphs d.slot (fun g => { g with cmpl := inc32 g.cmpl })) sl = some { g with cmpl := w }
      rw [tfind_tmod, hg]
      split
      · exact ⟨_, rfl⟩
      · exact ⟨g.cmpl, rfl⟩

theorem checkDemand_onlyCounts (g : Graph) (x : Part) (e : Nat × Demand) : onlyCounts x (checkDemand g x e) := by
  obtain ⟨k, d⟩ := e
  by_cases h : d.planned = true ∧ d.done = false
  · have hy : onlyCounts x (if triggersNow g d then modDemand x k (fun d => { d with trig := true }) else x) := by
      split <;> exact onlyCounts_same rfl rfl
    rw [checkDemand_eq g x k h.1 h.2]
    dsimp only
    split
    · exact onlyCounts_trans hy (finishDemand_onlyCounts _ _ _)
    · exact hy
  · rw [checkDemand_over g x k h]
    exact onlyCounts_same rfl rfl

theorem checkSlot_onlyCounts (x : Part) (slot : Nat) : onlyCounts x (checkSlot x slot) := by
  unfold checkSlot
  split
  · exact onlyCounts_same rfl rfl
  · exact List.foldlRecOn (motive := onlyCounts x) _ _ (onlyCounts_same rfl rfl)
      (fun y hy e _ => onlyCounts_trans hy (checkDemand_onlyCounts _ y e))

/-! ### The recording step -/

/-- The units of a graph recorded for the round that its cores have run. -/
def recordedUnits (s : State) (p slot : Nat) (g : Graph) : Part :=
  (opxs g).foldl (fun x o => recordUnit (finsOf s g) (earliesOf s g) (portsDone s g) slot x o) (partOf s p)

/-- The partition at the recording step: units and records are noted, the round is counted, demands are checked. -/
def recordedPart (s : State) (p slot : Nat) (g : Graph) : Part :=
  checkSlot { recordedUnits s p slot g with
    graphs := tmod (recordedUnits s p slot g).graphs slot (roundCounted (recordsGood s p g)) } slot

theorem recordStep_eq (s : State) (p slot : Nat) (g : Graph) : recordStep s p slot g =
    modCores (putPart s p (recordedPart s p slot g)) g.cores (fun k => { k with fins := [], earlies := [], khors := [] }) := rfl

theorem partOf_recordStep (s : State) (p slot : Nat) (g : Graph) : partOf (recordStep s p slot g) p = recordedPart s p slot g := by
  rw [recordStep_eq, partOf_of_parts (modCores_parts _ _ _), partOf_putPart, if_pos rfl]

theorem reinOnly_recordStep (s : State) (p slot : Nat) (g : Graph) : reinOnly p s (recordStep s p slot g) := by
  rw [reinOnly, partOf_recordStep]
  exact (checkSlot_kept _ _).trans (reinKept_foldl (f := fun x o => recordUnit (finsOf s g) (earliesOf s g) (portsDone s g) slot x o)
    (fun x o => recordUnit_kept _ _ _ slot x o) (opxs g) (partOf s p))

/-- The recording step counts the round, and leaves the operators and arm slots as recording their units makes them, records apart. -/
theorem recordStep_spec {s : State} {p slot : Nat} {g : Graph} (hg : graphOf s p slot = some g) :
    ∃ h g1, tfind (recordedUnits s p slot g).graphs slot = some h ∧ graphOf (recordStep s p slot g) p slot = some g1
      ∧ g1.rcom = g.rcom + 1 ∧ g1.ops = g.ops ∧ (∀ o, withoutRecords (stAt g1 o) = withoutRecords (stAt h o))
      ∧ (partOf (recordStep s p slot g) p).armSlots = (recordedUnits s p slot g).armSlots := by
  obtain ⟨t, ht⟩ := foldl_recordUnit_graph (finsOf s g) (earliesOf s g) (portsDone s g) (opxs g) hg
  obtain ⟨hrcom, hops, hst⟩ := roundCounted_spec (recordsGood s p g) { g with st := t }
  obtain ⟨harm, hgraphs⟩ := checkSlot_onlyCounts { recordedUnits s p slot g with
    graphs := tmod (recordedUnits s p slot g).graphs slot (roundCounted (recordsGood s p g)) } slot
  obtain ⟨w, hw⟩ := hgraphs slot (roundCounted (recordsGood s p g) { g with st := t }) (by
    rw [tfind_tmod, if_pos rfl]
    exact congrArg (Option.map _) ht)
  have hr := partOf_recordStep s p slot g
  exact ⟨_, _, ht, (congrArg (fun x : Part => tfind x.graphs slot) hr).trans hw, hrcom, hops, hst, (congrArg Part.armSlots hr).trans harm⟩

/-! ### Units that have run all their rounds -/

theorem foldl_queueReport_faultQ {F : State → Nat → Report} {p : Nat} (l : List Nat) (s : State) :
    ∃ q, partOf (l.foldl (fun s o => queueReport s p true (F s o)) s) p = { partOf s p with faultQ := (partOf s p).faultQ ++ q }
      ∧ List.Forall₂ (fun r o => ∃ t, r = F t o) q l := by
  induction l generalizing s with
  | nil => exact ⟨[], by simp, .nil⟩
  | cons o r ih =>
    obtain ⟨q, hq, hall⟩ := ih (queueReport s p true (F s o))
    refine ⟨F s o :: q, ?_, .cons ⟨s, rfl⟩ hall⟩
    rw [List.foldl_cons, hq, partOf_queueReport]
    simp

theorem roundsReports_fields {p slot : Nat} {g : Graph} {q : List Report} {os : List Nat}
    (h : List.Forall₂ (fun r o => ∃ t, r = roundsReport t p slot g o) q os) :
    q.map (·.opx) = os.map (BitVec.ofNat 8) ∧ ∀ r ∈ q, r.cls = 10 ∧ r.detail = 2 ∧ r.slot = BitVec.ofNat 6 slot := by
  induction h with
  | nil => simp
  | cons hr _ ih =>
    obtain ⟨t, rfl⟩ := hr
    obtain ⟨h1, h2⟩ := ih
    refine ⟨by rw [List.map_cons, List.map_cons, h1]; rfl, fun r hr => ?_⟩
    rcases List.mem_cons.1 hr with rfl | hr
    · exact ⟨rfl, rfl, rfl⟩
    · exact h2 r hr

theorem startGap_reports (s : State) (p : Nat) :
    (partOf (startGap s p) p).faultQ = (partOf s p).faultQ ∧ (partOf (startGap s p) p).bndReq = (partOf s p).bndReq := by
  rw [startGap, partOf_modPart, if_pos rfl]
  exact ⟨rfl, rfl⟩

/-- Each unit that has run ROUNDS rounds is reported, and a boundary is asked for (R114). -/
theorem deadlineRounds_reports (s : State) (p slot : Nat) (g : Graph) (os : List Nat) :
    ∃ q, (partOf (deadlineRounds s p slot g os) p).faultQ = (partOf s p).faultQ ++ q ∧ (partOf (deadlineRounds s p slot g os) p).bndReq = true
      ∧ List.Forall₂ (fun r o => ∃ t, r = roundsReport t p slot g o) q os := by
  obtain ⟨q, hq, hall⟩ := foldl_queueReport_faultQ (F := fun s o => roundsReport s p slot g o) (p := p) os s
  have hstop := (reinOnly_reports (reinOnly_stopGraph (os.foldl (fun s o => queueReport s p true (roundsReport s p slot g o)) s) p slot)).1
  refine ⟨q, ?_, ?_, hall⟩
  · rw [deadlineRounds, partOf_modPart, if_pos rfl]
    exact hstop.trans (by rw [hq])
  · rw [deadlineRounds, partOf_modPart, if_pos rfl]

/-! ### What follows the recording step -/

section
variable {s : State} {part slot : BitVec 6} {g g1 : Graph}

/-- The pace that is asked for takes effect. -/
def paceTaken (s : State) (p : Nat) : State := modPart s p (fun x => { x with pace := x.paceNext })

theorem graphOf_paceTaken (s : State) (p k : Nat) : graphOf (paceTaken s p) p k = graphOf s p k := by
  rw [graphOf, paceTaken, partOf_modPart, if_pos rfl]
  rfl

theorem releasedAccs_paceTaken (s : State) (p : Nat) : releasedAccs (partOf (paceTaken s p) p) = releasedAccs (partOf s p) := by
  rw [paceTaken, partOf_modPart, if_pos rfl]
  rfl

/-- The recording step of a boundary, with the pace that takes effect at it. -/
def boundaryRecorded (s : State) (p slot : Nat) (g : Graph) : State := recordStep (paceTaken s p) p slot g

theorem boundaryRecorded_faultQ (s : State) (p slot : Nat) (g : Graph) :
    (partOf (boundaryRecorded s p slot g) p).faultQ = (partOf s p).faultQ := by
  rw [boundaryRecorded, (reinOnly_reports (reinOnly_recordStep (paceTaken s p) p slot g)).1, paceTaken, partOf_modPart, if_pos rfl]

section
variable (hg : graphOf s part.toNat slot.toNat = some g) (hrun : g.run = .boundary) (hvoid : g.lastVoid = false)
  (h1 : graphOf (boundaryRecorded s part.toNat slot.toNat g) part.toNat slot.toNat = some g1)
include hg hrun hvoid h1

theorem roundBoundary_after_commit :
    let p := part.toNat
    let sl := slot.toNat
    let r := boundaryRecorded s p sl g
    let before := releasedAccs (partOf s p)
    exec (.roundBoundary part slot) s = .next (
      if g1.stopNext then startGap (armReleased (stopGraph r p sl) p before) p
      else match overRounds g1 with
        | o :: os => startGap (armReleased (deadlineRounds r p sl g1 (o :: os)) p before) p
        | [] => openSection (armReleased (admitLate (armStep (planAndCancel r p sl) p sl) p sl) p before) p sl) := by
  intro p sl r before
  change execRoundBoundary part slot s = _
  simp only [execRoundBoundary, hg, hrun, hvoid]
  have hb : before = releasedAccs (partOf (modPart s p (fun x => { x with pace := x.paceNext })) p) := (releasedAccs_paceTaken s p).symm
  rw [hb]
  change Host.Outcome.next (match graphOf r p sl with | none => r | some g => _) = _
  rw [show graphOf r p sl = some g1 from h1]
  rfl

theorem roundBoundary_stops (hstop : g1.stopNext = true) : exec (.roundBoundary part slot) s = .next (startGap
    (armReleased (stopGraph (boundaryRecorded s part.toNat slot.toNat g) part.toNat slot.toNat) part.toNat
      (releasedAccs (partOf s part.toNat))) part.toNat) := by
  rw [roundBoundary_after_commit hg hrun hvoid h1, if_pos hstop]

theorem roundBoundary_goes_on (hstop : g1.stopNext = false) (hover : overRounds g1 = []) : exec (.roundBoundary part slot) s = .next (openSection
    (armReleased (admitLate (armStep (planAndCancel (boundaryRecorded s part.toNat slot.toNat g) part.toNat slot.toNat)
      part.toNat slot.toNat) part.toNat slot.toNat) part.toNat (releasedAccs (partOf s part.toNat))) part.toNat slot.toNat) := by
  rw [roundBoundary_after_commit hg hrun hvoid h1, if_neg (by simp [hstop]), hover]

/-- A unit that has run all its rounds is reported, every one, and a boundary is asked for. -/
theorem roundBoundary_over_rounds (hstop : g1.stopNext = false) (hover : overRounds g1 ≠ []) :
    ∃ t q, exec (.roundBoundary part slot) s = .next t ∧ (partOf t part.toNat).faultQ = (partOf s part.toNat).faultQ ++ q
      ∧ (partOf t part.toNat).bndReq = true ∧ List.Forall₂ (fun r o => ∃ t, r = roundsReport t part.toNat slot.toNat g1 o) q (overRounds g1) := by
  obtain ⟨o, os, ho⟩ := List.exists_cons_of_ne_nil hover
  obtain ⟨q, hq, hb, hall⟩ := deadlineRounds_reports (boundaryRecorded s part.toNat slot.toNat g) part.toNat slot.toNat g1 (o :: os)
  obtain ⟨harmq, harmb⟩ := reinOnly_reports (reinOnly_armReleased (deadlineRounds (boundaryRecorded s part.toNat slot.toNat g)
    part.toNat slot.toNat g1 (o :: os)) part.toNat (releasedAccs (partOf s part.toNat)))
  refine ⟨_, q, by rw [roundBoundary_after_commit hg hrun hvoid h1, if_neg (by simp [hstop]), ho], ?_, ?_, ho ▸ hall⟩
  · rw [(startGap_reports _ _).1, harmq, hq, boundaryRecorded_faultQ]
  · rw [(startGap_reports _ _).2, harmb, hb]

end
end

/-- Settles O48: the boundary by what the recording step leaves, a unit by whether it completes, a demand by what it lacks and who holds it. -/
theorem boundaryAfterCommit : Obligations.BoundaryAfterCommit := by
  unfold Obligations.BoundaryAfterCommit
  refine ⟨?_, ?_, ?_⟩
  · intro s part slot g p sl hg hrun hvoid s0 before r x1 ends
    obtain ⟨h, g1, hh, hg1, hrcom, hops, hst, harm⟩ := recordStep_spec (s := paceTaken s p) ((graphOf_paceTaken s p sl).trans hg)
    refine ⟨g1, hg1, hrcom, hops, ?_, ?_, harm, ⟨h, hh, fun o _ => fields_of_withoutRecords (hst o)⟩, roundBoundary_stops hg hrun hvoid hg1,
      roundBoundary_goes_on hg hrun hvoid hg1, fun hstop hover => ?_⟩
    · exact (recordStep_memories (paceTaken s p) p sl g).1
    · simp [r, recordStep_eq, s0]
    · obtain ⟨t, q, ht, hq, hb, hall⟩ := roundBoundary_over_rounds hg hrun hvoid hg1 hstop hover
      obtain ⟨hopx, hrep⟩ := roundsReports_fields hall
      exact ⟨t, q, ht, hq, hopx, fun r hr => by
        obtain ⟨hcls, hdetail, hslot⟩ := hrep r hr
        exact ⟨hcls, hdetail, by simpa [sl] using hslot⟩, hb⟩
  · intro fins earlies done slot x o g u hg hu d st y u' ends
    by_cases hends : ends
    · have hst : stAt (completedGraph earlies o g u) o = completedState d (countedState earlies o d st u) (countedUnit earlies o u) :=
        (stAt_completedGraph o).trans (if_pos rfl)
      have hy : y = completedPart earlies slot o x g u := recordUnit_completes hg hu hends
      obtain ⟨harm, hkpos⟩ := completedState_keeps d (countedState earlies o d st u) (countedUnit earlies o u)
      rw [hy]
      refine ⟨_, completedPart_graph, rfl, fun o' ho => (stAt_completedGraph o').trans (if_neg ho), ?_, fun h => absurd hends h, fun _ => ?_,
        fun cell hc => (completedPart_slots cell).trans (if_neg hc)⟩
      · rw [hst, hkpos]
        simp only [countedState, Bool.or_eq_true, decide_eq_true_eq]
      · rw [hst]
        refine ⟨harm, (completedPart_slots u.cell).trans (if_pos rfl), fun hq => completedState_queued hq _ _,
          fun hq => completedState_unqueued hq _ _, fun k q hk hs hn => ?_⟩
        obtain ⟨h1, h2, h3, h4⟩ := recordedDemand_spec (o := o) (u.pos d) hs hn
        exact ⟨_, (completedPart_demands k).trans (congrArg (Option.map _) hk), h1, h2, h3, h4⟩
    · have hst : stAt (countedGraph earlies o g u) o = countedState earlies o d st u := (stAt_countedGraph o).trans (if_pos rfl)
      have hy : y = _ := recordUnit_stays hg hu hends
      have hcell : ∀ cell, tget 0 y.armSlots cell = if cell = u.cell then armWordOf slot o u' else tget 0 x.armSlots cell := fun cell => by
        rw [hy]
        exact tget_tset _ _ _ _ _
      refine ⟨countedGraph earlies o g u, by rw [hy]; exact (tfind_tput _ _ _ _).trans (if_pos rfl), rfl,
        fun o' ho => (stAt_countedGraph o').trans (if_neg ho), ?_, fun _ => ?_, fun h => absurd h hends, fun cell hc => (hcell cell).trans (if_neg hc)⟩
      · rw [hst]
        simp only [countedState, Bool.or_eq_true, decide_eq_true_eq]
      · rw [hst, hcell, if_pos rfl]
        exact ⟨rfl, by rw [hy], rfl, rfl, rfl, rfl, armWordOf_fields slot o u'⟩
  · intro g x k d hd hp hn holds ended fired y
    obtain ⟨d', hd', hdone, htrig, hcanc, hcount⟩ := checkDemand_spec (g := g) hd hp hn
    have hended : completesNow g d = true ↔ ended := completesNow_iff g d
    have hfired : triggersNow g d = true ↔ fired := triggersNow_iff g d
    refine ⟨d', hd', by rw [hdone]; exact hended, by rw [htrig, Bool.or_eq_true, hfired], fun h => hcanc (hended.2 h), fun h hh => ?_⟩
    obtain ⟨h', hh', hc⟩ := hcount h hh
    exact ⟨h', hh', fun he => by rw [hc, if_pos (hended.2 he)], fun he => by rw [hc, if_neg (fun hb => he (hended.1 hb))]⟩

end Sys2Proof.Laws
end

section
/-! SUPPORT. The start pulse of a round, promotions and pacing gaps (R19, R107, R110 to R112, R202), with O45. -/

namespace Sys2Proof.Laws

open Sys2Proof.Machine

/-! ### Samples -/

theorem sampleCount_frame (s : State) (die probe p v : Nat) :
    let t := sampleCount s die probe p v
    t.parts = s.parts ∧ t.cores = s.cores ∧ t.hide = s.hide ∧ t.mem = s.mem := by
  have h := foldl_keeps (fun t : State => (t.parts, t.cores, t.hide, t.mem)) (f := fun s k => takeSample s k v)
    (fun s k => by unfold takeSample; dsimp only; split <;> rfl) (probing s die probe p) s
  simp only [Prod.mk.injEq] at h
  exact h

/-! ### Cores at a round start -/

/-- A core of a list on which a function works has what the function brings about, if it keeps what that rests on. -/
theorem coreOf_modCores_mem {c : Fin 64} {f : Core → Core} {I P : Core → Prop} (hI : ∀ k, I k → I (f k)) (hP : ∀ k, I k → P (f k))
    (l : List Nat) (s : State) (hs : I (coreOf s c)) (h : c ∈ l.map coreNo) : P (coreOf (modCores s l f) c) := by
  induction l generalizing s with
  | nil => exact absurd h List.not_mem_nil
  | cons a r ih =>
    have hstep : coreOf (modCore s (coreNo a) f) c = if c = coreNo a then f (coreOf s (coreNo a)) else coreOf s c := coreOf_modCore _ _ _ _
    by_cases hr : c ∈ r.map coreNo
    · refine ih (modCore s (coreNo a) f) ?_ hr
      rw [hstep]
      split
      · next hc => exact hI _ (hc ▸ hs)
      · exact hs
    · have hc : c = coreNo a := (List.mem_cons.1 h).resolve_right hr
      have hlast : coreOf (modCores s (a :: r) f) c = coreOf (modCore s (coreNo a) f) c := coreOf_modCores_not_mem r _ f hr
      rw [hlast, hstep, if_pos hc]
      exact hP _ (hc ▸ hs)

theorem writeGain_opx (k : Core) (w : GainOp) (e : Fin 96) : (elemOf (writeGain k w) e).opx = (elemOf k e).opx := by
  rw [writeGain, elemOf_allElems]
  (repeat' split) <;> rfl

/-- Rectangles and gains leave each element with its operator. -/
theorem applyRects_opx (k : Core) (e : Fin 96) : (elemOf (applyRects k) e).opx = (elemOf k e).opx := by
  have hgains : ∀ (l : List GainOp) (k : Core), (elemOf (l.foldl writeGain k) e).opx = (elemOf k e).opx := by
    intro l
    induction l with
    | nil => exact fun _ => rfl
    | cons w r ih =>
      intro k
      rw [List.foldl_cons, ih, writeGain_opx]
  refine (hgains _ _).trans ?_
  rw [elemOf_allElems]
  split <;> rfl

theorem elemOf_startCore (g : Graph) (k : Core) (e : Fin 96) : elemOf (startCore g k) e = startElem g (elemOf (applyRects k) e) :=
  elemOf_allElems _ _ _

theorem startCore_opx (g : Graph) (k : Core) (e : Fin 96) : (elemOf (startCore g k) e).opx = (elemOf k e).opx := by
  rw [elemOf_startCore]
  exact applyRects_opx k e

/-- The first time of the tile step of its operator stands in m0 of an element whose operator is armed (R112). -/
theorem startCore_m0 {g : Graph} {k : Core} {e : Fin 96} {u : ArmUnit} {o : BitVec 8} (ho : (elemOf k e).opx = o) (hne : o ≠ 0xFF)
    (hlt : o.toNat < g.ops.length) (hu : (stAt g o.toNat).arm = some u) :
    (elemOf (startCore g k) e).r.m[0] = BitVec.ofNat 32 ((opAt g o.toNat).origin + u.step * (opAt g o.toNat).t) := by
  have hopx : (elemOf (applyRects k) e).opx = o := (applyRects_opx k e).trans ho
  have harmed : elemArmed g (elemOf (applyRects k) e) = true := by
    simp only [elemArmed, hopx, hu, ne_eq, hne, not_false_eq_true, decide_true, hlt, Option.isSome_some, Bool.and_self]
  rw [elemOf_startCore, startElem]
  simp [harmed, baseTime, hopx, hu]

/-! ### The start pulse -/

section
variable {s : State} {part slot : BitVec 6} {g : Graph}

/-- A sample of how long a section's end lies back is taken (R88). -/
def sectionSampled (s : State) (p : Nat) (g : Graph) : State :=
  g.sectEnd.elim s (fun t => sampleCount s (dieOf ((coresUp g).headD 0)) 0x06 p (s.clk - t))

theorem sectionSampled_frame (s : State) (p : Nat) (g : Graph) : (sectionSampled s p g).parts = s.parts
    ∧ (sectionSampled s p g).cores = s.cores ∧ (sectionSampled s p g).hide = s.hide ∧ (sectionSampled s p g).mem = s.mem := by
  unfold sectionSampled
  cases g.sectEnd with
  | none => exact ⟨rfl, rfl, rfl, rfl⟩
  | some t => exact sampleCount_frame _ _ _ _ _

theorem startPulse_held (hg : graphOf s part.toNat slot.toNat = some g) (h : pulseFree s part.toNat g = false) :
    exec (.startPulse part slot) s = .next s := by
  change execStartPulse part slot s = _
  simp only [execStartPulse, hg, h]
  rfl

theorem startPulse_begins (hg : graphOf s part.toNat slot.toNat = some g) (h : pulseFree s part.toNat g = true) (hr : restoresDue g = []) :
    exec (.startPulse part slot) s = .next (beginRound (sectionSampled s part.toNat g) part.toNat slot.toNat g) := by
  change execStartPulse part slot s = _
  simp only [execStartPulse, hg, h, hr, List.findSome?_nil]
  rfl

/-- A round begins with no restore due: its graph runs at RC 0 without a fault, and its cores start. -/
theorem beginRound_spec {p sl : Nat} (hg : graphOf s p sl = some g) (hr : restoresDue g = []) :
    (∃ g', graphOf (beginRound s p sl g) p sl = some g' ∧ g'.run = .round ∧ g'.rc = 0 ∧ g'.fault = none ∧ g'.waitCnt = 0 ∧ g'.lastVoid = false
      ∧ g'.ops = g.ops)
    ∧ (beginRound s p sl g).hide = s.hide ∧ ∀ c, coreOf (beginRound s p sl g) c = coreOf (modCores s g.cores (startCore g)) c := by
  have hparts : graphOf (modCores s g.cores (startCore g)) p sl = some g := by
    rw [graphOf, partOf_of_parts (modCores_parts _ _ _)]
    exact hg
  simp only [beginRound, hr, List.foldl_nil]
  refine ⟨?_, by simp, fun c => by simp only [coreOf, modGraph_cores]⟩
  simp only [graphOf_modGraph, and_self, if_true, hparts, Option.map_some]
  exact ⟨_, rfl, rfl, rfl, rfl, rfl, rfl, rfl⟩

/-- No start pulse issues in a pacing gap of the partition (R19). -/
theorem pulseFree_gap {p : Nat} (h : (partOf s p).gapLeft ≠ 0) : pulseFree s p g = false := by simp [pulseFree, h]

theorem pacingGapEnd_eq (part : BitVec 6) (left : BitVec 12) (s : State) : exec (.pacingGapEnd part left) s = .next (putPart s part.toNat
    (if (partOf s part.toNat).gapLeft = left.toNat then { partOf s part.toNat with gapLeft := 0 } else partOf s part.toNat)) := rfl

/-- A promotion that is due joins those that stand (R111). -/
theorem promotion_joins {opx : BitVec 8} (hg : graphOf s part.toNat slot.toNat = some g) (ho : opx.toNat < g.ops.length)
    (h : 64 ≤ (stAt g opx.toNat).passed) : ∃ t, exec (.promotion part slot opx) s = .next t ∧ t = { s with parts := t.parts }
      ∧ graphOf t part.toNat slot.toNat
        = some (modSt g opx.toNat (fun o => { o with promoted := o.promoted ++ o.passedBy.toList, passed := 0, passedBy := none })) := by
  refine ⟨_, rfl, rfl, ?_⟩
  rw [graphOf_modGraph, if_pos ⟨rfl, rfl⟩, hg, Option.map_some, if_pos (by simp [ho, h])]
end

/-- Settles O45, by whether the start pulse may issue, by what is left of the gap, and by the promotion that is due. -/
theorem roundBegins : Obligations.RoundBegins := by
  unfold Obligations.RoundBegins
  intro s part slot left opx g p sl hg
  refine ⟨fun hfree hr => ?_, startPulse_held hg, fun h => ?_, pulseFree_gap, fun h => ?_, promotion_joins hg⟩
  · obtain ⟨hparts, hcores, hhide, hmem⟩ := sectionSampled_frame s p g
    obtain ⟨⟨g', hg', hrun, hrc, hfault, hwait, hvoid, hops⟩, hh, hc⟩ :=
      beginRound_spec (s := sectionSampled s p g) (p := p) (sl := sl) ((congrArg (fun x : Part => tfind x.graphs sl) (partOf_of_parts hparts p)).trans hg) hr
    refine ⟨_, g', startPulse_begins hg hfree hr, hg', hrun, hrc, hfault, hwait, hvoid, hops,
      (beginRound_memories _ _ _ _).1.trans hmem, hh.trans hhide, ?_⟩
    intro c e u o hcg hne hlt hu
    rw [hc]
    refine coreOf_modCores_mem (I := fun k => (elemOf k e).opx = o)
      (P := fun k => (elemOf k e).r.m[0] = BitVec.ofNat 32 ((opAt g o.toNat).origin + u.step * (opAt g o.toNat).t)) (fun k hk => (startCore_opx g k e).trans hk)
      (fun k hk => startCore_m0 hk hne hlt hu) g.cores _ (by rw [coreOf_of_cores hcores]) ?_
    exact List.mem_map.2 ⟨c.val, hcg, coreNo_val c⟩
  · rw [pacingGapEnd_eq, if_pos h]
  · refine ⟨_, pacingGapEnd_eq part left s, ?_, rfl, rfl⟩
    rw [if_neg h, partOf_putPart, if_pos rfl]

end Sys2Proof.Laws
end

section
/-! SUPPORT. The order of the faults of a round (R128) and the fault that is kept, with O14; the fault event of a report and where a report goes
(R67, R129, R130), with O15. -/

namespace Sys2Proof.Laws

open Sys2Proof.Machine Sys2Proof.Safety

/-! ### The order of R128 -/

/-- Where an agent of a core stands among the agents of one stamp: its sequencer before its elements. -/
def agentPlace (r : Report) : Nat := if r.elem = 127 then 0 else r.elem.toNat + 1

theorem agentPlace_lt (r : Report) : agentPlace r < 128 := by
  unfold agentPlace
  split
  · decide
  · next h =>
    have hne : r.elem.toNat ≠ 127 := fun e => h (BitVec.eq_of_toNat_eq e)
    have hlt := r.elem.isLt
    omega

/-- The number that orders reports has RC, core, agent and lane for its digits, so that they compare in this order. -/
theorem reportBefore_iff (r q : Report) : reportBefore r q = true ↔ r.rc < q.rc ∨ (r.rc = q.rc ∧ (r.core < q.core
    ∨ (r.core = q.core ∧ (agentPlace r < agentPlace q ∨ (agentPlace r = agentPlace q ∧ r.lane < q.lane))))) := by
  have hr := agentPlace_lt r
  have hq := agentPlace_lt q
  have hrc := r.core.isLt
  have hqc := q.core.isLt
  have hrl := r.lane.isLt
  have hql := q.lane.isLt
  have hkey : reportBefore r q = true ↔ (((r.rc.toNat * 64 + r.core.toNat) * 128 + agentPlace r) * 32) + r.lane.toNat
      < (((q.rc.toNat * 64 + q.core.toNat) * 128 + agentPlace q) * 32) + q.lane.toNat := decide_eq_true_iff
  rw [hkey, BitVec.lt_def, BitVec.lt_def, BitVec.lt_def, ← BitVec.toNat_inj, ← BitVec.toNat_inj]
  omega

/-! ### The fault that is kept -/

/-- A graph once a fault of its round has been taken: the first in the order of R128 stands. -/
def keepFirst (r : Report) (g : Graph) : Graph :=
  if g.fault.elim true (fun q => reportBefore r q) then { g with fault := some r, hit := none } else g

/-- What R160 asks for: the frame of metadata that cannot be read is poisoned. -/
def unreadPoison (s : State) (r : Report) : List Instr :=
  if r.cls = cPoison ∧ r.info.toNat / 256 ∈ s.mdtBad then [.framePoison ⟨BitVec.ofNat 32 (r.info.toNat / 65536), .unread⟩] else []

theorem takeFault_round_eq (s : State) (p slot : Nat) (r : Report) :
    takeFault .round s p slot r = modGraph { s with urgent := s.urgent ++ unreadPoison s r } p slot (keepFirst r) := by
  have hcond : (r.cls = cPoison && s.mdtBad.contains (r.info.toNat / 256)) = true ↔ r.cls = cPoison ∧ r.info.toNat / 256 ∈ s.mdtBad := by simp
  by_cases h : r.cls = cPoison ∧ r.info.toNat / 256 ∈ s.mdtBad
  · simp only [takeFault, if_pos (hcond.2 h), unreadPoison, if_pos h]
    rfl
  · simp only [takeFault, if_neg (mt hcond.1 h), unreadPoison, if_neg h, List.append_nil]
    rfl

/-- The graph of the round is the only one that taking the fault can change. -/
theorem graphOf_takeFault_round {s : State} {p slot : Nat} {g : Graph} (hg : graphOf s p slot = some g) (r : Report) :
    graphOf (takeFault .round s p slot r) p slot = some (keepFirst r g) := by
  rw [takeFault_round_eq, graphOf_modGraph, if_pos ⟨rfl, rfl⟩]
  exact congrArg (Option.map (keepFirst r)) hg

/-- Settles O14, by the order that `reportBefore` is. -/
theorem firstFaultIsKept : Obligations.FirstFaultIsKept := by
  unfold Obligations.FirstFaultIsKept
  intro s p slot r q g hg hq eo before t unread
  have hgraph : graphOf t p slot = some (keepFirst r g) := graphOf_takeFault_round hg r
  have hbefore : reportBefore r q = true ↔ before := reportBefore_iff r q
  have hkept : keepFirst r g = if reportBefore r q = true then { g with fault := some r, hit := none } else g := by
    simp only [keepFirst, hq, Option.elim_some]
  refine ⟨fun h => ?_, fun h => ?_, ?_⟩
  · rw [hgraph, hkept, if_pos (hbefore.2 h)]
  · rw [hgraph, hkept, if_neg (mt hbefore.1 h)]
  · have ht : t = modGraph { s with urgent := s.urgent ++ unreadPoison s r } p slot (keepFirst r) := takeFault_round_eq s p slot r
    rw [ht]
    rfl

/-! ### The report as an event -/

/-- W1 and W2 of a fault event hold their fields where R67 puts them. -/
theorem reportW1_fields (r : Report) :
    (reportW1 r).extractLsb' 58 6 = r.slot ∧ (reportW1 r).extractLsb' 50 8 = r.opx ∧ (reportW1 r).extractLsb' 10 40 = r.step
    ∧ (reportW1 r).extractLsb' 2 8 = r.round ∧ (reportW1 r).extractLsb' 0 2 = 0 := by
  simp (disch := decide) only [reportW1, BitVec.extractLsb'_append_eq_of_le, BitVec.extractLsb'_append_eq_right]
  exact ⟨BitVec.extractLsb'_eq_self, BitVec.extractLsb'_append_eq_right, BitVec.extractLsb'_append_eq_right, BitVec.extractLsb'_append_eq_right, trivial⟩

theorem reportW2_fields (r : Report) :
    (reportW2 r).extractLsb' 58 6 = r.core ∧ (reportW2 r).extractLsb' 51 7 = r.elem ∧ (reportW2 r).extractLsb' 39 12 = r.li
    ∧ (reportW2 r).extractLsb' 27 12 = r.rc ∧ (reportW2 r).extractLsb' 22 5 = r.lane ∧ (reportW2 r).getLsbD 21 = r.lv
    ∧ (reportW2 r).extractLsb' 17 4 = r.eng ∧ (reportW2 r).getLsbD 16 = false ∧ (reportW2 r).extractLsb' 0 16 = r.detail := by
  have hlv : (reportW2 r).getLsbD 21 = r.lv := by
    simp only [reportW2, BitVec.getLsbD_append]
    simp
  have hzero : (reportW2 r).getLsbD 16 = false := by
    simp only [reportW2, BitVec.getLsbD_append]
    simp
  refine ⟨?_, ?_, ?_, ?_, ?_, hlv, ?_, hzero, ?_⟩ <;>
    simp (disch := decide) only [reportW2, BitVec.extractLsb'_append_eq_of_le, BitVec.extractLsb'_append_eq_right]
  · exact BitVec.extractLsb'_eq_self
  all_goals exact BitVec.extractLsb'_append_eq_right

/-! ### Where a report goes -/

/-- A report that HITCH_ARM does not select goes to the fault queue and, if it is forwarded, to the events of the graph's VF. -/
theorem queueReport_eq {s : State} {p : Nat} {r : Report} {g : Graph} (fwd : Bool) (hg : graphOf s p r.slot.toNat = some g)
    (hh : hitchSelects s p r = false) : queueReport s p fwd r = (if fwd then fun t => postEvent t g.vf (reportEvent r) else id)
      (modPart s p (fun x => { x with faultQ := x.faultQ ++ [r] })) := by
  have hfind : tfind (partOf (modPart s p (fun x => { x with faultQ := x.faultQ ++ [r] })) p).graphs r.slot.toNat = some g := by
    rw [partOf_modPart, if_pos rfl]
    exact hg
  have hsel : ∀ t : State, t.hitchArm = s.hitchArm → ¬ hitchSelects t p r = true := fun t ht => by
    unfold hitchSelects at hh ⊢
    rw [ht, hh]
    exact Bool.false_ne_true
  cases fwd with
  | true =>
    simp only [queueReport, hfind]
    exact if_neg (hsel _ rfl)
  | false =>
    simp only [queueReport]
    exact if_neg (hsel _ rfl)

theorem forwards_iff (c : BitVec 5) : forwards c = true ↔ ¬ (c = 1 ∨ c = 9 ∨ c = 11 ∨ c = 12) := by
  simp only [forwards, Bool.not_eq_true', Bool.or_eq_false_iff, decide_eq_false_iff_not, not_or, and_assoc]
  exact Iff.rfl

/-- Settles O15, by the layout of the event's words and the two places that a report goes to. -/
theorem reportsAreQueued : Obligations.ReportsAreQueued := by
  unfold Obligations.ReportsAreQueued
  refine ⟨fun r => ?_, fun s p r g hg hh => ?_⟩
  · obtain ⟨hslot, hopx, hstep, hround, hlow⟩ := reportW1_fields r
    have hcode : (reportEvent r).code.toNat = r.cls.toNat := BitVec.toNat_setWidth_of_le (by decide)
    exact ⟨rfl, rfl, rfl, hcode, rfl, hslot, hopx, hstep, hround, hlow, reportW2_fields r⟩
  · have heq := queueReport_eq (forwards r.cls) hg hh
    refine ⟨congrArg Part.faultQ (partOf_queueReport s p _ r), ?_, (queueReport_frame s p _ r).1, (queueReport_memories s p _ r).1, ?_, ?_⟩
    · by_cases h : r.cls = 1 ∨ r.cls = 9 ∨ r.cls = 11 ∨ r.cls = 12
      · have hf : forwards r.cls = false := Bool.eq_false_iff.2 (fun e => (forwards_iff _).1 e h)
        rw [if_pos h, heq, hf]
        rfl
      · rw [if_neg h, heq, (forwards_iff _).2 h]
        refine (congrArg Vf.evWait (vfOf_modVf (modPart s p (fun x => { x with faultQ := x.faultQ ++ [r] })) g.vf g.vf
          (fun x => { x with evWait := x.evWait ++ [reportEvent r] }))).trans ?_
        rw [if_pos rfl]
        rfl
    all_goals
      rw [heq]
      split <;> rfl

end Sys2Proof.Laws
end

section
/-! SUPPORT. The frame of an element entry (R136, R199, R200), said once for the frame that every entry runs in and once for each way of using
it; with O13. -/

namespace Sys2Proof.Laws

open Sys2Proof.Machine Sys2Proof.Safety

/-! ### What an entry may change -/

/-- The registers of an element without what an entry changes before its result lands: what is in flight, the sticky flags, the guard. -/
def settledRegs (r : ElemRegs) : ElemRegs := { r with pipe := [], flags := 0, ixz := false, guard := 0, pat := 0, left := 0 }

/-- A core without its elements and what they buffer. -/
def aroundElems (k : Core) : Core := { k with elems := Core.reset.elems, hideOps := [], khors := [] }

/-- What an entry leaves of its view: the settled registers of its element. -/
def keepsRegs (v : EView) (o : EOut) : Prop := settledRegs o.r = settledRegs v.r

/-- Between two states only element `e` of the core that executes has run an entry: it may have put results in flight, set sticky flags, taken
the guard, buffered hide operations and horizons, set out immediate loads, or faulted. -/
structure RanEntry (s t : State) (e : Fin 96) : Prop where
  device : { t with parts := s.parts, urgent := s.urgent, loads := s.loads, cores := s.cores } = s
  cores : ∀ c : Fin 64, c ≠ s.cur.core → coreOf t c = coreOf s c
  around : aroundElems (coreOf t s.cur.core) = aroundElems (coreOf s s.cur.core)
  others : ∀ a : Fin 96, a ≠ e → elemOf (coreOf t s.cur.core) a = elemOf (coreOf s s.cur.core) a
  own : ∃ r, elemOf (coreOf t s.cur.core) e = { elemOf (coreOf s s.cur.core) e with r := r }
    ∧ settledRegs r = settledRegs (elemOf (coreOf s s.cur.core) e).r

theorem settledRegs_takeGuard (r : ElemRegs) : settledRegs (takeGuard r).2 = settledRegs r := by
  unfold takeGuard
  split <;> rfl

theorem faultElem_ranEntry (s : State) (e : Fin 96) (i : FaultInfo) : RanEntry s (faultElem s i) e := by
  have hcores := takeFault_round_cores s s.cur.part s.cur.slot (elemReport s i)
  have hcore : ∀ c, coreOf (faultElem s i) c = coreOf s c := coreOf_of_cores hcores
  refine ⟨?_, fun c _ => hcore c, congrArg _ (hcore _), fun a _ => congrArg (fun k => elemOf k a) (hcore _), ⟨_, congrArg (fun k => elemOf k e) (hcore _), rfl⟩⟩
  simp only [faultElem, takeFault]
  split <;> rfl

/-- A core put in the place of the one that executes, with nothing but its element and what that buffers changed. -/
theorem putCore_ranEntry {s u : State} {e : Fin 96} {k : Core} {r : ElemRegs} (hu : { u with loads := s.loads } = s)
    (hk : aroundElems k = aroundElems (curCore s)) (hothers : ∀ a : Fin 96, a ≠ e → elemOf k a = elemOf (curCore s) a)
    (hown : elemOf k e = { elemOf (curCore s) e with r := r }) (hr : settledRegs r = settledRegs (elemOf (curCore s) e).r) :
    RanEntry s (putCore u s.cur.core k) e := by
  have hcore : coreOf (putCore u s.cur.core k) s.cur.core = k := (coreOf_putCore u _ _ k).trans (if_pos rfl)
  have hcores : u.cores = s.cores := (congrArg State.cores hu :)
  have hparts : u.parts = s.parts := (congrArg State.parts hu :)
  refine ⟨?_, fun c hc => ?_, by rw [hcore]; exact hk, fun a ha => by rw [hcore]; exact hothers a ha, ⟨r, by rw [hcore]; exact hown, hr⟩⟩
  · exact (congrArg (fun v : State => { v with parts := s.parts, urgent := s.urgent, cores := s.cores }) hu :)
  · exact ((coreOf_putCore u _ _ k).trans (if_neg hc)).trans (coreOf_of_cores hcores c)

/-- The end of every entry: its registers and what it buffers, or the fault. -/
theorem elemEnd_ranEntry {s : State} {e : Fin 96} {o : EOut} (h : keepsRegs (elemView s e) o) : RanEntry s (elemEnd (elemView s e) o) e := by
  unfold elemEnd
  split
  · exact faultElem_ranEntry s e _
  have hown : settledRegs o.r = settledRegs (elemOf (curCore s) e).r := Eq.trans h (settledRegs_takeGuard _)
  dsimp only
  exact putCore_ranEntry rfl rfl (fun a ha => (elemOf_putElem _ _ _ _).trans (if_neg ha)) ((elemOf_putElem _ _ _ _).trans (if_pos rfl)) hown

theorem elemGo_ranEntry {s : State} {e : Fin 96} (hs : s.cur.elem = e.val) {f : EView → EOut} (h : ∀ v, keepsRegs v (f v)) :
    RanEntry s (elemGo s f) e := by
  rw [elemGo_of hs]
  exact elemEnd_ranEntry (h _)

/-! ### The ways of using the frame -/

theorem bad_keepsRegs (v : EView) (i : FaultInfo) : keepsRegs v (.bad v i) := rfl

/-- A fault, or an effect that keeps the registers. -/
theorem firstBad_keepsRegs (v : EView) (l : List ORead) {o : EOut} (h : keepsRegs v o) :
    keepsRegs v (match firstBad l with | some i => .bad v i | none => o) := by
  cases firstBad l with
  | some i => exact bad_keepsRegs v i
  | none => exact h

theorem bufferHide_keepsRegs (v : EView) (off : Lanes) (op : Fin 32 → HOp) : keepsRegs v (bufferHide v off op) := by
  unfold bufferHide
  split <;> rfl

section
variable {s : State} {e : Fin 96} (hs : s.cur.elem = e.val)
include hs

theorem lane1_ranEntry (t : NegTy) (lat : Nat) (d : Dst) (a : Opnd) (f : Word → Word × Flags) : RanEntry s (lane1 t lat d a f s) e :=
  elemGo_ranEntry hs (fun v => firstBad_keepsRegs v _ rfl)

theorem lane2_ranEntry (ta tb : NegTy) (lat : Nat) (d : Dst) (a b : Opnd) (f : Word → Word → Word × Flags) :
    RanEntry s (lane2 ta tb lat d a b f s) e :=
  elemGo_ranEntry hs (fun v => firstBad_keepsRegs v _ rfl)

theorem lane3_ranEntry (t : NegTy) (lat : Nat) (d : Dst) (a b : Opnd) (f : Word → Word → Word → Word × Flags) :
    RanEntry s (lane3 t lat d a b f s) e :=
  elemGo_ranEntry hs (fun v => firstBad_keepsRegs v _ rfl)

theorem cross1_ranEntry (t : NegTy) (lat : Nat) (d : Dst) (a : Opnd) (f : Lanes → Lanes × Flags) : RanEntry s (cross1 t lat d a f s) e :=
  elemGo_ranEntry hs (fun v => firstBad_keepsRegs v _ rfl)

theorem scanWith_ranEntry (g : Fin 6) (d : Dst) (a b c : Opnd) (gain : Bool) : RanEntry s (scanWith g d a b c gain s) e :=
  elemGo_ranEntry hs (fun v => firstBad_keepsRegs v _ rfl)

theorem hideGo_ranEntry (t : NegTy) (a b : Opnd) (op : Word → HOp) : RanEntry s (hideGo t a b op s) e :=
  elemGo_ranEntry hs (fun v => bufferHide_keepsRegs v _ _)

theorem execHldI_ranEntry (hi : Bool) (d : Dst) (a : Opnd) : ∃ t, execHldI hi d a s = .next t ∧ RanEntry s t e := by
  refine ⟨_, rfl, ?_⟩
  have hlt : s.cur.elem < 96 := hs ▸ e.isLt
  have he : (⟨s.cur.elem, hlt⟩ : Fin 96) = e := Fin.ext hs
  rw [dif_pos hlt, he]
  dsimp only
  split
  · exact elemEnd_ranEntry (bad_keepsRegs _ _)
  · exact elemEnd_ranEntry rfl

theorem execQidx_ranEntry (ty : QTy) (bank : Fin 16) (d : Dst) (a : Opnd) : ∃ t, execQidx ty bank d a s = .next t ∧ RanEntry s t e := by
  refine ⟨_, rfl, elemGo_ranEntry hs (fun v => ?_)⟩
  dsimp only
  split <;> rfl

theorem execScacc_ranEntry (d : Dst) (a b c : Src) : ∃ t, execScacc d a b c s = .next t ∧ RanEntry s t e := by
  refine ⟨_, rfl, elemGo_ranEntry hs (fun v => ?_)⟩
  dsimp only
  split
  · rfl
  · split <;> rfl

end

/-! ### Every entry -/

/-- Whatever the entry, it does no more than an entry may: the arms are grouped by the frame that they run in. -/
theorem exec_ranEntry {i : Instr} {s : State} {e : Fin 96} (hi : i.isElem = true) (hs : s.cur.elem = e.val) :
    ∃ t, exec i s = .next t ∧ RanEntry s t e := by
  cases i
  case frcp | fsqrt | frsq | fexp2 | flog2 | fclass | popc | clz | cvt | ptst | mov | xpnd => exact ⟨_, rfl, lane1_ranEntry hs _ _ _ _ _⟩
  case faddF32 | fsubF32 | fmulF32 | fminF32 | fmaxF32 | faddHalf | fsubHalf | fmulHalf | fminHalf | fmaxHalf | fcmpEq | fcmpNe | fcmpLt
    | fcmpLe | fcmpGt | fcmpGe | fcmpUn | iadd | isub | imul | imulh | imin | imax | and | or | xor | andn | shl | shr | rol | icmpEq
    | icmpNe | icmpLt | icmpLe | icmpGt | icmpGe | pack | unpk => exact ⟨_, rfl, lane2_ranEntry hs _ _ _ _ _ _ _⟩
  case fmadF32 | fmsbF32 | fnmaF32 | fmadHalf | fmsbHalf | fnmaHalf | imad => exact ⟨_, rfl, lane3_ranEntry hs _ _ _ _ _ _⟩
  case lrd | redAdd | redMax | redMin | scanAdd => exact ⟨_, rfl, cross1_ranEntry hs _ _ _ _ _⟩
  case scanAff | scanAffG => exact ⟨_, rfl, scanWith_ranEntry hs _ _ _ _ _ _⟩
  case hadd | hmax | hmin | hxchg | hred | hstI => exact ⟨_, rfl, hideGo_ranEntry hs _ _ _ _⟩
  case hcas => exact ⟨_, rfl, elemGo_ranEntry hs (fun v => bufferHide_keepsRegs v _ _)⟩
  case scanAffk | kset => exact ⟨_, rfl, elemGo_ranEntry hs (fun v => firstBad_keepsRegs v _ rfl)⟩
  case fsel | perm | blkh | pand | por | pxor | pandn | pnot | pvec | pcnt | movi | moviH | movm | movmP | pblk | bdot | bdotSet | kget | kclr
    | khor => exact ⟨_, rfl, elemGo_ranEntry hs (fun _ => rfl)⟩
  case qidx => exact execQidx_ranEntry hs _ _ _ _
  case scacc => exact execScacc_ranEntry hs _ _ _ _
  case hldI => exact execHldI_ranEntry hs _ _ _
  -- What is left stands in no element list: in a sequencer's, or in none.
  case seqAdd _ _ b | seqSub _ _ b | seqMul _ _ b | seqAnd _ _ b | seqOr _ _ b | seqXor _ _ b | seqShl _ _ b | seqShr _ _ b | sra _ _ b =>
    cases b <;> exact Bool.noConfusion hi
  all_goals exact Bool.noConfusion hi

/-- Settles O13, from what `RanEntry` says of the device, the core and the element. -/
theorem elementEntryFrame : Obligations.ElementEntryFrame := by
  unfold Obligations.ElementEntryFrame
  intro i s t e hi hs ht
  obtain ⟨u, hu, hran⟩ := exec_ranEntry hi hs
  obtain rfl : u = t := Host.Outcome.next.inj (hu.symm.trans ht)
  obtain ⟨hdevice, hcores, haround, hothers, r, hown, hsettled⟩ := hran
  have hd {α : Type} (f : State → α) := congrArg f hdevice
  have hk {α : Type} (f : Core → α) := congrArg f haround
  have hr {α : Type} (f : ElemRegs → α) := congrArg f hsettled
  refine ⟨hd State.mem, hd State.hostMem, hd State.pend, hd State.hide, hd State.engines, hd State.frames, hd State.vfs, hd State.pommel, hcores,
    hothers, ⟨hk Core.tiles, hk Core.loft, hk Core.banks, hk Core.c, hk Core.stores, hk Core.held, hk Core.ports⟩, ?_⟩
  intro x x'
  have hx : x' = { x with r := r } := hown
  rw [hx]
  exact ⟨rfl, rfl, rfl, rfl, hr ElemRegs.v, hr ElemRegs.s, hr ElemRegs.p, hr ElemRegs.m, hr ElemRegs.k, hr ElemRegs.res, hr ElemRegs.accW,
    hr ElemRegs.accC, hr ElemRegs.gains, hr ElemRegs.exc, hr ElemRegs.guf, hr ElemRegs.ctx⟩

end Sys2Proof.Laws
end

section
/-! SUPPORT. What the void and the commit make of a core (R136, R201, R218, R332, R345), with O47. -/

namespace Sys2Proof.Laws

open Sys2Proof.Machine Sys2Proof.Safety

theorem elemOf_voidCore (k : Core) (e : Fin 96) : elemOf (voidCore k) e = { elemOf k e with r := (elemOf k e).start, li := 0 } := by
  simp [elemOf, voidCore, allElems]

theorem voidCore_ports (k : Core) (i : Fin 16) :
    (voidCore k).ports[i] = { k.ports[i] with pos := (k.ports[i]).pos0, step := (k.ports[i]).step0, fin := (k.ports[i]).fin0, slow := false } := by
  simp [voidCore, allElems]

/-- The bank operations of a round change the banks, and are gone. -/
theorem applyBankOps_keeps (k : Core) : { applyBankOps k with banks := k.banks, bankOps := k.bankOps } = k := by
  have hop : ∀ (c : Core) (o : BankOp), { applyBankOp c o with banks := k.banks } = { c with banks := k.banks } := by
    intro c o
    cases o <;> rfl
  have hall : { k.bankOps.foldl applyBankOp k with banks := k.banks } = { k with banks := k.banks } :=
    List.foldlRecOn (motive := fun c : Core => { c with banks := k.banks } = { k with banks := k.banks }) k.bankOps applyBankOp rfl
      (fun c hc o _ => (hop c o).trans hc)
  exact congrArg (fun c : Core => { c with bankOps := k.bankOps }) hall

/-- The counts of a round change the event counters of its core. -/
theorem foldl_addEvc_keeps (l : List (Fin 8 × BitVec 16)) (k : Core) : { l.foldl addEvc k with evc := k.evc } = k :=
  List.foldlRecOn (motive := fun c : Core => { c with evc := k.evc } = k) l addEvc rfl (fun _ hc _ _ => hc)

/-- A core with the bank operations and the counts of its round made. -/
def countedCore (k : Core) : Core := (applyBankOps k).cnts.foldl addEvc (applyBankOps k)

theorem countedCore_keeps (k : Core) : { countedCore k with banks := k.banks, bankOps := k.bankOps, evc := k.evc } = k := by
  have h1 := congrArg (fun c : Core => { c with banks := k.banks, bankOps := k.bankOps })
    (foldl_addEvc_keeps (applyBankOps k).cnts (applyBankOps k))
  have h2 := applyBankOps_keeps k
  have hevc := congrArg Core.evc h2
  exact (congrArg (fun c : Core => { c with evc := k.evc }) h1).trans ((congrArg (fun c : Core => { c with evc := k.evc }) h2).trans rfl)

theorem countedCore_bankOps (k : Core) : (countedCore k).bankOps = [] :=
  (congrArg Core.bankOps (foldl_addEvc_keeps (applyBankOps k).cnts (applyBankOps k)) :)

/-- What the commit makes of a core whose bank operations and counts have been made. -/
def settledCore (g : Graph) (k : Core) : Core :=
  { allElems k (fun _ x => commitElem g x) with
    gainsNext := k.gainsNext ++ k.gainsHeld, gainsHeld := [], stores := [], hideOps := [], held := [], cnts := []
    units := 0, weights := [], sad := [], lineNow := [], lineNext := [], armw := armwOf g }

theorem commitCore_eq (g : Graph) (k : Core) : commitCore g k = settledCore g (countedCore k) := by
  simp only [commitCore, settledCore, countedCore, allElems]

theorem elemOf_settledCore (g : Graph) (k : Core) (e : Fin 96) : elemOf (settledCore g k) e = commitElem g (elemOf k e) := by
  simp [elemOf, settledCore, allElems]

theorem settledCore_stays (g : Graph) (k : Core) :
    (settledCore g k).bankOps = k.bankOps ∧ (settledCore g k).tiles = k.tiles ∧ (settledCore g k).loft = k.loft ∧ (settledCore g k).c = k.c := by
  simp only [settledCore, allElems, and_self]

theorem settledCore_released (g : Graph) (k : Core) :
    (settledCore g k).stores = [] ∧ (settledCore g k).hideOps = [] ∧ (settledCore g k).held = [] ∧ (settledCore g k).gainsHeld = []
      ∧ (settledCore g k).gainsNext = k.gainsNext ++ k.gainsHeld := by
  simp only [settledCore, allElems, and_self]

theorem elemOf_commitCore (g : Graph) (k : Core) (e : Fin 96) : elemOf (commitCore g k) e = commitElem g (elemOf k e) := by
  have helem : elemOf (countedCore k) e = elemOf k e := (congrArg (fun c : Core => elemOf c e) (countedCore_keeps k) :)
  rw [commitCore_eq, elemOf_settledCore, helem]

/-- Settles O47, field by field of what `voidCore` and `commitCore` make. -/
theorem commitAndVoidOfACore : Obligations.CommitAndVoidOfACore := by
  unfold Obligations.CommitAndVoidOfACore
  refine ⟨fun k e i => ?_, fun g k e => ?_⟩
  · rw [elemOf_voidCore, voidCore_ports]
    simp only [voidCore, allElems, and_self]
  · have hk {α : Type} (f : Core → α) := congrArg f (countedCore_keeps k)
    obtain ⟨hbank, htiles, hloft, hc⟩ := settledCore_stays g (countedCore k)
    obtain ⟨hstores, hhide, hheld, hgone, hgains⟩ := settledCore_released g (countedCore k)
    intro x y
    have hy : y = commitElem g x := elemOf_commitCore g k e
    rw [hy, commitCore_eq]
    exact ⟨rfl, rfl, rfl, rfl, rfl, rfl, rfl, rfl, rfl, rfl, hstores, hhide, hheld, hbank.trans (countedCore_bankOps k),
      hgains.trans (congrArg₂ (· ++ ·) (hk Core.gainsNext) (hk Core.gainsHeld)), hgone, htiles.trans (hk Core.tiles), hloft.trans (hk Core.loft),
      hc.trans (hk Core.c)⟩

end Sys2Proof.Laws
end

section
/-! SUPPORT. What an access to a hide word or to memory can change of the device, said once for each function (R74, R82, R86 to R88, R156, R158): all
else of the state is as it was. -/

namespace Sys2Proof.Laws

open Sys2Proof.Machine Sys2Proof.Safety

/-- The device without what an access to a hide word changes: requests at arbiters, immediate accesses, the words, and the tasks that a count word
sets. -/
def besideHide (s : State) : State := { s with arbs := [], loads := [], hide := [], tasks := [] }

/-- The device without what an access to memory through L2 can change besides: contents and lines, metadata, capture units with the HITCH that a
sample may trigger, and what is urgent. -/
def besideMemory (s : State) : State :=
  { besideHide s with
    caps := [], freeLat := 0, hitch := false, hostLink := false, poolUp := Vector.replicate 2 false, ports := Vector.replicate 18 FPort.reset
    mem := [], pend := [], l2 := [], mdt := [], stale := [], mdtHeld := [], lostMem := [], urgent := [] }

theorem besideMemory_of_besideHide {s t : State} (h : besideHide t = besideHide s) : besideMemory t = besideMemory s :=
  congrArg (fun u : State => { u with
    caps := [], freeLat := 0, hitch := false, hostLink := false, poolUp := Vector.replicate 2 false, ports := Vector.replicate 18 FPort.reset
    mem := [], pend := [], l2 := [], mdt := [], stale := [], mdtHeld := [], lostMem := [], urgent := [] }) h

theorem cores_of_besideMemory {s t : State} (h : besideMemory t = besideMemory s) : t.cores = s.cores := (congrArg State.cores h :)
theorem parts_of_besideMemory {s t : State} (h : besideMemory t = besideMemory s) : t.parts = s.parts := (congrArg State.parts h :)
theorem frames_of_besideMemory {s t : State} (h : besideMemory t = besideMemory s) : t.frames = s.frames := (congrArg State.frames h :)

/-! ### Arbiters and hide words -/

@[simp] theorem arbAsk_besideHide (s : State) (arbiter : Nat) (cls : BitVec 2) (port name : Nat) :
    besideHide (arbAsk s arbiter cls port name) = besideHide s := by
  unfold arbAsk
  split <;> rfl

@[simp] theorem edgeAsk_besideHide (s : State) (cls : BitVec 2) (port die name : Nat) : besideHide (edgeAsk s cls port die name) = besideHide s := by
  unfold edgeAsk
  split
  · exact foldl_keeps _ (fun _ _ => arbAsk_besideHide _ _ _ _ _) _ _
  · simp [baseAsk]

@[simp] theorem askMemory_besideHide (s : State) (k : Nat) (v : Via) : besideHide (askMemory s k v) = besideHide s := by
  unfold askMemory
  dsimp only
  split <;> simp [baseAsk]

@[simp] theorem hideRequest_besideHide (s : State) (p off : Nat) (cls : BitVec 2) (port : Nat) :
    besideHide (hideRequest s p off cls port) = besideHide s := by
  simp only [hideRequest, hideAsk]
  split <;> rfl

@[simp] theorem hideWrite_besideHide (s : State) (p off : Nat) (w : DWord) : besideHide (hideWrite s p off w) = besideHide s := by
  unfold hideWrite
  dsimp only
  split <;> rfl

@[simp] theorem setCount_besideHide (s : State) (base n : Nat) : besideHide (setCount s base n) = besideHide s := by
  simp [setCount]

@[simp] theorem incCount_besideHide (s : State) (base : Nat) : besideHide (incCount s base) = besideHide s := by
  unfold incCount
  dsimp only
  split
  · rfl
  · exact setCount_besideHide _ _ _

@[simp] theorem decCount_besideHide (s : State) (base : Nat) : besideHide (decCount s base) = besideHide s := by
  unfold decCount
  dsimp only
  (repeat' split)
  · rfl
  · exact (setCount_besideHide s _ _ :)
  · exact setCount_besideHide s _ _

/-- Dropping what the prefixes of a domain hold of a page set writes hide words alone (R180). -/
theorem pxWalk_besideHide (s : State) (dom base : Nat) : besideHide (pxWalk s dom base) = besideHide s := by
  unfold pxWalk
  split
  · rfl
  · refine foldl_keeps _ (fun s k => foldl_keeps _ (fun s w => ?_) _ s) _ s
    dsimp only
    split
    · simp [pxDrop, pxPut1]
    · rfl

/-! ### Lines of L2 -/

@[simp] theorem writeSector_besideMemory (l : Line) (s : State) (k : Nat) : besideMemory (writeSector l s k) = besideMemory s := by
  unfold writeSector
  dsimp only
  (repeat' split) <;> rfl

theorem writtenBack_besideMemory (l : Line) (line : Nat) (s : State) (i : Nat) : besideMemory (writtenBack l line s i) = besideMemory s := by
  simp only [writtenBack, writeSector_besideMemory]
  split
  · rfl
  · exact (besideMemory_of_besideHide (askMemory_besideHide s _ _) :)

@[simp] theorem writeBack_besideMemory (s : State) (line : Nat) : besideMemory (writeBack s line) = besideMemory s := by
  unfold writeBack
  split
  · rfl
  next l _ =>
  have hlines : besideMemory (((upTo 4).filter (fun k => l.dirty.getLsbD k)).foldl (writtenBack l line) s) = besideMemory s :=
    foldl_keeps _ (writtenBack_besideMemory l line) _ _
  dsimp only
  (repeat' split)
  · rfl
  all_goals exact hlines

@[simp] theorem evictLine_besideMemory (s : State) (line : Nat) : besideMemory (evictLine s line) = besideMemory s := writeBack_besideMemory s line

@[simp] theorem l2Room_besideMemory (s : State) (f die line : Nat) : besideMemory (l2Room s f die line) = besideMemory s := by
  unfold l2Room
  dsimp only
  (repeat' split) <;> simp

@[simp] theorem sampleLatency_besideMemory (s : State) (die probe p : Nat) : besideMemory (sampleLatency s die probe p) = besideMemory s := by
  refine foldl_keeps _ (fun s k => ?_) _ _
  simp only [takeSample]
  split <;> rfl

@[simp] theorem sampleRead_besideMemory (s : State) (vf die f : Nat) (miss : Bool) (u : Use) :
    besideMemory (sampleRead s vf die f miss u) = besideMemory s := by
  unfold sampleRead
  dsimp only
  (repeat' split) <;> simp

theorem setView_besideMemory (s : State) (k : Nat) (l : List Byte) : besideMemory (setView s k l) = besideMemory s := by
  unfold setView
  split <;> rfl

theorem fillSector_besideMemory (s : State) (cattr : BitVec 2) (k : Nat) : besideMemory (fillSector s cattr k) = besideMemory s := by
  simp only [fillSector]
  (repeat' split)
  · rfl
  · exact setView_besideMemory s k _
  · exact setView_besideMemory s k _
  · rfl

theorem mdtTouch_besideMemory (s : State) (line : Nat) : besideMemory (mdtTouch s line) = besideMemory s := rfl

theorem l2Touch_besideMemory {s t : State} {v : Via} {cattr : BitVec 2} {a : Nat} {u : Use} (e : l2Touch s v cattr a u = .ok t) :
    besideMemory t = besideMemory s := by
  simp only [l2Touch] at e
  split at e
  · cases e
  split at e
  · cases e
  split at e
  · cases e
  cases e
  refine (sampleRead_besideMemory _ _ _ _ _ _).trans ?_
  simp only [apply_ite besideMemory, fillSector_besideMemory, besideMemory_of_besideHide (askMemory_besideHide _ _ _), l2Room_besideMemory,
    besideMemory_of_besideHide (edgeAsk_besideHide _ _ _ _ _), besideMemory_of_besideHide (arbAsk_besideHide _ _ _ _ _), mdtTouch_besideMemory, ite_self]

end Sys2Proof.Laws
end

section
/-! SUPPORT. Frames and tokens of the control complex (R124, R135, R145, R155, R157, R160, R161, R163 to R165, R180, R190), with O42. -/

namespace Sys2Proof.Laws

open Sys2Proof.Machine Sys2Proof.Safety

theorem mem_upFrom (n k x : Nat) : x ∈ upFrom n k ↔ k ≤ x ∧ x < k + n := by
  rw [upFrom_eq_range', List.mem_range'_1]

/-! ### Tokens -/

/-- The device without what a token changes: latches, edge TLBs, the tokens on their way. -/
def besideTokens (s : State) : State := { s with cores := State.reset.cores, tlb := State.reset.tlb, tokens := [] }

theorem passToken_besideTokens (s : State) (cs : List Nat) (t : Token) : besideTokens (passToken s cs t) = besideTokens s :=
  foldl_keeps besideTokens (f := fun s c => modCore s (coreNo c) (passNodes t)) (fun _ _ => rfl) _ s

theorem passTokens_besideTokens (s : State) (cs : List Nat) : besideTokens (passTokens s cs) = besideTokens s :=
  foldl_keeps besideTokens (fun s t => passToken_besideTokens s cs t) s.tokens s

theorem issueToken_besideTokens (s : State) (all : Bool) (base count : Nat) : besideTokens (issueToken s all base count) = besideTokens s :=
  passTokens_besideTokens _ _

/-- No latch of the core names a frame of the token. -/
def clearOf (t : Token) (k : Core) : Prop := ∀ (i : Fin 16) (l : Latch), (k.ports[i]).latch = some l → t.names l.frame.toNat = false

theorem clearOf_passNodes (t : Token) (k : Core) : clearOf t (passNodes t k) := by
  intro i l hl
  simp only [passNodes, Fin.getElem_fin, Vector.getElem_ofFn] at hl
  split at hl
  · next l' _ =>
    by_cases h : t.names l'.frame.toNat = true
    · rw [if_pos h] at hl
      cases hl
    · rw [if_neg h] at hl
      cases hl
      exact Bool.eq_false_iff.2 h
  · cases hl

theorem clearOf_passToken (s : State) (cs : List Nat) (t : Token) (c : Fin 64) (hleft : c.val ∈ t.left) (hcs : c.val ∈ cs) :
    clearOf t (coreOf (passToken s cs t) c) := by
  have hmem : c ∈ (t.left.filter (fun c => cs.contains c)).map coreNo :=
    List.mem_map.2 ⟨c.val, List.mem_filter.2 ⟨hleft, by simpa using hcs⟩, coreNo_val c⟩
  exact coreOf_modCores_mem (I := fun _ => True) (P := clearOf t) (fun _ _ => trivial) (fun k _ => clearOf_passNodes t k) _ s trivial hmem

/-- No graph has a round in flight on the core: a token passes its nodes at once (R155). -/
def quietCore (s : State) (c : Fin 64) : Prop :=
  ∀ p slot g, (coreOf s c).owner = some (p, slot) → graphOf s p slot = some g → g.run ≠ .round ∧ g.run ≠ .ended ∧ g.run ≠ .heldCommit

theorem quietCore_of_same {s t : State} {c : Fin 64} (hc : t.cores = s.cores) (hp : t.parts = s.parts) (h : quietCore s c) : quietCore t c := by
  intro p slot g ho hg
  rw [coreOf_of_cores hc] at ho
  rw [graphOf, partOf_of_parts hp] at hg
  exact h p slot g ho hg

/-- The latches of a quiet core name no frame of a token once it is issued. -/
theorem issueToken_latch {s : State} {c : Fin 64} {i : Fin 16} {l : Latch} (all : Bool) (base count : Nat) (hq : quietCore s c)
    (hl : ((coreOf (issueToken s all base count) c).ports[i]).latch = some l) :
    all = false ∧ ¬ (base ≤ l.frame.toNat ∧ l.frame.toNat < base + count) := by
  have hc64 : c.val ∈ upTo 64 := (mem_upFrom 64 0 c.val).2 ⟨Nat.zero_le _, by have := c.isLt; omega⟩
  have hclear : clearOf ⟨all, base, count, upTo 64⟩ (coreOf (issueToken s all base count) c) := by
    simp only [issueToken, passTokens, List.foldl_append, List.foldl_cons, List.foldl_nil]
    refine clearOf_passToken _ _ ⟨all, base, count, upTo 64⟩ c hc64 (List.mem_filter.2 ⟨hc64, ?_⟩)
    rw [coreNo_val]
    cases ho : (coreOf s c).owner with
    | none => rfl
    | some o =>
      obtain ⟨p, slot⟩ := o
      cases hg : graphOf s p slot with
      | none => simp [hg]
      | some g =>
        obtain ⟨hround, hended, hheld⟩ := hq p slot g ho hg
        simp only [hg, Graph.inFlight]
        cases hrun : g.run <;> simp_all
  have hnames := hclear i l hl
  simpa [Token.names] using hnames

/-! ### Descriptors -/

theorem modFrame_frame (s : State) (f : Nat) (g : Frame → Frame) : { modFrame s f g with frames := s.frames } = s := by
  unfold modFrame
  split <;> rfl

theorem inTables_modFrame (s : State) (f x : Nat) (g : Frame → Frame) : inTables (modFrame s f g) x = inTables s x := by
  unfold modFrame
  split <;> rfl

theorem tget_modFrame {s : State} {f : Nat} (h : inTables s f = false) (g : Frame → Frame) (x : Nat) :
    tget Frame.reset (modFrame s f g).frames x = if x = f then g (tget Frame.reset s.frames f) else tget Frame.reset s.frames x := by
  rw [modFrame, if_neg (Bool.eq_false_iff.1 h)]
  exact tget_tset _ _ _ _ _

theorem modFrame_inTables {s : State} {f : Nat} (h : inTables s f = true) (g : Frame → Frame) : modFrame s f g = s := if_pos h

/-- A change of descriptors over a run of frames reaches each of them that no table holds, and no other. -/
theorem tget_foldl_modFrame {g : Frame → Frame} (hg : ∀ d, g (g d) = g d) (l : List Nat) (s : State) (f : Nat) :
    tget Frame.reset (l.foldl (fun s f => modFrame s f g) s).frames f
      = if f ∈ l ∧ inTables s f = false then g (tget Frame.reset s.frames f) else tget Frame.reset s.frames f := by
  induction l generalizing s with
  | nil => simp
  | cons a r ih =>
    rw [List.foldl_cons, ih, inTables_modFrame]
    by_cases ha : inTables s a = true
    · rw [modFrame_inTables ha]
      by_cases hf : f = a
      · subst hf
        simp [ha]
      · simp [hf]
    · rw [tget_modFrame (Bool.eq_false_iff.2 ha)]
      by_cases hf : f = a
      · subst hf
        simp [hg, Bool.eq_false_iff.2 ha]
      · simp [hf]

theorem foldl_modFrame_frame (g : Frame → Frame) (l : List Nat) (s : State) :
    { l.foldl (fun s f => modFrame s f g) s with frames := s.frames } = s :=
  foldl_keeps (fun t : State => { t with frames := s.frames }) (f := fun s f => modFrame s f g)
    (fun t f => congrArg (fun u : State => { u with frames := s.frames }) (modFrame_frame t f g)) l s

/-! ### Poison -/

/-- A frame that is poisoned keeps its descriptor but for the bit, and nothing of memory and L2 changes with it (R161, R180). -/
theorem poisonFrame_spec {s : State} {f : Nat} (hv : (tget Frame.reset s.frames f).v = true) (ht : inTables s f = false) :
    tget Frame.reset (poisonFrame s f).frames f = { tget Frame.reset s.frames f with poison := true }
    ∧ (∀ x, x ≠ f → tget Frame.reset (poisonFrame s f).frames x = tget Frame.reset s.frames x)
    ∧ (poisonFrame s f).mem = s.mem ∧ (poisonFrame s f).lostMem = s.lostMem ∧ (poisonFrame s f).l2 = s.l2 := by
  have hissue := issueToken_besideTokens (modFrame s f (fun d => { d with poison := true })) false f 1
  have hwalk : besideHide (besideTokens (poisonFrame s f)) = besideHide (besideTokens (modFrame s f (fun d => { d with poison := true }))) := by
    unfold poisonFrame
    rw [if_neg (by simp [hv])]
    dsimp only
    split
    · exact congrArg besideHide hissue
    · exact (congrArg besideTokens (pxWalk_besideHide _ _ _)).trans (congrArg besideHide hissue)
  have hframe := modFrame_frame s f (fun d => { d with poison := true })
  have hframes : (poisonFrame s f).frames = (modFrame s f (fun d => { d with poison := true })).frames := (congrArg State.frames hwalk :)
  refine ⟨?_, fun x hx => ?_, ?_, ?_, ?_⟩
  · rw [hframes, tget_modFrame ht, if_pos rfl]
  · rw [hframes, tget_modFrame ht, if_neg hx]
  · exact (congrArg State.mem hwalk :).trans (congrArg State.mem hframe :)
  · exact (congrArg State.lostMem hwalk :).trans (congrArg State.lostMem hframe :)
  · exact (congrArg State.l2 hwalk :).trans (congrArg State.l2 hframe :)

section
variable {s : State} {frame : BitVec 32} (hv : (tget Frame.reset s.frames frame.toNat).v = true)
include hv

theorem framePoison_contents : exec (.framePoison ⟨frame, .contents⟩) s = .next (loseFrame s frame.toNat) :=
  congrArg Host.Outcome.next (if_neg (by simp [hv]))

theorem framePoison_memory (k : BitVec 10) : exec (.framePoison ⟨frame, .memory k⟩) s
    = .next (poisonFrame { s with lostMem := unionPos [1024 * frame.toNat + k.toNat] s.lostMem } frame.toNat) :=
  congrArg Host.Outcome.next (if_neg (by simp [hv]))

theorem framePoison_unread : exec (.framePoison ⟨frame, .unread⟩) s = .next (poisonFrame s frame.toNat) :=
  congrArg Host.Outcome.next (if_neg (by simp [hv]))

theorem framePoison_metadata (n : BitVec 8) : exec (.framePoison ⟨frame, .metadata n⟩) s
    = .next { s with mdtBad := unionPos [256 * frame.toNat + n.toNat] s.mdtBad } :=
  congrArg Host.Outcome.next (if_neg (by simp [hv]))

theorem framePoison_sector (k : BitVec 10) : exec (.framePoison ⟨frame, .sector k⟩) s
    = .next (sectorError s frame.toNat (1024 * frame.toNat + k.toNat)) :=
  congrArg Host.Outcome.next (if_neg (by simp [hv]))
end

/-- The bit of a sector in the masks of its line. -/
def sectorBit (k : Nat) : BitVec 4 := BitVec.ofNat 4 (2 ^ (k % 4))

section
variable {s : State} {k : Nat} {q : Line} (hq : tfind s.l2 (k / 4) = some q) (hvalid : q.valid &&& sectorBit k ≠ 0)
include hq hvalid

theorem sectorError_clean (f : Nat) (hclean : q.dirty &&& sectorBit k = 0) :
    sectorError s f k = { s with l2 := tput s.l2 (k / 4) { q with valid := q.valid &&& ~~~(sectorBit k) } } := by
  simp only [sectorError, hq]
  exact (if_neg hvalid).trans (if_pos hclean)

theorem sectorError_dirty (f : Nat) (hdirty : q.dirty &&& sectorBit k ≠ 0) :
    sectorError s f k = poisonFrame { s with l2 := tput s.l2 (k / 4) { q with lost := q.lost ||| sectorBit k } } f := by
  simp only [sectorError, hq]
  exact (if_neg hvalid).trans (if_neg hdirty)
end

/-! ### The changes that tokens follow -/

/-- A write of the control complex: the line leaves L2, the word stands in memory, and nothing else but L2 and metadata changes (R190). -/
theorem ctlWrite_spec (s : State) (a : Nat) (w : DWord) : (ctlWrite s a w).mem = write64 s.mem a w ∧ besideMemory (ctlWrite s a w) = besideMemory s := by
  refine ⟨?_, (evictLine_besideMemory s (a / 256) :)⟩
  exact congrArg (fun m => write64 m a w) (evictLine_memories s (a / 256)).1

/-- What the change makes of a state is no business of cores and partitions. -/
theorem narrow_places (s : State) (base n : Nat) (change : Narrowing) :
    (narrow s base n change).cores = s.cores ∧ (narrow s base n change).parts = s.parts := by
  have hrun : ∀ g : Frame → Frame, ((upFrom n base).foldl (fun s f => modFrame s f g) s).cores = s.cores
      ∧ ((upFrom n base).foldl (fun s f => modFrame s f g) s).parts = s.parts := fun g =>
    ⟨(congrArg State.cores (foldl_modFrame_frame g (upFrom n base) s) :), (congrArg State.parts (foldl_modFrame_frame g (upFrom n base) s) :)⟩
  cases change with
  | none => exact ⟨rfl, rfl⟩
  | ttEntry a w =>
    have h := (ctlWrite_spec s (a.toNat / 8 * 8) w).2
    exact ⟨cores_of_besideMemory h, parts_of_besideMemory h⟩
  | owner o => exact hrun _
  | sdom d => exact hrun _

/-- A token is issued after its change: what has been changed stands, and quiet cores are clear of its frames. -/
theorem narrow_then_token {s : State} {base n : Nat} {change : Narrowing} (all : Bool) (first run : Nat) :
    (issueToken (narrow s base n change) all first run).mem = (narrow s base n change).mem
    ∧ (issueToken (narrow s base n change) all first run).frames = (narrow s base n change).frames
    ∧ ∀ (c : Fin 64) (i : Fin 16) (l : Latch), quietCore s c →
        ((coreOf (issueToken (narrow s base n change) all first run) c).ports[i]).latch = some l →
        all = false ∧ ¬ (first ≤ l.frame.toNat ∧ l.frame.toNat < first + run) := by
  have h := issueToken_besideTokens (narrow s base n change) all first run
  obtain ⟨hc, hp⟩ := narrow_places s base n change
  exact ⟨(congrArg State.mem h :), (congrArg State.frames h :), fun c i l hq => issueToken_latch all first run (quietCore_of_same hc hp hq)⟩

section
variable {all : Bool} {count : BitVec 17} (s : State) (frame : BitVec 32) (hcount : all = true ∨ (1 ≤ count.toNat ∧ count.toNat ≤ 65536))
include hcount

theorem token_allowed : ¬ (!(all || (decide (1 ≤ count.toNat) && decide (count.toNat ≤ 65536)))) = true := by
  have h : (all || (decide (1 ≤ count.toNat) && decide (count.toNat ≤ 65536))) = true := by
    simpa only [Bool.or_eq_true, Bool.and_eq_true, decide_eq_true_eq] using hcount
  rw [h]
  decide

theorem relatchToken_none : exec (.relatchToken all frame ⟨count, .none⟩) s
    = .next (issueToken (narrow s frame.toNat count.toNat .none) all frame.toNat count.toNat) :=
  congrArg Host.Outcome.next (if_neg (token_allowed hcount))

theorem relatchToken_owner (o : BitVec 9) : exec (.relatchToken all frame ⟨count, .owner o⟩) s
    = .next (issueToken (narrow s frame.toNat count.toNat (.owner o)) all frame.toNat count.toNat) :=
  congrArg Host.Outcome.next (if_neg (token_allowed hcount))

theorem relatchToken_sdom (d : BitVec 10) : exec (.relatchToken all frame ⟨count, .sdom d⟩) s
    = .next (issueToken (narrow s frame.toNat count.toNat (.sdom d)) all frame.toNat count.toNat) :=
  congrArg Host.Outcome.next (if_neg (token_allowed hcount))

theorem relatchToken_pending (a : BitVec 48) (w : DWord) (h : (tfind s.pend (a.toNat / 64)).isSome = true) :
    exec (.relatchToken all frame ⟨count, .ttEntry a w⟩) s = .next (addTask s (.relatchToken all frame ⟨count, .ttEntry a w⟩)) :=
  congrArg Host.Outcome.next ((if_neg (token_allowed hcount)).trans (if_pos h))

/-- The token for a tile-table entry names the frame that the entry has named, where it named one (R157). -/
theorem relatchToken_ttEntry (a : BitVec 48) (w : DWord) (h : tfind s.pend (a.toNat / 64) = none) :
    let old := read64 s.mem (a.toNat / 8 * 8)
    exec (.relatchToken all frame ⟨count, .ttEntry a w⟩) s = .next (issueToken (narrow s frame.toNat count.toNat (.ttEntry a w)) all
      (if old.getLsbD 63 then (old.extractLsb' 16 32).toNat else frame.toNat) (if old.getLsbD 63 then 1 else count.toNat)) := by
  intro old
  have hstep : exec (.relatchToken all frame ⟨count, .ttEntry a w⟩) s = .next (
      if bit old 63 then issueToken (narrow s frame.toNat count.toNat (.ttEntry a w)) all (bitsN old 16 32) 1
      else issueToken (narrow s frame.toNat count.toNat (.ttEntry a w)) all frame.toNat count.toNat) :=
    congrArg Host.Outcome.next ((if_neg (token_allowed hcount)).trans (if_neg (by simp [h])))
  have hfield : bitsN old 16 32 = (old.extractLsb' 16 32).toNat := by
    simp [bitsN, BitVec.extractLsb'_toNat, Nat.shiftRight_eq_div_pow]
  rw [hstep, bit_eq_getLsbD, hfield]
  split <;> rfl
end

theorem relatchToken_refused (s : State) (frame : BitVec 32) {count : BitVec 17} (h : count.toNat = 0 ∨ 65536 < count.toNat) :
    exec (.relatchToken false frame ⟨count, .none⟩) s = .next s := by
  refine congrArg Host.Outcome.next (if_pos ?_)
  simp
  omega

/-! ### Fetches, moves, evictions and reclaims -/

/-- No frame of the tables has a tenant for its owner (R145). -/
theorem not_inTables_of_owner {s : State} {f : Nat} (h : (rawFrame s f).owner < 256) : inTables s f = false := by
  refine Bool.eq_false_iff.2 (fun ht => ?_)
  rw [rawFrame, if_pos ht] at h
  exact absurd h (Nat.lt_irrefl 256)

theorem rawFrame_of_untabled {s : State} {f : Nat} (h : inTables s f = false) : rawFrame s f = tget Frame.reset s.frames f :=
  if_neg (Bool.eq_false_iff.1 h)

/-- The source pair that a move notes. -/
def sourcePair (s : State) (f : Nat) : Fwd := { frame := BitVec.ofNat 32 f, tier := (rawFrame s f).tier, loc := (rawFrame s f).loc, waits := none }

/-- Step 1 of a move: the pair with the source stands, the descriptor is MOVING with the destination (R163). -/
theorem moveStart_spec {s : State} {f : Nat} (tier : BitVec 2) (loc : BitVec 48) (howner : (rawFrame s f).owner < 256) :
    (moveStart s f tier loc).fwd = s.fwd ++ [sourcePair s f] ∧ (moveStart s f tier loc).tasks = s.tasks ∧ (moveStart s f tier loc).mem = s.mem
    ∧ rawFrame (moveStart s f tier loc) f = { rawFrame s f with state := 1, tier := tier, loc := loc } := by
  have hin := not_inTables_of_owner howner
  have hraw := rawFrame_of_untabled hin
  let u : State := { s with
    placed := if (rawFrame s f).tier = 0 then tput s.placed f (locCore (rawFrame s f).loc.toNat) else s.placed
    fwd := s.fwd ++ [sourcePair s f] }
  let t := modFrame u f (fun d => { d with state := 1, tier := tier, loc := loc })
  have hmove : moveStart s f tier loc = issueToken t false f 1 := by
    unfold moveStart
    dsimp only
    split
    · next h => simp only [t, u, if_pos h]; rfl
    · next h => simp only [t, u, if_neg h]; rfl
  have htoken := issueToken_besideTokens t false f 1
  have hframe : { t with frames := u.frames } = u := modFrame_frame u f _
  have hint : inTables (issueToken t false f 1) f = false :=
    (congrArg (fun v : State => inTables v f) htoken :).trans ((inTables_modFrame u f f _).trans hin)
  have hframes : (issueToken t false f 1).frames = t.frames := (congrArg State.frames htoken :)
  rw [hmove]
  refine ⟨(congrArg State.fwd htoken :).trans (congrArg State.fwd hframe :), (congrArg State.tasks htoken :).trans (congrArg State.tasks hframe :),
    (congrArg State.mem htoken :).trans (congrArg State.mem hframe :), ?_⟩
  rw [rawFrame_of_untabled hint, hframes, hraw]
  exact (tget_modFrame (s := u) hin _ f).trans (if_pos rfl)

section
variable {s : State} {f : Nat} {tier : BitVec 2} {loc : BitVec 48} (flash : Bool) (again : Instr) (hp : pairOf s f = none)
include hp

theorem moveStep_starts (hv : (frameDesc s f).v = true) (hstate : (rawFrame s f).state = 0) (howner : (rawFrame s f).owner < 256)
    (hlen : s.fwd.length < 8) (hrec : inRecords s f = false) (hwin : inWindow s f = false ∨ tier = 0) (hplace : placeOk s f tier loc = true) :
    moveStep s f flash tier loc again = addTask (moveStart s f tier loc) again := by
  have hwin' : inWindow s f = true → tier = 0 := fun h => hwin.resolve_left (by rw [h]; decide)
  have howner' : ¬ 256 ≤ (rawFrame s f).owner := Nat.not_le.2 howner
  simp only [moveStep, hp]
  rw [if_neg (by simp [hv, hstate, howner', hrec, hplace]; exact hwin'), if_neg (Nat.not_le.2 hlen)]

theorem moveStep_stays (h : inRecords s f = true ∨ 256 ≤ (rawFrame s f).owner ∨ placeOk s f tier loc = false) :
    moveStep s f flash tier loc again = s := by
  simp only [moveStep, hp]
  refine if_pos ?_
  rcases h with h | h | h <;> simp [h]
end

theorem frameMove_eq {s : State} {frame : BitVec 32} {tier : BitVec 2} {loc : BitVec 48} (h : tier.toNat < 2) :
    exec (.frameMove frame tier loc) s = .next (moveStep s frame.toNat false tier loc (.frameMove frame tier loc)) :=
  congrArg Host.Outcome.next (if_neg (Nat.not_le.2 h))

theorem frameEvict_eq (s : State) (frame : BitVec 32) (loc : BitVec 48) :
    exec (.frameEvict frame loc) s = .next (moveStep s frame.toNat true 2 loc (.frameEvict frame loc)) := rfl

/-- The first step of a reclaim: every frame of the run is on its way to reuse, one token for all (R157). -/
theorem reclaimStep_starts {s : State} {base : Nat} (n : Nat) (h : reclaimOf s base = none) : reclaimStep s base n = (false, reclaimStart s base n) := by
  simp only [reclaimStep, h]

theorem reclaimStart_spec (s : State) (base n : Nat) :
    (reclaimStart s base n).reclaim = s.reclaim ++ (upFrom n base).map (fun f => { frame := f, waits := none })
    ∧ (reclaimStart s base n).tasks = s.tasks ∧ (reclaimStart s base n).mem = s.mem ∧ (reclaimStart s base n).frames = s.frames := by
  have h := issueToken_besideTokens { s with reclaim := s.reclaim ++ (upFrom n base).map (fun f => { frame := f, waits := none }) } false base n
  exact ⟨(congrArg State.reclaim h :), (congrArg State.tasks h :), (congrArg State.mem h :), (congrArg State.frames h :)⟩

section
variable {s : State} {frame : BitVec 32} (hv : (tget Frame.reset s.frames frame.toNat).v = true) (hr : reclaimOf s frame.toNat = none)
include hv hr

theorem frameReclaim_starts : exec (.frameReclaim frame) s = .next (addTask (reclaimStart s frame.toNat 1) (.frameReclaim frame)) := by
  refine congrArg Host.Outcome.next ((if_neg (by simp [hv])).trans ?_)
  rw [reclaimStep_starts 1 hr]
  rfl

theorem pageSetReclaim_starts (hcount : countOf s frame.toNat = 0) : exec (.pageSetReclaim frame) s
    = .next (addTask (reclaimStart s frame.toNat (setLen s frame.toNat)) (.pageSetReclaim frame)) := by
  refine congrArg Host.Outcome.next ((if_neg (by simp [hv, hcount])).trans ?_)
  rw [reclaimStep_starts _ hr]
  rfl
end

theorem frameFetch_reads {s : State} {frame : BitVec 32} (hv : (frameDesc s frame.toNat).v = true) (hstate : (rawFrame s frame.toNat).state = 2)
    (htier : (rawFrame s frame.toNat).tier = 2) (hf : s.fetching.contains frame.toNat = false) :
    exec (.frameFetch frame) s = .next { s with fetching := s.fetching ++ [frame.toNat] } := by
  have hin : inTables s frame.toNat = false := by
    refine Bool.eq_false_iff.2 (fun ht => ?_)
    rw [rawFrame, if_pos ht] at hstate
    exact absurd (show (0 : BitVec 2) = 2 from hstate) (by decide)
  rw [rawFrame_of_untabled hin] at hstate htier
  have h0 : ¬ (!(frameDesc s frame.toNat).v || decide ((tget Frame.reset s.frames frame.toNat).state = 0)) = true := by simp [hv, hstate]
  have h1 : ¬ (tget Frame.reset s.frames frame.toNat).state = 1 := by rw [hstate]; decide
  exact congrArg Host.Outcome.next ((if_neg h0).trans ((if_neg h1).trans ((if_pos htier).trans (if_neg (by rw [hf]; decide)))))

section
variable {s : State} {frame : BitVec 32} {tier : BitVec 2} {loc : BitVec 48}

theorem rawFrame_addTask (s : State) (i : Instr) (f : Nat) : rawFrame (addTask s i) f = rawFrame s f := rfl

theorem placeOk_flash (s : State) (f : Nat) (loc : BitVec 48) :
    placeOk s f 2 loc = (loc.toNat / 2 ^ 32 % 256 ≠ 0 && !flashUsed s loc.toNat) := rfl

/-- What the first step of a move or an eviction leaves, with the task that goes on (R145, R163). -/
def Moving (s t : State) (f : Nat) (tier : BitVec 2) (loc : BitVec 48) (goOn : Instr) : Prop :=
  t.fwd = s.fwd ++ [sourcePair s f] ∧ t.tasks = s.tasks ++ [goOn] ∧ t.mem = s.mem
    ∧ rawFrame t f = { rawFrame s f with state := 1, tier := tier, loc := loc }

theorem moveStart_moving (f : Nat) (howner : (rawFrame s f).owner < 256) (goOn : Instr) :
    Moving s (addTask (moveStart s f tier loc) goOn) f tier loc goOn := by
  obtain ⟨hfwd, htasks, hmem, hraw⟩ := moveStart_spec tier loc howner
  generalize moveStart s f tier loc = t at hfwd htasks hmem hraw
  exact ⟨hfwd, congrArg (· ++ [goOn]) htasks, hmem, (rawFrame_addTask t goOn f).trans hraw⟩

section
variable (hp : pairOf s frame.toNat = none)
include hp

theorem frameMove_stays (h : inRecords s frame.toNat = true ∨ 256 ≤ (rawFrame s frame.toNat).owner ∨ placeOk s frame.toNat tier loc = false) :
    exec (.frameMove frame tier loc) s = .next s := by
  by_cases htier : tier.toNat < 2
  · exact (frameMove_eq htier).trans (congrArg Host.Outcome.next (moveStep_stays _ _ hp h))
  · exact congrArg Host.Outcome.next (if_pos (Nat.not_lt.1 htier))

theorem frameEvict_stays (h : inRecords s frame.toNat = true ∨ 256 ≤ (rawFrame s frame.toNat).owner ∨ loc.toNat / 2 ^ 32 % 256 = 0) :
    exec (.frameEvict frame loc) s = .next s := by
  refine (frameEvict_eq s frame loc).trans (congrArg Host.Outcome.next (moveStep_stays _ _ hp (h.imp_right (Or.imp_right (fun hns => ?_)))))
  rw [placeOk_flash, hns]
  rfl

variable (hv : (frameDesc s frame.toNat).v = true) (hstate : (rawFrame s frame.toNat).state = 0) (howner : (rawFrame s frame.toNat).owner < 256)
  (hlen : s.fwd.length < 8) (hrec : inRecords s frame.toNat = false)
include hv hstate howner hlen hrec

theorem frameMove_starts (htier : tier.toNat < 2) (hwin : inWindow s frame.toNat = false ∨ tier = 0) (hplace : placeOk s frame.toNat tier loc = true) :
    ∃ t, exec (.frameMove frame tier loc) s = .next t ∧ Moving s t frame.toNat tier loc (.frameMove frame tier loc) :=
  ⟨_, (frameMove_eq htier).trans (congrArg _ (moveStep_starts _ _ hp hv hstate howner hlen hrec hwin hplace)), moveStart_moving _ howner _⟩

theorem frameEvict_starts (hwin : inWindow s frame.toNat = false) (hplace : placeOk s frame.toNat 2 loc = true) :
    ∃ t, exec (.frameEvict frame loc) s = .next t ∧ Moving s t frame.toNat 2 loc (.frameEvict frame loc) :=
  ⟨_, (frameEvict_eq s frame loc).trans (congrArg _ (moveStep_starts _ _ hp hv hstate howner hlen hrec (Or.inl hwin) hplace)),
    moveStart_moving _ howner _⟩

end
end

/-- Settles O42, by what was lost of the frame, by the change that a token follows, and by the first step of each way of a frame. -/
theorem frameControl : Obligations.FrameControl := by
  unfold Obligations.FrameControl
  refine ⟨?_, ?_⟩
  · intro s frame f all count c i l n k a w o dom b d inRun sector m poisons quiet token
    refine ⟨fun hv ht => ?_, fun hv q hq hvalid hclean => ?_, fun hv => ?_, fun hv => ?_, fun hcount => ?_, fun hall hcount => ?_⟩
    · -- a frame is poisoned, in a state that says what was lost
      have hpoison : ∀ (u : State) (i : Instr) (holds : State → Prop), u.frames = s.frames → u.mem = s.mem → inTables u b = false →
          exec i s = .next (poisonFrame u b) →
          (∀ t : State, t.lostMem = u.lostMem → t.l2 = u.l2 → holds t) → poisons i holds := by
        intro u i holds hframes hmem htab hexec hholds
        obtain ⟨hown, hother, hm, hl, hl2⟩ := poisonFrame_spec (s := u) (f := b) (by rw [hframes]; exact hv) htab
        rw [hframes] at hown hother
        exact ⟨_, hexec, hown, hm.trans hmem, hother f, hholds _ hl hl2⟩
      refine ⟨hpoison { s with lostMem := upFrom 1024 (1024 * b) ++ s.lostMem.filter (fun k => k / 1024 ≠ b) } _ _ rfl rfl ht (framePoison_contents hv) (fun t hl _ => ?_),
        hpoison { s with lostMem := unionPos [1024 * b + k.toNat] s.lostMem } _ _ rfl rfl ht (framePoison_memory hv k) (fun t hl _ => ?_),
        hpoison s _ _ rfl rfl ht (framePoison_unread hv) (fun t hl _ => hl), fun q hq hvalid hdirty => ?_⟩
      · rw [hl]
        have hmem (x : Nat) : x ∈ upFrom 1024 (1024 * b) ++ s.lostMem.filter (fun k => k / 1024 ≠ b)
            ↔ (1024 * b ≤ x ∧ x < 1024 * b + 1024) ∨ (x ∈ s.lostMem ∧ x / 1024 ≠ b) := by
          rw [List.mem_append, mem_upFrom, List.mem_filter, decide_eq_true_iff]
        refine ⟨fun x hx => (hmem x).2 ?_, fun x hx => (hmem _).2 (Or.inl ⟨by omega, by omega⟩)⟩
        by_cases hb : x / 1024 = b
        · exact Or.inl (by omega)
        · exact Or.inr ⟨hx, hb⟩
      · rw [hl]
        exact ⟨fun x hx => (mem_unionPos _ _ x).2 (Or.inr hx), (mem_unionPos _ _ _).2 (Or.inl List.mem_cons_self)⟩
      · refine hpoison { s with l2 := tput s.l2 (sector / 4) { q with lost := q.lost ||| m } } _ _ rfl rfl ht ?_ (fun t _ hl2 => ?_)
        · rw [framePoison_sector hv k]
          exact congrArg Host.Outcome.next (sectorError_dirty hq hvalid b hdirty)
        · rw [hl2, tfind_tput, if_pos rfl]
    · rw [framePoison_sector hv k]
      exact congrArg Host.Outcome.next (sectorError_clean hq hvalid b hclean)
    · exact congrArg Host.Outcome.next (if_pos (by simp [d, b] at hv; simp [hv]))
    · exact ⟨_, framePoison_metadata hv n, (mem_unionPos _ _ _).2 (Or.inl List.mem_cons_self), fun x hx => (mem_unionPos _ _ x).2 (Or.inr hx), rfl⟩
    · -- a token is issued, after its change
      have htoken : ∀ (change : Narrowing) (first run : Nat) (holds : State → Prop),
          exec (.relatchToken all frame ⟨count, change⟩) s = .next (issueToken (narrow s b count.toNat change) all first run) →
          (∀ t : State, t.mem = (narrow s b count.toNat change).mem → t.frames = (narrow s b count.toNat change).frames → holds t) →
          token change first run holds := by
        intro change first run holds hexec hholds
        obtain ⟨hm, hf, hlatch⟩ := narrow_then_token (s := s) (base := b) (n := count.toNat) (change := change) all first run
        exact ⟨_, hexec, hholds _ hm hf, fun hq hl => hlatch c i l hq hl⟩
      have hrun : ∀ (g : Frame → Frame), (∀ x, g (g x) = g x) → ∀ t : State,
          t.mem = ((upFrom count.toNat b).foldl (fun s f => modFrame s f g) s).mem →
          t.frames = ((upFrom count.toNat b).foldl (fun s f => modFrame s f g) s).frames →
          t.mem = s.mem ∧ (inRun → inTables s f = false → tget Frame.reset t.frames f = g (tget Frame.reset s.frames f))
            ∧ (¬ inRun → tget Frame.reset t.frames f = tget Frame.reset s.frames f) := by
        intro g hg t hm hf
        have hget := tget_foldl_modFrame hg (upFrom count.toNat b) s f
        simp only [mem_upFrom] at hget
        rw [hf, hget]
        refine ⟨hm.trans (congrArg State.mem (foldl_modFrame_frame g (upFrom count.toNat b) s) :), fun h ht => if_pos ⟨h, ht⟩, fun h => if_neg (fun h' => h h'.1)⟩
      refine ⟨htoken _ _ _ _ (relatchToken_none s frame hcount) (fun t hm hf => ⟨hm, hf⟩), fun hpend => ?_,
        fun hpend => relatchToken_pending s frame hcount a w hpend,
        htoken _ _ _ _ (relatchToken_owner s frame hcount o) (hrun _ (fun _ => rfl)),
        htoken _ _ _ _ (relatchToken_sdom s frame hcount dom) (hrun _ (fun _ => rfl))⟩
      obtain ⟨hmem, hbeside⟩ := ctlWrite_spec s (a.toNat / 8 * 8) w
      exact htoken _ _ _ _ (relatchToken_ttEntry s frame hcount a w hpend) (fun t hm hf => ⟨hm.trans hmem, hf.trans (frames_of_besideMemory hbeside)⟩)
    · rw [hall]
      exact relatchToken_refused s frame hcount
  · intro s frame tier loc f d pairs
    refine ⟨frameFetch_reads, fun hv hstate howner hp hlen hrec => ⟨?_, ?_⟩, frameMove_stays, frameEvict_stays, fun hv hr => ⟨?_, fun hcount => ?_⟩⟩
    · exact frameMove_starts hp hv hstate howner hlen hrec
    · exact frameEvict_starts hp hv hstate howner hlen hrec
    · obtain ⟨hreclaim, htasks, hmem, hframes⟩ := reclaimStart_spec s f 1
      exact ⟨_, frameReclaim_starts hv hr, hreclaim, congrArg (· ++ [Instr.frameReclaim frame]) htasks, hmem, hframes⟩
    · obtain ⟨hreclaim, htasks, hmem, hframes⟩ := reclaimStart_spec s f (setLen s f)
      exact ⟨_, pageSetReclaim_starts hv hr hcount, congrArg (· ++ [Instr.pageSetReclaim frame]) htasks, hmem, hframes, hreclaim⟩

end Sys2Proof.Laws
end

section
/-! SUPPORT. What a commit does besides a core: of every function that runs after or before the cores are settled, that it leaves the cores as they are
and that a slot which has a graph keeps one (R109, R114, R130, R136, R189, R315). -/

namespace Sys2Proof.Laws

open Sys2Proof.Machine Sys2Proof.Safety

/-! ### Slots of a partition -/

/-- Every slot of a partition that has a graph keeps one. -/
def keepsGraphs (x y : Part) : Prop := ∀ k, (tfind x.graphs k).isSome = true → (tfind y.graphs k).isSome = true

theorem keepsGraphs_same {x y : Part} (h : y.graphs = x.graphs) : keepsGraphs x y := fun k hk => by rw [h]; exact hk

theorem keepsGraphs_trans {x y z : Part} (h1 : keepsGraphs x y) (h2 : keepsGraphs y z) : keepsGraphs x z := fun k hk => h2 k (h1 k hk)

theorem keepsGraphs_tput {x y : Part} {slot : Nat} {g : Graph} (h : y.graphs = tput x.graphs slot g) : keepsGraphs x y := fun k hk => by
  rw [h, tfind_tput]
  split
  · rfl
  · exact hk

theorem keepsGraphs_tmod {x y : Part} {slot : Nat} {f : Graph → Graph} (h : y.graphs = tmod x.graphs slot f) : keepsGraphs x y := fun k hk => by
  rw [h, tfind_tmod]
  split
  · rw [Option.isSome_map]; exact hk
  · exact hk

theorem keepsGraphs_foldl {α : Type} {f : Part → α → Part} (hf : ∀ x a, keepsGraphs x (f x a)) (l : List α) (x : Part) : keepsGraphs x (l.foldl f x) :=
  List.foldlRecOn (motive := keepsGraphs x) l f (keepsGraphs_same rfl) (fun y hy a _ => keepsGraphs_trans hy (hf y a))

theorem keepsGraphs_of_onlyCounts {x y : Part} (h : onlyCounts x y) : keepsGraphs x y := fun k hk => by
  obtain ⟨g, hg⟩ := Option.isSome_iff_exists.1 hk
  obtain ⟨w, hw⟩ := h.2 k g hg
  rw [hw]
  rfl

theorem planOne_keepsGraphs (hf : Nat → Nat) (x : Part) (slot k : Nat) : keepsGraphs x (planOne hf x slot k) := by
  unfold planOne
  (repeat' split)
  · exact keepsGraphs_same rfl
  · exact keepsGraphs_tput rfl
  · exact keepsGraphs_same rfl

theorem planWaiting_keepsGraphs (hf : Nat → Nat) (x : Part) (slot : Nat) : keepsGraphs x (planWaiting hf x slot) := by
  unfold planWaiting
  split
  · exact keepsGraphs_same rfl
  · dsimp only
    exact keepsGraphs_trans (keepsGraphs_foldl (f := fun x k => planOne hf x slot k) (fun x k => planOne_keepsGraphs hf x slot k) _ x)
      (keepsGraphs_tmod (f := fun g => { g with waiting := [] }) rfl)

theorem replan_keepsGraphs (hf : Nat → Nat) (x : Part) (slot : Nat) : keepsGraphs x (replan hf x slot) := by
  unfold replan
  split
  · exact keepsGraphs_same rfl
  · next g _ =>
    dsimp only
    have hplan (l : List (Nat × Demand)) (h : Graph) :
        keepsGraphs x (l.foldl (fun x e => planOne hf x slot e.1) { x with graphs := tput x.graphs slot h }) :=
      keepsGraphs_trans (keepsGraphs_tput rfl) (keepsGraphs_foldl (fun x e => planOne_keepsGraphs hf x slot e.1) l _)
    split
    · exact hplan _ _
    · refine keepsGraphs_trans (hplan _ _) (keepsGraphs_foldl (fun y e => ?_) _ _)
      exact keepsGraphs_same rfl

theorem abandon_keepsGraphs (x : Part) (slot : Nat) : keepsGraphs x (abandon x slot) := by
  unfold abandon
  split
  · exact keepsGraphs_same rfl
  · refine keepsGraphs_foldl (fun x o => ?_) _ _
    dsimp only
    (repeat' split)
    · exact keepsGraphs_same rfl
    · exact keepsGraphs_same rfl
    · exact keepsGraphs_tmod (f := fun g => modSt g o (fun s => { s with arm := none })) rfl

theorem applyCancels_keepsGraphs (hf : Nat → Nat) (x : Part) (slot : Nat) (cs : List CancelReq) : keepsGraphs x (applyCancels hf x slot cs) := by
  simp only [applyCancels]
  split
  · exact keepsGraphs_same rfl
  · have hdone := keepsGraphs_foldl (f := fun x (e : Nat × Demand) => finishDemand x e.1 true)
      (fun x e => keepsGraphs_of_onlyCounts (finishDemand_onlyCounts x e.1 true)) ((liveOn x slot).filter (fun e => cs.any (fun c => c.names e.2))) x
    exact keepsGraphs_trans hdone (keepsGraphs_trans (replan_keepsGraphs _ _ _) (abandon_keepsGraphs _ _))

theorem armOp_keepsGraphs (hf : Nat → Nat) (slot : Nat) (x : Part) (o : Nat) : keepsGraphs x (armOp hf slot x o) := by
  cases hg : tfind x.graphs slot with
  | none => simp only [armOp, hg]; exact keepsGraphs_same rfl
  | some g =>
    by_cases h : (stAt g o).arm = none
    · rw [armOp_eq hg h]
      split
      · exact keepsGraphs_tput rfl
      · exact keepsGraphs_same rfl
    · rw [armOp_armed hg h]
      exact keepsGraphs_same rfl

theorem armGraph_keepsGraphs (hf : Nat → Nat) (x : Part) (slot : Nat) : keepsGraphs x (armGraph hf x slot) := by
  unfold armGraph
  split
  · exact keepsGraphs_same rfl
  · exact keepsGraphs_foldl (armOp_keepsGraphs hf slot) _ _

/-! ### The same in the state -/

/-- Every core is as it was, and every slot that has a graph keeps one. -/
structure StandsBy (s t : State) : Prop where
  cores : t.cores = s.cores
  graphs : ∀ p, keepsGraphs (partOf s p) (partOf t p)

theorem standsBy_same {s t : State} (hp : t.parts = s.parts) (hc : t.cores = s.cores) : StandsBy s t :=
  ⟨hc, fun p => keepsGraphs_same (by rw [partOf_of_parts hp])⟩

theorem standsBy_trans {s t u : State} (h1 : StandsBy s t) (h2 : StandsBy t u) : StandsBy s u :=
  ⟨h2.cores.trans h1.cores, fun p => keepsGraphs_trans (h1.graphs p) (h2.graphs p)⟩

theorem standsBy_besideMemory {s t : State} (h : besideMemory t = besideMemory s) : StandsBy s t :=
  standsBy_same (parts_of_besideMemory h) (cores_of_besideMemory h)

theorem standsBy_besideHide {s t : State} (h : besideHide t = besideHide s) : StandsBy s t := standsBy_besideMemory (besideMemory_of_besideHide h)

theorem standsBy_foldl {α : Type} {f : State → α → State} (hf : ∀ s a, StandsBy s (f s a)) (l : List α) (s : State) : StandsBy s (l.foldl f s) :=
  List.foldlRecOn (motive := StandsBy s) l f (standsBy_same rfl rfl) (fun t ht a _ => standsBy_trans ht (hf t a))

theorem putPart_standsBy {s : State} {p : Nat} {x : Part} (h : keepsGraphs (partOf s p) x) : StandsBy s (putPart s p x) := by
  refine ⟨rfl, fun q => ?_⟩
  rw [partOf_putPart]
  split
  · next hq => rw [hq]; exact h
  · exact keepsGraphs_same rfl

theorem modPart_standsBy {f : Part → Part} (hf : ∀ x, (f x).graphs = x.graphs) (s : State) (p : Nat) : StandsBy s (modPart s p f) :=
  putPart_standsBy (keepsGraphs_same (hf _))

theorem modGraph_standsBy (s : State) (p slot : Nat) (f : Graph → Graph) : StandsBy s (modGraph s p slot f) := putPart_standsBy (keepsGraphs_tmod rfl)

/-! ### Faults, cancels and arming -/

theorem queueReport_parts (s : State) (p : Nat) (fwd : Bool) (r : Report) :
    (queueReport s p fwd r).parts = (modPart s p (fun x => { x with faultQ := x.faultQ ++ [r] })).parts := by
  unfold queueReport
  dsimp only
  (repeat' split) <;> rfl

theorem queueReport_standsBy (s : State) (p : Nat) (fwd : Bool) (r : Report) : StandsBy s (queueReport s p fwd r) :=
  standsBy_trans (modPart_standsBy (f := fun x => { x with faultQ := x.faultQ ++ [r] }) (fun _ => rfl) s p)
    (standsBy_same (queueReport_parts s p fwd r) (queueReport_frame s p fwd r).1)

theorem raisePromotions_cores (s : State) (p slot : Nat) : (raisePromotions s p slot).cores = s.cores := by
  unfold raisePromotions
  split
  · rfl
  · refine foldl_keeps State.cores (fun t o => ?_) _ _
    rfl

theorem armOnce_standsBy (s : State) (p slot : Nat) (g : Graph) : StandsBy s (armOnce s p slot g) :=
  standsBy_trans (standsBy_trans (putPart_standsBy (armGraph_keepsGraphs _ _ _)) (modGraph_standsBy _ p slot settle))
    (standsBy_same (raisePromotions_parts _ _ _) (raisePromotions_cores _ _ _))

theorem armIdle_standsBy (s : State) (p slot : Nat) : StandsBy s (armIdle s p slot) := by
  unfold armIdle
  split
  · exact standsBy_same rfl rfl
  next g _ =>
  split
  · exact standsBy_same rfl rfl
  have harm := armOnce_standsBy s p slot g
  dsimp only
  split
  · exact harm
  split
  · exact harm
  · refine standsBy_trans harm (standsBy_trans (putPart_standsBy ?_) (armOnce_standsBy _ _ _ _))
    exact keepsGraphs_trans (planWaiting_keepsGraphs _ _ _) (keepsGraphs_of_onlyCounts (checkSlot_onlyCounts _ _))

theorem armReleased_standsBy (s : State) (p : Nat) (before : List Nat) : StandsBy s (armReleased s p before) :=
  standsBy_foldl (fun s slot => armIdle_standsBy s p slot) _ s

theorem cancelSlot_standsBy (s : State) (p slot : Nat) : StandsBy s (cancelSlot s p slot) := by
  unfold cancelSlot
  split
  · exact standsBy_same rfl rfl
  · refine standsBy_trans (putPart_standsBy ?_) (armReleased_standsBy _ p _)
    exact keepsGraphs_trans (keepsGraphs_trans (applyCancels_keepsGraphs _ _ _ _) (abandon_keepsGraphs _ _))
      (keepsGraphs_tmod (f := fun g => { g with waiting := [], late := [], cancels := [], restore := [] }) rfl)

theorem stopGraph_standsBy (s : State) (p slot : Nat) : StandsBy s (stopGraph s p slot) :=
  standsBy_trans (cancelSlot_standsBy s p slot) (modGraph_standsBy _ p slot _)

theorem stopSoon_standsBy (s : State) (p slot : Nat) : StandsBy s (stopSoon s p slot) := by
  unfold stopSoon
  (repeat' split)
  · exact standsBy_same rfl rfl
  · exact modGraph_standsBy s p slot _
  · exact stopGraph_standsBy s p slot

theorem takeFault_outside_standsBy (s : State) (p slot : Nat) (r : Report) : StandsBy s (takeFault .outside s p slot r) := by
  refine standsBy_trans ?_ (standsBy_trans (queueReport_standsBy _ p true r) (stopSoon_standsBy _ p slot))
  split <;> exact standsBy_same rfl rfl

theorem engineFault_standsBy (s : State) (p slot core : Nat) (opc : BitVec 8) (info : Nat) : StandsBy s (engineFault s p slot core opc info) :=
  takeFault_outside_standsBy s p slot _

theorem recFault_standsBy (s : State) (p slot : Nat) (g : Graph) (o addr : Nat) : StandsBy s (recFault s p slot g o addr) :=
  takeFault_outside_standsBy s p slot _

theorem cancelOn_standsBy (s : State) (p : Nat) (c : CancelReq) (slot : Nat) : StandsBy s (cancelOn s p c slot) := by
  unfold cancelOn
  (repeat' split)
  · exact standsBy_same rfl rfl
  · refine standsBy_trans (putPart_standsBy ?_) (armIdle_standsBy _ p slot)
    exact keepsGraphs_trans (applyCancels_keepsGraphs _ _ _ _) (keepsGraphs_of_onlyCounts (checkSlot_onlyCounts _ _))
  · exact modGraph_standsBy s p slot _

theorem postCancel_standsBy (s : State) (p : Nat) (c : CancelReq) : StandsBy s (postCancel s p c) :=
  standsBy_trans (standsBy_foldl (fun s slot => cancelOn_standsBy s p c slot) _ s) (armReleased_standsBy _ p _)

theorem doCancel_standsBy (s : State) (p : Nat) (level : CLevel) (w : DWord) : StandsBy s (doCancel s p level w) := by
  unfold doCancel
  dsimp only
  split
  · exact standsBy_same rfl rfl
  · exact postCancel_standsBy s p _

/-! ### Stores and hide operations -/

theorem pendWrite_standsBy (s : State) (p vf : Nat) (w : Writer) (a : Nat) (b : Byte) : StandsBy s (pendWrite s p vf w a b) := standsBy_same rfl rfl

theorem performStore_standsBy (s : State) (p vf port : Nat) (w : Writer) (x : Store) : StandsBy s (performStore s p vf port w x) := by
  unfold performStore
  split
  · exact standsBy_same rfl rfl
  · next t ht => exact standsBy_trans (standsBy_besideMemory (l2Touch_besideMemory ht)) (pendWrite_standsBy t p vf w _ _)

theorem versionTake_standsBy (s : State) (p : Nat) (addrs : List Nat) : StandsBy s (versionTake s p addrs) := by
  refine standsBy_foldl (fun s k => modPart_standsBy (fun x => ?_) s p) _ s
  rfl

theorem performStores_standsBy (s : State) (p vf port : Nat) (w : Writer) (l : List Store) : StandsBy s (performStores s p vf port w l) := by
  have hfound : StandsBy s { s with l2 := s.l2.map (fun e => (e.1, if e.2.lost = 0 then e.2 else e.2.found e.1 l)) } := standsBy_same rfl rfl
  exact standsBy_trans (standsBy_trans hfound (versionTake_standsBy _ p _)) (standsBy_foldl (fun s x => performStore_standsBy s p vf port w x) l _)

theorem performRound_standsBy (s : State) (p : Nat) (l : List (Nat × List Store)) : StandsBy s (performRound s p l) :=
  standsBy_foldl (fun s _ => performStores_standsBy s p _ _ _ _) l s

theorem performHide_standsBy (s : State) (p off : Nat) (op : HOp) : StandsBy s (performHide s p off op) := by
  unfold performHide
  exact standsBy_besideHide (hideWrite_besideHide s p off _)

theorem storeAsk_standsBy (s : State) (bank core elem : Nat) : StandsBy s (storeAsk s bank core elem) := standsBy_same rfl rfl

theorem commitHide_standsBy (s : State) (p c : Nat) (g : Graph) (h : HideReq) : StandsBy s (commitHide s p c g h) := by
  have hasked (op : HOp) : StandsBy s (performHide (hideRequest s p h.off (hideClass (coreOf s (coreNo c)) g h) c) p h.off op) :=
    standsBy_trans (standsBy_besideHide (hideRequest_besideHide s p _ _ c)) (performHide_standsBy _ p _ op)
  unfold commitHide
  cases h.op with
  | st hi x => exact standsBy_trans (storeAsk_standsBy s _ _ _) (performHide_standsBy _ p _ _)
  | sealPoint => exact standsBy_same rfl rfl
  | _ => exact hasked _

/-! ### KV commands -/

theorem pomPut_standsBy (s : State) (vf seq b : Nat) (e : PomEnt) : StandsBy s (pomPut s vf seq b e) := standsBy_same rfl rfl

theorem modSeq_standsBy (s : State) (p n : Nat) (f : Seq → Seq) : StandsBy s (modSeq s p n f) := by
  unfold modSeq putSeq
  refine modPart_standsBy (fun x => ?_) s p
  rfl

theorem touchSeq_standsBy (s : State) (p n : Nat) : StandsBy s (touchSeq s p n) := modSeq_standsBy s p n _

theorem dropPin_standsBy (s : State) (p base : Nat) : StandsBy s (dropPin s p base) := by
  refine modPart_standsBy (fun x => ?_) s p
  rfl

theorem incCount_standsBy (s : State) (base : Nat) : StandsBy s (incCount s base) := standsBy_besideHide (incCount_besideHide s base)

theorem decCount_standsBy (s : State) (base : Nat) : StandsBy s (decCount s base) := standsBy_besideHide (decCount_besideHide s base)

theorem allocFrames_standsBy {cores : List Nat} {d : Frame} {n : Nat} : ∀ {seed base : Nat} {s t : State},
    allocFrames cores seed base d n s = some t → StandsBy s t := by
  induction n with
  | zero => intro seed base s t e; cases e; exact standsBy_same rfl rfl
  | succ n ih =>
    intro seed base s t e
    simp only [allocFrames] at e
    split at e
    · cases e
    · next l _ =>
      have hframe : StandsBy s { s with frames := tput s.frames base { d with loc := BitVec.ofNat 48 l } } := standsBy_same rfl rfl
      exact standsBy_trans hframe (ih e)

theorem allocSet_standsBy {s : State} {p vf : Nat} {x : Nat × State} (e : allocSet s p vf = some x) : StandsBy s x.2 := by
  simp only [allocSet] at e
  split at e
  · obtain ⟨t, ht, rfl⟩ := Option.map_eq_some_iff.1 e
    have hcount : StandsBy t { t with allocs := t.allocs + 1 } := standsBy_same rfl rfl
    exact standsBy_trans (allocFrames_standsBy ht) (standsBy_trans hcount (standsBy_besideHide (setCount_besideHide _ _ 1)))
  · cases e

theorem mapNew_standsBy (p vf seq n : Nat) : ∀ (b : Nat) (s : State), StandsBy s (mapNew p vf seq n b s) := by
  induction n with
  | zero => exact fun b s => standsBy_same rfl rfl
  | succ n ih =>
    intro b s
    unfold mapNew
    split
    · next x hx => exact standsBy_trans (standsBy_trans (allocSet_standsBy hx) (pomPut_standsBy _ _ _ _ _)) (ih _ _)
    · exact standsBy_same rfl rfl

theorem readSectors_standsBy (s : State) (v : Via) (cattr : BitVec 2) (a n : Nat) : StandsBy s (readSectors s v cattr a n) := by
  refine standsBy_foldl (fun s i => ?_) _ s
  split
  · next ht => exact standsBy_besideMemory (l2Touch_besideMemory ht)
  · exact standsBy_same rfl rfl

theorem copySet_standsBy (s : State) (p vf core : Nat) (cls : BitVec 2) (f old new : Nat) : StandsBy s (copySet s p vf core cls f old new) :=
  standsBy_foldl (fun s _ => standsBy_trans (readSectors_standsBy s _ _ _ _) (performStores_standsBy _ p vf _ _ _)) _ s

theorem kvCommit_standsBy (s : State) (p vf core : Nat) (cls : BitVec 2) (k : KvOp) : StandsBy s (kvCommit s p vf core cls k) := by
  cases k with
  | fork seq par n =>
    refine standsBy_trans (standsBy_foldl (fun s b => ?_) _ s) (standsBy_trans (modSeq_standsBy _ p seq _) (touchSeq_standsBy _ p seq))
    split
    · exact standsBy_same rfl rfl
    · exact standsBy_trans (standsBy_trans (pomPut_standsBy _ _ _ _ _) (pomPut_standsBy _ _ _ _ _)) (incCount_standsBy _ _)
  | app seq n _ =>
    refine standsBy_trans ?_ (standsBy_trans (mapNew_standsBy p vf seq _ _ _) (standsBy_trans (modSeq_standsBy _ p seq _) (touchSeq_standsBy _ p seq)))
    split
    · split
      · next hx =>
        exact standsBy_trans (standsBy_trans (allocSet_standsBy hx) (copySet_standsBy _ _ _ _ _ _ _ _))
          (standsBy_trans (pomPut_standsBy _ _ _ _ _) (decCount_standsBy _ _))
      · exact standsBy_same rfl rfl
    · exact standsBy_same rfl rfl
  | pin seq base =>
    exact standsBy_trans (standsBy_trans (dropPin_standsBy s p _) (pomPut_standsBy _ _ _ _ _))
      (standsBy_trans (modSeq_standsBy _ p seq _) (touchSeq_standsBy _ p seq))
  | unpin base => exact standsBy_trans (dropPin_standsBy s p _) (decCount_standsBy _ _)
  | free seq =>
    simp only [kvCommit]
    refine standsBy_trans (standsBy_foldl (fun s b => ?_) _ s) (modSeq_standsBy _ p seq _)
    split
    · exact standsBy_same rfl rfl
    · next e _ => exact standsBy_trans (standsBy_same (t := pomErase s vf seq b) rfl rfl) (decCount_standsBy _ _)

/-! ### What is held until the commit -/

/-- A core without what a release or a token may change once the core has been settled: its windows and its ports. -/
def settledPart (k : Core) : Core := { k with windows := [], ports := Core.reset.ports }

/-- Every core has kept what the commit settled of it, and every slot that has a graph keeps one. -/
structure Stands (s t : State) : Prop where
  cores : ∀ c, settledPart (coreOf t c) = settledPart (coreOf s c)
  graphs : ∀ p, keepsGraphs (partOf s p) (partOf t p)

theorem stands_of_standsBy {s t : State} (h : StandsBy s t) : Stands s t := ⟨fun c => by rw [coreOf_of_cores h.cores], h.graphs⟩

theorem stands_trans {s t u : State} (h1 : Stands s t) (h2 : Stands t u) : Stands s u :=
  ⟨fun c => (h2.cores c).trans (h1.cores c), fun p => keepsGraphs_trans (h1.graphs p) (h2.graphs p)⟩

theorem stands_foldl {α : Type} {f : State → α → State} (hf : ∀ s a, Stands s (f s a)) (l : List α) (s : State) : Stands s (l.foldl f s) :=
  List.foldlRecOn (motive := Stands s) l f (stands_of_standsBy (standsBy_same rfl rfl)) (fun t ht a _ => stands_trans ht (hf t a))

theorem openWindow_settledPart (k : Core) (w : Window) : settledPart (openWindow k w) = settledPart k := by
  unfold openWindow
  split <;> rfl

theorem modCore_stands (s : State) (c : Fin 64) {f : Core → Core} (hf : ∀ k, settledPart (f k) = settledPart k) : Stands s (modCore s c f) := by
  refine ⟨fun a => ?_, fun p => keepsGraphs_same rfl⟩
  rw [coreOf_modCore]
  split
  · next h => rw [h]; exact hf _
  · rfl

theorem withOpn_standsBy (s : State) (c : Cmd) : StandsBy s (withOpn s c).2 := by
  cases c <;> exact standsBy_same rfl rfl

theorem claimLanes_standsBy (s : State) (r : Running) : StandsBy s (claimLanes s r) := by
  unfold claimLanes
  split
  · refine standsBy_foldl (fun s l => ?_) _ s
    exact standsBy_same rfl rfl
  all_goals exact standsBy_same rfl rfl

theorem release_stands (s : State) (p slot core : Nat) (opc : BitVec 8) (c : Cmd) : Stands s (release s p slot core opc c) := by
  unfold release
  split
  · exact stands_of_standsBy (standsBy_same rfl rfl)
  split
  · exact stands_of_standsBy (engineFault_standsBy s p slot core opc _)
  split
  · exact stands_of_standsBy (standsBy_same rfl rfl)
  have hopn := withOpn_standsBy s c
  generalize withOpn s c = x at hopn
  dsimp only
  have hrun (r : Running) : Stands s (claimLanes { x.2 with engines := x.2.engines ++ [r], cmdSeq := x.2.cmdSeq + 1 } r) :=
    stands_of_standsBy (standsBy_trans (standsBy_trans hopn (standsBy_same (t := { x.2 with engines := x.2.engines ++ [r], cmdSeq := x.2.cmdSeq + 1 })
      rfl rfl)) (claimLanes_standsBy _ r))
  split
  · exact stands_trans (hrun _) (modCore_stands _ _ (fun k => openWindow_settledPart k _))
  · exact hrun _

theorem releaseHeld_stands (s : State) (p slot c : Nat) (cls : BitVec 2) (h : Held) : Stands s (releaseHeld s p slot c cls h) := by
  cases h with
  | cmd opc x => exact release_stands s p slot c opc x
  | kv k => exact stands_of_standsBy (kvCommit_standsBy s p _ c cls k)
  | cancel level w => exact stands_of_standsBy (doCancel_standsBy s p level w)

theorem onlyPorts_settledPart {k k' : Core} (h : onlyPorts k k') : settledPart k' = settledPart k := by
  unfold onlyPorts at h
  rw [h]
  rfl

theorem passTokens_stands (s : State) (cs : List Nat) : Stands s (passTokens s cs) :=
  ⟨fun c => onlyPorts_settledPart (passTokens_onlyPorts s cs c),
    fun p => keepsGraphs_same (by rw [partOf_of_parts (parts_of_service (passTokens_service (s := s) cs))])⟩

/-! ### The commit -/

/-- A core that is listed once is worked on once. -/
theorem coreOf_modCores_once {c : Fin 64} {f : Core → Core} (l : List Nat) (s : State) (hnd : l.Nodup) (hlt : ∀ n ∈ l, n < 64) (h : c.val ∈ l) :
    coreOf (modCores s l f) c = f (coreOf s c) := by
  induction l generalizing s with
  | nil => exact absurd h List.not_mem_nil
  | cons a r ih =>
    obtain ⟨har, hr⟩ := List.nodup_cons.1 hnd
    have hval (n : Nat) (hn : n < 64) : (coreNo n).val = n := Nat.mod_eq_of_lt hn
    have hstep : coreOf (modCore s (coreNo a) f) c = if c = coreNo a then f (coreOf s (coreNo a)) else coreOf s c := coreOf_modCore _ _ _ _
    by_cases hc : c = coreNo a
    · have hca : c.val = a := by rw [hc, hval a (hlt a List.mem_cons_self)]
      have hnot : c ∉ r.map coreNo := fun hm => by
        obtain ⟨n, hn, hnc⟩ := List.mem_map.1 hm
        have : n = a := by rw [← hca, ← hnc, hval n (hlt n (List.mem_cons_of_mem _ hn))]
        exact har (this ▸ hn)
      refine (coreOf_modCores_not_mem r _ f hnot).trans ?_
      rw [hstep, if_pos hc, hc]
    · have hmem : c.val ∈ r := (List.mem_cons.1 h).resolve_left (fun hca => hc (by rw [← hca, coreNo_val]))
      refine (ih (modCore s (coreNo a) f) hr (fun n hn => hlt n (List.mem_cons_of_mem _ hn)) hmem).trans ?_
      rw [hstep, if_neg hc]

/-- The device once the stores and the hide operations of a round have been performed. -/
def accessesMade (s : State) (p : Nat) (g : Graph) : State :=
  ((coresUp g).flatMap (fun c => (coreOf s (coreNo c)).hideOps.map (fun h => (c, h)))).foldl (fun s h => commitHide s p h.1 g h.2)
    (performRound s p (roundStores s p g))

theorem accessesMade_standsBy (s : State) (p : Nat) (g : Graph) : StandsBy s (accessesMade s p g) :=
  standsBy_trans (performRound_standsBy s p _) (standsBy_foldl (fun s (h : Nat × HideReq) => commitHide_standsBy s p h.1 g h.2) _ _)

/-- The same once the cores of the graph have been settled, what they held not yet released. -/
def coresSettled (s : State) (p : Nat) (g : Graph) : State := modCores (accessesMade s p g) g.cores (commitCore g)

theorem coreOf_coresSettled (s : State) (p : Nat) {g : Graph} (hnd : g.cores.Nodup) (hlt : ∀ n ∈ g.cores, n < 64) {c : Fin 64} (hc : c.val ∈ g.cores) :
    coreOf (coresSettled s p g) c = commitCore g (coreOf s c) := by
  refine (coreOf_modCores_once g.cores _ hnd hlt hc).trans ?_
  rw [coreOf_of_cores (accessesMade_standsBy s p g).cores]

theorem coresSettled_graphs (s : State) (p q : Nat) (g : Graph) : keepsGraphs (partOf s q) (partOf (coresSettled s p g) q) := by
  refine keepsGraphs_trans ((accessesMade_standsBy s p g).graphs q) (keepsGraphs_same ?_)
  rw [coresSettled, partOf_of_parts (modCores_parts _ _ _)]

/-- What a commit leaves, but for the graph itself, which goes to its boundary. -/
theorem commitRound_eq {s : State} {p slot : Nat} {g : Graph} (hg : graphOf s p slot = some g) : ∃ t, Stands (coresSettled s p g) t
    ∧ commitRound s p slot = modGraph t p slot (fun g => { g with run := .boundary, bndLeft := 8, lastVoid := false, repeatCnt := 0 }) := by
  unfold commitRound
  rw [hg]
  refine ⟨_, ?_, rfl⟩
  have hheld := stands_foldl (fun s (h : Nat × Nat × Held) => releaseHeld_stands s p slot h.1 (graphClass g) h.2.2) (heldInOrder s g) (coresSettled s p g)
  refine stands_trans (stands_trans hheld (passTokens_stands _ g.cores)) (stands_foldl (fun s b => ?_) _ _)
  exact stands_of_standsBy (recFault_standsBy s p slot g b.1 b.2)

end Sys2Proof.Laws
end

section
/-! SUPPORT. The end of a round: the step of its commit, what a void leaves, and the boundary that a replay follows (R107, R128, R130, R136, R205),
with O46. -/

namespace Sys2Proof.Laws

open Sys2Proof.Machine Sys2Proof.Safety

/-! ### The step of a commit -/

/-- The step of a round that has ended without a fault: it finds a fault, it is held, or it commits. -/
def commitStep (s : State) (p slot : Nat) (g : Graph) : State :=
  if (commitClash s g).isSome then commitOrClash s p slot g
  else match recordCheck s p g with
  | some c => addUrgent (modGraph s p slot (fun g => { g with run := .ended })) c
  | none =>
    if engineHeld s p g then modGraph s p slot (fun g => { g with run := .heldCommit })
    else if allocHeld s p g then evictSome (modGraph s p slot (fun g => { g with run := .heldCommit })) p
    else if versionHeld s p g then
      modPart (modGraph s p slot (fun g => { g with run := .heldCommit })) p (fun x => { x with bndReq := x.bndReq || !x.bndStarted })
    else commitOrClash s p slot g

section
variable {s : State} {p slot : Nat} {g : Graph}

theorem commitOrClash_commits (h : commitClash s g = none) : commitOrClash s p slot g = commitRound s p slot := by
  rw [commitOrClash, h]

theorem commitStep_clashes {c : Nat} {x : Store} (h : commitClash s g = some (c, x)) : commitStep s p slot g
    = takeFault .round (modGraph s p slot (fun g => { g with run := .ended })) p slot (clashReport s p slot c g x) := by
  rw [commitStep, if_pos (by rw [h]; rfl), commitOrClash, h]

section
variable (hclash : commitClash s g = none)
include hclash

theorem commitStep_checks {c : Instr} (h : recordCheck s p g = some c) :
    commitStep s p slot g = addUrgent (modGraph s p slot (fun g => { g with run := .ended })) c := by
  rw [commitStep, if_neg (by rw [hclash]; exact Bool.false_ne_true), h]

variable (hcheck : recordCheck s p g = none)
include hcheck

theorem commitStep_clear : commitStep s p slot g =
    if engineHeld s p g then modGraph s p slot (fun g => { g with run := .heldCommit })
    else if allocHeld s p g then evictSome (modGraph s p slot (fun g => { g with run := .heldCommit })) p
    else if versionHeld s p g then
      modPart (modGraph s p slot (fun g => { g with run := .heldCommit })) p (fun x => { x with bndReq := x.bndReq || !x.bndStarted })
    else commitRound s p slot := by
  rw [commitStep, if_neg (by rw [hclash]; exact Bool.false_ne_true), hcheck, commitOrClash_commits hclash]

theorem commitStep_engineHeld (he : engineHeld s p g = true) : commitStep s p slot g = modGraph s p slot (fun g => { g with run := .heldCommit }) := by
  rw [commitStep_clear hclash hcheck, if_pos he]

variable (he : engineHeld s p g = false)
include he

theorem commitStep_allocHeld (ha : allocHeld s p g = true) :
    commitStep s p slot g = evictSome (modGraph s p slot (fun g => { g with run := .heldCommit })) p := by
  rw [commitStep_clear hclash hcheck, if_neg (by simp [he]), if_pos ha]

variable (ha : allocHeld s p g = false)
include ha

theorem commitStep_versionHeld (hv : versionHeld s p g = true) : commitStep s p slot g
    = modPart (modGraph s p slot (fun g => { g with run := .heldCommit })) p (fun x => { x with bndReq := x.bndReq || !x.bndStarted }) := by
  rw [commitStep_clear hclash hcheck, if_neg (by simp [he]), if_neg (by simp [ha]), if_pos hv]

theorem commitStep_commits (hv : versionHeld s p g = false) : commitStep s p slot g = commitRound s p slot := by
  rw [commitStep_clear hclash hcheck, if_neg (by simp [he]), if_neg (by simp [ha]), if_neg (by simp [hv])]

end
end

section
variable {s : State} {part slot : BitVec 6} {g : Graph} (hg : graphOf s part.toNat slot.toNat = some g)
include hg

theorem roundCommit_eq (hrun : g.run = .ended) (hhitch : s.hitch = false) (hfault : g.fault = none) :
    exec (.roundCommit part slot) s = .next (commitStep s part.toNat slot.toNat g) := by
  change execRoundCommit part slot s = _
  have hgo : ¬ (s.hitch || !((g.run = .ended && g.fault.isNone) || g.run = .heldCommit)) = true := by simp [hrun, hhitch, hfault]
  simp only [execRoundCommit, hg, if_neg hgo]
  rfl

end

/-! ### A committed round -/

theorem settledPart_kept {k k' : Core} (h : settledPart k' = settledPart k) (e : Fin 96) :
    elemOf k' e = elemOf k e ∧ k'.c = k.c ∧ k'.stores = k.stores ∧ k'.hideOps = k.hideOps ∧ k'.held = k.held ∧ k'.bankOps = k.bankOps
    ∧ k'.banks = k.banks :=
  ⟨(congrArg (fun k : Core => elemOf k e) h :), (congrArg Core.c h :), (congrArg Core.stores h :), (congrArg Core.hideOps h :),
    (congrArg Core.held h :), (congrArg Core.bankOps h :), (congrArg Core.banks h :)⟩

theorem settledPart_kept_besides {k k' : Core} (h : settledPart k' = settledPart k) :
    k'.gainsHeld = k.gainsHeld ∧ k'.fins = k.fins ∧ k'.earlies = k.earlies ∧ k'.tiles = k.tiles ∧ k'.loft = k.loft ∧ k'.armw = k.armw :=
  ⟨(congrArg Core.gainsHeld h :), (congrArg Core.fins h :), (congrArg Core.earlies h :), (congrArg Core.tiles h :), (congrArg Core.loft h :),
    (congrArg Core.armw h :)⟩

section
variable {s : State} {p slot : Nat} {g : Graph} (hg : graphOf s p slot = some g)
include hg

theorem commitRound_graph : ∃ g', graphOf (commitRound s p slot) p slot = some g' ∧ g'.run = .boundary ∧ g'.lastVoid = false ∧ g'.repeatCnt = 0 := by
  obtain ⟨t, hstands, ht⟩ := commitRound_eq hg
  have hsome : (graphOf t p slot).isSome = true := hstands.graphs p slot (coresSettled_graphs s p p g slot (Option.isSome_iff_exists.2 ⟨g, hg⟩))
  obtain ⟨g', hg'⟩ := Option.isSome_iff_exists.1 hsome
  rw [ht, graphOf_modGraph, if_pos ⟨rfl, rfl⟩, hg']
  exact ⟨_, rfl, rfl, rfl, rfl⟩

theorem commitRound_settledPart (hnd : g.cores.Nodup) (hlt : ∀ n ∈ g.cores, n < 64) {c : Fin 64} (hc : c.val ∈ g.cores) :
    settledPart (coreOf (commitRound s p slot) c) = settledPart (commitCore g (coreOf s c)) := by
  obtain ⟨t, hstands, ht⟩ := commitRound_eq hg
  rw [ht, coreOf_of_cores (modGraph_cores _ _ _ _), hstands.cores c, coreOf_coresSettled s p hnd hlt hc]

end

/-! ### A voided round -/

theorem voidCore_voidCore (k : Core) : voidCore (voidCore k) = voidCore k := by
  simp [voidCore, allElems]

/-- A core that is listed is as one that is worked on once, where a second time changes nothing. -/
theorem coreOf_modCores_idem {c : Fin 64} {f : Core → Core} (hf : ∀ k, f (f k) = f k) (l : List Nat) (s : State) (h : c.val ∈ l) :
    coreOf (modCores s l f) c = f (coreOf s c) := by
  refine coreOf_modCores_mem (I := fun k => f k = f (coreOf s c)) (P := fun k => k = f (coreOf s c)) (fun k hk => (hf k).trans hk) (fun k hk => hk) l s rfl ?_
  exact List.mem_map.2 ⟨c.val, h, coreNo_val c⟩

/-- What a void leaves of the graph of its round. -/
def voidedGraph (g g' : Graph) : Prop := g'.run = .boundary ∧ g'.lastVoid = true ∧ g'.rc = 0 ∧ g'.rvoid = g.rvoid + 1 ∧ g'.rcom = g.rcom

/-- What a void leaves of the device: a graph of which `P` holds, the reports, the quota with the units of the round, contents as they were, and its
cores with nothing of the round. -/
structure Voided (s : State) (p slot : Nat) (cs : List Nat) (P : Graph → Prop) (reports : List Report) (t : State) : Prop where
  graph : ∃ g', graphOf t p slot = some g' ∧ P g'
  faultQ : (partOf t p).faultQ = reports
  quota : (partOf t p).quota = (partOf s p).quota + unitsTaken s cs
  contents : t.mem = s.mem ∧ t.hide = s.hide ∧ t.pend = s.pend
  cores : ∀ c : Fin 64, c.val ∈ cs → settledPart (coreOf t c) = settledPart (voidCore (coreOf s c))

theorem queueReport_words (s : State) (p : Nat) (fwd : Bool) (r : Report) :
    (queueReport s p fwd r).hide = s.hide ∧ (queueReport s p fwd r).pend = s.pend := by
  unfold queueReport
  dsimp only
  (repeat' split) <;> exact ⟨rfl, rfl⟩

/-- A graph once quota has been released: it no longer waits for quota. -/
def quotaFreed (g : Graph) : Graph := if g.hold.elim false (fun r => r.cls = cQuota) then { g with hold := none } else g

section
variable {s t : State} {p slot : Nat} {g : Graph} {cs : List Nat} {P Q : Graph → Prop} {q : List Report} (h : Voided s p slot cs P q t)
include h

theorem voided_weaken (hf : ∀ x, P x → Q x) : Voided s p slot cs Q q t := by
  obtain ⟨x, hx, hP⟩ := h.graph
  exact ⟨⟨x, hx, hf x hP⟩, h.faultQ, h.quota, h.contents, h.cores⟩

theorem voided_modGraph (f : Graph → Graph) (hf : ∀ x, P x → Q (f x)) : Voided s p slot cs Q q (modGraph t p slot f) := by
  obtain ⟨x, hx, hP⟩ := h.graph
  have hpart : partOf (modGraph t p slot f) p = { partOf t p with graphs := tmod (partOf t p).graphs slot f } := by
    rw [modGraph, partOf_modPart, if_pos rfl]
  refine ⟨⟨f x, ?_, hf x hP⟩, ?_, ?_, h.contents, h.cores⟩
  · rw [graphOf_modGraph, if_pos ⟨rfl, rfl⟩, hx]
    rfl
  · rw [hpart]; exact h.faultQ
  · rw [hpart]; exact h.quota

theorem voided_same {u : State} (hp : u.parts = t.parts) (hc : u.mem = t.mem ∧ u.hide = t.hide ∧ u.pend = t.pend)
    (hk : ∀ c, settledPart (coreOf u c) = settledPart (coreOf t c)) : Voided s p slot cs P q u := by
  obtain ⟨hm, hh, hq⟩ := hc
  obtain ⟨hm', hh', hq'⟩ := h.contents
  have hpart := partOf_of_parts hp p
  refine ⟨?_, by rw [hpart]; exact h.faultQ, by rw [hpart]; exact h.quota, ⟨hm.trans hm', hh.trans hh', hq.trans hq'⟩,
    fun c hcs => (hk c).trans (h.cores c hcs)⟩
  simp only [graphOf, hpart]
  exact h.graph

theorem voided_releaseQuota (hf : ∀ x, P x → P { x with hold := none }) : Voided s p slot cs P q (releaseQuota t p) := by
  obtain ⟨x, hx, hP⟩ := h.graph
  unfold releaseQuota
  split
  · exact h
  · refine ⟨?_, ?_, ?_, h.contents, h.cores⟩
    · rw [graphOf, partOf_modPart, if_pos rfl]
      refine ⟨quotaFreed x, (tfind_map quotaFreed _ _).trans (congrArg _ hx), ?_⟩
      unfold quotaFreed
      split
      · exact hf x hP
      · exact hP
    · rw [partOf_modPart, if_pos rfl]; exact h.faultQ
    · rw [partOf_modPart, if_pos rfl]; exact h.quota

theorem voided_queueReport (fwd : Bool) (r : Report) : Voided s p slot cs P (q ++ [r]) (queueReport t p fwd r) := by
  obtain ⟨x, hx, hP⟩ := h.graph
  obtain ⟨hm, hh, hq⟩ := h.contents
  refine ⟨⟨x, ?_, hP⟩, ?_, ?_, ⟨(queueReport_memories t p fwd r).1.trans hm, ?_, ?_⟩, fun c hc => ?_⟩
  · rw [graphOf, partOf_queueReport]; exact hx
  · rw [partOf_queueReport]; exact congrArg (· ++ [r]) h.faultQ
  · rw [partOf_queueReport]; exact h.quota
  · exact (queueReport_words t p fwd r).1.trans hh
  · exact (queueReport_words t p fwd r).2.trans hq
  · rw [coreOf_of_cores (queueReport_frame t p fwd r).1]; exact h.cores c hc

theorem voided_limit : Voided s p slot cs P q (execRoundVoid.limit p slot t) := by
  unfold execRoundVoid.limit
  (repeat' split)
  · exact h
  · exact voided_same h rfl ⟨rfl, rfl, rfl⟩ (fun _ => rfl)
  · exact h

theorem voided_modCores (l : List Nat) {f : Core → Core} (hf : ∀ k, settledPart (f k) = settledPart k) : Voided s p slot cs P q (modCores t l f) :=
  voided_same h (modCores_parts _ _ _) ⟨modCores_mem _ _ _, modCores_hide _ _ _, modCores_pend _ _ _⟩
    (stands_foldl (fun u a => modCore_stands u (coreNo a) hf) l t).cores

theorem voided_dropMoving (g : Graph) (f : Nat) : Voided s p slot cs P q (dropMoving t p g f) := by
  unfold dropMoving
  dsimp only
  refine voided_modCores ?_ g.cores (fun _ => rfl)
  exact voided_same h rfl ⟨rfl, rfl, rfl⟩ (fun _ => rfl)

theorem voided_askTask (i : Instr) : Voided s p slot cs P q (askTask t i) := by
  unfold askTask
  split
  · exact h
  · exact voided_same h rfl ⟨rfl, rfl, rfl⟩ (fun _ => rfl)

theorem voided_askAbsent (g : Graph) (r : Report) : Voided s p slot cs P q (askAbsent t p g r) := by
  unfold askAbsent
  split
  · exact voided_askTask (voided_dropMoving h g _) _
  · exact h

end

theorem voidRound_voided {s : State} {p slot : Nat} {g : Graph} (hg : graphOf s p slot = some g) :
    Voided s p slot g.cores (voidedGraph g) (partOf s p).faultQ (voidRound s p slot) := by
  have hcores : Voided s p slot g.cores (· = g) (partOf s p).faultQ
      (modPart (modCores s g.cores voidCore) p (fun x => { x with quota := x.quota + unitsTaken s g.cores })) := by
    have hpart : partOf (modCores s g.cores voidCore) p = partOf s p := partOf_of_parts (modCores_parts _ _ _) p
    refine ⟨⟨g, ?_, rfl⟩, ?_, ?_, ⟨modCores_mem _ _ _, modCores_hide _ _ _, modCores_pend _ _ _⟩, fun c hc => ?_⟩
    · rw [graphOf, partOf_modPart, if_pos rfl, hpart]; exact hg
    · rw [partOf_modPart, if_pos rfl, hpart]
    · rw [partOf_modPart, if_pos rfl, hpart]
    · exact congrArg settledPart (coreOf_modCores_idem voidCore_voidCore g.cores s hc)
  unfold voidRound
  rw [hg]
  dsimp only
  generalize modPart (modCores s g.cores voidCore) p (fun x => { x with quota := x.quota + unitsTaken s g.cores }) = t at hcores ⊢
  have hrest := passTokens_besideTokens t g.cores
  have hcontents : (passTokens t g.cores).mem = t.mem ∧ (passTokens t g.cores).hide = t.hide ∧ (passTokens t g.cores).pend = t.pend :=
    ⟨(congrArg State.mem hrest :), (congrArg State.hide hrest :), (congrArg State.pend hrest :)⟩
  have hparts : (passTokens t g.cores).parts = t.parts := (congrArg State.parts hrest :)
  refine voided_modGraph (voided_same hcores hparts hcontents (passTokens_stands t g.cores).cores) _ (fun x hx => ?_)
  rw [hx]
  exact ⟨rfl, rfl, rfl, rfl, rfl⟩

section
variable {s : State} {part slot : BitVec 6} {g : Graph} (hg : graphOf s part.toNat slot.toNat = some g) (hrun : g.run = .ended)
include hg hrun

/-- What a void leaves, whatever follows it, and the hold of a class of which a replay waits for what it lacks (R130). -/
theorem roundVoid_voided {r : Report} (hfault : g.fault = some r) : ∃ t, exec (.roundVoid part slot) s = .next t
    ∧ Voided s part.toNat slot.toNat g.cores (fun x => voidedGraph g x ∧ (afterVoid s g r = .hold → x.hold = some r))
      ((partOf s part.toNat).faultQ ++ [r]) t := by
  change ∃ t, execRoundVoid part slot s = .next t ∧ _
  simp only [execRoundVoid, hg, hrun, hfault]
  refine ⟨_, rfl, ?_⟩
  have hback : Voided s part.toNat slot.toNat g.cores (voidedGraph g) (partOf s part.toNat).faultQ
      (if unitsTaken s g.cores = 0 then voidRound s part.toNat slot.toNat else releaseQuota (voidRound s part.toNat slot.toNat) part.toNat) := by
    split
    · exact voidRound_voided hg
    · exact voided_releaseQuota (voidRound_voided hg) (fun _ hx => hx)
  have hrep := voided_queueReport (voided_modGraph (Q := voidedGraph g) hback (fun x => countRepeat x r) (fun _ hx => hx)) (forwards r.cls) r
  cases hact : afterVoid s g r with
  | replay => exact voided_limit (voided_modGraph hrep _ (fun _ hx => ⟨hx, fun h => by cases h⟩))
  | stop => exact voided_modGraph hrep _ (fun _ hx => ⟨hx, fun h => by cases h⟩)
  | hist => exact voided_weaken hrep (fun _ hx => ⟨hx, fun h => by cases h⟩)
  | hold => exact voided_limit (voided_askAbsent (voided_modGraph hrep _ (fun _ hx => ⟨hx, fun _ => rfl⟩)) g r)

end

theorem afterVoid_hold {s : State} {g : Graph} {r : Report} (h : r.cls = 1 ∨ r.cls = 4 ∨ r.cls = 11 ∨ r.cls = 12) : afterVoid s g r = .hold := by
  unfold afterVoid
  refine if_pos ?_
  rcases h with h | h | h | h <;> rw [h] <;> decide

/-! ### The boundary after a void -/

theorem gapOf_eq (x : Part) : gapOf x = if x.pace.getLsbD 0 then x.pace.toNat / 65536 % 4096 else 0 := by
  rw [gapOf, bit_eq_getLsbD]
  rfl

/-- A partition whose pace has been taken, with the late demands of a slot admitted, its graph ready for its pulse and the gap before it. -/
theorem partOf_toPulse_admitLate (s : State) (p slot : Nat) : partOf (toPulse (admitLate (paceTaken s p) p slot) p slot) p =
    { partOf s p with
      pace := (partOf s p).paceNext
      graphs := tmod (tmod (partOf s p).graphs slot (fun g => { g with waiting := g.waiting ++ g.late, late := [] })) slot (fun g => { g with run := .ready })
      gapLeft := max (partOf s p).gapLeft (gapOf { partOf s p with pace := (partOf s p).paceNext }) } := by
  simp only [toPulse, startGap, admitLate, modGraph, paceTaken, partOf_modPart, if_true]
  rfl

theorem toPulse_admitLate_frame (s : State) (p slot : Nat) : (toPulse (admitLate (paceTaken s p) p slot) p slot).cores = s.cores
    ∧ (toPulse (admitLate (paceTaken s p) p slot) p slot).mem = s.mem := by
  simp only [toPulse, startGap, admitLate, paceTaken, modPart_cores, modGraph_cores, modPart_mem, modGraph_mem, and_self]

theorem graphOf_toPulse_admitLate {s : State} {p slot : Nat} {g : Graph} (hg : graphOf s p slot = some g) :
    graphOf (toPulse (admitLate (paceTaken s p) p slot) p slot) p slot = some { g with waiting := g.waiting ++ g.late, late := [], run := .ready } := by
  rw [graphOf] at hg
  rw [graphOf, partOf_toPulse_admitLate]
  simp only [tfind_tmod, if_true, hg, Option.map_some]

section
variable {s : State} {part slot : BitVec 6} {g : Graph} (hg : graphOf s part.toNat slot.toNat = some g)
include hg

theorem roundBoundary_replays (hrun : g.run = .boundary) (hvoid : g.lastVoid = true) (hstop : g.stopNext = false) (hfault : g.fault = none) :
    exec (.roundBoundary part slot) s = .next (toPulse (admitLate (paceTaken s part.toNat) part.toNat slot.toNat) part.toNat slot.toNat) := by
  change execRoundBoundary part slot s = _
  simp only [execRoundBoundary, hg, hrun, hvoid, hstop, hfault]
  rfl

end

/-- Settles O46: a commit by its step and the settled part of a core, a void by what it leaves of a device, a replay by its boundary. -/
theorem roundsEndAndReplay : Obligations.RoundsEndAndReplay := by
  unfold Obligations.RoundsEndAndReplay
  refine ⟨?_, ?_⟩
  · intro s part slot g r p sl hg hrun hhitch held clear
    have hstep := roundCommit_eq hg hrun hhitch
    obtain ⟨hvoid, hcommit⟩ := commitAndVoidOfACore
    refine ⟨?_, fun hnd hlt => ⟨commitRound_graph hg, fun c e hc => ?_⟩, ?_, ?_, ?_, ?_, ?_, fun hfault _ => ?_⟩
    · exact fun hf ⟨hclash, hcheck⟩ he ha hv => (hstep hf).trans (congrArg _ (commitStep_commits hclash hcheck he ha hv))
    · obtain ⟨helem, hc, hstores, hhide, hheld, hbank, hbanks⟩ := settledPart_kept (commitRound_settledPart hg hnd hlt hc) e
      obtain ⟨-, -, -, -, -, -, -, -, -, -, hs, hh, hd, hb, -, -, -, -, hc'⟩ := hcommit g (coreOf s c) e
      exact ⟨congrArg Element.r helem, hc.trans hc', hstores.trans hs, hhide.trans hh, hheld.trans hd, hbank.trans hb, hbanks⟩
    · exact fun hf ⟨hclash, hcheck⟩ he => (hstep hf).trans (congrArg _ (commitStep_engineHeld hclash hcheck he))
    · exact fun hf ⟨hclash, hcheck⟩ he ha => (hstep hf).trans (congrArg _ (commitStep_allocHeld hclash hcheck he ha))
    · exact fun hf ⟨hclash, hcheck⟩ he ha hv => (hstep hf).trans (congrArg _ (commitStep_versionHeld hclash hcheck he ha hv))
    · exact fun c hf hclash hcheck => (hstep hf).trans (congrArg _ (commitStep_checks hclash hcheck))
    · exact fun c x hf hclash => (hstep hf).trans (congrArg _ (commitStep_clashes hclash))
    · obtain ⟨t, ht, ⟨g', hg', ⟨hrun', hlast, hrc, hrvoid, hrcom⟩, hhold⟩, hq, hquota, ⟨hm, hh, hp⟩, hcores⟩ := roundVoid_voided hg hrun hfault
      refine ⟨t, g', ht, hg', hrun', hlast, hrc, hq, hm, hh, hp, hrvoid, hrcom, hquota, fun hcls => hhold (afterVoid_hold hcls), fun c e hc => ?_⟩
      obtain ⟨helem, hkc, hstores, hhide, hheld, hbank, hbanks⟩ := settledPart_kept (hcores c hc) e
      obtain ⟨hgains, hfins, hearlies, htiles, hloft, harmw⟩ := settledPart_kept_besides (hcores c hc)
      obtain ⟨-, -, -, hs, hh, hd, hb, hg', -, hf, hy, -⟩ := hvoid (coreOf s c) e 0
      exact ⟨helem, hstores.trans hs, hhide.trans hh, hheld.trans hd, hbank.trans hb, hgains.trans hg', hfins.trans hf, hearlies.trans hy, htiles, hloft,
        hbanks, hkc, harmw⟩
  · intro s part slot g p sl pace gap hg hrun hvoid hstop hfault
    have hpart := partOf_toPulse_admitLate s p sl
    refine ⟨_, _, roundBoundary_replays hg hrun hvoid hstop hfault, graphOf_toPulse_admitLate hg, rfl, rfl, ?_, ?_,
      toPulse_admitLate_frame s p sl⟩
    · rw [hpart, gapOf_eq]
    · rw [hpart]

end Sys2Proof.Laws
end

section
/-! SUPPORT. The KV entries of the timed part (R171, R173, R174, R322), and `pxlk`, `pxin`, `pxev` and `flush.frame` of the boundary section (R178, R323, R324),
with O27. -/

namespace Sys2Proof.Laws

open Sys2Proof.Machine Sys2Proof.Safety

/-! ### Operands -/

theorem seqBad_eq_false {w : DWord} (h : w.toNat / 2 ^ 12 % 2 ^ 51 = 0) : seqBad w = false := decide_eq_false (not_not_intro h)

theorem seqBad_eq_true {w : DWord} (h : w.toNat / 2 ^ 12 % 2 ^ 51 ≠ 0) : seqBad w = true := decide_eq_true h

theorem baseBad_eq_false {w : DWord} (h : w.toNat / 2 ^ 32 % 2 ^ 31 = 0) : baseBad w = false := decide_eq_false (not_not_intro h)

theorem baseBad_eq_true {w : DWord} (h : w.toNat / 2 ^ 32 % 2 ^ 31 ≠ 0) : baseBad w = true := decide_eq_true h

theorem bitsN_zero (w : DWord) (n : Nat) : bitsN w 0 n = w.toNat % 2 ^ n := by simp [bitsN]

theorem bitsN_zero_twelve (w : DWord) : bitsN w 0 12 = w.toNat % 4096 := bitsN_zero w 12

theorem ofNat_bitsN_zero (w : DWord) (n : Nat) : BitVec.ofNat n (bitsN w 0 n) = w.extractLsb' 0 n := by
  apply BitVec.eq_of_toNat_eq
  simp [bitsN_zero]

/-! ### What a taken unit and a noted want leave -/

theorem curGraph_takeUnits (s : State) (n : Nat) : curGraph (takeUnits s s.cur.part n) = curGraph s := by
  have hcur : (takeUnits s s.cur.part n).cur = s.cur := rfl
  have hpart : partOf (takeUnits s s.cur.part n) s.cur.part = { partOf s s.cur.part with quota := (partOf s s.cur.part).quota - n } := by
    rw [takeUnits, partOf_of_parts (modCurCore_parts _ _), partOf_modPart, if_pos rfl]
  rw [curGraph, hcur, graphOf, hpart]
  rfl

theorem inSection_modCurGraph {s : State} {f : Graph → Graph} (hf : ∀ g, (f g).run = g.run) : inSection (modCurGraph s f) = inSection s := by
  have hgraph : curGraph (modCurGraph s f) = (curGraph s).map f := (graphOf_modGraph s _ _ _ _ f).trans (if_pos ⟨rfl, rfl⟩)
  simp only [inSection, hgraph]
  cases curGraph s with
  | none => rfl
  | some g => simp [hf]

theorem faultSeq_timed {s : State} (h : inSection s = false) (f : FaultInfo) :
    faultSeq s f = takeFault .round s s.cur.part s.cur.slot (seqReport s f) := by
  rw [faultSeq, h]
  rfl

/-! ### A KV entry

A KV command that is enabled has three ends: reserved bits of an operand refuse it, its check fails, or it is held (R173, R322). -/

/-- A KV command as it is held: an append with the units that it took (R174). -/
def withUnits (u : Nat) : KvOp → KvOp
  | .app q m _ => .app q m u
  | k => k

/-- The device once the units of a KV command have been taken. -/
def unitsGone (s : State) (u : Nat) : State := if u = 0 then s else takeUnits s s.cur.part u

/-- The graph that executes notes what a KV command wanted, unless it has a fault already (R171). -/
def notesWant (q m : Nat) (g : Graph) : Graph := if g.fault.isSome then g else { g with wantSeq := q, wantNew := m }

theorem curRc_unitsGone (s : State) (u : Nat) : curRc (unitsGone s u) = curRc s := by
  unfold unitsGone
  split
  · rfl
  · rw [curRc, curGraph_takeUnits]; rfl

theorem inSection_notesWant (s : State) (q m : Nat) : inSection (modCurGraph s (notesWant q m)) = inSection s := by
  refine inSection_modCurGraph (fun g => ?_)
  unfold notesWant
  split <;> rfl

theorem kvGo_bad {s : State} (h : inTimed s) (k : KvOp) (seq : Nat) :
    kvGo s true k seq = takeFault .round s s.cur.part s.cur.slot (seqReport s (kvPermAny seq)) := faultSeq_timed h.2 _

theorem kvGo_ok {s : State} {k : KvOp} {u : Nat} (hk : kvCheck s s.cur.part (curPart s).vf k = .ok u) (seq : Nat) :
    kvGo s false k seq = onCore (unitsGone s u) (fun c => { c with held := c.held ++ [(curRc s, .kv (withUnits u k))] }) := by
  rw [← curRc_unitsGone s u]
  simp only [kvGo, hk]
  cases k <;> rfl

theorem kvGo_error {s : State} {k : KvOp} {f : FaultInfo} (h : inTimed s) (hk : kvCheck s s.cur.part (curPart s).vf k = .error f) (seq : Nat) :
    let t := modCurGraph s (notesWant (kvWants s s.cur.part seq k) (kvNeeds s s.cur.part (curPart s).vf k))
    kvGo s false k seq = takeFault .round t s.cur.part s.cur.slot (seqReport t f) := by
  intro t
  have hgo : kvGo s false k seq = faultSeq t f := by
    simp only [kvGo, hk]
    rfl
  rw [hgo, faultSeq_timed ((inSection_notesWant s _ _).trans h.2)]
  rfl

/-- An entry that is the KV command `k` on the sequence `seq`, enabled by EN of `w` and refused where `bad` (R322). -/
def KvEntry (s : State) (i : Instr) (w : DWord) (bad : Bool) (k : KvOp) (seq : Nat) : Prop :=
  exec i s = .next (if w.getLsbD 63 then kvGo s bad k seq else s)

section
variable {s : State} (h : inTimed s) (a b : CReg) (n : BitVec 24)
include h

theorem kvApp_kvEntry : KvEntry s (.kvApp a n) (cregVal s a) (seqBad (cregVal s a)) (.app ((cregVal s a).toNat % 4096) n.toNat 0)
    ((cregVal s a).toNat % 4096) := by
  change execKvApp a n s = _
  simp only [execKvApp, timedGo_of h, kvEn, bit_eq_getLsbD, bitsN_zero_twelve]

theorem kvFork_kvEntry : KvEntry s (.kvFork a b n) (cregVal s a) (seqBad (cregVal s a) || seqBad (cregVal s b))
    (.fork ((cregVal s a).toNat % 4096) ((cregVal s b).toNat % 4096) n.toNat) ((cregVal s a).toNat % 4096) := by
  change execKvFork a b n s = _
  simp only [execKvFork, timedGo_of h, kvEn, bit_eq_getLsbD, bitsN_zero_twelve]

theorem kvFree_kvEntry : KvEntry s (.kvFree a) (cregVal s a) (seqBad (cregVal s a)) (.free ((cregVal s a).toNat % 4096))
    ((cregVal s a).toNat % 4096) := by
  change execKvFree a s = _
  simp only [execKvFree, timedGo_of h, kvEn, bit_eq_getLsbD, bitsN_zero_twelve]

theorem kvPin_kvEntry : KvEntry s (.kvPin a b) (cregVal s b) (seqBad (cregVal s a) || baseBad (cregVal s b))
    (.pin ((cregVal s a).toNat % 4096) ((cregVal s b).extractLsb' 0 32)) ((cregVal s a).toNat % 4096) := by
  change execKvPin a b s = _
  simp only [execKvPin, timedGo_of h, kvEn, bit_eq_getLsbD, bitsN_zero_twelve, ofNat_bitsN_zero]

theorem kvUnpin_kvEntry : KvEntry s (.kvUnpin b) (cregVal s b) (baseBad (cregVal s b)) (.unpin ((cregVal s b).extractLsb' 0 32))
    (Config.kvBlock 4096).toNat := by
  change execKvUnpin b s = _
  simp only [execKvUnpin, timedGo_of h, kvEn, bit_eq_getLsbD, ofNat_bitsN_zero]

end

section
variable {s : State} {i : Instr} {w : DWord} {bad : Bool} {k : KvOp} {seq : Nat} (hi : KvEntry s i w bad k seq)
include hi

theorem kvEntry_disabled (hen : w.getLsbD 63 = false) : exec i s = .next s := by
  rw [hi, hen]
  rfl

theorem kvEntry_enabled (hen : w.getLsbD 63 = true) : exec i s = .next (kvGo s bad k seq) := by
  rw [hi, hen]
  rfl

theorem kvEntry_holds (hen : w.getLsbD 63 = true) (hbad : bad = false) {u : Nat} (hk : kvCheck s s.cur.part (curPart s).vf k = .ok u) :
    exec i s = .next (onCore (unitsGone s u) (fun c => { c with held := c.held ++ [(curRc s, .kv (withUnits u k))] })) := by
  rw [kvEntry_enabled hi hen, hbad, kvGo_ok hk]

theorem kvEntry_faults (h : inTimed s) (hen : w.getLsbD 63 = true) (hbad : bad = false) {f : FaultInfo}
    (hk : kvCheck s s.cur.part (curPart s).vf k = .error f) :
    ∃ t q m, exec i s = .next (takeFault .round t s.cur.part s.cur.slot (seqReport t f)) ∧ t = modCurGraph s (notesWant q m) :=
  ⟨_, _, _, (kvEntry_enabled hi hen).trans (congrArg _ (by rw [hbad]; exact kvGo_error h hk seq)), rfl⟩

theorem kvEntry_refused (h : inTimed s) (hen : w.getLsbD 63 = true) (hbad : bad = true) :
    exec i s = .next (takeFault .round s s.cur.part s.cur.slot (seqReport s (kvPermAny seq))) := by
  rw [kvEntry_enabled hi hen, hbad, kvGo_bad h]

end

/-! ### The check of a KV command -/

/-- PERM of a KV command on a sequence: INFO[43:32] holds the sequence (R173). -/
def kvRefusal (seq : Nat) (f : FaultInfo) : Prop := f.cls = 2 ∧ f.detail = 0xFFFE ∧ f.info.toNat / 2 ^ 32 = seq ∧ f.lane = none

theorem kvPerm_kvRefusal {seq : Nat} (h : seq < 4096) (blk : Nat) : kvRefusal seq (kvPerm seq blk) := by
  refine ⟨rfl, rfl, ?_, rfl⟩
  simp only [kvPerm, BitVec.toNat_ofNat]
  omega

/-- Of a sequence with a frontier on a block boundary an append needs the blocks that it adds, and no copy (R173, R175). -/
theorem needs_aligned {x : SeqView} (hx : x.f % 16 = 0) (n : Nat) : x.needs n = ((x.f + n + 15) / 16 - x.f / 16, false) := by
  simp only [SeqView.needs, blocksOf, ceilDiv, hx, Prod.mk.injEq]
  refine ⟨?_, rfl⟩
  omega

section
variable {s : State} {p : Nat}

theorem coldFault_cold {seq : Nat} (h : (seqOf s p seq).v = true ∧ (seqOf s p seq).hot = false) :
    coldFault s p seq = some (kvAbsent (seqOf s p seq)) := by simp [coldFault, h]

theorem coldFault_none {seq : Nat} (h : ¬ ((seqOf s p seq).v = true ∧ (seqOf s p seq).hot = false)) : coldFault s p seq = none := by
  simpa [coldFault] using h

theorem coldFault_hot {seq : Nat} (h : (seqOf s p seq).hot = true) : coldFault s p seq = none :=
  coldFault_none (fun hcold => Bool.false_ne_true (hcold.2.symm.trans h))

section
variable {seq : Nat} {f : FaultInfo} (h : coldFault s p seq = some f) (vf : Nat)
include h

theorem kvCheck_app_cold (n u : Nat) : kvCheck s p vf (.app seq n u) = .error f := by simp only [kvCheck, h]

theorem kvCheck_free_cold : kvCheck s p vf (.free seq) = .error f := by simp only [kvCheck, h]

theorem kvCheck_pin_cold (base : BitVec 32) : kvCheck s p vf (.pin seq base) = .error f := by simp only [kvCheck, h]

theorem kvCheck_fork_cold (par n : Nat) : kvCheck s p vf (.fork seq par n) = .error f := by simp only [kvCheck, h]

end

theorem kvCheck_fork_coldParent {seq par : Nat} {f : FaultInfo} (h : coldFault s p seq = none) (hpar : coldFault s p par = some f) (vf n : Nat) :
    kvCheck s p vf (.fork seq par n) = .error f := by simp only [kvCheck, h, hpar]

section
variable {seq vf : Nat} {x : SeqView} (h : coldFault s p seq = none) (hx : (kvAhead s p vf).seq s p vf seq = x)
include h hx

theorem kvCheck_app_refused {n : Nat} (hbad : x.v = false ∨ seqMost < x.f + n) (u : Nat) :
    kvCheck s p vf (.app seq n u) = .error (kvPerm seq (x.f / 16)) := by
  simp only [kvCheck, h, hx]
  exact if_pos (by simpa using hbad)

theorem kvCheck_pin_refused (hbad : x.v = false ∨ x.f % 16 ≠ 0) (base : BitVec 32) :
    kvCheck s p vf (.pin seq base) = .error (kvPerm seq (x.f / 16)) := by
  simp only [kvCheck, h, hx]
  refine if_pos ?_
  rcases hbad with hbad | hbad <;> simp [hbad]

theorem kvCheck_free_refused (hbad : x.v = false) : kvCheck s p vf (.free seq) = .error (kvPermAny seq) := by
  simp [kvCheck, h, hx, hbad]

theorem kvCheck_app_quota {n m : Nat} (hv : x.v = true) (hf : x.f % 16 = 0) (hmost : x.f + n ≤ seqMost) (hm : (x.f + n + 15) / 16 - x.f / 16 = m)
    (hfits : pomFits s p vf m = true) (hquota : (partOf s p).quota < m) (u : Nat) : kvCheck s p vf (.app seq n u) = .error (kvQuota vf) := by
  have hgood : ¬ (!x.v || decide (seqMost < x.f + n)) = true := by simpa [hv] using hmost
  simp only [kvCheck, h, hx, needs_aligned hf, hm, if_neg hgood, hfits]
  exact if_pos hquota

end

/-- Where no round of the partition holds a KV command, the check sees a sequence as it stands. -/
theorem kvAhead_seq_of_nil (h : heldKv s p = []) (vf seq : Nat) : (kvAhead s p vf).seq s p vf seq = KvView.empty.seq s p vf seq := by
  rw [kvAhead, h]
  rfl

end

/-! ### `pxlk`, `pxin`, `pxev` and `flush.frame` -/

section
variable {s : State} {b : CReg} {mt : Fin 16} {line : Nat} (h : inBoundary s) (hb : regionOf (cregVal s b) = .tile mt line)

/-- What the operands of `pxlk`, `pxin` and `pxev` name: hash, parent hash and the tokens at the start of a tile's line (R323). -/
def tileKey (s : State) (a : CReg) (mt : Fin 16) (line : Nat) : PxKey :=
  { h := (cregVal s a).extractLsb' 32 32, prev := (cregVal s a).extractLsb' 0 32
    tok := (tileLine (curCore s) mt.val line).data.toList.take 16 }

include hb

theorem pxOperands_tile (a : CReg) : pxOperands s a b = .ok (tileKey s a mt line) := by
  simp only [pxOperands, hb]
  rfl

include h

theorem pxGo_tile (d a : CReg) (f : State → PxKey → DWord × State) :
    pxGo d a b f s = regGets (f s (tileKey s a mt line)).2 d (f s (tileKey s a mt line)).1 := by
  simp only [pxGo, bndGo_of h, pxOperands_tile hb, setCreg_eq]

theorem exec_pxlk (d a : CReg) :
    let r := pxLookup s (curPart s).vf (tileKey s a mt line)
    exec (.pxlk d a b) s = .next (regGets (if r.1.toNat % 2 ^ 32 = 1 then takePin r.2 s.cur.part (r.1.toNat / 2 ^ 32 % 2 ^ 32) else r.2) d r.1) := by
  change execPxlk d a b s = _
  simp only [execPxlk, pxGo_tile h hb, bitsN_zero]
  rfl

theorem exec_pxev (d a : CReg) :
    let r := pxEvict s (curPart s).vf (tileKey s a mt line)
    exec (.pxev d a b) s = .next (regGets r.2 d r.1) := by
  change execPxev d a b s = _
  rw [execPxev, pxGo_tile h hb]

theorem exec_pxin (d a c : CReg) {q : Nat} (hq : bitsN (cregVal s c) 16 12 = q)
    (hhot : (pxTable s (curPart s).vf).isSome = false ∨ (seqOf s s.cur.part q).v = false ∨ (seqOf s s.cur.part q).hot = true) :
    let r := pxInsert s s.cur.part (curPart s).vf (tileKey s a mt line) q ((cregVal s c).toNat % 65536)
    exec (.pxin d a b c) s = .next (regGets r.2 d r.1) := by
  have hgo : ¬ ((pxTable s (curPart s).vf).isSome && (seqOf s s.cur.part q).v && !(seqOf s s.cur.part q).hot) = true := by
    rcases hhot with hhot | hhot | hhot <;> simp [hhot]
  change execPxin d a b c s = _
  simp only [execPxin, bndGo_of h, pxOperands_tile hb, hq, if_neg hgo, bitsN_zero _ 16, setCreg_eq]
  rfl

end

theorem exec_flushFrame {s : State} (h : inBoundary s) (d a : CReg) {f : Nat} (hf : bitsN (cregVal s a) 0 32 = f) (hv : (frameDesc s f).v = true)
    (howner : (frameDesc s f).owner = (curPart s).vf) :
    exec (.flushFrame d a) s
      = .next (if s.pend.any (fun e => e.1 / 1024 = f) = true then regGets s d 1 else regGets (flushFrame s f) d 0) := by
  have hframe : ∀ k : Nat, frameNo (64 * k) = k / 1024 := fun k => by simp only [frameNo]; omega
  have hgo : ¬ (!(frameDesc s f).v || decide ((frameDesc s f).owner ≠ (curPart s).vf)) = true := by simp [hv, howner]
  change execFlushFrame d a s = _
  simp only [execFlushFrame, bndGo_of h, hf, if_neg hgo, hframe, setCreg_eq]

/-- Settles O27: each KV entry by the KV command that it is and the ends of its check; `pxlk`, `pxin`, `pxev` and `flush.frame` by their equations. -/
theorem kvPrefixAndFlushEntries : Obligations.KvPrefixAndFlushEntries := by
  unfold Obligations.KvPrefixAndFlushEntries
  refine ⟨?_, ?_⟩
  · intro s a b n u h w x p vf takes ok holds
    have happ := kvApp_kvEntry h a n
    have hfork := kvFork_kvEntry h a b n
    have hfree := kvFree_kvEntry h a
    have hpin := kvPin_kvEntry h a b
    have hunpin := kvUnpin_kvEntry h b
    refine ⟨fun hen => ⟨kvEntry_disabled happ hen, kvEntry_disabled hfork hen, kvEntry_disabled hfree hen⟩,
      fun hen => ⟨kvEntry_disabled hpin hen, kvEntry_disabled hunpin hen⟩, fun hen hw => ⟨?_, ?_, ?_⟩, fun hen hx => ⟨?_, ?_⟩, ?_⟩
    · exact fun hk => kvEntry_holds happ hen (seqBad_eq_false hw) hk
    · exact fun hk => kvEntry_holds hfree hen (seqBad_eq_false hw) hk
    · exact fun hx hk => kvEntry_holds hfork hen (Bool.or_eq_false_iff.2 ⟨seqBad_eq_false hw, seqBad_eq_false hx⟩) hk
    · exact fun hw hk => kvEntry_holds hpin hen (Bool.or_eq_false_iff.2 ⟨seqBad_eq_false hw, baseBad_eq_false hx⟩) hk
    · exact fun hk => kvEntry_holds hunpin hen (baseBad_eq_false hx) hk
    intro seq par base q cold absent perm faults refuses
    have hperm : ∀ blk, perm (kvPerm seq blk) := kvPerm_kvRefusal (Nat.mod_lt _ (by decide))
    refine ⟨fun hen hw => ⟨?_, ?_, ?_, ?_⟩, fun hen hw => ⟨?_, ?_, ?_⟩, ?_, ?_, ?_, ?_, ?_, ?_, ?_, ?_, ?_⟩
    · exact fun f hf => kvEntry_faults happ h hen (seqBad_eq_false hw) hf
    · exact fun f hf => kvEntry_faults hfree h hen (seqBad_eq_false hw) hf
    · exact fun f hx hf => kvEntry_faults hfork h hen (Bool.or_eq_false_iff.2 ⟨seqBad_eq_false hw, seqBad_eq_false hx⟩) hf
    · exact fun hx => ⟨_, hperm _, kvEntry_refused hfork h hen (Bool.or_eq_true_iff.2 (.inr (seqBad_eq_true hx)))⟩
    · exact ⟨_, hperm _, kvEntry_refused happ h hen (seqBad_eq_true hw)⟩
    · exact ⟨_, hperm _, kvEntry_refused hfree h hen (seqBad_eq_true hw)⟩
    · exact ⟨_, hperm _, kvEntry_refused hfork h hen (Bool.or_eq_true_iff.2 (.inl (seqBad_eq_true hw)))⟩
    · exact fun hen hw hx f hf => kvEntry_faults hpin h hen (Bool.or_eq_false_iff.2 ⟨seqBad_eq_false hw, baseBad_eq_false hx⟩) hf
    · exact fun hen hbad => ⟨_, hperm _, kvEntry_refused hpin h hen (Bool.or_eq_true_iff.2 (hbad.imp seqBad_eq_true baseBad_eq_true))⟩
    · exact fun hen hx => ⟨_, rfl, rfl, kvEntry_refused hunpin h hen (baseBad_eq_true hx)⟩
    · intro hcold
      have hfault := coldFault_cold hcold
      exact ⟨kvCheck_app_cold hfault vf _ _, kvCheck_free_cold hfault vf, kvCheck_pin_cold hfault vf _, kvCheck_fork_cold hfault vf _ _⟩
    · exact fun hcold hpar => kvCheck_fork_coldParent (coldFault_none hcold) (coldFault_cold hpar) vf _
    · intro hv hheld
      have hview := kvAhead_seq_of_nil hheld vf seq
      have hwarm : coldFault s p seq = none := coldFault_none (fun hcold => Bool.false_ne_true (hv.symm.trans hcold.1))
      simp only [List.forall_mem_cons, List.not_mem_nil, false_imp_iff, implies_true, and_true]
      exact ⟨⟨_, kvCheck_app_refused hwarm hview (.inl hv) _, hperm _⟩, ⟨_, kvCheck_pin_refused hwarm hview (.inl hv) _, hperm _⟩,
        ⟨_, kvCheck_free_refused hwarm hview hv, hperm _⟩⟩
    · exact fun _ hhot hheld hmost => ⟨_, kvCheck_app_refused (coldFault_hot hhot) (kvAhead_seq_of_nil hheld vf seq) (.inr hmost) _, hperm _⟩
    · exact fun _ hhot hheld hf => ⟨_, kvCheck_pin_refused (coldFault_hot hhot) (kvAhead_seq_of_nil hheld vf seq) (.inr hf) _, hperm _⟩
    · exact fun hv hhot hheld hf hmost hfits hquota =>
        kvCheck_app_quota (coldFault_hot hhot) (kvAhead_seq_of_nil hheld vf seq) hv hf hmost rfl hfits hquota _
  · intro s d a b c mt line h p vf k q
    refine ⟨fun hb => ⟨exec_pxlk h hb d a, exec_pxev h hb d a, fun hhot => exec_pxin h hb d a c rfl hhot⟩, fun hv howner => ⟨fun hp => ?_, fun hp => ?_⟩⟩
    · rw [exec_flushFrame h d a (bitsN_zero _ 32) hv howner, if_pos hp]
    · rw [exec_flushFrame h d a (bitsN_zero _ 32) hv howner, if_neg (by rw [hp]; exact Bool.false_ne_true)]

end Sys2Proof.Laws
end

section
/-! SUPPORT. The phase boundary (R63, R137, R141, R183 to R185, R187): what publication makes of memory, what publication leaves of a partition, and
where start pulses stop and resume, with O51. -/

namespace Sys2Proof.Laws

open Sys2Proof.Machine Sys2Proof.Safety

/-! ### Reads of a table whose keys rise -/

theorem tfind_eq_none_of_ne {α : Type} {t : Table α} {n : Nat} (h : ∀ e ∈ t, e.1 ≠ n) : tfind t n = none := by
  induction t with
  | nil => rfl
  | cons e r ih =>
    obtain ⟨hhead, htail⟩ := List.forall_mem_cons.1 h
    rw [tfind, if_neg hhead, ih htail]

theorem tfind_filter {α : Type} {t : Table α} (h : keysRise t = true) (f : Nat × α → Bool) (n : Nat) :
    tfind (t.filter f) n = (tfind t n).filter (fun x => f (n, x)) := by
  refine Option.ext fun x => ?_
  rw [← mem_iff_tfind (keysRise_filter t f h), List.mem_filter, mem_iff_tfind h, Option.filter_eq_some_iff]

/-! ### Publication (R184 step 3, R185, R187) -/

/-- The bytes of a table written to memory, in their order. -/
def writeListed (m : Memory) (t : Table Byte) : Memory := t.foldl (fun m b => writeB m b.1 b.2) m

/-- The bytes of a list of pending sectors written to memory. -/
def writeSectors (m : Memory) (l : Table PendSector) : Memory := l.foldl (fun m e => writeListed m e.2.bytes) m

/-- The byte that a pending table holds for an address, in the sector of the address. -/
def pendByte (l : Table PendSector) (a : Nat) : Option Byte := (tfind l (a / 64)).bind (fun q => tfind q.bytes a)

/-- A pending table in canonical form: its keys rise, and so do those of each sector, which holds bytes of its own 64 alone. -/
def pendCanon (l : Table PendSector) : Prop :=
  keysRise l = true ∧ ∀ e ∈ l, keysRise e.2.bytes = true ∧ ∀ b ∈ e.2.bytes, b.1 / 64 = e.1

theorem publish_mem (s : State) (p : Nat) : (publish s p).mem = writeSectors s.mem (s.pend.filter (fun e => e.2.part = p)) := rfl

theorem pendingB_eq (s : State) (a : Nat) : pendingB s a = (pendByte s.pend a).getD (readB s.mem a) := by
  unfold pendingB pendByte
  cases tfind s.pend (a / 64) with
  | none => rfl
  | some q => cases h : tfind q.bytes a <;> simp [h]

theorem readB_writeListed {t : Table Byte} (h : keysRise t = true) (m : Memory) (a : Nat) :
    readB (writeListed m t) a = (tfind t a).getD (readB m a) := by
  induction t generalizing m with
  | nil => rfl
  | cons e r ih =>
    obtain ⟨hrise, hr⟩ := (keysRise_cons _ _).1 h
    rw [writeListed, List.foldl_cons, ← writeListed, ih hr, readB_writeB, tfind]
    by_cases ha : e.1 = a
    · have hnone : tfind r a = none := tfind_eq_none_of_ne fun q hq => ha ▸ (hrise q hq).ne'
      rw [hnone, if_pos ha, if_pos ha.symm]
      rfl
    · rw [if_neg ha, if_neg (Ne.symm ha)]

theorem pendCanon_filter {l : Table PendSector} (h : pendCanon l) (f : Nat × PendSector → Bool) : pendCanon (l.filter f) :=
  ⟨keysRise_filter l f h.1, fun e he => h.2 e (List.mem_filter.1 he).1⟩

/-- Each byte is written once: by its own sector, which no other entry of the table is. -/
theorem readB_writeSectors {l : Table PendSector} (h : pendCanon l) (m : Memory) (a : Nat) :
    readB (writeSectors m l) a = (pendByte l a).getD (readB m a) := by
  induction l generalizing m with
  | nil => rfl
  | cons e r ih =>
    obtain ⟨hkeys, hsectors⟩ := h
    obtain ⟨hrise, hr⟩ := (keysRise_cons _ _).1 hkeys
    obtain ⟨⟨hbytes, hown⟩, hrest⟩ := List.forall_mem_cons.1 hsectors
    rw [writeSectors, List.foldl_cons, ← writeSectors, ih ⟨hr, hrest⟩, readB_writeListed hbytes, pendByte, pendByte, tfind]
    by_cases hk : e.1 = a / 64
    · have hnone : tfind r (a / 64) = none := tfind_eq_none_of_ne fun q hq => hk ▸ (hrise q hq).ne'
      rw [hnone, if_pos hk]
      rfl
    · have hnone : tfind e.2.bytes a = none := tfind_eq_none_of_ne fun b hb hba => hk (by rw [← hown b hb, hba])
      rw [hnone, if_neg hk]
      rfl

/-- What publication makes of a byte: the pending one, where the sector is the partition's. -/
theorem readB_publish {s : State} (h : pendCanon s.pend) (p a : Nat) :
    readB (publish s p).mem a = (((tfind s.pend (a / 64)).filter (fun q => q.part = p)).bind (fun q => tfind q.bytes a)).getD (readB s.mem a) := by
  rw [publish_mem, readB_writeSectors (pendCanon_filter h _), pendByte, tfind_filter h.1]

theorem readB_publish_own {s : State} (h : pendCanon s.pend) {p a : Nat} {q : PendSector} (hq : tfind s.pend (a / 64) = some q) (hown : q.part = p) :
    readB (publish s p).mem a = pendingB s a := by
  rw [readB_publish h, pendingB_eq, pendByte, hq, Option.filter_some, if_pos (decide_eq_true hown)]

theorem readB_publish_other {s : State} (h : pendCanon s.pend) {p a : Nat} (hother : ∀ q, tfind s.pend (a / 64) = some q → q.part ≠ p) :
    readB (publish s p).mem a = readB s.mem a := by
  have hnone : (tfind s.pend (a / 64)).filter (fun q => q.part = p) = none :=
    Option.filter_eq_none_iff.2 fun q hq => by simpa using hother q hq
  rw [readB_publish h, hnone]
  rfl

/-! ### The posts and the phase record (R63, R184 steps 4 and 5) -/

theorem performPost_besideHide (s : State) (p : Nat) (e : PostEnt) : besideHide (performPost s p e) = besideHide s := by
  simp [performPost]

/-- The posts work on hide words alone. -/
theorem performPosts_besideHide (s : State) (p : Nat) (l : List PostEnt) : besideHide (l.foldl (fun s e => performPost s p e) s) = besideHide s :=
  foldl_keeps besideHide (fun s e => performPost_besideHide s p e) l s

/-- A partition at the end of a phase: its version store and its posts are used up, its phase record starts again. -/
def phaseEnded (x : Part) : Part := { x with verUsed := [], post := [], phn := x.phn + 1, phAcpt := 0, phCmpl := 0 }

section
variable (s : State) (p : Nat)

theorem publishPhase_mem : (publishPhase s p).mem = (publish s p).mem := (congrArg State.mem (performPosts_besideHide (publish s p) p _) :)

theorem publishPhase_pend : (publishPhase s p).pend = s.pend.filter (fun e => e.2.part ≠ p) :=
  (congrArg State.pend (performPosts_besideHide (publish s p) p _) :)

theorem publishPhase_part : partOf (publishPhase s p) p = phaseEnded (partOf s p) := by
  have hparts := parts_of_besideMemory (besideMemory_of_besideHide (performPosts_besideHide (publish s p) p (partOf (publish s p) p).post))
  have hpublish : partOf (publish s p) p = { partOf s p with verUsed := [] } := (partOf_modPart _ _ _ _).trans (if_pos rfl)
  rw [publishPhase, partOf_modPart, if_pos rfl, partOf_of_parts hparts, hpublish]
  rfl

end

/-! ### The steps of a boundary (R80, R183, R184) -/

/-- The first step of a boundary: start pulses stop. -/
def boundaryBegun (s : State) (p : Nat) : State :=
  if (partOf s p).bndStarted then s else putPart s p { partOf s p with bndStarted := true, bndReq := false }

/-- The end of a boundary: start pulses resume, unless a save or a restore is still to come. -/
def pulsesResumed (s : State) (p : Nat) : State := modPart s p (fun x => { x with bndStarted := decide (x.switching ≠ .none) })

/-- Is a boundary to be worked on: asked for or begun, with no HITCH and no reset of the partition? -/
def boundaryDue (s : State) (p : Nat) : Prop :=
  s.hitch = false ∧ (partOf s p).resetting = false ∧ ((partOf s p).bndReq = true ∨ (partOf s p).bndStarted = true)

section
variable {s : State} {part : BitVec 6}

theorem phaseBoundary_notAsked (hreq : (partOf s part.toNat).bndReq = false) (hstarted : (partOf s part.toNat).bndStarted = false) :
    exec (.phaseBoundary part) s = .next s := congrArg Host.Outcome.next (if_pos (by simp [hreq, hstarted]))

/-- A boundary that is due takes the step that the switch of contexts has come to. -/
theorem phaseBoundary_due (h : boundaryDue s part.toNat) :
    exec (.phaseBoundary part) s = .next (
      if (partOf s part.toNat).switching = .save then saveSlice s part.toNat
      else if (partOf s part.toNat).switching = .restore then pulsesResumed (restoreSlice s part.toNat) part.toNat
      else if !boundaryReady (boundaryBegun s part.toNat) part.toNat then boundaryBegun s part.toNat
      else pulsesResumed (endSlice (installLoads (performHeld (publishPhase (boundaryBegun s part.toNat) part.toNat) part.toNat) part.toNat)
        part.toNat) part.toNat) := by
  obtain ⟨hhitch, hreset, hasked⟩ := h
  have hwork := Bool.or_eq_true_iff.2 hasked
  exact congrArg Host.Outcome.next (if_neg (by simp [hhitch, hreset, hwork]))

theorem phaseBoundary_saves (h : boundaryDue s part.toNat) (hsw : (partOf s part.toNat).switching = .save) :
    exec (.phaseBoundary part) s = .next (saveSlice s part.toNat) := by rw [phaseBoundary_due h, if_pos hsw]

theorem phaseBoundary_restores (h : boundaryDue s part.toNat) (hsw : (partOf s part.toNat).switching = .restore) :
    exec (.phaseBoundary part) s = .next (pulsesResumed (restoreSlice s part.toNat) part.toNat) := by
  rw [phaseBoundary_due h, if_neg (by simp [hsw]), if_pos hsw]

theorem phaseBoundary_waits (h : boundaryDue s part.toNat) (hsw : (partOf s part.toNat).switching = .none)
    (hready : boundaryReady (boundaryBegun s part.toNat) part.toNat = false) :
    exec (.phaseBoundary part) s = .next (boundaryBegun s part.toNat) := by
  rw [phaseBoundary_due h, if_neg (by simp [hsw]), if_neg (by simp [hsw]), if_pos (by simp [hready])]

theorem phaseBoundary_publishes (h : boundaryDue s part.toNat) (hsw : (partOf s part.toNat).switching = .none)
    (hready : boundaryReady (boundaryBegun s part.toNat) part.toNat = true) :
    exec (.phaseBoundary part) s = .next (pulsesResumed (endSlice (installLoads
      (performHeld (publishPhase (boundaryBegun s part.toNat) part.toNat) part.toNat) part.toNat) part.toNat) part.toNat) := by
  rw [phaseBoundary_due h, if_neg (by simp [hsw]), if_neg (by simp [hsw]), if_neg (by simp [hready])]

end

/-! ### O51 -/

/-- Settles O51: the posts leave memory, the pending table and the partition as publication has left them, and publication writes each byte once. -/
theorem phaseBoundaryPublishes : Obligations.PhaseBoundaryPublishes := by
  unfold Obligations.PhaseBoundaryPublishes
  intro s part a p x s1 t pulses
  have hpart : partOf t p = phaseEnded x := publishPhase_part s p
  refine ⟨fun hhitch hreset hasked => ?_, phaseBoundary_notAsked, congrArg Part.phn hpart, congrArg Part.post hpart, congrArg Part.phAcpt hpart,
    congrArg Part.phCmpl hpart, fun e he => ?_, fun hkeys hsectors => ?_⟩
  · have hdue : boundaryDue s p := ⟨hhitch, hreset, hasked⟩
    exact ⟨phaseBoundary_publishes hdue, phaseBoundary_waits hdue, phaseBoundary_saves hdue, phaseBoundary_restores hdue⟩
  · have hpend : t.pend = s.pend.filter (fun e => e.2.part ≠ p) := publishPhase_pend s p
    rw [hpend] at he
    exact of_decide_eq_true (List.mem_filter.1 he).2
  · have hcanon : pendCanon s.pend := ⟨hkeys, hsectors⟩
    have hmem : t.mem = (publish s p).mem := publishPhase_mem s p
    rw [hmem]
    exact ⟨fun _ => readB_publish_own hcanon, readB_publish_other hcanon⟩

end Sys2Proof.Laws
end

section
/-! SUPPORT. Sources that are read through a stamp bank, and entries that fault on a source (R128, R222, R223, R264, R280); with O11. -/

namespace Sys2Proof.Laws

open Sys2Proof.Machine Sys2Proof.Safety

/-! ### The entry that an index names (R223) -/

/-- The index names an entry of the active half. -/
def bankNames (b : Bank) (i : Nat) : Prop := i < b.size[b.half] ∧ (b.valid[b.half]).getLsbD i = true

theorem entry_of_names {b : Bank} {i : Nat} (h : bankNames b i) : b.entry i = some (tget 0 b.ent[b.half] i) := if_pos h

theorem entry_of_not_names {b : Bank} {i : Nat} (h : ¬ bankNames b i) : b.entry i = none := if_neg h

/-! ### Expanded lanes (R222, R223, R280) -/

theorem tab_getElem (f : Fin 32 → Word) (i : Fin 32) : (Lanes.tab f)[i] = f i := by simp [Lanes.tab]

section
variable {v : EView} {bank : Fin 16} {read : Word} {idx : Word → Nat} {raw : Lanes} {i : Fin 32}

theorem expandLanes_lane : (expandLanes v bank read idx raw).val[i] =
    if read.getLsbD i.val = true then (v.k.banks[bank].entry (idx raw[i])).elim 0 lowW else raw[i] := by
  refine (tab_getElem _ i).trans ?_
  cases v.k.banks[bank].entry (idx raw[i]) <;> rfl

theorem expandLanes_lane_unread (hr : read.getLsbD i.val = false) : (expandLanes v bank read idx raw).val[i] = raw[i] := by
  rw [expandLanes_lane, hr, if_neg Bool.false_ne_true]

theorem expandLanes_lane_named (hr : read.getLsbD i.val = true) (h : bankNames v.k.banks[bank] (idx raw[i])) :
    (expandLanes v bank read idx raw).val[i] = lowW (tget 0 v.k.banks[bank].ent[v.k.banks[bank].half] (idx raw[i])) := by
  rw [expandLanes_lane, if_pos hr, entry_of_names h, Option.elim_some]

theorem expandLanes_lane_unnamed (hr : read.getLsbD i.val = true) (h : ¬ bankNames v.k.banks[bank] (idx raw[i])) :
    (expandLanes v bank read idx raw).val[i] = 0 := by
  rw [expandLanes_lane, if_pos hr, entry_of_not_names h, Option.elim_none]

theorem expandLanes_bad_of_zsub (hz : v.k.banks[bank].zsub = true) : (expandLanes v bank read idx raw).bad = none := if_pos hz

/-- A lane that is read and whose index names no entry, as the expansion finds it. -/
def missesEntry (v : EView) (bank : Fin 16) (read : Word) (idx : Word → Nat) (raw : Lanes) (i : Fin 32) : Bool :=
  read.getLsbD i.val && (v.k.banks[bank].entry (idx raw[i])).isNone

theorem missesEntry_of_unnamed (hr : read.getLsbD i.val = true) (h : ¬ bankNames v.k.banks[bank] (idx raw[i])) :
    missesEntry v bank read idx raw i = true := by
  rw [missesEntry, hr, entry_of_not_names h]
  rfl

theorem missesEntry_eq_false (h : read.getLsbD i.val = true → bankNames v.k.banks[bank] (idx raw[i])) :
    missesEntry v bank read idx raw i = false := by
  cases hr : read.getLsbD i.val with
  | false => rw [missesEntry, hr, Bool.false_and]
  | true => rw [missesEntry, hr, entry_of_names (h hr)]; rfl

/-- Under ZSUB one lane that misses is enough for the substitution to be noted. -/
theorem expandLanes_ixz (hz : v.k.banks[bank].zsub = true) (hm : missesEntry v bank read idx raw i = true) :
    (expandLanes v bank read idx raw).ixz = true := by
  have hmem : i ∈ (List.finRange 32).filter (missesEntry v bank read idx raw) := List.mem_filter.2 ⟨List.mem_finRange i, hm⟩
  have hne : ((List.finRange 32).filter (missesEntry v bank read idx raw)).isEmpty = false := by
    simpa using List.ne_nil_of_mem hmem
  exact Bool.and_eq_true_iff.2 ⟨hz, congrArg not hne⟩

/-- Without ZSUB the lowest lane that misses gives the fault. -/
theorem expandLanes_bad_lowest (hz : v.k.banks[bank].zsub = false) (hm : missesEntry v bank read idx raw i = true)
    (hlow : ∀ j, j < i → missesEntry v bank read idx raw j = false) :
    (expandLanes v bank read idx raw).bad = some (indexFault bank (idx raw[i]) i.val) := by
  have hfirst : ((List.finRange 32).filter (missesEntry v bank read idx raw)).head? = some i := by
    rw [List.head?_filter, ← Fin.find?_eq_find?_finRange]
    exact Fin.find?_eq_some_iff.2 ⟨hm, hlow⟩
  exact (if_neg (ne_true_of_eq_false hz)).trans (congrArg (Option.map _) hfirst)

end

/-- The index of a lane word under an expand modifier: its 8-bit or its 4-bit group (R222). -/
def expandIndex (eight : Bool) (grp : Fin 8) (grp8 : Fin 4) (w : Word) : Nat :=
  if eight then w.toNat / 2 ^ (8 * grp8.val) % 256 else w.toNat / 2 ^ (4 * grp.val) % 16

theorem readOpnd_expand (v : EView) (t : NegTy) (read : Word) (c : Src) (bank : Fin 16) (grp : Fin 8) (grp8 : Fin 4) (eight : Bool) :
    readOpnd v t read { src := c, cls := if eight then .x8 bank grp8 else .x4 bank grp, neg := false }
      = expandLanes v bank read (expandIndex eight grp grp8) (srcVal v c) := by
  cases eight <;> rfl

/-! ### Entries that fault on a source (R128) -/

section
variable {s : State} {e : Fin 96} (hs : s.cur.elem = e.val) {f : FaultInfo}
include hs

theorem elemGo_faults {F : EView → EOut} (h : F (elemView s e) = .bad (elemView s e) f) :
    (.next (elemGo s F) : Host.Outcome State Fault Refusal) = .next (faultElem s f) := by
  rw [elemGo_of hs, h, elemEnd_bad]

variable {a b c : Opnd}

theorem lane1_faults {t : NegTy} {lat : Nat} {d : Dst} {g : Word → Word × Flags} (hb : firstBad [opnd s e t a] = some f) :
    (.next (lane1 t lat d a g s) : Host.Outcome State Fault Refusal) = .next (faultElem s f) :=
  elemGo_faults hs (by simp only [opnd] at hb; simp only [hb])

theorem lane2_faults {ta tb : NegTy} {lat : Nat} {d : Dst} {g : Word → Word → Word × Flags}
    (hb : firstBad [opnd s e ta a, opnd s e tb b] = some f) :
    (.next (lane2 ta tb lat d a b g s) : Host.Outcome State Fault Refusal) = .next (faultElem s f) :=
  elemGo_faults hs (by simp only [opnd] at hb; simp only [hb])

theorem lane3_faults {t : NegTy} {lat : Nat} {d : Dst} {g : Word → Word → Word → Word × Flags}
    (hb : firstBad [opnd s e t a, opnd s e t b] = some f) :
    (.next (lane3 t lat d a b g s) : Host.Outcome State Fault Refusal) = .next (faultElem s f) :=
  elemGo_faults hs (by simp only [opnd] at hb; simp only [hb])

theorem cross1_faults {t : NegTy} {lat : Nat} {d : Dst} {g : Lanes → Lanes × Flags} (hb : firstBad [opndAll s e t a] = some f) :
    (.next (cross1 t lat d a g s) : Host.Outcome State Fault Refusal) = .next (faultElem s f) :=
  elemGo_faults hs (by simp only [opndAll] at hb; simp only [hb])

theorem scanWith_faults {g : Fin 6} {d : Dst} {gain : Bool}
    (hb : firstBad [opndAll s e .f32 a, opndAll s e .f32 b, readOpnd (elemView s e) .f32 (firstLanes g.val) c] = some f) :
    (.next (scanWith g d a b c gain s) : Host.Outcome State Fault Refusal) = .next (faultElem s f) :=
  elemGo_faults hs (by simp only [opndAll] at hb; simp only [hb])

theorem scanAffk_faults {g : Fin 6} {j : Fin 4} {d : Dst} (hb : firstBad [opndAll s e .f32 a, opndAll s e .f32 b] = some f) :
    exec (.scanAffk g j d a b) s = .next (faultElem s f) :=
  elemGo_faults hs (by simp only [opndAll] at hb; simp only [hb])

theorem kset_faults {j : Fin 4} (hb : firstBad [opnd s e .f32 a, opnd s e .f32 b] = some f) :
    exec (.kset j a b) s = .next (faultElem s f) :=
  elemGo_faults hs (by simp only [opnd] at hb; simp only [hb])

end

/-! ### O11 -/

/-- Settles O11: the lanes by whether they are read and their index names an entry; the entries by the frame that they run in. -/
theorem expandsAndFaultingSources : Obligations.ExpandsAndFaultingSources := by
  unfold Obligations.ExpandsAndFaultingSources
  refine ⟨?_, ?_⟩
  · intro v t read c bank grp grp8 eight i b h idx good o
    have ho : readOpnd v t read o = expandLanes v bank read (expandIndex eight grp grp8) (srcVal v c) := readOpnd_expand ..
    have hgood : good = fun i => bankNames b (expandIndex eight grp grp8 (srcVal v c)[i]) := rfl
    rw [ho, hgood]
    refine ⟨expandLanes_lane_named, expandLanes_lane_unread, fun hz hr hbad => ?_, fun hz hr hbad hlow => ?_⟩
    · exact ⟨expandLanes_lane_unnamed hr hbad, expandLanes_ixz hz (missesEntry_of_unnamed hr hbad), expandLanes_bad_of_zsub hz⟩
    · exact expandLanes_bad_lowest hz (missesEntry_of_unnamed hr hbad) (fun j hj => missesEntry_eq_false (hlow j hj))
  · intro s e d a b c f n32 bf all mask pair nw pos g op ty xt j hs faults
    simp only [faults, List.forall_mem_cons, List.not_mem_nil, false_imp_iff, implies_true, and_true]
    refine ⟨fun hb => ?f32, fun hb => ?half, fun hb => ?int, fun hb => ?logic, fun hb => ?unary, fun hb => ?bits, lane1_faults hs,
      lane2_faults hs, lane2_faults hs, cross1_faults hs, fun hb => ?trees, fun hb => ?scans, scanAffk_faults hs⟩
    case f32 =>
      have two {lat d g} := lane2_faults hs (lat := lat) (d := d) (g := g) hb
      have three {lat d g} := lane3_faults hs (lat := lat) (d := d) (g := g) hb
      exact ⟨two, two, two, three, three, three, two, two, two, two, two, two, two, two, two, kset_faults hs hb⟩
    case half =>
      have two {lat d g} := lane2_faults hs (lat := lat) (d := d) (g := g) hb
      have three {lat d g} := lane3_faults hs (lat := lat) (d := d) (g := g) hb
      exact ⟨two, two, two, three, three, three, two, two⟩
    case int =>
      have two {lat d g} := lane2_faults hs (lat := lat) (d := d) (g := g) hb
      have three {lat d g} := lane3_faults hs (lat := lat) (d := d) (g := g) hb
      exact ⟨two, two, two, three, two, two, two, two, two, two, two, two, two⟩
    case logic =>
      have two {lat d g} := lane2_faults hs (lat := lat) (d := d) (g := g) hb
      exact ⟨two, two, two, two, two, two, two⟩
    case unary =>
      have one {lat d g} := lane1_faults hs (lat := lat) (d := d) (g := g) hb
      exact ⟨one, one, one, one, one, one⟩
    case bits =>
      have one {lat d g} := lane1_faults hs (lat := lat) (d := d) (g := g) hb
      exact ⟨one, one, one, one, one⟩
    case trees =>
      have tree {lat d g} := cross1_faults hs (lat := lat) (d := d) (g := g) hb
      exact ⟨tree, tree, tree, tree⟩
    case scans => exact ⟨scanWith_faults hs hb, scanWith_faults hs hb⟩

end Sys2Proof.Laws
end

section
/-! SUPPORT. What each move runs: the entry, the section entry, the packet or the input that it names (R55, R200, R256, R349); with O59. -/

namespace Sys2Proof.Laws

open Sys2Proof.Machine Sys2Proof.Safety

/-! ### Urgent work, and the move that is chosen -/

theorem step_urgent {s : State} {i : Instr} {rest : List Instr} (hu : s.urgent = i :: rest) (hh : s.hitch = false) :
    step s = exec i { s with urgent := rest } := by
  simp [step, stepOnce, hu, hh]

theorem step_of_choose {s : State} (hu : s.urgent = []) {m : Move} (hm : (choose s).1 = m) : step s = fire (choose s).2 m := by
  simp [step, stepOnce, hu, hm]

section
variable {s : State} {p slot : Nat}

/-! ### A timed entry (R200, R205, R256) -/

theorem fire_graph_round {g : Graph} {a : Agent} {rest : List Agent} (hg : graphOf s p slot = some g) (hrun : g.run = .round)
    (htodo : g.todo = a :: rest) : fire s (.graph p slot) = fireAgent s p slot a rest := by
  simp only [fire, fireGraph, hg, hrun, htodo]

theorem runEntry_ok (s : State) (i : Instr) : runEntry s (.ok i) = exec i s := rfl

theorem fireAgent_ok {a : Agent} {rest : List Agent} {i : Instr}
    (hi : Machine.entryAt (!decide (a.elem < 96)) (agentList s a).1 (agentList s a).2 = .ok i) :
    fireAgent s p slot a rest = withCheck (entryCheck s a (.ok i)) (exec i (agentState s p slot a rest)) := by
  simp only [fireAgent, hi, runEntry_ok]

theorem withCheck_none (o : Host.Outcome State Fault Refusal) : withCheck none o = o := by
  cases o <;> rfl

theorem withCheck_some_next (c : Instr) (s : State) : withCheck (some c) (.next s) = .next (addUrgent s c) := rfl

/-! ### A section entry (R349, R350) -/

theorem fire_sect {core : Nat} {i : Instr} (hli : (coreOf s (coreNo core)).secLi < (coreOf s (coreNo core)).seqList.length)
    (hcount : (coreOf s (coreNo core)).secCount + 1 < 65536)
    (hi : Machine.entryAt true (coreOf s (coreNo core)).seqList (coreOf s (coreNo core)).secLi = .ok i) :
    fire s (.sect p slot core) = afterSection p slot (exec i (sectionState s p slot core)) := by
  simp only [fire, fireSection, if_neg (Nat.not_le_of_lt hli), if_neg (Nat.not_le_of_lt hcount), hi, runEntry_ok]

/-! ### A packet (R55, R68) -/

theorem fire_stream {vf : Nat} {n : Fin 8} {i : Instr} (hstage : (streamOf s vf n).stage ≠ 4) (hi : packetAt s vf n = .ok i) :
    fire s (.stream vf n) = exec i (packetState s vf n) := by
  simp only [fire, firePacket, if_neg hstage, hi]

theorem fire_stream_halted {vf : Nat} {n : Fin 8} (hstage : (streamOf s vf n).stage = 4) :
    fire s (.stream vf n) = .next (haltWritten (packetState s vf n)) := if_pos hstage

/-! ### Inputs and tasks (R21) -/

theorem fire_inbox_acts {i : Instr} {rest : List Instr} (hin : s.inbox = i :: rest) (ha : inputActs s i = true) :
    fire s .inbox = exec i { s with inbox := rest } := by
  simp only [fire, hin, ha, if_true]

theorem fire_inbox_dropped {i : Instr} {rest : List Instr} (hin : s.inbox = i :: rest) (ha : inputActs s i = false) :
    fire s .inbox = .next { s with inbox := rest } := by
  simp only [fire, hin, ha, Bool.false_eq_true, if_false]

theorem fire_task {i : Instr} {rest : List Instr} (ht : s.tasks = i :: rest) : fire s .task = exec i { s with tasks := rest } := by
  simp only [fire, ht]

end

/-! ### O59 -/

/-- Settles O59, by the move that `choose` names. -/
theorem stepRunsTheDecodedInstruction : Obligations.StepRunsTheDecodedInstruction := by
  unfold Obligations.StepRunsTheDecodedInstruction
  intro s
  refine ⟨fun i rest => step_urgent, fun hu => ⟨?graph, ?sect, ?stream, ?halted, ?input, ?dropped, ?task⟩⟩
  case graph =>
    intro p slot g a rest i hm hg hrun htodo hi
    have hstep := step_of_choose hu hm
    rw [fire_graph_round hg hrun htodo, fireAgent_ok hi] at hstep
    constructor
    · intro hc
      rw [hstep, hc, withCheck_none]
    · intro c u hc hx
      rw [hstep, hc, hx, withCheck_some_next]
  case sect => exact fun p slot core i hm hli hcount hi => (step_of_choose hu hm).trans (fire_sect hli hcount hi)
  case stream => exact fun vf n i hm hstage hi => (step_of_choose hu hm).trans (fire_stream hstage hi)
  case halted => exact fun vf n hm hstage => (step_of_choose hu hm).trans (fire_stream_halted hstage)
  case input => exact fun i rest hm hin ha => (step_of_choose hu hm).trans (fire_inbox_acts hin ha)
  case dropped => exact fun i rest hm hin ha => (step_of_choose hu hm).trans (fire_inbox_dropped hin ha)
  case task => exact fun i rest hm ht => (step_of_choose hu hm).trans (fire_task ht)

end Sys2Proof.Laws
end
